-- ==== Sys2Proof/Word.lean ====
section
/-!
DEFINITION. The word types of the part (R7, R199) and the one container the state is built from.
-/
namespace Sys2Proof

/-- A 64-bit register. -/
abbrev Word := BitVec 64

/-- One byte of memory. -/
abbrev Byte := BitVec 8

/-- A map from numbers, as a list of pairs with strictly rising keys. -/
abbrev SMap (α : Type) := List (Nat × α)

/-- The five scalar cores of a tile, in the order of the core index k (R3, R173). -/
inductive CoreK where
  | c | m | v | x | s
deriving DecidableEq, Repr

/-- The core index k of R173. -/
def CoreK.idx : CoreK → Nat
  | .c => 0
  | .m => 1
  | .v => 2
  | .x => 3
  | .s => 4

/-- The core of an index; every value above 3 is read as the S-core. -/
def CoreK.ofIdx : Nat → CoreK
  | 0 => .c
  | 1 => .m
  | 2 => .v
  | 3 => .x
  | _ => .s

/-- The five cores in the order C, M, V, X, S. -/
def CoreK.all : List CoreK := [.c, .m, .v, .x, .s]

end Sys2Proof
end

