-- ==== Sys2Proof/Syntax.lean ====
section
/-!
DEFINITION. The instructions: one constructor per row of the opcode table. A core instruction carries its operand
bundle `Ops` (the fields of R199, with the operand fields read as registers by R200); an event of the machine or of its
surroundings carries what the outside supplies.
-/
namespace Sys2Proof

/-- The predicate, wait and signal fields that every instruction word carries (R199). -/
structure Hdr where
  prd : BitVec 4
  wsem : BitVec 8
  wthr : BitVec 4
  ssem : BitVec 8
  sinc : BitVec 3
deriving DecidableEq, Repr

/-- An operand field of R200: a scalar, vector, stream, predicate, stochastic or accumulator register, or a constant. -/
inductive Opd where
  /-- The scalar latch. -/
  | prv
  | o (n : Nat)
  | m (n : Nat)
  | g (n : Nat)
  | zero
  | imm
  | s (n : Nat)
  | p (n : Nat)
  | z (n : Nat)
  | a (n : Nat)
  /-- The vector latch. -/
  | vprv
  | v (n : Nat)
  /-- Bits of an immediate held in an operand field (R229). -/
  | byte (b : BitVec 8)
deriving DecidableEq, Repr

/-- The operand bundle of a core instruction. A field the entry does not use holds `prv` (encoded 0x00), 0 or false. -/
structure Ops where
  h : Hdr
  fmt : BitVec 3
  d : Opd
  a : Opd
  b : Opd
  c : Opd
  imm : BitVec 20
  mod : BitVec 5
deriving DecidableEq, Repr

/-- The register fields of a command processor's R-form instruction (R435). -/
structure CpR where
  rd : BitVec 5
  rs1 : BitVec 5
  rs2 : BitVec 5
deriving DecidableEq, Repr

/-- What the detectors of a medium port read in one frame: the beacon of R147 and the period's slot counts. -/
structure Frame where
  /-- The keeper's period number and signature. -/
  p : BitVec 48
  sig : BitVec 48
  epoch : BitVec 32
  abortMiscount : Bool
  abortRoster : Bool
  /-- Armed slots on the pilot and on wavelength 3, bit i for roster index i. -/
  armed1 : BitVec 32
  armed2 : BitVec 32
  rekey1 : BitVec 32
  rekey2 : BitVec 32
  /-- Bit w: some copy of member w's reject flag reads 1. -/
  reject : BitVec 32
  /-- Some beacon slot reads above 1; for an armed slot, `armedOver` also. -/
  overlit : Bool
  armedOver : Bool
  /-- Every pilot mark lies within tolerance (R148). -/
  marksOk : Bool
  /-- Writers counted in period bit b (R153); an unlisted bit counts 0. -/
  counts : SMap Nat
deriving DecidableEq, Repr

/-- The eight operations of an atomic (R264). -/
inductive AtomOp where
  | add | and | or | xor | max | min | xchg | cas
deriving DecidableEq, Repr

/-- The operation a fabric request asks of its destination (R93). -/
inductive FabOp where
  | load (len : Nat)
  | store (bytes : List Byte)
  | atomic (op : AtomOp) (wide uns : Bool) (v nv : Word)
  /-- One 64-byte piece of a reduce-put: its element type, its operation and the bytes of its sources (R275). -/
  | reduce (ety op : Nat) (srcs : List (List Byte))
  /-- One of these on bytes that a swap aperture has taken apart: the address of each (R30). -/
  | spread (pas : List Nat) (op : FabOp)
deriving DecidableEq, Repr

/-- What another package answers to a request: its data or acknowledgement, a refusal for its generation, an answer whose tag
fails here, or that the pair is broken (R420). -/
inductive FabAns where
  | ok | refused | badTag | broken
deriving DecidableEq, Repr

/-- A fabric request of another package as it arrives (R93, R420). -/
structure FabReq where
  src : Nat
  /-- The generation it names (R420, R421). -/
  gen : BitVec 32
  seq : Nat
  /-- Whether the GCM tag verifies. -/
  tagOk : Bool
  pa : Nat
  op : FabOp
  /-- The virtual function whose job it is applied for, if any (R432). -/
  vf : Option Nat
deriving DecidableEq, Repr

/-- A data packet of another package's copy (R95). -/
structure FabPkt where
  src : Nat
  transfer : Nat
  /-- The generation it names (R420, R421). -/
  gen : BitVec 32
  tagOk : Bool
  pa : Nat
  /-- Bytes to store, or a piece of a reduce-put. -/
  op : FabOp
  /-- Length of the whole transfer and the address of its flag, if it names one. -/
  total : Nat
  flag : Option Nat
  vf : Option Nat
deriving DecidableEq, Repr

/-- A machine check as the part raises it (R404). -/
structure MCheck where
  code : Byte
  /-- Tile and core it is taken on; for 0xF5 every core of the package or of the row. -/
  t : Nat
  k : CoreK
  /-- 0xF3: further cores whose chunk or engine instruction waits on the link. -/
  more : List (Nat × CoreK)
  cfad : Word
  kind : BitVec 4
  space : BitVec 4
  /-- 0xF2: the port; 0xF5: the row whose arbiter failed, or none for the package arbiter. -/
  port : Bool
  row : Option Nat
deriving DecidableEq, Repr

/-- A domain manifest (R417). -/
structure Manifest where
  domain : BitVec 32
  leader : Nat
  members : List Nat
  digests : List (BitVec 512)
  /-- Ranges of memory that each package exports to the domain: package, first address, end (R35). -/
  exports : List (Nat × Nat × Nat)
deriving DecidableEq, Repr

/-- The end of a port's head exchange, with what the alignments of the other writers of a block-scaled exchange were: whether
one was inexact, and the elements that they clamped (R156). -/
structure ExchEnd where
  port : Bool
  inexact : Bool
  clamped : List Nat
deriving DecidableEq, Repr

/-- What a leader sends with a domain key: the key, its measurements and its evidence (R418). -/
structure LeaderKey where
  key : BitVec 256
  measured : List (BitVec 512)
  proof : List Word
deriving DecidableEq, Repr

/-- Whether a peer's offer holds each algorithm of R415. -/
structure AlgSet where
  rsaPss4096 : Bool
  sha512 : Bool
  ecdheP384 : Bool
  aes256Gcm : Bool
deriving DecidableEq, Repr

/-- What a scrub pass finds in a word (R438). -/
inductive ScrubFind where
  | good | correctable | uncorrectable
deriving DecidableEq, Repr

/-- One constructor per row of the opcode table. -/
inductive Instr where
  /-- ADD, OPC 0x000 (R220). -/
  | add (x : Ops)
  /-- SUB, OPC 0x001 (R220). -/
  | sub (x : Ops)
  /-- MUL, OPC 0x002 (R220). -/
  | mul (x : Ops)
  /-- MULH, OPC 0x003 (R220). -/
  | mulh (x : Ops)
  /-- DIV, OPC 0x004 (R221). -/
  | div (x : Ops)
  /-- REM, OPC 0x005 (R221). -/
  | rem (x : Ops)
  /-- MADD, OPC 0x006 (R220). -/
  | madd (x : Ops)
  /-- MSUB, OPC 0x007 (R220). -/
  | msub (x : Ops)
  /-- ADDX, OPC 0x008 (R220). -/
  | addx (x : Ops)
  /-- ADDCO, OPC 0x009 (R220). -/
  | addco (x : Ops)
  /-- SUBX, OPC 0x00A (R220). -/
  | subx (x : Ops)
  /-- SUBBO, OPC 0x00B (R220). -/
  | subbo (x : Ops)
  /-- ABS, OPC 0x00C (R220). -/
  | abs (x : Ops)
  /-- NEG, OPC 0x00D (R220). -/
  | neg (x : Ops)
  /-- ABSD, OPC 0x00E (R220). -/
  | absd (x : Ops)
  /-- AVG, OPC 0x00F (R220). -/
  | avg (x : Ops)
  /-- AND, OPC 0x010 (R222). -/
  | and (x : Ops)
  /-- OR, OPC 0x011 (R222). -/
  | or (x : Ops)
  /-- XOR, OPC 0x012 (R222). -/
  | xor (x : Ops)
  /-- ANDN, OPC 0x013 (R222). -/
  | andn (x : Ops)
  /-- ORN, OPC 0x014 (R222). -/
  | orn (x : Ops)
  /-- XNOR, OPC 0x015 (R222). -/
  | xnor (x : Ops)
  /-- MOV, OPC 0x016 (R222). -/
  | mov (x : Ops)
  /-- MUX, OPC 0x017 (R222). -/
  | mux (x : Ops)
  /-- SHL, OPC 0x018 (R223). -/
  | shl (x : Ops)
  /-- SHR, OPC 0x019 (R223). -/
  | shr (x : Ops)
  /-- SAR, OPC 0x01A (R223). -/
  | sar (x : Ops)
  /-- ROL, OPC 0x01B (R223). -/
  | rol (x : Ops)
  /-- ROR, OPC 0x01C (R223). -/
  | ror (x : Ops)
  /-- POPC, OPC 0x01D (R223). -/
  | popc (x : Ops)
  /-- CLZ, OPC 0x01E (R223). -/
  | clz (x : Ops)
  /-- CTZ, OPC 0x01F (R223). -/
  | ctz (x : Ops)
  /-- MIN, OPC 0x020 (R224). -/
  | min (x : Ops)
  /-- MAX, OPC 0x021 (R224). -/
  | max (x : Ops)
  /-- SEL, OPC 0x022 (R224). -/
  | sel (x : Ops)
  /-- CMPEQ, OPC 0x023 (R224). -/
  | cmpeq (x : Ops)
  /-- CMPNE, OPC 0x024 (R224). -/
  | cmpne (x : Ops)
  /-- CMPLT, OPC 0x025 (R224). -/
  | cmplt (x : Ops)
  /-- CMPLE, OPC 0x026 (R224). -/
  | cmple (x : Ops)
  /-- TST, OPC 0x027 (R224). -/
  | tst (x : Ops)
  /-- PAND, OPC 0x028 (R225). -/
  | pand (x : Ops)
  /-- POR, OPC 0x029 (R225). -/
  | por (x : Ops)
  /-- PXOR, OPC 0x02A (R225). -/
  | pxor (x : Ops)
  /-- PANDN, OPC 0x02B (R225). -/
  | pandn (x : Ops)
  /-- SADD, OPC 0x02C (R226). -/
  | sadd (x : Ops)
  /-- SSUB, OPC 0x02D (R226). -/
  | ssub (x : Ops)
  /-- SMUL, OPC 0x02E (R226). -/
  | smul (x : Ops)
  /-- SSHL, OPC 0x02F (R226). -/
  | sshl (x : Ops)
  /-- ADDI, OPC 0x040 (R227). -/
  | addi (x : Ops)
  /-- RSUBI, OPC 0x041 (R227). -/
  | rsubi (x : Ops)
  /-- MULI, OPC 0x042 (R227). -/
  | muli (x : Ops)
  /-- DIVI, OPC 0x043 (R227). -/
  | divi (x : Ops)
  /-- REMI, OPC 0x044 (R227). -/
  | remi (x : Ops)
  /-- ANDI, OPC 0x045 (R227). -/
  | andi (x : Ops)
  /-- ORI, OPC 0x046 (R227). -/
  | ori (x : Ops)
  /-- XORI, OPC 0x047 (R227). -/
  | xori (x : Ops)
  /-- SHLI, OPC 0x048 (R227). -/
  | shli (x : Ops)
  /-- SHRI, OPC 0x049 (R227). -/
  | shri (x : Ops)
  /-- SARI, OPC 0x04A (R227). -/
  | sari (x : Ops)
  /-- ROLI, OPC 0x04B (R227). -/
  | roli (x : Ops)
  /-- RORI, OPC 0x04C (R227). -/
  | rori (x : Ops)
  /-- MINI, OPC 0x04D (R227). -/
  | mini (x : Ops)
  /-- MAXI, OPC 0x04E (R227). -/
  | maxi (x : Ops)
  /-- SADDI, OPC 0x04F (R227). -/
  | saddi (x : Ops)
  /-- LIL, OPC 0x050 (R229). -/
  | lil (x : Ops)
  /-- LIH, OPC 0x051 (R229). -/
  | lih (x : Ops)
  /-- SCADD, OPC 0x052 (R230). -/
  | scadd (x : Ops)
  /-- SCADDU, OPC 0x053 (R230). -/
  | scaddu (x : Ops)
  /-- BFX, OPC 0x054 (R231). -/
  | bfx (x : Ops)
  /-- BFXS, OPC 0x055 (R231). -/
  | bfxs (x : Ops)
  /-- BFI, OPC 0x056 (R231). -/
  | bfi (x : Ops)
  /-- BFXR, OPC 0x057 (R231). -/
  | bfxr (x : Ops)
  /-- BFIR, OPC 0x058 (R231). -/
  | bfir (x : Ops)
  /-- CMPEQI, OPC 0x059 (R232). -/
  | cmpeqi (x : Ops)
  /-- CMPNEI, OPC 0x05A (R232). -/
  | cmpnei (x : Ops)
  /-- CMPLTI, OPC 0x05B (R232). -/
  | cmplti (x : Ops)
  /-- CMPLEI, OPC 0x05C (R232). -/
  | cmplei (x : Ops)
  /-- CMPGTI, OPC 0x05D (R232). -/
  | cmpgti (x : Ops)
  /-- CMPGEI, OPC 0x05E (R232). -/
  | cmpgei (x : Ops)
  /-- TSTI, OPC 0x05F (R232). -/
  | tsti (x : Ops)
  /-- NOP, OPC 0x080 (R241). -/
  | nop (x : Ops)
  /-- END, OPC 0x081 (R241). -/
  | endTask (x : Ops)
  /-- BR, OPC 0x082 (R234). -/
  | br (x : Ops)
  /-- BNZ, OPC 0x083 (R234). -/
  | bnz (x : Ops)
  /-- BZ, OPC 0x084 (R234). -/
  | bz (x : Ops)
  /-- BEOD, OPC 0x085 (R234). -/
  | beod (x : Ops)
  /-- BNEOD, OPC 0x086 (R234). -/
  | bneod (x : Ops)
  /-- DBNZ, OPC 0x087 (R234). -/
  | dbnz (x : Ops)
  /-- BRR, OPC 0x088 (R234). -/
  | brr (x : Ops)
  /-- BTAB, OPC 0x089 (R234). -/
  | btab (x : Ops)
  /-- CALL, OPC 0x08A (R238). -/
  | call (x : Ops)
  /-- CALLR, OPC 0x08B (R238). -/
  | callr (x : Ops)
  /-- RET, OPC 0x08C (R239). -/
  | ret (x : Ops)
  /-- YIELD, OPC 0x08D (R242). -/
  | yield (x : Ops)
  /-- TRAP, OPC 0x08E (R243). -/
  | trap (x : Ops)
  /-- TFENCE, OPC 0x08F (R244). -/
  | tfence (x : Ops)
  /-- SBIND, OPC 0x090 (R249). -/
  | sbind (x : Ops)
  /-- SBINDC, OPC 0x091 (R250). -/
  | sbindc (x : Ops)
  /-- SUNB, OPC 0x092 (R248). -/
  | sunb (x : Ops)
  /-- SREW, OPC 0x093 (R248). -/
  | srew (x : Ops)
  /-- SSKIP, OPC 0x094 (R248). -/
  | sskip (x : Ops)
  /-- SPOS, OPC 0x095 (R248). -/
  | spos (x : Ops)
  /-- SPEEK, OPC 0x096 (R248). -/
  | speek (x : Ops)
  /-- SSTAT, OPC 0x097 (R248). -/
  | sstat (x : Ops)
  /-- LD, OPC 0x0C0 (R255). -/
  | ld (x : Ops)
  /-- ST, OPC 0x0C1 (R255). -/
  | st (x : Ops)
  /-- LDF, OPC 0x0C2 (R255). -/
  | ldf (x : Ops)
  /-- STF, OPC 0x0C3 (R255). -/
  | stf (x : Ops)
  /-- LDP, OPC 0x0C4 (R255). -/
  | ldp (x : Ops)
  /-- STP, OPC 0x0C5 (R255). -/
  | stp (x : Ops)
  /-- LDI, OPC 0x0C6 (R256). -/
  | ldi (x : Ops)
  /-- STI, OPC 0x0C7 (R256). -/
  | sti (x : Ops)
  /-- LDFI, OPC 0x0C8 (R256). -/
  | ldfi (x : Ops)
  /-- STFI, OPC 0x0C9 (R256). -/
  | stfi (x : Ops)
  /-- PREF, OPC 0x0CA (R258). -/
  | pref (x : Ops)
  /-- ZLINE, OPC 0x0CB (R255). -/
  | zline (x : Ops)
  /-- LDO, OPC 0x0CC (R255). -/
  | ldo (x : Ops)
  /-- STO, OPC 0x0CD (R255). -/
  | sto (x : Ops)
  /-- LDPI, OPC 0x0CE (R256). -/
  | ldpi (x : Ops)
  /-- STPI, OPC 0x0CF (R256). -/
  | stpi (x : Ops)
  /-- BMOV, OPC 0x0D0 (R259). -/
  | bmov (x : Ops)
  /-- BFILL, OPC 0x0D1 (R259). -/
  | bfill (x : Ops)
  /-- SPTEST, OPC 0x0D2 (R262). -/
  | sptest (x : Ops)
  /-- SPCAST, OPC 0x0D3 (R263). -/
  | spcast (x : Ops)
  /-- AADD, OPC 0x0D4 (R264). -/
  | aadd (j : BitVec 2) (x : Ops)
  /-- AAND, OPC 0x0D8 (R264). -/
  | aand (j : BitVec 2) (x : Ops)
  /-- AOR, OPC 0x0DC (R264). -/
  | aor (j : BitVec 2) (x : Ops)
  /-- AXOR, OPC 0x0E0 (R264). -/
  | axor (j : BitVec 2) (x : Ops)
  /-- AMAX, OPC 0x0E4 (R264). -/
  | amax (j : BitVec 2) (x : Ops)
  /-- AMIN, OPC 0x0E8 (R264). -/
  | amin (j : BitVec 2) (x : Ops)
  /-- AXCHG, OPC 0x0EC (R264). -/
  | axchg (j : BitVec 2) (x : Ops)
  /-- ACAS, OPC 0x0F0 (R264). -/
  | acas (j : BitVec 2) (x : Ops)
  /-- FENCE, OPC 0x0F4 (R267). -/
  | fence (x : Ops)
  /-- FENCE_F, OPC 0x0F5 (R267). -/
  | fenceF (x : Ops)
  /-- FENCE_E, OPC 0x0F6 (R267). -/
  | fenceE (x : Ops)
  /-- FENCE_H, OPC 0x0F7 (R267). -/
  | fenceH (x : Ops)
  /-- GIVE, OPC 0x100 (R268). -/
  | give (x : Ops)
  /-- TAKE, OPC 0x101 (R268). -/
  | take (x : Ops)
  /-- TTAKE, OPC 0x102 (R268). -/
  | ttake (x : Ops)
  /-- OWNR, OPC 0x103 (R268). -/
  | ownr (x : Ops)
  /-- SEMSET, OPC 0x104 (R269). -/
  | semset (x : Ops)
  /-- SEMADD, OPC 0x105 (R269). -/
  | semadd (x : Ops)
  /-- SEMRD, OPC 0x106 (R269). -/
  | semrd (x : Ops)
  /-- SEMTRY, OPC 0x107 (R269). -/
  | semtry (x : Ops)
  /-- SEMWAIT, OPC 0x108 (R269). -/
  | semwait (x : Ops)
  /-- SEMZ, OPC 0x10B (R269). -/
  | semz (x : Ops)
  /-- VOTE, OPC 0x109 (R270). -/
  | vote (x : Ops)
  /-- VOTEV, OPC 0x10A (R270). -/
  | votev (x : Ops)
  /-- COPY, OPC 0x10C (R273). -/
  | copy (x : Ops)
  /-- COPY2, OPC 0x10D (R274). -/
  | copy2 (x : Ops)
  /-- REDP, OPC 0x10E (R275). -/
  | redp (x : Ops)
  /-- APF, OPC 0x10F (R276). -/
  | apf (x : Ops)
  /-- CFILL, OPC 0x117 (R277). -/
  | cfill (x : Ops)
  /-- TWANY, OPC 0x110 (R278). -/
  | twany (x : Ops)
  /-- TWALL, OPC 0x111 (R278). -/
  | twall (x : Ops)
  /-- TFIND, OPC 0x112 (R278). -/
  | tfind (x : Ops)
  /-- CRES, OPC 0x113 (R278). -/
  | cres (x : Ops)
  /-- CCAN, OPC 0x114 (R278). -/
  | ccan (x : Ops)
  /-- TSTAT, OPC 0x115 (R278). -/
  | tstat (x : Ops)
  /-- TWAIT, OPC 0x116 (R278). -/
  | twait (x : Ops)
  /-- VADD, OPC 0x140 (R286). -/
  | vadd (x : Ops)
  /-- VSUB, OPC 0x141 (R286). -/
  | vsub (x : Ops)
  /-- VMUL, OPC 0x142 (R286). -/
  | vmul (x : Ops)
  /-- VFMA, OPC 0x143 (R286). -/
  | vfma (x : Ops)
  /-- VFMS, OPC 0x144 (R286). -/
  | vfms (x : Ops)
  /-- VFNMA, OPC 0x145 (R286). -/
  | vfnma (x : Ops)
  /-- VMIN, OPC 0x146 (R286). -/
  | vmin (x : Ops)
  /-- VMAX, OPC 0x147 (R286). -/
  | vmax (x : Ops)
  /-- VABS, OPC 0x148 (R286). -/
  | vabs (x : Ops)
  /-- VNEG, OPC 0x149 (R286). -/
  | vneg (x : Ops)
  /-- VDIV, OPC 0x14A (R287). -/
  | vdiv (x : Ops)
  /-- VAND, OPC 0x14B (R286). -/
  | vand (x : Ops)
  /-- VOR, OPC 0x14C (R286). -/
  | vor (x : Ops)
  /-- VXOR, OPC 0x14D (R286). -/
  | vxor (x : Ops)
  /-- VSHL, OPC 0x14E (R286). -/
  | vshl (x : Ops)
  /-- VSHR, OPC 0x14F (R286). -/
  | vshr (x : Ops)
  /-- VCMPEQ, OPC 0x150 (R288). -/
  | vcmpeq (x : Ops)
  /-- VCMPNE, OPC 0x151 (R288). -/
  | vcmpne (x : Ops)
  /-- VCMPLT, OPC 0x152 (R288). -/
  | vcmplt (x : Ops)
  /-- VCMPLE, OPC 0x153 (R288). -/
  | vcmple (x : Ops)
  /-- VCMPUN, OPC 0x154 (R288). -/
  | vcmpun (x : Ops)
  /-- VSEL, OPC 0x155 (R289). -/
  | vsel (x : Ops)
  /-- VMCNT, OPC 0x156 (R289). -/
  | vmcnt (x : Ops)
  /-- VMFF, OPC 0x157 (R289). -/
  | vmff (x : Ops)
  /-- VRSUM, OPC 0x158 (R290). -/
  | vrsum (x : Ops)
  /-- VRMAX, OPC 0x159 (R290). -/
  | vrmax (x : Ops)
  /-- VRMIN, OPC 0x15A (R290). -/
  | vrmin (x : Ops)
  /-- VRAMAX, OPC 0x15B (R290). -/
  | vramax (x : Ops)
  /-- VSCAN, OPC 0x15C (R291). -/
  | vscan (x : Ops)
  /-- VSCANX, OPC 0x15D (R291). -/
  | vscanx (x : Ops)
  /-- VTOPK, OPC 0x15E (R292). -/
  | vtopk (x : Ops)
  /-- VTOPKI, OPC 0x15F (R292). -/
  | vtopki (x : Ops)
  /-- VPERM, OPC 0x160 (R293). -/
  | vperm (x : Ops)
  /-- VBCAST, OPC 0x161 (R293). -/
  | vbcast (x : Ops)
  /-- VEXT, OPC 0x162 (R293). -/
  | vext (x : Ops)
  /-- VINS, OPC 0x163 (R293). -/
  | vins (x : Ops)
  /-- VIOTA, OPC 0x164 (R293). -/
  | viota (x : Ops)
  /-- VGATH, OPC 0x165 (R294). -/
  | vgath (x : Ops)
  /-- VSCAT, OPC 0x166 (R294). -/
  | vscat (x : Ops)
  /-- VRAND, OPC 0x167 (R295). -/
  | vrand (x : Ops)
  /-- VLD, OPC 0x168 (R296). -/
  | vld (x : Ops)
  /-- VST, OPC 0x169 (R296). -/
  | vst (x : Ops)
  /-- VLDS, OPC 0x16A (R296). -/
  | vlds (x : Ops)
  /-- VSTS, OPC 0x16B (R296). -/
  | vsts (x : Ops)
  /-- VLDBC, OPC 0x16C (R296). -/
  | vldbc (x : Ops)
  /-- VSTC, OPC 0x16D (R296). -/
  | vstc (x : Ops)
  /-- VLDM, OPC 0x16E (R296). -/
  | vldm (x : Ops)
  /-- VSTM, OPC 0x16F (R296). -/
  | vstm (x : Ops)
  /-- CVT, OPC 0x180 (R301). -/
  | cvt (src : BitVec 4) (x : Ops)
  /-- FRND, OPC 0x18F (R302). -/
  | frnd (x : Ops)
  /-- VCVT, OPC 0x190 (R303). -/
  | vcvt (src : BitVec 4) (x : Ops)
  /-- VFRND, OPC 0x19D (R302). -/
  | vfrnd (x : Ops)
  /-- VENC, OPC 0x19E (R304). -/
  | venc (x : Ops)
  /-- VDEC, OPC 0x19F (R305). -/
  | vdec (x : Ops)
  /-- EXP2, OPC 0x1A0 (R306). -/
  | exp2 (x : Ops)
  /-- LOG2, OPC 0x1A1 (R306). -/
  | log2 (x : Ops)
  /-- RCP, OPC 0x1A2 (R306). -/
  | rcp (x : Ops)
  /-- RSQ, OPC 0x1A3 (R306). -/
  | rsq (x : Ops)
  /-- VEXP2, OPC 0x1A4 (R306). -/
  | vexp2 (x : Ops)
  /-- VLOG2, OPC 0x1A5 (R306). -/
  | vlog2 (x : Ops)
  /-- VRCP, OPC 0x1A6 (R306). -/
  | vrcp (x : Ops)
  /-- VRSQ, OPC 0x1A7 (R306). -/
  | vrsq (x : Ops)
  /-- MGANG, OPC 0x1C0 (R318). -/
  | mgang (x : Ops)
  /-- MLDB, OPC 0x1C1 (R319). -/
  | mldb (x : Ops)
  /-- MMA, OPC 0x1C2 (R320). -/
  | mma (x : Ops)
  /-- MMG, OPC 0x1C3 (R323). -/
  | mmg (x : Ops)
  /-- MRED, OPC 0x1C4 (R325). -/
  | mred (x : Ops)
  /-- MREDG, OPC 0x1C5 (R325). -/
  | mredg (x : Ops)
  /-- MMV, OPC 0x1C6 (R324). -/
  | mmv (x : Ops)
  /-- MCLR, OPC 0x1C7 (R327). -/
  | mclr (x : Ops)
  /-- MDRAIN, OPC 0x1C8 (R328). -/
  | mdrain (x : Ops)
  /-- MSTAT, OPC 0x1C9 (R329). -/
  | mstat (x : Ops)
  /-- MSPILL, OPC 0x1CA (R330). -/
  | mspill (x : Ops)
  /-- MFILL, OPC 0x1CB (R331). -/
  | mfill (x : Ops)
  /-- BRED, OPC 0x1CC (R333). -/
  | bred (x : Ops)
  /-- BMAX, OPC 0x1CD (R333). -/
  | bmax (x : Ops)
  /-- BSTREAM, OPC 0x1CE (R333). -/
  | bstream (x : Ops)
  /-- BARR, OPC 0x1CF (R335). -/
  | barr (x : Ops)
  /-- BWAIT, OPC 0x1D0 (R336). -/
  | bwait (x : Ops)
  /-- BSTAT, OPC 0x1D1 (R337). -/
  | bstat (x : Ops)
  /-- BCHK, OPC 0x1D2 (R338). -/
  | bchk (x : Ops)
  /-- BKEY, OPC 0x1D3 (R339). -/
  | bkey (x : Ops)
  /-- BENROL, OPC 0x1D4 (R340). -/
  | benrol (x : Ops)
  /-- BLEAVE, OPC 0x1D5 (R341). -/
  | bleave (x : Ops)
  /-- ZGEN, OPC 0x1D6 (R348). -/
  | zgen (x : Ops)
  /-- ZREGEN, OPC 0x1D7 (R348). -/
  | zregen (x : Ops)
  /-- ZAND, OPC 0x1D8 (R349). -/
  | zand (x : Ops)
  /-- ZXNOR, OPC 0x1D9 (R349). -/
  | zxnor (x : Ops)
  /-- ZMUX, OPC 0x1DA (R349). -/
  | zmux (x : Ops)
  /-- ZNOT, OPC 0x1DB (R349). -/
  | znot (x : Ops)
  /-- ZCNT, OPC 0x1DC (R350). -/
  | zcnt (x : Ops)
  /-- ZLD, OPC 0x1DD (R350). -/
  | zld (x : Ops)
  /-- ZST, OPC 0x1DE (R350). -/
  | zst (x : Ops)
  /-- ZCLASS, OPC 0x1DF (R350). -/
  | zclass (x : Ops)
  /-- RDC, OPC 0x1E0 (R354). -/
  | rdc (x : Ops)
  /-- WRC, OPC 0x1E1 (R354). -/
  | wrc (x : Ops)
  /-- WRC_CSPILL, OPC 0x1E1 (R59). -/
  | wrcCspill (x : Ops)
  /-- WRC_CRAS, OPC 0x1E1 (R236). -/
  | wrcCras (x : Ops)
  /-- TRAPRET, OPC 0x1E2 (R356). -/
  | trapret (x : Ops)
  /-- CTXSAVE, OPC 0x1E3 (R357). -/
  | ctxsave (x : Ops)
  /-- CTXLOAD, OPC 0x1E4 (R357). -/
  | ctxload (x : Ops)
  /-- TLBIP, OPC 0x1E5 (R358). -/
  | tlbip (x : Ops)
  /-- TLBIC, OPC 0x1E6 (R358). -/
  | tlbic (x : Ops)
  /-- APTSET, OPC 0x1E7 (R359). -/
  | aptset (x : Ops)
  /-- APTRD, OPC 0x1E8 (R359). -/
  | aptrd (x : Ops)
  /-- TICKWAIT, OPC 0x1E9 (R360). -/
  | tickwait (x : Ops)
  /-- PHASEEND, OPC 0x1EA (R360). -/
  | phaseend (x : Ops)
  /-- CANL, OPC 0x1EB (R361). -/
  | canl (x : Ops)
  /-- CANG, OPC 0x1EC (R361). -/
  | cang (x : Ops)
  /-- CANP, OPC 0x1ED (R361). -/
  | canp (x : Ops)
  /-- CANJ, OPC 0x1EE (R361). -/
  | canj (x : Ops)
  /-- CBLD, OPC 0x1EF (R362). -/
  | cbld (x : Ops)
  /-- ATOMIC_PERFORM: R86: the oldest relaxed atomic queued by core k of tile t is performed at its line's home. -/
  | atomicPerform (t : Nat) (k : CoreK)
  /-- SEM_GRANT: R205: the semaphore unit of tile t grants one waiting core. -/
  | semGrant (t : Nat)
  /-- SEM_OVERFLOW: R206: the pending semaphore overflow of tile t is given to the core that takes it. -/
  | semOverflow (t : Nat)
  /-- COPY_PIECE: R90: the copy engine of tile t moves the next 4 KiB piece of a tag; ext is what a host or remote source returned. -/
  | copyPiece (t tag : Nat) (ext : List Byte)
  /-- GANG_TIMEOUT: R316: the join of tile t's M-core runs out of its TMO. -/
  | gangTimeout (t : Nat)
  /-- MATRIX_COMPLETE: R308: the array finishes the oldest matrix instruction of tile t. -/
  | matrixComplete (t : Nat)
  /-- MATRIX_MISMATCH: R326: the drain at the head of tile t's array queue is compared with its shadow and differs. -/
  | matrixMismatch (t : Nat)
  /-- MEDIUM_FRAME: R162: port runs one frame; f is what its detectors read. -/
  | mediumFrame (port : Bool) (f : Frame)
  /-- EXCHANGE_COMPLETE: R142: a port writes results and record of its head exchange. -/
  | exchangeComplete (e : ExchEnd)
  /-- BUS_FAULT_TAKEN: R163: the C-core of tile t takes the BUS_ fault pending on it. -/
  | busFaultTaken (t : Nat)
  /-- STOCH_ENGINE_COMPLETE: R347: the stochastic engine of tile t performs its oldest entry. -/
  | stochEngineComplete (t : Nat)
  /-- CHUNK_COMMIT: R79: the closed chunk of a core tries to commit. -/
  | chunkCommit (t : Nat) (k : CoreK)
  /-- TRANSLATION_WALK: R38: walker n of a die serves the misses of a page, context and class. -/
  | translationWalk (die n : Nat) (ctx : Byte) (va : Word) (write : Bool)
  /-- FABRIC_REQUEST_APPLY: R93, R420: a request of another package arrives. -/
  | fabricRequestApply (r : FabReq)
  /-- FABRIC_ACK: R93, R94: another package acknowledges or answers request id, or refuses its generation (R420). -/
  | fabricAck (id : Nat) (data : List Byte) (st : FabAns)
  /-- FABRIC_DATA_PACKET: R95: a data packet of another package's copy arrives. -/
  | fabricDataPacket (p : FabPkt)
  /-- TICK_SLIP: R188: a core of a slipped group takes TICK_SLIP. -/
  | tickSlip (t : Nat) (k : CoreK)
  /-- CANCEL: R189: a core takes the CANCEL trap of a phase cancel. -/
  | cancel (t : Nat) (k : CoreK)
  /-- CANCEL_STOP: R189: a core of cancelled work stops at its boundary. -/
  | cancelStop (t : Nat) (k : CoreK)
  /-- MACHINE_CHECK: R404: a machine check is raised. -/
  | machineCheck (c : MCheck)
  /-- PREEMPT_FORCED: R391: a forced save is taken. -/
  | preemptForced (t : Nat) (k : CoreK)
  /-- WATCH_SAVE: R72: the stopped watch of tile t is saved. -/
  | watchSave (t : Nat)
  /-- SAVE_COMPLETE: R389: the save record is complete and the tile becomes free. -/
  | saveComplete (t : Nat)
  /-- WATCH_RESTORE: R396: the saved watches of launch l are placed again. -/
  | watchRestore (l : Nat)
  /-- GANG_SLIP: R403: the slice of launch l passes its join deadline. -/
  | gangSlip (l : Nat)
  /-- LAUNCH_DISPATCH: R174: a command processor takes a launch descriptor. -/
  | launchDispatch (jid : Nat) (addr : Word)
  /-- LAUNCH_PLACE: R175, R373: the placer tries the waiting launches. -/
  | launchPlace
  /-- LAUNCH_AGED: R373: a launch queued for more than 2 ms is aged. -/
  | launchAged (l : Nat)
  /-- TILE_DRAIN_DONE: R401: draining of tile t ends. -/
  | tileDrainDone (t : Nat)
  /-- GRAPH_NODE_END: R179: run r stands on an END node. -/
  | graphNodeEnd (r : Nat)
  /-- GRAPH_NODE_LAUNCH: R179: run r stands on a LAUNCH node. -/
  | graphNodeLaunch (r : Nat)
  /-- GRAPH_NODE_JOIN: R179: run r stands on a JOIN node. -/
  | graphNodeJoin (r : Nat)
  /-- GRAPH_NODE_COND: R179: run r stands on a COND node. -/
  | graphNodeCond (r : Nat)
  /-- GRAPH_NODE_LOOP: R179: run r stands on a LOOP node. -/
  | graphNodeLoop (r : Nat)
  /-- TICK_ARM: R374: the start comparator of launch l's group is loaded. -/
  | tickArm (l : Nat)
  /-- TICK_START_EVENT: R374: a planned start of job jid comes, for the group of a launch or for the plan's own graphs. -/
  | tickStartEvent (jid : Nat) (l : Option Nat)
  /-- PACKET_FETCH: R369: a packet is read ahead; none when the host read fails. -/
  | packetFetch (q idx : Nat) (data : Option (List Word))
  /-- PACKET_START: R372: a command processor picks a queue; again is the packet as a second read returns it. -/
  | packetStart (again : Option (Word × Option (List Word)))
  /-- PACKET_NOP: R368: the NOP packet that queue q started. -/
  | packetNop (q : Nat)
  /-- OPEN_JOB: R368, R172: the OPEN_JOB packet that queue q started. -/
  | openJob (q : Nat)
  /-- CLOSE_JOB: R368: the CLOSE_JOB packet that queue q started. -/
  | closeJob (q : Nat)
  /-- RUN_GRAPH: R368: the RUN_GRAPH packet that queue q started. -/
  | runGraph (q : Nat)
  /-- PACKET_CANCEL: R368: the CANCEL packet that queue q started. -/
  | packetCancel (q : Nat)
  /-- WAIT_MEM: R368: the WAIT_MEM packet that queue q started. -/
  | waitMem (q : Nat)
  /-- WRITE_MEM: R368: the WRITE_MEM packet that queue q started. -/
  | writeMem (q : Nat)
  /-- PACKET_COMPLETE: R368: the oldest finished packet of queue q completes; ok is false when the CVAL write faults. -/
  | packetComplete (q : Nat) (ok : Bool)
  /-- QUEUE_TAIL_WRITE: R367: the host writes TAIL. -/
  | queueTailWrite (q : Nat) (v : Word)
  /-- QUEUE_HALT_CLEAR: R370: the host writes offset 0x20. -/
  | queueHaltClear (q : Nat) (v : Word)
  /-- QUEUE_HEAD_WRITE: R370: the host writes HEAD. -/
  | queueHeadWrite (q : Nat) (v : Word)
  /-- QUEUE_ENABLE_WRITE: R367: the host writes offset 0x08. -/
  | queueEnableWrite (q : Nat) (v : Word)
  /-- HOST_REGISTER_WRITE: R427: the host writes a BAR0 register of function f. -/
  | hostRegisterWrite (f ofs : Nat) (v : Word)
  /-- HOST_WINDOW_WRITE: R429: the host writes through BAR2 of function f. -/
  | hostWindowWrite (f ofs : Nat) (bytes : List Byte)
  /-- HOST_WINDOW_READ: R429: the host reads through BAR2 of function f. -/
  | hostWindowRead (f ofs len : Nat)
  /-- WVAL_READ: R431: the host reads WVAL of a virtual function. -/
  | wvalRead (vf : Nat)
  /-- MIGRATION_STOP: R432: the host writes STOP. -/
  | migrationStop (vf : Nat) (stop : Bool)
  /-- ERROR_COUNTER_CLEAR: R441: the host writes an error-log counter. -/
  | errorCounterClear (ofs : Nat)
  /-- MANIFEST: R417: mailbox request 0x01. -/
  | manifest (m : Manifest)
  /-- LEAVE: R433: mailbox request 0x02. -/
  | leave
  /-- SWITCH: R421: mailbox request 0x03. -/
  | switch
  /-- HANDLE: R423: mailbox request 0x04. -/
  | handle (port : Bool) (keeper keeperPort : Nat) (epoch : BitVec 32)
  /-- MLOG: R433: mailbox request 0x05. -/
  | mlog (piece : Nat)
  /-- DOMAIN_FORM: R418: the leader forms the next generation; each member's measurements (indices 1 to 5 and 7) and its
  evidence are given. -/
  | domainForm (proofs : List (Nat × List (BitVec 512) × List Word))
  /-- DOMAIN_KEY: R418: a member receives a domain key over a session. -/
  | domainKey (session : Nat) (domain gen : BitVec 32) (list : BitVec 512) (m : LeaderKey)
  /-- DOMAIN_ACK: R418: the leader receives an acknowledgement. -/
  | domainAck (member : Nat)
  /-- LOAD_SLOT: R424: a tenant's session loads a key slot. -/
  | loadSlot (session slot jid : Nat) (wrapped : List Word)
  /-- UNLOAD_SLOT: R424, R425: a tenant's session unloads a key slot. -/
  | unloadSlot (session slot : Nat)
  /-- GET_VERSION: R415. -/
  | getVersion (session : Nat) (w : List Word)
  /-- GET_CAPABILITIES: R415. -/
  | getCapabilities (session : Nat) (w : List Word)
  /-- NEGOTIATE_ALGORITHMS: R415: a peer offers its algorithms. -/
  | negotiateAlgorithms (session : Nat) (a : AlgSet)
  /-- GET_DIGESTS: R415. -/
  | getDigests (session : Nat) (w : List Word)
  /-- GET_CERTIFICATE: R415. -/
  | getCertificate (session slot : Nat) (w : List Word)
  /-- CHALLENGE: R415. -/
  | challenge (session : Nat) (w : List Word)
  /-- GET_MEASUREMENTS: R416. -/
  | getMeasurements (session index : Nat) (w : List Word)
  /-- KEY_EXCHANGE: R415: opens a session. -/
  | keyExchange (session : Nat) (betweenPackages : Bool) (w : List Word)
  /-- FINISH: R415: finishes a session's handshake. -/
  | finish (session : Nat) (proof : List Word)
  /-- KEY_UPDATE: R415. -/
  | keyUpdate (session : Nat)
  /-- HEARTBEAT: R415. -/
  | heartbeat (session : Nat)
  /-- END_SESSION: R415. -/
  | endSession (session : Nat)
  /-- IDE_KM: R430: sets an IDE stream's keys. -/
  | ideKm (session stream : Nat) (key : BitVec 256)
  /-- LOCK_INTERFACE: R430. -/
  | lockInterface (session vf : Nat)
  /-- STOP_INTERFACE: R430. -/
  | stopInterface (session vf : Nat)
  /-- TDISP_VIOLATION: R430: a TLP breaks the TDI's state. -/
  | tdispViolation (vf : Nat)
  /-- MCTP_CONTROL: R433. -/
  | mctpControl (w : List Word)
  /-- ENTDAA: R433: the controller is given a dynamic address. -/
  | entdaa (addr : BitVec 7)
  /-- SENSOR_READ: R433. -/
  | sensorRead (which : Nat)
  /-- POWER_CAP_SET: R433. -/
  | powerCapSet (watts : Nat)
  /-- RAIL_SWITCH: R433. -/
  | railSwitch (on : Bool)
  /-- ERROR_LOG_READ: R433: PLDM OEM command 0x01. -/
  | errorLogRead (ofs : Nat)
  /-- PLDM_FIRMWARE_UPDATE: R433: PLDM type 5. -/
  | pldmFirmwareUpdate (w : List Word)
  /-- POWER_ON: R437. -/
  | powerOn
  /-- COLD_START: R436, R437. -/
  | coldStart
  /-- WARM_START: R436, R437. -/
  | warmStart
  /-- VF_FLR: R437: Function Level Reset of a virtual function. -/
  | vfFlr (vf : Nat)
  /-- SCRUB_PASS: R438: the scrub reads the word at a memory key. -/
  | scrubPass (key : Nat) (found : ScrubFind)
  /-- RFETCH: R435: custom instruction of a command processor. -/
  | rfetch (x : CpR)
  /-- BFEX: R435. -/
  | bfex (x : CpR)
  /-- SIGWAIT: R435. -/
  | sigwait (rel : BitVec 7) (x : CpR)
  /-- DISP: R435; rs2 is x0. -/
  | disp (x : CpR)
  /-- MATRIX_READ_DONE: R51: the array has read the slabs of an instruction of tile t. -/
  | matrixReadDone (t : Nat)
  /-- REMOTE_BLOCK_REREAD: R181: a loop-count block on another package, which request id has read, is read again. -/
  | remoteBlockReread (t : Nat) (k : CoreK) (id : Nat)
  /-- HOST_READ_COMPLETION: R267: a read completion returns on the host link. -/
  | hostReadCompletion (id : Nat) (data : Option (List Byte))
  /-- PLDM_TYPE_0: R433. -/
  | pldmType0 (w : List Word)
deriving DecidableEq, Repr

end Sys2Proof
end

