-- ==== Sys2Proof/Decode.lean ====
section
/-!
DEFINITION. The encoding of the core instructions (R199 to R204, R208) as one table of rows, the decode checks of R204
that depend on the word alone, the decoder, the command processors' custom instructions (R435), and the encoder.
The definitions that build an instruction are marked noncomputable for one reason: Lean 4.33 generates no code for a
constructor with fields past the 244th of its type. The kernel evaluates them as any definition.
Log entries (notes/assumptions): 42 DEDUCED, 53 DEDUCED, 54 DEDUCED.
-/
namespace Sys2Proof

/-- The fields of a 96-bit instruction word (R199). -/
structure Raw where
  opc : BitVec 9
  fmt : BitVec 3
  df : BitVec 8
  af : BitVec 8
  bf : BitVec 8
  cf : BitVec 8
  imm : BitVec 20
  h : Hdr
  mod : BitVec 5
deriving DecidableEq, Repr

/-- The fields of a word (R199). -/
def Raw.ofWord (w : BitVec 96) : Raw :=
  { opc := w.extractLsb' 87 9, fmt := w.extractLsb' 84 3, df := w.extractLsb' 76 8, af := w.extractLsb' 68 8,
    bf := w.extractLsb' 60 8, cf := w.extractLsb' 52 8, imm := w.extractLsb' 32 20,
    h := { prd := w.extractLsb' 28 4, wsem := w.extractLsb' 20 8, wthr := w.extractLsb' 16 4,
           ssem := w.extractLsb' 8 8, sinc := w.extractLsb' 5 3 },
    mod := w.extractLsb' 0 5 }

/-- The word of its fields (R199). -/
def Raw.toWord (r : Raw) : BitVec 96 :=
  r.opc ++ r.fmt ++ r.df ++ r.af ++ r.bf ++ r.cf ++ r.imm ++ r.h.prd ++ r.h.wsem ++ r.h.wthr ++ r.h.ssem ++ r.h.sinc
    ++ r.mod

/-- The encoding of an operand field: level in bits 7:6, index in bits 5:0 (R200). -/
def Opd.enc : Opd → BitVec 8
  | .prv => 0x00
  | .o n => BitVec.ofNat 8 (0x40 + n)
  | .m n => BitVec.ofNat 8 (0x80 + n)
  | .g n => BitVec.ofNat 8 (0x98 + n)
  | .zero => 0xC0
  | .imm => 0xC1
  | .s n => BitVec.ofNat 8 (0xC8 + n)
  | .p n => BitVec.ofNat 8 (0xD0 + n)
  | .z n => BitVec.ofNat 8 (0xD8 + n)
  | .a n => BitVec.ofNat 8 (0xE0 + n)
  | .vprv => 0x00
  | .v n => BitVec.ofNat 8 (0x80 + n)
  | .byte b => b

/-- The operand a scalar field names (R200). -/
def Opd.ofScalar (f : BitVec 8) : Option Opd :=
  let n := f.toNat
  if n = 0 then some .prv
  else if 0x40 ≤ n ∧ n < 0x48 then some (.o (n - 0x40))
  else if 0x80 ≤ n ∧ n < 0x98 then some (.m (n - 0x80))
  else if 0x98 ≤ n ∧ n < 0xA0 then some (.g (n - 0x98))
  else if n = 0xC0 then some .zero
  else if n = 0xC1 then some .imm
  else if 0xC8 ≤ n ∧ n < 0xD0 then some (.s (n - 0xC8))
  else if 0xD0 ≤ n ∧ n < 0xD8 then some (.p (n - 0xD0))
  else if 0xD8 ≤ n ∧ n < 0xE0 then some (.z (n - 0xD8))
  else if 0xE0 ≤ n ∧ n < 0xF0 then some (.a (n - 0xE0))
  else none

/-- The operand a vector field names (R200). -/
def Opd.ofVector (f : BitVec 8) : Option Opd :=
  let n := f.toNat
  if n = 0 then some .vprv
  else if 0x80 ≤ n ∧ n < 0xA0 then some (.v (n - 0x80))
  else if n = 0xC0 then some .zero
  else none

/-- What an entry lets an operand field hold. -/
inductive FieldC where
  /-- Not used: zero (R204). -/
  | unused
  /-- A scalar source, `imm` among them. -/
  | src
  /-- A scalar source other than `imm`. -/
  | srcR
  /-- A scalar destination. -/
  | dst
  /-- m0 to m23 or g0 to g7. -/
  | mg
  /-- A pair of m registers (R203). -/
  | pair
  /-- A stream, named and neither read nor advanced (R234, R248). -/
  | strm
  | z
  | acc
  /-- A vector group of the size MOD[1:0] gives (R282). -/
  | vg
  /-- A single vector register. -/
  | v1
  /-- A scalar source when MOD[3] is 1, otherwise a vector group (R284). -/
  | vb
  /-- Eight bits of an immediate (R229). -/
  | any
  /-- Four bits of an immediate; bits 7:4 zero (R229). -/
  | cfx
  /-- The exponent operand of MLDB, MMA and MRED (R315). -/
  | cfm
deriving DecidableEq, Repr

/-- How an entry uses IMM: a literal only where an operand names `imm`, a literal only where BF names `imm` (R264), or
the bits of a mask. -/
inductive ImmC where
  | lit
  | litB
  | bits (mask : BitVec 20)
deriving DecidableEq, Repr

/-- The cores an entry may execute on (R208). -/
inductive Cores where
  | all | c | m | v | x | s
deriving DecidableEq, Repr

/-- A check that ties an entry's fields together beyond their classes. -/
inductive Extra where
  | none | immNonzero | shiftImm | scale | bitField | trapCode | castTo | atomic | atomicNoCom | voteKind | copyFlag
  | group | topk | cvt | vcvt | venc | vdec | mtype | mmv | zcnt | creg
deriving DecidableEq, Repr

/-- A row of the opcode map: OPC, the instruction it stands for, the FMT values listed, the cores, whether it is
privileged, and what DF, AF, BF, CF, IMM and MOD may hold. -/
structure Row where
  opc : Nat
  make : Ops → Instr
  fmts : List Nat
  cores : Cores
  priv : Bool
  df : FieldC
  af : FieldC
  bf : FieldC
  cf : FieldC
  imm : ImmC
  mod : BitVec 5
  extra : Extra

/-- WRC has a row of its own in the opcode table for CSPILL and for CRAS (R353). -/
noncomputable def wrcOf (x : Ops) : Instr :=
  if x.imm = 0x07 then .wrcCspill x else if x.imm = 0x0C then .wrcCras x else .wrc x

/-- The entries of OPC 0x000 to 0x00F (R208). -/
noncomputable def rowsArith : List Row := [
  ⟨0x000, Instr.add, [0, 1, 2, 3, 4, 5, 6, 7], .all, false, .dst, .src, .src, .unused, .lit, 0x00, .none⟩,
  ⟨0x001, Instr.sub, [0, 1, 2, 3, 4, 5, 6, 7], .all, false, .dst, .src, .src, .unused, .lit, 0x00, .none⟩,
  ⟨0x002, Instr.mul, [0, 1, 2, 3, 4, 5, 6, 7], .all, false, .dst, .src, .src, .unused, .lit, 0x00, .none⟩,
  ⟨0x003, Instr.mulh, [0, 1, 2, 3, 4, 5, 6, 7], .all, false, .dst, .src, .src, .unused, .lit, 0x00, .none⟩,
  ⟨0x004, Instr.div, [0, 1, 2, 3, 4, 5, 6, 7], .all, false, .dst, .src, .src, .unused, .lit, 0x00, .none⟩,
  ⟨0x005, Instr.rem, [0, 1, 2, 3, 4, 5, 6, 7], .all, false, .dst, .src, .src, .unused, .lit, 0x00, .none⟩,
  ⟨0x006, Instr.madd, [0, 1, 2, 3, 4, 5, 6, 7], .all, false, .dst, .src, .src, .src, .lit, 0x00, .none⟩,
  ⟨0x007, Instr.msub, [0, 1, 2, 3, 4, 5, 6, 7], .all, false, .dst, .src, .src, .src, .lit, 0x00, .none⟩,
  ⟨0x008, Instr.addx, [0, 1, 2, 3, 4, 5, 6, 7], .all, false, .dst, .src, .src, .src, .lit, 0x00, .none⟩,
  ⟨0x009, Instr.addco, [0, 1, 2, 3, 4, 5, 6, 7], .all, false, .dst, .src, .src, .src, .lit, 0x00, .none⟩,
  ⟨0x00A, Instr.subx, [0, 1, 2, 3, 4, 5, 6, 7], .all, false, .dst, .src, .src, .src, .lit, 0x00, .none⟩,
  ⟨0x00B, Instr.subbo, [0, 1, 2, 3, 4, 5, 6, 7], .all, false, .dst, .src, .src, .src, .lit, 0x00, .none⟩,
  ⟨0x00C, Instr.abs, [0, 1, 2, 3, 4, 5, 6, 7], .all, false, .dst, .src, .unused, .unused, .lit, 0x00, .none⟩,
  ⟨0x00D, Instr.neg, [0, 1, 2, 3, 4, 5, 6, 7], .all, false, .dst, .src, .unused, .unused, .lit, 0x00, .none⟩,
  ⟨0x00E, Instr.absd, [0, 1, 2, 3, 4, 5, 6, 7], .all, false, .dst, .src, .src, .unused, .lit, 0x00, .none⟩,
  ⟨0x00F, Instr.avg, [0, 1, 2, 3, 4, 5, 6, 7], .all, false, .dst, .src, .src, .unused, .lit, 0x00, .none⟩]

/-- The entries of OPC 0x010 to 0x02F (R208). -/
noncomputable def rowsLogic : List Row := [
  ⟨0x010, Instr.and, [0], .all, false, .dst, .src, .src, .unused, .lit, 0x00, .none⟩,
  ⟨0x011, Instr.or, [0], .all, false, .dst, .src, .src, .unused, .lit, 0x00, .none⟩,
  ⟨0x012, Instr.xor, [0], .all, false, .dst, .src, .src, .unused, .lit, 0x00, .none⟩,
  ⟨0x013, Instr.andn, [0], .all, false, .dst, .src, .src, .unused, .lit, 0x00, .none⟩,
  ⟨0x014, Instr.orn, [0], .all, false, .dst, .src, .src, .unused, .lit, 0x00, .none⟩,
  ⟨0x015, Instr.xnor, [0], .all, false, .dst, .src, .src, .unused, .lit, 0x00, .none⟩,
  ⟨0x016, Instr.mov, [0], .all, false, .dst, .src, .unused, .unused, .lit, 0x00, .none⟩,
  ⟨0x017, Instr.mux, [0], .all, false, .dst, .src, .src, .src, .lit, 0x00, .none⟩,
  ⟨0x018, Instr.shl, [0, 1, 2, 3, 4, 5, 6, 7], .all, false, .dst, .src, .src, .unused, .lit, 0x00, .none⟩,
  ⟨0x019, Instr.shr, [0, 1, 2, 3, 4, 5, 6, 7], .all, false, .dst, .src, .src, .unused, .lit, 0x00, .none⟩,
  ⟨0x01A, Instr.sar, [0, 1, 2, 3, 4, 5, 6, 7], .all, false, .dst, .src, .src, .unused, .lit, 0x00, .none⟩,
  ⟨0x01B, Instr.rol, [0, 1, 2, 3, 4, 5, 6, 7], .all, false, .dst, .src, .src, .unused, .lit, 0x00, .none⟩,
  ⟨0x01C, Instr.ror, [0, 1, 2, 3, 4, 5, 6, 7], .all, false, .dst, .src, .src, .unused, .lit, 0x00, .none⟩,
  ⟨0x01D, Instr.popc, [0, 1, 2, 3, 4, 5, 6, 7], .all, false, .dst, .src, .unused, .unused, .lit, 0x00, .none⟩,
  ⟨0x01E, Instr.clz, [0, 1, 2, 3, 4, 5, 6, 7], .all, false, .dst, .src, .unused, .unused, .lit, 0x00, .none⟩,
  ⟨0x01F, Instr.ctz, [0, 1, 2, 3, 4, 5, 6, 7], .all, false, .dst, .src, .unused, .unused, .lit, 0x00, .none⟩,
  ⟨0x020, Instr.min, [0, 1, 2, 3, 4, 5, 6, 7], .all, false, .dst, .src, .src, .unused, .lit, 0x00, .none⟩,
  ⟨0x021, Instr.max, [0, 1, 2, 3, 4, 5, 6, 7], .all, false, .dst, .src, .src, .unused, .lit, 0x00, .none⟩,
  ⟨0x022, Instr.sel, [0], .all, false, .dst, .src, .src, .src, .lit, 0x00, .none⟩,
  ⟨0x023, Instr.cmpeq, [0, 1, 2, 3, 4, 5, 6, 7], .all, false, .dst, .src, .src, .unused, .lit, 0x00, .none⟩,
  ⟨0x024, Instr.cmpne, [0, 1, 2, 3, 4, 5, 6, 7], .all, false, .dst, .src, .src, .unused, .lit, 0x00, .none⟩,
  ⟨0x025, Instr.cmplt, [0, 1, 2, 3, 4, 5, 6, 7], .all, false, .dst, .src, .src, .unused, .lit, 0x00, .none⟩,
  ⟨0x026, Instr.cmple, [0, 1, 2, 3, 4, 5, 6, 7], .all, false, .dst, .src, .src, .unused, .lit, 0x00, .none⟩,
  ⟨0x027, Instr.tst, [0, 1, 2, 3, 4, 5, 6, 7], .all, false, .dst, .src, .src, .unused, .lit, 0x00, .none⟩,
  ⟨0x028, Instr.pand, [0], .all, false, .dst, .src, .src, .unused, .lit, 0x00, .none⟩,
  ⟨0x029, Instr.por, [0], .all, false, .dst, .src, .src, .unused, .lit, 0x00, .none⟩,
  ⟨0x02A, Instr.pxor, [0], .all, false, .dst, .src, .src, .unused, .lit, 0x00, .none⟩,
  ⟨0x02B, Instr.pandn, [0], .all, false, .dst, .src, .src, .unused, .lit, 0x00, .none⟩,
  ⟨0x02C, Instr.sadd, [0, 1, 2, 3, 4, 5, 6, 7], .all, false, .dst, .src, .src, .unused, .lit, 0x00, .none⟩,
  ⟨0x02D, Instr.ssub, [0, 1, 2, 3, 4, 5, 6, 7], .all, false, .dst, .src, .src, .unused, .lit, 0x00, .none⟩,
  ⟨0x02E, Instr.smul, [0, 1, 2, 3, 4, 5, 6, 7], .all, false, .dst, .src, .src, .unused, .lit, 0x00, .none⟩,
  ⟨0x02F, Instr.sshl, [0, 1, 2, 3, 4, 5, 6, 7], .all, false, .dst, .src, .src, .unused, .lit, 0x00, .none⟩]

/-- The entries of OPC 0x040 to 0x05F (R208). -/
noncomputable def rowsImm : List Row := [
  ⟨0x040, Instr.addi, [0, 1, 2, 3, 4, 5, 6, 7], .all, false, .dst, .srcR, .unused, .unused, .bits 0xFFFFF, 0x00, .none⟩,
  ⟨0x041, Instr.rsubi, [0, 1, 2, 3, 4, 5, 6, 7], .all, false, .dst, .srcR, .unused, .unused, .bits 0xFFFFF, 0x00, .none⟩,
  ⟨0x042, Instr.muli, [0, 1, 2, 3, 4, 5, 6, 7], .all, false, .dst, .srcR, .unused, .unused, .bits 0xFFFFF, 0x00, .none⟩,
  ⟨0x043, Instr.divi, [0, 1, 2, 3, 4, 5, 6, 7], .all, false, .dst, .srcR, .unused, .unused, .bits 0xFFFFF, 0x00, .immNonzero⟩,
  ⟨0x044, Instr.remi, [0, 1, 2, 3, 4, 5, 6, 7], .all, false, .dst, .srcR, .unused, .unused, .bits 0xFFFFF, 0x00, .immNonzero⟩,
  ⟨0x045, Instr.andi, [0], .all, false, .dst, .srcR, .unused, .unused, .bits 0xFFFFF, 0x00, .none⟩,
  ⟨0x046, Instr.ori, [0], .all, false, .dst, .srcR, .unused, .unused, .bits 0xFFFFF, 0x00, .none⟩,
  ⟨0x047, Instr.xori, [0], .all, false, .dst, .srcR, .unused, .unused, .bits 0xFFFFF, 0x00, .none⟩,
  ⟨0x048, Instr.shli, [0, 1, 2, 3, 4, 5, 6, 7], .all, false, .dst, .srcR, .unused, .unused, .bits 0xFFFFF, 0x00, .shiftImm⟩,
  ⟨0x049, Instr.shri, [0, 1, 2, 3, 4, 5, 6, 7], .all, false, .dst, .srcR, .unused, .unused, .bits 0xFFFFF, 0x00, .shiftImm⟩,
  ⟨0x04A, Instr.sari, [0, 1, 2, 3, 4, 5, 6, 7], .all, false, .dst, .srcR, .unused, .unused, .bits 0xFFFFF, 0x00, .shiftImm⟩,
  ⟨0x04B, Instr.roli, [0, 1, 2, 3, 4, 5, 6, 7], .all, false, .dst, .srcR, .unused, .unused, .bits 0xFFFFF, 0x00, .shiftImm⟩,
  ⟨0x04C, Instr.rori, [0, 1, 2, 3, 4, 5, 6, 7], .all, false, .dst, .srcR, .unused, .unused, .bits 0xFFFFF, 0x00, .shiftImm⟩,
  ⟨0x04D, Instr.mini, [0, 1, 2, 3, 4, 5, 6, 7], .all, false, .dst, .srcR, .unused, .unused, .bits 0xFFFFF, 0x00, .none⟩,
  ⟨0x04E, Instr.maxi, [0, 1, 2, 3, 4, 5, 6, 7], .all, false, .dst, .srcR, .unused, .unused, .bits 0xFFFFF, 0x00, .none⟩,
  ⟨0x04F, Instr.saddi, [0, 1, 2, 3, 4, 5, 6, 7], .all, false, .dst, .srcR, .unused, .unused, .bits 0xFFFFF, 0x00, .none⟩,
  ⟨0x050, Instr.lil, [0], .all, false, .dst, .unused, .any, .cfx, .bits 0xFFFFF, 0x00, .none⟩,
  ⟨0x051, Instr.lih, [0], .all, false, .dst, .src, .any, .cfx, .bits 0xFFFFF, 0x00, .none⟩,
  ⟨0x052, Instr.scadd, [0], .all, false, .dst, .src, .src, .unused, .bits 0xFFFFF, 0x1F, .scale⟩,
  ⟨0x053, Instr.scaddu, [0], .all, false, .dst, .src, .src, .unused, .bits 0xFFFFF, 0x1F, .scale⟩,
  ⟨0x054, Instr.bfx, [0], .all, false, .dst, .src, .unused, .unused, .bits 0xFFF, 0x00, .bitField⟩,
  ⟨0x055, Instr.bfxs, [0], .all, false, .dst, .src, .unused, .unused, .bits 0xFFF, 0x00, .bitField⟩,
  ⟨0x056, Instr.bfi, [0], .all, false, .dst, .src, .src, .unused, .bits 0xFFF, 0x00, .bitField⟩,
  ⟨0x057, Instr.bfxr, [0], .all, false, .dst, .src, .src, .unused, .lit, 0x00, .none⟩,
  ⟨0x058, Instr.bfir, [0], .all, false, .dst, .src, .src, .src, .lit, 0x00, .none⟩,
  ⟨0x059, Instr.cmpeqi, [0, 1, 2, 3, 4, 5, 6, 7], .all, false, .dst, .src, .unused, .unused, .bits 0xFFFFF, 0x00, .none⟩,
  ⟨0x05A, Instr.cmpnei, [0, 1, 2, 3, 4, 5, 6, 7], .all, false, .dst, .src, .unused, .unused, .bits 0xFFFFF, 0x00, .none⟩,
  ⟨0x05B, Instr.cmplti, [0, 1, 2, 3, 4, 5, 6, 7], .all, false, .dst, .src, .unused, .unused, .bits 0xFFFFF, 0x00, .none⟩,
  ⟨0x05C, Instr.cmplei, [0, 1, 2, 3, 4, 5, 6, 7], .all, false, .dst, .src, .unused, .unused, .bits 0xFFFFF, 0x00, .none⟩,
  ⟨0x05D, Instr.cmpgti, [0, 1, 2, 3, 4, 5, 6, 7], .all, false, .dst, .src, .unused, .unused, .bits 0xFFFFF, 0x00, .none⟩,
  ⟨0x05E, Instr.cmpgei, [0, 1, 2, 3, 4, 5, 6, 7], .all, false, .dst, .src, .unused, .unused, .bits 0xFFFFF, 0x00, .none⟩,
  ⟨0x05F, Instr.tsti, [0, 1, 2, 3, 4, 5, 6, 7], .all, false, .dst, .src, .unused, .unused, .bits 0xFFFFF, 0x00, .none⟩]

/-- The entries of OPC 0x080 to 0x097 (R208). -/
noncomputable def rowsControl : List Row := [
  ⟨0x080, Instr.nop, [0], .all, false, .unused, .unused, .unused, .unused, .bits 0x0, 0x00, .none⟩,
  ⟨0x081, Instr.endTask, [0], .all, false, .unused, .unused, .unused, .unused, .bits 0x0, 0x00, .none⟩,
  ⟨0x082, Instr.br, [0], .all, false, .unused, .unused, .unused, .unused, .bits 0x7FFFF, 0x00, .none⟩,
  ⟨0x083, Instr.bnz, [0], .all, false, .unused, .src, .unused, .unused, .bits 0x7FFFF, 0x00, .none⟩,
  ⟨0x084, Instr.bz, [0], .all, false, .unused, .src, .unused, .unused, .bits 0x7FFFF, 0x00, .none⟩,
  ⟨0x085, Instr.beod, [0], .all, false, .unused, .strm, .unused, .unused, .bits 0x7FFFF, 0x03, .none⟩,
  ⟨0x086, Instr.bneod, [0], .all, false, .unused, .strm, .unused, .unused, .bits 0x7FFFF, 0x03, .none⟩,
  ⟨0x087, Instr.dbnz, [0], .all, false, .dst, .src, .unused, .unused, .bits 0x7FFFF, 0x00, .none⟩,
  ⟨0x088, Instr.brr, [0], .all, false, .unused, .src, .unused, .unused, .lit, 0x00, .none⟩,
  ⟨0x089, Instr.btab, [0], .all, false, .unused, .src, .unused, .unused, .bits 0x7FFFF, 0x00, .none⟩,
  ⟨0x08A, Instr.call, [0, 1, 2, 3], .all, false, .unused, .unused, .unused, .unused, .bits 0x7FFFF, 0x00, .none⟩,
  ⟨0x08B, Instr.callr, [0, 1, 2, 3], .all, false, .unused, .src, .unused, .unused, .bits 0x0, 0x00, .none⟩,
  ⟨0x08C, Instr.ret, [0], .all, false, .unused, .unused, .unused, .unused, .bits 0x0, 0x00, .none⟩,
  ⟨0x08D, Instr.yield, [0], .all, false, .unused, .unused, .unused, .unused, .bits 0x0, 0x00, .none⟩,
  ⟨0x08E, Instr.trap, [0], .all, false, .unused, .unused, .unused, .unused, .bits 0xFFFFF, 0x00, .trapCode⟩,
  ⟨0x08F, Instr.tfence, [0], .all, false, .unused, .unused, .unused, .unused, .bits 0x0, 0x00, .none⟩,
  ⟨0x090, Instr.sbind, [0, 1, 2, 3, 4, 5, 6, 7], .all, false, .strm, .src, .unused, .unused, .lit, 0x01, .none⟩,
  ⟨0x091, Instr.sbindc, [0, 1, 2, 3, 4, 5, 6, 7], .all, false, .strm, .src, .src, .unused, .lit, 0x01, .none⟩,
  ⟨0x092, Instr.sunb, [0], .all, false, .strm, .unused, .unused, .unused, .bits 0x0, 0x00, .none⟩,
  ⟨0x093, Instr.srew, [0], .all, false, .strm, .unused, .unused, .unused, .bits 0x0, 0x00, .none⟩,
  ⟨0x094, Instr.sskip, [0], .all, false, .strm, .src, .unused, .unused, .lit, 0x00, .none⟩,
  ⟨0x095, Instr.spos, [0], .all, false, .dst, .strm, .unused, .unused, .bits 0x0, 0x00, .none⟩,
  ⟨0x096, Instr.speek, [0], .all, false, .dst, .strm, .unused, .unused, .bits 0x0, 0x00, .none⟩,
  ⟨0x097, Instr.sstat, [0], .all, false, .dst, .strm, .unused, .unused, .bits 0x0, 0x00, .none⟩]

/-- The entries of OPC 0x0C0 to 0x0D3 (R208). -/
noncomputable def rowsMemory : List Row := [
  ⟨0x0C0, Instr.ld, [0, 1, 2, 3, 4, 5, 6, 7], .all, false, .dst, .src, .srcR, .unused, .bits 0xFFFFF, 0x0F, .none⟩,
  ⟨0x0C1, Instr.st, [0, 1, 2, 3, 4, 5, 6, 7], .all, false, .unused, .src, .srcR, .srcR, .bits 0xFFFFF, 0x0F, .none⟩,
  ⟨0x0C2, Instr.ldf, [0, 1, 2, 3, 4], .all, false, .dst, .src, .srcR, .unused, .bits 0xFFFFF, 0x0F, .none⟩,
  ⟨0x0C3, Instr.stf, [0, 1, 2, 3, 4], .all, false, .unused, .src, .srcR, .srcR, .bits 0xFFFFF, 0x0F, .none⟩,
  ⟨0x0C4, Instr.ldp, [0], .all, false, .pair, .src, .srcR, .unused, .bits 0xFFFFF, 0x0F, .none⟩,
  ⟨0x0C5, Instr.stp, [0], .all, false, .unused, .src, .srcR, .pair, .bits 0xFFFFF, 0x0F, .none⟩,
  ⟨0x0C6, Instr.ldi, [0, 1, 2, 3, 4, 5, 6, 7], .all, false, .dst, .mg, .srcR, .unused, .bits 0xFFFFF, 0x0F, .none⟩,
  ⟨0x0C7, Instr.sti, [0, 1, 2, 3, 4, 5, 6, 7], .all, false, .unused, .mg, .srcR, .srcR, .bits 0xFFFFF, 0x0F, .none⟩,
  ⟨0x0C8, Instr.ldfi, [0, 1, 2, 3, 4], .all, false, .dst, .mg, .srcR, .unused, .bits 0xFFFFF, 0x0F, .none⟩,
  ⟨0x0C9, Instr.stfi, [0, 1, 2, 3, 4], .all, false, .unused, .mg, .srcR, .srcR, .bits 0xFFFFF, 0x0F, .none⟩,
  ⟨0x0CA, Instr.pref, [0], .all, false, .unused, .src, .srcR, .unused, .bits 0xFFFFF, 0x0F, .none⟩,
  ⟨0x0CB, Instr.zline, [0], .all, false, .unused, .src, .srcR, .unused, .bits 0xFFFFF, 0x0F, .none⟩,
  ⟨0x0CC, Instr.ldo, [0], .all, false, .unused, .src, .srcR, .unused, .bits 0xFFFFF, 0x0F, .none⟩,
  ⟨0x0CD, Instr.sto, [0], .all, false, .unused, .src, .srcR, .unused, .bits 0xFFFFF, 0x0F, .none⟩,
  ⟨0x0CE, Instr.ldpi, [0], .all, false, .pair, .mg, .srcR, .unused, .bits 0xFFFFF, 0x0F, .none⟩,
  ⟨0x0CF, Instr.stpi, [0], .all, false, .unused, .mg, .srcR, .pair, .bits 0xFFFFF, 0x0F, .none⟩,
  ⟨0x0D0, Instr.bmov, [0], .all, false, .mg, .mg, .mg, .unused, .bits 0x0, 0x01, .none⟩,
  ⟨0x0D1, Instr.bfill, [0, 1, 2, 3, 4, 5, 6, 7], .all, false, .mg, .mg, .mg, .unused, .bits 0x0, 0x00, .none⟩,
  ⟨0x0D2, Instr.sptest, [0], .all, false, .dst, .src, .unused, .unused, .lit, 0x00, .none⟩,
  ⟨0x0D3, Instr.spcast, [0], .all, false, .dst, .src, .unused, .unused, .bits 0x7FF, 0x01, .castTo⟩]

/-- The entries of OPC 0x0D4 to 0x0F7 (R208). -/
noncomputable def rowsAtomic : List Row := [
  ⟨0x0D4, Instr.aadd 0, [0, 1], .all, false, .dst, .src, .src, .unused, .litB, 0x07, .atomic⟩,
  ⟨0x0D5, Instr.aadd 1, [0, 1], .all, false, .dst, .src, .src, .unused, .litB, 0x07, .atomic⟩,
  ⟨0x0D6, Instr.aadd 2, [0, 1], .all, false, .dst, .src, .src, .unused, .litB, 0x07, .atomic⟩,
  ⟨0x0D7, Instr.aadd 3, [0, 1], .all, false, .dst, .src, .src, .unused, .litB, 0x07, .atomic⟩,
  ⟨0x0D8, Instr.aand 0, [0, 1], .all, false, .dst, .src, .src, .unused, .litB, 0x07, .atomic⟩,
  ⟨0x0D9, Instr.aand 1, [0, 1], .all, false, .dst, .src, .src, .unused, .litB, 0x07, .atomic⟩,
  ⟨0x0DA, Instr.aand 2, [0, 1], .all, false, .dst, .src, .src, .unused, .litB, 0x07, .atomic⟩,
  ⟨0x0DB, Instr.aand 3, [0, 1], .all, false, .dst, .src, .src, .unused, .litB, 0x07, .atomic⟩,
  ⟨0x0DC, Instr.aor 0, [0, 1], .all, false, .dst, .src, .src, .unused, .litB, 0x07, .atomic⟩,
  ⟨0x0DD, Instr.aor 1, [0, 1], .all, false, .dst, .src, .src, .unused, .litB, 0x07, .atomic⟩,
  ⟨0x0DE, Instr.aor 2, [0, 1], .all, false, .dst, .src, .src, .unused, .litB, 0x07, .atomic⟩,
  ⟨0x0DF, Instr.aor 3, [0, 1], .all, false, .dst, .src, .src, .unused, .litB, 0x07, .atomic⟩,
  ⟨0x0E0, Instr.axor 0, [0, 1], .all, false, .dst, .src, .src, .unused, .litB, 0x07, .atomic⟩,
  ⟨0x0E1, Instr.axor 1, [0, 1], .all, false, .dst, .src, .src, .unused, .litB, 0x07, .atomic⟩,
  ⟨0x0E2, Instr.axor 2, [0, 1], .all, false, .dst, .src, .src, .unused, .litB, 0x07, .atomic⟩,
  ⟨0x0E3, Instr.axor 3, [0, 1], .all, false, .dst, .src, .src, .unused, .litB, 0x07, .atomic⟩,
  ⟨0x0E4, Instr.amax 0, [0, 1], .all, false, .dst, .src, .src, .unused, .litB, 0x07, .atomic⟩,
  ⟨0x0E5, Instr.amax 1, [0, 1], .all, false, .dst, .src, .src, .unused, .litB, 0x07, .atomic⟩,
  ⟨0x0E6, Instr.amax 2, [0, 1], .all, false, .dst, .src, .src, .unused, .litB, 0x07, .atomic⟩,
  ⟨0x0E7, Instr.amax 3, [0, 1], .all, false, .dst, .src, .src, .unused, .litB, 0x07, .atomic⟩,
  ⟨0x0E8, Instr.amin 0, [0, 1], .all, false, .dst, .src, .src, .unused, .litB, 0x07, .atomic⟩,
  ⟨0x0E9, Instr.amin 1, [0, 1], .all, false, .dst, .src, .src, .unused, .litB, 0x07, .atomic⟩,
  ⟨0x0EA, Instr.amin 2, [0, 1], .all, false, .dst, .src, .src, .unused, .litB, 0x07, .atomic⟩,
  ⟨0x0EB, Instr.amin 3, [0, 1], .all, false, .dst, .src, .src, .unused, .litB, 0x07, .atomic⟩,
  ⟨0x0EC, Instr.axchg 0, [0, 1], .all, false, .dst, .src, .src, .unused, .litB, 0x07, .atomicNoCom⟩,
  ⟨0x0ED, Instr.axchg 1, [0, 1], .all, false, .dst, .src, .src, .unused, .litB, 0x07, .atomicNoCom⟩,
  ⟨0x0EE, Instr.axchg 2, [0, 1], .all, false, .dst, .src, .src, .unused, .litB, 0x07, .atomicNoCom⟩,
  ⟨0x0EF, Instr.axchg 3, [0, 1], .all, false, .dst, .src, .src, .unused, .litB, 0x07, .atomicNoCom⟩,
  ⟨0x0F0, Instr.acas 0, [0, 1], .all, false, .dst, .src, .src, .src, .litB, 0x07, .atomicNoCom⟩,
  ⟨0x0F1, Instr.acas 1, [0, 1], .all, false, .dst, .src, .src, .src, .litB, 0x07, .atomicNoCom⟩,
  ⟨0x0F2, Instr.acas 2, [0, 1], .all, false, .dst, .src, .src, .src, .litB, 0x07, .atomicNoCom⟩,
  ⟨0x0F3, Instr.acas 3, [0, 1], .all, false, .dst, .src, .src, .src, .litB, 0x07, .atomicNoCom⟩,
  ⟨0x0F4, Instr.fence, [0], .all, false, .unused, .unused, .unused, .unused, .bits 0x0, 0x00, .none⟩,
  ⟨0x0F5, Instr.fenceF, [0], .all, false, .unused, .unused, .unused, .unused, .bits 0x0, 0x00, .none⟩,
  ⟨0x0F6, Instr.fenceE, [0], .all, false, .unused, .unused, .unused, .unused, .bits 0x0, 0x00, .none⟩,
  ⟨0x0F7, Instr.fenceH, [0], .all, false, .unused, .unused, .unused, .unused, .bits 0x0, 0x00, .none⟩]

/-- The entries of OPC 0x100 to 0x10B (R208). -/
noncomputable def rowsSync : List Row := [
  ⟨0x100, Instr.give, [0], .all, false, .unused, .src, .src, .unused, .lit, 0x00, .none⟩,
  ⟨0x101, Instr.take, [0], .all, false, .unused, .src, .src, .unused, .lit, 0x00, .none⟩,
  ⟨0x102, Instr.ttake, [0], .all, false, .dst, .src, .src, .unused, .lit, 0x00, .none⟩,
  ⟨0x103, Instr.ownr, [0], .all, false, .dst, .src, .unused, .unused, .lit, 0x00, .none⟩,
  ⟨0x104, Instr.semset, [0], .all, false, .unused, .srcR, .unused, .unused, .bits 0xFF, 0x00, .none⟩,
  ⟨0x105, Instr.semadd, [0], .all, false, .dst, .srcR, .unused, .unused, .bits 0xFF, 0x00, .none⟩,
  ⟨0x106, Instr.semrd, [0], .all, false, .dst, .unused, .unused, .unused, .bits 0xFF, 0x00, .none⟩,
  ⟨0x107, Instr.semtry, [0], .all, false, .dst, .srcR, .unused, .unused, .bits 0xFF, 0x00, .none⟩,
  ⟨0x108, Instr.semwait, [0], .all, false, .unused, .srcR, .unused, .unused, .bits 0xFF, 0x00, .none⟩,
  ⟨0x109, Instr.vote, [0, 1, 2], .all, false, .dst, .src, .unused, .unused, .lit, 0x03, .voteKind⟩,
  ⟨0x10A, Instr.votev, [0, 1, 2], .all, false, .dst, .src, .unused, .unused, .lit, 0x03, .none⟩,
  ⟨0x10B, Instr.semz, [0], .all, false, .dst, .unused, .unused, .unused, .bits 0xFF, 0x00, .none⟩]

/-- The entries of OPC 0x10C to 0x117 (R208). -/
noncomputable def rowsCopy : List Row := [
  ⟨0x10C, Instr.copy, [0], .x, false, .src, .src, .srcR, .unused, .bits 0x3F, 0x07, .copyFlag⟩,
  ⟨0x10D, Instr.copy2, [0], .x, false, .src, .src, .pair, .unused, .bits 0x3F, 0x07, .none⟩,
  ⟨0x10E, Instr.redp, [0, 1, 2, 3, 4, 5], .x, false, .src, .src, .srcR, .srcR, .bits 0xFFF, 0x0F, .none⟩,
  ⟨0x10F, Instr.apf, [0], .x, false, .src, .src, .srcR, .unused, .bits 0x3F, 0x00, .none⟩,
  ⟨0x110, Instr.twany, [0], .x, false, .dst, .src, .unused, .unused, .lit, 0x00, .none⟩,
  ⟨0x111, Instr.twall, [0], .x, false, .unused, .src, .unused, .unused, .lit, 0x00, .none⟩,
  ⟨0x112, Instr.tfind, [0], .x, false, .dst, .src, .unused, .unused, .lit, 0x00, .none⟩,
  ⟨0x113, Instr.cres, [0], .x, false, .unused, .src, .unused, .unused, .lit, 0x00, .none⟩,
  ⟨0x114, Instr.ccan, [0], .x, false, .dst, .src, .unused, .unused, .lit, 0x00, .none⟩,
  ⟨0x115, Instr.tstat, [0], .x, false, .dst, .src, .unused, .unused, .lit, 0x00, .none⟩,
  ⟨0x116, Instr.twait, [0], .x, false, .unused, .src, .unused, .unused, .lit, 0x00, .none⟩,
  ⟨0x117, Instr.cfill, [0], .x, false, .src, .src, .srcR, .unused, .bits 0x3F, 0x02, .none⟩]

/-- The entries of OPC 0x140 to 0x157 (R208). -/
noncomputable def rowsVector : List Row := [
  ⟨0x140, Instr.vadd, [0, 1, 2, 3, 4, 5, 6, 7], .v, false, .vg, .vg, .vb, .unused, .lit, 0x1F, .group⟩,
  ⟨0x141, Instr.vsub, [0, 1, 2, 3, 4, 5, 6, 7], .v, false, .vg, .vg, .vb, .unused, .lit, 0x1F, .group⟩,
  ⟨0x142, Instr.vmul, [0, 1, 2, 3, 4, 5, 6, 7], .v, false, .vg, .vg, .vb, .unused, .lit, 0x1F, .group⟩,
  ⟨0x143, Instr.vfma, [0, 1, 2, 3, 4, 5, 6, 7], .v, false, .vg, .vg, .vb, .vg, .lit, 0x1F, .group⟩,
  ⟨0x144, Instr.vfms, [0, 1, 2, 3, 4, 5, 6, 7], .v, false, .vg, .vg, .vb, .vg, .lit, 0x1F, .group⟩,
  ⟨0x145, Instr.vfnma, [0, 1, 2, 3, 4, 5, 6, 7], .v, false, .vg, .vg, .vb, .vg, .lit, 0x1F, .group⟩,
  ⟨0x146, Instr.vmin, [0, 1, 2, 3, 4, 5, 6, 7], .v, false, .vg, .vg, .vb, .unused, .lit, 0x1B, .group⟩,
  ⟨0x147, Instr.vmax, [0, 1, 2, 3, 4, 5, 6, 7], .v, false, .vg, .vg, .vb, .unused, .lit, 0x1B, .group⟩,
  ⟨0x148, Instr.vabs, [0, 1, 2, 3, 4, 5, 6, 7], .v, false, .vg, .vg, .unused, .unused, .lit, 0x17, .group⟩,
  ⟨0x149, Instr.vneg, [0, 1, 2, 3, 4, 5, 6, 7], .v, false, .vg, .vg, .unused, .unused, .lit, 0x17, .group⟩,
  ⟨0x14A, Instr.vdiv, [0, 1, 2, 3, 4, 5, 6, 7], .v, false, .vg, .vg, .vb, .unused, .lit, 0x1F, .group⟩,
  ⟨0x14B, Instr.vand, [0, 1, 2, 3, 4, 5, 6, 7], .v, false, .vg, .vg, .vb, .unused, .lit, 0x1B, .group⟩,
  ⟨0x14C, Instr.vor, [0, 1, 2, 3, 4, 5, 6, 7], .v, false, .vg, .vg, .vb, .unused, .lit, 0x1B, .group⟩,
  ⟨0x14D, Instr.vxor, [0, 1, 2, 3, 4, 5, 6, 7], .v, false, .vg, .vg, .vb, .unused, .lit, 0x1B, .group⟩,
  ⟨0x14E, Instr.vshl, [3, 4, 5, 6, 7], .v, false, .vg, .vg, .vb, .unused, .lit, 0x1B, .group⟩,
  ⟨0x14F, Instr.vshr, [3, 4, 5, 6, 7], .v, false, .vg, .vg, .vb, .unused, .lit, 0x1B, .group⟩,
  ⟨0x150, Instr.vcmpeq, [0, 1, 2, 3, 4, 5, 6, 7], .v, false, .v1, .vg, .vb, .unused, .lit, 0x1B, .group⟩,
  ⟨0x151, Instr.vcmpne, [0, 1, 2, 3, 4, 5, 6, 7], .v, false, .v1, .vg, .vb, .unused, .lit, 0x1B, .group⟩,
  ⟨0x152, Instr.vcmplt, [0, 1, 2, 3, 4, 5, 6, 7], .v, false, .v1, .vg, .vb, .unused, .lit, 0x1B, .group⟩,
  ⟨0x153, Instr.vcmple, [0, 1, 2, 3, 4, 5, 6, 7], .v, false, .v1, .vg, .vb, .unused, .lit, 0x1B, .group⟩,
  ⟨0x154, Instr.vcmpun, [0, 1, 2], .v, false, .v1, .vg, .vb, .unused, .lit, 0x1B, .group⟩,
  ⟨0x155, Instr.vsel, [0, 1, 2, 3, 4, 5, 6, 7], .v, false, .vg, .vg, .vb, .v1, .lit, 0x1B, .group⟩,
  ⟨0x156, Instr.vmcnt, [0], .v, false, .dst, .v1, .unused, .unused, .bits 0x0, 0x03, .group⟩,
  ⟨0x157, Instr.vmff, [0], .v, false, .dst, .v1, .unused, .unused, .bits 0x0, 0x03, .group⟩]

/-- The entries of OPC 0x158 to 0x16F (R208). -/
noncomputable def rowsLanes : List Row := [
  ⟨0x158, Instr.vrsum, [0, 1, 2, 3, 4, 5, 6, 7], .v, false, .v1, .vg, .unused, .unused, .bits 0x0, 0x17, .group⟩,
  ⟨0x159, Instr.vrmax, [0, 1, 2, 3, 4, 5, 6, 7], .v, false, .v1, .vg, .unused, .unused, .bits 0x0, 0x17, .group⟩,
  ⟨0x15A, Instr.vrmin, [0, 1, 2, 3, 4, 5, 6, 7], .v, false, .v1, .vg, .unused, .unused, .bits 0x0, 0x17, .group⟩,
  ⟨0x15B, Instr.vramax, [0, 1, 2, 3, 4, 5, 6, 7], .v, false, .v1, .vg, .unused, .unused, .bits 0x0, 0x17, .group⟩,
  ⟨0x15C, Instr.vscan, [0, 1, 2, 3, 4, 5, 6, 7], .v, false, .vg, .vg, .unused, .unused, .bits 0x0, 0x17, .group⟩,
  ⟨0x15D, Instr.vscanx, [0, 1, 2, 3, 4, 5, 6, 7], .v, false, .vg, .vg, .unused, .unused, .bits 0x0, 0x17, .group⟩,
  ⟨0x15E, Instr.vtopk, [0, 1, 2, 3, 4, 5, 6, 7], .v, false, .vg, .vg, .unused, .unused, .bits 0x1FF, 0x13, .topk⟩,
  ⟨0x15F, Instr.vtopki, [0, 1, 2, 3, 4, 5, 6, 7], .v, false, .vg, .vg, .unused, .unused, .bits 0x1FF, 0x13, .topk⟩,
  ⟨0x160, Instr.vperm, [0, 1, 2, 3, 4, 5, 6, 7], .v, false, .vg, .vg, .vg, .unused, .bits 0x0, 0x13, .group⟩,
  ⟨0x161, Instr.vbcast, [0, 1, 2, 3, 4, 5, 6, 7], .v, false, .vg, .src, .unused, .unused, .lit, 0x13, .group⟩,
  ⟨0x162, Instr.vext, [0, 1, 2, 3, 4, 5, 6, 7], .v, false, .dst, .vg, .src, .unused, .lit, 0x03, .group⟩,
  ⟨0x163, Instr.vins, [0, 1, 2, 3, 4, 5, 6, 7], .v, false, .vg, .src, .src, .unused, .lit, 0x03, .group⟩,
  ⟨0x164, Instr.viota, [3, 4, 5, 6, 7], .v, false, .vg, .src, .unused, .unused, .lit, 0x13, .group⟩,
  ⟨0x165, Instr.vgath, [0, 1, 2, 3, 4, 5, 6, 7], .v, false, .vg, .src, .vg, .unused, .bits 0x0, 0x1F, .group⟩,
  ⟨0x166, Instr.vscat, [0, 1, 2, 3, 4, 5, 6, 7], .v, false, .unused, .src, .vg, .vg, .bits 0x0, 0x1F, .group⟩,
  ⟨0x167, Instr.vrand, [0, 4], .v, false, .vg, .src, .src, .unused, .lit, 0x13, .group⟩,
  ⟨0x168, Instr.vld, [0, 1, 2, 3, 4, 5, 6, 7], .v, false, .vg, .src, .src, .unused, .bits 0xFFFFF, 0x1F, .group⟩,
  ⟨0x169, Instr.vst, [0, 1, 2, 3, 4, 5, 6, 7], .v, false, .unused, .src, .src, .vg, .bits 0xFFFFF, 0x1F, .group⟩,
  ⟨0x16A, Instr.vlds, [0, 1, 2, 3, 4, 5, 6, 7], .v, false, .vg, .src, .src, .unused, .bits 0xFFFFF, 0x1F, .group⟩,
  ⟨0x16B, Instr.vsts, [0, 1, 2, 3, 4, 5, 6, 7], .v, false, .unused, .src, .src, .vg, .bits 0xFFFFF, 0x1F, .group⟩,
  ⟨0x16C, Instr.vldbc, [0, 1, 2, 3, 4, 5, 6, 7], .v, false, .vg, .src, .src, .unused, .bits 0xFFFFF, 0x1F, .group⟩,
  ⟨0x16D, Instr.vstc, [0, 1, 2, 3, 4, 5, 6, 7], .v, false, .unused, .src, .src, .vg, .bits 0xFFFFF, 0x1F, .group⟩,
  ⟨0x16E, Instr.vldm, [0], .v, false, .v1, .src, .src, .unused, .bits 0xFFFFF, 0x0B, .group⟩,
  ⟨0x16F, Instr.vstm, [0], .v, false, .unused, .src, .src, .v1, .bits 0xFFFFF, 0x0B, .group⟩]

/-- The entries of OPC 0x180 to 0x1A7 (R208). -/
noncomputable def rowsConvert : List Row := [
  ⟨0x180, Instr.cvt 0, [0], .all, false, .dst, .src, .unused, .unused, .bits 0x7F, 0x04, .cvt⟩,
  ⟨0x181, Instr.cvt 1, [0], .all, false, .dst, .src, .unused, .unused, .bits 0x7F, 0x04, .cvt⟩,
  ⟨0x182, Instr.cvt 2, [0], .all, false, .dst, .src, .unused, .unused, .bits 0x7F, 0x04, .cvt⟩,
  ⟨0x183, Instr.cvt 3, [0], .all, false, .dst, .src, .unused, .unused, .bits 0x7F, 0x04, .cvt⟩,
  ⟨0x184, Instr.cvt 4, [0], .all, false, .dst, .src, .unused, .unused, .bits 0x7F, 0x04, .cvt⟩,
  ⟨0x185, Instr.cvt 5, [0], .all, false, .dst, .src, .unused, .unused, .bits 0x7F, 0x04, .cvt⟩,
  ⟨0x186, Instr.cvt 6, [0], .all, false, .dst, .src, .unused, .unused, .bits 0x7F, 0x04, .cvt⟩,
  ⟨0x187, Instr.cvt 7, [0], .all, false, .dst, .src, .unused, .unused, .bits 0x7F, 0x04, .cvt⟩,
  ⟨0x188, Instr.cvt 8, [0], .all, false, .dst, .src, .unused, .unused, .bits 0x7F, 0x04, .cvt⟩,
  ⟨0x189, Instr.cvt 9, [0], .all, false, .dst, .src, .unused, .unused, .bits 0x7F, 0x04, .cvt⟩,
  ⟨0x18A, Instr.cvt 10, [0], .all, false, .dst, .src, .unused, .unused, .bits 0x7F, 0x04, .cvt⟩,
  ⟨0x18B, Instr.cvt 11, [0], .all, false, .dst, .src, .unused, .unused, .bits 0x7F, 0x04, .cvt⟩,
  ⟨0x18C, Instr.cvt 12, [0], .all, false, .dst, .src, .unused, .unused, .bits 0x7F, 0x04, .cvt⟩,
  ⟨0x18D, Instr.cvt 13, [0], .all, false, .dst, .src, .unused, .unused, .bits 0x7F, 0x04, .cvt⟩,
  ⟨0x18E, Instr.cvt 14, [0], .all, false, .dst, .src, .unused, .unused, .bits 0x7F, 0x04, .cvt⟩,
  ⟨0x18F, Instr.frnd, [0, 1, 2], .all, false, .dst, .src, .unused, .unused, .lit, 0x00, .none⟩,
  ⟨0x190, Instr.vcvt 0, [0], .v, false, .vg, .vg, .unused, .unused, .bits 0x7F, 0x17, .vcvt⟩,
  ⟨0x191, Instr.vcvt 1, [0], .v, false, .vg, .vg, .unused, .unused, .bits 0x7F, 0x17, .vcvt⟩,
  ⟨0x192, Instr.vcvt 2, [0], .v, false, .vg, .vg, .unused, .unused, .bits 0x7F, 0x17, .vcvt⟩,
  ⟨0x193, Instr.vcvt 3, [0], .v, false, .vg, .vg, .unused, .unused, .bits 0x7F, 0x17, .vcvt⟩,
  ⟨0x194, Instr.vcvt 4, [0], .v, false, .vg, .vg, .unused, .unused, .bits 0x7F, 0x17, .vcvt⟩,
  ⟨0x195, Instr.vcvt 5, [0], .v, false, .vg, .vg, .unused, .unused, .bits 0x7F, 0x17, .vcvt⟩,
  ⟨0x196, Instr.vcvt 6, [0], .v, false, .vg, .vg, .unused, .unused, .bits 0x7F, 0x17, .vcvt⟩,
  ⟨0x197, Instr.vcvt 7, [0], .v, false, .vg, .vg, .unused, .unused, .bits 0x7F, 0x17, .vcvt⟩,
  ⟨0x198, Instr.vcvt 8, [0], .v, false, .vg, .vg, .unused, .unused, .bits 0x7F, 0x17, .vcvt⟩,
  ⟨0x199, Instr.vcvt 9, [0], .v, false, .vg, .vg, .unused, .unused, .bits 0x7F, 0x17, .vcvt⟩,
  ⟨0x19A, Instr.vcvt 10, [0], .v, false, .vg, .vg, .unused, .unused, .bits 0x7F, 0x17, .vcvt⟩,
  ⟨0x19B, Instr.vcvt 11, [0], .v, false, .vg, .vg, .unused, .unused, .bits 0x7F, 0x17, .vcvt⟩,
  ⟨0x19C, Instr.vcvt 12, [0], .v, false, .vg, .vg, .unused, .unused, .bits 0x7F, 0x17, .vcvt⟩,
  ⟨0x19D, Instr.vfrnd, [0, 1, 2], .v, false, .vg, .vg, .unused, .unused, .bits 0x0, 0x13, .group⟩,
  ⟨0x19E, Instr.venc, [0, 1, 2], .v, false, .unused, .src, .src, .vg, .bits 0x3F, 0x0B, .venc⟩,
  ⟨0x19F, Instr.vdec, [0, 1, 2], .v, false, .vg, .src, .src, .unused, .bits 0x3F, 0x0F, .vdec⟩,
  ⟨0x1A0, Instr.exp2, [0, 1, 2], .all, false, .dst, .src, .unused, .unused, .bits 0x0, 0x00, .none⟩,
  ⟨0x1A1, Instr.log2, [0, 1, 2], .all, false, .dst, .src, .unused, .unused, .bits 0x0, 0x00, .none⟩,
  ⟨0x1A2, Instr.rcp, [0, 1, 2], .all, false, .dst, .src, .unused, .unused, .bits 0x0, 0x00, .none⟩,
  ⟨0x1A3, Instr.rsq, [0, 1, 2], .all, false, .dst, .src, .unused, .unused, .bits 0x0, 0x00, .none⟩,
  ⟨0x1A4, Instr.vexp2, [0, 1, 2], .v, false, .vg, .vg, .unused, .unused, .bits 0x0, 0x17, .group⟩,
  ⟨0x1A5, Instr.vlog2, [0, 1, 2], .v, false, .vg, .vg, .unused, .unused, .bits 0x0, 0x17, .group⟩,
  ⟨0x1A6, Instr.vrcp, [0, 1, 2], .v, false, .vg, .vg, .unused, .unused, .bits 0x0, 0x17, .group⟩,
  ⟨0x1A7, Instr.vrsq, [0, 1, 2], .v, false, .vg, .vg, .unused, .unused, .bits 0x0, 0x17, .group⟩]

/-- The entries of OPC 0x1C0 to 0x1CB (R208). -/
noncomputable def rowsMatrix : List Row := [
  ⟨0x1C0, Instr.mgang, [0], .m, false, .dst, .unused, .unused, .unused, .bits 0xFFFF, 0x00, .none⟩,
  ⟨0x1C1, Instr.mldb, [0, 1, 2, 3, 4, 5, 6, 7], .m, false, .unused, .srcR, .srcR, .cfm, .bits 0x7, 0x06, .mtype⟩,
  ⟨0x1C2, Instr.mma, [0, 1, 2, 3, 4, 5, 6, 7], .m, false, .acc, .srcR, .srcR, .cfm, .bits 0x7, 0x07, .mtype⟩,
  ⟨0x1C3, Instr.mmg, [0, 1, 2, 3, 4, 5, 6, 7], .m, false, .acc, .srcR, .srcR, .srcR, .bits 0x7, 0x03, .mtype⟩,
  ⟨0x1C4, Instr.mred, [0, 1, 2, 3, 4, 5, 6, 7], .m, false, .acc, .srcR, .srcR, .cfm, .bits 0x7, 0x07, .mtype⟩,
  ⟨0x1C5, Instr.mredg, [0, 1, 2, 3, 4, 5, 6, 7], .m, false, .acc, .srcR, .srcR, .srcR, .bits 0x7, 0x03, .mtype⟩,
  ⟨0x1C6, Instr.mmv, [0, 1, 2, 3, 6], .m, false, .acc, .srcR, .srcR, .srcR, .bits 0xFFFF, 0x0F, .mmv⟩,
  ⟨0x1C7, Instr.mclr, [0], .m, false, .acc, .unused, .unused, .unused, .bits 0xF, 0x00, .none⟩,
  ⟨0x1C8, Instr.mdrain, [0, 1, 2, 3, 4, 5, 6, 7], .m, false, .acc, .srcR, .srcR, .unused, .bits 0x0, 0x03, .none⟩,
  ⟨0x1C9, Instr.mstat, [0], .m, false, .dst, .acc, .unused, .unused, .bits 0x0, 0x00, .none⟩,
  ⟨0x1CA, Instr.mspill, [0], .m, true, .acc, .srcR, .srcR, .unused, .bits 0x0, 0x00, .none⟩,
  ⟨0x1CB, Instr.mfill, [0], .m, true, .acc, .srcR, .srcR, .unused, .bits 0x0, 0x00, .none⟩]

/-- The entries of OPC 0x1CC to 0x1D5 (R208). -/
noncomputable def rowsMedium : List Row := [
  ⟨0x1CC, Instr.bred, [0], .c, false, .unused, .srcR, .unused, .unused, .bits 0x0, 0x00, .none⟩,
  ⟨0x1CD, Instr.bmax, [0], .c, false, .unused, .srcR, .unused, .unused, .bits 0x0, 0x00, .none⟩,
  ⟨0x1CE, Instr.bstream, [0], .c, false, .unused, .srcR, .unused, .unused, .bits 0x0, 0x00, .none⟩,
  ⟨0x1CF, Instr.barr, [0], .c, false, .unused, .unused, .unused, .unused, .bits 0x0, 0x01, .none⟩,
  ⟨0x1D0, Instr.bwait, [0], .c, false, .unused, .unused, .unused, .unused, .bits 0x0, 0x01, .none⟩,
  ⟨0x1D1, Instr.bstat, [0], .c, false, .dst, .unused, .unused, .unused, .bits 0x0, 0x01, .none⟩,
  ⟨0x1D2, Instr.bchk, [0], .c, false, .pair, .srcR, .unused, .unused, .bits 0x0, 0x00, .none⟩,
  ⟨0x1D3, Instr.bkey, [0], .c, true, .unused, .srcR, .unused, .unused, .bits 0x0, 0x01, .none⟩,
  ⟨0x1D4, Instr.benrol, [0], .c, true, .unused, .srcR, .unused, .unused, .bits 0x0, 0x01, .none⟩,
  ⟨0x1D5, Instr.bleave, [0], .c, true, .unused, .unused, .unused, .unused, .bits 0x0, 0x01, .none⟩]

/-- The entries of OPC 0x1D6 to 0x1DF (R208). -/
noncomputable def rowsStoch : List Row := [
  ⟨0x1D6, Instr.zgen, [0, 1, 2], .s, false, .z, .srcR, .unused, .unused, .bits 0xF, 0x08, .none⟩,
  ⟨0x1D7, Instr.zregen, [0], .s, false, .z, .z, .unused, .unused, .bits 0xF, 0x00, .none⟩,
  ⟨0x1D8, Instr.zand, [0], .s, false, .z, .z, .z, .unused, .bits 0x0, 0x00, .none⟩,
  ⟨0x1D9, Instr.zxnor, [0], .s, false, .z, .z, .z, .unused, .bits 0x0, 0x00, .none⟩,
  ⟨0x1DA, Instr.zmux, [0], .s, false, .z, .z, .z, .z, .bits 0x0, 0x00, .none⟩,
  ⟨0x1DB, Instr.znot, [0], .s, false, .z, .z, .unused, .unused, .bits 0x0, 0x00, .none⟩,
  ⟨0x1DC, Instr.zcnt, [0], .s, false, .dst, .z, .src, .unused, .lit, 0x08, .zcnt⟩,
  ⟨0x1DD, Instr.zld, [0, 1, 2], .s, false, .z, .srcR, .unused, .unused, .bits 0xF, 0x00, .none⟩,
  ⟨0x1DE, Instr.zst, [0], .s, false, .unused, .srcR, .z, .unused, .bits 0x0, 0x00, .none⟩,
  ⟨0x1DF, Instr.zclass, [0], .s, false, .dst, .z, .unused, .unused, .bits 0x0, 0x00, .none⟩]

/-- The entries of OPC 0x1E0 to 0x1EF (R208). -/
noncomputable def rowsSystem : List Row := [
  ⟨0x1E0, Instr.rdc, [0], .all, false, .dst, .unused, .unused, .unused, .bits 0xFFFFF, 0x00, .creg⟩,
  ⟨0x1E1, wrcOf, [0], .all, false, .unused, .src, .unused, .unused, .bits 0xFFFFF, 0x00, .creg⟩,
  ⟨0x1E2, Instr.trapret, [0], .all, true, .unused, .unused, .unused, .unused, .bits 0x0, 0x00, .none⟩,
  ⟨0x1E3, Instr.ctxsave, [0], .all, true, .unused, .unused, .unused, .unused, .bits 0x0, 0x00, .none⟩,
  ⟨0x1E4, Instr.ctxload, [0], .all, true, .unused, .unused, .unused, .unused, .bits 0x0, 0x00, .none⟩,
  ⟨0x1E5, Instr.tlbip, [0], .c, true, .unused, .srcR, .unused, .unused, .bits 0x0, 0x00, .none⟩,
  ⟨0x1E6, Instr.tlbic, [0], .c, true, .unused, .srcR, .unused, .unused, .bits 0x0, 0x00, .none⟩,
  ⟨0x1E7, Instr.aptset, [0], .all, true, .unused, .pair, .unused, .unused, .bits 0xF, 0x00, .none⟩,
  ⟨0x1E8, Instr.aptrd, [0], .all, false, .pair, .unused, .unused, .unused, .bits 0xF, 0x00, .none⟩,
  ⟨0x1E9, Instr.tickwait, [0], .all, false, .unused, .unused, .unused, .unused, .bits 0x0, 0x00, .none⟩,
  ⟨0x1EA, Instr.phaseend, [0], .all, false, .unused, .unused, .unused, .unused, .bits 0x0, 0x00, .none⟩,
  ⟨0x1EB, Instr.canl, [0], .c, false, .dst, .srcR, .unused, .unused, .bits 0x0, 0x00, .none⟩,
  ⟨0x1EC, Instr.cang, [0], .c, false, .dst, .srcR, .unused, .unused, .bits 0x0, 0x00, .none⟩,
  ⟨0x1ED, Instr.canp, [0], .c, false, .unused, .unused, .unused, .unused, .bits 0x0, 0x00, .none⟩,
  ⟨0x1EE, Instr.canj, [0], .c, true, .dst, .srcR, .unused, .unused, .bits 0x0, 0x00, .none⟩,
  ⟨0x1EF, Instr.cbld, [0], .all, false, .unused, .srcR, .unused, .unused, .bits 0x7, 0x00, .none⟩]

/-- The opcode map: every assigned value of OPC, in rising order (R208). -/
noncomputable def allRows : List Row :=
  rowsArith ++ rowsLogic ++ rowsImm ++ rowsControl ++ rowsMemory ++ rowsAtomic ++ rowsSync ++ rowsCopy ++
  rowsVector ++ rowsLanes ++ rowsConvert ++ rowsMatrix ++ rowsMedium ++ rowsStoch ++ rowsSystem

/-- The entry of an opcode, if it is assigned (R208). -/
noncomputable def findRow (opc : BitVec 9) : Option Row := allRows.find? (fun r => r.opc == opc.toNat)

/-- The lowest set bit of a value of `w` bits, from bit `i` on. -/
def lowestBit : Nat → Nat → Nat → Nat
  | 0, _, i => i
  | n + 1, x, i => if x % 2 = 1 then i else lowestBit n (x / 2) (i + 1)

/-- The registers in a group under MOD[1:0]; 1 for the reserved code (R282). -/
def groupSize (mod : BitVec 5) : Nat :=
  match (mod &&& 3).toNat with
  | 1 => 2
  | 2 => 4
  | _ => 1

/-- Whether a field value is a legal operand of its class; `scalarB` is MOD[3] (R200, R203). -/
def FieldC.ok (g : Nat) (scalarB : Bool) (f : BitVec 8) : FieldC → Bool
  | .unused => f == 0
  | .src => match Opd.ofScalar f with
    | some (.z _) | some (.a _) | none => false
    | _ => true
  | .srcR => match Opd.ofScalar f with
    | some (.z _) | some (.a _) | some .imm | none => false
    | _ => true
  | .dst => match Opd.ofScalar f with
    | some (.z _) | some (.a _) | some .imm | none => false
    | _ => true
  | .mg => match Opd.ofScalar f with
    | some (.m _) | some (.g _) => true
    | _ => false
  | .pair => match Opd.ofScalar f with
    | some (.m n) => n % 2 == 0
    | _ => false
  | .strm => match Opd.ofScalar f with
    | some (.s _) => true
    | _ => false
  | .z => match Opd.ofScalar f with
    | some (.z _) => true
    | _ => false
  | .acc => match Opd.ofScalar f with
    | some (.a _) => true
    | _ => false
  | .vg => match Opd.ofVector f with
    | some (.v n) => n % g == 0
    | some _ => true
    | none => false
  | .v1 => (Opd.ofVector f).isSome
  | .vb => match scalarB with
    | true => match Opd.ofScalar f with
      | some (.z _) | some (.a _) | none => false
      | _ => true
    | false => match Opd.ofVector f with
      | some (.v n) => n % g == 0
      | some _ => true
      | none => false
  | .any => true
  | .cfx => (f &&& 0xF0) == 0
  | .cfm => match Opd.ofScalar f with
    | some (.z _) | some (.a _) | none => false
    | _ => true

/-- The operand a legal field of a class names. -/
def FieldC.read (scalarB : Bool) (f : BitVec 8) : FieldC → Opd
  | .vg | .v1 => (Opd.ofVector f).getD .vprv
  | .vb => if scalarB then (Opd.ofScalar f).getD .prv else (Opd.ofVector f).getD .vprv
  | .any | .cfx => .byte f
  | _ => (Opd.ofScalar f).getD .prv

/-- The lowest offending bit of an operand field at bit `low`: for an unused field its lowest set bit, for a reserved
value the field's lowest bit (R204). -/
def FieldC.bad (g : Nat) (scalarB : Bool) (low : Nat) (f : BitVec 8) (c : FieldC) : List Nat :=
  if c.ok g scalarB f then []
  else match c with
    | .unused => [low + lowestBit 8 f.toNat 0]
    | .cfx => [low + lowestBit 8 (f &&& 0xF0).toNat 0]
    | _ => [low]

/-- Whether a class admits `imm` as a source. -/
def FieldC.takesImm (scalarB : Bool) : FieldC → Bool
  | .src => true
  | .vb => scalarB
  | _ => false

/-- Bit 1 of an atomic's j: the relaxed class. The atomics start at a multiple of 4, so it is bit 1 of OPC (R264). -/
def Raw.relaxed (w : Raw) : Bool := w.opc.getLsbD 1

/-- What DF may hold: the entry's class, and nothing in an atomic's .UNP form (R264). -/
def Row.dfC (r : Row) (w : Raw) : FieldC :=
  match r.extra with
  | .atomic | .atomicNoCom => if w.relaxed && w.mod &&& 7 == 0 then .unused else r.df
  | _ => r.df

/-- The four operand fields with their classes and lowest bits. -/
def Row.fields (r : Row) (w : Raw) : List (FieldC × BitVec 8 × Nat) :=
  [(r.dfC w, w.df, 76), (r.af, w.af, 68), (r.bf, w.bf, 60), (r.cf, w.cf, 52)]

/-- Whether MOD[3] makes BF a scalar field. -/
def Row.scalarB (r : Row) (w : Raw) : Bool := r.bf == .vb && w.mod.getLsbD 3

/-- Bits of IMM the entry or an operand named `imm` uses. -/
def Row.immMask (r : Row) (w : Raw) : BitVec 20 :=
  match r.imm with
  | .bits m => m
  | .litB => if w.bf = 0xC1 then 0xFFFFF else 0
  | .lit => if (r.fields w).any (fun (c, f, _) => c.takesImm (r.scalarB w) && f == 0xC1) then 0xFFFFF else 0

/-- The width in bits of a scalar type (R218). -/
def widthOf (fmt : BitVec 3) : Nat :=
  match fmt.toNat with
  | 0 | 1 => 64
  | 2 | 3 => 32
  | 4 | 5 => 16
  | _ => 8

/-- Whether a matrix type is a 4-bit type, and whether it is block-scaled (R313). -/
def mtype4 (t : Nat) : Bool := t == 5 || t == 6 || t == 7
def mtypeScaled (t : Nat) : Bool := t == 4 || t == 5

/-- The offending bits of the checks that tie fields together, each from its entry's rule. -/
def Extra.bad (w : Raw) : Extra → List Nat
  | .none => []
  | .immNonzero => if w.imm = 0 then [32] else []
  | .shiftImm =>
    if w.imm.toNat / 64 ≠ 0 ∨ w.imm.toNat % 64 ≥ widthOf w.fmt then [32] else []
  | .scale => if w.mod.toNat > 6 then [0] else []
  | .bitField => if w.imm.toNat % 64 + (w.imm.toNat / 64 % 64 + 1) > 64 then [32] else []
  | .trapCode => if w.imm.toNat < 0x90 ∨ 0xEF < w.imm.toNat then [32] else []
  | .castTo =>
    let dst := w.imm.toNat % 16
    let win := w.imm.toNat / 16 % 8
    let cbs := w.imm.toNat / 128 % 8
    let var := w.imm.toNat / 1024 % 2
    (if dst = 1 ∨ dst > 4 then [32] else []) ++
    (if dst = 4 ∧ win = 7 then [36] else []) ++
    (if dst ≠ 4 ∧ win ≠ 0 then [36 + lowestBit 3 win 0] else []) ++
    (if cbs ≠ 0 ∧ ¬(dst = 4 ∧ win = 2) then [39 + lowestBit 3 cbs 0] else []) ++
    (if var ≠ 0 ∧ ¬(dst = 4 ∧ (win = 2 ∨ win = 3)) then [42] else [])
  | .atomic =>
    let order := w.mod.toNat % 8
    if order > (if w.relaxed then 4 else 2) then [0] else []
  | .atomicNoCom =>
    let order := w.mod.toNat % 8
    if order > (if w.relaxed then 4 else 2) ∨ (w.relaxed ∧ order = 1) then [0] else []
  | .voteKind => if w.mod &&& 3 = 3 then [0] else []
  | .copyFlag => if w.mod.getLsbD 2 ∧ w.mod.getLsbD 1 then [0] else []
  | .group => if w.mod &&& 3 = 3 then [0] else []
  | .topk =>
    (if w.mod &&& 3 = 3 then [0] else []) ++
    (if w.imm.toNat % 512 = 0 ∨ w.imm.toNat % 512 > 64 * groupSize w.mod then [32] else [])
  | .cvt =>
    let dst := w.imm.toNat % 16
    (if dst = 15 then [32] else []) ++
    (if w.imm.toNat / 16 % 8 ≠ 0 ∧ dst ≠ 6 ∧ w.opc.toNat ≠ 0x186 then [36] else [])
  | .vcvt =>
    let dst := w.imm.toNat % 16
    (if w.mod &&& 3 = 3 then [0] else []) ++ (if dst > 12 then [32] else []) ++
    (if w.imm.toNat / 16 % 8 ≠ 0 ∧ dst ≠ 6 ∧ w.opc.toNat ≠ 0x196 then [36] else [])
  | .venc =>
    let t := w.imm.toNat % 8
    (if w.mod &&& 3 = 3 then [0] else []) ++ (if t > 5 then [32] else []) ++
    (if w.imm.toNat / 8 % 8 ≠ 0 ∧ t ≠ 3 then [35] else [])
  | .vdec =>
    let t := w.imm.toNat % 8
    (if w.mod &&& 3 = 3 then [0] else []) ++ (if t > 5 then [32] else []) ++
    (if w.imm.toNat / 8 % 8 ≠ 0 ∧ t ≠ 3 then [35] else []) ++
    (if (t = 4 ∨ t = 5) ∧ w.bf ≠ 0xC0 then [60] else [])
  | .mtype =>
    let t := w.fmt.toNat
    (if w.mod.getLsbD 1 ∧ mtype4 t then [1] else []) ++
    (if w.imm.toNat % 8 ≠ 0 ∧ t ≠ 7 then [32] else []) ++
    (if w.opc.toNat = 0x1C3 ∨ w.opc.toNat = 0x1C5 then []
     else if (mtypeScaled t ∧ (w.cf = 0xC0 ∨ w.cf = 0xC1)) ∨ (¬mtypeScaled t ∧ w.cf ≠ 0xC0) then [52] else [])
  | .mmv =>
    let t := w.mod.toNat % 8
    if t = 4 ∨ t = 5 ∨ t = 7 then [0] else []
  | .zcnt =>
    if w.mod.getLsbD 3 then
      (if w.df ≠ 0 ∧ w.df ≠ 0xC0 then [76] else []) ++ (if w.bf = 0xC1 then [60] else [])
    else []
  | .creg => (if w.imm.toNat % 256 > 0x1B then [32] else []) ++ (if w.imm.toNat / 256 ≠ 0 then [40] else [])

/-- Every offending bit of a word under its row (R204). -/
def Row.bad (r : Row) (w : Raw) : List Nat :=
  let g := groupSize w.mod
  (r.fields w).flatMap (fun (c, f, low) => c.bad g (r.scalarB w) low f) ++
  (if w.imm &&& ~~~(r.immMask w) = 0 then [] else [32 + lowestBit 20 (w.imm &&& ~~~(r.immMask w)).toNat 0]) ++
  (if w.mod &&& ~~~r.mod = 0 then [] else [lowestBit 5 (w.mod &&& ~~~r.mod).toNat 0]) ++
  (if w.h.wthr = 0 ∧ w.h.wsem ≠ 0 then [20 + lowestBit 8 w.h.wsem.toNat 0] else []) ++
  (if w.h.sinc = 0 ∧ w.h.ssem ≠ 0 then [8 + lowestBit 8 w.h.ssem.toNat 0] else []) ++
  r.extra.bad w

/-- The registers of one kind that a field names, as a first number and a count (R203). -/
def FieldC.span (g : Nat) (scalarB : Bool) (f : BitVec 8) (c : FieldC) : Option (Bool × Nat × Nat) :=
  match c.read scalarB f, c with
  | .m n, .pair => some (false, n, 2)
  | .m n, _ => some (false, n, 1)
  | .v n, .vg | .v n, .vb => some (true, n, g)
  | .v n, .v1 => some (true, n, 1)
  | _, _ => none

/-- Whether two spans share some but not all of their registers (R203). -/
def partialOverlap : Option (Bool × Nat × Nat) → Option (Bool × Nat × Nat) → Bool
  | some (k, n, l), some (k', n', l') => k == k' && (n < n' + l' && n' < n + l) && !(n == n' && l == l')
  | _, _ => false

/-- Whether an entry writes the register that DF names. -/
def Row.writesDf (r : Row) : Bool :=
  match r.df with
  | .dst | .pair | .vg | .v1 => true
  | _ => false

/-- Whether the entry takes OPERAND_OVERLAP at decode: a partial overlap of its destination with a source, v31 as a mask
included (R203, R282); the post-increment forms when AF is the register of DF or lies in its pair (R256); a block move
or fill whose registers do not differ (R259). -/
def Row.overlaps (r : Row) (w : Raw) : Bool :=
  let g := groupSize w.mod
  let sb := r.scalarB w
  let d := r.df.span g sb w.df
  let srcs := [r.af.span g sb w.af, r.bf.span g sb w.bf, r.cf.span g sb w.cf] ++
    (if r.cores == .v && w.mod.getLsbD 4 then [some (true, 31, 1)] else [])
  (r.writesDf && srcs.any (partialOverlap d)) ||
  (r.af == .mg && r.df == .dst && w.af == w.df) ||
  (r.df == .mg && (w.df == w.af || w.df == w.bf || w.af == w.bf))

/-- The operand bundle of a word under its row. -/
def Row.ops (r : Row) (w : Raw) : Ops :=
  let sb := r.scalarB w
  { h := w.h, fmt := w.fmt, d := r.df.read sb w.df, a := r.af.read sb w.af, b := r.bf.read sb w.bf,
    c := r.cf.read sb w.cf, imm := w.imm, mod := w.mod }

/-- Why a word is no instruction (R209). -/
inductive DecodeErr where
  /-- Row 2: OPC is not assigned. -/
  | illegalOpc
  /-- Row 3: FMT is not listed. -/
  | badFmt
  /-- Row 6: the lowest offending bit. -/
  | reserved (bit : Nat)
  /-- Row 7. -/
  | overlap
deriving DecidableEq, Repr

/-- The instruction a word's fields stand for under a row that has passed rows 2 and 3 of R209. -/
def Row.decode (r : Row) (w : Raw) : Except DecodeErr Instr :=
  match r.bad w with
  | b :: bs => .error (.reserved (bs.foldl Nat.min b))
  | [] => if r.overlaps w then .error .overlap else .ok (r.make (r.ops w))

/-- The decoder: total, and rejecting by name (R209 rows 2, 3, 6 and 7). -/
noncomputable def decode (word : BitVec 96) : Except DecodeErr Instr :=
  let w := Raw.ofWord word
  match findRow w.opc with
  | none => .error .illegalOpc
  | some r => if r.fmts.contains w.fmt.toNat then r.decode w else .error .badFmt

/-- The custom instruction of a command processor that a 32-bit word encodes (R435). -/
noncomputable def decodeCp (w : BitVec 32) : Option Instr :=
  let x : CpR := { rd := w.extractLsb' 7 5, rs1 := w.extractLsb' 15 5, rs2 := w.extractLsb' 20 5 }
  let f7 := w.extractLsb' 25 7
  if w.extractLsb' 0 7 ≠ 0x0B then none
  else match (w.extractLsb' 12 3).toNat with
    | 0 => if f7 = 0 then some (.rfetch x) else none
    | 1 => if f7 = 0 then some (.bfex x) else none
    | 2 => if f7.toNat ≤ 5 then some (.sigwait f7 x) else none
    | 3 => if f7 = 0 ∧ x.rs2 = 0 then some (.disp x) else none
    | _ => none

/-- The opcode and operand bundle of a core instruction; none for an event and for a command processor's instruction. -/
def Instr.opOps : Instr → Option (Nat × Ops)
  | .add x => some (0x000, x)
  | .sub x => some (0x001, x)
  | .mul x => some (0x002, x)
  | .mulh x => some (0x003, x)
  | .div x => some (0x004, x)
  | .rem x => some (0x005, x)
  | .madd x => some (0x006, x)
  | .msub x => some (0x007, x)
  | .addx x => some (0x008, x)
  | .addco x => some (0x009, x)
  | .subx x => some (0x00A, x)
  | .subbo x => some (0x00B, x)
  | .abs x => some (0x00C, x)
  | .neg x => some (0x00D, x)
  | .absd x => some (0x00E, x)
  | .avg x => some (0x00F, x)
  | .and x => some (0x010, x)
  | .or x => some (0x011, x)
  | .xor x => some (0x012, x)
  | .andn x => some (0x013, x)
  | .orn x => some (0x014, x)
  | .xnor x => some (0x015, x)
  | .mov x => some (0x016, x)
  | .mux x => some (0x017, x)
  | .shl x => some (0x018, x)
  | .shr x => some (0x019, x)
  | .sar x => some (0x01A, x)
  | .rol x => some (0x01B, x)
  | .ror x => some (0x01C, x)
  | .popc x => some (0x01D, x)
  | .clz x => some (0x01E, x)
  | .ctz x => some (0x01F, x)
  | .min x => some (0x020, x)
  | .max x => some (0x021, x)
  | .sel x => some (0x022, x)
  | .cmpeq x => some (0x023, x)
  | .cmpne x => some (0x024, x)
  | .cmplt x => some (0x025, x)
  | .cmple x => some (0x026, x)
  | .tst x => some (0x027, x)
  | .pand x => some (0x028, x)
  | .por x => some (0x029, x)
  | .pxor x => some (0x02A, x)
  | .pandn x => some (0x02B, x)
  | .sadd x => some (0x02C, x)
  | .ssub x => some (0x02D, x)
  | .smul x => some (0x02E, x)
  | .sshl x => some (0x02F, x)
  | .addi x => some (0x040, x)
  | .rsubi x => some (0x041, x)
  | .muli x => some (0x042, x)
  | .divi x => some (0x043, x)
  | .remi x => some (0x044, x)
  | .andi x => some (0x045, x)
  | .ori x => some (0x046, x)
  | .xori x => some (0x047, x)
  | .shli x => some (0x048, x)
  | .shri x => some (0x049, x)
  | .sari x => some (0x04A, x)
  | .roli x => some (0x04B, x)
  | .rori x => some (0x04C, x)
  | .mini x => some (0x04D, x)
  | .maxi x => some (0x04E, x)
  | .saddi x => some (0x04F, x)
  | .lil x => some (0x050, x)
  | .lih x => some (0x051, x)
  | .scadd x => some (0x052, x)
  | .scaddu x => some (0x053, x)
  | .bfx x => some (0x054, x)
  | .bfxs x => some (0x055, x)
  | .bfi x => some (0x056, x)
  | .bfxr x => some (0x057, x)
  | .bfir x => some (0x058, x)
  | .cmpeqi x => some (0x059, x)
  | .cmpnei x => some (0x05A, x)
  | .cmplti x => some (0x05B, x)
  | .cmplei x => some (0x05C, x)
  | .cmpgti x => some (0x05D, x)
  | .cmpgei x => some (0x05E, x)
  | .tsti x => some (0x05F, x)
  | .nop x => some (0x080, x)
  | .endTask x => some (0x081, x)
  | .br x => some (0x082, x)
  | .bnz x => some (0x083, x)
  | .bz x => some (0x084, x)
  | .beod x => some (0x085, x)
  | .bneod x => some (0x086, x)
  | .dbnz x => some (0x087, x)
  | .brr x => some (0x088, x)
  | .btab x => some (0x089, x)
  | .call x => some (0x08A, x)
  | .callr x => some (0x08B, x)
  | .ret x => some (0x08C, x)
  | .yield x => some (0x08D, x)
  | .trap x => some (0x08E, x)
  | .tfence x => some (0x08F, x)
  | .sbind x => some (0x090, x)
  | .sbindc x => some (0x091, x)
  | .sunb x => some (0x092, x)
  | .srew x => some (0x093, x)
  | .sskip x => some (0x094, x)
  | .spos x => some (0x095, x)
  | .speek x => some (0x096, x)
  | .sstat x => some (0x097, x)
  | .ld x => some (0x0C0, x)
  | .st x => some (0x0C1, x)
  | .ldf x => some (0x0C2, x)
  | .stf x => some (0x0C3, x)
  | .ldp x => some (0x0C4, x)
  | .stp x => some (0x0C5, x)
  | .ldi x => some (0x0C6, x)
  | .sti x => some (0x0C7, x)
  | .ldfi x => some (0x0C8, x)
  | .stfi x => some (0x0C9, x)
  | .pref x => some (0x0CA, x)
  | .zline x => some (0x0CB, x)
  | .ldo x => some (0x0CC, x)
  | .sto x => some (0x0CD, x)
  | .ldpi x => some (0x0CE, x)
  | .stpi x => some (0x0CF, x)
  | .bmov x => some (0x0D0, x)
  | .bfill x => some (0x0D1, x)
  | .sptest x => some (0x0D2, x)
  | .spcast x => some (0x0D3, x)
  | .aadd j x => some (0x0D4 + j.toNat, x)
  | .aand j x => some (0x0D8 + j.toNat, x)
  | .aor j x => some (0x0DC + j.toNat, x)
  | .axor j x => some (0x0E0 + j.toNat, x)
  | .amax j x => some (0x0E4 + j.toNat, x)
  | .amin j x => some (0x0E8 + j.toNat, x)
  | .axchg j x => some (0x0EC + j.toNat, x)
  | .acas j x => some (0x0F0 + j.toNat, x)
  | .fence x => some (0x0F4, x)
  | .fenceF x => some (0x0F5, x)
  | .fenceE x => some (0x0F6, x)
  | .fenceH x => some (0x0F7, x)
  | .give x => some (0x100, x)
  | .take x => some (0x101, x)
  | .ttake x => some (0x102, x)
  | .ownr x => some (0x103, x)
  | .semset x => some (0x104, x)
  | .semadd x => some (0x105, x)
  | .semrd x => some (0x106, x)
  | .semtry x => some (0x107, x)
  | .semwait x => some (0x108, x)
  | .semz x => some (0x10B, x)
  | .vote x => some (0x109, x)
  | .votev x => some (0x10A, x)
  | .copy x => some (0x10C, x)
  | .copy2 x => some (0x10D, x)
  | .redp x => some (0x10E, x)
  | .apf x => some (0x10F, x)
  | .cfill x => some (0x117, x)
  | .twany x => some (0x110, x)
  | .twall x => some (0x111, x)
  | .tfind x => some (0x112, x)
  | .cres x => some (0x113, x)
  | .ccan x => some (0x114, x)
  | .tstat x => some (0x115, x)
  | .twait x => some (0x116, x)
  | .vadd x => some (0x140, x)
  | .vsub x => some (0x141, x)
  | .vmul x => some (0x142, x)
  | .vfma x => some (0x143, x)
  | .vfms x => some (0x144, x)
  | .vfnma x => some (0x145, x)
  | .vmin x => some (0x146, x)
  | .vmax x => some (0x147, x)
  | .vabs x => some (0x148, x)
  | .vneg x => some (0x149, x)
  | .vdiv x => some (0x14A, x)
  | .vand x => some (0x14B, x)
  | .vor x => some (0x14C, x)
  | .vxor x => some (0x14D, x)
  | .vshl x => some (0x14E, x)
  | .vshr x => some (0x14F, x)
  | .vcmpeq x => some (0x150, x)
  | .vcmpne x => some (0x151, x)
  | .vcmplt x => some (0x152, x)
  | .vcmple x => some (0x153, x)
  | .vcmpun x => some (0x154, x)
  | .vsel x => some (0x155, x)
  | .vmcnt x => some (0x156, x)
  | .vmff x => some (0x157, x)
  | .vrsum x => some (0x158, x)
  | .vrmax x => some (0x159, x)
  | .vrmin x => some (0x15A, x)
  | .vramax x => some (0x15B, x)
  | .vscan x => some (0x15C, x)
  | .vscanx x => some (0x15D, x)
  | .vtopk x => some (0x15E, x)
  | .vtopki x => some (0x15F, x)
  | .vperm x => some (0x160, x)
  | .vbcast x => some (0x161, x)
  | .vext x => some (0x162, x)
  | .vins x => some (0x163, x)
  | .viota x => some (0x164, x)
  | .vgath x => some (0x165, x)
  | .vscat x => some (0x166, x)
  | .vrand x => some (0x167, x)
  | .vld x => some (0x168, x)
  | .vst x => some (0x169, x)
  | .vlds x => some (0x16A, x)
  | .vsts x => some (0x16B, x)
  | .vldbc x => some (0x16C, x)
  | .vstc x => some (0x16D, x)
  | .vldm x => some (0x16E, x)
  | .vstm x => some (0x16F, x)
  | .cvt src x => some (0x180 + src.toNat, x)
  | .frnd x => some (0x18F, x)
  | .vcvt src x => some (0x190 + src.toNat, x)
  | .vfrnd x => some (0x19D, x)
  | .venc x => some (0x19E, x)
  | .vdec x => some (0x19F, x)
  | .exp2 x => some (0x1A0, x)
  | .log2 x => some (0x1A1, x)
  | .rcp x => some (0x1A2, x)
  | .rsq x => some (0x1A3, x)
  | .vexp2 x => some (0x1A4, x)
  | .vlog2 x => some (0x1A5, x)
  | .vrcp x => some (0x1A6, x)
  | .vrsq x => some (0x1A7, x)
  | .mgang x => some (0x1C0, x)
  | .mldb x => some (0x1C1, x)
  | .mma x => some (0x1C2, x)
  | .mmg x => some (0x1C3, x)
  | .mred x => some (0x1C4, x)
  | .mredg x => some (0x1C5, x)
  | .mmv x => some (0x1C6, x)
  | .mclr x => some (0x1C7, x)
  | .mdrain x => some (0x1C8, x)
  | .mstat x => some (0x1C9, x)
  | .mspill x => some (0x1CA, x)
  | .mfill x => some (0x1CB, x)
  | .bred x => some (0x1CC, x)
  | .bmax x => some (0x1CD, x)
  | .bstream x => some (0x1CE, x)
  | .barr x => some (0x1CF, x)
  | .bwait x => some (0x1D0, x)
  | .bstat x => some (0x1D1, x)
  | .bchk x => some (0x1D2, x)
  | .bkey x => some (0x1D3, x)
  | .benrol x => some (0x1D4, x)
  | .bleave x => some (0x1D5, x)
  | .zgen x => some (0x1D6, x)
  | .zregen x => some (0x1D7, x)
  | .zand x => some (0x1D8, x)
  | .zxnor x => some (0x1D9, x)
  | .zmux x => some (0x1DA, x)
  | .znot x => some (0x1DB, x)
  | .zcnt x => some (0x1DC, x)
  | .zld x => some (0x1DD, x)
  | .zst x => some (0x1DE, x)
  | .zclass x => some (0x1DF, x)
  | .rdc x => some (0x1E0, x)
  | .wrc x => some (0x1E1, x)
  | .wrcCspill x => some (0x1E1, x)
  | .wrcCras x => some (0x1E1, x)
  | .trapret x => some (0x1E2, x)
  | .ctxsave x => some (0x1E3, x)
  | .ctxload x => some (0x1E4, x)
  | .tlbip x => some (0x1E5, x)
  | .tlbic x => some (0x1E6, x)
  | .aptset x => some (0x1E7, x)
  | .aptrd x => some (0x1E8, x)
  | .tickwait x => some (0x1E9, x)
  | .phaseend x => some (0x1EA, x)
  | .canl x => some (0x1EB, x)
  | .cang x => some (0x1EC, x)
  | .canp x => some (0x1ED, x)
  | .canj x => some (0x1EE, x)
  | .cbld x => some (0x1EF, x)
  | .atomicPerform _ _ => none
  | .semGrant _ => none
  | .semOverflow _ => none
  | .copyPiece _ _ _ => none
  | .gangTimeout _ => none
  | .matrixComplete _ => none
  | .matrixMismatch _ => none
  | .mediumFrame _ _ => none
  | .exchangeComplete _ => none
  | .busFaultTaken _ => none
  | .stochEngineComplete _ => none
  | .chunkCommit _ _ => none
  | .translationWalk _ _ _ _ _ => none
  | .fabricRequestApply _ => none
  | .fabricAck _ _ _ => none
  | .fabricDataPacket _ => none
  | .tickSlip _ _ => none
  | .cancel _ _ => none
  | .cancelStop _ _ => none
  | .machineCheck _ => none
  | .preemptForced _ _ => none
  | .watchSave _ => none
  | .saveComplete _ => none
  | .watchRestore _ => none
  | .gangSlip _ => none
  | .launchDispatch _ _ => none
  | .launchPlace => none
  | .launchAged _ => none
  | .tileDrainDone _ => none
  | .graphNodeEnd _ => none
  | .graphNodeLaunch _ => none
  | .graphNodeJoin _ => none
  | .graphNodeCond _ => none
  | .graphNodeLoop _ => none
  | .tickArm _ => none
  | .tickStartEvent _ _ => none
  | .packetFetch _ _ _ => none
  | .packetStart _ => none
  | .packetNop _ => none
  | .openJob _ => none
  | .closeJob _ => none
  | .runGraph _ => none
  | .packetCancel _ => none
  | .waitMem _ => none
  | .writeMem _ => none
  | .packetComplete _ _ => none
  | .queueTailWrite _ _ => none
  | .queueHaltClear _ _ => none
  | .queueHeadWrite _ _ => none
  | .queueEnableWrite _ _ => none
  | .hostRegisterWrite _ _ _ => none
  | .hostWindowWrite _ _ _ => none
  | .hostWindowRead _ _ _ => none
  | .wvalRead _ => none
  | .migrationStop _ _ => none
  | .errorCounterClear _ => none
  | .manifest _ => none
  | .leave => none
  | .switch => none
  | .handle _ _ _ _ => none
  | .mlog _ => none
  | .domainForm _ => none
  | .domainKey _ _ _ _ _ => none
  | .domainAck _ => none
  | .loadSlot _ _ _ _ => none
  | .unloadSlot _ _ => none
  | .getVersion _ _ => none
  | .getCapabilities _ _ => none
  | .negotiateAlgorithms _ _ => none
  | .getDigests _ _ => none
  | .getCertificate _ _ _ => none
  | .challenge _ _ => none
  | .getMeasurements _ _ _ => none
  | .keyExchange _ _ _ => none
  | .finish _ _ => none
  | .keyUpdate _ => none
  | .heartbeat _ => none
  | .endSession _ => none
  | .ideKm _ _ _ => none
  | .lockInterface _ _ => none
  | .stopInterface _ _ => none
  | .tdispViolation _ => none
  | .mctpControl _ => none
  | .entdaa _ => none
  | .sensorRead _ => none
  | .powerCapSet _ => none
  | .railSwitch _ => none
  | .errorLogRead _ => none
  | .pldmFirmwareUpdate _ => none
  | .powerOn => none
  | .coldStart => none
  | .warmStart => none
  | .vfFlr _ => none
  | .scrubPass _ _ => none
  | .rfetch _ => none
  | .bfex _ => none
  | .sigwait _ _ => none
  | .disp _ => none
  | .matrixReadDone _ => none
  | .remoteBlockReread _ _ _ => none
  | .hostReadCompletion _ _ => none
  | .pldmType0 _ => none

/-- The fields of a core instruction's word. -/
def toRaw (opc : Nat) (x : Ops) : Raw :=
  { opc := BitVec.ofNat 9 opc, fmt := x.fmt, df := x.d.enc, af := x.a.enc, bf := x.b.enc, cf := x.c.enc,
    imm := x.imm, h := x.h, mod := x.mod }

/-- The 32-bit word of a custom instruction (R435). -/
def encodeCp (f7 : BitVec 7) (f3 : BitVec 3) (x : CpR) : BitVec 32 :=
  f7 ++ x.rs2 ++ x.rs1 ++ f3 ++ x.rd ++ (0x0B : BitVec 7)

/-- The words of an instruction: 96 bits for a core instruction, 32 for a custom one; an event has none. -/
def encode (i : Instr) : List (BitVec 32) :=
  match i with
  | .rfetch x => [encodeCp 0 0 x]
  | .bfex x => [encodeCp 0 1 x]
  | .sigwait rel x => [encodeCp rel 2 x]
  | .disp x => [encodeCp 0 3 x]
  | i => match i.opOps with
    | some (opc, x) =>
      let w := (toRaw opc x).toWord
      [w.extractLsb' 0 32, w.extractLsb' 32 32, w.extractLsb' 64 32]
    | none => []

/-- The 96-bit word of a core instruction. -/
def encodeCore (i : Instr) : Option (BitVec 96) :=
  i.opOps.map (fun (opc, x) => (toRaw opc x).toWord)

/-- The instruction that the decoder reads from a word whose bits the opcode table numbers: 32 bits for a command
processor, otherwise a core's 96 bits, of which the table gives the low `nbits`. -/
noncomputable def decodeTableWord (nbits w : Nat) : Option Instr :=
  if nbits ≤ 32 then decodeCp (BitVec.ofNat 32 w)
  else match decode (BitVec.ofNat 96 w) with
    | .ok i => some i
    | .error _ => none

end Sys2Proof
end

