-- ==== Sys2Proof/Machine/Bits.lean ====
section
/-!
DEFINITION. Bit fields, extensions, byte order and the small arithmetic helpers of R7, R9 and R219.
-/
namespace Sys2Proof.Machine

/-- Bits `lo` to `lo + n - 1` of a number. -/
def bitsAt (x lo n : Nat) : Nat := x / 2 ^ lo % 2 ^ n

/-- Bits `lo` to `lo + n - 1` of a register, as a number. -/
def Word.bits (x : Word) (lo n : Nat) : Nat := bitsAt x.toNat lo n

/-- The signed value of the low `w` bits of a number. -/
def signedOf (w x : Nat) : Int :=
  let y := x % 2 ^ w
  if 2 ^ w ≤ 2 * y then (y : Int) - 2 ^ w else y

/-- A number as a register. -/
def word (n : Nat) : Word := BitVec.ofNat 64 n

/-- An integer as a register, modulo 2^64. -/
def wordI (n : Int) : Word := BitVec.ofInt 64 n

/-- A truth value as a register. -/
def wordB (b : Bool) : Word := if b then 1 else 0

/-- The little-endian bytes of a number (R7). -/
def toBytes : Nat → Nat → List Byte
  | 0, _ => []
  | n + 1, x => BitVec.ofNat 8 x :: toBytes n (x / 256)

/-- The number that little-endian bytes hold (R7). -/
def ofBytes : List Byte → Nat
  | [] => 0
  | b :: bs => b.toNat + 256 * ofBytes bs

/-- The least multiple of `m` at or above `x`. -/
def roundUp (x m : Nat) : Nat := (x + m - 1) / m * m

/-- Ceiling division. -/
def ceilDiv (x m : Nat) : Nat := (x + m - 1) / m

/-- The number of bits needed to write a number; 0 for 0. -/
def bitLen (x : Nat) : Nat := if x = 0 then 0 else Nat.log2 x + 1

/-- The number of 1 bits among the low `n` bits. -/
def popCount : Nat → Nat → Nat
  | 0, _ => 0
  | n + 1, x => x % 2 + popCount n (x / 2)

/-- The lowest set bit among the low `n` bits, counted from `i`; `n + i` if there is none. -/
def lowBit : Nat → Nat → Nat → Nat
  | 0, _, i => i
  | n + 1, x, i => if x % 2 = 1 then i else lowBit n (x / 2) (i + 1)

/-- Clamps an integer between two bounds. -/
def clampI (lo hi x : Int) : Int := if x < lo then lo else if hi < x then hi else x

/-- The numbers that mask `x` has set among its low `n` bits. -/
def maskList (n x : Nat) : List Nat := (List.range n).filter (fun i => x.testBit i)

/-- Cuts a list into pieces of `n`, at most `fuel` of them. -/
def chunksOf {α : Type} : Nat → Nat → List α → List (List α)
  | 0, _, _ => []
  | fuel + 1, n, xs => if xs.isEmpty then [] else xs.take n :: chunksOf fuel n (xs.drop n)

/-- Replaces the element at index `i` of a list. -/
def listSet {α : Type} : List α → Nat → α → List α
  | [], _, _ => []
  | _ :: t, 0, y => y :: t
  | x :: t, i + 1, y => x :: listSet t i y

end Sys2Proof.Machine
end

