-- ==== Sys2Proof/Machine/SMap.lean ====
section
/-!
DEFINITION. Operations on maps with strictly rising keys. `smSet` keeps the canonical form: an entry equal to what an
unlisted key reads as is never listed.
Log entries (notes/assumptions): 1 DESIGN CHOICE.
-/
namespace Sys2Proof.Machine

variable {α : Type}

/-- The value at a key; `d` where none is listed. -/
def smGet (d : α) : SMap α → Nat → α
  | [], _ => d
  | (k, v) :: t, i => if i = k then v else if i < k then d else smGet d t i

/-- The value at a key, if one is listed. -/
def smFind : SMap α → Nat → Option α
  | [], _ => none
  | (k, v) :: t, i => if i = k then some v else if i < k then none else smFind t i

/-- Lists a value at a key. -/
def smPut : SMap α → Nat → α → SMap α
  | [], i, v => [(i, v)]
  | (k, w) :: t, i, v => if i = k then (k, v) :: t else if i < k then (i, v) :: (k, w) :: t else (k, w) :: smPut t i v

/-- Lists nothing at a key. -/
def smErase : SMap α → Nat → SMap α
  | [], _ => []
  | (k, w) :: t, i => if i = k then t else if i < k then (k, w) :: t else (k, w) :: smErase t i

/-- Makes a key read as a value, where unlisted keys read as `d`. -/
def smSet [DecidableEq α] (d : α) (m : SMap α) (i : Nat) (v : α) : SMap α :=
  if v = d then smErase m i else smPut m i v

/-- Makes the keys from `i` on read as the values of a list. -/
def smSetList [DecidableEq α] (d : α) (m : SMap α) (i : Nat) : List α → SMap α
  | [] => m
  | v :: vs => smSetList d (smSet d m i v) (i + 1) vs

/-- Lists the values of a list from key `i` on. -/
def smPutList (m : SMap α) (i : Nat) : List α → SMap α
  | [] => m
  | v :: vs => smPutList (smPut m i v) (i + 1) vs

/-- The values at `n` keys from `i` on. -/
def smGetList (d : α) (m : SMap α) (i n : Nat) : List α := (List.range n).map (fun j => smGet d m (i + j))

/-- The part of a map with keys from `lo` to `hi - 1`. -/
def smRange (m : SMap α) (lo hi : Nat) : SMap α := m.filter (fun (k, _) => lo ≤ k && k < hi)

/-- A map without the keys from `lo` to `hi - 1`. -/
def smClear (m : SMap α) (lo hi : Nat) : SMap α := m.filter (fun (k, _) => !(lo ≤ k && k < hi))

/-- A map with `n` added to every key. -/
def smShift (m : SMap α) (n : Nat) : SMap α := m.map (fun (k, v) => (k + n, v))

/-- A map with `n` taken off every key. -/
def smUnshift (m : SMap α) (n : Nat) : SMap α := m.map (fun (k, v) => (k - n, v))

/-- The canonical form: keys strictly rising, and no value that an unlisted key reads as. -/
def smWf [DecidableEq α] (d : α) : SMap α → Bool
  | [] => true
  | [(_, v)] => v != d
  | (k, v) :: (k', v') :: t => k < k' && v != d && smWf d ((k', v') :: t)

/-- Adds a number to a set kept as a rising list. -/
def setAdd : List Nat → Nat → List Nat
  | [], i => [i]
  | k :: t, i => if i = k then k :: t else if i < k then i :: k :: t else k :: setAdd t i

end Sys2Proof.Machine
end

