-- ==== Sys2Proof/Config.lean ====
section
/-!
DEFINITION. What the specification leaves open: free values. Each is an opaque constant with no body, so that no proof
can see a value of it. `State.free` counts the free values taken; it is the first argument where a fresh value is meant.
Log entries (notes/assumptions): 5 DESIGN CHOICE, 29 DEDUCED, 35 DEDUCED, 37 DESIGN CHOICE, 49 DEDUCED, 68 DESIGN
CHOICE.
-/
namespace Sys2Proof.Config

/-- A byte whose value the specification leaves open: draw `n`, byte `i`. Used for an EMPTY WB slab after a restore
(R72) and for HBM bytes read under another key than they were written under (R67, R425). -/
opaque freeByte (n i : Nat) : Byte

/-- A byte of host memory or of another package as a command processor reads it: read `n` of the run, at a place. -/
opaque outsideByte (n place : Nat) : Byte

/-- Word 7 of a tag record, the internal snapshot of the apertures (R64). -/
opaque apsWord (t tag : Nat) : Word

/-- The sign of a sum that is exactly zero though its terms are not zeros of one sign: the specification gives none.
`mode` is CRND.MODE, `a` and `b` are magnitudes that tell the operands apart. -/
opaque zeroSign (mode a b : Nat) : Bool

/-- The CAUSE of a fault code for which the specification states none (MISALIGNED). -/
opaque openCause (code : Byte) : BitVec 6

/-- Whether the 2,048-bit signatures of a chunk's read set and of the lines that other commits have written report a line that
is in both though none is (R78): the specification gives no hash. -/
opaque falseConflict (reads writes : List Nat) : Bool

/-- The number of this package (R93, R417). -/
opaque package : Nat

/-- A measurement digest of R416, block `index` of start `n`, as a number below 2^512. -/
opaque measurement (n index : Nat) : BitVec 512

/-- The domain key that the leader's random source draws at its draw `n` (R418). -/
opaque domainKey (n : Nat) : BitVec 256

/-- SHA-512 of a list of numbers, as the RSC computes it (R416, R418). -/
opaque digest (xs : List Nat) : BitVec 512

/-- The device secret, fixed at manufacture (R414). -/
opaque deviceSecret : BitVec 256

/-- The RSA-4096 identity key pair that a device secret gives, and the alias key pair that it gives with the digest of the RSC
firmware (R414): the specification does not say how. -/
opaque identityKey (secret : BitVec 256) : BitVec 8192
opaque aliasKey (secret : BitVec 256) (firmware : BitVec 512) : BitVec 8192

/-- Whether a key wrapped under a tenant's session unwraps, and the number of the key pair it yields (R424). -/
opaque unwrap (session : Nat) (wrapped : List Word) : Option Nat

/-- Whether an SPDM peer's proof (certificate chain, signature or transcript MAC) is accepted (R415, R418). -/
opaque proofAccepted (session n : Nat) (proof : List Word) : Bool

/-- Whether the proof of another package holds a certificate chain that Irsal's root signs: the mutual authentication of a
session between packages (R415). -/
opaque peerProved (n : Nat) (proof : List Word) : Bool

/-- The bytes of an answer the RSC computes with a secret or from contents the specification does not list (R415). -/
opaque answer (n : Nat) (request : List Word) : List Word

/-- The writer limit of the trunk of a segment, as a member that is not its lightship lays out a down pass (R145). -/
opaque trunkLimit (epoch lsix : Nat) : Nat

/-- Whether a segment's lightship is enrolled on a trunk, as a member that is not that lightship finds it (R151). -/
opaque onTrunk (epoch lsix : Nat) : Bool

/-- The transmit trim, in sixteenths of a slot, that the calibration of start `n` finds for a port (R148). -/
opaque trim (n : Nat) (port : Bool) : Int

/-- What the detectors of a port show in frame `n` that no event describes: field `i` of its beacon, and the counts of its period, by
period bit (R146, R147, R153). -/
opaque frameField (n i : Nat) : Nat
opaque frameCounts (n : Nat) : List (Nat × Nat)

/-- The static I3C address of the side-band controller (R433). -/
opaque staticAddr : BitVec 7

/-- A sensor reading of the side-band controller (R433). -/
opaque sensor (n which : Nat) : Word

/-- Whether the stored parameters of a warm start match their stored digest (R436). -/
opaque storedParametersGood (n : Nat) : Bool

/-- Whether the RSC firmware is found signed by Irsal at start `n` (R416). -/
opaque rscSigned (n : Nat) : Bool

end Sys2Proof.Config
end

