-- ==== Sys2Proof/Machine/State.lean ====
section
/-!
DEFINITION. The state of the part: everything the specification gives the machine, as plain data, and the state after a
cold start (R436). A register file is a map whose unlisted entries hold the value that its reader gives (0 unless its
docstring says otherwise). Memory is one list of cells keyed by place: HBM byte a is key a, tile memories and the
command processors' scratch follow above 2^44 (`Machine/Ops.lean`).
Log entries (notes/assumptions): 2 DESIGN CHOICE, 3 DESIGN CHOICE, 4 DESIGN CHOICE, 6 DESIGN CHOICE, 7 PRESUMED, 8
DESIGN CHOICE, 9 DESIGN CHOICE, 10 DESIGN CHOICE, 12 DESIGN CHOICE, 25 DESIGN CHOICE, 67 PRESUMED.
-/
namespace Sys2Proof.Machine

/-- Why a step can stop for good: there is no such reason. Every finding of the specification is a trap, a fault record or a
halt of one unit, and the part goes on. -/
inductive Fault
deriving DecidableEq, Repr

/-- Why an instruction has no meaning here. -/
inductive Refusal where
  /-- An instruction that has no meaning yet, by its mnemonic. Nothing raises it: every instruction has its meaning. Safe. -/
  | notModelled (mnemonic : String)
deriving DecidableEq, Repr

/-- What a trap loads: its code, CFAD and CFDW (R41) and the frame's AUX word (R384). -/
structure TrapInfo where
  code : Byte
  cfad : Word
  cfdw : BitVec 32
  aux : Word
deriving DecidableEq, Repr

/-- One dimension of a stream: count, stride and index (R245, R247). -/
structure Dim where
  n : BitVec 32
  d : BitVec 32
  i : BitVec 32
deriving DecidableEq, Repr

/-- A stream register (R247). `dims` holds its NDIM + 1 dimensions, innermost first, and the zero ones after them. -/
structure Stream where
  bound : Bool
  write : Bool
  ty : BitVec 3
  empty : Bool
  base : Word
  ndim : BitVec 2
  dims : List Dim
deriving DecidableEq, Repr

/-- What a transfer does after its delay slot besides moving the instruction pointer (R238, R239, R356). -/
inductive SlotAct where
  | plain
  | slideUp (n : Nat)
  | slideDown (n : Nat)
  | endTask
  | trapret
deriving DecidableEq, Repr

/-- A transfer whose delay slot is next: where execution goes on, what else is done, and the notice it raised (R240). -/
structure Slot where
  target : Word
  act : SlotAct
  notice : Option TrapInfo
deriving DecidableEq, Repr

/-- The registers of a core that its chunk can change and a squash restores (R82, R282, R343). -/
structure Regs where
  /-- Physical registers 0 to 191 of the window stack (R235, R237). -/
  phys : SMap Word
  o : SMap Word
  g : SMap Word
  prv : Word
  /-- p0 to p7, bit k for pk (R202). -/
  preds : BitVec 8
  /-- v0 to v31: lane i of vk at key 64k + i (R282). -/
  vregs : SMap (BitVec 32)
  /-- The four registers of the vector latch, keyed in the same way. -/
  vprv : SMap (BitVec 32)
  /-- z0 to z7: lane i of zk at key 64k + i (R343). -/
  zregs : SMap (BitVec 1024)
  czst : Word
  streams : SMap Stream
  ceod : BitVec 32
  ip : Word
  slot : Option Slot
  /-- The rest of a transfer whose delay slot trapped; TRAPRET with BD set takes it up again (R211, R252). -/
  held : Option Slot
  /-- The core stands between the pieces of a BMOV or BFILL (R260): the wait that instruction has consumed; (0, 0) for none. -/
  mid : Option (Nat × Nat)
  cflag : Word
  crnd : Word
  csrn : Word
  cexb : Word
  /-- CSPILL (R59). -/
  park : Bool
  pblk : BitVec 16
  depth : Nat
  /-- CWIN (R235). -/
  sptr : BitVec 32
  live : Nat
  base : Nat
  winTraps : Bool
  /-- CRAS (R236) and the return-address store, oldest entry first. -/
  sbase : BitVec 32
  rcnt : Nat
  ras : List Word
  cacc : BitVec 16
  /-- CCHNK.MAXLEN (R77) and CYDL.CYCLES (R382). -/
  maxlen : BitVec 9
  cycles : BitVec 21
  /-- CTRAP (R380), CTPC and CTNPC (R381), CFAD and CFDW (R41). -/
  priv : Bool
  dbl : Bool
  bd : Bool
  code : Byte
  hen : Bool
  hvec : BitVec 13
  ctpc : BitVec 19
  ctnpc : BitVec 19
  cfad : Word
  cfdw : BitVec 32
deriving DecidableEq, Repr

/-- Where a byte of memory lies: in the tile memories or HBM at a key, on the host, or on another package. -/
inductive Place where
  /-- Key, number of the page's memory key (0 in the tile memories), and whether the page is uncached. -/
  | mem (key kn : Nat) (uc : Bool)
  | host (addr : Nat)
  | remote (pkg pa : Nat)
deriving DecidableEq, Repr

/-- A relaxed atomic waiting to be performed (R86): where, what, and the destination field it still owes a value. -/
structure RAtom where
  key : Nat
  /-- Package and physical address when the word lies on another package. -/
  pkg : Option Nat
  op : AtomOp
  wide : Bool
  uns : Bool
  v : Word
  nv : Word
  /-- Destination: none for .UNP, or when a later instruction has written it; and whether the latch is still owed. -/
  dst : Option Opd
  latch : Bool
  /-- Where the value goes when DF names a stream: the place of each byte of the element that was next at issue (R247). -/
  put : List Place
  /-- MOD order code 0 UNP, 1 COM, 2 NOR, 3 QNT; 5 for .ACQ, 6 for .REL and .SC; and the time of issue. -/
  use : Nat
  at_ : Nat
  keyNo : Nat
  vf : Option Nat
deriving DecidableEq, Repr

/-- A value of a B bank or of a captured A operand: a finite dyadic m·2^e, or the NaN and infinities of its type. -/
inductive MVal where
  | fin (m e : Int)
  | inf (neg : Bool)
  | nan
deriving DecidableEq, Repr

/-- A B bank of the matrix array (R319): element (k, n) of B at key 64k + n. -/
structure Bank where
  loaded : Bool
  ty : Nat
  kb : Nat
  nb : Nat
  vals : SMap MVal
deriving DecidableEq, Repr

/-- A slab: buffer (0 LM, 1 WB, 2 AB) and number (R48). -/
abbrev SlabId := Nat × Nat

/-- What a matrix instruction does (R315); MMA and MMG stand for MRED and MREDG too. -/
inductive MKind where
  | gang | ldb | mma | mmg | mmv | clr | drain | spill | fill
deriving DecidableEq, Repr

/-- A matrix instruction as it is handed to the array (R308). -/
structure MOp where
  kind : MKind
  /-- Redundant (R325). -/
  red : Bool
  x : Ops
  /-- Values of AF, BF and CF at issue. -/
  a : Word
  b : Word
  c : Word
  /-- Blocks it names, and those of them that it writes; its mode, 1 float and 2 integer (R313). -/
  blocks : List Nat
  writes : List Nat
  /-- Blocks of a redundant instruction that get a shadow (R325). -/
  pairs : List Nat
  mode : Nat
  /-- State words of its blocks as it issued; for MFILL, the word it has read. -/
  sts : List Word
  /-- Columns of the bank that it uses, and that bank's type and rows (R319). -/
  nb : Nat
  bty : Nat
  kb : Nat
  /-- The adapter-pointer table (R323). -/
  tab : List Word
  /-- Slabs of A at the leader, and its own slabs, on which P is raised; empty once P has fallen. -/
  heldA : List SlabId
  held : List SlabId
  /-- Bytes it reads: keys and lengths; and those of A, by offset in the leader's AB. -/
  reads : List (Nat × Nat)
  readsA : List (Nat × Nat)
  /-- Where each 64 KiB page of its global range begins, by page number: place and key number. -/
  pages : SMap (Nat × Nat)
  vf : Option Nat
  /-- The tile that leads its gang, the number of its join (0 for none) and the CCTX tag. -/
  lead : Nat
  gang : Nat
  tag : Byte
  /-- The array has done its work; what is left is its completion. -/
  rd : Bool
  /-- Requests of a spill or fill that wait for an answer from outside the part, by number, with the offset in the block; and
  the pieces that a fill has got (R330, R331). -/
  asked : SMap Nat
  got : SMap (List Byte)
deriving DecidableEq, Repr

/-- What a stochastic engine entry does (R347). -/
inductive ZKind where
  | gen | regen | and | xnor | mux | not
deriving DecidableEq, Repr

/-- A stochastic engine entry handed to the engine (R347). -/
structure ZOp where
  kind : ZKind
  x : Ops
  /-- The values that ZGEN read at issue, lane by lane. -/
  qs : List Nat
  /-- Class and length code of the destination, recorded at issue. -/
  lc : Nat
  cls : Nat
deriving DecidableEq, Repr

/-- State of a copy tag (R64). -/
inductive TagSt where
  | free | busy | done | faulted | suspended
deriving DecidableEq, Repr

/-- A copy's tag record (R64) and what its run needs beside it. -/
structure TagRec where
  st : TagSt
  ssem : Nat
  sinc : Nat
  kind : Nat
  doneb : Nat
  rows : Nat
  rowlen : Nat
  src : Word
  dst : Word
  spitch : Nat
  dpitch : Nat
  fad : Word
  fdw : BitVec 32
  /-- The instruction's kind bits (source, destination buffer), flag, repack, fill pattern and REDP fields. -/
  sbuf : Bool
  dbuf : Bool
  flag : Bool
  xrep : Bool
  fill : Bool
  ety : Nat
  op : Nat
  kk : Nat
  cw : Option Word
  satcnt : Nat
  flags : Word
  /-- Apertures in force at issue (R32), with the job whose they are. -/
  aps : SMap (Word × Word)
  jid : Nat
  priv : Bool
  held : List SlabId
  /-- Transfer number, 0 until its first request (R95). -/
  transfer : Nat
  /-- Bytes of the 4 KiB pieces that the engine has begun; stretches moved past DONEB, by first byte and length (R90). -/
  front : Nat
  ahead : List (Nat × Nat)
  /-- Where the destination's bytes have gone: packages, and 2^15 for this one or the host. The flag's place when the packets of
  the transfer name it (R95). -/
  pkgs : List Nat
  flagAt : Option (Nat × Nat)
  /-- What the end of the copy writes has been written or sent. -/
  ended : Bool
  /-- Source bytes of pieces that have been read and have not landed, by the piece's first byte (R90); reads of other packages that
  are under way, and their answers, by place and length (R93). -/
  got : SMap (List Byte)
  asked : SMap Nat
  ans : SMap (List Byte)
  cpriv : Word
  covf : Word
deriving DecidableEq, Repr

/-- What a chunk does when it commits (R76, R90). -/
inductive Act where
  | signal (sem n : Nat)
  | give (slabs : List SlabId)
  /-- The core's relaxed atomics are performed: FENCE and FENCE.F (R86). -/
  | fence
  | atomic (a : RAtom)
  | matrix (m : MOp)
  | stoch (z : ZOp)
  | copy (tag : Nat) (r : TagRec)
  | exchange (port : Bool) (desc : List Word) (held : List SlabId) (sem sinc : Nat)
  | barrier (port : Bool) (desc : List Word) (held : List SlabId) (sem sinc : Nat)
  | cbld (slot : Nat) (es : List (BitVec 16))
  | aptset (n : Nat) (w0 w1 : Word)
  | endTask
  | yield
  | trap (info : TrapInfo)
  | instrView
  /-- A fence that waits after its chunk (R267). -/
  | fenceWait (kind : Nat) (ip : Word) (inSlot : Bool)
  | phaseEnd
  | hostStore (addr : Word) (bytes : List Byte)
  | fabStore (pkg pa : Nat) (bytes : List Byte)
  | cancel (level name : Nat)
  /-- CRES, and CCAN when `drop` is set, of a tag (R66). -/
  | tagOp (drop : Bool) (tag : Nat)
  /-- TLBIP of an address, or TLBIC, for a context (R358). -/
  | tlbi (ctx : Byte) (va : Option Nat)
  /-- The asynchronous machine check of an engine's read (R404). -/
  | check (info : TrapInfo)
deriving DecidableEq, Repr

/-- A chunk in flight (R74 to R84). -/
structure Chunk where
  /-- The checkpoint, and the semaphore units the wait at its start consumed (R76). -/
  ck : Regs
  consumed : Option (Nat × Nat)
  /-- Buffered store bytes, and the number of the key each HBM byte is stored under. -/
  stores : SMap Byte
  skey : SMap Nat
  /-- Lines and owner checks read, by line key (R78). -/
  rset : List Nat
  /-- Accesses outside LM of the issuing row make the package arbiter decide (R80). -/
  pkg : Bool
  bytes : Nat
  len : Nat
  closed : Bool
  /-- Lines that other commits have written since the chunk began (R79). -/
  hit : List Nat
  /-- It makes an uncached access that is under way or made: a single-access commit cannot be squashed (R80). -/
  single : Bool
  /-- Bytes as they stand at the chunk's point in the commit order, where later commits have changed them: those that a chunk
  with an uncached access has read, and those that a .QNT update has changed under a solo token (R80, R83). -/
  veil : SMap Byte
  /-- .QNT updates placed behind the chunk in the commit order (R83). -/
  late : List RAtom
  acts : List Act
  /-- Destinations the chunk has written while a relaxed atomic still owes one (R86). -/
  wrote : List Opd
  squashes : Nat
  /-- A stream bind waits in it for its loop-count block, which lies in these lines (R181). -/
  binds : Bool
  block : List Nat
  /-- The LM of the tile as committed when the chunk began (R92). -/
  lm0 : SMap Byte
  vf : Option Nat
deriving DecidableEq, Repr

/-- How a core stands to its tile task (R178, R386, R389). -/
inductive RunSt where
  /-- It runs no task for the watch, or its task has ended. -/
  | off
  | running
  /-- Stopped for a save. -/
  | stopped
  /-- Stopped by an unhandled trap (R386). -/
  | halted
deriving DecidableEq, Repr

/-- A vote that a core has entered (R270): the instruction that stands in it, in its mode, then scope, index of the vote in
its scope, entry, kind, value, and the result once it is complete. -/
structure VoteIn where
  ip : Word
  priv : Bool
  scope : Nat
  k : Nat
  isV : Bool
  kind : Nat
  val : Word
  res : Option Word
deriving DecidableEq, Repr

/-- A core's part in a join of its gang (R316): what members must agree on, the time it joined, its instruction as it joined, and
the verdict. -/
structure Join where
  key : List Nat
  since : Nat
  op : MOp
  /-- 0 waiting, 2 members disagree, 3 timed out. -/
  verdict : Nat
deriving DecidableEq, Repr

/-- Accesses that an instruction makes on the fabric or on the host link: the number of the one under way with its place,
the answers so far by place, the places refused, and those whose word had an uncorrectable error. -/
structure ExtReq where
  id : Nat
  place : Nat
  waiting : Bool
  got : SMap (List Byte)
  refused : List Nat
  bad : List Nat
deriving DecidableEq, Repr

/-- What a walk answers (R35): a fault's code and cause, or a leaf and log2 of its page size. -/
inductive WalkAns where
  | fault (code : Byte) (cause : Nat)
  | leaf (e : Word) (log : Nat)
deriving DecidableEq, Repr

/-- A miss of a core's instruction that a walker serves (R38): the address, its class, and its answer once the walk is done. -/
structure Miss where
  va : Nat
  write : Bool
  /-- A vector access (R297); an atomic, and one with use .SPC or .QNT (R266). -/
  vec : Bool
  atom : Bool
  home : Bool
  ans : Option WalkAns
deriving DecidableEq, Repr

/-- An asynchronous event held for a core (R387): its item in the order there, and what it loads; for SEM_OVERFLOW also the
further overflows that it stands for (R206). -/
structure PendEv where
  item : Nat
  info : TrapInfo
  more : Nat := 0
deriving DecidableEq, Repr

/-- What an instruction needs to issue beside its wait (R375): room in its engine's queue or in a port's, its tag neither BUSY
nor SUSPENDED, and P below 255 on its slabs. -/
inductive Need where
  | engine
  | port (p : Bool)
  | tag (n : Nat)
  | slabs (ls : List SlabId)
deriving DecidableEq, Repr

/-- A fence whose chunk has committed and whose condition does not hold yet (R267): 1 FENCE.F, 2 FENCE.E, 3 FENCE.H; where it
stands, and whether that is a delay slot; and the transfers of copies that a FENCE.F waits for (R94). -/
structure Fence where
  kind : Nat
  ip : Word
  inSlot : Bool
  nums : List Nat
deriving DecidableEq, Repr

/-- A scalar core. -/
structure Core where
  regs : Regs
  run : RunSt
  cctx : Byte
  cpriv : Word
  covf : Word
  /-- CGANG (R317). -/
  tmo : Nat
  gsize : Nat
  gpos : Nat
  cphs : Word
  /-- CYDL.PRQ and LEFT (R382), and the FORCED mark of R395. -/
  prq : Bool
  left : Nat
  forced : Bool
  /-- CCHNK counts (R77). -/
  squash : Nat
  solo : Nat
  chunk : Option Chunk
  /-- The semaphore wait the core stands in, and whether the unit has granted it (R205). -/
  waiting : Option (Nat × Nat)
  granted : Bool
  /-- What the waiting instruction needs beside its wait, found by a trial of it, and that such a trial runs; it commits as it
  issues (R378). -/
  needs : List Need
  trial : Bool
  forOwn : Bool
  /-- The core stalls in a wait of R390 other than a semaphore wait. -/
  stalled : Bool
  /-- Slabs that its stalled TAKE waits for (R51). -/
  taking : List SlabId
  /-- Votes executed in each scope, and those whose result it has not taken (R270). -/
  vcount : SMap Nat
  votes : List VoteIn
  /-- Gang instructions joined, and the join it stands in (R316). -/
  gcount : Nat
  join : Option Join
  atoms : List RAtom
  /-- LM bytes as fetch sees them (R92). -/
  iview : SMap Byte
  pend : List PendEv
  /-- Notices and TRAPs due at the next boundary, in their order, and whether each arose in privileged mode (R387). -/
  due : List (Bool × TrapInfo)
  ext : Option ExtReq
  /-- The translations that its instruction has missed (R38). -/
  walks : List Miss
  /-- Fabric stores not yet acknowledged, by number (R94). -/
  fab : List Nat
  /-- A fabric store of the core was refused for its generation; its FENCE.F takes the fault (R420). -/
  fabRefused : Bool
  /-- The number of the next request at the core's last store to a host page that no completed zero-length read has followed
  (R267). -/
  hostAt : Option Nat
  /-- The fence that it stands behind; and of an X-core the transfers of copies that it has cancelled (R94). -/
  fence : Option Fence
  orphans : List Nat
  /-- Its work is cancelled: it stops at its next boundary (R189). -/
  cancelled : Bool
  /-- Phase group (R182): arrived at the boundary, ready for the start, released; and the time of the last arrival. -/
  arrived : Bool
  ready : Bool
  released : Bool
  arrAt : Nat
deriving DecidableEq, Repr

/-- The pre-emption state of a watch (R389). -/
inductive WatchSt where
  | running | requested | saving
  /-- SAVING, with everything of its record written but the events that arise meanwhile (R395). -/
  | written
deriving DecidableEq, Repr

/-- The watch on a tile (R173, R175). -/
structure Watch where
  launch : Nat
  jid : Nat
  vtn : Nat
  grid : Nat
  gang : Nat
  gpos : Nat
  gsize : Nat
  st : WatchSt
  /-- Global time of its placement. -/
  placed : Nat
  /-- A forced save is due at once (R432). -/
  now : Bool
deriving DecidableEq, Repr

/-- Save state of a WB slab (R70). -/
inductive WbSt where
  | empty
  | clean (src : Word)
  | dirty
deriving DecidableEq, Repr

/-- A cached entry (R37): context tag, page number, log2 of the range it maps, and the entry: a leaf, or in a walker's cache
a table entry. -/
structure Tlb where
  ctx : Byte
  page : Nat
  log : Nat
  leaf : Word
deriving DecidableEq, Repr

/-- A semaphore overflow not yet taken (R206). -/
structure SemOvf where
  sem : Nat
  by_ : Nat
  again : Nat
deriving DecidableEq, Repr

/-- A tile. -/
structure Tile where
  watch : Option Watch
  draining : Bool
  /-- The launch whose watch is draining, and the copies dropped meanwhile (R401). -/
  drainOf : Option Nat
  drain : Nat
  csavt : Byte
  /-- Slabs whose owner bit differs from its placement value, at key 256·buffer + slab (R50). -/
  owner : SMap Bool
  pcnt : SMap Nat
  wb : SMap WbSt
  /-- AS state words (R309), bits 14:0, at the block number; their data lie in memory. -/
  acc : SMap Word
  /-- Owner (job, virtual tile number) of a block left on the tile by a save (R397). -/
  accNote : SMap (Nat × Nat)
  /-- Entry k of codebook slot n at key 16n + k (R63). -/
  cb : SMap (BitVec 16)
  tags : SMap TagRec
  sems : SMap (BitVec 16)
  semPtr : CoreK
  semOvf : Option SemOvf
  banks : SMap Bank
  mq : List MOp
  zq : List ZOp
  tlb : List Tlb
  cores : SMap Core
deriving DecidableEq, Repr

/-- A resident job (R171, R172). -/
structure Job where
  jid : Nat
  ctx : Byte
  pri : Nat
  vf : Nat
  pf : Bool
  root : Nat
  saveb : Word
  ksbase : Nat
  kscnt : Nat
  domain : BitVec 32
  jrec : Word
  /-- The armed tick plan: header and entry words (R187). -/
  plan : Option (List Word)
  /-- Number of the plan's next start whose graph has not been taken, and starts whose graph waits for its last run. -/
  planAt : Nat
  planDue : List Nat
  cancelled : Bool
  /-- A CLOSE_JOB has taken it: it leaves the package once its STATE is CANCELLED (R368). -/
  closing : Bool
  /-- STATE of the record: 1 RUNNING, 2 DONE, 4 CANCELLED. -/
  state : Nat
  cause : Nat
  apt : SMap (Word × Word)
deriving DecidableEq, Repr

/-- A saved watch that is not resident (R389): what the save record does not hold stays with the command processors. -/
structure Saved where
  vtn : Nat
  grid : Nat
  gang : Nat
  gpos : Nat
  tile : Nat
  at_ : Nat
  cores : SMap Core
  semPtr : CoreK
  tags : SMap TagRec
  /-- In a slice's record of what an abort puts back: the blocks used in place at the restore, with their state words and data
  by offset in the block (R397, R403). -/
  kept : List (Nat × Word × SMap Byte)
  /-- It has no record to come from: it is to be placed anew (R403). -/
  anew : Bool
deriving DecidableEq, Repr

/-- Where a phase group stands (R183). -/
inductive GroupSt where
  | running | boundary | late
deriving DecidableEq, Repr

/-- A phase group (R182 to R188). -/
structure Group where
  st : GroupSt
  phase : Nat
  tick : Nat
  sel : Nat
  qlast : Nat
  relAt : Nat
  /-- The start the comparator holds, whether its event has come, and whether it was loaded late (R374). -/
  start : Option Nat
  come : Bool
  lastVtn : Nat
  /-- A phase cancel was taken in the phase now running (R186). -/
  cancelledPhase : Bool
  /-- Selector table words (R186). -/
  sel0 : Word
  /-- Planned start S of a gang-scheduled slice, until its join deadline has been met or missed (R402). -/
  s0 : Option Nat
  /-- A period of the slice's first exchange has started. -/
  started : Bool
  /-- The slice's join deadline was missed: its cores have stopped, and its engines come to their end (R403). -/
  slipping : Bool
  /-- Arrival times of watches that ended in the phase now running. -/
  gone : List Nat
deriving DecidableEq, Repr

/-- A launch (R173 to R178). -/
structure Launch where
  id : Nat
  jid : Nat
  d : List Word
  /-- 0 QUEUED, 1 RUNNING, 2 DONE, 3 REFUSED, 4 CANCELLED. -/
  state : Nat
  cause : Nat
  ended : Nat
  cancelledN : Nat
  queuedAt : Nat
  placedAt : Nat
  tiles : List Nat
  aged : Bool
  cancelled : Bool
  saved : List Saved
  run : Option Nat
  grp : Option Group
  /-- What an abort of the slice puts back (R403): the saved watches it was restored from, and its group. -/
  slice : List Saved
  grp0 : Option Group
deriving DecidableEq, Repr

/-- A loop of a graph run: its node, the last node of its body and the passes left. -/
structure LoopFr where
  node : Nat
  bend : Nat
  left : Nat
deriving DecidableEq, Repr

/-- A graph run (R179, R180). -/
structure Run where
  id : Nat
  jid : Nat
  addr : Word
  grec : Word
  nnodes : Nat
  node : Nat
  nodesRun : Nat
  dispatched : Nat
  launches : List Nat
  loops : List LoopFr
  waitL : Option Nat
  /-- 1 RUNNING, 2 DONE, 3 FAULTED, 4 CANCELLED. -/
  state : Nat
  cause : Nat
  cancelled : Bool
  /-- The plan entry that started it, if one did (R187). -/
  plan : Bool
  /-- A LOOP node waits for its block: the block is read at each commit that touches it (R181). -/
  atLoop : Bool
deriving DecidableEq, Repr

/-- A packet that a queue has started (R368): its index, words, whether its work is done and the run it made. -/
structure Started where
  idx : Nat
  w : List Word
  /-- 0 not begun, 1 under way, 2 work done. -/
  st : Nat
  run : Option Nat
deriving DecidableEq, Repr

/-- A host queue (R367). -/
structure Queue where
  qbase : Word
  en : Bool
  pri : Nat
  log2n : Nat
  tail : Nat
  head : Nat
  halt : Bool
  cause : Nat
  done : Nat
  fetched : SMap (List Word)
  active : List Started
deriving DecidableEq, Repr

/-- A command processor (R434). Its control registers beside CPJID are those of RISC-V machine mode. -/
structure Cp where
  pc : Word
  x : SMap Word
  cpjid : BitVec 16
  mepc : Word
  mcause : Word
  mtval : Word
  mtvec : Word
  mstatus : Word
  mie : Word
  mscratch : Word
  /-- The interrupt lines that are up, as mip shows them. -/
  mip : Word
  /-- mcycle: its value while the counter is inhibited, else what it is ahead of the core cycles passed. -/
  mcyc : Word
  minstret : Word
  /-- mcountinhibit. -/
  inhibit : Word
  /-- The SIGWAIT it stands on: the word is read at each commit that touches it (R435). -/
  sig : Option (BitVec 7 × CpR)
deriving DecidableEq, Repr

/-- Which keys a port holds: the generation and the mask and check keys of R419, with their epoch. -/
structure PortKey where
  gen : BitVec 32
  mask : BitVec 256
  check : BitVec 256
  epoch : BitVec 32
deriving DecidableEq, Repr

/-- An exchange or barrier in a port's queue (R152, R334, R335). -/
structure Exch where
  id : Nat
  t : Nat
  /-- A BARR: no descriptor; without a period when the pending key was installed (R335). -/
  barr : Bool
  noPeriod : Bool
  desc : List Word
  sem : Nat
  sinc : Nat
  held : List SlabId
  /-- Counts read in each period sent, by period index, and the number of periods that have passed. -/
  hist : SMap (SMap Nat)
  next : Nat
  passed : Nat
  fails : SMap Nat
  replays : Nat
  lastP : BitVec 48
  /-- Its armed slots are lit (R159), and the number P of each period it has started. -/
  armed : Bool
  nums : SMap Nat
  /-- BM: elements whose alignment, as this member has sent it, was inexact (1), was clamped (2), or met an exponent of 0xFF (4)
  (R156). -/
  al : SMap Nat
  /-- The trunk pass of an exchange of this package's other port, by that exchange's number (R145). -/
  trunkOf : Option Nat
  /-- Its own trunk pass: 0 not begun, 1 under way, 2 done, with what it carries and then its results. In an entry that is
  a trunk pass, trunkSt holds the bits that R145 adds to each value. -/
  trunkSt : Nat
  trunk : List Int
deriving DecidableEq, Repr

/-- A period sent and not yet judged (R161, R162). -/
structure Flight where
  ex : Nat
  k : Nat
  p : BitVec 48
  own : Bool
  age : Nat
  void : Bool
deriving DecidableEq, Repr

/-- What a port lights in a frame (R147, R148). -/
structure Lit where
  /-- P, SIG and the key epoch, at the keeper. -/
  keeper : Option (BitVec 48 × BitVec 48 × BitVec 32)
  /-- Its slots on every copy: the two aborts, armed, rekey ready, and its reject flag. -/
  miscount : Bool
  roster : Bool
  armed : Bool
  rekey : Bool
  reject : Bool
  /-- Pilot slots of the period, and period bits. -/
  pilots : List Nat
  bits : List Nat
deriving DecidableEq, Repr

/-- A medium port (R143, R162). -/
structure Port where
  en : Bool
  sec : Bool
  ls : Bool
  trk : Bool
  nros : Nat
  limit : Nat
  myix : Nat
  lsix : Nat
  epoch : BitVec 32
  queue : List Exch
  /-- 0 IDLE, 1 ARMED, 2 RUNNING, 3 WRITING, 4 stopped by machine check 0xF2. -/
  st : Nat
  pnum : BitVec 48
  plast : BitVec 48
  flight : List Flight
  /-- The retained bits of the last two started periods, by number (R162). -/
  sent : List (Nat × List Nat)
  key : Option PortKey
  pkey : Option PortKey
  /-- Its rekey-ready slots are lit (R168). -/
  ready : Bool
  /-- The transmit trim in force, in sixteenths of a slot (R148). -/
  trim : Int
  /-- The global time of its last frame (R146), and what it lit in it. -/
  frameAt : Option Nat
  lit : Lit
  /-- A BENROL in progress: the tile that enrols, its block's words and the keys (R340). Once it has ended, and until its
  core finds that, the words are none when it has enrolled and one word when it has failed. -/
  enrol : Option (Nat × List Word × Option PortKey)
  /-- Aborts this member lights in its next beacon. -/
  litMiscount : Bool
  litRoster : Bool
  /-- Period numbers given in the current epoch (R167). -/
  epochN : Nat
  /-- The tile whose BLEAVE waits for the entries numbered below a number (R341). -/
  leaving : Option (Nat × Nat)
deriving DecidableEq, Repr

/-- What a fabric request that this package sent is for. -/
inductive FabFor where
  | core (t : Nat) (k : CoreK)
  | store (t : Nat) (k : CoreK)
  /-- A piece of a spill or fill of a tile's array. -/
  | array (t : Nat)
  /-- Bytes of a copy: how many, where its piece began, and its transfer number. -/
  | copy (t tag : Nat) (bytes ofs num : Nat)
  /-- A read of a copy's source: the name of its place in the tag's record, and its transfer number. -/
  | copyRead (t tag : Nat) (place num : Nat)
deriving DecidableEq, Repr

/-- A fabric request sent and not yet acknowledged (R93). -/
structure FabOut where
  id : Nat
  pkg : Nat
  seq : Nat
  gen : BitVec 32
  what : FabFor
deriving DecidableEq, Repr

/-- What stands between this package and another (R93, R420). -/
structure Peer where
  /-- Generation, send key and receive key of G and G − 1, newest first (R414, R419). -/
  keys : List (BitVec 32 × BitVec 256 × BitVec 256)
  /-- Next sequence number to send, by generation number; highest applied plus one received, likewise. -/
  send : SMap Nat
  recv : SMap Nat
  broken : Bool
  /-- Times in a row that the tag of a request, packet or answer has failed, by its name (R420). -/
  tagFails : SMap Nat
deriving DecidableEq, Repr

/-- A message that left the part on the fabric. -/
structure FabMsg where
  pkg : Nat
  id : Nat
  seq : Nat
  gen : BitVec 32
  pa : Nat
  op : FabOp
  /-- A data packet of a transfer (R95): its number, the length of the whole, and where its flag lies, if it names one. -/
  transfer : Option (Nat × Nat × Option Nat)
deriving DecidableEq, Repr

/-- The fabric state: peers, requests sent, transfer records of R95, exports (R35) and messages sent. -/
structure Fabric where
  peers : SMap Peer
  pending : List FabOut
  /-- Bytes arrived, at key 2^32·source + transfer; and where reduce-put packets of it have been applied (R95, R275). -/
  xfers : SMap Nat
  reduced : SMap (List Nat)
  exports : List (Nat × Nat × Nat)
  out : List FabMsg
  /-- Answers to requests of other packages: (package, sequence number, value or none when refused). -/
  answers : List (Nat × Nat × Option (List Byte))
  nextId : Nat
  nextTransfer : Nat
deriving DecidableEq, Repr

/-- A read of host memory that the part has sent: by a core, a copy or FENCE.H (zero length). -/
structure HostRead where
  id : Nat
  t : Nat
  k : CoreK
  addr : Word
  len : Nat
deriving DecidableEq, Repr

/-- What the part sends on the host link: posted writes, reads of a function's rings (R367), interrupts and answers to host
reads. -/
inductive HostMsg where
  | ringRead (f : Nat) (addr : Word) (len : Nat)
  | write (addr : Word) (bytes : List Byte)
  /-- The message of an MSI-X vector of a function, with the address and data of its table entry (R427). -/
  | irq (f vector : Nat) (addr : Word) (data : BitVec 32)
  | readData (bytes : List Byte)
  | completerAbort
  /-- The leader of a domain reports a member that has failed its checks (R418). -/
  | memberFailed (pkg : Nat)
deriving DecidableEq, Repr

/-- A request for a solo token (R83): the core and the arbiter (none for the package, else die·16 + row). -/
structure SoloReq where
  t : Nat
  k : CoreK
  row : Option Nat
deriving DecidableEq, Repr

/-- A recent update of a word (R88): when, by which tile, where, and the bytes before it, with the numbers of their keys and the
marks on their words (R69). -/
structure Upd where
  at_ : Nat
  t : Nat
  key : Nat
  old : List Byte
  tags : List Nat
  bad : List Nat
deriving DecidableEq, Repr

/-- An entry of an MSI-X table (R427). -/
structure MsixEntry where
  addr : Word
  data : BitVec 32
  masked : Bool
deriving DecidableEq, Repr

/-- What the model holds of a function's PCIe configuration space (R427): MSI-X with its table and pending bits, of the PF the
SR-IOV control, and the DOE mailbox. The specification names these and does not repeat PCIe 6.0: PRESUMED, log entry 67. -/
structure PciFn where
  msixOn : Bool
  fmask : Bool
  table : SMap MsixEntry
  pending : List Nat
  vfEnable : Bool
  numVfs : Nat
  /-- The DOE mailbox: the words written, whether its object is with the RSC, and the answer that has not been read. -/
  doeIn : List (BitVec 32)
  doeBusy : Bool
  doeOut : List (BitVec 32)
deriving DecidableEq, Repr

/-- The migration block of a virtual function (R431). STATE: 0 RUN, 1 STOPPING, 2 STOPPED. -/
structure Mig where
  trk : Bool
  stop : Bool
  state : Nat
  dbase : BitVec 19
  widx : BitVec 18
deriving DecidableEq, Repr

/-- A key handle the RSC has issued and not yet used (R423). -/
structure Handle where
  h : BitVec 32
  port : Bool
  domain : BitVec 32
  gen : BitVec 32
  key : PortKey
deriving DecidableEq, Repr

/-- The domain record (R414, R417). -/
structure Domain where
  domain : BitVec 32
  leader : Nat
  members : List Nat
  digests : List (BitVec 512)
  /-- Generation and key now in use, the one before it, and the pending one. -/
  cur : Option (BitVec 32 × BitVec 256)
  prev : Option (BitVec 32 × BitVec 256)
  pending : Option (BitVec 32 × BitVec 256)
  /-- As leader: members sent the pending key, those that acknowledged it, and those reported as failed. -/
  sentTo : List Nat
  acked : List Nat
  failed : List Nat
deriving DecidableEq, Repr

/-- An SPDM session of the RSC (R415). Phase: 1 version, 2 capabilities, 3 algorithms, 4 keys exchanged, 5 finished. -/
structure Session where
  phase : Nat
  betweenPackages : Bool
  updates : Nat
deriving DecidableEq, Repr

/-- A loaded memory key slot (R424): its context tag and the number of its key load. -/
structure KeySlot where
  ctx : Byte
  load : Nat
  /-- An unload has begun: new accesses are refused (R425). -/
  closing : Bool
  /-- The tenant session that loaded it. -/
  session : Nat
deriving DecidableEq, Repr

/-- A request that the RSC has sent to another package: its SPDM code, and its fields where the specification lists them
(R415, R418). -/
structure RscMsg where
  pkg : Nat
  code : Byte
  words : List Word
deriving DecidableEq, Repr

/-- The Root Security Core (R414 to R425). -/
structure Rsc where
  /-- The device secret, and the identity and alias key pairs (R414). -/
  secret : BitVec 256
  identity : BitVec 8192
  aliasKey : BitVec 8192
  /-- Starts made: the number that the measurements and the alias key were taken at. -/
  start : Nat
  signed : Bool
  dom : Option Domain
  handles : List Handle
  ticket : Nat
  sessions : SMap Session
  /-- Sessions that the RSC has opened itself, as requester, by package. -/
  asking : SMap Session
  slots : SMap KeySlot
  loads : Nat
  draws : Nat
  ide : SMap (BitVec 256)
  /-- Requests sent to other packages, newest first. -/
  sent : List RscMsg
deriving DecidableEq, Repr

/-- The side-band controller and the mailbox (R433). -/
structure Sideband where
  /-- The static I3C address of the controller, the dynamic one it has been given, and its MCTP endpoint ID. -/
  addr : BitVec 7
  dynAddr : Option (BitVec 7)
  eid : Byte
  cap : Nat
  rails : Bool
  /-- Mailbox status of the last request, and the answers sent, newest first. -/
  mbox : Nat
  /-- The mailbox buffer, by word (R433). -/
  box : SMap Word
  /-- The code of the mailbox request that the RSC has taken and not answered. -/
  req : Option Nat
  answers : List (List Word)
deriving DecidableEq, Repr

/-- Who acts in a turn. -/
inductive Who where
  | core (t : Nat) (k : CoreK)
  | cp (n : Nat)
  | event (i : Instr)
  /-- An SPDM peer sends a request whose code has no row of its own (R415). -/
  | request (code : Byte)
  /-- The interrupt lines of a command processor take values: its software, timer and external interrupt (R434). -/
  | lines (n : Nat) (up : Word)
deriving DecidableEq, Repr

/-- A turn: core cycles that pass first, and who acts. -/
structure Turn where
  dt : Nat
  who : Who
deriving DecidableEq, Repr

/-- The part, and the model's own bookkeeping of who moves next. -/
structure State where
  mem : List Host.Cell
  /-- Number of the key each HBM byte was last written under (R67, R425); 0 for none. -/
  keyTag : SMap Nat
  /-- Words marked with an uncorrectable error (R438), by the key of their first byte. -/
  poison : List Nat
  /-- Core cycles passed, and the value of the global time counter at cycle 0 (R1). -/
  cycle : Nat
  gtc0 : Nat
  tiles : SMap Tile
  /-- The shared translation cache of each row, by die and row, and the upper-level entries that each walker keeps, by die and
  walker (R37). -/
  rowTlb : SMap (List Tlb)
  upper : SMap (List Tlb)
  jobs : List Job
  launches : List Launch
  runs : List Run
  queues : SMap Queue
  rotPos : Nat
  rotLast : SMap Nat
  cps : SMap Cp
  /-- Ports 0 and 1. -/
  ports : SMap Port
  /-- The stored transmit trims of the ports (R148, R436). -/
  trims : List Int
  nextExch : Nat
  fabric : Fabric
  hostOut : List HostMsg
  hostReads : List HostRead
  solo : List SoloReq
  /-- The last updates of memory, newest first, and how many of them what waits on a word has not seen (R88, R181). -/
  updates : List Upd
  fresh : Nat
  /-- GSLIP's values, newest first, with the time each was written (R402, R428). -/
  gslip : List (Nat × BitVec 16)
  /-- DWIN of each function (R429). -/
  dwin : SMap Word
  mig : SMap Mig
  /-- TDI state of each virtual function: 0 unlocked, 1 locked, 2 ERROR (R430). -/
  tdi : SMap Nat
  errlog : SMap Word
  pci : SMap PciFn
  rsc : Rsc
  side : Sideband
  /-- Numbers for the next launch and graph run. -/
  nextId : Nat
  /-- The model's own: turns to come, rotation over the machine's own work, choices among allowed outcomes, count of
  free values taken, and who acts. -/
  agenda : List Turn
  rr : Nat
  choices : List Nat
  free : Nat
  curTile : Nat
  curCore : CoreK
  curCp : Nat
deriving DecidableEq, Repr

/-- A core's registers when its tile is free, and before a task sets them (R177). -/
def Regs.init : Regs :=
  { phys := [], o := [], g := [], prv := 0, preds := 1, vregs := [], vprv := [], zregs := [], czst := 0,
    streams := [], ceod := 0, ip := 0, slot := none, held := none, mid := none, cflag := 0, crnd := 0, csrn := 0, cexb := 0,
    park := false, pblk := 0, depth := 0, sptr := 0x400, live := 0, base := 0, winTraps := false, sbase := 0x400,
    rcnt := 0, ras := [], cacc := 0, maxlen := 0, cycles := 0, priv := false, dbl := false, bd := false, code := 0,
    hen := false, hvec := 0, ctpc := 0, ctnpc := 0, cfad := 0, cfdw := 0 }

/-- A core of a free tile. -/
def Core.init : Core :=
  { regs := Regs.init, run := .off, cctx := 0, cpriv := 0, covf := 0, tmo := 0, gsize := 0, gpos := 0, cphs := 0,
    prq := false, left := 0, forced := false, squash := 0, solo := 0, chunk := none, waiting := none, granted := false, needs := [], trial := false, forOwn := false,
    stalled := false, taking := [], vcount := [], votes := [], gcount := 0, join := none, atoms := [], iview := [],
    pend := [], due := [], ext := none, fab := [], walks := [], fabRefused := false, hostAt := none, fence := none, orphans := [], cancelled := false, arrived := false,
    ready := false, released := false, arrAt := 0 }

/-- A free tile (R436): no watch, every tag FREE, every field as placement leaves it (R50, R62, R63, R66, R70, R207). -/
def Tile.init : Tile :=
  { watch := none, draining := false, drainOf := none, drain := 0, csavt := 122, owner := [], pcnt := [], wb := [],
    acc := [], accNote := [], cb := [], tags := [], sems := [], semPtr := .s, semOvf := none, banks := [], mq := [],
    zq := [], tlb := [], cores := [] }

/-- A stream that is not bound (R247). -/
def Stream.init : Stream :=
  { bound := false, write := false, ty := 0, empty := false, base := 0, ndim := 0, dims := [] }

/-- A FREE tag (R64). -/
def TagRec.init : TagRec :=
  { st := .free, ssem := 0, sinc := 0, kind := 0, doneb := 0, rows := 0, rowlen := 0, src := 0, dst := 0, spitch := 0,
    dpitch := 0, fad := 0, fdw := 0, sbuf := false, dbuf := false, flag := false, xrep := false, fill := false,
    ety := 0, op := 0, kk := 0, cw := none, satcnt := 0, flags := 0, aps := [], jid := 0, priv := false, held := [],
    transfer := 0, front := 0, ahead := [], pkgs := [], flagAt := none, ended := false, got := [], asked := [], ans := [],
    cpriv := 0, covf := 0 }

/-- An unloaded bank (R319). -/
def Bank.init : Bank := { loaded := false, ty := 0, kb := 0, nb := 0, vals := [] }

/-- A queue's registers at their reset values (R367). -/
def Queue.init : Queue :=
  { qbase := 0, en := false, pri := 0, log2n := 4, tail := 0, head := 0, halt := false, cause := 0, done := 0,
    fetched := [], active := [] }

/-- A command processor at its start. -/
def Cp.init : Cp :=
  { pc := 0, x := [], cpjid := 0, mepc := 0, mcause := 0, mtval := 0, mtvec := 0, mstatus := 0,
    mie := 0, mscratch := 0, mip := 0, mcyc := 0, minstret := 0, inhibit := 0, sig := none }

/-- An MSI-X entry and a function's configuration space after a start: vectors masked, MSI-X off, no VF enabled (R427; PRESUMED, log
entry 67). -/
def MsixEntry.init : MsixEntry := { addr := 0, data := 0, masked := true }

def PciFn.init : PciFn :=
  { msixOn := false, fmask := false, table := [], pending := [], vfEnable := false, numVfs := 0, doeIn := [], doeBusy := false,
    doeOut := [] }

/-- A port that lights nothing. -/
def Lit.dark : Lit :=
  { keeper := none, miscount := false, roster := false, armed := false, rekey := false, reject := false, pilots := [], bits := [] }

/-- A port that is not enrolled (R143, R436). -/
def Port.init : Port :=
  { en := false, sec := false, ls := false, trk := false, nros := 0, limit := 0, myix := 0, lsix := 0, epoch := 0,
    queue := [], st := 0, pnum := 0, plast := 0, flight := [], sent := [], key := none, pkey := none, ready := false,
    trim := 0, frameAt := none, lit := Lit.dark, enrol := none,
    litMiscount := false, litRoster := false, epochN := 0, leaving := none }

/-- An unused pair of packages (R414). -/
def Peer.init : Peer := { keys := [], send := [], recv := [], broken := false, tagFails := [] }

/-- Migration registers at reset (R431). -/
def Mig.init : Mig := { trk := false, stop := false, state := 0, dbase := 0, widx := 0 }

/-- The fabric after a start (R414). -/
def Fabric.init : Fabric :=
  { peers := [], pending := [], xfers := [], reduced := [], exports := [], out := [], answers := [], nextId := 0, nextTransfer := 0 }

/-- The Root Security Core after its start number `n`: it keeps the device secret and the identity key (R414, R424). -/
def Rsc.init (n : Nat) : Rsc :=
  { secret := Config.deviceSecret, identity := Config.identityKey Config.deviceSecret,
    aliasKey := Config.aliasKey Config.deviceSecret (Config.measurement n 2), start := n, signed := true, dom := none, handles := [], ticket := 0, sessions := [], asking := [], slots := [], loads := 0,
    draws := 0, ide := [], sent := [] }

/-- The side-band controller at power-on (R433). -/
def Sideband.init : Sideband := 
  { addr := Config.staticAddr, dynAddr := none, eid := 0, cap := 3200, rails := true, mbox := 0, box := [], req := none,
    answers := [] }

/-- The part right after a cold start (R436). -/
def State.reset : State :=
  { mem := [], keyTag := [], poison := [], cycle := 0, gtc0 := 0, tiles := [], rowTlb := [], upper := [], jobs := [], launches := [], runs := [],
    queues := [], rotPos := 0, rotLast := [], cps := [], ports := [], trims := [Config.trim 0 false, Config.trim 0 true], nextExch := 0, fabric := Fabric.init,
    hostOut := [], hostReads := [], solo := [], updates := [], fresh := 0, gslip := [], dwin := [], mig := [], tdi := [],
    errlog := [], pci := [], rsc := Rsc.init 0, side := Sideband.init, nextId := 0, agenda := [], rr := 0, choices := [],
    free := 0, curTile := 0, curCore := .c, curCp := 0 }

end Sys2Proof.Machine
end

