-- ==== Sys2Proof/Machine/Ops.lean ====
section
/-!
DEFINITION. The named operations over the state: tiles and cores, the one memory, committed writes, the register window,
the fault record, taking a trap and returning from one.
Log entries (notes/assumptions): 1 DESIGN CHOICE, 4 DESIGN CHOICE, 10 DESIGN CHOICE, 14 DEDUCED, 17 DEDUCED, 29
DEDUCED, 39 DEDUCED, 44 DEDUCED, 49 DEDUCED, 55 DEDUCED, 61 DEDUCED, 67 PRESUMED.
-/
namespace Sys2Proof.Machine

/-- The outcome of a step of this part. -/
abbrev Out := Host.Outcome State Fault Refusal

/-- How an instruction's effect ends early: in a trap, with nothing changed; or in a stall, with what the stall does to
the state in which the instruction issued. -/
inductive Exit where
  | trap (i : TrapInfo)
  | stall (f : State → State)

/-- An instruction's effect: it changes the state, or ends early. -/
abbrev Exec := StateT State (Except Exit)

/-! ## Tiles and cores -/

def State.tile (s : State) (t : Nat) : Tile := smGet Tile.init s.tiles t

def State.setTile (s : State) (t : Nat) (x : Tile) : State := { s with tiles := smPut s.tiles t x }

def State.updTile (s : State) (t : Nat) (f : Tile → Tile) : State := s.setTile t (f (s.tile t))

def Tile.core (x : Tile) (k : CoreK) : Core := smGet Core.init x.cores k.idx

def Tile.setCore (x : Tile) (k : CoreK) (c : Core) : Tile := { x with cores := smPut x.cores k.idx c }

def State.core (s : State) (t : Nat) (k : CoreK) : Core := (s.tile t).core k

def State.setCore (s : State) (t : Nat) (k : CoreK) (c : Core) : State := s.updTile t (fun x => x.setCore k c)

def State.updCore (s : State) (t : Nat) (k : CoreK) (f : Core → Core) : State := s.setCore t k (f (s.core t k))

/-- Changes a core's registers from outside its instructions: a chunk in flight keeps the change when it is squashed. -/
def Core.mergeRegs (c : Core) (f : Regs → Regs) : Core :=
  { c with regs := f c.regs, chunk := c.chunk.map (fun h => { h with ck := f h.ck }) }

/-- The acting core. -/
def State.me (s : State) : Core := s.core s.curTile s.curCore

def State.setMe (s : State) (c : Core) : State := s.setCore s.curTile s.curCore c

def State.port (s : State) (p : Bool) : Port := smGet Port.init s.ports p.toNat

def State.setPort (s : State) (p : Bool) (x : Port) : State := { s with ports := smPut s.ports p.toNat x }

def State.queue (s : State) (q : Nat) : Queue := smGet Queue.init s.queues q

def State.setQueue (s : State) (q : Nat) (x : Queue) : State := { s with queues := smPut s.queues q x }

def State.job? (s : State) (jid : Nat) : Option Job := s.jobs.find? (fun j => j.jid == jid)

def State.setJob (s : State) (j : Job) : State :=
  { s with jobs := s.jobs.map (fun j' => if j'.jid = j.jid then j else j') }

def State.launch? (s : State) (l : Nat) : Option Launch := s.launches.find? (fun x => x.id == l)

def State.setLaunch (s : State) (l : Launch) : State :=
  { s with launches := s.launches.map (fun x => if x.id = l.id then l else x) }

def State.run? (s : State) (r : Nat) : Option Run := s.runs.find? (fun x => x.id == r)

def State.setRun (s : State) (r : Run) : State := { s with runs := s.runs.map (fun x => if x.id = r.id then r else x) }

/-- The global time counter: 1 GHz beside a 1.6 GHz core clock (R1). -/
def State.gtc (s : State) : Nat := s.gtc0 + s.cycle * 5 / 8

/-- Takes the next choice among outcomes the specification allows; 0 when none is set. -/
def State.choose (s : State) : Nat × State := (s.choices.headD 0, { s with choices := s.choices.tail })

/-- Adds to a counter of the error log, which saturates (R441). -/
def State.count (s : State) (ofs n : Nat) : State :=
  let v := (smGet 0 s.errlog ofs).toNat + n
  { s with errlog := smPut s.errlog ofs (word (Nat.min v (2 ^ 64 - 1))) }

/-! ## Interrupts (R427) -/

def State.pciFn (s : State) (f : Nat) : PciFn := smGet PciFn.init s.pci f

def State.setPciFn (s : State) (f : Nat) (p : PciFn) : State := { s with pci := smPut s.pci f p }

/-- The message of a vector of function f goes out. -/
def State.sendIrq (s : State) (f v : Nat) : State :=
  let e := smGet MsixEntry.init (s.pciFn f).table v
  { s with hostOut := s.hostOut ++ [.irq f v e.addr e.data] }

/-- Whether a vector of a function may send its message. -/
def PciFn.unmasked (p : PciFn) (v : Nat) : Bool := p.msixOn && !p.fmask && !(smGet MsixEntry.init p.table v).masked

/-- Function f raises a vector: its message goes out, or the vector is pending while it is masked (R427). -/
def State.raiseIrq (s : State) (f v : Nat) : State :=
  let p := s.pciFn f
  if p.unmasked v then s.sendIrq f v else s.setPciFn f { p with pending := setAdd p.pending v }

/-- A machine check is counted and recorded, and raises the PF's error vector (R440, R441). -/
def State.logCheck (s : State) (t : Nat) (code : Byte) (cfad : Word) : State :=
  let s := s.count (0x18 + 8 * (code.toNat - 0xF0)) 1
  let s := { s with errlog := smPut (smPut s.errlog 0x60
      (word (code.toNat * 2 ^ 56 + t % 1024 * 2 ^ 40 + s.gtc % 2 ^ 40))) 0x68 cfad }
  s.raiseIrq 0 16

/-! ## The one memory

HBM byte `a` is at key `a` (R67); buffer `b` of tile `t` (0 LM, 1 WB, 2 AB, 3 AS) at 2^44 + 2^22·t + 2^20·b; the scratch
of command processor `n` at 2^45 + 2^18·n. -/

def hbmKey (pa : Nat) : Nat := pa % 2 ^ 40

def tileKey (t buf ofs : Nat) : Nat := 2 ^ 44 + t * 2 ^ 22 + buf * 2 ^ 20 + ofs

def cpKey (n ofs : Nat) : Nat := 2 ^ 45 + n * 2 ^ 18 + ofs

/-- Whether a place lies in HBM. -/
def isHbm (key : Nat) : Bool := key < 2 ^ 40

/-- A 64-byte line, named by its place (R78). -/
def lineOf (key : Nat) : Nat := key / 64

/-- The name under which an owner check of a slab stands in a read set (R78). -/
def ownerLine (t buf slab : Nat) : Nat := 2 ^ 50 + t * 1024 + buf * 256 + slab

/-- The name under which a codebook slot's values stand in a read set (R63). -/
def cbLine (t slot : Nat) : Nat := 2 ^ 51 + t * 8 + slot

/-- Byte sizes of LM, WB, AB and AS (R44). -/
def bufSize (buf : Nat) : Nat :=
  match buf with
  | 0 | 2 => 0x80000
  | 1 => 0x100000
  | _ => 0x40000

/-- The name under which a copy tag's state stands in a read set (R279). -/
def tagLine (t tag : Nat) : Nat := 2 ^ 53 + t * 64 + tag

/-- The memory's byte at a place; a byte that nothing has written reads as 0. -/
def memByte (m : List Host.Cell) (key : Nat) : Byte := smGet 0 m key

/-- The number of the key the part keeps for its own use (R431). -/
def internalKey : Nat := 1

/-- A byte read under key number `kn`: what was written under that key, or under none; otherwise an open value
(R67, R425). Key number 0 reads the byte as it stands. -/
def State.readByte (s : State) (kn key : Nat) : Byte :=
  let tag := smGet 0 s.keyTag key
  if isHbm key ∧ tag ≠ 0 ∧ kn ≠ 0 ∧ tag ≠ kn then Config.freeByte (tag * 2 ^ 32 + kn) key else memByte s.mem key

def State.readBytes (s : State) (kn key n : Nat) : List Byte := (List.range n).map (fun i => s.readByte kn (key + i))

/-- A little-endian number of `n` bytes. -/
def State.readNat (s : State) (kn key n : Nat) : Nat := ofBytes (s.readBytes kn key n)

/-- A number in a tile memory. -/
def State.tileNat (s : State) (t buf ofs n : Nat) : Nat := s.readNat 0 (tileKey t buf ofs) n

/-- The lines that `n` bytes from a place touch. -/
def linesOf (key n : Nat) : List Nat :=
  if n = 0 then [] else (List.range (lineOf (key + n - 1) - lineOf key + 1)).map (fun i => lineOf key + i)

/-- The name under which an aperture of a job stands in a read set (R32). -/
def aptLine (jid n : Nat) : Nat := 2 ^ 52 + jid * 16 + n

/-- The name under which a translation that a chunk has used stands in its read set (R39): context, log2 of the page, page. -/
def pageLine (ctx : Byte) (log page : Nat) : Nat := 2 ^ 60 + (ctx.toNat * 64 + log) * 2 ^ 48 + page

/-- Lines that a commit has written reach every chunk in flight: it will be squashed when it tries to commit if one of them
may be in its read set (R79). -/
def State.conflict (s : State) (lines : List Nat) : State :=
  { s with tiles := s.tiles.map (fun (t, x) => (t, { x with cores := x.cores.map (fun (k, c) =>
      (k, { c with chunk := c.chunk.map (fun h => { h with hit := lines.foldl setAdd h.hit }) })) })) }

/-- Whether a write committed since the chunk began may touch a line of its read set (R79): one of its lines has been
written, or the signatures, which hold memory lines and owner checks, report one that has not (R78). -/
def Chunk.met (h : Chunk) : Bool :=
  let sig := fun (ls : List Nat) => ls.filter (fun l => decide (l < 2 ^ 51))
  h.hit.any (fun l => h.rset.contains l) ||
    (!(sig h.hit).isEmpty && !(sig h.rset).isEmpty && Config.falseConflict (sig h.rset) (sig h.hit))

/-- Bytes of the memory word that an error mark stands for: 32 in HBM, 8 in a tile memory (R69). -/
def wordSize (key : Nat) : Nat := if isHbm key then 32 else 8

/-- Writes bytes and the number of the key they are under, and clears the error marks of the words that they overwrite whole: a
write of a part of a marked word leaves the rest of it bad, and the mark with it (R69). -/
def State.pokeBytes (s : State) (kn key : Nat) (bs : List Byte) : State :=
  { s with
    mem := smSetList 0 s.mem key bs
    keyTag := if isHbm key then smSetList 0 s.keyTag key (bs.map (fun _ => kn)) else s.keyTag
    poison := s.poison.filter (fun p => !(key ≤ p && p + wordSize p ≤ key + bs.length)) }

/-- The first word marked with an uncorrectable error among `n` bytes from a place on (R69). -/
def State.badWord (s : State) (key n : Nat) : Option Nat :=
  s.poison.find? (fun p => decide (p < key + n) && decide (key < p + wordSize key))

/-- Keeps the update for the bound of R88, the last ones within 4 µs, and for what waits on a word, which has yet to see it
(R181). -/
def State.noteUpdate (s : State) (t key n : Nat) : State :=
  let u : Upd := { at_ := s.cycle, t := t, key := key, old := s.readBytes 0 key n
                   tags := (List.range n).map (fun i => smGet 0 s.keyTag (key + i))
                   bad := s.poison.filter (fun p => decide (p < key + n) && decide (key < p + wordSize p)) }
  { s with
    updates := u :: (s.updates.take s.fresh ++ (s.updates.drop s.fresh).takeWhile (fun u => s.cycle ≤ u.at_ + 6400))
    fresh := s.fresh + 1 }

/-- Memory before updates, newest first. -/
def State.before (s : State) (us : List Upd) : State :=
  us.foldl (fun s u => { s with
    mem := smSetList 0 s.mem u.key u.old
    keyTag := if isHbm u.key then smSetList 0 s.keyTag u.key u.tags else s.keyTag
    poison := u.bad.foldl setAdd s.poison }) s

/-- Memory as it stood after each of the updates that what waits on a word has not seen and that touched n bytes from a place, the
oldest first. -/
def State.sights (s : State) (key n : Nat) : List State :=
  let us := s.updates.take s.fresh
  ((List.range us.length).filter (fun i => match us[i]? with
    | some u => decide (u.key < key + n) && decide (key < u.key + u.old.length)
    | none => false)).reverse.map (fun i => s.before (us.take i))

/-- Dirty tracking of a write to HBM by virtual function `vf` (R432): the bit is set by a commit placed before the write. A bitmap
word with an uncorrectable error is read into nothing: the read is a machine check of its own (R69, R404). -/
def State.track (s : State) (vf : Option Nat) (key : Nat) : State :=
  match vf with
  | none => s
  | some v =>
    let m := smGet Mig.init s.mig v
    if m.trk ∧ isHbm key then
      let bit := key / 2 ^ 16
      let at_ := hbmKey (m.dbase.toNat * 2 ^ 21 + bit / 8)
      let old := (s.readByte internalKey at_).toNat
      let new := old ||| 2 ^ (bit % 8)
      if (s.badWord at_ 1).isSome then s.logCheck 0 0xF1 (word at_)
      else if new = old then s
      else (s.pokeBytes internalKey at_ [BitVec.ofNat 8 new]).conflict [lineOf at_]
    else s

/-- One commit of bytes: tracked, noted, written, and met by every chunk that has read their lines (R79, R80). -/
def State.commitBytes (s : State) (t : Nat) (vf : Option Nat) (kn key : Nat) (bs : List Byte) : State :=
  if bs.isEmpty then s
  else
    ((((s.track vf key).track vf (key + bs.length - 1)).noteUpdate t key bs.length).pokeBytes kn key bs).conflict
      (linesOf key bs.length)

/-- A commit of a number's low `n` bytes in a tile memory. -/
def State.commitTile (s : State) (t buf ofs n x : Nat) : State :=
  s.commitBytes t none 0 (tileKey t buf ofs) (toBytes n x)

/-! ## Slabs (R50, R51) -/

/-- The owner bit O: false CORE, true ENGINE. -/
def Tile.slabEngine (x : Tile) (buf slab : Nat) : Bool :=
  if buf = 1 then !smGet false x.owner (256 + slab) else smGet false x.owner (buf * 256 + slab)

def Tile.setSlabEngine (x : Tile) (buf slab : Nat) (e : Bool) : Tile :=
  { x with owner := smPut x.owner (buf * 256 + slab) (if buf = 1 then !e else e) }

/-- The pending count P. -/
def Tile.slabP (x : Tile) (buf slab : Nat) : Nat := smGet 0 x.pcnt (buf * 256 + slab)

def Tile.addP (x : Tile) (slabs : List SlabId) : Tile :=
  { x with pcnt := slabs.foldl (fun m (b, n) => smPut m (b * 256 + n) (smGet 0 m (b * 256 + n) + 1)) x.pcnt }

def Tile.dropP (x : Tile) (slabs : List SlabId) : Tile :=
  { x with pcnt := slabs.foldl (fun m (b, n) => smPut m (b * 256 + n) (smGet 0 m (b * 256 + n) - 1)) x.pcnt }

/-- Flips slabs to the engines or to the cores; a chunk that checked their owner is met by the flip (R52, R79). -/
def State.flip (s : State) (t : Nat) (slabs : List SlabId) (e : Bool) : State :=
  let changed := slabs.filter (fun (b, n) => (s.tile t).slabEngine b n != e)
  (s.updTile t (fun x => changed.foldl (fun x (b, n) => x.setSlabEngine b n e) x)).conflict
    (changed.map (fun (b, n) => ownerLine t b n))

/-! ## Solo tokens (R83) -/

/-- The requests that hold a token: the oldest at each arbiter (R83). -/
def State.holders (s : State) : List SoloReq :=
  s.solo.filter (fun q => (s.solo.find? (fun r => r.row == q.row)) == some q)

/-- Whether a request stops a tile's commits: a package token stops all, a row token those of its row. A holder of a row token
whose chunk has left the row's scope stops all as well (DESIGN CHOICE, log entry 49: R83 is silent on a fifth attempt that
takes another path). -/
def State.stops (s : State) (q : SoloReq) (t : Nat) : Bool :=
  q.row.isNone || q.row == some (t / 16) || (s.core q.t q.k).chunk.any (·.pkg)

/-- Whether another chunk's solo token holds back the commits of core k of tile t: of two holders that stop each other, the
one that asked later (R83). -/
def State.soloBlocked (s : State) (t : Nat) (k : CoreK) : Bool :=
  let hs := s.holders
  let before := if hs.any (fun q => q.t == t && q.k == k) then hs.takeWhile (fun q => !(q.t == t && q.k == k)) else hs
  before.any (fun q => !(q.t == t && q.k == k) && s.stops q t)

/-- Whether anything that is no chunk is held back from committing at package scope (R83). -/
def State.soloPackage (s : State) : Bool := s.holders.any (fun q => q.row.isNone || (s.core q.t q.k).chunk.any (·.pkg))

/-- Whether a token holds back what is no chunk from committing in a tile's LM, its row's scope (R83). -/
def State.soloTile (s : State) (t : Nat) : Bool := s.holders.any (fun q => s.stops q t)

/-- The slabs that stalled TAKEs of a tile wait for flip to the cores when their P reaches 0 (R51); the flips that a solo
token holds back are made as the TAKE is issued again (R83). -/
def State.takeFlips (s : State) (t : Nat) : State :=
  let x := s.tile t
  s.flip t ((CoreK.all.flatMap (fun k => if s.soloBlocked t k then [] else (x.core k).taking)).filter
    (fun (b, n) => x.slabP b n == 0)) false

/-- P falls by one on each slab of a list. -/
def State.letGo (s : State) (t : Nat) (slabs : List SlabId) : State := (s.updTile t (fun x => x.dropP slabs)).takeFlips t

/-- The slabs that `n` bytes from an offset of a buffer cover; a range of length zero names none (R49). -/
def slabsOf (buf ofs n : Nat) : List SlabId :=
  if n = 0 ∨ buf > 2 then []
  else (List.range ((ofs + n - 1) / 4096 - ofs / 4096 + 1)).map (fun i => (buf, ofs / 4096 + i))

/-! ## The register window and its parts (R237) -/

/-- Physical register of window register mk. -/
def Regs.physOf (r : Regs) (k : Nat) : Nat := (r.base + k) % 192

def Regs.m (r : Regs) (k : Nat) : Word := smGet 0 r.phys (r.physOf k)

def Regs.setM (r : Regs) (k : Nat) (v : Word) : Regs := { r with phys := smPut r.phys (r.physOf k) v }

/-- The predicate pk; p0 is true (R202). -/
def Regs.pred (r : Regs) (k : Nat) : Bool := k == 0 || r.preds.getLsbD k

/-- A write to p0 is discarded (R200). -/
def Regs.setPred (r : Regs) (k : Nat) (b : Bool) : Regs :=
  if k = 0 then r
  else { r with preds := if b then r.preds ||| BitVec.ofNat 8 (2 ^ k) else r.preds &&& ~~~(BitVec.ofNat 8 (2 ^ k)) }

/-! ## Fault codes and the fault record (R388, R41) -/

namespace Code
def illegalOpc : Byte := 0x01
def reservedField : Byte := 0x02
def wrongCore : Byte := 0x03
def operandOverlap : Byte := 0x04
def badTarget : Byte := 0x05
def delayBranch : Byte := 0x06
def fetchParity : Byte := 0x07
def privilege : Byte := 0x08
def pageFault : Byte := 0x10
def protection : Byte := 0x11
def misaligned : Byte := 0x12
def foreignLocal : Byte := 0x13
def spaceClosed : Byte := 0x14
def slabOwner : Byte := 0x15
def keySlot : Byte := 0x16
def windowSpill : Byte := 0x20
def windowFill : Byte := 0x21
def returnSpill : Byte := 0x22
def returnFill : Byte := 0x23
def overflowExhausted : Byte := 0x24
def semOverflow : Byte := 0x30
def tagFaulted : Byte := 0x31
def streamUnbound : Byte := 0x32
def accOwner : Byte := 0x40
def matrixMismatch : Byte := 0x41
def gangTimeout : Byte := 0x42
def correlation : Byte := 0x50
def streamLength : Byte := 0x51
def busMiscount : Byte := 0x60
def busRoster : Byte := 0x61
def busSecure : Byte := 0x62
def busEpoch : Byte := 0x63
def arith : Byte := 0x70
def preemptForced : Byte := 0x80
def tickSlip : Byte := 0x81
def gangSlip : Byte := 0x82
def cancel : Byte := 0x83
end Code

/-- CFDW (R41); CAUSE holds 63 for a larger number (R204). -/
def mkCfdw (code : Byte) (kind space issuer cause : Nat) : BitVec 32 :=
  BitVec.ofNat 32 (code.toNat * 2 ^ 24 + kind % 16 * 2 ^ 20 + space % 16 * 2 ^ 16 + issuer % 1024 * 64 +
    Nat.min cause 63)

/-- A fault's record. -/
def mkTrap (code : Byte) (cfad : Word) (kind space issuer cause : Nat) : TrapInfo :=
  { code := code, cfad := cfad, cfdw := mkCfdw code kind space issuer cause, aux := 0 }

/-- The place of a fault in the order of R40; a machine check comes last. -/
def TrapInfo.rank (t : TrapInfo) : Nat :=
  let cause := t.cfdw.toNat % 64
  if t.code = Code.spaceClosed then 1
  else if t.code = Code.protection then (if 5 ≤ cause ∧ cause ≤ 7 then 2 else 6)
  else if t.code = Code.foreignLocal then 3
  else if t.code = Code.misaligned then 4
  else if t.code = Code.pageFault then 5
  else if t.code = Code.keySlot then 7
  else if t.code = Code.slabOwner then 8
  else 9

/-- A fault with no address of its own, met by the acting core: CFAD holds the instruction's IP, KIND 0, SPACE 15. -/
def State.ipTrap (s : State) (code : Byte) (cause : Nat) : TrapInfo :=
  mkTrap code s.me.regs.ip 0 15 s.curTile cause

/-- RESERVED_FIELD: the full bit number stands in CFAD bits 62:56 (R204). -/
def State.reservedTrap (s : State) (bit : Nat) : TrapInfo :=
  mkTrap Code.reservedField (s.me.regs.ip ||| word (bit * 2 ^ 56)) 0 15 s.curTile bit

/-- Ends an instruction in a trap. -/
def throwTrap {α : Type} (i : TrapInfo) : Exec α := fun _ => .error (.trap i)

/-- `fault(CODE)` of R9 for a fault with no address of its own. -/
def faultIp {α : Type} (code : Byte) (cause : Nat) : Exec α := fun s => .error (.trap (s.ipTrap code cause))

/-- Leaves an instruction unfinished: it is issued again in a later turn, after what the stall does. -/
def stallWith {α : Type} (f : State → State) : Exec α := fun _ => .error (.stall f)

/-- A stall that is one of the waits of R390: a request stops the core in it at once. -/
def stallWait {α : Type} : Exec α := stallWith (fun s => s.setMe { s.me with stalled := true })

/-- Closes the acting core's chunk: it is next to commit. -/
def State.closeChunk (s : State) : State :=
  s.setMe { s.me with chunk := s.me.chunk.map (fun h => { h with closed := true }) }

/-- A chunk boundary stands before this instruction: an earlier part of the chunk commits first (R75). -/
def needEmpty : Exec Unit := fun s =>
  match s.me.chunk with
  | some h => if 0 < h.len then .error (.stall State.closeChunk) else .ok ((), s)
  | none => .ok ((), s)

/-- The state as the effect sees it. -/
def getState : Exec State := fun s => .ok (s, s)

/-- Changes the state. -/
def modState (f : State → State) : Exec Unit := fun s => .ok ((), f s)

/-! ## Registers of the acting core -/

def getRegs : Exec Regs := fun s => .ok (s.me.regs, s)

def modRegs (f : Regs → Regs) : Exec Unit := fun s => .ok ((), s.setMe { s.me with regs := f s.me.regs })

/-- Changes the acting core's chunk; a core whose effect runs has one. -/
def modChunk (f : Chunk → Chunk) : Exec Unit :=
  fun s => .ok ((), s.setMe { s.me with chunk := s.me.chunk.map f })

/-- Puts an action at the end of those the acting core's chunk does at its commit, and closes the chunk after it. -/
def atCommit (a : Act) : Exec Unit := modChunk (fun h => { h with acts := h.acts ++ [a] })

/-! ## Taking a trap and returning from one (R383 to R386) -/

/-- First byte of the tail in LM (R56). -/
def Tile.tailOfs (x : Tile) : Nat := x.csavt.toNat * 4096

/-- Offset of a core's scalar area in the tail (R57). -/
def areaOfs (k : CoreK) : Nat :=
  match k with
  | .c => 0x0000
  | .m => 0x0800
  | .x => 0x1000
  | .s => 0x1800
  | .v => 0x2000

/-- Place of a core's scalar area. -/
def State.areaKey (s : State) (t : Nat) (k : CoreK) : Nat := tileKey t 0 ((s.tile t).tailOfs + areaOfs k)

/-- CTRAP as a register (R380). -/
def Regs.ctrap (r : Regs) : Word :=
  word (r.priv.toNat * 2 ^ 63 + r.dbl.toNat * 2 ^ 62 + r.bd.toNat * 2 ^ 61 + r.code.toNat * 2 ^ 48 +
    r.hen.toNat * 2 ^ 45 + r.hvec.toNat * 2 ^ 32)

/-- The words of the trap frame (R384): 20 of 8 bytes. -/
def Regs.frame (r : Regs) (aux : Word) : List Word :=
  [word r.ctpc.toNat, word r.ctnpc.toNat, r.ctrap, r.cfad, word r.cfdw.toNat, aux, r.prv,
    word (r.preds ||| 1).toNat] ++ (List.range 8).map (fun i => smGet 0 r.o i) ++
  (List.range 4).map (fun i => r.m (20 + i))

/-- Writes words as single-access commits of 64-byte pieces. -/
def State.commitWords (s : State) (t key : Nat) (ws : List Word) : State :=
  (List.range (ceilDiv ws.length 8)).foldl
    (fun s i => s.commitBytes t none 0 (key + 64 * i) (((ws.drop (8 * i)).take 8).flatMap (fun w => toBytes 8 w.toNat)))
    s

/-- A notice is dropped while no handler is enabled (R383, R386). -/
def isNotice (code : Byte) : Bool :=
  code == Code.windowSpill || code == Code.windowFill || code == Code.returnSpill || code == Code.returnFill

/-- Marks every core of a launch to stop at its next boundary, and the launch cancelled with a cause (R189, R386). -/
def State.cancelLaunch (s : State) (l cause : Nat) : State :=
  match s.launch? l with
  | none => s
  | some x =>
    if x.state > 1 then s
    else
      let s := s.setLaunch { x with cancelled := true, cause := if x.cancelled then x.cause else cause }
      x.tiles.foldl (fun s t =>
        if (s.tile t).watch.any (fun w => w.launch == l) then
          s.updTile t (fun y => { y with cores := y.cores.map (fun (k, c) =>
            (k, { c with cancelled := c.run != .off || c.cancelled })) })
        else s) s

/-- The launch of the watch on a tile. -/
def State.launchOn (s : State) (t : Nat) : Option Nat := (s.tile t).watch.map (fun w => w.launch)

/-- A BENROL or BLEAVE of a tile that has not ended is withdrawn: it runs again as if new (R340, R341, R390). -/
def State.leavePorts (s : State) (t : Nat) : State :=
  [false, true].foldl (fun s p =>
    let x := s.port p
    s.setPort p { x with enrol := x.enrol.filter (fun (u, _, _) => u != t), leaving := x.leaving.filter (fun (u, _) => u != t) }) s

/-- A core withdraws from a join that is not complete (R316), from a BENROL or BLEAVE, and from a TICKWAIT. -/
def State.leaveJoin (s : State) (t : Nat) (k : CoreK) : State :=
  let s := if k = .c then s.leavePorts t else s
  s.updCore t k (fun c => { c with ready := false, join := none })

/-- Enters a trap on core k of tile t, whose chunk has committed up to it (R383): the saved registers, the frame in the
tail, then the handler at HVEC; or, with no handler to enter, a dropped notice or a stopped core (R386). `held` is the
pending transfer of a trapped delay slot, whose rest CTNPC does not hold. -/
def State.takeTrap (s : State) (t : Nat) (k : CoreK) (i : TrapInfo) (ctpc ctnpc : BitVec 19) (bd : Bool)
    (held : Option Slot) : State :=
  let r := (s.core t k).regs
  if !r.priv ∧ !r.hen ∧ isNotice i.code then s
  else
    let s := s.leaveJoin t k
    let c := s.core t k
    let r1 : Regs := { r with ctpc := ctpc, ctnpc := ctnpc, bd := bd, held := held, code := i.code, cfad := i.cfad,
                              cfdw := i.cfdw, slot := none, mid := none }
    let s1 := (s.setCore t k { c with regs := r1, chunk := none, waiting := none, granted := false, stalled := false, ext := none, walks := [], taking := [] })
    let s2 := s1.commitWords t (s1.areaKey t k) (r1.frame i.aux)
    if r.priv ∨ !r.hen then
      let s3 := s2.updCore t k (fun c => { c with run := .halted, regs := { c.regs with dbl := r.priv } })
      match s3.launchOn t with
      | some l => s3.cancelLaunch l i.code.toNat
      | none => s3
    else s2.updCore t k (fun c => { c with regs := { c.regs with priv := true, ip := word (r.hvec.toNat * 64) } })

/-- What TRAPRET restores from the 112 bytes at frame offsets 0x30 to 0x9F, and the mode (R385). -/
def Regs.restoreFrame (r : Regs) (ws : List Word) : Regs :=
  let g := fun i => ws.getD i 0
  let r := { r with prv := g 0, preds := BitVec.ofNat 8 (g 1).toNat ||| 1,
                    o := smPutList r.o 0 ((List.range 8).map (fun i => g (2 + i))) }
  (List.range 4).foldl (fun r i => r.setM (20 + i) (g (10 + i))) r

/-- Where execution goes on after TRAPRET: at CTPC, as a delay slot with CTNPC behind it when BD is set (R356, R385). -/
def Regs.trapReturn (r : Regs) : Regs :=
  { r with priv := false, ip := word r.ctpc.toNat, held := none,
           slot := if r.bd then some { target := word r.ctnpc.toNat, act := (r.held.map (·.act)).getD .plain,
                                       notice := r.held.bind (·.notice) } else none }

end Sys2Proof.Machine
end

