-- ==== Sys2Proof/Machine/Flags.lean ====
section
/-!
DEFINITION. CFLAG's bits and their merge (R133), and ROWFLAG (R134).
Log entries (notes/assumptions): 56 DEDUCED.
-/
namespace Sys2Proof.Machine

/-! Flags, as the numbers their bits have in CFLAG bits 5:0 (R133). -/

def fINV : Nat := 1
def fDZ : Nat := 2
def fOVF : Nat := 4
def fUNF : Nat := 8
def fINX : Nat := 16
def fSAT : Nat := 32

/-- A flag when a condition holds. -/
def flagIf (b : Bool) (f : Nat) : Nat := if b then f else 0

/-- Sticky merge of flags into CFLAG (R133). -/
def Regs.addFlags (r : Regs) (f : Nat) : Regs := { r with cflag := r.cflag ||| word (f % 64) }

/-- CFLAG's trap condition: a sticky flag whose trap enable is set (R133). -/
def Regs.arithTrap (r : Regs) : Bool := Word.bits r.cflag 0 6 &&& Word.bits r.cflag 8 6 != 0

/-- ORs flags into the acting core's CFLAG. -/
def addFlags (f : Nat) : Exec Unit := modRegs (fun r => r.addFlags f)

/-- The committed CFLAG of a core: a chunk in flight has not left its flags yet (R134). -/
def Core.committedFlags (c : Core) : Word :=
  match c.chunk with
  | some h => h.ck.cflag
  | none => c.regs.cflag

/-- ROWFLAG as tile t's cores read it: the row-wide OR of committed flags (R134). -/
def State.rowFlag (s : State) (t : Nat) : Word :=
  let row := t / 16 * 16
  ((List.range 16).flatMap (fun i => CoreK.all.map (fun k => (s.core (row + i) k).committedFlags))).foldl
    (fun a b => a ||| b) 0 &&& 0x3F

end Sys2Proof.Machine
end

