-- ==== Sys2Proof/Machine/Formats.lean ====
section
/-!
DEFINITION. The number formats and exact arithmetic of R115 to R139: decoding to exact values, rounding, the conversion
table, the block formats, stochastic draws and the special functions.
Log entries (notes/assumptions): 33 DEDUCED, 37 DESIGN CHOICE, 38 DEDUCED, 58 DEDUCED, 64 DESIGN CHOICE.
-/
namespace Sys2Proof.Machine

/-- An exact value: a NaN with its sign and whether it signals, an infinity, or ±num/den with den > 0. -/
inductive FV where
  | nan (neg sig : Bool)
  | inf (neg : Bool)
  | fin (neg : Bool) (num den : Nat)
deriving DecidableEq, Repr

/-- How one rounding is done: the mode of R127 (0 RNE, 1 RTZ, 2 RUP, 3 RDN, 4 RNA, 5 SR) and the draw r of R129. -/
structure Rnd where
  mode : Nat
  r : Nat
deriving DecidableEq, Repr

/-- Round to nearest even. -/
def rne : Rnd := { mode := 0, r := 0 }

/-- `crand32` of R129. -/
def crand32 (key : Nat) (n : Word) : Nat :=
  let x : Word := n + word key * 0x9E3779B97F4A7C15
  let x := (x ^^^ (x >>> 30)) * 0xBF58476D1CE4E5B9
  let x := (x ^^^ (x >>> 27)) * 0x94D049BB133111EB
  let x := x ^^^ (x >>> 31)
  Word.bits x 32 32

/-- The rounding that a core's CRND and CSRN give at lane position `i` (R127, R129). -/
def Regs.rnd (r : Regs) (i : Nat) : Rnd :=
  { mode := Word.bits r.crnd 0 3, r := crand32 (Word.bits r.crnd 32 32) (r.csrn + word i) / 2 ^ 16 }

/-- The registers after a drawing instruction that takes `n` counter values: only SR draws and advances CSRN (R129, R281). -/
def Regs.drawn (r : Regs) (n : Nat) : Regs := if Word.bits r.crnd 0 3 = 5 then { r with csrn := r.csrn + word n } else r

/-! ## Exact arithmetic -/

/-- num/den scaled by 2^e. -/
def scale2 (num den : Nat) (e : Int) : Nat × Nat :=
  if 0 ≤ e then (num * 2 ^ e.toNat, den) else (num, den * 2 ^ (-e).toNat)

/-- A finite value ±m·2^e. -/
def FV.dyadic (neg : Bool) (m : Nat) (e : Int) : FV :=
  let (n, d) := scale2 m 1 e
  .fin neg n d

/-- An integer as an exact value. -/
def FV.ofInt (x : Int) : FV := .fin (decide (x < 0)) x.natAbs 1

/-- The signed numerator of a finite value. -/
def sgn (neg : Bool) (n : Nat) : Int := if neg then -(n : Int) else n

def FV.isNan : FV → Bool
  | .nan _ _ => true
  | _ => false

def FV.isSig : FV → Bool
  | .nan _ g => g
  | _ => false

def FV.isFin : FV → Bool
  | .fin _ _ _ => true
  | _ => false

def FV.isZero : FV → Bool
  | .fin _ n _ => n == 0
  | _ => false

def FV.neg : FV → Bool
  | .nan s _ => s
  | .inf s => s
  | .fin s _ _ => s

def FV.negate : FV → FV
  | .nan s g => .nan s g
  | .inf s => .inf (!s)
  | .fin s n d => .fin (!s) n d

/-- The NaN of R117 for an operation with NaN operands: the sign of the first, quiet; INV when one signals. -/
def nanOf (xs : List FV) : Option (FV × Nat) :=
  match xs.find? (fun x => x.isNan) with
  | some x => some (.nan x.neg false, flagIf (xs.any (fun x => x.isSig)) fINV)
  | none => none

/-- An invalid operation on operands that hold no NaN (R117, R133). -/
def invalid : FV × Nat := (.nan false false, fINV)

/-- The exact product, with its flags. -/
def fvMul (a b : FV) : FV × Nat :=
  match nanOf [a, b] with
  | some r => r
  | none => match a, b with
    | .fin s n d, .fin s' n' d' => (.fin (s != s') (n * n') (d * d'), 0)
    | x, y => if x.isZero || y.isZero then invalid else (.inf (x.neg != y.neg), 0)

/-- The exact sum, with its flags. `mode` tells the sign of an exact zero apart. −0 is the identity of sums, so +0 and −0 give
+0 (R137). -/
def fvAdd (mode : Nat) (a b : FV) : FV × Nat :=
  match nanOf [a, b] with
  | some r => r
  | none => match a, b with
    | .fin s n d, .fin s' n' d' =>
      let x := sgn s (n * d') + sgn s' (n' * d)
      if x = 0 then (.fin (if n = 0 ∧ n' = 0 then s && s' else Config.zeroSign mode n n') 0 1, 0)
      else (.fin (decide (x < 0)) x.natAbs (d * d'), 0)
    | .inf s, .inf s' => if s = s' then (.inf s, 0) else invalid
    | .inf s, _ => (.inf s, 0)
    | _, y => (.inf y.neg, 0)

/-- The exact quotient of R287, with its flags. -/
def fvDiv (a b : FV) : FV × Nat :=
  match nanOf [a, b] with
  | some r => r
  | none => match a, b with
    | .fin s n d, .fin s' n' d' =>
      if n' = 0 then (if n = 0 then invalid else (.inf (s != s'), fDZ))
      else (.fin (s != s') (n * d') (d * n'), 0)
    | .inf s, .fin s' _ _ => (.inf (s != s'), 0)
    | .fin s _ _, .inf s' => (.fin (s != s') 0 1, 0)
    | _, _ => invalid

/-- a × b + c with no rounding between (R285). -/
def fvFma (mode : Nat) (a b c : FV) : FV × Nat :=
  let bad := (a.isZero && (b matches .inf _)) || ((a matches .inf _) && b.isZero)
  match nanOf [a, b, c] with
  | some (v, f) => (v, f ||| flagIf bad fINV)
  | none =>
    if bad then invalid
    else fvAdd mode (fvMul a b).1 c

/-- a < b on values that hold no NaN, with −0 equal to +0. -/
def fvLt : FV → FV → Bool
  | .fin s n d, .fin s' n' d' => decide (sgn s n * d' < sgn s' n' * d)
  | .inf s, .inf s' => s && !s'
  | .inf s, _ => s
  | _, .inf s' => !s'
  | _, _ => false

/-- a = b, with −0 equal to +0; false for a NaN. -/
def fvEq (a b : FV) : Bool := !a.isNan && !b.isNan && !fvLt a b && !fvLt b a

/-- a below b in the order in which −0 stands below +0 (R286, R292); a NaN stands below every number. -/
def fvBelow (a b : FV) : Bool :=
  if a.isNan then !b.isNan
  else if b.isNan then false
  else fvLt a b || (fvEq a b && a.neg && !b.neg)

/-- floor(log2 (num/den)) for positive num and den. -/
def ilog2 (num den : Nat) : Int :=
  let a : Int := (Nat.log2 num : Int) - Nat.log2 den
  let (n, d) := scale2 num den (-a)
  if d ≤ n then a else a - 1

/-! ## Rounding (R128, R129) -/

/-- Rounds the magnitude num/den, of a value whose sign is `neg`, to a whole number of units 2^k: the number of units,
and whether the value was not one. -/
def roundGrid (rd : Rnd) (neg : Bool) (num den : Nat) (k : Int) : Nat × Bool :=
  let (n, d) := scale2 num den (-k)
  let q := n / d
  let m := n % d
  if m = 0 then (q, false)
  else
    let up := match rd.mode with
      | 0 => decide (d < 2 * m) || (2 * m == d && q % 2 == 1)
      | 1 => false
      | 2 => !neg
      | 3 => neg
      | 4 => decide (d ≤ 2 * m)
      | _ => if neg then !decide (rd.r < 2 ^ 16 * (d - m) / d) else decide (rd.r < 2 ^ 16 * m / d)
    (if up then q + 1 else q, true)

/-- A float format: exponent and fraction bits, bias, and whether its codes hold no infinity (R116, R118, R119). -/
structure FFmt where
  eb : Nat
  fb : Nat
  bias : Nat
  noInf : Bool
deriving DecidableEq, Repr

/-- The float formats by their code of R300. -/
def ffmt : Nat → FFmt
  | 0 => ⟨8, 23, 127, false⟩
  | 1 => ⟨5, 10, 15, false⟩
  | 2 => ⟨8, 7, 127, false⟩
  | 3 => ⟨5, 2, 15, false⟩
  | _ => ⟨4, 3, 7, true⟩

def FFmt.width (f : FFmt) : Nat := f.eb + f.fb + 1

/-- The greatest finite code, sign clear. -/
def FFmt.maxCode (f : FFmt) : Nat :=
  if f.noInf then 2 ^ (f.eb + f.fb) - 2 else (2 ^ f.eb - 1) * 2 ^ f.fb - 1

def FFmt.signed (f : FFmt) (neg : Bool) (code : Nat) : Nat := if neg then code + 2 ^ (f.eb + f.fb) else code

/-- The canonical NaN with a sign (R117). -/
def FFmt.nanCode (f : FFmt) (neg : Bool) : Nat :=
  f.signed neg (if f.noInf then 2 ^ (f.eb + f.fb) - 1 else (2 ^ f.eb - 1) * 2 ^ f.fb + 2 ^ (f.fb - 1))

/-- ±∞; E4M3 has the NaN of that sign in its place (R119, R128). -/
def FFmt.infCode (f : FFmt) (neg : Bool) : Nat :=
  if f.noInf then f.nanCode neg else f.signed neg ((2 ^ f.eb - 1) * 2 ^ f.fb)

/-- The exact value of a code (R116, R118, R119). E5M2 and E4M3 NaNs are quiet (R117). -/
def FFmt.decode (f : FFmt) (code : Nat) : FV :=
  let e := bitsAt code f.fb f.eb
  let m := code % 2 ^ f.fb
  let neg := code / 2 ^ (f.eb + f.fb) % 2 == 1
  if e = 2 ^ f.eb - 1 ∧ (!f.noInf ∨ m = 2 ^ f.fb - 1) then
    if m = 0 then .inf neg else .nan neg (decide (f.fb > 3 ∧ m / 2 ^ (f.fb - 1) = 0))
  else if e = 0 then .dyadic neg m (1 - (f.bias : Int) - f.fb)
  else .dyadic neg (2 ^ f.fb + m) ((e : Int) - f.bias - f.fb)

/-- Rounds a finite value to a float format (R128): code and flags. With `sat`, a rounding beyond the range gives the
greatest finite value (R131). -/
def FFmt.roundFin (f : FFmt) (rd : Rnd) (sat : Bool) (neg : Bool) (num den : Nat) : Nat × Nat :=
  if num = 0 then (f.signed neg 0, 0)
  else
    let emin : Int := 1 - (f.bias : Int)
    let e := ilog2 num den
    let k : Int := (if e < emin then emin else e) - f.fb
    let (q, inx) := roundGrid rd neg num den k
    let field := (k + f.fb + f.bias).toNat
    let code := field * 2 ^ f.fb + q - 2 ^ f.fb
    if f.maxCode < code then
      if sat then (f.signed neg f.maxCode, fSAT ||| fINX)
      else
        let toMax := match rd.mode with
          | 1 => true
          | 2 => neg
          | 3 => !neg
          | _ => false
        (if toMax then f.signed neg f.maxCode else f.infCode neg, fOVF ||| fINX)
    else (f.signed neg code, flagIf inx fINX ||| flagIf (inx && decide (q < 2 ^ f.fb)) fUNF)

/-- Rounds the exact result of an arithmetic operation to a float format (R285): an exact infinity stays one. -/
def FFmt.round (f : FFmt) (rd : Rnd) (sat : Bool) (v : FV) : Nat × Nat :=
  match v with
  | .nan neg _ => (f.nanCode neg, 0)
  | .inf neg => (f.infCode neg, 0)
  | .fin neg n d => f.roundFin rd sat neg n d

/-! ## The conversion table (R131) -/

/-- Signedness and width of the integer formats by their code of R300. -/
def ifmt : Nat → Bool × Nat
  | 7 => (true, 8)
  | 8 => (false, 8)
  | 9 => (true, 16)
  | 10 => (false, 16)
  | 11 => (true, 32)
  | 12 => (false, 32)
  | 13 => (true, 64)
  | _ => (false, 64)

/-- Least and greatest value of an integer type. -/
def intRange (sg : Bool) (w : Nat) : Int × Int :=
  if sg then (-(2 ^ (w - 1) : Nat), (2 ^ (w - 1) : Nat) - 1) else (0, (2 ^ w : Nat) - 1)

/-- Conversion to an integer type: the value written, and the flags. `fromInt` names an integer source. An infinity is no
integer, so it sets INX too (R131). -/
def toIntFmt (rd : Rnd) (sat fromInt : Bool) (sg : Bool) (w : Nat) (v : FV) : Int × Nat :=
  let (lo, hi) := intRange sg w
  match v with
  | .nan _ _ => (0, fINV)
  | .inf neg => (if neg then lo else hi, (if sat then fSAT else fINV) ||| fINX)
  | .fin neg n d =>
    let (q, inx) := roundGrid rd neg n d 0
    let y := sgn neg q
    if lo ≤ y ∧ y ≤ hi then (y, flagIf inx fINX)
    else if fromInt then
      if sat then (clampI lo hi y, fSAT) else ((if sg then signedOf w (y % 2 ^ w).toNat else y % 2 ^ w), 0)
    else (clampI lo hi y, (if sat then fSAT else fINV) ||| flagIf inx fINX)

/-- The value of an H4 code (R120). -/
def h4Value (n : Nat) : FV := let m := 2 * signedOf 4 n + 1; .fin (decide (m < 0)) m.natAbs 2

/-- RNE and RNA ties of an H4 element go to the even code (R131, R132). -/
def Rnd.h4 (rd : Rnd) : Rnd := if rd.mode = 4 then { rd with mode := 0 } else rd

/-- The code n = round(x − ½), unclamped, and whether x ≠ n + ½. -/
def h4Round (rd : Rnd) (neg : Bool) (n d : Nat) : Int × Bool :=
  let y := 2 * sgn neg n - d
  let (q, inx) := roundGrid rd.h4 (decide (y < 0)) y.natAbs (2 * d) 0
  (sgn (decide (y < 0)) q, inx)

/-- Conversion to H4: code and flags (R131). -/
def toH4 (rd : Rnd) (v : FV) : Nat × Nat :=
  match v with
  | .nan _ _ => (0, fINV)
  | .inf neg => (if neg then 8 else 7, fSAT)
  | .fin neg n d =>
    if 15 * d < 2 * n then (if neg then 8 else 7, fSAT)
    else
      let (q, inx) := h4Round rd neg n d
      ((q % 16).toNat, flagIf inx fINX)

/-- |x − y| for finite values, as a fraction. -/
def fvDist : FV → FV → Nat × Nat
  | .fin s n d, .fin s' n' d' => ((sgn s (n * d') - sgn s' (n' * d)).natAbs, d * d')
  | _, _ => (0, 1)

/-- The lowest index of an entry that no other entry beats; none if no entry takes part. -/
def bestIdx (better : FV → FV → Bool) (es : List (Nat × FV)) : Option (Nat × FV) :=
  es.foldl (fun a e => match a with
    | none => some e
    | some b => if better e.2 b.2 then some e else some b) none

/-- Conversion to C4 with the entries of a codebook slot (R131): index and flags. -/
def toC4 (entries : List FV) (v : FV) : Nat × Nat :=
  let es := entries.zipIdx.map (fun (e, i) => (i, e))
  let good := es.filter (fun e => !e.2.isNan)
  match v with
  | .nan _ _ => match es.find? (fun e => e.2.isNan) with
    | some e => (e.1, 0)
    | none => (0, fINV)
  | .inf neg =>
    if good.isEmpty then (0, fINV)
    else match good.find? (fun e => e.2 == .inf neg) with
      | some e => (e.1, 0)
      | none => match bestIdx (fun a b => if neg then fvLt a b else fvLt b a) good with
        | some e => (e.1, fSAT)
        | none => (0, fINV)
  | x =>
    let closer := fun a b => match a, b with
      | .fin _ _ _, .fin _ _ _ =>
        let (n, d) := fvDist x a
        let (n', d') := fvDist x b
        decide (n * d' < n' * d)
      | .fin _ _ _, _ => true
      | _, _ => false
    match bestIdx closer good with
    | some e => (e.1, flagIf (!fvEq x e.2) fINX)
    | none => (0, fINV)

/-- The conversion table of R131: the bits of the destination format (codes of R300), and the flags. With saturation ±∞ is
clamped and sets SAT, to its own format too, where R301 says that the value is returned exactly (DESIGN CHOICE, log entry 33:
R131's row is taken). -/
def convertTo (dst : Nat) (rd : Rnd) (sat fromInt : Bool) (entries : List FV) (v : FV) : Nat × Nat :=
  if dst < 5 then
    let f := ffmt dst
    match v with
    | .nan neg sig => (f.nanCode neg, flagIf sig fINV)
    | .inf neg =>
      if sat then (f.signed neg f.maxCode, fSAT) else (f.infCode neg, flagIf f.noInf fINV)
    | .fin neg n d => f.roundFin rd sat neg n d
  else if dst = 5 then toH4 rd v
  else if dst = 6 then toC4 entries v
  else
    let (sg, w) := ifmt dst
    let (y, f) := toIntFmt rd sat fromInt sg w v
    ((y % 2 ^ w).toNat, f)

/-- Width in bits of a format of R300. -/
def cvtWidth (c : Nat) : Nat :=
  if c < 5 then (ffmt c).width else if c < 7 then 4 else (ifmt c).2

/-- The exact value of the bits of a format of R300, with the entries of the slot for C4. -/
def decodeFrom (src : Nat) (entries : List FV) (bits : Nat) : FV :=
  if src < 5 then (ffmt src).decode bits
  else if src = 5 then h4Value bits
  else if src = 6 then entries.getD (bits % 16) (.fin false 0 1)
  else
    let (sg, w) := ifmt src
    FV.ofInt (if sg then signedOf w bits else (bits % 2 ^ w : Nat))

/-- Conversion between formats of R300. A C4 product of its own is exact here: only block-scaled C4 rounds by RNE. -/
def convertBits (src dst : Nat) (rd : Rnd) (sat : Bool) (entries : List FV) (bits : Nat) : Nat × Nat :=
  convertTo dst rd sat (decide (6 < src)) entries (decodeFrom src entries bits)

/-- A result of a format as a register or lane of `w` bits holds it: sign extension for the signed integers, zero
extension for everything else (R282, R300). -/
def extendTo (w dst bits : Nat) : Nat :=
  if 6 < dst ∧ (ifmt dst).1 then (signedOf (ifmt dst).2 bits % 2 ^ w).toNat else bits % 2 ^ w

/-- Whether a conversion draws (R129): every destination but C4 from any source, except integer to integer. -/
def cvtDraws (src dst : Nat) : Bool := dst != 6 && !(decide (6 < src) && decide (6 < dst))

/-- The entries of a codebook slot of a tile, as exact values (R63). -/
def Tile.codebook (x : Tile) (slot : Nat) : List FV :=
  (List.range 16).map (fun k => (ffmt 2).decode (smGet 0 x.cb (16 * slot + k)).toNat)

/-! ## Block-scaled formats (R122, R126, R132) -/

/-- An exact value, or the infinity of its sign when it lies beyond FP32 range (R126). -/
def capFp32 (v : FV) : FV :=
  match v with
  | .fin neg n d => if 2 ^ 128 * d ≤ n then .inf neg else v
  | v => v

/-- The exact value of an element of a block format: 0 BM8, 1 BM4, 2 H4S, 3 C4S (R122). -/
def blockValue (fmt : Nat) (entries : List FV) (x code : Nat) : FV :=
  if x = 0xFF then .nan false false
  else match fmt with
    | 0 => let m := signedOf 8 code; capFp32 (.dyadic (decide (m < 0)) m.natAbs ((x : Int) - 133))
    | 1 => let m := signedOf 4 code; capFp32 (.dyadic (decide (m < 0)) m.natAbs ((x : Int) - 129))
    | 2 =>
      let m := 2 * signedOf 4 code + 1
      capFp32 (.dyadic (decide (m < 0)) m.natAbs ((x : Int) - 129))
    | _ => match entries.getD (code % 16) (.fin false 0 1) with
      | .fin neg n d => let (n, d) := scale2 n d ((x : Int) - 127); .fin neg n d
      | v => v

/-- The FP32 exponent field of a value; 0 for zero, subnormal and non-finite values. -/
def fp32Field : FV → Nat
  | .fin _ n d => if n = 0 then 0 else (ilog2 n d + 127).toNat
  | _ => 0

/-- The exponent byte of a block to be encoded, and its NaN mark as none (R132). -/
def blockExp (fmt : Nat) (entries : List FV) (xs : List FV) : Option Nat :=
  if xs.any (fun x => !x.isFin) then none
  else
    let emax := Nat.max 1 (xs.foldl (fun m x => Nat.max m (fp32Field x)) 0)
    match fmt with
    | 0 | 1 => some emax
    | 2 => some (emax - 1)
    | _ =>
      let big := bestIdx (fun a b => match a, b with
        | .fin _ n d, .fin _ n' d' => decide (n' * d < n * d')
        | _, _ => false) ((entries.filter (fun e => e.isFin && !e.isZero)).map (fun e => (0, e)))
      match big with
      | none => some 127
      | some e => some ((127 + emax) - fp32Field e.2 |> Nat.min 254)

/-- One element of a block of exponent `x`: its code and flags (R132). -/
def blockElem (fmt : Nat) (entries : List FV) (rd : Rnd) (x : Nat) (v : FV) : Nat × Nat :=
  match v with
  | .fin neg n d =>
    let clamped := fun (y : Int) (inx : Bool) (lo hi : Int) (w : Nat) =>
      let z := clampI lo hi y
      ((z % 2 ^ w).toNat, if z = y then flagIf inx fINX else fSAT ||| fINX)
    match fmt with
    | 0 => let (q, inx) := roundGrid rd neg n d ((x : Int) - 133); clamped (sgn neg q) inx (-127) 127 8
    | 1 => let (q, inx) := roundGrid rd neg n d ((x : Int) - 129); clamped (sgn neg q) inx (-7) 7 4
    | 2 =>
      let (n, d) := scale2 n d (128 - (x : Int))
      let (q, inx) := h4Round rd neg n d
      clamped q inx (-8) 7 4
    | _ => let (n, d) := scale2 n d (127 - (x : Int)); toC4 entries (.fin neg n d)
  | _ => (0, 0)

/-- Encodes a block: exponent byte, codes and flags (R132). `rds` gives each element its rounding. -/
def blockEncode (fmt : Nat) (entries : List FV) (rds : List Rnd) (xs : List FV) : Nat × List Nat × Nat :=
  match blockExp fmt entries xs with
  | none => (0xFF, xs.map (fun _ => 0), fINV)
  | some x =>
    let es := (xs.zip rds).map (fun (v, rd) => blockElem fmt entries rd x v)
    (x, es.map (·.1), es.foldl (fun f e => f ||| e.2) 0)

/-! ## The BC16 block coder (R123 to R125) -/

/-- Bytes and element bits of a block at each rate: `four` is the 4:1 rate. -/
def bcSize (four : Bool) : Nat := if four then 8 else 16
def bcBits (four : Bool) : Nat := if four then 3 else 7
def bcBias (four : Bool) : Int := if four then 128 else 132

/-- Element k of a block held as a number (R123). -/
def bcDecode (four : Bool) (block k : Nat) : FV :=
  let x := block % 256
  if x = 0xFF ∨ bitsAt block 8 1 = 1 then .nan false false
  else
    let q := signedOf (bcBits four) (bitsAt block (16 + bcBits four * k) (bcBits four))
    capFp32 (.dyadic (decide (q < 0)) q.natAbs ((x : Int) - bcBias four))

/-- The side-table byte of a block of finite values: 0 when every element is exact, otherwise the least B that bounds
the error by 2^(B − 127) (R125). An element −0 that decodes to +0 counts as exact (DESIGN CHOICE, log entry 64). -/
def bcSide (xs ys : List FV) : Nat :=
  let errs := (xs.zip ys).map (fun (x, y) => fvDist x y)
  if errs.all (fun e => e.1 = 0) then 0
  else errs.foldl (fun b e => if e.1 = 0 then b else
    let l := ilog2 e.1 e.2
    let (n, d) := scale2 e.1 e.2 (-l)
    Nat.max b (Nat.max 1 ((if n = d then l else l + 1) + 127).toNat)) 1

/-- Codes 16 values as a block: the block as a number, and its side-table byte (R124, R125). -/
def bcEncode (four : Bool) (xs : List FV) : Nat × Nat :=
  if xs.any (fun x => !x.isFin) then (0x1FF, 0xFF)
  else
    let x := Nat.max 1 (xs.foldl (fun m v => Nat.max m (fp32Field v)) 0)
    let qmax : Int := if four then 3 else 63
    let qs := xs.map (fun v => match v with
      | .fin neg n d => clampI (-qmax) qmax (sgn neg (roundGrid rne neg n d ((x : Int) - bcBias four)).1)
      | _ => 0)
    let w := bcBits four
    let block := qs.zipIdx.foldl (fun b (q, k) => b + (q % 2 ^ w).toNat * 2 ^ (16 + w * k)) x
    (block, bcSide xs ((List.range 16).map (fun k => bcDecode four block k)))

/-! ## Special functions (R306, R307)

The irrational results are formed as a floor at 2^-280 and a sticky half unit, from series with 320 fraction bits. -/

def fracBits : Nat := 320

/-- The sum of the series t, t·f 1, t·f 1·f 2 … of nonnegative fixed-point terms, `n` of them. -/
def seriesSum : Nat → Nat → Nat → (Nat → Nat → Nat) → Nat
  | 0, _, _, _ => 0
  | n + 1, i, t, f => t + seriesSum n (i + 1) (f i t) f

/-- ln 2 in fixed point: the sum of 1/(i·2^i), from 330 terms. -/
def ln2Fix : Nat :=
  (List.range 330).foldl (fun a i => a + 2 ^ fracBits / ((i + 1) * 2 ^ (i + 1))) 0

/-- e^x for x in [0, 1) in fixed point. -/
def expFix (x : Nat) : Nat :=
  seriesSum 90 0 (2 ^ fracBits) (fun i t => t * x / 2 ^ fracBits / (i + 1))

/-- ln(n/d) for 1 ≤ n/d < 2 in fixed point: 2·atanh((n − d)/(n + d)). -/
def lnFix (n d : Nat) : Nat :=
  let z := (n - d) * 2 ^ fracBits / (n + d)
  let z2 := z * z / 2 ^ fracBits
  let rec go : Nat → Nat → Nat → Nat
    | 0, _, _ => 0
    | k + 1, i, p => p / (2 * i + 1) + go k (i + 1) (p * z2 / 2 ^ fracBits)
  2 * go 110 0 z

/-- The integer square root, bit by bit: `r` grows by the powers of two below 2^b that keep its square at most `q`. -/
def isqrt : Nat → Nat → Nat → Nat
  | 0, _, r => r
  | b + 1, q, r => isqrt b q (if (r + 2 ^ b) * (r + 2 ^ b) ≤ q then r + 2 ^ b else r)

/-- A positive irrational number given in fixed point: its floor at 2^-280 and a sticky bit. -/
def sticky (neg : Bool) (x : Nat) : FV := .fin neg (2 * (x / 2 ^ 40) + 1) (2 ^ 281)

/-- The special functions: 0 EXP2, 1 LOG2, 2 RCP, 3 RSQ; the exact value and the flags of R307. -/
def special (fn : Nat) (v : FV) : FV × Nat :=
  match nanOf [v] with
  | some r => r
  | none => match fn, v with
    | 0, .inf neg => if neg then (.fin false 0 1, 0) else (.inf false, 0)
    | 0, .fin neg n d =>
      let a := sgn neg n
      if 1000 * (d : Int) ≤ a then (.fin false (2 ^ 1000) 1, 0)
      else if a ≤ -(1000 * (d : Int)) then (.fin false 1 (2 ^ 1000), 0)
      else
        let i := a / (d : Int)
        let f := (a % (d : Int)).toNat
        if f = 0 then (.dyadic false 1 i, 0)
        else
          let e := expFix (f * ln2Fix / d)
          let (n, d) := scale2 (2 * (e / 2 ^ 40) + 1) (2 ^ 281) i
          (.fin false n d, 0)
    | 1, .inf neg => if neg then invalid else (.inf false, 0)
    | 1, .fin neg n d =>
      if n = 0 then (.inf true, fDZ)
      else if neg then invalid
      else
        let e := ilog2 n d
        let (n, d) := scale2 n d (-e)
        if n = d then (.fin (decide (e < 0)) e.natAbs 1, 0)
        else
          let l := lnFix n d * 2 ^ fracBits / ln2Fix
          if 0 ≤ e then (sticky false (e.toNat * 2 ^ fracBits + l), 0)
          else (sticky true (e.natAbs * 2 ^ fracBits - l), 0)
    | 2, .inf neg => (.fin neg 0 1, 0)
    | 2, .fin neg n d => if n = 0 then (.inf neg, fDZ) else (.fin neg d n, 0)
    | _, .inf neg => if neg then invalid else (.fin false 0 1, 0)
    | _, .fin neg n d =>
      if n = 0 then (.inf neg, fDZ)
      else if neg then invalid
      else
        let q := d * 2 ^ 512 / n
        let s := isqrt 340 q 0
        if s * s * n = d * 2 ^ 512 then (.fin false s (2 ^ 256), 0) else (.fin false (2 * s + 1) (2 ^ 257), 0)
    | _, v => (v, 0)

end Sys2Proof.Machine
end

