-- ==== Sys2Proof/Machine/Space.lean ====
section
/-!
DEFINITION. Address spaces, apertures and translation (R10 to R43), up to where an access lands.
Log entries (notes/assumptions): 39 DEDUCED, 41 DEDUCED, 43 DEDUCED, 50 DEDUCED, 62 DESIGN CHOICE.
-/
namespace Sys2Proof.Machine

/-- The top byte of a generic address (R10). -/
def topByte (a : Word) : Nat := Word.bits a 56 8

/-- The space code of a top byte (R10); 15 for none. A window's code depends on its BUF bit. -/
def spaceCode (a : Word) : Nat :=
  let t := topByte a
  if t = 0 then 0
  else if t = 0xF0 then 1
  else if t = 0xF1 then 2
  else if t = 0xF2 then 3
  else if 0xF8 ≤ t ∧ t ≤ 0xFE then (if a.getLsbD 55 then 5 else 4)
  else 15

/-- Address arithmetic that never changes the top byte (R253). -/
def addrAdd (a : Word) (d : Int) : Word :=
  word (topByte a * 2 ^ 56 + (((Word.bits a 0 56 : Int) + d) % 2 ^ 56).toNat)

/-- An access: its KIND (R41), whether it writes, the address as issued and its space. -/
structure Acc where
  kind : Nat
  write : Bool
  addr : Word
  space : Nat
  /-- A vector access, which reaches cached memory of this package only (R297). -/
  vec : Bool := false
  /-- An atomic, which no host page takes; and a .SPC or .QNT one, which reaches cached memory of this package only (R266). -/
  atom : Bool := false
  home : Bool := false
deriving DecidableEq, Repr

/-- The fault record of an access of the acting core (R41). -/
def State.accTrap (s : State) (c : Acc) (code : Byte) (cause : Nat) : TrapInfo :=
  mkTrap code c.addr c.kind c.space s.curTile cause

def faultAcc {α : Type} (c : Acc) (code : Byte) (cause : Nat) : Exec α :=
  fun s => .error (.trap (s.accTrap c code cause))

def Place.isExt : Place → Bool
  | .mem _ _ _ => false
  | _ => true

/-- The places of `n` bytes from a place on. -/
def Place.bytes (p : Place) (n : Nat) : List Place :=
  (List.range n).map (fun i => match p with
    | .mem key kn uc => .mem (key + i) kn uc
    | .host a => .host (a + i)
    | .remote pkg pa => .remote pkg (pa + i))

def Place.uncached : Place → Bool
  | .mem _ _ uc => uc
  | _ => true

/-- One number for a place outside the package. -/
def Place.num : Place → Nat
  | .mem k _ _ => k
  | .host a => 2 ^ 72 + a
  | .remote p a => 2 ^ 73 + p * 2 ^ 44 + a

/-! ## Translation (R33 to R39) -/

/-- Fields of a leaf entry (R34). -/
def leafTgt (e : Word) : Nat := Word.bits e 60 2
def leafKey (e : Word) : Nat := Word.bits e 49 11
def leafPkg (e : Word) : Nat := Word.bits e 34 15
def leafW (e : Word) : Bool := e.getLsbD 33
def leafMv (e : Word) : Bool := e.getLsbD 32
def leafS (e : Word) : Bool := e.getLsbD 31
def leafUc (e : Word) : Bool := e.getLsbD 30
def leafA (e : Word) : Bool := e.getLsbD 29
def leafD (e : Word) : Bool := e.getLsbD 28
def leafFrame (e : Word) : Nat := Word.bits e 0 28

/-- What a walk finds: a page fault's cause, or the leaf with the place of its entry and log2 of its page size; or an
uncorrectable entry at a place (R404). -/
inductive Walked where
  | fault (cause : Nat)
  | check (at_ : Nat)
  | leaf (e : Word) (at_ : Nat) (log : Nat)
deriving DecidableEq, Repr

/-- Index bits, table size and leaf page of each level (R33): low bit, number of bits, log2 of the page or 0. -/
def levelOf (l : Nat) : Nat × Nat × Nat :=
  match l with
  | 0 => (43, 13, 0)
  | 1 => (30, 13, 30)
  | 2 => (21, 9, 21)
  | _ => (16, 5, 16)

/-- A cached entry that serves an address under a context (R37). -/
def Tlb.serves (u : Tlb) (ctx : Byte) (va : Nat) : Bool := u.ctx == ctx && va / 2 ^ u.log == u.page

/-- The walk from level `l` with a table address, by a walker that keeps the table entries `old` of a context (R33 to R37),
and the table entries it has gone through. -/
def State.walkFrom (s : State) (ctx : Byte) (old : List Tlb) : Nat → Nat → Nat → Nat → Walked × List Tlb
  | 0, _, _, _ => (.fault 0x09, [])
  | fuel + 1, l, table, va =>
    let (lo, n, log) := levelOf l
    if 2 ^ 40 ≤ table then (.fault 0x0B, [])
    else if table % (8 * 2 ^ n) ≠ 0 then (.fault 0x0C, [])
    else
      let at_ := table + 8 * bitsAt va lo n
      let kept := old.find? (fun u => u.serves ctx va && u.log == lo)
      if kept.isNone ∧ (s.badWord (hbmKey at_) 8).isSome then (.check at_, [])
      else
        let e := match kept with
          | some u => u.leaf
          | none => word (s.readNat 0 at_ 8)
        if !e.getLsbD 63 then (.fault (0x01 + l), [])
        else if e.getLsbD 62 ∧ leafTgt e = 3 then (.fault 0x08, [])
        else if (e.getLsbD 62 ∧ l = 0) ∨ (!e.getLsbD 62 ∧ l = 3) then (.fault 0x09, [])
        else if e.getLsbD 62 then
          if leafFrame e % 2 ^ (log - 16) ≠ 0 then (.fault 0x0A, []) else (.leaf e at_ log, [])
        else
          let r := s.walkFrom ctx old fuel (l + 1) (Word.bits e 0 36 * 256) va
          (r.1, { ctx := ctx, page := va / 2 ^ lo, log := lo, leaf := e } :: r.2)

/-- The walk for an address under a root that reads every entry from memory, as a command processor walks. -/
def State.walk (s : State) (root va : Nat) : Walked := (s.walkFrom 0 [] 4 0 root va).1

/-- The walker that serves a miss of a tile (R38), by its die and number. -/
def walkerOf (t va : Nat) : Nat := t / 256 * 64 + (bitsAt va 21 6 ^^^ bitsAt va 27 6)

/-- Where a page stands in a row's cache: 256 sets of 8 ways (R37). -/
def rowSet (t page : Nat) : Nat := t / 16 * 256 + page % 256

/-- Puts an entry before the others of a cache, of which the newest `n` stay. -/
def cacheIn (n : Nat) (ls : List Tlb) (l : Tlb) : List Tlb :=
  (l :: ls.filter (fun o => !(o.ctx == l.ctx && o.log == l.log && o.page == l.page))).take n

/-- The number of a loaded key slot's key, for the context of `ctx`; or the KEY_SLOT cause (R35, R424, R425). -/
def State.keyOf (s : State) (slot : Nat) (ctx : Byte) : Except Nat Nat :=
  match smFind s.rsc.slots slot with
  | none => .error 0x01
  | some k => if k.closing then .error 0x01 else if k.ctx ≠ ctx then .error 0x02 else .ok (k.load + 2)

/-- Whether a remote range lies in what the package exports (R35). -/
def State.exported (s : State) (pkg pa : Nat) : Bool :=
  s.fabric.exports.any (fun (p, lo, hi) => p == pkg && lo ≤ pa && pa < hi)

/-- Who translates: the job's root and context, whether the access is privileged, a write, or an MMV weight read. -/
structure XReq where
  root : Nat
  ctx : Byte
  priv : Bool
  write : Bool
  mmv : Bool
  vec : Bool := false
  atom : Bool := false
  home : Bool := false
deriving DecidableEq, Repr

/-- The checks of a valid leaf (R35), in the order of R40: the fault, or the place. -/
def State.leafCheck (s : State) (q : XReq) (e : Word) (log va : Nat) : Except (Byte × Nat) Place :=
  let pa := leafFrame e * 2 ^ 16 + va % 2 ^ log
  if !q.priv ∧ leafS e then .error (Code.protection, 0x02)
  else if q.write ∧ !leafW e then .error (Code.protection, 0x01)
  else if q.mmv ∧ (!leafMv e ∨ leafTgt e ≠ 0) then .error (Code.protection, 0x0A)
  else if q.atom ∧ leafTgt e = 1 then .error (Code.protection, 0x10)
  else if q.vec ∧ (leafTgt e ≠ 0 ∨ leafUc e) then .error (Code.protection, 0x13)
  else if q.home ∧ (leafTgt e ≠ 0 ∨ leafUc e) then .error (Code.protection, 0x11)
  else if leafTgt e = 2 ∧ !s.exported (leafPkg e) pa then .error (Code.protection, 0x09)
  else match leafTgt e with
    | 0 => match s.keyOf (leafKey e) q.ctx with
      | .error c => .error (Code.keySlot, c)
      | .ok kn => .ok (.mem (hbmKey pa) kn (leafUc e))
    | 1 => .ok (.host pa)
    | _ => .ok (.remote (leafPkg e) pa)

/-- A tile keeps a translation in its cache of 128 entries (R37). -/
def Tile.cacheTlb (x : Tile) (l : Tlb) : Tile := { x with tlb := cacheIn 128 x.tlb l }

/-- The caches after a walk of a tile: the leaf in the tile's and in its row's, the table entries in the walker's (R37). -/
def State.cacheWalk (s : State) (t va : Nat) (l : Tlb) (ups : List Tlb) : State :=
  let k := rowSet t l.page
  let w := walkerOf t va
  { s.updTile t (fun x => x.cacheTlb l) with
    rowTlb := smPut s.rowTlb k (cacheIn 8 (smGet [] s.rowTlb k) l)
    upper := smPut s.upper w (ups.foldl (cacheIn 256) (smGet [] s.upper w)) }

/-- Drops cached entries of every tile, row and walker, and what walks have answered to instructions in flight
(R39, R358). -/
def State.dropTlb (s : State) (gone : Tlb → Bool) : State :=
  { s with
    rowTlb := s.rowTlb.map (fun (k, ls) => (k, ls.filter (fun l => !gone l)))
    upper := s.upper.map (fun (k, ls) => (k, ls.filter (fun l => !gone l)))
    tiles := s.tiles.map (fun (t, x) => (t, { x with
      tlb := x.tlb.filter (fun l => !gone l)
      cores := x.cores.map (fun (k, c) => (k, { c with walks := c.walks.filter (fun m => match m.ans with
        | some (.leaf e log) => !gone { ctx := c.cctx, page := m.va / 2 ^ log, log := log, leaf := e }
        | _ => true) })) })) }

/-- Whether a matrix instruction reads or writes pages under a key. -/
def MOp.usesKey (m : MOp) (kn : Nat) : Bool := m.pages.any (fun (_, p) => p.2 == kn)

/-- Whether a chunk has a store, an atomic or a matrix instruction under a key to make. -/
def Chunk.usesKey (h : Chunk) (kn : Nat) : Bool :=
  h.skey.any (fun (_, n) => n == kn) || h.late.any (fun a => a.keyNo == kn) || h.acts.any (fun a => match a with
    | .atomic a => a.keyNo == kn
    | .matrix m => m.usesKey kn
    | _ => false)

/-- Whether an access under a key is in flight: of a matrix instruction, of a chunk that has not committed or of an atomic that has
not been performed (R425). -/
def State.keyInUse (s : State) (kn : Nat) : Bool :=
  s.tiles.any (fun (_, x) => x.mq.any (fun m => m.usesKey kn) ||
    x.cores.any (fun (_, c) => c.atoms.any (fun a => a.keyNo == kn) || c.chunk.any (fun h => h.usesKey kn)))

/-- Slots that are being unloaded and under which nothing is in flight any more become EMPTY: the cached translations that
name them go, then the keys (R425). -/
def State.slotsSettle (s : State) : State :=
  s.rsc.slots.foldl (fun s (n, k) =>
    if k.closing ∧ !s.keyInUse (k.load + 2) then
      let s := s.dropTlb (fun l => leafTgt l.leaf == 0 && leafKey l.leaf == n)
      { s with rsc := { s.rsc with slots := smErase s.rsc.slots n } }
    else s) s

/-- Sets A, and D for a write, in a leaf entry by an atomic OR in the commit order (R37): the entry's byte that holds both,
which stays under the key that it was written under. -/
def State.setAD (s : State) (t : Nat) (vf : Option Nat) (e : Word) (at_ : Nat) (write : Bool) : State × Word :=
  let bits : Word := 0x20000000 ||| (if write then 0x10000000 else 0)
  let e' := e ||| bits
  let key := hbmKey at_ + 3
  let b := BitVec.ofNat 8 ((memByte s.mem key).toNat ||| bits.toNat / 2 ^ 24)
  if e' = e then (s, e) else (s.commitBytes t vf (smGet 0 s.keyTag key) key [b], e')

/-- A cached leaf that serves an access of tile t: the tile's, or else its row's; for a write only one with D set (R37). -/
def State.cached (s : State) (t : Nat) (ctx : Byte) (write : Bool) (va : Nat) : Option Tlb :=
  let ok := fun (l : Tlb) => l.serves ctx va && (!write || leafD l.leaf)
  match (s.tile t).tlb.find? ok with
  | some l => some l
  | none => [16, 21, 30].findSome? (fun log => (smGet [] s.rowTlb (rowSet t (va / 2 ^ log))).find? ok)

/-- A walk of tile t for an access: when every check passes it sets A, and D for a write, and the caches keep the entries
(R35, R37). The error is a fault's code and cause; code 0xF4 is an uncorrectable entry. -/
def State.walkFor (s : State) (t : Nat) (vf : Option Nat) (q : XReq) (va : Nat) :
    Except (Byte × Nat) ((Word × Nat × Place) × State) :=
  match s.walkFrom q.ctx (smGet [] s.upper (walkerOf t va)) 4 0 q.root va with
  | (.fault c, _) => .error (Code.pageFault, c)
  | (.check a, _) => .error (0xF4, a)
  | (.leaf e at_ log, ups) => match s.leafCheck q e log va with
    | .error f => .error f
    | .ok p =>
      let (s, e) := s.setAD t vf e at_ q.write
      .ok ((e, log, p), s.cacheWalk t va { ctx := q.ctx, page := va / 2 ^ log, log := log, leaf := e } ups)

/-- Translates an address for an engine of tile t: by a cached entry, or by a walk (R37, R39). -/
def State.translate (s : State) (t : Nat) (vf : Option Nat) (q : XReq) (va : Nat) : Except (Byte × Nat) (Place × State) :=
  match s.cached t q.ctx q.write va with
  | some l => match s.leafCheck q l.leaf l.log va with
    | .error f => .error f
    | .ok p => .ok (p, s)
  | none => match s.walkFor t vf q va with
    | .error f => .error f
    | .ok ((_, _, p), s) => .ok (p, s)

/-- The virtual function whose writes a job makes; none for a job of the physical function (R171, R432). -/
def Job.vfn (j : Job) : Option Nat := if j.pf then none else some j.vf

/-- Whether a job's virtual function is being stopped or stands stopped for a migration (R432). -/
def State.vfHeld (s : State) (j : Job) : Bool := j.vfn.any (fun v => (smGet Mig.init s.mig v).state != 0)

/-- The job of the watch on a tile. -/
def State.jobOn (s : State) (t : Nat) : Option Job := (s.tile t).watch.bind (fun w => s.job? w.jid)

/-- How the acting core's accesses translate. -/
def State.myXReq (s : State) (write : Bool) : XReq :=
  { root := ((s.jobOn s.curTile).map (·.root)).getD (2 ^ 40), ctx := s.me.cctx, priv := s.me.regs.priv, write := write,
    mmv := false }

/-- The virtual function of a tile's job, for dirty tracking (R432). -/
def State.vfOn (s : State) (t : Nat) : Option Nat := (s.jobOn t).bind Job.vfn

/-- The trap of an access whose translation fails; faults report the address as issued (R32, R41). -/
def State.xlateTrap (s : State) (c : Acc) (code : Byte) (cause : Nat) : TrapInfo :=
  if code = 0xF4 then mkTrap 0xF4 (word cause) c.kind c.space s.curTile 0 else s.accTrap c code cause

/-- Where a leaf leads an access of the acting core, whose chunk has then used the translation (R39). -/
def xlateBy (c : Acc) (e : Word) (log va : Nat) : Exec Place := fun s =>
  match s.leafCheck { s.myXReq c.write with vec := c.vec, atom := c.atom, home := c.home } e log va with
  | .ok p => .ok (p, s.setMe { s.me with chunk := s.me.chunk.map (fun h =>
      { h with rset := setAdd h.rset (pageLine s.me.cctx log (va / 2 ^ log)) }) })
  | .error (code, cause) => .error (.trap (s.xlateTrap c code cause))

/-- Translates one byte's address for the acting core: by what a walk has answered its instruction, by a cached entry, or by
a walk, for which the instruction waits (R37, R38). -/
def xlate (c : Acc) (va : Nat) : Exec Place := fun s =>
  match s.me.walks.find? (fun m => m.va / 2 ^ 16 == va / 2 ^ 16 && m.write == c.write) with
  | some m => match m.ans with
    | some (.leaf e log) => xlateBy c e log va s
    | some (.fault code cause) => .error (.trap (s.xlateTrap c code cause))
    | none => .error (.stall (fun s => s))
  | none => match s.cached s.curTile s.me.cctx c.write va with
    | some l => xlateBy c l.leaf l.log va s
    | none => .error (.stall (fun s => s.setMe { s.me with
        walks := s.me.walks ++ [{ va := va, write := c.write, vec := c.vec, atom := c.atom, home := c.home, ans := none }] }))

/-! ## Apertures (R28 to R32) -/

/-- The lowest-numbered enabled aperture that covers an address (R32). -/
def aptFind (aps : SMap (Word × Word)) (va : Nat) : Option (Word × Word) :=
  ((List.range 16).map (fun n => smGet (0, 0) aps n)).find? (fun (w0, _) =>
    w0.getLsbD 63 && Word.bits w0 21 35 * 2 ^ 21 ≤ va &&
    decide (va < Word.bits w0 21 35 * 2 ^ 21 + Word.bits w0 0 21 * 2 ^ 21))

def aptXf (w1 : Word) : Nat := Word.bits w1 60 4
def aptBase (w1 : Word) : Nat := Word.bits w1 21 35 * 2 ^ 21

/-- Backing address of view byte v of an identity or swap aperture (R30). -/
def aptByte (w1 : Word) (v : Nat) : Nat :=
  if aptXf w1 = 3 then
    let r := 2 ^ Word.bits w1 16 5
    let c := 2 ^ Word.bits w1 11 5
    let e := 2 ^ Word.bits w1 9 2
    let q := v / (r * c * e)
    let i := v / e % (r * c)
    aptBase w1 + q * r * c * e + (i % r * c + i / r) * e + v % e
  else aptBase w1 + v

/-- View element width of a decode or block-coder aperture (R29, R30). -/
def aptWidth (w1 : Word) : Nat := if aptXf w1 = 1 ∧ w1.getLsbD 59 then 4 else 2

/-- The backing bytes of view element i of a decode or block-coder aperture: address and count (R30). -/
def aptElem (w1 : Word) (i : Nat) : Nat × Nat :=
  let p := Word.bits w1 56 4
  if aptXf w1 = 1 then (if p % 4 = 2 then (aptBase w1 + i / 2, 1) else (aptBase w1 + i, 1))
  else
    let b := bcSize (p % 2 == 1)
    (aptBase w1 + i / 16 * b, b)

/-- The value of view element i of a decode or block-coder aperture, from its backing bytes (R30, R126). -/
def aptDecode (w1 : Word) (i : Nat) (bs : List Byte) : Nat :=
  let p := Word.bits w1 56 4
  let x := ofBytes bs
  if aptXf w1 = 1 then
    let v := match p % 4 with
      | 0 => (ffmt 4).decode x
      | 1 => (ffmt 3).decode x
      | _ => h4Value (if i % 2 = 0 then x % 16 else x / 16)
    (convertTo (if p / 8 = 1 then 0 else 2) rne false false [] v).1
  else (convertTo 2 rne false false [] (bcDecode (p % 2 == 1) x (i % 16))).1

/-! ## Where a generic access of a core lands -/

/-- Where an address leads before translation: a tile memory, global memory, or an element of a window. -/
inductive Spot where
  | tile (t buf ofs : Nat)
  | glob (va : Nat)
  | win (a : Word)
deriving DecidableEq, Repr

/-- The private end of a core: carve-out and overflow area (R238). -/
def Core.privEnd (c : Core) : Nat := Word.bits c.cpriv 0 8 * 4096 + Word.bits c.covf 0 16 * 65536

/-- Where private offset o leads (R16). -/
def Core.privSpot (c : Core) (t o : Nat) : Option Spot :=
  let carve := Word.bits c.cpriv 0 8 * 4096
  if o < carve then some (.tile t 0 (Word.bits c.cpriv 8 8 * 4096 + o))
  else if o - carve < Word.bits c.covf 0 16 * 65536 then some (.glob (Word.bits c.covf 16 40 * 2 ^ 16 + (o - carve)))
  else none

/-- Whether an LM offset lies in a tile's register save tail (R56). -/
def Tile.inTail (x : Tile) (ofs : Nat) : Bool := x.tailOfs ≤ ofs && decide (ofs < x.tailOfs + 24576)

/-- Bytes of the window element at an address: first byte and count, or a malformed element (R24). -/
def winBytes (a : Word) : Option (Nat × Nat) :=
  let w := topByte a
  let e := Word.bits a 0 20
  if w = 0xF8 ∨ w = 0xF9 ∨ w = 0xFC then (if e < 2 ^ 19 then some (e, 1) else none)
  else if w = 0xFE then
    let b := bcSize (a.getLsbD 54)
    if e / 16 * b ≥ 0x80000 then none else some (e / 16 * b, b)
  else some (e / 2, 1)

/-- The must-be-zero bits of a window address are zero (R24). -/
def winMbzOk (a : Word) : Bool :=
  let w := topByte a
  Word.bits a 40 14 == 0 && Word.bits a 24 6 == 0 && !a.getLsbD 20 &&
  !(a.getLsbD 54 && !(w == 0xFA || w == 0xFB || w == 0xFE)) && !(Word.bits a 21 3 != 0 && w != 0xFA) &&
  (winBytes a).isSome

/-- Whether a window format has exponent bytes, and the offset of element e's (R24). -/
def winExp (r : Regs) (a : Word) : Option Nat :=
  let w := topByte a
  if w = 0xFC ∨ w = 0xFD ∨ ((w = 0xFA ∨ w = 0xFB) ∧ a.getLsbD 54) then
    let xb := if a.getLsbD 55 then Word.bits r.cexb 32 19 else Word.bits r.cexb 0 19
    some ((xb + Word.bits a 0 20 / 32) % 2 ^ 19)
  else none

/-- The checks 1 to 3 of R40 on an address, and where it leads; the error is a code and cause. `vec` names a vector access,
which windows onto AB accept (R26). -/
def State.spotOf (s : State) (vec : Bool) (a : Word) : Except (Byte × Nat) Spot :=
  let x := s.tile s.curTile
  let c := s.me
  let user := !c.regs.priv
  match spaceCode a with
  | 0 => .ok (.glob (Word.bits a 0 56))
  | 1 =>
    if Word.bits a 32 24 ≠ 0 then .error (Code.protection, 0x05)
    else match c.privSpot s.curTile (Word.bits a 0 32) with
      | some p => .ok p
      | none => .error (Code.protection, 0x06)
  | 2 =>
    let ofs := Word.bits a 0 19
    if Word.bits a 40 16 ≠ 0 ∨ Word.bits a 19 11 ≠ 0 then .error (Code.protection, 0x05)
    else if user ∧ x.inTail ofs then .error (Code.protection, 0x07)
    else if Word.bits a 30 10 ≠ s.curTile then .error (Code.foreignLocal, 0x01)
    else .ok (.tile s.curTile 0 ofs)
  | 3 =>
    let ofs := Word.bits a 0 19
    let t := s.curTile / 16 * 16 + Word.bits a 20 4
    if Word.bits a 24 32 ≠ 0 ∨ a.getLsbD 19 then .error (Code.protection, 0x05)
    else if user ∧ (s.tile t).inTail ofs then .error (Code.protection, 0x07)
    else .ok (.tile t 0 ofs)
  | 4 | 5 =>
    if a.getLsbD 55 ∧ !vec then .error (Code.spaceClosed, 0x02)
    else if !winMbzOk a then .error (Code.protection, 0x05)
    else
      let touched := ((winBytes a).getD (0, 1)).1 :: (winExp c.regs a).toList
      if user ∧ !a.getLsbD 55 ∧ touched.any (fun o => x.inTail o) then .error (Code.protection, 0x07)
      else if Word.bits a 30 10 ≠ s.curTile then .error (Code.foreignLocal, 0x02)
      else .ok (.win a)
  | _ => .error (Code.spaceClosed, 0x01)

/-- An access as issued at an address. -/
def accOf (kind : Nat) (write : Bool) (a : Word) : Acc := { kind := kind, write := write, addr := a, space := spaceCode a }

/-- Checks 1 to 4 of R40 of a generic access whose address must be a multiple of `align`. An
element access asks for none behind a window (`elemAlign`). -/
def locate (c : Acc) (align : Nat) (vec : Bool) : Exec Spot := fun s =>
  match s.spotOf vec c.addr with
  | .error (code, cause) => .error (.trap (s.accTrap c code cause))
  | .ok p =>
    if c.addr.toNat % align ≠ 0 then .error (.trap (s.accTrap c Code.misaligned (Config.openCause Code.misaligned).toNat))
    else .ok (p, s)

/-- The alignment of an element access of `n` bytes: an element behind a window is never misaligned (R12). -/
def elemAlign (a : Word) (n : Nat) : Nat := if spaceCode a = 4 ∨ spaceCode a = 5 then 1 else n

/-- The target tile of a row-shared access must run a task of the issuer's job (R21); a target being saved or restored
makes the access wait. -/
def rowTarget (c : Acc) (t : Nat) : Exec Unit := fun s =>
  if c.space ≠ 3 ∨ t = s.curTile then .ok ((), s)
  else
    match (s.tile t).watch with
    | none => .error (.trap (s.accTrap c Code.protection 0x08))
    | some w =>
      if w.st = .saving ∨ w.st = .written then .error (.stall (fun s => s))
      else
        let mine := ((s.tile s.curTile).watch).map (·.jid)
        let runs := CoreK.all.any (fun k => (s.core t k).run != .off)
        if mine = some w.jid ∧ runs then .ok ((), s) else .error (.trap (s.accTrap c Code.protection 0x08))

end Sys2Proof.Machine
end

