-- ==== Sys2Proof/Machine/Access.lean ====
section
/-!
DEFINITION. Loads and stores of a core inside its chunk (R74 to R81, R89), accesses outside the package, apertures and
format windows.
Log entries (notes/assumptions): 13 DESIGN CHOICE, 14 DEDUCED, 18 DEDUCED, 33 DEDUCED, 41 DEDUCED, 49 DEDUCED, 50
DEDUCED, 59 DESIGN CHOICE.
-/
namespace Sys2Proof.Machine

/-! ## Requests that leave the package (R93, R96) -/

/-- The generation number in use; 0 with no domain (R420). -/
def State.genNow (s : State) : Nat := ((s.rsc.dom.bind (·.cur)).map (fun g => g.1.toNat)).getD 0

/-- Whether a place lies on a package whose pair with this one is broken (R420). -/
def State.pairBroken (s : State) (p : Place) : Bool :=
  match p with
  | .remote pkg _ => (smGet Peer.init s.fabric.peers pkg).broken
  | _ => false

/-- Sends a fabric request: its number, and the state with the message sent and waiting (R93, R420).
Data packets of a transfer take no sequence number: they are applied on arrival (R95). -/
def State.sendFab (s : State) (pkg pa : Nat) (op : FabOp) (what : FabFor)
    (transfer : Option (Nat × Nat × Option Nat)) : Nat × State :=
  let f := s.fabric
  let p := smGet Peer.init f.peers pkg
  let g := s.genNow
  let sq := smGet 0 p.send g
  let id := f.nextId
  (id, { s with fabric := { f with
    peers := smPut f.peers pkg { p with send := smPut p.send g (if transfer.isSome then sq else sq + 1) }
    pending := f.pending ++ [{ id := id, pkg := pkg, seq := sq, gen := BitVec.ofNat 32 g, what := what }]
    out := f.out ++ [{ pkg := pkg, id := id, seq := sq, gen := BitVec.ofNat 32 g, pa := pa, op := op,
                       transfer := transfer }]
    nextId := id + 1 } })

/-- Sends a read on the host link: its number, and the state with it outstanding. -/
def State.sendHostRead (s : State) (t : Nat) (k : CoreK) (addr : Word) (len : Nat) : Nat × State :=
  let id := s.fabric.nextId
  (id, { s with fabric := { s.fabric with nextId := id + 1 }
                hostReads := s.hostReads ++ [{ id := id, t := t, k := k, addr := addr, len := len }] })

/-! ## A chunk's beginning and its squash -/

/-- The committed bytes of a tile's LM, by offset. -/
def State.lmImage (s : State) (t : Nat) : SMap Byte :=
  smUnshift (smRange s.mem (tileKey t 0 0) (tileKey t 0 0x80000)) (tileKey t 0 0)

/-- A chunk that begins with these registers (R76, R79). -/
def State.newChunk (s : State) (t : Nat) (r : Regs) (consumed : Option (Nat × Nat)) (squashes : Nat) : Chunk :=
  { ck := r, consumed := consumed, stores := [], skey := [], rset := [], pkg := false, bytes := 0, len := 0,
    closed := false, hit := [], single := false, veil := [], late := [], acts := [], wrote := [], squashes := squashes, binds := false, block := [], lm0 := s.lmImage t,
    vf := s.vfOn t }

/-- Squashes a core's chunk: everything returns to the checkpoint, the core withdraws from a join that is not complete, and the
fifth attempt asks for a solo token (R82, R83). -/
def State.squash (s : State) (t : Nat) (k : CoreK) (counts : Bool) : State :=
  let c := s.core t k
  match c.chunk with
  | none => s
  | some h =>
    let n := h.squashes + counts.toNat
    let s := s.setCore t k { c with
      regs := h.ck, chunk := some (s.newChunk t h.ck h.consumed n), squash := Nat.min 65535 (c.squash + 1),
      stalled := false, ready := false, ext := none, walks := [], taking := [], join := c.join.filter (fun j => j.verdict != 0) }
    if 4 ≤ n ∧ !s.solo.any (fun q => q.t == t && q.k == k) then
      { s with solo := s.solo ++ [{ t := t, k := k, row := if h.pkg then none else some (t / 16) }] }
    else s

/-- A chunk whose uncached access goes out now: that is its point in the commit order, so it is not squashed any more, and the
lines that its instruction has read stay as they are for it (R80). -/
def Chunk.fix (h : Chunk) (mem : List Host.Cell) (rd : List Nat) : Chunk :=
  { h with
    single := true
    veil := (rd.filter (fun l => decide (l < 2 ^ 44))).foldl (fun m l => (List.range 64).foldl (fun m i =>
      if (smFind m (64 * l + i)).isSome then m else smPut m (64 * l + i) (memByte mem (64 * l + i))) m) h.veil }

/-! ## Accesses outside the package -/

/-- The answer of the outside to an access at a place; the first time round the request is sent and the core stalls.
A broken pair takes PROTECTION, cause 0x18, and a request refused for its generation BUS_EPOCH, cause 0x06 (R420); one whose
word had an uncorrectable error takes the machine check (R69, R404). -/
def extAsk (c : Acc) (p : Place) (op : FabOp) (len : Nat) : Exec (List Byte) := fun s =>
  let e0 : ExtReq := { id := 0, place := 0, waiting := false, got := [], refused := [], bad := [] }
  let e := s.me.ext.getD e0
  match smFind e.got p.num with
  | some bs => .ok (bs, s)
  | none =>
    if e.refused.contains p.num then .error (.trap (s.accTrap c Code.busEpoch 0x06))
    else if e.bad.contains p.num then .error (.trap (mkTrap 0xF1 c.addr c.kind c.space s.curTile 0))
    else if s.pairBroken p then .error (.trap (s.accTrap c Code.protection 0x18))
    else if e.waiting then .error (.stall (fun s => s))
    else
      let rd := (s.me.chunk.map (·.rset)).getD []
      .error (.stall (fun s =>
      if s.me.chunk.any (fun h => !h.single && { h with rset := rd }.met) then s.squash s.curTile s.curCore true
      else
      let s := s.setMe { s.me with chunk := s.me.chunk.map (fun h => h.fix s.mem rd) }
      let e := s.me.ext.getD e0
      let (id, s) := match p with
        | .remote pkg pa => s.sendFab pkg pa op (.core s.curTile s.curCore) none
        | .host a => s.sendHostRead s.curTile s.curCore (word a) len
        | .mem _ _ _ => (0, s)
      s.setMe { s.me with ext := some { e with id := id, place := p.num, waiting := true } }))

/-! ## The chunk's own accesses -/

/-- Whether an atomic will store its value to a byte of a range. -/
def RAtom.puts (a : RAtom) (key n : Nat) : Bool :=
  a.put.any (fun p => match p with
    | .mem k _ _ => decide (key ≤ k) && decide (k < key + n)
    | _ => false)

/-- Whether a range overlaps a relaxed atomic of the core that is not yet performed (R89). -/
def Core.atomOverlap (c : Core) (key n : Nat) : Bool :=
  c.atoms.any (fun a => a.puts key n ||
    (a.pkg.isNone && decide (a.key < key + n) && decide (key < a.key + (if a.wide then 8 else 4))))

/-- The local address of a byte of a tile's LM (R17). -/
def localAddr (t key : Nat) : Word := word (0xF1 * 2 ^ 56 + t % 1024 * 2 ^ 30 + key % 2 ^ 20)

/-- An uncorrectable error in the bytes read (R69, R404). -/
def checkPoison (c : Acc) (key n : Nat) : Exec Unit := fun s =>
  if (s.badWord key n).isSome then
    .error (.trap (mkTrap (if isHbm key then 0xF1 else 0xF0) c.addr c.kind c.space s.curTile 0))
  else .ok ((), s)

/-- An uncorrectable error in n bytes of the tail of the core's tile, which an instruction reads whole: CFAD holds the local address of
the word (R404). -/
def checkTail (key n : Nat) : Exec Unit := fun s =>
  match s.badWord key n with
  | some p => .error (.trap (mkTrap 0xF0 (localAddr s.curTile p) 0 2 s.curTile 0))
  | none => .ok ((), s)

/-- Adds lines to the read set (R78). -/
def addReads (ls : List Nat) : Exec Unit := modChunk (fun h => { h with rset := ls.foldl setAdd h.rset })

/-- Makes the package arbiter decide this chunk (R80). -/
def pkgScope : Exec Unit := modChunk (fun h => { h with pkg := true })

/-- The chunk ends after this instruction. -/
def closeAfter : Exec Unit := modChunk (fun h => { h with closed := true })

/-- The chunk ends after this instruction, whose uncached access is a single-access commit: nothing squashes it (R80). -/
def alone : Exec Unit := modChunk (fun h => { h with closed := true, single := true })

/-- Reads bytes of a place: the chunk's own stores first, then memory (R78, R81). -/
def readPlace (c : Acc) (p : Place) (n : Nat) : Exec (List Byte) :=
  match p with
  | .mem key kn uc => do
    let s ← getState
    if s.me.atomOverlap key n then stallWith (fun s => s)
    checkPoison c key n
    if uc then needEmpty
    if isHbm key then pkgScope
    if uc then alone else addReads (linesOf key n)
    let s ← getState
    let h := fun (f : Chunk → SMap Byte) => (s.me.chunk.map f).getD []
    return (List.range n).map (fun i => match smFind (h (·.stores)) (key + i) with
      | some b => b
      | none => (smFind (h (·.veil)) (key + i)).getD (s.readByte kn (key + i)))
  | p => do
    needEmpty
    pkgScope
    closeAfter
    extAsk c p (.load n) n

/-- Buffers a store of bytes to a place (R78); a store past 8,192 bytes starts a new chunk (R75). The bytes of every store
count, those that an earlier store of the chunk has written included (DESIGN CHOICE, log entry 59). -/
def writePlace (p : Place) (bs : List Byte) : Exec Unit :=
  match p with
  | .mem key kn uc => do
    let s ← getState
    if s.me.atomOverlap key bs.length then stallWith (fun s => s)
    match s.me.chunk with
    | some h => if 8192 < h.bytes + bs.length ∧ 0 < h.len then stallWith State.closeChunk
    | none => pure ()
    if uc then
      needEmpty
      alone
    modChunk (fun h => { h with
      stores := smPutList h.stores key bs
      skey := if isHbm key then smPutList h.skey key (bs.map (fun _ => kn)) else h.skey
      bytes := h.bytes + bs.length
      pkg := h.pkg || isHbm key })
  | .host a => do
    needEmpty
    pkgScope
    atCommit (.hostStore (word a) bs)
    alone
  | .remote pkg pa => do
    needEmpty
    pkgScope
    atCommit (.fabStore pkg pa bs)
    alone

/-- The owner check of a core access to a slab, which enters the read set (R13, R51, R52). -/
def checkOwner (c : Acc) (t buf ofs : Nat) : Exec Unit := do
  let s ← getState
  addReads [ownerLine t buf (ofs / 4096)]
  if (s.tile t).slabEngine buf (ofs / 4096) then faultAcc c Code.slabOwner 0x01

/-- The apertures of the acting core's job, of which the chunk reads those that decide an address: the lowest-numbered one that
covers it and those before it (R32). -/
def useApts (va : Nat) : Exec (SMap (Word × Word)) := do
  let s ← getState
  match s.jobOn s.curTile with
  | none => return []
  | some j => do
    let n := ((List.range 16).find? (fun n => (aptFind (smPut [] n (smGet (0, 0) j.apt n)) va).isSome)).getD 15
    addReads ((List.range (n + 1)).map (aptLine j.jid))
    return j.apt

/-- Reads at most 4 KiB of global memory inside one page, through an aperture if one covers it (R30, R31). -/
def readGlob (c : Acc) (va n : Nat) : Exec (List Byte) := do
  let aps ← useApts va
  match aptFind aps va with
  | none => readPlace c (← xlate c va) n
  | some (w0, w1) =>
    let v := va - Word.bits w0 21 35 * 2 ^ 21
    match aptXf w1 with
    | 0 => readPlace c (← xlate c (aptByte w1 v)) n
    | 3 =>
      let e := 2 ^ Word.bits w1 9 2
      let first := v / e
      let parts ← (List.range ((v + n - 1) / e - first + 1)).mapM (fun j => do
        readPlace c (← xlate c (aptByte w1 ((first + j) * e))) e)
      return (parts.flatten.drop (v - first * e)).take n
    | _ =>
      let w := aptWidth w1
      let first := v / w
      let parts ← (List.range ((v + n - 1) / w - first + 1)).mapM (fun j => do
        let (b, cnt) := aptElem w1 (first + j)
        let bs ← readPlace c (← xlate c b) cnt
        return toBytes w (aptDecode w1 (first + j) bs))
      return (parts.flatten.drop (v - first * w)).take n

/-- Writes global memory inside one page; a decode or block-coder aperture refuses a core's write (R31). -/
def writeGlob (c : Acc) (va : Nat) (bs : List Byte) : Exec Unit := do
  let aps ← useApts va
  match aptFind aps va with
  | none => writePlace (← xlate c va) bs
  | some (w0, w1) =>
    let v := va - Word.bits w0 21 35 * 2 ^ 21
    match aptXf w1 with
    | 0 => writePlace (← xlate c (aptByte w1 v)) bs
    | 3 =>
      for (b, j) in bs.zipIdx do
        writePlace (← xlate c (aptByte w1 (v + j))) [b]
    | _ => faultAcc c Code.protection 0x04

/-- Reads bytes at a spot. An aligned window address is no place for a read that its section does not allow there: PROTECTION
with cause 0x03, as R40 gives it for an access that a window does not take (DESIGN CHOICE for a stream's pattern or loop-count
block, log entry 50: R249 is silent). -/
def readSpot (c : Acc) (p : Spot) (n : Nat) : Exec (List Byte) :=
  match p with
  | .tile t buf ofs => do
    rowTarget c t
    checkOwner c t buf ofs
    readPlace c (.mem (tileKey t buf ofs) 0 false) n
  | .glob va => readGlob c va n
  | .win _ => faultAcc c Code.protection 0x03

/-- The places of the bytes that a store at a spot would write (R247), with its checks. -/
def storePlaces (c : Acc) (p : Spot) (n : Nat) : Exec (List Place) :=
  match p with
  | .tile t buf ofs => do
    rowTarget c t
    checkOwner c t buf ofs
    return (List.range n).map (fun i => .mem (tileKey t buf ofs + i) 0 false)
  | .glob va => do
    let aps ← useApts va
    match aptFind aps va with
    | none => return (← xlate c va).bytes n
    | some (w0, w1) =>
      let v := va - Word.bits w0 21 35 * 2 ^ 21
      match aptXf w1 with
      | 0 => return (← xlate c (aptByte w1 v)).bytes n
      | 3 => (List.range n).mapM (fun j => xlate c (aptByte w1 (v + j)))
      | _ => faultAcc c Code.protection 0x04
  | .win _ => faultAcc c Code.protection 0x03

/-- Writes bytes at a spot that is no window. -/
def writeSpot (c : Acc) (p : Spot) (bs : List Byte) : Exec Unit :=
  match p with
  | .tile t buf ofs => do
    rowTarget c t
    checkOwner c t buf ofs
    writePlace (.mem (tileKey t buf ofs) 0 false) bs
  | .glob va => writeGlob c va bs
  | .win _ => faultAcc c Code.protection 0x03

/-- A load of `n` bytes at a generic address. -/
def loadAt (kind align : Nat) (vec : Bool) (a : Word) (n : Nat) : Exec (List Byte) := do
  let c := accOf kind false a
  readSpot c (← locate c align vec) n

/-- A store of bytes at a generic address. -/
def storeAt (kind align : Nat) (vec : Bool) (a : Word) (bs : List Byte) : Exec Unit := do
  let c := accOf kind true a
  writeSpot c (← locate c align vec) bs

/-! ## Windows (R22 to R26, R126) -/

/-- The exact value of the element at a window address, and whether its conversion is by RNE (block-scaled C4, R126). -/
def winRead (c : Acc) (a : Word) : Exec (FV × Bool) := do
  let s ← getState
  let t := s.curTile
  let buf := if a.getLsbD 55 then 2 else 0
  let (o, n) := (winBytes a).getD (0, 1)
  checkOwner c t buf o
  let bs ← readPlace c (.mem (tileKey t buf o) 0 false) n
  let e := Word.bits a 0 20
  let x ← match winExp s.me.regs a with
    | some xo => do
      checkOwner c t buf xo
      let xs ← readPlace c (.mem (tileKey t buf xo) 0 false) 1
      pure (ofBytes xs)
    | none => pure 0
  let raw := ofBytes bs
  let nib := if e % 2 = 0 then raw % 16 else raw / 16 % 16
  let cb := (s.tile t).codebook (Word.bits a 21 3)
  if topByte a = 0xFA then addReads [cbLine t (Word.bits a 21 3)]
  let scaled := a.getLsbD 54
  return match topByte a with
    | 0xF8 => ((ffmt 4).decode raw, false)
    | 0xF9 => ((ffmt 3).decode raw, false)
    | 0xFA => if scaled then (blockValue 3 cb x nib, true) else (decodeFrom 6 cb nib, false)
    | 0xFB => if scaled then (blockValue 2 [] x nib, false) else (h4Value nib, false)
    | 0xFC => (blockValue 0 [] x raw, false)
    | 0xFD => (blockValue 1 [] x nib, false)
    | _ => (bcDecode scaled raw (e % 16), false)

/-- Stores a value through a window: E4M3, E5M2 and unscaled H4 only (R25); the flags of the conversion. -/
def winWrite (c : Acc) (a : Word) (rd : Rnd) (sat fromInt : Bool) (v : FV) : Exec Nat := do
  let s ← getState
  let t := s.curTile
  let buf := if a.getLsbD 55 then 2 else 0
  let (o, _) := (winBytes a).getD (0, 1)
  let place := Place.mem (tileKey t buf o) 0 false
  let w := topByte a
  if w = 0xF8 ∨ w = 0xF9 then
    checkOwner c t buf o
    let (b, f) := convertTo (if w = 0xF8 then 4 else 3) rd sat fromInt [] v
    writePlace place (toBytes 1 b)
    return f
  else if w = 0xFB ∧ !a.getLsbD 54 then
    checkOwner c t buf o
    let old := ofBytes (← readPlace c place 1)
    let (b, f) := toH4 rd v
    let new := if Word.bits a 0 1 = 0 then old / 16 * 16 + b else b * 16 + old % 16
    writePlace place (toBytes 1 new)
    return f
  else faultAcc c Code.protection 0x03

/-- The rounding of a scalar drawing instruction, which takes one counter value under SR (R129, R281). -/
def drawScalar : Exec Rnd := do
  let r ← getRegs
  modRegs (·.drawn 1)
  return r.rnd 0

/-- Splits a range at 4 KiB boundaries, where spaces, slabs, carve-outs and pages may change. -/
def segments (a : Word) (n : Nat) : List (Word × Nat) :=
  let room := 4096 - a.toNat % 4096
  if n = 0 then []
  else if n ≤ room then [(a, n)] else [(a, room), (addrAdd a room, n - room)]

/-- A load of at most 4 KiB that may cross one such boundary. -/
def loadRange (kind : Nat) (a : Word) (n : Nat) : Exec (List Byte) := do
  let parts ← (segments a n).mapM (fun (b, m) => loadAt kind 1 false b m)
  return parts.flatten

/-- A store of at most 4 KiB that may cross one such boundary. -/
def storeRange (kind : Nat) (a : Word) (bs : List Byte) : Exec Unit :=
  match segments a bs.length with
  | [] => pure ()
  | (b, m) :: rest => do
    storeAt kind 1 false b (bs.take m)
    match rest with
    | (b', _) :: _ => storeAt kind 1 false b' (bs.drop m)
    | [] => pure ()

/-! ## Buffer addresses (R48, R49, R55) -/

/-- Fields of a buffer address; bits 63:32 of the register are ignored (R46). -/
def bufNo (a : Word) : Nat := Word.bits a 28 4
def bufOfs (a : Word) : Nat := Word.bits a 0 20

/-- BUF is reserved or a must-be-zero bit is set (R48). -/
def bufBad (a : Word) : Bool := decide (3 < bufNo a) || Word.bits a 20 8 != 0 || (bufNo a == 3 && Word.bits a 0 2 != 0)

/-- The record of a PROTECTION on a buffer operand (R55). -/
def bufFault {α : Type} (a : Word) (kind cause : Nat) : Exec α := fun s =>
  .error (.trap (mkTrap Code.protection (word (a.toNat % 2 ^ 32)) kind 15 s.curTile cause))

/-- Whether `n` bytes of LM from an offset touch the register save tail. -/
def Tile.tailMeets (x : Tile) (ofs n : Nat) : Bool := decide (ofs < x.tailOfs + 24576) && decide (x.tailOfs < ofs + n)

/-- The union of the blocks that the cores of a tile reserve for parking (R60, R61). -/
def Tile.parked (x : Tile) : Nat := x.cores.foldl (fun m (_, c) => m ||| c.regs.pblk.toNat) 0

/-- The checks of R49 on a buffer operand of `n` bytes; `ok` names the buffers its user and its entry accept. Privileged mode
lifts the tail rule (R379). -/
def checkBuf (a : Word) (n kind : Nat) (ok : Nat → Bool) : Exec Unit := do
  let s ← getState
  let x := s.tile s.curTile
  let b := bufNo a
  let o := bufOfs a
  if bufBad a then bufFault a kind 0x0C
  if n ≠ 0 then
    if bufSize b < o + n then bufFault a kind 0x0C
    if !ok b then bufFault a kind 0x0B
    if !s.me.regs.priv ∧ b = 0 ∧ x.tailMeets o n then bufFault a kind 0x07
    if b = 3 ∧ (List.range 16).any (fun k => x.parked.testBit k && decide (k * 16384 < o + n) &&
      decide (o < k * 16384 + 16384)) then bufFault a kind 0x0D

/-- SLAB_OWNER on the lowest slab of a list that the wrong side holds: for a core access (cause 0x01) an engine's, for an
engine's operand (cause 0x02) a core's (R51, R55). A flip that commits before the chunk meets the check (R52). -/
def checkSide (slabs : List SlabId) (engine : Bool) (kind : Nat) : Exec Unit := do
  let s ← getState
  addReads (slabs.map (fun (b, n) => ownerLine s.curTile b n))
  match slabs.find? (fun (b, n) => (s.tile s.curTile).slabEngine b n != engine) with
  | some (b, n) => throwTrap (mkTrap Code.slabOwner (word (b * 2 ^ 28 + n * 4096)) kind 15 s.curTile
      (if engine then 2 else 1))
  | none => pure ()

/-- The address of a private offset (R16). -/
def privAddr (o : Nat) : Word := word (0xF0 * 2 ^ 56 + o)

end Sys2Proof.Machine
end

