-- ==== Sys2Proof/Machine/Operands.lean ====
section
/-!
DEFINITION. Reading and writing operand fields (R200 to R202, R216, R219), streams (R245 to R247), vector groups and
masks (R282).
Log entries (notes/assumptions): 33 DEDUCED.
-/
namespace Sys2Proof.Machine

/-! ## Types (R218, R219) -/

/-- Whether a scalar type is signed (R218). -/
def fmtSigned (fmt : BitVec 3) : Bool := fmt.toNat % 2 == 0

/-- The exact integer that the low w bits of a register hold under a type (R219). -/
def viewFmt (fmt : BitVec 3) (x : Word) : Int :=
  let w := widthOf fmt
  if fmtSigned fmt then signedOf w x.toNat else ((x.toNat % 2 ^ w : Nat) : Int)

/-- The low w bits of a register, unsigned (R219). -/
def lowFmt (fmt : BitVec 3) (x : Word) : Nat := x.toNat % 2 ^ widthOf fmt

/-- An exact integer narrowed to a type and extended to 64 bits (R219). -/
def narrowFmt (fmt : BitVec 3) (y : Int) : Word :=
  let w := widthOf fmt
  let z := (y % 2 ^ w).toNat
  if fmtSigned fmt then wordI (signedOf w z) else word z

/-- IMM sign-extended and zero-extended (R216). -/
def immS (x : Ops) : Word := x.imm.signExtend 64
def immU (x : Ops) : Word := x.imm.zeroExtend 64

/-! ## Streams (R247) -/

/-- The element address of a stream. -/
def Stream.ea (st : Stream) : Word :=
  addrAdd st.base ((st.dims.take (st.ndim.toNat + 1)).foldl (fun a d => a + (d.i.toNat : Int) * d.d.toInt) 0)

/-- One step of the indices: the dimensions after it and the bits of those that completed, from dimension k on. -/
def stepDims : Nat → List Dim → List Dim × Nat
  | _, [] => ([], 0)
  | k, d :: ds =>
    if d.i.toNat + 1 < d.n.toNat then ({ d with i := d.i + 1 } :: ds, 0)
    else
      let (ds', done) := stepDims (k + 1) ds
      ({ d with i := 0 } :: ds', done + 2 ^ k)

/-- A stream after one access, and its completed dimensions. -/
def Stream.advance (st : Stream) : Stream × Nat :=
  let n := st.ndim.toNat + 1
  if st.empty then (st, 2 ^ n - 1)
  else
    let (ds, done) := stepDims 0 (st.dims.take n)
    ({ st with dims := ds ++ st.dims.drop n }, done)

/-- Sets the four CEOD bits of a stream (R246). -/
def Regs.setCeod (r : Regs) (s bits : Nat) : Regs :=
  let old := r.ceod.toNat
  let low := old % 2 ^ (4 * s)
  let high := old / 2 ^ (4 * s + 4)
  { r with ceod := BitVec.ofNat 32 (high * 2 ^ (4 * s + 4) + bits % 16 * 2 ^ (4 * s) + low) }

def Regs.stream (r : Regs) (n : Nat) : Stream := smGet Stream.init r.streams n

def Regs.setStream (r : Regs) (n : Nat) (st : Stream) : Regs :=
  { r with streams := smPut r.streams n st }

/-- The value a read of a stream returns; nothing advances. -/
def streamPeek (n : Nat) : Exec Word := do
  let r ← getRegs
  let st := r.stream n
  if !st.bound then faultIp Code.streamUnbound 0x01
  if st.write then faultIp Code.streamUnbound 0x03
  if st.empty then return 0
  let w := widthOf st.ty / 8
  let bs ← loadAt 0 w false st.ea w
  return narrowFmt st.ty (ofBytes bs)

/-- A stream's advance, with its CEOD bits. -/
def streamStep (n : Nat) : Exec Unit :=
  modRegs (fun r => let (st, done) := (r.stream n).advance; (r.setStream n st).setCeod n done)

/-! ## Scalar operands -/

/-- Reads an operand field once, at issue (R200, R216): a stream read advances its stream. -/
def readOpd (x : Ops) (o : Opd) : Exec Word :=
  match o with
  | .prv => do return (← getRegs).prv
  | .o n => do return smGet 0 (← getRegs).o n
  | .m n => do return (← getRegs).m n
  | .g n => do return smGet 0 (← getRegs).g n
  | .imm => pure (immS x)
  | .p n => do return wordB ((← getRegs).pred n)
  | .s n => do
    let v ← streamPeek n
    streamStep n
    return v
  | _ => pure 0

/-- The registers after a write to a field that is no stream (R200). -/
def Regs.put (r : Regs) (o : Opd) (v : Word) : Regs :=
  match o with
  | .o n => { r with o := smPut r.o n v }
  | .m n => r.setM n v
  | .g n => { r with g := smPut r.g n v }
  | .p n => r.setPred n (v != 0)
  | _ => r

/-- Writes a scalar destination and the latch (R201). -/
def writeOpd (o : Opd) (v : Word) : Exec Unit :=
  match o with
  | .s n => do
    let st := (← getRegs).stream n
    if !st.bound then faultIp Code.streamUnbound 0x01
    if !st.write then faultIp Code.streamUnbound 0x03
    if !st.empty then
      let w := widthOf st.ty / 8
      storeAt 1 w false st.ea (toBytes w v.toNat)
    streamStep n
    modRegs (fun r => { r with prv := v })
  | o => modRegs (fun r => { (r.put o v) with prv := v })

def readA (x : Ops) : Exec Word := readOpd x x.a
def readB (x : Ops) : Exec Word := readOpd x x.b
def readC (x : Ops) : Exec Word := readOpd x x.c

/-- Writes DF from the values of AF, BF and CF, read in this order (R219). -/
def exec3 (x : Ops) (f : Word → Word → Word → Word) : Exec Unit := do
  let a ← readA x
  let b ← readB x
  let c ← readC x
  writeOpd x.d (f a b c)

/-! ## Vector operands (R282) -/

/-- Lanes of a group of `g` registers, from the map of v0 to v31 or of the vector latch. -/
def Regs.readGroup (r : Regs) (o : Opd) (g : Nat) : List (BitVec 32) :=
  match o with
  | .v n => smGetList 0 r.vregs (64 * n) (64 * g)
  | .vprv => smGetList 0 r.vprv 0 (64 * g)
  | _ => List.replicate (64 * g) 0

/-- Writes a whole group, and the vector latch with it (R201, R282). -/
def Regs.writeGroup (r : Regs) (o : Opd) (ls : List (BitVec 32)) : Regs :=
  let r := match o with
    | .v n => { r with vregs := smPutList r.vregs (64 * n) ls }
    | _ => r
  { r with vprv := smPutList r.vprv 0 ls }

/-- Lane i's bit of a mask register (R282). -/
def maskBit (m : List (BitVec 32)) (i : Nat) : Bool := (m.getD (i / 32) 0).getLsbD (i % 32)

/-- Which of L lanes are active: all, or with MSK those of v31 (R282). -/
def Regs.active (r : Regs) (x : Ops) (l : Nat) : List Bool :=
  if x.mod.getLsbD 4 then
    let m := r.readGroup (.v 31) 1
    (List.range l).map (maskBit m)
  else List.replicate l true

/-- A list of truth values as the lanes of a mask register. -/
def maskLanes (bs : List Bool) : List (BitVec 32) :=
  (List.range 64).map (fun j =>
    BitVec.ofNat 32 (((List.range 32).filter (fun i => bs.getD (32 * j + i) false)).foldl (fun a i => a + 2 ^ i) 0))

/-- Width of a vector type (R283). -/
def vwidth (fmt : BitVec 3) : Nat :=
  match fmt.toNat with
  | 0 | 3 | 4 => 32
  | 1 | 2 | 5 => 16
  | _ => 8

/-- Whether a vector type is a float, and whether an integer one is signed (R283). -/
def vfloat (fmt : BitVec 3) : Bool := fmt.toNat < 3
def vsigned (fmt : BitVec 3) : Bool := fmt.toNat == 3 || fmt.toNat == 5 || fmt.toNat == 6

/-- The exact integer in a lane. -/
def laneInt (fmt : BitVec 3) (l : BitVec 32) : Int :=
  if vsigned fmt then signedOf (vwidth fmt) l.toNat else ((l.toNat % 2 ^ vwidth fmt : Nat) : Int)

/-- The exact value in a lane of a float type. -/
def laneFV (fmt : BitVec 3) (l : BitVec 32) : FV := (ffmt fmt.toNat).decode (l.toNat % 2 ^ vwidth fmt)

/-- A lane that holds an element's bits, with the extension of R282. -/
def laneOf (fmt : BitVec 3) (bits : Nat) : BitVec 32 :=
  if vsigned fmt then BitVec.ofInt 32 (signedOf (vwidth fmt) bits) else BitVec.ofNat 32 (bits % 2 ^ vwidth fmt)

/-- A lane that holds an exact integer modulo 2^w. -/
def laneOfInt (fmt : BitVec 3) (y : Int) : BitVec 32 := laneOf fmt (y % 2 ^ vwidth fmt).toNat

/-- Writes the active lanes of a destination group (R282). -/
def writeLanes (x : Ops) (act : List Bool) (vals : List (BitVec 32)) : Exec Unit := do
  let r ← getRegs
  let g := groupSize x.mod
  let old := r.readGroup x.d g
  let new := (act.zip (vals.zip old)).map (fun (b, v, o) => if b then v else o)
  modRegs (fun r => r.writeGroup x.d new)

/-- Takes the draws of a vector drawing instruction of `g` registers (R129). -/
def drawVector (g : Nat) : Exec (Nat → Rnd) := do
  let r ← getRegs
  modRegs (·.drawn (64 * g))
  return fun i => r.rnd i

end Sys2Proof.Machine
end

