-- ==== Sys2Proof/Machine/Sched.lean ====
section
/-!
DEFINITION. What the command processors keep: global memory as they reach it, launch, graph and job records, the end of a
tile task and of a watch, phase groups, and cancels (R170 to R191, R401).
Log entries (notes/assumptions): 13 DESIGN CHOICE, 18 DEDUCED, 22 DEDUCED, 24 DESIGN CHOICE, 31 DEDUCED, 46 DEDUCED,
47 DEDUCED, 57 DEDUCED, 65 DEDUCED.
-/
namespace Sys2Proof.Machine

/-! ## Global memory from a command processor -/

/-- Translates an address under a job, by a walk (R33 to R37). The command processors' accesses are privileged. -/
def State.xlateJob (s : State) (j : Job) (write : Bool) (va : Nat) : Except (Byte × Nat) (Place × State) :=
  let q : XReq := { root := j.root, ctx := j.ctx, priv := true, write := write, mmv := false }
  match s.walk j.root va with
  | .fault c => .error (Code.pageFault, c)
  | .check a => .error (0xF4, a)
  | .leaf e at_ log => match s.leafCheck q e log va with
    | .error f => .error f
    | .ok p => .ok (p, (s.setAD 0 j.vfn e at_ write).1)

/-- Bytes at a place as a command processor or an engine reads them; what lies outside the package is a free value. -/
def State.placeBytes (s : State) (p : Place) (n : Nat) : List Byte × State :=
  match p with
  | .mem key kn _ => (s.readBytes kn key n, s)
  | p => ((List.range n).map (fun i => Config.outsideByte s.free (p.num + i)), { s with free := s.free + 1 })

/-- The first word with an uncorrectable error among n bytes at a place of this part (R69). -/
def State.badPlace (s : State) (p : Place) (n : Nat) : Option Nat :=
  match p with
  | .mem key _ _ => s.badWord key n
  | _ => none

/-- Reads at most 64 KiB of a job's global memory that lie in one page. A word with an uncorrectable error is never delivered:
the read fails with code 0xF1 and the word's address (R69, R404). -/
def State.gRead (s : State) (j : Job) (va n : Nat) : Except (Byte × Nat) (List Byte × State) :=
  match s.xlateJob j false va with
  | .error f => .error f
  | .ok (p, s) => match s.badPlace p n with
    | some q => .error (0xF1, q)
    | none => .ok (s.placeBytes p n)

/-- How what waits on a word of a job's memory reads it. -/
abbrev Look := State → Job → Nat → Nat → Except (Byte × Nat) (List Byte × State)

/-- It reads memory as it stood in another state. -/
def lookAt (v : State) : Look := fun s j va n => (v.gRead j va n).map (fun (bs, _) => (bs, s))

/-- Counts and records the machine check that a failed read of a command processor or of the row save engine is, if it is one
(R404, R440, R441). -/
def State.noteBad (s : State) (f : Byte × Nat) : State := if 0xF0 ≤ f.1.toNat then s.logCheck 0 f.1 (word f.2) else s

/-- Writes bytes at a place as one single-access commit; on the host it is a posted write, on another package a store. -/
def State.placeWrite (s : State) (t : Nat) (vf : Option Nat) (p : Place) (bs : List Byte) : State :=
  match p with
  | .mem key kn _ => s.commitBytes t vf kn key bs
  | .host a => { s with hostOut := s.hostOut ++ [.write (word a) bs] }
  | .remote pkg pa => (s.sendFab pkg pa (.store bs) (.store t .c) none).2

/-- Writes a job's global memory inside one page. -/
def State.gWrite (s : State) (j : Job) (va : Nat) (bs : List Byte) : Except (Byte × Nat) State :=
  match s.xlateJob j true va with
  | .error f => .error f
  | .ok (p, s) => .ok (s.placeWrite 0 j.vfn p bs)

/-- A record write whose fault no rule gives an effect: it is dropped, and a machine check of its walk is recorded (R440). -/
def State.gPut (s : State) (j : Job) (va : Nat) (bs : List Byte) : State :=
  match s.gWrite j va bs with
  | .ok s => s
  | .error f => s.noteBad f

/-- Little-endian words of a number of bytes. -/
def wordsOf (bs : List Byte) : List Word := (chunksOf (bs.length + 1) 8 bs).map (fun b => word (ofBytes b))

def bytesOfWords (ws : List Word) : List Byte := ws.flatMap (fun w => toBytes 8 w.toNat)

/-- Reads `n` words of a job's memory. -/
def State.gWords (s : State) (j : Job) (va n : Nat) : Except (Byte × Nat) (List Word × State) :=
  match s.gRead j va (8 * n) with
  | .error f => .error f
  | .ok (bs, s) => .ok (wordsOf bs, s)

/-- Word `i` of a list of words. -/
def wd (ws : List Word) (i : Nat) : Word := ws.getD i 0

/-! ## Records (R171, R176, R180) -/

/-- STATE, CAUSE and the time of a record's second word. -/
def recWord (st cause gtc : Nat) : Word := word (st * 2 ^ 56 + cause % 256 * 2 ^ 48 + gtc % 2 ^ 48)

/-- CNTA of a launch. -/
def Launch.cnta (l : Launch) : Nat := (wd l.d 9).toNat % 2 ^ 56

/-- Writes ENDED and CANCELLED of a launch record (R176). -/
def State.launchCounts (s : State) (l : Launch) : State :=
  match s.job? l.jid with
  | some j => s.gPut j l.cnta (toBytes 8 (l.ended + l.cancelledN * 2 ^ 32))
  | none => s

/-- Writes STATE and CAUSE of a launch record (R176). -/
def State.launchState (s : State) (l : Launch) : State :=
  match s.job? l.jid with
  | some j => s.gPut j (l.cnta + 8) (toBytes 8 (recWord l.state l.cause s.gtc).toNat)
  | none => s

/-- Writes a job record's state word (R171). -/
def State.jobState (s : State) (j : Job) : State :=
  s.gPut j (j.jrec.toNat % 2 ^ 56 + 8) (toBytes 8 (recWord j.state j.cause s.gtc).toNat)

/-- Adds to the counts of graphs (low) and launches (high) completed in a job record (R171). -/
def State.jobCount (s : State) (j : Job) (graphs launches : Nat) : State :=
  let va := j.jrec.toNat % 2 ^ 56
  match s.gRead j va 8 with
  | .ok (bs, s) =>
    let w := ofBytes bs
    s.gPut j va (toBytes 8 ((w % 2 ^ 32 + graphs) % 2 ^ 32 + (w / 2 ^ 32 + launches) % 2 ^ 32 * 2 ^ 32))
  | .error f => s.noteBad f

/-- The graph record's second word (R180). -/
def runWord (r : Run) (gtc : Nat) : Word :=
  word (r.state * 2 ^ 56 + r.cause % 256 * 2 ^ 48 + (if r.state = 3 then r.node % 4096 * 2 ^ 32 else 0) + gtc % 2 ^ 32)

/-- Writes a graph record: its counts, then its state word (R180). -/
def State.runRecord (s : State) (r : Run) : State :=
  match s.job? r.jid with
  | some j =>
    let va := r.grec.toNat % 2 ^ 56
    (s.gPut j va (toBytes 8 (r.nodesRun % 2 ^ 32 + r.dispatched % 2 ^ 32 * 2 ^ 32))).gPut j (va + 8)
      (toBytes 8 (runWord r s.gtc).toNat)
  | none => s

/-! ## Packets (R368) -/

def pkKind (w : List Word) : Nat := Word.bits (wd w 0) 56 8
def pkSer (w : List Word) : Bool := (wd w 0).getLsbD 55
def pkIrq (w : List Word) : Bool := (wd w 0).getLsbD 54

/-- The job that a packet names: by word 0, or for WAIT_MEM and WRITE_MEM by ARG1. -/
def pkJid (w : List Word) : Nat := if 5 ≤ pkKind w then Word.bits (wd w 2) 0 16 else Word.bits (wd w 0) 32 16

/-- Whether a RUN_GRAPH or WRITE_MEM of a job has started and its work has not begun: it comes before a close. -/
def State.jobDue (s : State) (jid : Nat) : Bool :=
  s.queues.any (fun (_, x) => x.active.any (fun e =>
    (pkKind e.w == 3 || pkKind e.w == 6) && pkJid e.w == jid && e.st == 0))

/-- A closed job leaves the package: its cached translations go, its slots are unloaded, and its tag is free (R368, R425). -/
def State.freeJob (s : State) (j : Job) : State :=
  let s := s.dropTlb (fun l => l.ctx == j.ctx)
  let s := { s with rsc := { s.rsc with slots := s.rsc.slots.map (fun (n, k) =>
    (n, if KeySlot.ctx k = j.ctx then { k with closing := true } else k)) } }
  let s := s.slotsSettle
  { s with
    jobs := s.jobs.filter (fun x => x.jid != j.jid)
    launches := s.launches.filter (fun l => l.jid != j.jid)
    runs := s.runs.filter (fun r => r.jid != j.jid) }

/-- A job whose cancel has ended every launch takes STATE CANCELLED (R189). One that a CLOSE_JOB has taken then leaves the package,
once no packet of it that has started is still to be done. -/
def State.jobSettle (s : State) (jid : Nat) : State :=
  match s.job? jid with
  | none => s
  | some j =>
    let busy := s.launches.any (fun l => l.jid == jid && l.state < 2) ||
      s.runs.any (fun r => r.jid == jid && r.state == 1)
    let ended := j.cancelled && j.state == 1 && !busy
    let j := if ended then { j with state := 4 } else j
    let s := if ended then (s.setJob j).jobState j else s
    if j.closing ∧ j.state = 4 ∧ !s.jobDue jid then s.freeJob j else s

/-- A run ends FAULTED: no further node runs (R179). -/
def State.runFault (s : State) (r : Run) (cause : Nat) : State :=
  let r := { r with state := 3, cause := cause }
  ((s.setRun r).runRecord r).jobSettle r.jid

/-- A launch of a run was REFUSED: the run ends FAULTED, if it still runs (R179). -/
def State.refuseRun (s : State) (l : Launch) : State :=
  match l.run.bind s.run? with
  | some x => if x.state = 1 ∧ !x.cancelled then s.runFault x 4 else s
  | none => s

/-- A cancelled graph run ends when its launches have completed (R189). -/
def State.runSettle (s : State) (r : Nat) : State :=
  match s.run? r with
  | some x =>
    let busy := x.launches.any (fun l => (s.launch? l).any (fun y => y.state < 2))
    if x.state = 1 ∧ x.cancelled ∧ !busy then
      let x := { x with state := 4 }
      ((s.setRun x).runRecord x).jobSettle x.jid
    else s
  | none => s

/-! ## The end of launches -/

/-- A launch whose watches have all ended and whose tiles have all drained completes (R176). The job record counts every
launch that was placed and has ended, a cancelled one too, and none that ended in its queue or was refused: R171 does not say
which of these are completed (DEDUCED, log entry 65). -/
def State.launchSettle (s : State) (id : Nat) : State :=
  match s.launch? id with
  | none => s
  | some l =>
    if l.state = 1 ∧ l.tiles.isEmpty ∧ l.saved.isEmpty then
      let l := { l with state := if l.cancelled then 4 else 2, grp := none }
      let s := (s.setLaunch l).launchState l
      let s := match s.job? l.jid with
        | some j => s.jobCount j 0 1
        | none => s
      ((l.run.map s.runSettle).getD s).jobSettle l.jid
    else s

/-- Counts the end of one tile task in its launch's record (R176). -/
def State.countEnd (s : State) (id : Nat) (n cancelled : Nat) : State :=
  match s.launch? id with
  | none => s
  | some l =>
    let l := { l with ended := l.ended + n, cancelledN := l.cancelledN + cancelled }
    (s.setLaunch l).launchCounts l

/-- Number of tile tasks a saved watch had not ended (R395). -/
def Saved.running (w : Saved) : Nat := (CoreK.all.filter (fun k => (smGet Core.init w.cores k.idx).run != .off)).length

/-- Blocks left on tiles for a watch that will not come back are cleared (R397). -/
def State.dropNotes (s : State) (jid vtn : Nat) : State :=
  s.tiles.foldl (fun s (t, x) => x.accNote.foldl (fun s (k, o) =>
    if o ≠ (jid, vtn) then s
    else
      let clear := fun (s : State) (k : Nat) =>
        { s with mem := smClear s.mem (tileKey t 3 (k * 16384)) (tileKey t 3 (k * 16384 + 16384)) }
      let r := (smGet 0 x.acc k).getLsbD 11
      let s := if r then clear (clear s k) (k + 8) else clear s k
      s.updTile t (fun y => { y with
        acc := if r then smPut (smPut y.acc k 0) (k + 8) 0 else smPut y.acc k 0
        accNote := smErase y.accNote k })) s) s

/-- The watches of a cancelled launch that are saved, and a cancelled launch that is still queued, end (R189, R190). -/
def State.endCancelled (s : State) (id : Nat) : State :=
  match s.launch? id with
  | none => s
  | some l =>
    if !l.cancelled then s
    else if l.state = 0 then
      let l := { l with state := 4 }
      let s := (s.setLaunch l).launchState l
      ((l.run.map s.runSettle).getD s).jobSettle l.jid
    else if l.state = 1 then
      let n := l.saved.foldl (fun a w => a + w.running) 0
      let s := l.saved.foldl (fun s w => s.dropNotes l.jid w.vtn) (s.setLaunch { l with saved := [] })
      ((if n = 0 then s else s.countEnd id n n)).launchSettle id
    else s

/-- Cancels a launch with a cause (R189). -/
def State.cancelAll (s : State) (id cause : Nat) : State :=
  match s.launch? id with
  | none => s
  | some l =>
    if l.state = 0 then (s.setLaunch { l with cancelled := true, cause := cause }).endCancelled id
    else (s.cancelLaunch id cause).endCancelled id

/-- A trap is entered (`State.takeTrap`); with one that is unhandled, the saved watches of the cancelled launch end (R190,
R386). -/
def State.enterTrap (s : State) (t : Nat) (k : CoreK) (i : TrapInfo) (ctpc ctnpc : BitVec 19) (bd : Bool)
    (held : Option Slot) : State :=
  let s := s.takeTrap t k i ctpc ctnpc bd held
  if (s.core t k).run = .halted then ((s.launchOn t).map s.endCancelled).getD s else s

/-! ## Phase groups (R182 to R188) -/

/-- The plan of a launch's job, if it follows one. -/
def State.planOf (s : State) (l : Launch) : Option (List Word) := (s.job? l.jid).bind (·.plan)

/-- Phases per tick of a plan. -/
def planNph (p : List Word) : Nat := Word.bits (wd p 1) 12 4 + 1

/-- The start of phase `j` of tick `k` (R187). -/
def planStart (p : List Word) (k j : Nat) : Nat :=
  (wd p 0).toNat + k * Word.bits (wd p 1) 24 40 / Word.bits (wd p 1) 16 8 + Word.bits (wd p (4 + 2 * j)) 32 32

/-- The last planned start at or before a time; the plan's first when there is none. -/
def planBefore (p : List Word) (t : Nat) : Nat :=
  let t0 := (wd p 0).toNat
  if t < t0 then t0
  else
    let k := ((t - t0 + 1) * Word.bits (wd p 1) 16 8 - 1) / Word.bits (wd p 1) 24 40
    (((List.range (planNph p)).map (planStart p k)).filter (fun u => decide (u ≤ t))).foldl Nat.max t0

/-- CPHS (R185). -/
def Group.cphs (g : Group) : Word :=
  word (g.tick % 2 ^ 32 * 2 ^ 32 + g.qlast % 256 * 2 ^ 16 + g.phase % 16 * 2 ^ 8 + g.sel % 4)

/-- Every core of a launch on tiles and in saved watches, with its tile. -/
def State.launchCores (s : State) (l : Launch) : List Core :=
  (l.tiles.flatMap (fun t => CoreK.all.map (fun k => s.core t k))) ++
  l.saved.flatMap (fun w => CoreK.all.map (fun k => smGet Core.init w.cores k.idx))

/-- Changes every core of a launch, resident or saved, that has not ended. -/
def State.mapLaunchCores (s : State) (l : Launch) (f : Core → Core) : State :=
  let g := fun (cs : SMap Core) => cs.map (fun (k, c) => (k, if c.run = .off then c else f c))
  let s := l.tiles.foldl (fun s t => s.updTile t (fun x => { x with cores := g x.cores })) s
  match s.launch? l.id with
  | some l => s.setLaunch { l with saved := l.saved.map (fun w => { w with cores := g w.cores }) }
  | none => s

/-- The schedule selector (R186): SEL and QLAST after a measured phase. -/
def selectorOf (table : Word) (times : List Nat) : Nat × Nat :=
  let tmax := times.foldl Nat.max 0
  let tmin := times.foldl Nat.min tmax
  let q := if tmax = 0 then 0 else Nat.min 255 (256 * (tmax - tmin) / tmax)
  let ns := Word.bits table 0 2 + 1
  let thr := fun k => if k = 0 then 0 else Word.bits table (8 * k) 8
  (((List.range ns).filter (fun k => thr k ≤ q)).foldl Nat.max 0, q)

/-- Arrival times of the watches of a launch after the release of the phase, R186. A watch that has ended is among those that
`gone` holds, if it ended in the phase. -/
def State.phaseTimes (s : State) (l : Launch) (g : Group) : List Nat :=
  let ofCores := fun (cs : List Core) =>
    let late := cs.filter (fun c => c.arrived && decide (g.relAt ≤ c.arrAt))
    if late.isEmpty then none else some (late.foldl (fun m c => Nat.max m (c.arrAt - g.relAt)) 0)
  ((l.tiles.filter (fun t => !(s.tile t).draining)).filterMap (fun t => ofCores (CoreK.all.map (fun k => s.core t k)))) ++
  (l.saved.filterMap (fun w => ofCores (CoreK.all.map (fun k => smGet Core.init w.cores k.idx)))) ++
  (g.gone.map (fun a => a - g.relAt))

/-- Writes the slip log of a plan (R188): one more slip, with its words 1 to 3. -/
def State.slipLog (s : State) (j : Job) (p : List Word) (tick phase late w3 : Nat) : State :=
  let va := (wd p 2).toNat % 2 ^ 56
  let (n, s) := match s.gRead j va 8 with
    | .ok (bs, s) => (ofBytes bs % 2 ^ 32, s)
    | .error f => (0, s.noteBad f)
  let put := fun (s : State) i v => s.gPut j (va + 8 * i) (toBytes 8 v)
  put (put (put (put s 0 ((n + 1) % 2 ^ 32)) 1 (tick % 2 ^ 32 * 2 ^ 32 + phase % 16)) 2 late) 3 w3

/-- The record of TICK_SLIP, phase CANCEL and GANG_SLIP (R387). -/
def groupTrap (t : Nat) (code : Byte) : TrapInfo := mkTrap code 0 0 15 t 0

/-- Adds a pending event of an item of R387 to every core of a launch that runs a task. -/
def State.pendGroup (s : State) (l : Launch) (item : Nat) (code : Byte) : State :=
  let add := fun t (c : Core) =>
    if c.pend.any (fun p => p.item == item) then c else { c with pend := c.pend ++ [{ item := item, info := groupTrap t code }] }
  let s := l.tiles.foldl (fun s t => s.updTile t (fun x =>
    { x with cores := x.cores.map (fun (k, c) => (k, if c.run = .off then c else add t c)) })) s
  match s.launch? l.id with
  | some l => s.setLaunch { l with saved := l.saved.map (fun w =>
      { w with cores := w.cores.map (fun (k, c) => (k, if c.run = .off then c else add w.tile c)) }) }
  | none => s

/-- Release of a phase: every waiting TICKWAIT completes (R183); a slip is recorded with word 3 of the log (R188). -/
def State.release (s : State) (l : Launch) (g : Group) (slip : Option Nat) : State :=
  let s := match slip, s.job? l.jid with
    | some w3, some j => match j.plan with
      | some p =>
        let s := s.slipLog j p g.tick g.phase (s.gtc - planStart p g.tick g.phase) w3
        if (wd p 1).getLsbD 11 then s.pendGroup l 7 Code.tickSlip else s
      | none => s
    | _, _ => s
  let s := s.mapLaunchCores l (fun c => { c with released := c.ready, ready := false, arrived := false })
  match s.launch? l.id with
  | some l => s.setLaunch { l with grp := some { g with
      st := .running, relAt := s.gtc, start := none, come := false, gone := [] } }
  | none => s

/-- The watch on a tile is the last of its group to become ready (R188). -/
def State.noteReady (s : State) (t : Nat) : State :=
  match (s.tile t).watch with
  | some w => match s.launch? w.launch with
    | some l => s.setLaunch { l with grp := l.grp.map (fun g => { g with lastVtn := w.vtn }) }
    | none => s
  | none => s

/-- The transitions of a phase group that its state makes due (R183); none once its last watch has ended, for the group has ended
with it. -/
def State.groupCheck (s : State) (id : Nat) : State :=
  match s.launch? id with
  | none => s
  | some l => match l.grp with
    | none => s
    | some g =>
      let cores := s.launchCores l
      let live := cores.filter (fun c => c.run != .off)
      -- the boundary: the last core arrives
      let s := if g.st = .running ∧ !live.isEmpty ∧ live.all (fun c => c.arrived) then
          let (sel, q) := if g.cancelledPhase then (g.sel, g.qlast)
            else if (wd l.d 10) = 0 then (0, (selectorOf 0 (s.phaseTimes l g)).2)
            else selectorOf g.sel0 (s.phaseTimes l g)
          let last := match s.planOf l with
            | some p => g.phase + 1 == planNph p
            | none => false
          let g := { g with st := .boundary, sel := sel, qlast := q, phase := if last then 0 else g.phase + 1,
                            tick := if last then g.tick + 1 else g.tick, cancelledPhase := false }
          (s.mapLaunchCores l (fun c => { c with cphs := g.cphs })).setLaunch
            { (s.launch? id).getD l with grp := some g }
        else s
      match (s.launch? id).bind (·.grp) with
      | none => s
      | some g =>
        let ready := !live.isEmpty && live.all (fun c => c.ready)
        match g.st with
        | .running => s
        | .boundary =>
          if (s.planOf l).isNone then (if ready then s.release l g none else s)
          else if g.come then (if ready then s.release l g (some (g.lastVtn % 4096)) else
            s.setLaunch { (s.launch? id).getD l with grp := some { g with st := .late } })
          else s
        | .late => if ready then s.release l g (some (g.lastVtn % 4096)) else s

/-! ## Votes (R270) -/

/-- Every core of a launch with the gang and the virtual tile number of its watch. -/
def State.voters (s : State) (l : Launch) : List (Nat × Nat × Core) :=
  (l.tiles.flatMap (fun t => match (s.tile t).watch with
    | some w => CoreK.all.map (fun k => (w.gang, w.vtn, s.core t k))
    | none => [])) ++
  l.saved.flatMap (fun w => CoreK.all.map (fun k => (w.gang, w.vtn, smGet Core.init w.cores k.idx)))

/-- The cores of a vote's scope, for a core of a gang and a watch: 0 WATCH, 1 GANG, 2 GROUP. -/
def voteScope (pool : List (Nat × Nat × Core)) (scope gang vtn : Nat) : List Core :=
  (pool.filter (fun (g, v, _) => match scope with
    | 0 => v == vtn
    | 1 => g == gang
    | _ => true)).map (fun (_, _, c) => c)

/-- The result of a kind of vote over its inputs. -/
def voteResult (isV : Bool) (kind : Nat) (ins : List Word) : Word :=
  let trues := ins.filter (fun a => a != 0)
  match isV, kind with
  | false, 0 => wordB (!trues.isEmpty)
  | false, 1 => wordB (trues.length == ins.length)
  | false, _ => word trues.length
  | true, 0 => ins.foldl (fun m a => if m.toInt < a.toInt then a else m) (ins.headD 0)
  | true, 1 => ins.foldl (fun m a => if a.toInt < m.toInt then a else m) (ins.headD 0)
  | true, 2 => ins.foldl (fun m a => m + a) 0
  | true, _ => ins.foldl (fun m a => if m.toNat < a.toNat then a else m) (ins.headD 0)

/-- A core after its votes are looked at: it receives a result when every running core of the scope has voted. -/
def voteGive (pool : List (Nat × Nat × Core)) (gang vtn : Nat) (c : Core) : Core :=
  { c with votes := c.votes.map (fun v =>
      let ms := voteScope pool v.scope gang vtn
      if v.res.isNone ∧ ms.all (fun d => d.run == .off || decide (v.k < smGet 0 d.vcount v.scope)) then
        let ins := ms.filterMap (fun d => (d.votes.find? (fun u => u.scope == v.scope && u.k == v.k)).map (·.val))
        { v with res := some (voteResult v.isV v.kind ins) }
      else v) }

/-- Completes the votes of a launch that are complete. -/
def State.voteSettle (s : State) (id : Nat) : State :=
  match s.launch? id with
  | none => s
  | some l =>
    let pool := s.voters l
    let s := l.tiles.foldl (fun s t => s.updTile t (fun x => match x.watch with
      | some w => { x with cores := x.cores.map (fun (k, c) => (k, voteGive pool w.gang w.vtn c)) }
      | none => x)) s
    s.setLaunch { l with saved := l.saved.map (fun w =>
      { w with cores := w.cores.map (fun (k, c) => (k, voteGive pool w.gang w.vtn c)) }) }

/-! ## The end of a task and of a watch (R178, R401) -/

/-- What a watch exit drops of a copy: its tag bit, and its signal if it names one (R401). -/
def TagRec.drops (r : TagRec) : Nat := if r.sinc = 0 then 1 else 2

/-- Drops the FAULTED and SUSPENDED copies of a watch that exits: the tag bit and the signal of each are counted (R401). -/
def Tile.dropCopies (x : Tile) : Tile :=
  let gone := x.tags.filter (fun (_, r) => r.st == .faulted || r.st == .suspended)
  let y := gone.foldl (fun y (_, r) => y.dropP r.held) x
  { y with tags := y.tags.filter (fun (_, r) => !(r.st == .faulted || r.st == .suspended))
           drain := y.drain + (gone.map (fun (_, r) => r.drops)).foldl (· + ·) 0 }

/-- The watch on a tile exits: the tile drains (R178, R401). An overflow that no core of it has taken is counted (R206). -/
def State.watchExit (s : State) (t : Nat) : State :=
  let s := match (s.tile t).semOvf with
    | some o => s.count 0x70 (1 + o.again)
    | none => s
  let s := s.updTile t (fun x =>
    Tile.dropCopies { x with draining := true, drainOf := x.watch.map Watch.launch, semOvf := none })
  match s.launchOn t with
  | none => s
  | some id => match s.launch? id with
    | some l => match l.grp with
      | some g =>
        let at_ := (CoreK.all.map (fun k => (s.core t k).arrAt)).foldl Nat.max 0
        s.setLaunch { l with grp := some { g with gone := if g.relAt ≤ at_ then at_ :: g.gone else g.gone } }
      | none => s
    | none => s

/-- A tile task ends, by END, an outermost RET or a cancel (R178, R189). -/
def State.taskEnd (s : State) (t : Nat) (k : CoreK) (cancelled : Bool) : State :=
  if (s.core t k).run = .off then s
  else
    let s := s.leaveJoin t k
    let c := s.core t k
    let s := match c.pend.find? (fun p => p.item == 6) with
      | some p => s.updTile t (fun x => { x with semOvf := some {
          sem := p.info.cfad.toNat, by_ := p.info.cfdw.toNat % 8, again := p.more } })
      | none => s
    let s := s.setCore t k { c with
      run := .off, chunk := none, waiting := none, granted := false, stalled := false,
      votes := [], taking := [], pend := [], due := [], ext := none, walks := [], cancelled := false, prq := false,
      left := 0, arrived := true, arrAt := s.gtc, ready := false, released := false }
    match s.launchOn t with
    | none => s
    | some id =>
      let s := ((s.noteReady t).countEnd id 1 cancelled.toNat).voteSettle id
      let s := if CoreK.all.all (fun k => (s.core t k).run == .off) then s.watchExit t else s
      s.groupCheck id

/-- A virtual function that is STOPPING becomes STOPPED when no tile holds a watch of a job of it (R432). -/
def State.migSettle (s : State) : State :=
  let held := s.tiles.filterMap (fun (t, _) => s.vfOn t)
  { s with mig := s.mig.map (fun (v, m) => (v, if m.state = 1 ∧ !held.contains v then { m with state := 2 } else m)) }

/-- Whether a draining tile has nothing outstanding (R401). -/
def State.drained (s : State) (t : Nat) : Bool :=
  let x := s.tile t
  x.draining && x.mq.isEmpty && x.zq.isEmpty && x.tags.all (fun (_, r) => r.st != .busy) &&
  !(s.ports.any (fun (_, p) => p.queue.any (fun e => e.t == t)))

/-- Draining ends: every tag is FREE, every P is 0, and the tile is free; its launch may complete (R176, R401). -/
def State.drainDone (s : State) (t : Nat) : State :=
  if !s.drained t then s
  else
    let x := s.tile t
    let s := (s.setTile t { x with watch := none, draining := false, drainOf := none, drain := 0, tags := [], pcnt := [] }).count
      0x48 x.drain
    let s := match x.drainOf with
      | none => s
      | some id => match s.launch? id with
        | none => s
        | some l => (s.setLaunch { l with tiles := l.tiles.filter (fun u => u != t) }).launchSettle id
    s.migSettle

end Sys2Proof.Machine
end

