-- ==== Sys2Proof/Machine/Array.lean ====
section
/-!
DEFINITION. The matrix array: block state words, what an instruction sets at issue, the sums of R135 and R136, and the work
of each instruction of R315 when the array performs it (R308 to R331).
Log entries (notes/assumptions): 18 DEDUCED, 34 DEDUCED, 36 DEDUCED, 52 DEDUCED.
-/
namespace Sys2Proof.Machine

/-! ## Block state words (R309) -/

def accTag (w : Word) : Nat := Word.bits w 0 8
def accStatus (w : Word) : Nat := Word.bits w 8 3
def accR (w : Word) : Bool := w.getLsbD 11
def accSh (w : Word) : Bool := w.getLsbD 12
def accMode (w : Word) : Nat := Word.bits w 13 2

/-- A state word from its fields; status holds OVF, SAT and INV from its low bit on. -/
def accWord (tag status : Nat) (r sh : Bool) (mode : Nat) : Word :=
  word (tag % 256 + status % 8 * 2 ^ 8 + r.toNat * 2 ^ 11 + sh.toNat * 2 ^ 12 + mode % 4 * 2 ^ 13)

def Tile.block (x : Tile) (k : Nat) : Word := smGet 0 x.acc k

def Tile.setBlock (x : Tile) (k : Nat) (w : Word) : Tile := { x with acc := smPut x.acc k w }

/-- ORs status bits into a block. -/
def Tile.blockFlags (x : Tile) (k status : Nat) : Tile :=
  x.setBlock k (x.block k ||| word (status % 8 * 2 ^ 8))

/-- Replaces a block's status. -/
def Tile.setStatus (x : Tile) (k status : Nat) : Tile :=
  let w := x.block k
  x.setBlock k (accWord (accTag w) status (accR w) (accSh w) (accMode w))

/-- The status bits of CFLAG flags: OVF, SAT and INV (R140). -/
def statusOf (flags : Nat) : Nat := (flags / 4 % 2) + (flags / 32 % 2) * 2 + (flags % 2) * 4

/-- The CFLAG flags of status bits. -/
def flagsOf (status : Nat) : Nat := flagIf (status % 2 == 1) fOVF ||| flagIf (status / 2 % 2 == 1) fSAT |||
  flagIf (status / 4 % 2 == 1) fINV

/-! ## Matrix types (R313) -/

def mtWidth (t : Nat) : Nat := if t = 0 then 16 else if t < 5 then 8 else 4
def mtFour (t : Nat) : Bool := decide (4 < t)
def mtScaled (t : Nat) : Bool := t == 4 || t == 5

/-- Bytes of n elements. -/
def mtBytes (t n : Nat) : Nat := ceilDiv (n * mtWidth t) 8

/-- Kmax of two types. -/
def mtKmax (a b : Nat) : Nat := if mtFour a && mtFour b then 256 else 128

/-- An exact value as a matrix value: every element type is dyadic. -/
def mvOf (v : FV) : MVal :=
  match v with
  | .nan _ _ => .nan
  | .inf neg => .inf neg
  | .fin neg n d => .fin (sgn neg n) (-(Nat.log2 d : Int))

/-- The exact value of an element's bits, with its block's exponent byte and the entries of its slot (R126). -/
def mtDecode (t : Nat) (cb : List FV) (x bits : Nat) : MVal :=
  mvOf (match t with
    | 0 => (ffmt 2).decode bits
    | 1 => (ffmt 4).decode bits
    | 2 => (ffmt 3).decode bits
    | 3 => FV.ofInt (signedOf 8 bits)
    | 4 => blockValue 0 [] x bits
    | 5 => blockValue 1 [] x bits
    | 6 => h4Value bits
    | _ => decodeFrom 6 cb bits)

/-- Element e of the packed elements at a place: its bits (R120). -/
def State.elemAt (s : State) (key t e : Nat) : Nat :=
  match mtWidth t with
  | 16 => s.readNat 0 (key + 2 * e) 2
  | 8 => s.readNat 0 (key + e) 1
  | _ => s.readNat 0 (key + e / 2) 1 / 2 ^ (4 * (e % 2)) % 16

/-! ## Sums (R135, R136) -/

/-- The product of two values; none for 0 × ∞. -/
def mvMul (a b : MVal) : Option MVal :=
  match a, b with
  | .nan, _ | _, .nan => some .nan
  | .fin m e, .fin n f => some (.fin (m * n) (e + f))
  | .inf s, .inf t => some (.inf (s != t))
  | .inf s, .fin n _ => if n = 0 then none else some (.inf (s != decide (n < 0)))
  | .fin m _, .inf t => if m = 0 then none else some (.inf (decide (m < 0) != t))

/-- The exact sum of two finite values m·2^e. -/
def dyAdd (a b : Int × Int) : Int × Int :=
  if a.1 = 0 then b
  else if b.1 = 0 then a
  else if a.2 ≤ b.2 then (a.1 + b.1 * 2 ^ (b.2 - a.2).toNat, a.2)
  else (a.1 * 2 ^ (a.2 - b.2).toNat + b.1, b.2)

/-- A group's exact sum, and whether it sets INV (R135). -/
def groupSum (ps : List (MVal × MVal)) : FV × Bool :=
  let prods := ps.map (fun (a, b) => mvMul a b)
  let bad := prods.any (·.isNone)
  let nan := prods.any (· == some .nan)
  let pos := prods.any (· == some (.inf false))
  let neg := prods.any (· == some (.inf true))
  if bad ∨ nan ∨ (pos ∧ neg) then (.nan false false, bad || (pos && neg))
  else if pos then (.inf false, false)
  else if neg then (.inf true, false)
  else
    let (m, e) := prods.foldl (fun acc p => match p with
      | some (.fin m e) => dyAdd acc (m, e)
      | _ => acc) (0, 0)
    (FV.dyadic (decide (m < 0)) m.natAbs e, false)

/-- Adds the groups of one pair of a row and a column, rising along K, to an element: its bits and the status (R135,
R136). -/
def accumulate (intMode : Bool) : Nat → Nat → List (MVal × MVal) → Nat × Nat
  | 0, c, _ => (c, 0)
  | fuel + 1, c, ps =>
    if ps.isEmpty then (c, 0)
    else
      let g := ps.take 32
      let (c', st) :=
        if intMode then
          let sum := g.foldl (fun acc (a, b) => match a, b with
            | .fin m e, .fin n f => acc + m * n * 2 ^ (e + f).toNat
            | _, _ => acc) (0 : Int)
          let y := signedOf 32 c + sum
          ((y % 2 ^ 32).toNat, if -(2 ^ 31) ≤ y ∧ y < 2 ^ 31 then 0 else 1)
        else
          let (v, inv) := groupSum g
          let (gb, f1) := (ffmt 0).round rne false v
          let (w, f2) := fvAdd 0 ((ffmt 0).decode c) ((ffmt 0).decode gb)
          let (cb, f3) := (ffmt 0).round rne false w
          (cb, statusOf ((f1 &&& fOVF) ||| (f2 &&& fINV) ||| (f3 &&& fOVF) ||| flagIf inv fINV))
      let (c'', st') := accumulate intMode fuel c' (ps.drop 32)
      (c'', st ||| st')

/-! ## Elements of AS -/

/-- Place of an element of a block. -/
def asKey (t k row col : Nat) : Nat := tileKey t 3 (k * 16384 + row * 256 + col * 4)

def State.asGet (s : State) (t k row col : Nat) : Nat := s.readNat 0 (asKey t k row col) 4

/-- Writes an element. AS is reached by no chunk, so no chunk meets the write. -/
def State.asPut (s : State) (t k row col v : Nat) : State := s.pokeBytes 0 (asKey t k row col) (toBytes 4 v)

/-- The data of a block as bytes. -/
def State.asBlock (s : State) (t k : Nat) : List Byte := s.readBytes 0 (tileKey t 3 (k * 16384)) 16384

def State.asFill (s : State) (t k : Nat) (bs : List Byte) : State := s.pokeBytes 0 (tileKey t 3 (k * 16384)) bs

/-- A block's data becomes zero. -/
def State.asClear (s : State) (t k : Nat) : State :=
  let lo := tileKey t 3 (k * 16384)
  { s with mem := smClear s.mem lo (lo + 16384), poison := s.poison.filter (fun p => !(lo ≤ p && p < lo + 16384)) }

/-! ## Issue: what a handed-over instruction sets at once -/

/-- Changes the state word of a block, keeping its status. -/
def Tile.setMeta (x : Tile) (k tag : Nat) (r sh : Bool) (mode : Nat) : Tile :=
  x.setBlock k (accWord tag (accStatus (x.block k)) r sh mode)

/-- The tag a block takes when an instruction of a context names it (R310). -/
def claimed (w : Word) (tag : Byte) : Nat := if accTag w = 0 then tag.toNat else accTag w

/-- The slabs on which P is raised, each once (R51). -/
def MOp.slabs (m : MOp) : List SlabId := (m.heldA ++ m.held).dedup

/-- What a redundant instruction does to a block and its shadow (R325). -/
def Tile.pairUp (x : Tile) (k : Nat) (m : MOp) : Tile :=
  let w := x.block k
  let tag := claimed w m.tag
  let mode := if m.writes.contains k then m.mode else accMode w
  (x.setMeta k tag true false mode).setMeta (k + 8) tag false true mode

def Tile.bank (x : Tile) (n : Nat) : Bank := smGet Bank.init x.banks n

def Tile.updBank (x : Tile) (n : Nat) (f : Bank → Bank) : Tile :=
  { x with banks := smPut x.banks n (f (x.bank n)) }

/-- State words and banks after an instruction is handed to the array: claims, MODE, R and SH (R309, R310, R319, R325,
R327, R330, R331). -/
def Tile.matrixMeta (x : Tile) (m : MOp) : Tile :=
  match m.kind with
  | .gang => x
  | .ldb => x.updBank (m.x.mod.toNat / 4 % 2) (fun b => { b with loaded := true, ty := m.bty, kb := m.kb, nb := m.nb })
  | .mma | .mmg | .mmv =>
    m.blocks.foldl (fun x k =>
      let w := x.block k
      if m.pairs.contains k then x.pairUp k m
      else x.setMeta k (claimed w m.tag) (accR w) (accSh w) (if m.writes.contains k then m.mode else accMode w)) x
  | .clr => m.blocks.foldl (fun x k =>
      let y := x.setMeta k m.tag.toNat false false 0
      if accR (x.block k) then y.setMeta (k + 8) m.tag.toNat false false 0 else y) x
  | .drain => m.blocks.foldl (fun x k =>
      let w := x.block k
      x.setMeta k (claimed w m.tag) (accR w) (accSh w) (accMode w)) x
  | .spill => m.blocks.foldl (fun x k =>
      let y := { x.setMeta k 0 false false 0 with accNote := smErase x.accNote k }
      if accR (x.block k) then { y.setMeta (k + 8) 0 false false 0 with accNote := smErase y.accNote (k + 8) } else y) x
  | .fill => m.blocks.foldl (fun x k =>
      let w := m.sts.headD 0
      let y := x.setMeta k (accTag w) (accR w) false (accMode w)
      if accR w then y.setMeta (k + 8) (accTag w) false true (accMode w) else y) x

/-- An instruction is handed to the array: P rises, and its claims are made (R308, R310). -/
def State.matrixIssue (s : State) (t : Nat) (m : MOp) : State :=
  s.updTile t (fun x =>
    let y := x.addP m.slabs
    if m.kind = .gang then y else { y.matrixMeta m with mq := x.mq ++ [m] })

/-! ## The array's work -/

/-- Shape fields (R314). -/
def shapeRows (w : Word) : Nat := Word.bits w 0 9
def shapeK (w : Word) : Nat := Word.bits w 16 9
def shapePitch (w : Word) (packed : Nat) : Nat := if Word.bits w 32 16 = 0 then packed else Word.bits w 32 16

/-- Row i of A, from the leader's AB (R313, R316, R320, R322). -/
def State.aRow (s : State) (m : MOp) (xa i : Nat) : List MVal :=
  let t := m.x.fmt.toNat
  let rows := shapeRows m.b
  let k := shapeK m.b
  let base := tileKey m.lead 2 (bufOfs m.a)
  let cb := (s.tile m.lead).codebook (m.x.imm.toNat % 8)
  let order := m.x.mod.getLsbD 1
  let pa := shapePitch m.b (mtBytes t (if order then rows else k))
  (List.range k).map (fun kk =>
    let e := if mtScaled t then s.readNat 0 (tileKey m.lead 2 (xa % 2 ^ 20 + i * (k / 32) + kk / 32)) 1 else 0
    mtDecode t cb e (if order then s.elemAt (base + kk * pa) t i else s.elemAt (base + i * pa) t kk))

/-- The values of B that an MLDB loads, element (k, n) at key 64k + n (R319). -/
def State.bankVals (s : State) (t : Nat) (m : MOp) : SMap MVal :=
  let ty := m.bty
  let order := m.x.mod.getLsbD 1
  let pb := shapePitch m.b (mtBytes ty (if order then m.kb else m.nb))
  let base := tileKey t 1 (bufOfs m.a)
  let cb := (s.tile t).codebook (m.x.imm.toNat % 8)
  (List.range m.kb).flatMap (fun k => (List.range m.nb).map (fun n =>
    let e := if mtScaled ty then s.readNat 0 (tileKey t 1 (bufOfs m.c + n * (m.kb / 32) + k / 32)) 1 else 0
    (64 * k + n, mtDecode ty cb e (if order then s.elemAt (base + n * pb) ty k else s.elemAt (base + k * pb) ty n))))

/-- Adds to one element of C, first cleared when `clear`: block, row, column, the row of A and the column of B. -/
def State.macc (s : State) (t : Nat) (m : MOp) (clear : Bool) (k row col : Nat) (a b : List MVal) : State :=
  let old := if clear then 0 else s.asGet t k row col
  let (v, st) := accumulate (m.mode == 2) (a.length + 1) old (a.zip b)
  (s.asPut t k row col v).updTile t (fun x => x.blockFlags k st)

/-- MMA: the region of M rows by NB columns (R320, R321). -/
def State.mmaRun (s : State) (t : Nat) (m : MOp) : State :=
  let bank := (s.tile t).bank (m.x.mod.toNat / 4 % 2)
  let k := shapeK m.b
  let clear := m.x.mod.getLsbD 0
  if k = 0 ∧ !clear then s
  else (List.range (shapeRows m.b)).foldl (fun s i =>
    let a := s.aRow m m.c.toNat i
    (List.range m.nb).foldl (fun s n =>
      s.macc t m clear (m.blocks.headD 0 + i / 64) (i % 64) n a
        ((List.range k).map (fun kk => smGet (.fin 0 0) bank.vals (64 * kk + n)))) s) s

/-- Fields of an entry of the adapter-pointer table (R323). -/
def entBase (w : Word) : Nat := Word.bits w 0 32
def entNone (w : Word) : Bool := entBase w == 0xFFFFFFFF
def entNb (w : Word) : Nat := Word.bits w 32 7
def entType (w : Word) : Nat := Word.bits w 40 3
def entCbs (w : Word) : Nat := Word.bits w 43 3

/-- MMG: rows in blocks of 16, each with its own B (R323). `xa` is the leader's XA. -/
def State.mmgRun (s : State) (t : Nat) (m : MOp) (xa : Nat) : State :=
  let k := shapeK m.b
  let clear := m.x.mod.getLsbD 0
  (List.range (shapeRows m.b)).foldl (fun s i =>
    let w := wd m.tab (2 + 2 * (i / 16))
    let w1 := wd m.tab (3 + 2 * (i / 16))
    let ty := entType w
    let blk := m.blocks.headD 0 + i / 64
    let s := if clear then (List.range 64).foldl (fun s n => s.asPut t blk (i % 64) n 0) s else s
    if entNone w ∨ k = 0 then s
    else
      let a := s.aRow m xa i
      let cb := (s.tile t).codebook (entCbs w)
      let base := tileKey t 1 (entBase w % 2 ^ 20)
      let row := mtBytes ty (entNb w)
      (List.range (entNb w)).foldl (fun s n =>
        s.macc t m false blk (i % 64) n a ((List.range k).map (fun kk =>
          let e := if mtScaled ty then s.readNat 0 (tileKey t 1 (Word.bits w1 0 20 + n * (k / 32) + kk / 32)) 1 else 0
          mtDecode ty cb e (s.elemAt (base + kk * row) ty n)))) s) s

/-- The place of a global byte in a map of 64 KiB pages (R324, R330). -/
def pagePlace (pages : SMap (Nat × Nat)) (va : Nat) : Place :=
  let (n, kn) := smGet (0, 0) pages (va % 2 ^ 56 / 2 ^ 16)
  let p := n + va % 2 ^ 16
  if p < 2 ^ 72 then .mem p kn false
  else if p < 2 ^ 73 then .host (p - 2 ^ 72)
  else .remote ((p - 2 ^ 73) / 2 ^ 44) (p % 2 ^ 44)

/-- The first address that `n` bytes from one have in each 64 KiB page. -/
def pageStarts (va n : Nat) : List Nat :=
  if n = 0 then []
  else (List.range ((va + n - 1) / 2 ^ 16 - va / 2 ^ 16 + 1)).map (fun i =>
    (if i = 0 then va else (va / 2 ^ 16 + i) * 2 ^ 16) % 2 ^ 56)

/-- Translates one address in each page of a range: the map of the pages, or the first address that faults. -/
def State.mapPages (xl : State → Nat → Except (Byte × Nat) (Place × State)) :
    List Nat → State → Except (Nat × Byte × Nat) (SMap (Nat × Nat) × State)
  | [], s => .ok ([], s)
  | va :: rest, s =>
    match xl s va with
    | .error (code, cause) => .error (va, code, cause)
    | .ok (p, s) =>
      let kn := match p with
        | .mem _ kn _ => kn
        | _ => 0
      match State.mapPages xl rest s with
      | .error e => .error e
      | .ok (m, s) => .ok (smPut m (va / 2 ^ 16) (p.num - va % 2 ^ 16, kn), s)

/-- MMV (R324). Its weights lie in local HBM. -/
def State.mmvRun (s : State) (t : Nat) (m : MOp) : State :=
  let rows := Word.bits m.c 0 4
  let k := Word.bits m.c 16 16
  let cols := Word.bits m.c 32 11
  let at_ := m.x.mod.toNat % 8
  let bt := m.x.fmt.toNat
  let clear := m.x.mod.getLsbD 3
  let ra := roundUp (mtBytes at_ k) 64
  let pb := if m.x.imm.toNat % 2 ^ 16 = 0 then roundUp (mtBytes bt cols) 64 else m.x.imm.toNat % 2 ^ 16 * 64
  let weight := fun (kk n : Nat) =>
    let va := Word.bits m.b 0 56 + kk * pb + n * mtWidth bt / 8
    match pagePlace m.pages va, pagePlace m.pages (va + 1) with
    | .mem p kn _, .mem p' kn' _ =>
      let raw := s.readNat kn p 1
      let raw := if mtWidth bt = 16 then raw + 256 * s.readNat kn' p' 1 else raw
      mtDecode bt [] 0 (if mtWidth bt = 4 then raw / 2 ^ (4 * (n % 2)) % 16 else raw)
    | _, _ => .fin 0 0
  if k = 0 ∧ !clear then s
  else (List.range rows).foldl (fun s i =>
    let a := (List.range k).map (fun kk => mtDecode at_ [] 0 (s.elemAt (tileKey t 2 (bufOfs m.a + i * ra)) at_ kk))
    (List.range cols).foldl (fun s n =>
      s.macc t m clear (m.blocks.headD 0 + n / 64) i (n % 64) a ((List.range k).map (fun kk => weight kk n))) s) s

/-- Copies each block that was not redundant into its shadow before the work of a redundant instruction (R325). -/
def State.shadowCopy (s : State) (t : Nat) (m : MOp) : State :=
  (m.blocks.zip m.sts).foldl (fun s (k, w) =>
    if accR w ∨ !m.pairs.contains k then s
    else (s.asFill t (k + 8) (s.asBlock t k)).updTile t (fun x => x.setStatus (k + 8) (accStatus (x.block k)))) s

/-- A block with MODE 0 reads as zero in both modes, so its data is zero when an instruction first writes it (R309). -/
def State.freshBlocks (s : State) (t : Nat) (m : MOp) : State :=
  (m.blocks.zip m.sts).foldl (fun s (k, w) =>
    if accMode w ≠ 0 ∨ !m.writes.contains k then s
    else if accR w then (s.asClear t k).asClear t (k + 8) else s.asClear t k) s

/-- The instruction as its second half performs it, into the shadows (R325). -/
def MOp.shadow (m : MOp) : MOp := { m with blocks := m.blocks.map (· + 8), writes := m.writes.map (· + 8) }

/-! ## Draining, spilling and filling (R326, R328, R330, R331) -/

/-- Format code and size of a drain type (R315). -/
def drainType (f : Nat) : Nat × Nat :=
  match f with
  | 0 => (0, 4)
  | 1 => (2, 2)
  | 2 => (1, 2)
  | 3 => (4, 1)
  | 4 => (3, 1)
  | 5 => (11, 4)
  | 6 => (9, 2)
  | _ => (7, 1)

def drainRows (m : MOp) : Nat := Word.bits m.b 0 9
def drainCols (m : MOp) : Nat := Word.bits m.b 16 7

/-- State word of block number j of a region, as the instruction issued. -/
def MOp.st (m : MOp) (j : Nat) : Word := m.sts.getD j 0

/-- The first element that a drain finds different from its shadow, row by row; or the block whose status differs. -/
def State.mismatch (s : State) (t : Nat) (m : MOp) : Option Nat :=
  let k0 := m.blocks.headD 0
  let cells := (List.range (drainRows m)).flatMap (fun i => (List.range (drainCols m)).map (fun n => (i, n)))
  let cell := cells.find? (fun (i, n) =>
    accR (m.st (i / 64)) && s.asGet t (k0 + i / 64) (i % 64) n != s.asGet t (k0 + i / 64 + 8) (i % 64) n)
  match cell with
  | some (i, n) => some (0x30000000 + (k0 + i / 64) * 0x4000 + i % 64 * 256 + n * 4)
  | none =>
    match m.blocks.zipIdx.find? (fun (k, j) => accR (m.st j) &&
        accStatus ((s.tile t).block k) != accStatus ((s.tile t).block (k + 8))) with
    | some (k, _) => some (0x30000000 + k * 0x4000)
    | none => none

/-- MDRAIN: the writes to AB, the elements cleared with Z, the status it clears, and the flags for CFLAG (R328, R140). -/
def State.drainRun (s : State) (t : Nat) (m : MOp) : State × Nat :=
  let (code, size) := drainType m.x.fmt.toNat
  let sat := m.x.mod.getLsbD 0
  let k0 := m.blocks.headD 0
  let pd := if Word.bits m.b 32 16 = 0 then drainCols m * size else Word.bits m.b 32 16
  let step := fun (acc : State × Nat) (i n : Nat) =>
    let (s, fl) := acc
    let blk := k0 + i / 64
    let mode := accMode (m.st (i / 64))
    let raw := s.asGet t blk (i % 64) n
    let v := if mode = 0 then FV.fin false 0 1 else if mode = 2 then FV.ofInt (signedOf 32 raw) else (ffmt 0).decode raw
    let (bits, f) := convertTo code rne sat (mode == 2) [] v
    let s := s.commitBytes t none 0 (tileKey t 2 (bufOfs m.a + i * pd + n * size)) (toBytes size bits)
    let s := if m.x.mod.getLsbD 1 then
        let s := s.asPut t blk (i % 64) n 0
        if accR (m.st (i / 64)) then s.asPut t (blk + 8) (i % 64) n 0 else s
      else s
    (s, fl ||| f)
  let (s, fl) := (List.range (drainRows m)).foldl (fun acc i =>
    (List.range (drainCols m)).foldl (fun acc n => step acc i n) acc) (s, 0)
  let touched := if drainRows m = 0 ∨ drainCols m = 0 then m.blocks.zipIdx.take 1 else m.blocks.zipIdx
  touched.foldl (fun (s, fl) (k, j) =>
    let f := flagsOf (accStatus ((s.tile t).block k))
    (s.updTile t (fun x =>
      let y := x.setStatus k 0
      if accR (m.st j) then y.setStatus (k + 8) 0 else y), fl ||| f)) (s, fl)

/-- The 64-byte pieces of a block's record, by offset. -/
def recordPieces : List Nat := (List.range 256).map (fun i => 64 * i)

/-- Writes a block's data and state word at places, and clears it (R330): `put` makes each write. `w` is the word without
status. -/
def State.spillRun (s : State) (t k : Nat) (w : Word) (put : State → Place → List Byte → State) (dataAt : Nat → Place)
    (wordAt : Place) : State :=
  let bs := s.asBlock t k
  let st := accStatus ((s.tile t).block k)
  let s := recordPieces.foldl (fun s o => put s (dataAt o) ((bs.drop o).take 64)) s
  let s := put s wordAt (toBytes 8 (accWord (accTag w) st (accR w) (accSh w) (accMode w)).toNat)
  let clear := fun (s : State) (k : Nat) => (s.asClear t k).updTile t (fun x => x.setStatus k 0)
  let s := clear s k
  if accR w then clear s (k + 8) else s

/-- Puts data into a block, with the status of a state word, and into its shadow when the word has R (R331). -/
def State.fillRun (s : State) (t k : Nat) (w : Word) (bs : List Byte) : State :=
  let put := fun (s : State) (k : Nat) => (s.asFill t k bs).updTile t (fun x => x.setStatus k (accStatus w))
  let s := put s k
  if accR w then put s (k + 8) else s

/-! ## The row save engine's spills and fills of blocks (R397, R399) -/

/-- Where a save record of a job begins (R71). -/
def recordBase (j : Job) (vtn : Nat) : Nat := j.saveb.toNat % 2 ^ 56 + vtn * 2 ^ 22

/-- The walks for block k's data and state word in a record: their pages, or the fault that stops them. -/
def State.recordWalk (s : State) (j : Job) (base k : Nat) (write : Bool) :
    Except (Nat × Byte × Nat) (SMap (Nat × Nat) × State) :=
  State.mapPages (fun s va => s.xlateJob j write va)
    (pageStarts (base + 0x120000 + 0x4000 * k) 16384 ++ pageStarts (base + 0xC0 + 8 * k) 8) s

/-- The pages of block k's data and state word in a record. -/
def State.recordPages (s : State) (j : Job) (base k : Nat) (write : Bool) : Option (SMap (Nat × Nat) × State) :=
  match s.recordWalk j base k write with
  | .ok r => some r
  | .error _ => none

/-- The fault, if any, of the walks for block k in a record. -/
def State.recordFault (s : State) (j : Job) (base k : Nat) (write : Bool) : Option (Byte × Nat) :=
  match s.recordWalk j base k write with
  | .ok _ => none
  | .error f => some f.2

/-- Spills a block left on a tile into its owner's record and clears it (R397); none when it cannot be. A shadow goes with its
block (R330). -/
def State.lazySpill (s : State) (t k : Nat) : Option State := do
  let k := if accSh ((s.tile t).block k) then k - 8 else k
  let (jid, vtn) ← smFind (s.tile t).accNote k
  let j ← s.job? jid
  let base := recordBase j vtn
  let (pages, s) ← s.recordPages j base k true
  let w := (s.tile t).block k
  let s := s.spillRun t k w (fun s p bs => s.placeWrite t j.vfn p bs) (fun o => pagePlace pages (base + 0x120000 + 0x4000 * k + o))
    (pagePlace pages (base + 0xC0 + 8 * k))
  return s.updTile t (fun x =>
    let y := { x.setMeta k 0 false false 0 with accNote := smErase x.accNote k }
    if accR w then { y.setMeta (k + 8) 0 false false 0 with accNote := smErase y.accNote (k + 8) } else y)

/-- The conditions on the word that a fill reads (R331). -/
def fillWordOk (w : Word) (tag : Byte) (k : Nat) : Bool :=
  accTag w == tag.toNat && Word.bits w 15 49 == 0 && !accSh w && !(accR w && decide (7 < k))

/-- Fills block k of tile t from the record of its own context (R399); none when it cannot be. A block of another context that
stands where its shadow is to be is spilled first. -/
def State.lazyFill (s : State) (t k : Nat) : Option State := do
  let w ← (s.tile t).watch
  let j ← s.job? w.jid
  let base := recordBase j w.vtn
  let (pages, s) ← s.recordPages j base k false
  let (bs, s) := s.placeBytes (pagePlace pages (base + 0xC0 + 8 * k)) 8
  let word := word (ofBytes bs)
  let tag := (s.core t .m).cctx
  let under := accTag ((s.tile t).block (k + 8))
  if !fillWordOk word tag k then none
  else
    let s ← if accR word ∧ under ≠ 0 ∧ under ≠ tag.toNat then s.lazySpill t (k + 8) else some s
    let (bs, s) := recordPieces.foldl (fun (acc : List Byte × State) o =>
      let (b, s) := acc.2.placeBytes (pagePlace pages (base + 0x120000 + 0x4000 * k + o)) 64
      (acc.1 ++ b, s)) ([], s)
    let s := s.fillRun t k word bs
    let s := s.updTile t (fun x =>
      let y := x.setMeta k (accTag word) (accR word) false (accMode word)
      if accR word then y.setMeta (k + 8) (accTag word) false true (accMode word) else y)
    return s.updCore t .m (fun c => c.mergeRegs (fun r => { r with cacc := r.cacc &&& ~~~(BitVec.ofNat 16 (2 ^ k)) }))


/-! ## Performing (R308) -/

/-- Replaces the instruction at a place of a tile's queue. -/
def State.setOp (s : State) (t i : Nat) (m : MOp) : State := s.updTile t (fun x => { x with mq := listSet x.mq i m })

/-- The first instruction of a tile that the array has not performed, with its place. -/
def Tile.nextOp (x : Tile) : Option (MOp × Nat) := x.mq.zipIdx.find? (fun (m, _) => !m.rd)

/-- The tiles of a gang, by its launch and the gang number of a watch. -/
def State.gangTiles (s : State) (t : Nat) : List Nat :=
  match (s.tile t).watch with
  | none => [t]
  | some w => match s.launch? w.launch with
    | none => [t]
    | some l => l.tiles.filter (fun u => (s.tile u).watch.any (fun v => v.launch == w.launch && v.gang == w.gang))

/-- The array's work on one slice: what is left of it is its completion. -/
def State.slice (s : State) (t : Nat) (m : MOp) (xa : Nat) : State :=
  let half := fun (s : State) (m : MOp) => match m.kind with
    | .mma => s.mmaRun t m
    | .mmg => s.mmgRun t m xa
    | .mmv => s.mmvRun t m
    | _ => s
  match m.kind with
  | .ldb =>
    let n := m.x.mod.toNat / 4 % 2
    let vals := s.bankVals t m
    s.updTile t (fun x => x.updBank n (fun b => { b with vals := vals }))
  | .clr => (m.blocks.zip m.sts).foldl (fun s (k, w) =>
      let s := (s.asClear t k).updTile t (fun x => x.setStatus k 0)
      if accR w then (s.asClear t (k + 8)).updTile t (fun x => x.setStatus (k + 8) 0) else s) s
  | _ =>
    let s := s.freshBlocks t m
    if m.red then half (half (s.shadowCopy t m) m) m.shadow else half s m

/-- A word with an uncorrectable error among those an instruction reads (R404). -/
def State.badRead (s : State) (m : MOp) : Option Nat :=
  (m.reads ++ m.readsA.map (fun r => (tileKey m.lead 2 r.1, r.2))).findSome? (fun r => s.badWord r.1 r.2)

/-- The machine check of an engine's read of a bad word (R404): CFAD holds its buffer address, or its address in HBM. -/
def badTrap (t p : Nat) : TrapInfo :=
  if isHbm p then mkTrap 0xF1 (word p) 3 15 t 0
  else mkTrap 0xF0 (word ((p - tileKey 0 0 0) % 2 ^ 22 / 2 ^ 20 * 2 ^ 28 + p % 2 ^ 20)) 3 15 t 0

/-- Adds an asynchronous event to a core that runs a task (R387). -/
def State.pendCore (s : State) (t : Nat) (k : CoreK) (item : Nat) (i : TrapInfo) : State :=
  s.updCore t k (fun c => if c.run = .off then c else { c with pend := c.pend ++ [{ item := item, info := i }] })

/-- Whether the AS data that the row save engine would spill for a block holds a bad word (R69): the block's, or that of the
block whose shadow it is. -/
def State.badBlock (s : State) (t k : Nat) : Option Nat :=
  let k := if accSh ((s.tile t).block k) then k - 8 else k
  s.badWord (tileKey t 3 (k * 16384)) 16384

/-- Whether the record that the row save engine would fill a block of tile t from holds a bad word (R69). -/
def State.badRecord (s : State) (t k : Nat) : Option Nat := do
  let w ← (s.tile t).watch
  let j ← s.job? w.jid
  let base := recordBase j w.vtn
  let (pages, s) ← s.recordPages j base k false
  let word := (pagePlace pages (base + 0xC0 + 8 * k), 8)
  (word :: recordPieces.map (fun o => (pagePlace pages (base + 0x120000 + 0x4000 * k + o), 64))).findSome?
    (fun (p, n) => s.badPlace p n)

/-- The fault, if any, of the walks that the spill of a block makes. -/
def State.spillFault (s : State) (t k : Nat) : Option (Byte × Nat) := do
  let k := if accSh ((s.tile t).block k) then k - 8 else k
  let (jid, vtn) ← smFind (s.tile t).accNote k
  let j ← s.job? jid
  s.recordFault j (recordBase j vtn) k true

/-- The fault, if any, of the walks that the fill of a block makes. -/
def State.fillFault (s : State) (t k : Nat) : Option (Byte × Nat) := do
  let w ← (s.tile t).watch
  let j ← s.job? w.jid
  s.recordFault j (recordBase j w.vtn) k false

/-- A spill that no core asks for: before a placement, a restore, or the close of a job (R397). A bad word in AS is counted as
a machine check and stops it (R69, R404); so does a record that cannot be reached, and a bad table entry of its walk is counted
as well (R440). The block then stays as it is (DESIGN CHOICE, log entry 18). -/
def State.engineSpill (s : State) (t k : Nat) : State :=
  match s.badBlock t k with
  | some p => s.logCheck t (badTrap t p).code (badTrap t p).cfad
  | none => (s.lazySpill t k).getD ((s.spillFault t k).elim s s.noteBad)

/-- The machine check that stops the default service of ACC_OWNER: of a bad word in AS or in the record, else of a bad entry of
the tables that map the record (R404). -/
def State.serviceCheck (s : State) (t k cause : Nat) (spills : Bool) : Option TrapInfo :=
  let bad := (if spills then s.badBlock t k else none).orElse (fun _ => if cause = 1 then none else s.badRecord t k)
  let walk := (if spills then s.spillFault t k else none).orElse (fun _ => if cause = 1 then none else s.fillFault t k)
  (bad.map (badTrap t)).orElse (fun _ =>
    (walk.filter (fun f => decide (0xF0 ≤ f.1.toNat))).map (fun f => mkTrap f.1 (word f.2) 3 15 t 0))

/-- The default service of ACC_OWNER (R399): cause 1 spills the block, cause 2 fills it. A machine check of its own accesses
stops it, and the M-core takes it (R404). -/
def State.serveAcc (s : State) (t k cause : Nat) : Option State :=
  let w := (s.tile t).block k
  let spills := cause = 1 ∨ (accTag w ≠ 0 ∧ accTag w ≠ (s.core t .m).cctx.toNat)
  match s.serviceCheck t k cause spills with
  | some i => some ((s.logCheck t i.code i.cfad).pendCore t .m 1 i)
  | none =>
    if cause = 1 then s.lazySpill t k
    else if spills then (s.lazySpill t k).bind (fun s => s.lazyFill t k)
    else s.lazyFill t k

/-- An engine instruction of the array stops on a bad word: it leaves the queue with no effect (R404). -/
def State.stopOp (s : State) (t n p : Nat) : State :=
  match (s.tile t).mq[n]? with
  | none => s
  | some m =>
    let i := badTrap t p
    (((s.updTile t (fun x => { x with mq := x.mq.eraseIdx n })).letGo t m.slabs).logCheck t i.code i.cfad).pendCore
      t .m 1 i

/-- The array performs the next instruction of tile t, on every slice of its gang at once (R316), when it is one that reads
operands or clears. The P of what it has read falls. -/
def State.perform (s : State) (t : Nat) : State :=
  match (s.tile t).nextOp with
  | none => s
  | some (m, _) =>
    if m.kind = .drain ∨ m.kind = .spill ∨ m.kind = .fill then s
    else
      let team := if m.gang = 0 then [t] else s.gangTiles t
      let ops := team.filterMap (fun u => ((s.tile u).nextOp.filter (fun (n, _) => u == t || n.gang == m.gang)).map
        (fun (n, j) => (u, n, j)))
      if ops.length ≠ team.length then s
      else
        let xa := Word.bits (wd (((ops.find? (fun (u, _, _) => u == m.lead)).map (fun (_, n, _) => n.tab)).getD m.tab) 0) 0 32
        let bad := ops.map (fun (u, n, j) => (u, n, j, s.badRead n))
        let s := bad.foldl (fun s (u, n, _, b) => if b.isNone then s.slice u n xa else s) s
        bad.foldl (fun s (u, n, j, b) => match b with
          | some p => s.stopOp u j p
          | none => (s.letGo u n.slabs).setOp u j { n with rd := true, heldA := [], held := [] }) s

/-- Takes the instruction at the head of a tile's queue out of it; the P it still holds falls. -/
def State.popOp (s : State) (t : Nat) : State :=
  match (s.tile t).mq with
  | [] => s
  | m :: rest => (s.updTile t (fun x => { x with mq := rest })).letGo t m.slabs

/-- Whether a matrix instruction reads a codebook slot (R63). -/
def MOp.readsSlot (m : MOp) (slot : Nat) : Bool :=
  match m.kind with
  | .ldb => m.bty == 7 && m.x.imm.toNat % 8 == slot
  | .mma => m.x.fmt == 7 && m.x.imm.toNat % 8 == slot
  | .mmg => (m.x.fmt == 7 && m.x.imm.toNat % 8 == slot) || (List.range ((m.tab.length - 2) / 2)).any (fun r =>
      let w := wd m.tab (2 + 2 * r)
      !entNone w && entType w == 7 && entCbs w == slot)
  | _ => false

/-- Whether an instruction in flight reads a slot of tile t: its own tile's, or a member's of its gang. -/
def State.slotBusy (s : State) (t slot : Nat) : Bool :=
  (s.gangTiles t).any (fun u => (s.tile u).mq.any (fun m => (u == t || m.lead == t) && m.readsSlot slot))

end Sys2Proof.Machine
end

