-- ==== Sys2Proof/Machine/Crypto.lean ====
section
/-!
DEFINITION. The standard ciphers and hashes that the rules name and do not define: AES-256 in counter mode (R166) as FIPS 197
and SP 800-38A give it, SHA-512 as FIPS 180-4, HMAC and HKDF as RFC 2104 and RFC 5869 (R419).
Log entries (notes/assumptions): 66 PRESUMED.
-/
namespace Sys2Proof.Machine

/-! ## AES-256 (R166; FIPS 197: PRESUMED, log 66) -/

/-- The substitution box: row i holds the values at 16i to 16i + 15, lowest byte first. -/
def aesBox : List Nat := [
  0x76abd7fe2b670130c56f6bf27b777c63, 0xc072a49cafa2d4adf04759fa7dc982ca,
  0x1531d871f1e5a534ccf73f362693fdb7, 0x75b227ebe28012079a059618c323c704,
  0x842fe329b3d63b52a05a6e1b1a2c8309, 0xcf584c4a39becb6a5bb1fc20ed00d153,
  0xa89f3c507f02f94585334d43fbaaefd0, 0xd2f3ff1021dab6bcf5389d928f40a351,
  0x73195d643d7ea7c41744975fec130ccd, 0xdb0b5ede14b8ee4688902a22dc4f8160,
  0x79e4959162acd3c25c2406490a3a32e0, 0x08ae7a65eaf4566ca94ed58d6d37c8e7,
  0x8a8bbd4b1f74dde8c6b4a61c2e2578ba, 0x9e1dc186b95735610ef6034866b53e70,
  0xdf2855cee9871e9b948ed9691198f8e1, 0x16bb54b00f2d99416842e6bf0d89a18c]

def aesSub (x : Nat) : Nat := bitsAt (aesBox.getD (x / 16) 0) (8 * (x % 16)) 8

/-- Doubling in the field of 256 elements. -/
def aesTwice (x : Nat) : Nat := if x < 128 then 2 * x else (2 * x) ^^^ 0x11B

def xorList (xs ys : List Nat) : List Nat := xs.zipWith (fun x y => x ^^^ y) ys

/-- One column of the mixing step. -/
def aesMix (c : List Nat) : List Nat :=
  let at_ := fun i => c.getD (i % 4) 0
  (List.range 4).map (fun i => aesTwice (at_ i) ^^^ aesTwice (at_ (i + 1)) ^^^ at_ (i + 1) ^^^ at_ (i + 2) ^^^ at_ (i + 3))

/-- The 60 words of the key schedule of a 256-bit key, newest first. -/
def aesSchedule (key : List Nat) : List (List Nat) :=
  let first := ((List.range 8).map (fun i => (key.drop (4 * i)).take 4)).reverse
  (List.range 52).foldl (fun ws n =>
    let last := ws.headD []
    let t := if n % 8 = 0 then
        xorList ((last.drop 1 ++ last.take 1).map aesSub) [aesTwice^[n / 8] 1, 0, 0, 0]
      else if n % 8 = 4 then last.map aesSub else last
    xorList (ws.getD 7 []) t :: ws) first

/-- The bytes of one round key. -/
def aesRoundKey (ws : List (List Nat)) (r : Nat) : List Nat := ((ws.drop (4 * r)).take 4).flatten

/-- One round: bytes substituted, rows shifted, columns mixed (but in the last round), and the round key added. -/
def aesRound (last : Bool) (rk b : List Nat) : List Nat :=
  let b := (List.range 16).map (fun i => aesSub (b.getD ((i + 4 * (i % 4)) % 16) 0))
  let b := if last then b else ((List.range 4).map (fun c => aesMix ((b.drop (4 * c)).take 4))).flatten
  xorList b rk

/-- AES-256 of a block of 16 bytes under a key of 32. -/
def aes256 (key block : List Nat) : List Nat :=
  let ws := (aesSchedule key).reverse
  (List.range 14).foldl (fun b r => aesRound (r == 13) (aesRoundKey ws (r + 1)) b) (xorList block (aesRoundKey ws 0))

/-- The bytes of a joined bit string, its highest first: the order in which R166 and R419 write their fields (DEDUCED, log 66). -/
def bigBytes (n x : Nat) : List Nat := (List.range n).map (fun i => bitsAt x (8 * (n - 1 - i)) 8)

/-- A number of little-endian bytes. -/
def ofLittle (bs : List Nat) : Nat := bs.foldr (fun b a => b + 256 * a) 0

/-- Block j of the keystream Z(kind, q) of R166. -/
def keyBlock (key : BitVec 256) (epoch : BitVec 32) (per : BitVec 48) (kind q j : Nat) : List Nat :=
  aes256 (bigBytes 32 key.toNat)
    (bigBytes 4 epoch.toNat ++ bigBytes 6 per.toNat ++ [kind % 256, q % 256] ++ bigBytes 4 j)

/-- Bits `lo` to `lo + n - 1` of that keystream; bit i is bit i mod 8 of its byte i / 8 (R7; DEDUCED, log 66). -/
def keyBits (key : BitVec 256) (epoch : BitVec 32) (per : BitVec 48) (kind q lo n : Nat) : Nat :=
  let blocks := (List.range (ceilDiv (lo % 128 + n) 128)).map (fun i => keyBlock key epoch per kind q (lo / 128 + i))
  bitsAt (ofLittle blocks.flatten) (lo % 128) n

/-! ## SHA-512, HMAC and HKDF (R419; FIPS 180-4, RFC 2104, RFC 5869: PRESUMED, log 66) -/

/-- The integer part of a `k`-th root of a number below 2^(80k). -/
def rootOf (k n : Nat) : Nat :=
  (List.range 80).foldl (fun r i => let r' := r + 2 ^ (79 - i); if r' ^ k ≤ n then r' else r) 0

/-- The first 80 primes. -/
def primes80 : List Nat :=
  (List.range 410).filter (fun n => decide (2 ≤ n) && (List.range 21).all (fun d => decide (d < 2 ∨ n ≤ d) || n % d != 0))

/-- The round constants: 64 bits of the fractions of the primes' cube roots. -/
def shaK : List Word := primes80.map (fun p => word (rootOf 3 (p * 2 ^ 192)))

/-- The first hash value: the same of the square roots of the first eight. -/
def shaInit : List Word := (primes80.take 8).map (fun p => word (rootOf 2 (p * 2 ^ 128)))

def shaMix (x : Word) (a b c : Nat) : Word := x.rotateRight a ^^^ x.rotateRight b ^^^ x.rotateRight c

/-- One round over the eight working words and the next sixteen words of the message schedule. -/
def shaRound (st : List Word × List Word) (k : Word) : List Word × List Word :=
  let g := fun i => st.1.getD i 0
  let w := fun i => st.2.getD i 0
  let t1 := g 7 + shaMix (g 4) 14 18 41 + ((g 4 &&& g 5) ^^^ (~~~(g 4) &&& g 6)) + k + w 0
  let t2 := shaMix (g 0) 28 34 39 + ((g 0 &&& g 1) ^^^ (g 0 &&& g 2) ^^^ (g 1 &&& g 2))
  let s0 := (w 1).rotateRight 1 ^^^ (w 1).rotateRight 8 ^^^ w 1 >>> 7
  let s1 := (w 14).rotateRight 19 ^^^ (w 14).rotateRight 61 ^^^ w 14 >>> 6
  ([t1 + t2, g 0, g 1, g 2, g 3 + t1, g 4, g 5, g 6], st.2.drop 1 ++ [s1 + w 9 + s0 + w 0])

/-- One block of 128 bytes. -/
def shaBlock (h : List Word) (b : List Nat) : List Word :=
  let ws := (List.range 16).map (fun i => word (ofLittle ((b.drop (8 * i)).take 8).reverse))
  h.zipWith (· + ·) (shaK.foldl shaRound (h, ws)).1

/-- SHA-512 of a byte string. -/
def sha512 (m : List Nat) : List Nat :=
  let n := m.length
  let padded := m ++ [0x80] ++ List.replicate ((239 - n % 128) % 128) 0 ++ bigBytes 16 (8 * n)
  ((chunksOf (padded.length / 128) 128 padded).foldl shaBlock shaInit).flatMap (fun w => bigBytes 8 w.toNat)

/-- HMAC over SHA-512, of a key of at most 128 bytes. -/
def hmac (key m : List Nat) : List Nat :=
  let k := key ++ List.replicate (128 - key.length) 0
  sha512 (k.map (· ^^^ 0x5C) ++ sha512 (k.map (· ^^^ 0x36) ++ m))

/-- HKDF-Extract and then HKDF-Expand to 32 bytes: one block of the expansion is enough (R419). -/
def hkdf (salt ikm info : List Nat) : BitVec 256 :=
  BitVec.ofNat 256 (ofLittle ((hmac (hmac salt ikm) (info ++ [1])).take 32).reverse)

/-- A label of R419, as the bytes of its characters. -/
def labelBytes (label : String) : List Nat := label.toList.map Char.toNat

/-- A key of R419: under a domain, a generation and its domain key, by a label and the fields after it. -/
def derivedKey (domain gen : BitVec 32) (key : BitVec 256) (label : String) (fields : List Nat) : BitVec 256 :=
  hkdf (bigBytes 4 domain.toNat ++ bigBytes 4 gen.toNat) (bigBytes 32 key.toNat) (labelBytes label ++ fields)

/-- pair(s, d) of R419. -/
def pairKey (domain gen : BitVec 32) (key : BitVec 256) (s d : Nat) : BitVec 256 :=
  derivedKey domain gen key "sq40 fabric" (bigBytes 2 s ++ bigBytes 2 d)

/-- mask(k, p, e) and check(k, p, e) of R419. -/
def portKey (domain gen : BitVec 32) (key : BitVec 256) (label : String) (keeper port : Nat) (epoch : BitVec 32) : BitVec 256 :=
  derivedKey domain gen key label (bigBytes 2 keeper ++ [port % 256] ++ bigBytes 4 epoch.toNat)

end Sys2Proof.Machine
end

