-- ==== Sys2Proof/Machine/Period.lean ====
section
/-!
DEFINITION. Exchanges of the medium as a member computes them: descriptors, the layout of periods, what a member lights,
its guards, and the results it forms from the counts (R149 to R167).
Log entries (notes/assumptions): 35 DEDUCED.
-/
namespace Sys2Proof.Machine

/-! ## Descriptors (R149) -/

def dMode (d : List Word) : Nat := Word.bits (wd d 0) 60 4
def dSgn (d : List Word) : Bool := (wd d 0).getLsbD 59
def dFixx (d : List Word) : Bool := (wd d 0).getLsbD 58
def dTrk (d : List Word) : Bool := (wd d 0).getLsbD 57
def dPort (d : List Word) : Bool := (wd d 0).getLsbD 56
def dW (d : List Word) : Nat := Word.bits (wd d 0) 50 6
def dRt (d : List Word) : Nat := Word.bits (wd d 0) 47 3
def dSlen (d : List Word) : Nat := Word.bits (wd d 0) 45 2
def dXfix (d : List Word) : Nat := Word.bits (wd d 0) 37 8
def dWset (d : List Word) : Nat := Word.bits (wd d 0) 0 32
def dYaddr (d : List Word) : Word := word (Word.bits (wd d 1) 32 32)
def dCount (d : List Word) : Nat := Word.bits (wd d 1) 0 21
def dCaddr (d : List Word) : Word := word (Word.bits (wd d 2) 32 32)
def dRaddr (d : List Word) : Word := word (Word.bits (wd d 2) 0 32)
def dXaddr (d : List Word) : Word := word (Word.bits (wd d 3) 32 32)
def dKaddr (d : List Word) : Word := word (Word.bits (wd d 3) 0 32)

/-- Stream length in bits. -/
def dLen (d : List Word) : Nat := 64 * 4 ^ dSlen d

/-- Bits of one element of a contribution. -/
def dElem (d : List Word) : Nat := if dMode d = 5 then dLen d else dW d

/-- Bytes of a contribution. -/
def dCbytes (d : List Word) : Nat := ceilDiv (dCount d * dElem d) 8

/-- Bytes of a result type (R149). -/
def rtSize (rt : Nat) : Nat :=
  match rt with
  | 0 | 3 => 1
  | 1 | 4 => 2
  | _ => 4

/-- Bytes of a result: packed W-bit elements in the modes MAX, OR and ALL (R150). -/
def dRbytes (d : List Word) : Nat :=
  if 2 ≤ dMode d ∧ dMode d ≤ 4 then ceilDiv (dCount d * dW d) 8 else dCount d * rtSize (dRt d)

/-- Blocks of 32 elements, of which each has an exponent byte in BM mode. -/
def dBlocks (d : List Word) : Nat := ceilDiv (dCount d) 32

/-- Bytes of the agreed exponents. -/
def dYbytes (d : List Word) : Nat := if dMode d = 1 ∧ dRt d ≠ 6 then dBlocks d else 0

/-- A signature of R152, of a tile, a mode, a width and a writer set, and the other fields of a descriptor. -/
def sigWord (t mode w wset : Nat) (d : List Word) : BitVec 48 :=
  let lo := (dCount d * 0x9E3779B9 + dXfix d * 0x10000 + w * 0x100 + dSlen d * 0x10 + dRt d * 2 + (dFixx d).toNat) % 2 ^ 32
  BitVec.ofNat 48 (t % 1024 * 2 ^ 38 + mode * 2 ^ 34 + (dSgn d).toNat * 2 ^ 33 + (dTrk d).toNat * 2 ^ 32 + (wset ^^^ lo))

/-- The signature of an exchange (R152); a barrier's is that of R335. -/
def Exch.sig (e : Exch) : BitVec 48 :=
  if e.barr then BitVec.ofNat 48 (e.t % 1024 * 2 ^ 38 + 15 * 2 ^ 34)
  else sigWord e.t (dMode e.desc) (dW e.desc) (dWset e.desc) e.desc

/-- The width of the sums that a trunk pass carries, `add` bits above the descriptor's W, which is 0 for a STREAM (R145, R150;
DEDUCED, log 35: the words of R145 are taken as they stand, and what these bits do not hold is lost). -/
def sumWidth (d : List Word) (add : Nat) : Nat := dW d + add

/-- The signature of an entry on its port: a trunk pass names all trunk members, and carries sums as INT (R145, R152). -/
def Exch.sigOn (e : Exch) (p : Port) : BitVec 48 :=
  if e.barr ∨ e.trunkOf.isNone then e.sig
  else
    let d := e.desc
    let all := 2 ^ p.nros - 1
    match dMode d with
    | 0 | 1 | 5 => sigWord e.t 0 (sumWidth d e.trunkSt) all d
    | m => sigWord e.t m (dW d) all d

/-! ## Passes (R145, R153 to R158) -/

/-- What the planes of a pass carry. -/
inductive PassKind where
  | sum | bits | max | stream
deriving DecidableEq, Repr

/-- A pass over `n` values of `w` bits. -/
structure Pass where
  kind : PassKind
  w : Nat
  sgn : Bool
  /-- Elements of a full block. -/
  e : Nat
  n : Nat
  /-- Its values travel masked, with this many bits added to each (R166, R167); 0 when they travel as they are. -/
  cl : Nat
  /-- A down pass: the lightship alone writes (R145). -/
  down : Bool
  /-- The number of writers. -/
  writers : Nat
deriving DecidableEq, Repr

/-- Bits added by a writer limit. -/
def limitBits (l : Nat) : Nat := bitLen l

/-- Planes of a block. -/
def Pass.planes (p : Pass) : Nat :=
  match p.kind with
  | .sum => p.w + p.cl
  | .bits => if p.cl = 0 then p.w else p.w * (1 + p.cl)
  | .max => 1
  | .stream => p.w

/-- Slots of a block of q elements (R153). -/
def Pass.slots (p : Pass) (q : Nat) : Nat := ceilDiv (p.planes * q + 32) 32

/-- Full blocks that a period holds; a MAX batch holds at most 455 blocks of 256 (R155). -/
def Pass.perPeriod (p : Pass) : Nat := Nat.max 1 (4096 / p.slots p.e)

/-- Where a block lies: its period in the batch, its first period bit, its first element and its elements. -/
structure BlockAt where
  k : Nat
  bit : Nat
  el : Nat
  q : Nat
deriving DecidableEq, Repr

/-- Block i of a pass (R153). -/
def Pass.block (p : Pass) (i : Nat) : BlockAt :=
  let b := p.perPeriod
  let q := Nat.min p.e (p.n - i * p.e)
  let full := b * p.slots p.e
  if q < p.e ∧ i % b = 0 ∧ i ≠ 0 ∧ full + p.slots q ≤ 4096 then { k := i / b - 1, bit := 32 * full, el := i * p.e, q := q }
  else { k := i / b, bit := 32 * (i % b * p.slots p.e), el := i * p.e, q := q }

def Pass.nblocks (p : Pass) : Nat := ceilDiv p.n p.e

/-- Periods, or batches of a MAX pass. -/
def Pass.batches (p : Pass) : Nat := if p.nblocks = 0 then 0 else (p.block (p.nblocks - 1)).k + 1

/-- Periods of a pass. -/
def Pass.periods (p : Pass) : Nat := if p.kind = .max then p.batches * p.w else p.batches

/-- The blocks of a batch. -/
def Pass.blocksOf (p : Pass) (k : Nat) : List BlockAt :=
  ((List.range (p.perPeriod + 1)).filterMap (fun j =>
    let i := k * p.perPeriod + j
    if i < p.nblocks then some (p.block i) else none)).filter (fun b => b.k == k)

/-- The batch of a period, and the plane it carries in a MAX pass. -/
def Pass.batch (p : Pass) (k : Nat) : Nat × Nat := if p.kind = .max then (k / p.w, p.w - 1 - k % p.w) else (k, 0)

/-- The passes of an exchange's up pass or of a trunk pass, on a port. How OR and ALL results travel on a trunk and in a down pass
the specification does not say: as bit planes, masked on a secured trunk (DESIGN CHOICE, log 35). Sums are signed there as the
descriptor's SGN (R145). -/
def Exch.up (e : Exch) (p : Port) : List Pass :=
  let d := e.desc
  let n := dCount d
  let ws := if e.trunkOf.isSome then p.nros else popCount 32 (dWset d)
  let cl := if p.sec then limitBits p.limit else 0
  let mk : PassKind → Nat → Bool → Nat → Nat → Nat → Pass := fun kind w sgn el n cl =>
    { kind := kind, w := w, sgn := sgn, e := el, n := n, cl := cl, down := false, writers := ws }
  if e.barr then []
  else if e.trunkOf.isSome then
    match dMode d with
    | 2 => [mk .max (dW d) false 256 n 0]
    | 3 | 4 => [mk .bits (dW d) false 256 n cl]
    | _ => [mk .sum (sumWidth d e.trunkSt) (dSgn d) 256 n cl]
  else
    match dMode d with
    | 0 => [mk .sum (dW d) (dSgn d) 256 n cl]
    | 1 => (if dFixx d then [] else [mk .max 8 false 32 (dBlocks d) 0]) ++ [mk .sum (dW d) true 256 n cl]
    | 2 => [mk .max (dW d) false 256 n 0]
    | 5 => [mk .stream (dLen d) false 8 n 0]
    | _ => [mk .bits (dW d) false 256 n cl]

/-- The down pass of a two-level exchange (R145). -/
def Exch.downPass (e : Exch) (p : Port) (tlimit : Nat) : List Pass :=
  let d := e.desc
  if !dTrk d ∨ e.barr ∨ e.trunkOf.isSome then []
  else
    let mk : PassKind → Nat → Bool → Pass := fun kind w sgn =>
      { kind := kind, w := w, sgn := sgn, e := 256, n := dCount d, cl := 0, down := true, writers := 1 }
    let add := limitBits p.limit + limitBits tlimit
    match dMode d with
    | 2 => [mk .max (dW d) false]
    | 3 | 4 => [mk .bits (dW d) false]
    | _ => [mk .sum (sumWidth d add) (dSgn d)]

/-- Periods of a list of passes; one when none lights a slot (R150, R335). -/
def periodsOf (ps : List Pass) : Nat := Nat.max 1 (ps.foldl (fun a p => a + p.periods) 0)

def Exch.upTotal (e : Exch) (p : Port) : Nat := if e.noPeriod then 0 else periodsOf (e.up p)

/-- All the periods of an exchange. -/
def Exch.total (e : Exch) (p : Port) (tl : Nat) : Nat :=
  e.upTotal p + (if dTrk e.desc ∧ !e.barr ∧ e.trunkOf.isNone then periodsOf (e.downPass p tl) else 0)

/-- The pass that period k of a list belongs to, and its first period. -/
def passAt : List Pass → Nat → Nat → Option (Pass × Nat)
  | [], _, _ => none
  | p :: ps, base, k => if k < base + p.periods then some (p, base) else passAt ps (base + p.periods) k

/-- The pass of period k of an exchange, and the pass's first period. -/
def Exch.passOf (e : Exch) (p : Port) (tl k : Nat) : Option (Pass × Nat) :=
  if k < e.upTotal p then passAt (e.up p) 0 k else passAt (e.downPass p tl) (e.upTotal p) k

/-! ## Counts, weights and what they sum to (R154 to R160) -/

/-- The count that a period showed at a bit. -/
def Exch.count (e : Exch) (k bit : Nat) : Nat := smGet 0 (smGet [] e.hist k) bit

/-- The count of plane j of element i of a pass whose first period is `base`. -/
def Exch.plane (e : Exch) (p : Pass) (base i j : Nat) : Nat :=
  let b := p.block (i / p.e)
  if p.kind = .max then e.count (base + b.k * p.w + (p.w - 1 - j)) (b.bit + (i - b.el))
  else e.count (base + b.k) (b.bit + b.q * j + (i - b.el))

/-- The weight of plane j in the sum of an element (R154, R160, R166). -/
def Pass.weight (p : Pass) (j : Nat) : Int :=
  match p.kind with
  | .stream | .max => 1
  | .sum => if p.cl = 0 ∧ p.sgn ∧ j + 1 = p.w then -(2 ^ j) else 2 ^ j
  | .bits => 2 ^ j

/-- Σ of weight × count over an element's planes. -/
def Exch.weighted (e : Exch) (p : Pass) (base i : Nat) : Int :=
  (List.range p.planes).foldl (fun a j => a + p.weight j * (e.plane p base i j : Int)) 0

/-- The exact value of element i: a sum, or the pattern of its result bits (R154, R155, R157, R158, R166, R167). `all`
asks for ALL. -/
def Exch.valueOf (e : Exch) (p : Pass) (base i : Nat) (all : Bool) : Int :=
  match p.kind with
  | .stream => e.weighted p base i
  | .sum =>
    let t := e.weighted p base i
    if p.cl = 0 then t
    else if p.sgn then signedOf (p.w + p.cl) (t % 2 ^ (p.w + p.cl)).toNat else t % 2 ^ (p.w + p.cl)
  | .max => (List.range p.w).foldl (fun a j => a + if 0 < e.plane p base i j then 2 ^ j else 0) 0
  | .bits => (List.range p.w).foldl (fun a j =>
      let c := if p.cl = 0 then e.plane p base i j
        else ((List.range (1 + p.cl)).foldl (fun a k => a + 2 ^ k * e.plane p base i (j * (1 + p.cl) + k)) 0) % 2 ^ (1 + p.cl)
      a + if (if all ∧ !p.down then c = p.writers else 0 < c) then 2 ^ j else 0) 0

/-- Writers still live at plane j of a MAX element (R155). -/
def Exch.live (e : Exch) (p : Pass) (base i j : Nat) : Nat :=
  let above := (List.range (p.w - 1 - j)).map (fun m => e.plane p base i (j + 1 + m))
  (above.find? (fun c => decide (0 < c))).getD p.writers

/-- The check weight of an element: its index in its block, and its index in the period (R160, R167). -/
def Port.checkWeight (p : Port) (per : BitVec 48) (inBlock inPeriod : Nat) : Nat :=
  match p.sec, p.key with
  | true, some k => keyBits k.check p.epoch per 1 0 (32 * inPeriod) 32 ||| 1
  | _, _ => 2 * inBlock + 1

/-! ## The guards of a block (R144, R155, R160) -/

/-- The writers that a slot of an entry may count (R144): none for a barrier, which names no writer set. -/
def Exch.writers (e : Exch) (p : Port) : Nat :=
  if e.barr then 0 else if e.trunkOf.isSome then p.nros else popCount 32 (dWset e.desc)

/-- The data slots of period k of an exchange count within bounds, and every block passes its check word. -/
def Exch.periodGood (e : Exch) (p : Port) (tl k : Nat) (per : BitVec 48) (counts : SMap Nat) : Bool :=
  match e.passOf p tl k with
  | none => counts.all (fun (_, c) => decide (c ≤ e.writers p))
  | some (ps, base) =>
    let e := { e with hist := smPut e.hist k counts }
    let (bt, plane) := ps.batch (k - base)
    let blocks := ps.blocksOf bt
    let first := (blocks.headD { k := 0, bit := 0, el := 0, q := 0 }).el
    counts.all (fun (_, c) => decide (c ≤ ps.writers)) &&
    blocks.all (fun b =>
      let cw := (List.range 32).foldl (fun a i => a + 2 ^ i * e.count k (b.bit + ps.planes * b.q + i)) 0
      let sum := (List.range b.q).foldl (fun a i =>
        let el := b.el + i
        let t : Int := if ps.kind = .max then (e.plane ps base el plane : Int) else e.weighted ps base el
        a + (p.checkWeight per i (el - first) : Int) * t) (0 : Int)
      (sum - (cw : Int)) % 2 ^ 32 == 0 &&
      (ps.kind != .max || (List.range b.q).all (fun i =>
        decide (e.plane ps base (b.el + i) plane ≤ e.live ps base (b.el + i) plane))))

/-! ## What a member lights -/

/-- The W-bit pattern of element i of a member's contribution (R149). -/
def State.contrib (s : State) (e : Exch) (i : Nat) : Nat :=
  let w := dElem e.desc
  let key := tileKey e.t 2 (bufOfs (dCaddr e.desc))
  let lo := i * w
  s.readNat 0 (key + lo / 8) (ceilDiv (lo % 8 + w) 8) / 2 ^ (lo % 8) % 2 ^ w

/-- A member's own exponent byte of a block of 32 (R156). -/
def State.ownExp (s : State) (e : Exch) (b : Nat) : Nat := s.readNat 0 (tileKey e.t 2 (bufOfs (dXaddr e.desc) + b)) 1

/-- The agreed exponent of a block (R156). -/
def Exch.agreed (e : Exch) (p : Port) (b : Nat) : Nat :=
  if dFixx e.desc then dXfix e.desc
  else match e.up p with
    | ps :: _ => (e.valueOf ps 0 b false).toNat
    | [] => 0

/-- Alignment of a mantissa: m', whether it was inexact and whether it was clamped (R156). -/
def alignMant (w x xa : Nat) (m : Int) : Int × Bool × Bool :=
  if x = 255 then (0, false, false)
  else
    let lim : Int := if w = 8 then 127 else 7
    let y : Int := if xa ≤ x then m * 2 ^ (x - xa)
      else
        let d : Int := 2 ^ (xa - x)
        let q := m / d
        let r := m % d
        if 2 * r < d ∨ (2 * r = d ∧ q % 2 = 0) then q else q + 1
    let z := clampI (-lim) lim y
    (z, if xa ≤ x then z != m * 2 ^ (x - xa) else z * 2 ^ (xa - x) != m, z != y)

/-- The value that a member sends for element i of a pass, before masking. -/
def State.sends (s : State) (e : Exch) (p : Port) (ps : Pass) (i : Nat) : Int :=
  let d := e.desc
  if ps.down ∨ e.trunkOf.isSome then e.trunk.getD i 0
  else if dMode d = 1 then
    if ps.kind = .max then (s.ownExp e i : Int)
    else (alignMant (dW d) (s.ownExp e (i / 32)) (e.agreed p (i / 32)) (signedOf (dW d) (s.contrib e i))).1
  else if ps.kind = .sum ∧ ps.sgn then signedOf ps.w (s.contrib e i)
  else (s.contrib e i : Int)

/-- The rank of this member among the writers, and their number (R166). -/
def Exch.rank (e : Exch) (p : Port) : Nat :=
  if e.trunkOf.isSome then p.myix else popCount p.myix (dWset e.desc)

/-- Whether this member writes in a pass. -/
def Exch.writes (e : Exch) (p : Port) (ps : Pass) : Bool :=
  if ps.down then p.ls && e.trunkSt == 2 else e.trunkOf.isSome || (dWset e.desc).testBit p.myix

/-- A mask of R166 for a value of `n` bits, at an index of the period. -/
def Port.maskOf (p : Port) (per : BitVec 48) (rank writers n g : Nat) : Nat :=
  match p.key with
  | none => 0
  | some k =>
    let f := fun q => keyBits k.mask p.epoch per 0 q (64 * g) n
    (f rank + 2 ^ n - f ((rank + 1) % writers)) % 2 ^ n

/-- The word of planes that a member lights for element i, at index g of its period. The masked sums of an OR or ALL element's
bits lie bit by bit, bit j at planes j(1 + cl) on, each under the mask of index gW + j (DESIGN CHOICE, log 35). -/
def State.sentWord (s : State) (e : Exch) (p : Port) (ps : Pass) (per : BitVec 48) (i g : Nat) : Nat :=
  let v := s.sends e p ps i
  let q := e.rank p
  match ps.kind with
  | .sum =>
    let n := ps.w + ps.cl
    let x := (v % 2 ^ n).toNat
    if ps.cl = 0 then x else (x + p.maskOf per q ps.writers n g) % 2 ^ n
  | .bits =>
    let x := v.toNat
    if ps.cl = 0 then x % 2 ^ ps.w
    else (List.range ps.w).foldl (fun a j =>
      a + 2 ^ (j * (1 + ps.cl)) * ((x / 2 ^ j % 2 + p.maskOf per q ps.writers (1 + ps.cl) (g * ps.w + j)) % 2 ^ (1 + ps.cl))) 0
  | _ => v.toNat

/-- The value that a member's check word weighs for an element (R160). -/
def Pass.checkValue (ps : Pass) (planes : Nat) : Int :=
  match ps.kind with
  | .sum => if ps.cl = 0 ∧ ps.sgn then signedOf ps.w planes else planes
  | .stream => (popCount ps.w planes : Int)
  | _ => planes

/-- The period bits that a member lights in period k (R153, R155, R160). -/
def State.lit (s : State) (e : Exch) (p : Port) (tl k : Nat) (per : BitVec 48) : List Nat :=
  match e.passOf p tl k with
  | none => []
  | some (ps, base) =>
    if !e.writes p ps then []
    else
      let (bt, plane) := ps.batch (k - base)
      let blocks := ps.blocksOf bt
      let first := (blocks.headD { k := 0, bit := 0, el := 0, q := 0 }).el
      blocks.flatMap (fun b =>
        let words := (List.range b.q).map (fun i =>
          let el := b.el + i
          let w := s.sentWord e p ps per el (el - first)
          if ps.kind = .max then
            let top := (List.range (ps.w - 1 - plane)).all (fun m =>
              w.testBit (plane + 1 + m) == decide (0 < e.plane ps base el (plane + 1 + m)))
            if top ∧ w.testBit plane then 1 else 0
          else w)
        let data := words.zipIdx.flatMap (fun (w, i) => (List.range ps.planes).filterMap (fun j =>
          if w.testBit j then some (b.bit + b.q * j + i) else none))
        let c := (words.zipIdx.foldl (fun a (w, i) =>
          a + (p.checkWeight per i (b.el + i - first) : Int) * ps.checkValue w) (0 : Int)) % 2 ^ 32
        data ++ (List.range 32).filterMap (fun i => if c.toNat.testBit i then some (b.bit + ps.planes * b.q + i) else none))

/-- What the alignment of the mantissas that a member sends in period k was, by element (R156): bits 1 inexact, 2 clamped, 4 for an
exponent of 0xFF. -/
def State.aligned (s : State) (e : Exch) (p : Port) (tl k : Nat) : SMap Nat :=
  match e.passOf p tl k with
  | none => e.al
  | some (ps, base) =>
    if dMode e.desc ≠ 1 ∨ ps.kind ≠ .sum ∨ ps.down ∨ e.trunkOf.isSome ∨ !e.writes p ps then e.al
    else
      let els := (ps.blocksOf (ps.batch (k - base)).1).flatMap (fun b => (List.range b.q).map (b.el + ·))
      els.foldl (fun m i =>
        let x := s.ownExp e (i / 32)
        let (_, inx, cl) := alignMant (dW e.desc) x (e.agreed p (i / 32)) (signedOf (dW e.desc) (s.contrib e i))
        let v := inx.toNat + 2 * cl.toNat + 4 * (decide (x = 255)).toNat
        if v = 0 then smErase m i else smPut m i v) e.al

/-- Bytes of AB that a member reads for an exchange. -/
def Exch.reads (e : Exch) (p : Port) : List (Nat × Nat) :=
  if e.barr ∨ e.trunkOf.isSome ∨ !(dWset e.desc).testBit p.myix then []
  else (tileKey e.t 2 (bufOfs (dCaddr e.desc)), dCbytes e.desc) ::
    (if dMode e.desc = 1 then [(tileKey e.t 2 (bufOfs (dXaddr e.desc)), dBlocks e.desc)] else [])

/-! ## Results (R154 to R158, R164) -/

/-- The values that a member takes its results from: its own segment's, those of the trunk at a lightship, or those of
the down pass elsewhere (R145). -/
def Exch.values (e : Exch) (p : Port) (tl : Nat) : List Int :=
  let all := dMode e.desc = 4
  let pass : List Pass → Nat → List Int := fun ps base =>
    match ps.getLast? with
    | some q => (List.range q.n).map (fun i => e.valueOf q (base + (ps.dropLast.foldl (fun a p => a + p.periods) 0)) i all)
    | none => []
  if e.trunkOf.isNone ∧ dTrk e.desc then
    if p.ls then e.trunk else pass (e.downPass p tl) (e.upTotal p)
  else pass (e.up p) 0

/-- The values of the up pass, which a lightship carries to the trunk. -/
def Exch.upValues (e : Exch) (p : Port) : List Int :=
  let ps := e.up p
  match ps.getLast? with
  | some q => (List.range q.n).map (fun i =>
      e.valueOf q (ps.dropLast.foldl (fun a p => a + p.periods) 0) i (dMode e.desc == 4))
  | none => []

/-- What an exchange writes: result bytes, agreed exponents, the elements it clamped and its flags. -/
structure ExchOut where
  res : List Byte
  ybytes : List Byte
  sat : Nat
  flags : Nat
deriving DecidableEq, Repr

/-- A sum as a result type: its bytes, and whether it was clamped (R154). -/
def sumBytes (rt : Nat) (v : Int) : List Byte × Bool :=
  let w := 8 * rtSize rt
  let (lo, hi) := intRange (decide (rt < 3)) w
  let z := clampI lo hi v
  (toBytes (rtSize rt) (z % 2 ^ w).toNat, z != v)

/-- S × 2^e as FP32 with saturation: bits and flags (R156). -/
def scaled (v : Int) (e : Int) : Nat × Nat :=
  match FV.dyadic (decide (v < 0)) v.natAbs e with
  | .fin neg n d => (ffmt 0).roundFin rne true neg n d
  | _ => (0, 0)

/-- The results of an exchange (R154 to R158). `other` is what the other writers' alignments were: whether one was inexact, and
the elements that they clamped; SATCNT counts an element once (R139). This member's own are those of the values that it has sent.
A two-level BM result is scaled by the exponents that this segment agreed on (DESIGN CHOICE, log 35). INV stands for a block whose
agreed exponent is 0xFF, and at the member whose own block has the exponent 0xFF, which with FIXX = 1 the others do not see
(DEDUCED, log 35). -/
def Exch.out (e : Exch) (p : Port) (tl : Nat) (other : Bool × List Nat) : ExchOut :=
  let d := e.desc
  let vals := e.values p tl
  match dMode d with
  | 1 =>
    let mine := (dWset d).testBit p.myix
    let shift : Int := if dW d = 8 then 133 else 129
    let out := vals.zipIdx.map (fun (v, i) =>
      let xa := e.agreed p (i / 32)
      if dRt d = 6 then
        if xa = 255 then (toBytes 4 ((ffmt 0).nanCode false), false, fINV)
        else
          let (b, f) := scaled v ((xa : Int) - shift)
          (toBytes 4 b, f &&& fSAT != 0, f &&& fINX)
      else if xa = 255 then (toBytes (rtSize (dRt d)) 0, false, fINV)
      else
        let (b, c) := sumBytes (dRt d) v
        (b, c, 0))
    let many := decide (1 < popCount 32 (dWset d)) || !mine
    let has := fun (i bit : Nat) => (smGet 0 e.al i).testBit bit
    let sat := (out.zipIdx.filter (fun ((_, c, _), i) => c || has i 1 || (many && other.2.contains i))).length
    let inx := e.al.any (fun (_, v) => v.testBit 0) || (many && other.1)
    let nan := e.al.any (fun (_, v) => v.testBit 2)
    { res := out.flatMap (fun (b, _, _) => b)
      ybytes := if dRt d = 6 then [] else (List.range (dBlocks d)).map (fun b => BitVec.ofNat 8 (e.agreed p b))
      sat := sat
      flags := out.foldl (fun a (_, _, f) => a ||| f) (flagIf (decide (0 < sat)) fSAT ||| flagIf inx fINX ||| flagIf nan fINV) }
  | 2 | 3 | 4 =>
    let w := dW d
    let n := vals.zipIdx.foldl (fun a (v, i) => a + v.toNat * 2 ^ (w * i)) 0
    { res := toBytes (dRbytes d) n, ybytes := [], sat := 0, flags := 0 }
  | _ =>
    let out := vals.map (sumBytes (dRt d))
    let sat := (out.filter (fun (_, c) => c)).length
    { res := out.flatMap (fun (b, _) => b), ybytes := [], sat := sat, flags := flagIf (decide (0 < sat)) fSAT }

/-! ## Arming (R159, R162, R164, R168) -/

/-- The first entry that has periods to send; the one that is armed, or next to arm. None behind a barrier that uses no period: it
completes first, at the rekey barrier (R152, R335). -/
def Port.cur (p : Port) (tl : Nat) : Option Exch :=
  (p.queue.takeWhile (fun e => !e.noPeriod)).find? (fun e => decide (e.next < e.total p tl))

/-- The trunk limit that a port's two-level exchanges use (R145). -/
def State.trunkLim (s : State) (p : Bool) : Nat :=
  let t := s.port true
  if t.en ∧ t.trk then t.limit else Config.trunkLimit (s.port p).epoch.toNat (s.port p).lsix % 32 + 1

/-- Replaces an entry of a port's queue. -/
def Port.setExch (p : Port) (e : Exch) : Port := { p with queue := p.queue.map (fun x => if x.id = e.id then e else x) }

/-- Staging bytes of an entry (R164). -/
def Exch.staging (e : Exch) : Nat := if e.barr ∨ e.trunkOf.isSome then 0 else dRbytes e.desc + dYbytes e.desc

/-- Whether an entry may arm: its port is enrolled and not stopped, its rekey-ready slots are dark, no BLEAVE stands before
it, its results have room, and a lightship's down pass has its trunk's results. -/
def Port.mayArm (p : Port) (e : Exch) : Bool :=
  p.en && p.st != 4 && !p.ready && p.leaving.all (fun (_, n) => decide (e.id < n)) &&
  decide (((p.queue.filter (fun x => x.armed && x.id != e.id)).foldl (fun a x => a + x.staging) 0) + e.staging ≤ 2 ^ 20)

/-- Whether the next period of an armed entry may be sent now: a lightship's down pass waits for its trunk pass. -/
def Exch.sendable (e : Exch) (p : Port) : Bool := !(p.ls && dTrk e.desc && !e.barr && e.trunkOf.isNone &&
  decide (e.upTotal p ≤ e.next) && e.trunkSt != 2)

/-- A port whose head, or the entry after the last one sent, arms if it may; and its state: RUNNING from the first period that it has
started, which a reject does not take back (R162). -/
def Port.rearm (p : Port) (tl : Nat) : Port :=
  let p := match p.cur tl with
    | some e => if !e.armed ∧ p.mayArm e then p.setExch { e with armed := true } else p
    | none => p
  if p.st = 4 then p
  else { p with st := match p.queue with
    | [] => 0
    | e :: _ => if e.noPeriod then 0 else if e.total p tl ≤ e.passed then 3 else if !e.nums.isEmpty then 2
      else if e.armed then 1 else 0 }

def State.rearm (s : State) (p : Bool) : State := s.setPort p ((s.port p).rearm (s.trunkLim p))

/-! ## The end of an entry by a fault (R163) -/

/-- The completion record (R165). -/
def Exch.record (e : Exch) (status cause sat : Nat) : List Byte :=
  bytesOfWords [word (2 ^ 63 + status * 2 ^ 48 + cause * 2 ^ 40 + Nat.min 255 e.replays * 2 ^ 32 + sat),
    word (e.lastP.toNat * 2 ^ 16 + Nat.min 65535 e.nums.length)]

/-- Takes an entry out of a port's queue; the P of its slabs falls. -/
def State.dropExch (s : State) (p : Bool) (e : Exch) : State :=
  let x := s.port p
  (s.setPort p { x with queue := x.queue.filter (fun y => y.id != e.id) }).letGo e.t e.held

/-- The exchange of port 0 whose trunk pass an entry is fails with it: the segment's miscount abort is lit (R163). -/
def State.trunkFails (s : State) (e : Exch) : State :=
  match e.trunkOf with
  | none => s
  | some _ => s.setPort false { s.port false with litMiscount := true }

/-- Ends an entry with a BUS_ fault: its record, its P and the fault at its C-core. -/
def State.exchFail (s : State) (p : Bool) (e : Exch) (code : Byte) (cause : Nat) : State :=
  let s := s.dropExch p e
  if e.trunkOf.isSome then s.trunkFails e
  else
    let s := if e.barr then s
      else s.commitBytes e.t none 0 (tileKey e.t 2 (bufOfs (dKaddr e.desc))) (e.record code.toNat cause 0)
    s.pendCore e.t .c 4 (mkTrap code (if e.barr then 0 else dKaddr e.desc) 0 15 e.t cause)

/-- Ends an entry that has not passed, and every entry behind it (R163). -/
def State.failFrom (s : State) (p : Bool) (id : Nat) (code : Byte) (cause : Nat) : State :=
  let q := (s.port p).queue.dropWhile (fun e => e.id != id)
  let s := q.foldl (fun s e => if e.id = id then s.exchFail p e code cause else s.exchFail p e Code.busMiscount 2) s
  let x := s.port p
  (s.setPort p { x with flight := x.flight.filter (fun f => x.queue.any (fun e => e.id == f.ex))
                        litMiscount := false, litRoster := false }).rearm p

/-- An entry enters a port's queue (R152, R334, R335); behind a BLEAVE that is done it ends at once (R341). -/
def State.queueExch (s : State) (p : Bool) (e : Exch) : State :=
  let x := s.port p
  let s := { s.setPort p { x with queue := x.queue ++ [e] } with nextExch := s.nextExch + 1 }
  if !x.en then s.exchFail p e Code.busRoster 1 else s.rearm p

end Sys2Proof.Machine
end

