-- ==== Sys2Proof/Machine/Commit.lean ====
section
/-!
DEFINITION. Chunks: beginning, squash, solo tokens, commit and what a chunk does at its commit (R74 to R92); semaphore
signals (R206); stopping a core for a save (R389); cancels (R189).
Log entries (notes/assumptions): 14 DEDUCED, 15 DEDUCED, 17 DEDUCED, 19 DEDUCED, 36 DEDUCED, 40 DEDUCED, 46 DEDUCED,
47 DEDUCED, 49 DEDUCED, 51 DEDUCED.
-/
namespace Sys2Proof.Machine

/-! ## Semaphores (R205 to R207) -/

def Tile.sem (x : Tile) (n : Nat) : Nat := (smGet 0 x.sems n).toNat

def Tile.setSem (x : Tile) (n v : Nat) : Tile := { x with sems := smPut x.sems n (BitVec.ofNat 16 v) }

/-- SEM_OVERFLOW's record: CAUSE bits 2:0 name the signalling core, bit 5 a further overflow (R206). -/
def semOvfTrap (t sem k again : Nat) : TrapInfo :=
  mkTrap Code.semOverflow (word sem) 0 15 t (k + (if again = 0 then 0 else 32))

/-- A semaphore has passed 65,535: the overflow is kept for the core that takes it, or marks the one not yet taken
(R206). -/
def Tile.semOverflowed (x : Tile) (sem by_ : Nat) : Tile :=
  match x.semOvf with
  | some o => { x with semOvf := some { o with again := o.again + 1 } }
  | none =>
    if x.cores.any (fun (_, c) => c.pend.any (fun p => p.item == 6)) then
      { x with cores := x.cores.map (fun (k, c) => (k, { c with pend := c.pend.map (fun p =>
          if p.item = 6 then { p with info := { p.info with cfdw := p.info.cfdw ||| 0x20 }, more := p.more + 1 } else p) })) }
    else { x with semOvf := some { sem := sem, by_ := by_, again := 0 } }

/-- Adds to a semaphore, saturating (R206). -/
def State.signal (s : State) (t sem n by_ : Nat) : State :=
  if n = 0 then s
  else s.updTile t (fun x =>
    let v := x.sem sem + n
    if v > 65535 then (x.setSem sem 65535).semOverflowed sem by_ else x.setSem sem v)

/-- An engine's completion signal; it is dropped, and counted, when the watch has exited (R401). -/
def State.engineSignal (s : State) (t sem n by_ : Nat) : State :=
  if (s.tile t).draining then (if n = 0 then s else s.updTile t (fun x => { x with drain := x.drain + 1 }))
  else s.signal t sem n by_

/-! ## Relaxed atomics (R85 to R89, R264, R265) -/

/-- The new value of a word; none for a compare-exchange that does not match (R264). -/
def atomicNew (op : AtomOp) (w : Nat) (uns : Bool) (old v nv : Nat) : Option Nat :=
  let view := fun (x : Nat) => if uns then (x : Int) else signedOf w x
  match op with
  | .add => some ((old + v) % 2 ^ w)
  | .and => some (old &&& v)
  | .or => some (old ||| v)
  | .xor => some (old ^^^ v)
  | .max => some (if view old < view v then v else old)
  | .min => some (if view v < view old then v else old)
  | .xchg => some v
  | .cas => if old = v then some nv else none

/-- The destination value of an atomic (R265). -/
def atomicOld (w : Nat) (uns : Bool) (old : Nat) : Word := if uns then word old else wordI (signedOf w old)

/-- The bytes of a range before the newest `m` updates that touched it (R88). -/
def undoUpdates (key : Nat) (cur : List Byte) (us : List Upd) : List Byte :=
  us.foldl (fun bs u => (bs.zipIdx).map (fun (b, i) =>
    let a := key + i
    if u.key ≤ a ∧ a < u.key + u.old.length then u.old.getD (a - u.key) b else b)) cur

/-- The updates of a word, newest first, that a .QNT atomic issued at `issued` by tile t may miss (R88): at most 16, none
older than 4 µs before its issue, and none at or before an update of the same tile. -/
def State.missable (s : State) (t key n issued : Nat) : List Upd :=
  ((s.updates.filter (fun u => decide (u.key < key + n) && decide (key < u.key + u.old.length))).takeWhile
    (fun u => u.t != t && decide (issued ≤ u.at_ + 6400))).take 16

/-! ### Solo tokens (R83) -/

/-- Whether core k of tile t holds the token it has asked for. -/
def State.hasToken (s : State) (t : Nat) (k : CoreK) : Bool := s.holders.any (fun q => q.t == t && q.k == k)

/-- Gives a core's token, or its request for one, back (R83). -/
def State.dropToken (s : State) (t : Nat) (k : CoreK) : State :=
  { s with solo := s.solo.filter (fun q => !(q.t == t && q.k == k)) }

/-- A .QNT update that a token does not hold back stands behind the holder's chunk in the commit order: `was` is the state
before it, whose bytes that chunk goes on reading (R83, R87). -/
def State.shield (s was : State) (a : RAtom) : State :=
  s.holders.foldl (fun s q => s.updCore q.t q.k (fun c => { c with chunk := (was.core q.t q.k).chunk.map (fun h => { h with
    late := h.late ++ [a]
    veil := (List.range (if a.wide then 8 else 4)).foldl (fun m i =>
      if (smFind m (a.key + i)).isSome then m else smPut m (a.key + i) (was.readByte a.keyNo (a.key + i))) h.veil }) })) s

/-! ### Performing -/

/-- Makes an atomic's update of its word (R264). -/
def State.updateWord (s : State) (t : Nat) (a : RAtom) : State :=
  let w := if a.wide then 64 else 32
  match atomicNew a.op w a.uns (s.readNat a.keyNo a.key (w / 8)) (a.v.toNat % 2 ^ w) (a.nv.toNat % 2 ^ w) with
  | some x => s.commitBytes t a.vf a.keyNo a.key (toBytes (w / 8) x)
  | none => s

/-- A core's store to a host page goes out (R267). -/
def State.hostStored (s : State) (t : Nat) (k : CoreK) (addr : Word) (bs : List Byte) : State :=
  { s.updCore t k (fun c => { c with hostAt := some s.fabric.nextId }) with hostOut := s.hostOut ++ [.write addr bs] }

/-- Stores the bytes of a value at the places of a stream's element (R247). -/
def State.putPlaces (s : State) (t : Nat) (k : CoreK) (vf : Option Nat) (ps : List Place) (v : Word) : State :=
  let bs := toBytes ps.length v.toNat
  match ps with
  | .host a :: _ => s.hostStored t k (word a) bs
  | .remote pkg pa :: _ =>
    let (id, s) := s.sendFab pkg pa (.store bs) (.store t k) none
    s.updCore t k (fun c => { c with fab := c.fab ++ [id] })
  | _ => (ps.zip bs).foldl (fun s (p, b) => match p with
    | .mem key kn _ => s.commitBytes t vf kn key [b]
    | _ => s) s

/-- Performs an atomic at the home of its line and pays its destination (R86, R88). -/
def State.performAtom (s : State) (t : Nat) (k : CoreK) (a : RAtom) : State :=
  let w := if a.wide then 64 else 32
  let n := w / 8
  let old := s.readNat a.keyNo a.key n
  let (seen, s) := if a.use = 3 then
      let us := s.missable t a.key n a.at_
      let (c, s) := s.choose
      (ofBytes (undoUpdates a.key (toBytes n old) (us.take c)), s)
    else (old, s)
  let s := if a.use = 3 then (s.updateWord t a).shield s a else s.updateWord t a
  let v := atomicOld w a.uns seen
  let s := s.putPlaces t k a.vf a.put v
  let pay := fun (r : Regs) =>
    let r := match a.dst with
      | some d => r.put d v
      | none => r
    if a.latch then { r with prv := v } else r
  s.updCore t k (fun c =>
    let wrote := (c.chunk.map (·.wrote)).getD []
    let cur := fun (r : Regs) =>
      let r' := match a.dst with
        | some d => if wrote.contains d then r else r.put d v
        | none => r
      if a.latch ∧ wrote.isEmpty then { r' with prv := v } else r'
    { c with regs := cur c.regs, chunk := c.chunk.map (fun h => { h with ck := pay h.ck }) })

/-- Performs every relaxed atomic the core has issued, in order (R85, R86). -/
def State.performAll (s : State) (t : Nat) (k : CoreK) : State :=
  let as := (s.core t k).atoms
  let s := s.updCore t k (fun c => { c with atoms := [] })
  as.foldl (fun s a => s.performAtom t k a) s

/-- Bytes of a relaxed atomic's word. -/
def RAtom.size (a : RAtom) : Nat := if a.wide then 8 else 4

/-- Whether two relaxed atomics touch a byte in common: of their words, or of where they store their values (R89). -/
def RAtom.overlaps (a b : RAtom) : Bool :=
  (decide (a.key < b.key + b.size) && decide (b.key < a.key + a.size)) || a.puts b.key b.size || b.puts a.key a.size ||
    a.put.any (fun p => b.put.contains p)

/-- Which of a core's relaxed atomics have to be performed when those that `which` names are: these, and the earlier ones that
overlap one of them (R86, R89). -/
def dueAtoms (which : RAtom → Bool) : List RAtom → List (RAtom × Bool)
  | [] => []
  | a :: as =>
    let r := dueAtoms which as
    (a, which a || r.any (fun (b, d) => d && a.overlaps b)) :: r

/-- Performs those of a core's relaxed atomics that `which` names, and before each the earlier ones of its bytes
(R86, R89). -/
def State.performSome (s : State) (t : Nat) (k : CoreK) (which : RAtom → Bool) : State :=
  let as := dueAtoms which (s.core t k).atoms
  let s := s.updCore t k (fun c => { c with atoms := (as.filter (fun (_, d) => !d)).map (·.1) })
  (as.filter (·.2)).foldl (fun s (a, _) => s.performAtom t k a) s

/-- The .QNT atomics of a tile's cores are performed: a chunk of the tile that runs in solo mode begins, and none of them is
placed behind it (R83, R89). -/
def State.qntNow (s : State) (t : Nat) : State :=
  CoreK.all.foldl (fun s k => s.performSome t k (fun a => a.use == 3)) s

/-! ## Tag records (R64) -/

/-- STATE as a number (R64). -/
def TagSt.num (t : TagSt) : Nat :=
  match t with
  | .free => 0
  | .busy => 1
  | .done => 2
  | .faulted => 3
  | .suspended => 4

/-- Bytes that a copy moves in all. -/
def TagRec.total (r : TagRec) : Nat := r.rows * r.rowlen

/-- DONEB: a multiple of 4,096 while the tag is FAULTED or SUSPENDED (R64). -/
def TagRec.shown (r : TagRec) : Nat :=
  if r.st = .faulted ∨ r.st = .suspended then r.doneb / 4096 * 4096 else r.doneb

/-- Word 0 of a tag record (R64). -/
def TagRec.word0 (r : TagRec) : Word :=
  word (r.st.num * 2 ^ 61 + r.ssem * 2 ^ 44 + r.sinc * 2 ^ 41 + r.kind * 2 ^ 36 + r.shown % 2 ^ 32)

/-- A tag record's eight words (R64). -/
def TagRec.words (r : TagRec) (aps : Word) : List Word :=
  [r.word0, word (r.rows * 2 ^ 32 + r.rowlen), r.src, r.dst, word (r.spitch * 2 ^ 32 + r.dpitch), r.fad,
    word r.fdw.toNat, aps]

/-- A tag's record in the tail follows the tag (R57, R64). -/
def State.noteTag (s : State) (t tag : Nat) : State :=
  s.commitWords t (tileKey t 0 ((s.tile t).tailOfs + 0x4800 + 64 * tag))
    ((smGet TagRec.init (s.tile t).tags tag).words (Config.apsWord t tag))

/-- A tag has changed its state: its record follows, and a chunk that has read the state meets the change (R279). -/
def State.turnTag (s : State) (t tag : Nat) : State := (s.noteTag t tag).conflict [tagLine t tag]

/-! ## Stopping a core (R389, R391) -/

/-- A REQUESTED watch whose cores have all stopped or ended goes to SAVING (R389). -/
def State.saveCheck (s : State) (t : Nat) : State :=
  match (s.tile t).watch with
  | some w =>
    let idle := CoreK.all.all (fun k => let r := (s.core t k).run; r == .off || r == .stopped)
    let some_ := CoreK.all.any (fun k => (s.core t k).run == .stopped)
    if w.st = .requested ∧ idle ∧ some_ then
      s.updTile t (fun x => { x with watch := some { w with st := .saving } })
    else s
  | none => s

/-- Adds back the waits that an instruction of core k has consumed when it will be issued again (R205, R260). -/
def State.restoreWait (s : State) (t : Nat) (k : CoreK) : State :=
  let c := s.core t k
  ((c.chunk.bind (·.consumed)).toList ++ c.regs.mid.toList ++ (if c.granted then c.waiting.toList else [])).foldl (fun s (sem, n) => s.signal t sem n k.idx) s

/-- Stops a core at a boundary; it resumes at its instruction pointer, and a wait it consumed is added back
(R242, R389, R391, R393). -/
def State.stopCore (s : State) (t : Nat) (k : CoreK) (forced : Bool) : State :=
  let s := ((s.restoreWait t k).leaveJoin t k).updCore t k (fun c => { c with
    run := .stopped, chunk := none, waiting := none, granted := false, stalled := false, ext := none, walks := [], taking := [], forced := forced,
    regs := { c.regs with ctpc := c.regs.ip.truncate 19, bd := false, code := if forced then 0x80 else c.regs.code,
                          mid := none } })
  s.saveCheck t

/-- Whether a YIELD meets a request: pending, and held neither by privileged mode nor by parking (R61, R242, R387). -/
def Core.yields (c : Core) : Bool := c.prq && !c.regs.priv && !c.regs.park

/-- Whether the spill and return areas have room for all that a save spills (R392). -/
def Core.saveRoom (c : Core) : Bool :=
  let r := c.regs
  (r.ras.isEmpty || decide (8 * (r.rcnt + r.ras.length) ≤ Nat.min r.sbase.toNat c.privEnd)) &&
  (r.live == 0 || decide (r.sptr.toNat + 8 * r.live ≤ c.privEnd))

/-! ## Cancels (R189, R190, R361) -/

/-- Cancels a graph run: no further node runs, and its unfinished launches are cancelled (R189). -/
def State.cancelRun (s : State) (r cause : Nat) : State :=
  match s.run? r with
  | some x =>
    if x.state ≠ 1 then s
    else
      let s := s.setRun { x with cancelled := true, cause := cause }
      (x.launches.foldl (fun s l => s.cancelAll l cause) s).runSettle r
  | none => s

/-- Cancels a job (R189): its graphs, its launches and the starts of its tick plan. -/
def State.cancelJob (s : State) (jid cause : Nat) : State :=
  match s.job? jid with
  | some j =>
    if j.state ≠ 1 then s
    else
      let s := s.setJob { j with cancelled := true, plan := none, cause := cause }
      let s := (s.runs.filter (fun r => r.jid == jid)).foldl (fun s r => s.cancelRun r.id cause) s
      let s := (s.launches.filter (fun l => l.jid == jid)).foldl (fun s l => s.cancelAll l.id cause) s
      s.jobSettle jid
  | none => s

/-- A phase cancel: every core of the group takes CANCEL at its next boundary, one of a saved watch after its restore
(R189). -/
def State.cancelPhase (s : State) (l : Nat) : State :=
  match s.launch? l with
  | some x => if x.grp.isSome then s.pendGroup x 8 Code.cancel else s
  | none => s

/-! ## Commit (R74 to R84) -/

/-- Cuts buffered bytes into runs at rising places under one key. -/
def storeRuns (stores : SMap Byte) (keys : SMap Nat) : List (Nat × Nat × List Byte) :=
  (stores.foldl (fun (acc : List (Nat × Nat × List Byte)) (k, b) =>
    let kn := smGet 0 keys k
    match acc with
    | (k0, kn0, bs) :: rest =>
      if k0 + bs.length = k ∧ kn0 = kn then (k0, kn0, bs ++ [b]) :: rest else (k, kn, [b]) :: acc
    | [] => [(k, kn, [b])]) []).reverse

/-- A translation invalidation completes (R39, R358): relaxed atomics that have used a translation under the context are
performed, the cached entries go, and a chunk that has used one of them is met, for it commits later. -/
def State.invalidate (s : State) (ctx : Byte) (va : Option Nat) : State :=
  let gone := fun (l : Nat) => [16, 21, 30].any (fun log => match va with
    | some v => l == pageLine ctx log (v / 2 ^ log)
    | none => decide (pageLine ctx log 0 ≤ l) && decide (l < pageLine ctx log (2 ^ 48)))
  let s := s.tiles.foldl (fun s (t, x) => CoreK.all.foldl (fun s k =>
    if (x.core k).cctx = ctx then s.performSome t k (fun a => isHbm a.key) else s) s) s
  let used := s.tiles.flatMap (fun (_, x) => CoreK.all.flatMap (fun k => (((x.core k).chunk.map (·.rset)).getD []).filter gone))
  (s.dropTlb (fun l => l.ctx == ctx && va.all (fun v => l.page == v / 2 ^ l.log))).conflict used

/-- A packet or read of a copy's transfer is on its way (R94). -/
def State.transferDue (s : State) (num : Nat) : Bool :=
  s.fabric.pending.any (fun o => match o.what with
    | .copy _ _ _ _ n => n == num
    | .copyRead _ _ _ n => n == num
    | _ => false)

/-- The copies of a tile whose transfer has no number yet get one. -/
def State.numberTags (s : State) (t : Nat) : State :=
  (s.tile t).tags.foldl (fun s (n, r) =>
    if r.st = .busy ∧ r.transfer = 0 then
      { s.updTile t (fun x => { x with tags := smPut x.tags n { r with transfer := s.fabric.nextTransfer + 1 } }) with
        fabric := { s.fabric with nextTransfer := s.fabric.nextTransfer + 1 } }
    else s) s

/-- The transfers of a tile's tags in use. -/
def Tile.transfers (x : Tile) : List Nat := (x.tags.filter (fun (_, r) => r.st != .free)).map (fun (_, r) => r.transfer)

/-- The chunk of a fence has committed: its core stands behind it, a FENCE.F for its own stores and the transfers that the
tile's X-core has begun (R94, R267). -/
def State.fenceBegun (s : State) (t : Nat) (k : CoreK) (kind : Nat) (ip : Word) (inSlot : Bool) : State :=
  let s := if kind = 1 then s.numberTags t else s
  let x := s.tile t
  let nums := if kind = 1 then (x.core .x).orphans ++ x.transfers else []
  s.updCore t k (fun c => { c with fence := some ⟨kind, ip, inSlot, nums⟩ })

/-- What one action of a chunk does at its commit (R76, R90). -/
def State.doAct (s : State) (t : Nat) (k : CoreK) (lm0 : SMap Byte) (a : Act) : State :=
  match a with
  | .signal sem n => s.signal t sem n k.idx
  | .give slabs => (s.performAll t k).flip t slabs true
  | .fence => s.performAll t k
  | .atomic a =>
    if a.use = 6 then (s.performAll t k).performAtom t k a
    else if a.use = 5 then (s.performSome t k (fun b => b.overlaps a)).performAtom t k a
    else s.updCore t k (fun c => { c with atoms := c.atoms ++ [a] })
  | .matrix m => s.matrixIssue t m
  | .stoch z => s.updTile t (fun x => { x with zq := x.zq ++ [z] })
  | .copy tag r =>
    if r.st = .done then
      ((s.updTile t (fun x => { x with tags := smPut x.tags tag r })).turnTag t tag).engineSignal t r.ssem r.sinc k.idx
    else (s.updTile t (fun x => { x.addP r.held with tags := smPut x.tags tag r })).turnTag t tag
  | .exchange port desc held sem sinc | .barrier port desc held sem sinc =>
    let barr := match a with
      | .barrier _ _ _ _ _ => true
      | _ => false
    let e : Exch := { id := s.nextExch, t := t, barr := barr, noPeriod := barr && (s.port port).pkey.isSome, desc := desc,
                      sem := sem, sinc := sinc, held := held, hist := [], next := 0, passed := 0, fails := [],
                      replays := 0, lastP := 0, armed := false, nums := [], al := [], trunkOf := none, trunkSt := 0, trunk := [] }
    (s.updTile t (fun x => x.addP held)).queueExch port e
  | .tagOp drop tag =>
    let r := smGet TagRec.init (s.tile t).tags tag
    if r.st ≠ .faulted then s
    else if drop then
      let s := s.updCore t .x (fun c => { c with orphans := (r.transfer :: c.orphans).filter s.transferDue })
      ((s.updTile t (fun x => { x with tags := smPut x.tags tag { r with st := .free, held := [] } })).letGo t r.held).turnTag t tag
    else (s.updTile t (fun x => { x with tags := smPut x.tags tag { r with st := .busy } })).turnTag t tag
  | .cbld slot es =>
    (s.updTile t (fun x => { x with cb := smPutList x.cb (16 * slot) es })).conflict [cbLine t slot]
  | .aptset n w0 w1 => match s.jobOn t with
    | some j => (s.setJob { j with apt := smPut j.apt n (w0, w1) }).conflict [aptLine j.jid n]
    | none => s
  | .tlbi ctx va => s.invalidate ctx va
  | .check i => (s.logCheck t i.code i.cfad).pendCore t k 1 i
  | .endTask => (s.taskEnd t k false).saveCheck t
  | .yield => if (s.core t k).yields ∧ (s.core t k).saveRoom then s.stopCore t k false else s
  | .trap info => s.updCore t k (fun c => { c with due := c.due ++ [(c.regs.priv, info)] })
  | .fenceWait kind ip inSlot => s.fenceBegun t k kind ip inSlot
  | .instrView => s.updCore t k (fun c => { c with iview := lm0 })
  | .phaseEnd =>
    let s := s.updCore t k (fun c => { c with arrived := true, arrAt := s.gtc })
    match s.launchOn t with
    | some l => s.groupCheck l
    | none => s
  | .hostStore addr bs => s.hostStored t k addr bs
  | .fabStore pkg pa bs =>
    let (id, s) := s.sendFab pkg pa (.store bs) (.store t k) none
    s.updCore t k (fun c => { c with fab := c.fab ++ [id] })
  | .cancel level name => match level with
    | 0 => s.cancelAll name 0
    | 1 => s.cancelRun name 0
    | 2 => s.cancelPhase name
    | _ => s.cancelJob name 0

/-- The .QNT updates behind a chunk in the commit order whose words it stores to (R83). -/
def Chunk.under (h : Chunk) : List RAtom :=
  h.late.filter (fun a => (List.range (if a.wide then 8 else 4)).any (fun i => (smFind h.stores (a.key + i)).isSome))

/-- The stores of a chunk as one commit. Updates that stand behind it are undone before and made again after. -/
def State.commitStores (s : State) (t : Nat) (h : Chunk) : State :=
  let s := h.under.foldl (fun s a => s.pokeBytes a.keyNo a.key ((List.range (if a.wide then 8 else 4)).map (fun i =>
    (smFind h.veil (a.key + i)).getD 0))) s
  let s := (storeRuns h.stores h.skey).foldl (fun s (key, kn, bs) => s.commitBytes t h.vf kn key bs) s
  h.under.foldl (fun s a => s.updateWord t a) s

/-- Commits a core's chunk (R74): its stores as one commit, then its actions in order. -/
def State.commitChunk (s : State) (t : Nat) (k : CoreK) : State :=
  let c := s.core t k
  match c.chunk with
  | none => s
  | some h =>
    let s := s.setCore t k { c with
      chunk := none, ext := none, walks := [], solo := if 4 ≤ h.squashes then Nat.min 65535 (c.solo + 1) else c.solo
      atoms := if h.wrote.isEmpty then c.atoms else c.atoms.map (fun a =>
        { a with dst := a.dst.filter (fun d => !h.wrote.contains d), latch := false }) }
    let s := s.commitStores t h
    let s := h.acts.foldl (fun s a => s.doAct t k h.lm0 a) s
    s.dropToken t k

/-- Whether the command queue of core k's engine has room: copy 16, matrix 8, stochastic 8 (R375). A copy leaves its queue
as it ends or is suspended. -/
def State.roomFor (s : State) (t : Nat) (k : CoreK) : Bool :=
  let x := s.tile t
  match k with
  | .x => decide ((x.tags.filter (fun (_, r) => r.st == .busy)).length < 16)
  | .m => decide (x.mq.length < 8)
  | .s => decide (x.zq.length < 8)
  | _ => true

/-- Whether a port's queue has room (R334). -/
def State.portRoom (s : State) (p : Bool) : Bool := decide ((s.port p).queue.length < 32)

/-- Whether P is below 255 on each slab of a list (R50). -/
def State.pRoom (s : State) (t : Nat) (slabs : List SlabId) : Bool := slabs.all (fun (b, n) => decide ((s.tile t).slabP b n < 255))

/-- Whether a tile has what an instruction of core k needs to issue (R375). -/
def State.hasNeed (s : State) (t : Nat) (k : CoreK) (n : Need) : Bool :=
  match n with
  | .engine => s.roomFor t k
  | .port p => s.portRoom p
  | .tag n => let st := (smGet TagRec.init (s.tile t).tags n).st; st != .busy && st != .suspended
  | .slabs ls => s.pRoom t ls

/-- Whether a chunk must wait with its commit: for the engine instructions that read a codebook slot it loads (R63), and while
a slab of an engine instruction that it hands over has P at 255 (R50), or the queue of a port is full again (R334, R337). -/
def State.commitWaits (s : State) (t : Nat) (h : Chunk) : Bool :=
  h.acts.any (fun a => match a with
    | .cbld slot _ => s.slotBusy t slot
    | .copy _ r => !s.pRoom t r.held
    | .matrix m => !s.pRoom t m.slabs
    | .exchange port _ held _ _ | .barrier port _ held _ _ => !s.pRoom t held || !s.portRoom port
    | _ => false)

/-- A commit has met the block's own line of a bind that waits: the squash counts towards no solo mode (R181). -/
def Chunk.ownLine (h : Chunk) : Bool := h.binds && h.hit.any (fun l => h.block.contains l)

/-- The chunk of a core tries to commit (R79, R83). -/
def State.tryCommit (s : State) (t : Nat) (k : CoreK) : State :=
  match (s.core t k).chunk with
  | none => s
  | some h =>
    if h.met ∧ !h.single then s.squash t k (!h.ownLine)
    else if s.soloBlocked t k ∨ s.commitWaits t h then s
    else s.commitChunk t k

end Sys2Proof.Machine
end

