-- ==== Sys2Proof/Machine/Issue.lean ====
section
/-!
DEFINITION. How a core instruction runs: the decode checks that depend on the core (R209), the boundary and the wait before
it (R75, R205), its predicate (R202), its effect, and what follows it: the instruction pointer, the end of a transfer, the
signal and the boundary after it (R195, R206, R210). Every meaning of a core instruction is `runCore` of its own effect.
Log entries (notes/assumptions): 14 DEDUCED, 15 DEDUCED, 40 DEDUCED, 60 DEDUCED.
-/
namespace Sys2Proof.Machine

/-- What an entry says beside its effect. -/
structure Entry where
  cores : Cores
  /-- Privileged (R209 row 5), and refused in a job with PF = 0 even then (R379). -/
  priv : Bool
  pf : Bool
  /-- A transfer with a delay slot (R210). -/
  transfer : Bool
  /-- A phase-group entry (R209 row 3). -/
  group : Bool
  /-- Boundaries of R75. -/
  before : Bool
  after : Bool
  /-- Its effect on the tile is made as it runs, and its chunk commits with it. -/
  own : Bool
  /-- Its signal is its engine's to give (R76). -/
  engine : Bool
  /-- It writes nothing but DF and the latch, and reads this many of AF, BF, CF (R86). -/
  plain : Bool
  srcs : Nat
deriving DecidableEq, Repr

/-- An entry of every core with no boundary of its own. -/
def Entry.base : Entry :=
  { cores := .all, priv := false, pf := false, transfer := false, group := false, before := false, after := false,
    own := false, engine := false, plain := false, srcs := 3 }

/-- An entry that writes DF from its sources. -/
def Entry.alu (srcs : Nat) : Entry := { Entry.base with plain := true, srcs := srcs }

/-- Whether a core may execute an entry's range (R208). -/
def coreMatches (c : Cores) (k : CoreK) : Bool :=
  match c with
  | .all => true
  | .c => k == .c
  | .m => k == .m
  | .v => k == .v
  | .x => k == .x
  | .s => k == .s

/-- Whether the launch on a tile forms a phase group (R182). -/
def State.inGroup (s : State) (t : Nat) : Bool := ((s.launchOn t).bind s.launch?).any (fun l => l.grp.isSome)

/-- The checks of R209 that depend on the core: rows 1, 3 (phase-group entries), 4 and 5, in this order. -/
def State.gate (s : State) (e : Entry) : Option TrapInfo :=
  let r := s.me.regs
  if e.transfer ∧ r.slot.isSome then some (s.ipTrap Code.delayBranch 0)
  else if e.group ∧ !s.inGroup s.curTile then some (s.ipTrap Code.illegalOpc 2)
  else if !coreMatches e.cores s.curCore then some (s.ipTrap Code.wrongCore s.curCore.idx)
  else if e.priv ∧ !r.priv then some (s.ipTrap Code.privilege 0)
  else if e.pf ∧ !(s.jobOn s.curTile).any (·.pf) then some (s.ipTrap Code.privilege 1)
  else none

/-- The predicate of an instruction holds (R202). -/
def Regs.holds (r : Regs) (h : Hdr) : Bool := r.pred (h.prd.toNat % 8) != h.prd.getLsbD 3

/-- The next slot in sequence (R195). -/
def ipNext (ip : Word) : Word := if ip.toNat % 8 = 4 then ip + 60 else ip + 1

/-- A well-formed IP (R195). -/
def ipOk (ip : Word) : Bool := Word.bits ip 19 45 == 0 && Word.bits ip 3 3 == 0 && decide (ip.toNat % 8 ≤ 4)

/-- Whether a relaxed atomic still owes a destination that an instruction would meet: it is then performed first (R86). -/
def Core.atomDue (c : Core) (e : Entry) (x : Ops) : Bool :=
  c.atoms.any (fun a => (a.dst.isSome || a.latch) &&
    (!e.plain || ([x.a, x.b, x.c].take e.srcs).any (fun o => some o == a.dst || (o == .prv && a.latch)) ||
      some (Opd.p (x.h.prd.toNat % 8)) == a.dst))

/-- A grant of the semaphore unit that the core cannot use is given back (R378). -/
def State.ungrant (s : State) : State :=
  let c := s.me
  if c.granted then (c.waiting.toList.foldl (fun s (sem, n) => s.signal s.curTile sem n s.curCore.idx)
    (s.setMe { c with granted := false }))
  else s

/-- The acting core's instruction cannot issue: a wait that this attempt has consumed is given back, for it is made only with
the issue (R375, R378). -/
def State.unwait (s : State) : State :=
  match s.me.chunk with
  | some h => match h.consumed with
    | some (sem, n) =>
      if 0 < h.len ∨ 0 < h.squashes then s
      else (s.setMe { s.me with chunk := none }).signal s.curTile sem n s.curCore.idx
    | none => s
  | none => s

/-- The instruction stalls at issue and is issued again (R375). -/
def holdIssue {α : Type} : Exec α := stallWith State.unwait

/-- An instruction stalls at issue until it has what it needs; the trial of one that waits notes the need, and goes on
(R375, R378). -/
def needs (n : Need) : Exec Unit := do
  let s ← getState
  if s.me.trial then modState (fun s => s.setMe { s.me with needs := s.me.needs ++ [n] })
  else if !s.hasNeed s.curTile s.curCore n then holdIssue

/-- An engine instruction stalls at issue while a slab it names has P at 255 (R50). -/
def roomForP (slabs : List SlabId) : Exec Unit := needs (.slabs slabs)

/-- The acting core's chunk begins with an instruction, in the chunk `old` that a squash has left or in a new one: it takes
the wait first, if that has not been consumed (R75, R76, R205). A chunk in which a bind waits has begun before (R181). -/
def State.beginChunk (s : State) (e : Entry) (wait : Option (Nat × Nat)) (old : Option Chunk) : State ⊕ State :=
  let t := s.curTile
  let c := s.me
  let fresh := fun (w : Option (Nat × Nat)) => some (s.newChunk t c.regs w ((old.map (·.squashes)).getD 0))
  match wait, old.bind (·.consumed) with
  | some w, none =>
    if c.granted then .inr (s.setMe { c with granted := false, waiting := none, trial := false, chunk := fresh (some w) })
    else .inl (s.setMe { c with waiting := some w, forOwn := e.own })
  | _, _ => .inr (s.setMe { c with trial := false, chunk := match old with
      | some h => some (if h.binds then h else { h with hit := [], lm0 := s.lmImage t })
      | none => fresh none })

/-- The admission of an instruction to its chunk: the commit of a closed chunk, a boundary, a solo token, the wait. -/
def State.admission (s : State) (e : Entry) (x : Ops) : State ⊕ State :=
  let t := s.curTile
  let k := s.curCore
  let c := s.me
  let wait := if x.h.wthr != 0 && c.regs.mid.isNone then some (x.h.wsem.toNat, x.h.wthr.toNat) else none
  if c.chunk.any (·.closed) then .inl (s.tryCommit t k)
  else if c.chunk.any (fun h => decide (0 < h.len)) then
    (if e.before ∨ wait.isSome then .inl s.closeChunk
     else if e.own ∧ c.chunk.any (fun h => h.met && !h.single) then .inl (s.squash t k true)
     else .inr (s.setMe { c with trial := false }))
  else if c.chunk.any (fun h => decide (4 ≤ h.squashes) && !s.hasToken t k) then .inl s.ungrant
  else (if c.chunk.isSome && s.hasToken t k then s.qntNow t else s).beginChunk e wait c.chunk

/-- What comes before an instruction issues: the relaxed atomics whose results it meets (R86), and its admission. Left is the
state when it does not issue in this step; right, the state it issues in, with its chunk begun. -/
def State.prepare (s : State) (e : Entry) (x : Ops) : State ⊕ State :=
  let s := s.setMe { s.me with stalled := false, taking := [] }
  if !s.me.atomDue e x then s.admission e x
  else if s.soloBlocked s.curTile s.curCore then .inl s.ungrant
  else (s.performAll s.curTile s.curCore).admission e x

/-- A precise trap on the acting core's instruction (R84, R205, R211): an earlier part of its chunk commits first, and the
instruction is then issued again; otherwise any consumed wait is added back and the trap is taken, once no solo token holds the commit of its frame back
(R83). -/
def State.preciseTrap (s : State) (i : TrapInfo) : State :=
  let t := s.curTile
  let k := s.curCore
  let c := s.me
  if c.chunk.any (fun h => decide (0 < h.len)) then s.closeChunk
  else if s.soloBlocked t k then s
  else
    let s := if 0xF0 ≤ i.code.toNat then s.logCheck t i.code i.cfad else s
    ((s.restoreWait t k).dropToken t k).enterTrap t k i (c.regs.ip.truncate 19)
      (match c.regs.slot with
        | some sl => sl.target.truncate 19
        | none => c.regs.ctnpc) c.regs.slot.isSome c.regs.slot

/-- The window slides as a CALL or RET takes effect (R238, R239). -/
def Regs.slide (r : Regs) (a : SlotAct) : Regs :=
  match a with
  | .slideUp n => { r with base := (r.base + n) % 192, live := r.live + n }
  | .slideDown n => { r with base := (r.base + 192 - n) % 192, live := r.live - n }
  | _ => r

/-- A transfer takes effect after its delay slot (R210, R238, R239, R356). -/
def completeSlot (sl : Slot) : Exec Unit := do
  modRegs (fun r => { (r.slide sl.act) with ip := sl.target, slot := none })
  match sl.act with
  | .endTask =>
    atCommit .endTask
    closeAfter
  | .trapret => do
    let s ← getState
    let key := s.areaKey s.curTile s.curCore + 0x30
    let c : Acc := { kind := 0, write := false, addr := localAddr s.curTile key, space := 2 }
    checkTail key 112
    let bs ← readPlace c (.mem key 0 false) 112
    modRegs (fun r => (r.restoreFrame (wordsOf bs)).trapReturn)
  | _ => pure ()
  match sl.notice with
  | some i =>
    atCommit (.trap i)
    closeAfter
  | none => pure ()

/-- The instructions a chunk may hold (R75, R77). -/
def Regs.chunkLimit (r : Regs) : Nat := if r.maxlen = 0 then 512 else r.maxlen.toNat

/-- A chunk after one more instruction of an entry: its signal stands among its actions unless an engine gives it, before the
end of its task, which the core that may take an overflow does not outlive (R206); it
is one instruction longer, and it is closed where R75 puts a boundary. -/
def Chunk.grow (h : Chunk) (e : Entry) (x : Ops) (ran : Bool) (c : Core) : Chunk :=
  { h with
    acts := if x.h.sinc = 0 ∨ (e.engine && ran) then h.acts
      else h.acts.filter (· ≠ .endTask) ++ [.signal x.h.ssem.toNat x.h.sinc.toNat] ++ h.acts.filter (· = .endTask)
    len := h.len + 1
    wrote := if ran && c.atoms.any (fun a => a.dst.isSome || a.latch) then x.d :: h.wrote else h.wrote
    closed := h.closed || e.after || x.h.sinc != 0 || decide (c.regs.chunkLimit ≤ h.len + 1) }

/-- The acting core's chunk, one instruction longer. -/
def State.grow (s : State) (e : Entry) (x : Ops) (ran : Bool) : State :=
  s.setMe { s.me with chunk := s.me.chunk.map (fun h => h.grow e x ran s.me) }

/-- What follows an instruction's effect: the instruction pointer, or the end of a transfer (R195, R210), and the chunk. -/
def finish (e : Entry) (x : Ops) (ran : Bool) : Exec Unit := do
  modRegs (fun r => { r with mid := none })
  let r ← getRegs
  if e.transfer then
    let next := ipNext r.ip
    modRegs (fun r => { r with
      ip := next
      slot := match r.slot with
        | some sl => some sl
        | none => some { target := ipNext next, act := .plain, notice := none } })
  else
    match r.slot with
    | none => modRegs (fun r => { r with ip := ipNext r.ip })
    | some sl => completeSlot sl
  modState (fun s => s.grow e x ran)

/-- An admitted instruction: its effect when its predicate holds, and what follows. A transfer at the last slot of LM
faults on itself whatever its predicate, for its delay slot would lie past LM all the same (R195, R202; DEDUCED, log
entry 60). An engine instruction waits for room in its engine's queue (R375). -/
def issueBody (e : Entry) (x : Ops) (body : Exec Unit) : Exec Unit := do
  let r ← getRegs
  if e.transfer ∧ r.ip = 0x7FFC4 then
    let s ← getState
    throwTrap (mkTrap Code.badTarget 0x80000 0 15 s.curTile 3)
  if r.holds x.h then
    if e.engine then needs .engine
    body
    finish e x true
  else finish e x false

/-- What follows a piece that is not the last of its instruction: it counts as one instruction, and the instruction
pointer stays (R260). -/
def stay (x : Ops) : Exec Unit := do
  let r ← getRegs
  modRegs (fun r => { r with mid := some (r.mid.getD
    (if x.h.wthr = 0 then (0, 0) else (x.h.wsem.toNat, x.h.wthr.toNat))) })
  modChunk (fun h => { h with len := h.len + 1, closed := h.closed || decide (r.chunkLimit ≤ h.len + 1) })

/-- An admitted instruction that runs in pieces: `piece` does one and tells whether another follows. -/
def pieceBody (e : Entry) (x : Ops) (piece : Exec Bool) : Exec Unit := do
  let r ← getRegs
  if r.holds x.h then
    if ← piece then stay x else finish e x true
  else finish e x false

/-- The state in which an instruction that makes its effect on the tile as it runs makes it: what stands in its chunk before it
has committed (R75). -/
def State.ownStart (s : State) : State :=
  let t := s.curTile
  let k := s.curCore
  if s.me.chunk.any (fun h => decide (0 < h.len)) then
    (s.commitChunk t k).updCore t k (fun c => { c with chunk := some ((s.commitChunk t k).newChunk t c.regs none 0) })
  else s

/-- Runs an admitted instruction that makes its effect on the tile as it runs: its chunk commits with it, in the same step. -/
def State.attemptOwn (s : State) (whole : Exec Unit) : State :=
  let s := s.ownStart
  match whole s with
  | .ok (_, s') => s'.commitChunk s.curTile s.curCore
  | .error (.trap i) => s.preciseTrap i
  | .error (.stall f) => f s

/-- Whether a chunk commits with the instruction that has just run: an uncached access is a single-access commit (R80), and the
4 µs of a .QNT atomic begin as it issues (R88). -/
def State.commitsNow (s s' : State) : Bool :=
  s'.me.chunk.any (fun h => (h.single && !s.me.chunk.any (·.single)) || h.acts.any (fun a => match a with
    | .atomic r => r.use == 3
    | _ => false))

/-- What stands in the way of a commit with the instruction that has just run: a solo token (R83), or a line of the chunk that
another commit has written. -/
def State.heldBack (s s' : State) : Bool :=
  s.soloBlocked s.curTile s.curCore || s'.me.chunk.any (fun h => h.met && !h.single)

/-- The end of an instruction that has left `s'`: its chunk commits if it has to. -/
def State.conclude (s s' : State) : State :=
  if !s.commitsNow s' then s'
  else if s.soloBlocked s.curTile s.curCore then s.ungrant.unwait
  else if s.heldBack s' then s.squash s.curTile s.curCore true
  else s'.commitChunk s.curTile s.curCore

/-- Runs an admitted instruction. -/
def State.attempt (s : State) (e : Entry) (whole : Exec Unit) : State :=
  match whole s with
  | .ok (_, s') =>
    if !e.own then s.conclude s'
    else if s.soloBlocked s.curTile s.curCore then s.ungrant.unwait
    else s.attemptOwn whole
  | .error (.trap i) => s.preciseTrap i
  | .error (.stall f) => f s

/-- A core whose instruction waits for its grant learns by a trial of it what else it needs: the semaphore unit grants only an
instruction whose other conditions hold (R378). -/
def State.noteNeeds (s : State) (whole : Exec Unit) : State :=
  let c := s.me
  if c.waiting.isSome ∧ !c.granted then
    let u := s.setMe { c with trial := true, needs := [], chunk := some (s.newChunk s.curTile c.regs none 0) }
    s.setMe { c with needs := match whole u with
      | .ok (_, v) => v.me.needs
      | .error _ => [] }
  else s

/-- The issue of a core instruction: its gate, its admission, then all it does. -/
def runWhole (e : Entry) (x : Ops) (whole : Exec Unit) (s : State) : Out :=
  .next (match s.gate e with
    | some i => s.preciseTrap i
    | none => match s.prepare e x with
      | .inl s => s.noteNeeds whole
      | .inr s => s.attempt e whole)

/-- The meaning of a core instruction whose effect is `body`. -/
def runCore (e : Entry) (x : Ops) (body : Exec Unit) (s : State) : Out := runWhole e x (issueBody e x body) s

/-- The meaning of a core instruction that runs in pieces (R260). -/
def runPieces (e : Entry) (x : Ops) (piece : Exec Bool) (s : State) : Out := runWhole e x (pieceBody e x piece) s

end Sys2Proof.Machine
end

