-- ==== Sys2Proof/Machine/Atomic.lean ====
section
/-!
DEFINITION. Atomics: OPC 0x0D4 to 0x0F3 (R85 to R89, R264 to R266).
Log entries (notes/assumptions): 63 DESIGN CHOICE.
-/
namespace Sys2Proof.Machine

/-- The place of an atomic's word of `n` bytes in global memory: through an identity or swap aperture, or none (R31). No place
when the elements of a swap aperture are narrower than the word, whose bytes then lie apart (R30). -/
def atomGlob (c : Acc) (va n : Nat) : Exec (Option Place) := do
  match aptFind (← useApts va) va with
  | none => return some (← xlate c va)
  | some (w0, w1) =>
    if aptXf w1 = 3 ∧ 2 ^ Word.bits w1 9 2 < n then return none
    else if aptXf w1 = 0 ∨ aptXf w1 = 3 then return some (← xlate c (aptByte w1 (va - Word.bits w0 21 35 * 2 ^ 21)))
    else faultAcc c Code.protection 0x04

/-- The place of an atomic's word (R266). No host page is one: its translation has been refused. -/
def atomPlace (c : Acc) (n : Nat) : Exec (Option Place) := do
  match ← locate c n false with
  | .win _ => faultAcc c Code.protection 0x03
  | .tile t buf ofs => do
    rowTarget c t
    checkOwner c t buf ofs
    return some (.mem (tileKey t buf ofs) 0 false)
  | .glob va => atomGlob c va n

/-- A relaxed atomic's bytes in a line of the chunk's write set: the chunk commits first (R89). -/
def atomAfterStores (key : Nat) : Exec Unit := fun s =>
  match s.me.chunk with
  | some h => if 0 < h.len ∧ (h.stores.any (fun (k, _) => lineOf k == lineOf key)) then .error (.stall State.closeChunk)
      else .ok ((), s)
  | none => .ok ((), s)

/-- An atomic inside its chunk, whose signatures hold its read and its write (R86). -/
def atomInChunk (dst : Option Opd) (op : AtomOp) (w : Nat) (uns : Bool) (v nv : Word) (read : Exec (List Byte))
    (write : List Byte → Exec Unit) : Exec Unit := do
  let old := ofBytes (← read)
  match atomicNew op w uns old (v.toNat % 2 ^ w) (nv.toNat % 2 ^ w) with
  | some y => write (toBytes (w / 8) y)
  | none => pure ()
  match dst with
  | some d => writeOpd d (atomicOld w uns old)
  | none => pure ()

/-- The places of the element that a write of a stream stores, with its checks, once no earlier atomic of the core stands before
them (R89); the stream advances (R247). -/
def streamSlot (n : Nat) : Exec (List Place) := do
  let st := (← getRegs).stream n
  if !st.bound then faultIp Code.streamUnbound 0x01
  if !st.write then faultIp Code.streamUnbound 0x03
  let w := widthOf st.ty / 8
  let c := accOf 1 true st.ea
  let ps ← if st.empty then pure [] else do storePlaces c (← locate c w false) w
  let me := (← getState).me
  if ps.any (fun p => match p with
      | .mem key _ _ => me.atomOverlap key 1
      | _ => false) then stallWith (fun s => s)
  streamStep n
  return ps

/-- Whether the part holds back what an atomic has to do first: the core's relaxed atomics are performed before an .REL or .SC
one leaves for another package (R83, R85). -/
def atomFirst (orders : Bool) : Exec Unit := do
  let s ← getState
  if orders ∧ !s.me.atoms.isEmpty then
    stallWith (fun s => if s.soloBlocked s.curTile s.curCore then s else s.performAll s.curTile s.curCore)

/-- The package and the addresses of the bytes of a word that a swap aperture takes apart, when all lie on one other package. -/
def atomAway (c : Acc) (va n : Nat) : Exec (Option (Nat × List Nat)) := do
  match aptFind (← useApts va) va with
  | none => return none
  | some (w0, w1) =>
    let ps ← (List.range n).mapM (fun i => xlate c (aptByte w1 (va - Word.bits w0 21 35 * 2 ^ 21 + i)))
    let at_ := ps.filterMap (fun p => match p with
      | .remote pkg pa => some (pkg, pa)
      | _ => none)
    match at_ with
    | (pkg, _) :: _ => return if at_.length = n ∧ at_.all (·.1 == pkg) then some (pkg, at_.map (·.2)) else none
    | [] => return none

/-- An atomic on another package: a request that waits for its value (R93, R266). -/
def atomRemote (c : Acc) (p : Place) (op : FabOp) (w : Nat) (uns orders : Bool) (dst : Option Opd) : Exec Unit := do
  needEmpty
  pkgScope
  closeAfter
  atomFirst orders
  let bs ← extAsk c p op (w / 8)
  match dst with
  | some d => writeOpd d (atomicOld w uns (ofBytes bs % 2 ^ w))
  | none => pure ()

/-- An atomic through a swap aperture whose elements are narrower than the word, so that its bytes lie apart: on one other
package it is one request on them all; otherwise it is made inside its chunk, whatever its use, which is indivisible while no
byte lies on another package beside bytes elsewhere (DESIGN CHOICE, log entry 63). -/
def atomApart (c : Acc) (va : Nat) (op : AtomOp) (w : Nat) (uns orders near : Bool) (v nv : BitVec 64) (dst : Option Opd) :
    Exec Unit := do
  match ← atomAway c va (w / 8) with
  | some (pkg, pas) =>
    atomRemote c (.remote pkg (pas.headD 0)) (.spread pas (.atomic op (w == 64) uns v nv)) w uns orders dst
  | none =>
    atomFirst orders
    atomInChunk dst op w uns v nv (readGlob c va (w / 8)) (writeGlob c va)
    if !near then closeAfter

/-- The effect of an atomic (R264 to R266). `j` is R264's: bit 0 the width, bit 1 the relaxed class. -/
def atomBody (op : AtomOp) (j : BitVec 2) (x : Ops) : Exec Unit := do
  let a ← readA x
  let v ← readB x
  let nv ← if op = .cas then readC x else pure 0
  let wide := j.getLsbD 0
  let relaxed := j.getLsbD 1
  let w := if wide then 64 else 32
  let use := x.mod.toNat % 8
  let uns := x.fmt = 1
  let unp := relaxed && use == 0
  let c := { accOf 2 true a with atom := true, home := relaxed && (use == 3 || use == 4) }
  let orders := !relaxed && use != 1
  let dst := if unp then none else some x.d
  match ← atomPlace c (w / 8) with
  | none => atomApart c (Word.bits a 0 56) op w uns orders (relaxed && use == 4) v nv dst
  | some p => match p with
    | .mem key kn uc =>
      if relaxed ∧ use = 4 then atomInChunk (some x.d) op w uns v nv (readPlace c p (w / 8)) (writePlace p)
      else
        if relaxed then atomAfterStores key
        checkPoison c key (w / 8)
        if (← getState).me.atoms.any (·.puts key (w / 8)) then stallWith (fun s => s)
        if uc then
          needEmpty
          alone
        if isHbm key then pkgScope
        let put ← match dst with
          | some (.s n) => streamSlot n
          | _ => pure []
        let s ← getState
        atCommit (.atomic { key := key, pkg := none, op := op, wide := wide, uns := uns, v := v, nv := nv,
                            dst := dst, latch := !unp, put := put,
                            use := if relaxed then use else if use = 1 then 5 else 6,
                            at_ := s.cycle, keyNo := kn, vf := s.vfOn s.curTile })
        closeAfter
    | p => atomRemote c p (.atomic op wide uns v nv) w uns orders dst

/-- The meaning of an atomic. -/
def runAtom (op : AtomOp) (j : BitVec 2) (x : Ops) (s : State) : Out := runCore .base x (atomBody op j x) s

/-- AADD (R264). -/
def execAadd (j : BitVec 2) (x : Ops) (s : State) : Out := runAtom .add j x s

/-- AAND (R264). -/
def execAand (j : BitVec 2) (x : Ops) (s : State) : Out := runAtom .and j x s

/-- AOR (R264). -/
def execAor (j : BitVec 2) (x : Ops) (s : State) : Out := runAtom .or j x s

/-- AXOR (R264). -/
def execAxor (j : BitVec 2) (x : Ops) (s : State) : Out := runAtom .xor j x s

/-- AMAX (R264). -/
def execAmax (j : BitVec 2) (x : Ops) (s : State) : Out := runAtom .max j x s

/-- AMIN (R264). -/
def execAmin (j : BitVec 2) (x : Ops) (s : State) : Out := runAtom .min j x s

/-- AXCHG (R264). -/
def execAxchg (j : BitVec 2) (x : Ops) (s : State) : Out := runAtom .xchg j x s

/-- ACAS (R264). -/
def execAcas (j : BitVec 2) (x : Ops) (s : State) : Out := runAtom .cas j x s

end Sys2Proof.Machine
end

