-- ==== Sys2Proof/Machine/Control.lean ====
section
/-!
DEFINITION. Branches, calls and returns with the register window and the return-address store, task and trap control, and
streams: OPC 0x080 to 0x097 (R233 to R252).
Log entries (notes/assumptions): 29 DEDUCED, 30 DEDUCED, 31 DEDUCED, 61 DEDUCED.
-/
namespace Sys2Proof.Machine

/-! ## Transfers (R197, R233, R234) -/

/-- The byte of LM at an offset, as the acting core's fetch sees it (R92). -/
def Core.fetchByte (c : Core) (ofs : Nat) : Byte := smGet 0 c.iview ofs

/-- TGT of the slot that a well-formed IP names (R193). -/
def Core.tgtBit (c : Core) (ip : Word) : Bool := (c.fetchByte (ip.toNat / 64 * 64 + 63)).getLsbD (3 + ip.toNat % 8)

/-- The checks of a checked transfer's target (R197). -/
def checkTarget (t : Word) : Exec Unit := fun s =>
  if !ipOk t then .error (.trap (mkTrap Code.badTarget t 0 15 s.curTile 2))
  else if !s.me.tgtBit t then .error (.trap (mkTrap Code.badTarget t 0 15 s.curTile 1))
  else .ok ((), s)

/-- A transfer is taken: its target stands behind the delay slot. -/
def takeTo (t : Word) (act : SlotAct) (notice : Option TrapInfo) : Exec Unit :=
  modRegs (fun r => { r with slot := some { target := t, act := act, notice := notice } })

/-- A checked branch taken when a condition holds. -/
def branchIf (b : Bool) (t : Word) : Exec Unit := do
  if b then
    checkTarget t
    takeTo t .plain none

/-- The direct target of R233. -/
def targetOf (x : Ops) : Word := word (x.imm.toNat % 2 ^ 19)

/-- The entry of a transfer. -/
def Entry.jump : Entry := { Entry.base with transfer := true }

/-- BR (R234). -/
def execBr (x : Ops) (s : State) : Out := runCore .jump x (branchIf true (targetOf x)) s

/-- BNZ (R234). -/
def execBnz (x : Ops) (s : State) : Out := runCore .jump x (do branchIf ((← readA x) != 0) (targetOf x)) s

/-- BZ (R234). -/
def execBz (x : Ops) (s : State) : Out := runCore .jump x (do branchIf ((← readA x) == 0) (targetOf x)) s

/-- The number of the stream a field names. -/
def streamNo (o : Opd) : Nat :=
  match o with
  | .s n => n
  | _ => 0

/-- The CEOD bit that BEOD and BNEOD test (R234, R246). -/
def Regs.ceodBit (r : Regs) (x : Ops) : Bool := r.ceod.getLsbD (4 * streamNo x.a + x.mod.toNat % 4)

/-- BEOD (R234). -/
def execBeod (x : Ops) (s : State) : Out := runCore .jump x (do branchIf ((← getRegs).ceodBit x) (targetOf x)) s

/-- BNEOD (R234). -/
def execBneod (x : Ops) (s : State) : Out := runCore .jump x (do branchIf (!(← getRegs).ceodBit x) (targetOf x)) s

/-- DBNZ (R234). -/
def execDbnz (x : Ops) (s : State) : Out := runCore .jump x (do
  let v := (← readA x) - 1
  writeOpd x.d v
  branchIf (v != 0) (targetOf x)) s

/-- BRR (R234). -/
def execBrr (x : Ops) (s : State) : Out := runCore .jump x (do branchIf true (← readA x)) s

/-- BTAB (R234). -/
def execBtab (x : Ops) (s : State) : Out := runCore .jump x (do branchIf true (targetOf x + 64 * (← readA x))) s

/-! ## The window stack (R237 to R240, R60) -/

/-- OVERFLOW_EXHAUSTED. -/
def exhausted (cause : Nat) : Exec Unit := faultIp Code.overflowExhausted cause

/-- Place in AS of the parked register n: its low half; its high half lies 256 bytes on (R60). -/
def Regs.parkOfs (r : Regs) (n : Nat) : Nat :=
  let col := n / 32
  let blk := (maskList 16 r.pblk.toNat).getD (col / 64) 0
  blk * 16384 + 2 * (n % 32) * 256 + col % 64 * 4

/-- Writes a parked register. -/
def parkPut (n : Nat) (v : Word) : Exec Unit := do
  let r ← getRegs
  let s ← getState
  let key := tileKey s.curTile 3 (r.parkOfs n)
  writePlace (.mem key 0 false) (toBytes 4 v.toNat)
  writePlace (.mem (key + 256) 0 false) (toBytes 4 (v.toNat / 2 ^ 32))

/-- Reads a parked register. -/
def parkGet (n : Nat) : Exec Word := do
  let r ← getRegs
  let s ← getState
  let key := tileKey s.curTile 3 (r.parkOfs n)
  let c : Acc := { kind := 5, write := false, addr := word (3 * 2 ^ 28 + r.parkOfs n), space := 15 }
  let lo ← readPlace c (.mem key 0 false) 4
  let hi ← readPlace { c with addr := word (3 * 2 ^ 28 + r.parkOfs n + 256) } (.mem (key + 256) 0 false) 4
  return word (ofBytes lo + ofBytes hi * 2 ^ 32)

/-- Spills the k oldest resident caller registers (R238); with PARK they go to AS (R60). -/
def spillWindow (k : Nat) : Exec Unit := do
  let r ← getRegs
  let vals := (List.range k).map (fun i => smGet 0 r.phys ((r.base + 192 - r.live + i) % 192))
  if r.park then
    if r.depth + k > 2048 * popCount 16 r.pblk.toNat then
      exhausted (Config.openCause Code.overflowExhausted).toNat
    for (v, i) in vals.zipIdx do
      parkPut (r.depth + i) v
    modRegs (fun r => { r with depth := r.depth + k, live := r.live - k })
  else
    storeRange 5 (privAddr r.sptr.toNat) (bytesOfWords vals)
    modRegs (fun r => { r with sptr := r.sptr + BitVec.ofNat 32 (8 * k), live := r.live - k })

/-- Fills the youngest spilled registers one by one (R239): from AS while PARK is 1 and some are parked (R60). -/
def fillWindow : Nat → Exec Unit
  | 0 => pure ()
  | n + 1 => do
    let r ← getRegs
    let at_ := (r.base + 192 - r.live - 1) % 192
    if r.park ∧ 0 < r.depth then
      let v ← parkGet (r.depth - 1)
      modRegs (fun r => { r with phys := smPut r.phys at_ v, live := r.live + 1, depth := r.depth - 1 })
    else
      let v ← loadRange 5 (privAddr (r.sptr.toNat - 8)) 8
      modRegs (fun r => { r with phys := smPut r.phys at_ (word (ofBytes v)), live := r.live + 1, sptr := r.sptr - 8 })
    fillWindow n

/-- The notice of R240, when the transfer moved k registers and, when `ret`, a return entry. CFAD keeps its value. Bit 7 of
the cause has no place in CFDW, whose CAUSE is 6 bits wide (R41): CFDW holds the cause's bits 5:0 (DEDUCED, log entry 61). -/
def moveNotice (k : Nat) (ret fill : Bool) : Exec (Option TrapInfo) := do
  let r ← getRegs
  let s ← getState
  let cause := k + 128 * ret.toNat
  if !r.winTraps ∨ r.park then return none
  else if 0 < k then
    return some (mkTrap (if fill then Code.windowFill else Code.windowSpill) r.cfad 0 15 s.curTile (cause % 64))
  else if ret then
    return some (mkTrap (if fill then Code.returnFill else Code.returnSpill) r.cfad 0 15 s.curTile 1)
  else return none

/-- CALL and CALLR to a target (R238). -/
def callTo (x : Ops) (t : Word) : Exec Unit := do
  checkTarget t
  let r ← getRegs
  let c := (← getState).me
  let n := 4 * (x.fmt.toNat % 4 + 1)
  let ent := word (x.fmt.toNat % 4 * 2 ^ 62 + (ipNext (ipNext r.ip)).toNat % 2 ^ 19)
  let k := r.live + n + 24 - 192
  let full := r.ras.length == 16
  if full ∧ Nat.min r.sbase.toNat c.privEnd < 8 * (r.rcnt + 1) then exhausted 2
  if 0 < k ∧ !r.park ∧ c.privEnd < r.sptr.toNat + 8 * k then exhausted 1
  if full then
    storeRange 5 (privAddr (8 * r.rcnt)) (toBytes 8 (r.ras.headD 0).toNat)
    modRegs (fun r => { r with rcnt := r.rcnt + 1, ras := r.ras.tail })
  modRegs (fun r => { r with ras := r.ras ++ [ent] })
  if 0 < k then spillWindow k
  takeTo t (.slideUp n) (← moveNotice k full false)

/-- CALL (R238). -/
def execCall (x : Ops) (s : State) : Out := runCore .jump x (callTo x (targetOf x)) s

/-- CALLR (R238). -/
def execCallr (x : Ops) (s : State) : Out := runCore .jump x (do callTo x (← readA x)) s

/-- The return entry that RET takes: from the store, or from the return area; none on an outermost RET (R239). -/
def popEntry : Exec (Option (Word × Bool)) := do
  let r ← getRegs
  match r.ras.getLast? with
  | some e =>
    modRegs (fun r => { r with ras := r.ras.dropLast })
    return some (e, false)
  | none =>
    if r.rcnt = 0 then return none
    else
      let bs ← loadRange 5 (privAddr (8 * (r.rcnt - 1))) 8
      modRegs (fun r => { r with rcnt := r.rcnt - 1 })
      return some (word (ofBytes bs), true)

/-- RET (R239). -/
def execRet (x : Ops) (s : State) : Out := runCore .jump x (do
  match ← popEntry with
  | none =>
    let r ← getRegs
    takeTo (ipNext (ipNext r.ip)) .endTask none
  | some (ent, area) =>
    let t := word (Word.bits ent 0 19)
    if !ipOk t then
      let s ← getState
      throwTrap (mkTrap Code.badTarget t 0 15 s.curTile 2)
    let n := 4 * (Word.bits ent 62 2 + 1)
    let r ← getRegs
    let need := n - r.live
    fillWindow need
    takeTo t (.slideDown n) (← moveNotice need area true)) s

/-! ## Task and trap control (R241 to R244) -/

/-- An entry after which its chunk ends (R75). -/
def Entry.ends : Entry := { Entry.base with after := true }

/-- NOP (R241). -/
def execNop (x : Ops) (s : State) : Out := runCore .base x (pure ()) s

/-- END: in a delay slot the transfer never takes effect (R241). -/
def execEndTask (x : Ops) (s : State) : Out := runCore .ends x (do
  modRegs (fun r => { r with slot := none })
  atCommit .endTask) s

/-- YIELD; with a request pending and no room for the save, of the window as a transfer leaves it whose delay slot it fills, it
takes OVERFLOW_EXHAUSTED (R242, R392). -/
def execYield (x : Ops) (s : State) : Out := runCore .ends x (do
  let c := (← getState).me
  let slid := { c with regs := c.regs.slide ((c.regs.slot.map (fun (sl : Slot) => sl.act)).getD .plain) }
  if c.yields ∧ !slid.saveRoom then exhausted 3
  atCommit .yield) s

/-- TRAP (R243). -/
def execTrap (x : Ops) (s : State) : Out := runCore .ends x (do
  let s ← getState
  atCommit (.trap (s.ipTrap (BitVec.ofNat 8 x.imm.toNat) 0))) s

/-- Whether an engine instruction of core k of tile t has still to merge its flags (R133): on the X-core a REDP that is not
done, FAULTED ones included, for no other copy merges flags. -/
def State.mergesDue (s : State) (t : Nat) (k : CoreK) : Bool :=
  let x := s.tile t
  match k with
  | .c => s.ports.any (fun (_, p) => p.queue.any (fun e => e.t == t))
  | .m => !x.mq.isEmpty
  | .v => false
  | .x => x.tags.any (fun (_, r) => r.kind == 2 && (r.st == .busy || r.st == .faulted || r.st == .suspended))
  | .s => !x.zq.isEmpty

/-- TFENCE (R244). -/
def execTfence (x : Ops) (s : State) : Out := runCore .ends x (do
  let s ← getState
  if s.mergesDue s.curTile s.curCore then stallWith (fun s => s)
  if s.me.regs.arithTrap then faultIp Code.arith (Config.openCause Code.arith).toNat
  atCommit .instrView) s

/-! ## Streams (R245 to R251) -/

/-- STREAM_UNBOUND with cause 0x01 on a stream that is not bound. -/
def needBound (n : Nat) : Exec Stream := do
  let st := (← getRegs).stream n
  if !st.bound then faultIp Code.streamUnbound 1
  return st

/-- A pattern that a bind refuses (R249). R245 says that word 2 + k is zero for k above NDIM: one that is not counts as a non-zero
RZ bit (DESIGN CHOICE, log entry 30). -/
def patternBad (w : List Word) : Bool :=
  let nd := Word.bits (wd w 1) 0 2
  let sp := spaceCode (wd w 0)
  Word.bits (wd w 1) 2 62 != 0 || wd w 6 != 0 || wd w 7 != 0 ||
  ((List.range 4).any (fun k => decide (nd < k) && wd w (2 + k) != 0)) || sp == 4 || sp == 5 || sp == 15

/-- The stream of a pattern, with counts of a loop-count block when one is given (R249, R250). -/
def streamOf (x : Ops) (w : List Word) (block : Option (List Word)) : Stream :=
  let nd := Word.bits (wd w 1) 0 2
  let cnt := fun k => match block with
    | some b => if k ≤ Word.bits (wd b 0) 32 2 then Word.bits (wd b (1 + k)) 0 32 else Word.bits (wd w (2 + k)) 32 32
    | none => Word.bits (wd w (2 + k)) 32 32
  let dims := (List.range 4).map (fun k =>
    if k ≤ nd then ({ n := BitVec.ofNat 32 (cnt k), d := BitVec.ofNat 32 (Word.bits (wd w (2 + k)) 0 32), i := 0 } : Dim)
    else { n := 0, d := 0, i := 0 })
  { bound := true, write := x.mod.getLsbD 0, ty := x.fmt, empty := (dims.take (nd + 1)).any (fun d => d.n == 0),
    base := wd w 0, ndim := BitVec.ofNat 2 nd, dims := dims }

/-- Binds the stream of DF to the pattern at an address (R249). -/
def bindTo (x : Ops) (a : Word) (block : Option (List Word)) : Exec Unit := do
  let w := wordsOf (← loadAt 0 64 false a 64)
  if patternBad w then faultIp Code.streamUnbound 2
  let n := streamNo x.d
  modRegs (fun r => (r.setStream n (streamOf x w block)).setCeod n 0)

/-- SBIND (R249). -/
def execSbind (x : Ops) (s : State) : Out := runCore .base x (do bindTo x (← readA x) none) s

/-- A bind that waits for RDY: the line it has read stays in its chunk's read set (R181, R390). -/
def waitBlock (own : List Nat) : Exec Unit := fun s =>
  .error (.stall (fun s0 =>
    let keep := s.me.chunk.filter (fun h => !h.closed)
    s0.setMe { s0.me with stalled := true, chunk := (keep.orElse (fun _ => s0.me.chunk)).map (fun h => { h with binds := true, block := own }) }))

/-- A read, and the lines of memory that it puts into the read set. -/
def linesRead {α : Type} (m : Exec α) : Exec (α × List Nat) := do
  let rset := ((← getState).me.chunk.map (·.rset)).getD []
  modChunk (fun h => { h with rset := [] })
  let v ← m
  let ls := ((← getState).me.chunk.map (·.rset)).getD []
  modChunk (fun h => { h with rset := ls.foldl setAdd rset })
  return (v, ls.filter (fun l => decide (l < 2 ^ 44)))

/-- SBINDC (R250). A bind that waits is squashed at once when a commit has met its chunk; a squash by the block's own line
counts towards no solo mode (R83, R181). -/
def execSbindc (x : Ops) (s : State) : Out := runCore .base x (do
  let a ← readA x
  let b ← readB x
  let (bs, own) ← linesRead (loadAt 0 64 false b 64)
  let s ← getState
  if s.me.chunk.any (fun h => h.binds && h.met && !h.single) then
    stallWith (fun s => s.squash s.curTile s.curCore !(s.me.chunk.any (·.ownLine)))
  if !(wd (wordsOf bs) 0).getLsbD 63 then waitBlock own
  modChunk (fun h => { h with binds := false })
  bindTo x a (some (wordsOf bs))) s

/-- SUNB: no effect on a stream that is not bound (R248). -/
def execSunb (x : Ops) (s : State) : Out := runCore .base x (do
  let n := streamNo x.d
  if ((← getRegs).stream n).bound then
    modRegs (fun r => ((r.setStream n { r.stream n with bound := false }).setCeod n 0))) s

/-- SREW (R248). -/
def execSrew (x : Ops) (s : State) : Out := runCore .base x (do
  let n := streamNo x.d
  let st ← needBound n
  modRegs (fun r => (r.setStream n { st with dims := st.dims.map (fun d => { d with i := 0 }) }).setCeod n 0)) s

/-- The dimensions after `n` steps and the bits of those that completed in some step, from dimension k on (R247, R248). -/
def skipDims : Nat → Nat → List Dim → List Dim × Nat
  | _, _, [] => ([], 0)
  | k, n, d :: ds =>
    if n = 0 then (d :: ds, 0)
    else
      let tot := Nat.min d.i.toNat (d.n.toNat - 1) + n
      let (ds', done) := skipDims (k + 1) (tot / d.n.toNat) ds
      ({ d with i := BitVec.ofNat 32 (tot % d.n.toNat) } :: ds', done + if d.n.toNat ≤ tot then 2 ^ k else 0)

/-- SSKIP (R248). -/
def execSskip (x : Ops) (s : State) : Out := runCore .base x (do
  let n := streamNo x.d
  let a ← readA x
  let st ← needBound n
  if st.empty then modRegs (fun r => r.setCeod n 0)
  else
    let nd := st.ndim.toNat + 1
    let (ds, done) := skipDims 0 a.toNat (st.dims.take nd)
    modRegs (fun r => (r.setStream n { st with dims := ds ++ st.dims.drop nd }).setCeod n done)) s

/-- The index of the next element (R248). -/
def Stream.pos (st : Stream) : Nat := st.dims.foldr (fun d a => d.i.toNat + d.n.toNat * a) 0

/-- SPOS (R248). -/
def execSpos (x : Ops) (s : State) : Out := runCore .base x (do
  let st ← needBound (streamNo x.a)
  writeOpd x.d (word st.pos)) s

/-- SPEEK (R248). -/
def execSpeek (x : Ops) (s : State) : Out := runCore .base x (do writeOpd x.d (← streamPeek (streamNo x.a))) s

/-- SSTAT's word (R248). -/
def Stream.stat (st : Stream) : Word :=
  word (st.bound.toNat * 2 ^ 63 + st.write.toNat * 2 ^ 62 + st.ty.toNat * 2 ^ 59 + st.empty.toNat * 2 ^ 58 + st.ndim.toNat)

/-- SSTAT (R248). -/
def execSstat (x : Ops) (s : State) : Out := runCore .base x (do
  let r ← getRegs
  writeOpd x.d (r.stream (streamNo x.a)).stat) s

end Sys2Proof.Machine
end

