-- ==== Sys2Proof/Machine/Vector.lean ====
section
/-!
DEFINITION. The vector instructions of R282 to R299: OPC 0x140 to 0x16F.
Log entries (notes/assumptions): 33 DEDUCED.
-/
namespace Sys2Proof.Machine

/-- The saturation modifier MOD[2] of a vector or conversion entry (R284, R301). -/
def vecSat (x : Ops) : Bool := x.mod.getLsbD 2

/-- Lanes of a group entry (R282). -/
def laneCount (x : Ops) : Nat := 64 * groupSize x.mod

/-- The groups that a lane operation reads: a, b (a scalar in every lane under SB, R284) and c. -/
def readLanes (x : Ops) (sb : Bool) : Exec (List (BitVec 32 × BitVec 32 × BitVec 32)) := do
  let g := groupSize x.mod
  let r ← getRegs
  let b ← if sb ∧ x.mod.getLsbD 3 then do
      let v ← readB x
      pure (List.replicate (64 * g) (v.truncate 32))
    else pure (r.readGroup x.b g)
  return (r.readGroup x.a g).zip (b.zip (r.readGroup x.c g))

/-- The flags that the active lanes raise. -/
def laneFlags (act : List Bool) (fs : List Nat) : Nat := (act.zip fs).foldl (fun f (b, g) => if b then f ||| g else f) 0

/-- Writes the active lanes of DF from the lanes of a, b and c, and merges the lanes' flags (R282, R285). `draws` names a
drawing entry (R129). -/
def laneOp (x : Ops) (sb draws : Bool) (f : Rnd → BitVec 32 → BitVec 32 → BitVec 32 → BitVec 32 × Nat) : Exec Unit := do
  let act := (← getRegs).active x (laneCount x)
  let ls ← readLanes x sb
  let rd ← if draws then drawVector (groupSize x.mod) else pure (fun _ => rne)
  let res := ls.zipIdx.map (fun ((a, b, c), i) => f (rd i) a b c)
  addFlags (laneFlags act (res.map (·.2)))
  writeLanes x act (res.map (·.1))

/-- A float lane's result rounded to the lane type (R285). -/
def floatLane (x : Ops) (rd : Rnd) (v : FV × Nat) : BitVec 32 × Nat :=
  let (b, f) := (ffmt x.fmt.toNat).round rd (vecSat x) v.1
  (laneOf x.fmt b, v.2 ||| f)

/-- An integer lane's exact result narrowed to the lane type (R285, R138). -/
def intLane (x : Ops) (y : Int) : BitVec 32 × Nat :=
  let (lo, hi) := intRange (vsigned x.fmt) (vwidth x.fmt)
  if vecSat x then (laneOfInt x.fmt (clampI lo hi y), flagIf (clampI lo hi y != y) fSAT) else (laneOfInt x.fmt y, 0)

/-- An arithmetic lane operation, by its exact float and integer results. -/
def arithOp (x : Ops) (ff : Nat → FV → FV → FV → FV × Nat) (fi : Int → Int → Int → Int) : Exec Unit :=
  laneOp x true (vfloat x.fmt) (fun rd a b c =>
    if vfloat x.fmt then floatLane x rd (ff rd.mode (laneFV x.fmt a) (laneFV x.fmt b) (laneFV x.fmt c))
    else intLane x (fi (laneInt x.fmt a) (laneInt x.fmt b) (laneInt x.fmt c)))

/-- An element's bits. -/
def laneBits (fmt : BitVec 3) (l : BitVec 32) : Nat := l.toNat % 2 ^ vwidth fmt

/-- The exact value in a lane of any type. -/
def laneVal (fmt : BitVec 3) (l : BitVec 32) : FV := if vfloat fmt then laneFV fmt l else FV.ofInt (laneInt fmt l)

/-- The canonical NaN of a float lane type, as a lane. -/
def laneNan (fmt : BitVec 3) : BitVec 32 := laneOf fmt ((ffmt fmt.toNat).nanCode false)

/-- The lesser, or with `greater` the greater, of two lanes (R286): on floats −0 stands below +0, and a NaN gives the
canonical NaN. -/
def pickLane (x : Ops) (greater : Bool) (a b : BitVec 32) : BitVec 32 × Nat :=
  let va := laneVal x.fmt a
  let vb := laneVal x.fmt b
  let f := flagIf (va.isSig || vb.isSig) fINV
  if va.isNan || vb.isNan then (laneNan x.fmt, f)
  else (laneOf x.fmt (laneBits x.fmt (if fvBelow va vb == greater then b else a)), f)

/-- An entry of the V-core's range. -/
def Entry.vector : Entry := { Entry.base with cores := .v }

/-! ## Arithmetic (R286, R287) -/

/-- VADD (R286). -/
def execVadd (x : Ops) (s : State) : Out :=
  runCore .vector x (arithOp x (fun m a b _ => fvAdd m a b) (fun a b _ => a + b)) s

/-- VSUB (R286). -/
def execVsub (x : Ops) (s : State) : Out :=
  runCore .vector x (arithOp x (fun m a b _ => fvAdd m a b.negate) (fun a b _ => a - b)) s

/-- VMUL (R286). -/
def execVmul (x : Ops) (s : State) : Out :=
  runCore .vector x (arithOp x (fun _ a b _ => fvMul a b) (fun a b _ => a * b)) s

/-- VFMA (R286). -/
def execVfma (x : Ops) (s : State) : Out :=
  runCore .vector x (arithOp x (fun m a b c => fvFma m a b c) (fun a b c => a * b + c)) s

/-- VFMS (R286). -/
def execVfms (x : Ops) (s : State) : Out :=
  runCore .vector x (arithOp x (fun m a b c => fvFma m a b c.negate) (fun a b c => a * b - c)) s

/-- VFNMA (R286). -/
def execVfnma (x : Ops) (s : State) : Out :=
  runCore .vector x (arithOp x (fun m a b c => fvFma m a.negate b c) (fun a b c => c - a * b)) s

/-- VMIN (R286). -/
def execVmin (x : Ops) (s : State) : Out :=
  runCore .vector x (laneOp x true false (fun _ a b _ => pickLane x false b a)) s

/-- VMAX (R286). -/
def execVmax (x : Ops) (s : State) : Out :=
  runCore .vector x (laneOp x true false (fun _ a b _ => pickLane x true a b)) s

/-- A float lane's value with its sign replaced; a NaN follows R117. -/
def signLane (x : Ops) (neg : Bool) (v : FV) : BitVec 32 × Nat :=
  floatLane x rne (match nanOf [v] with
    | some r => r
    | none => (if v.neg == neg then v else v.negate, 0))

/-- VABS (R286). -/
def execVabs (x : Ops) (s : State) : Out :=
  runCore .vector x (laneOp x false false (fun _ a _ _ =>
    if vfloat x.fmt then signLane x false (laneFV x.fmt a) else intLane x (laneInt x.fmt a).natAbs)) s

/-- VNEG (R286). -/
def execVneg (x : Ops) (s : State) : Out :=
  runCore .vector x (laneOp x false false (fun _ a _ _ =>
    if vfloat x.fmt then signLane x (!(laneFV x.fmt a).neg) (laneFV x.fmt a) else intLane x (-(laneInt x.fmt a)))) s

/-- An integer lane's quotient (R287): all ones and DZ when b is 0. -/
def divLane (x : Ops) (a b : Int) : BitVec 32 × Nat :=
  if b = 0 then (laneOfInt x.fmt (-1), fDZ) else intLane x (a.tdiv b)

/-- VDIV (R287). -/
def execVdiv (x : Ops) (s : State) : Out :=
  runCore .vector x (laneOp x true (vfloat x.fmt) (fun rd a b _ =>
    if vfloat x.fmt then floatLane x rd (fvDiv (laneFV x.fmt a) (laneFV x.fmt b))
    else divLane x (laneInt x.fmt a) (laneInt x.fmt b))) s

/-- A logic lane operation on the element's bits. -/
def logicOp (x : Ops) (f : BitVec 32 → BitVec 32 → BitVec 32) : Exec Unit :=
  laneOp x true false (fun _ a b _ => (laneOf x.fmt (laneBits x.fmt (f a b)), 0))

/-- VAND (R286). -/
def execVand (x : Ops) (s : State) : Out := runCore .vector x (logicOp x (fun a b => a &&& b)) s

/-- VOR (R286). -/
def execVor (x : Ops) (s : State) : Out := runCore .vector x (logicOp x (fun a b => a ||| b)) s

/-- VXOR (R286). -/
def execVxor (x : Ops) (s : State) : Out := runCore .vector x (logicOp x (fun a b => a ^^^ b)) s

/-- VSHL (R286). -/
def execVshl (x : Ops) (s : State) : Out :=
  runCore .vector x (laneOp x true false (fun _ a b _ =>
    (laneOf x.fmt (if b.toNat < vwidth x.fmt then laneBits x.fmt a * 2 ^ b.toNat else 0), 0))) s

/-- VSHR (R286). -/
def execVshr (x : Ops) (s : State) : Out :=
  runCore .vector x (laneOp x true false (fun _ a b _ =>
    (laneOfInt x.fmt (laneInt x.fmt a / 2 ^ (Nat.min b.toNat (vwidth x.fmt))), 0))) s

/-! ## Compares, selects and masks (R288, R289) -/

/-- A compare: the mask of the active lanes in which the relation holds. `ordered` names the entries on which every NaN
sets INV. -/
def compareOp (x : Ops) (ordered : Bool) (rel : FV → FV → Bool) : Exec Unit := do
  let act := (← getRegs).active x (laneCount x)
  let ls := (← readLanes x true).map (fun (a, b, _) => (laneVal x.fmt a, laneVal x.fmt b))
  addFlags (laneFlags act (ls.map (fun (a, b) =>
    flagIf (if ordered then a.isNan || b.isNan else a.isSig || b.isSig) fINV)))
  let bits := (act.zip ls).map (fun (on, a, b) => on && rel a b)
  modRegs (fun r => r.writeGroup x.d (maskLanes bits))

/-- VCMPEQ (R288). -/
def execVcmpeq (x : Ops) (s : State) : Out := runCore .vector x (compareOp x false fvEq) s

/-- VCMPNE (R288). -/
def execVcmpne (x : Ops) (s : State) : Out := runCore .vector x (compareOp x false (fun a b => !fvEq a b)) s

/-- VCMPLT (R288). -/
def execVcmplt (x : Ops) (s : State) : Out :=
  runCore .vector x (compareOp x true (fun a b => !a.isNan && !b.isNan && fvLt a b)) s

/-- VCMPLE (R288). -/
def execVcmple (x : Ops) (s : State) : Out :=
  runCore .vector x (compareOp x true (fun a b => !a.isNan && !b.isNan && !fvLt b a)) s

/-- VCMPUN (R288). -/
def execVcmpun (x : Ops) (s : State) : Out := runCore .vector x (compareOp x false (fun a b => a.isNan || b.isNan)) s

/-- VSEL (R289). -/
def execVsel (x : Ops) (s : State) : Out :=
  runCore .vector x (do
    let act := (← getRegs).active x (laneCount x)
    let ls ← readLanes x true
    let m := (← getRegs).readGroup x.c 1
    writeLanes x act (ls.zipIdx.map (fun ((a, b, _), i) => laneOf x.fmt (laneBits x.fmt (if maskBit m i then a else b))))) s

/-- The first L bits of the mask register that AF names. -/
def maskBits (x : Ops) : Exec (List Bool) := do
  let m := (← getRegs).readGroup x.a 1
  return (List.range (laneCount x)).map (maskBit m)

/-- VMCNT (R289). -/
def execVmcnt (x : Ops) (s : State) : Out :=
  runCore .vector x (do writeOpd x.d (word ((← maskBits x).filter (fun b => b)).length)) s

/-- VMFF (R289). -/
def execVmff (x : Ops) (s : State) : Out :=
  runCore .vector x (do
    let bs ← maskBits x
    writeOpd x.d (word (bs.findIdx (fun b => b)))) s

/-! ## Reductions, scans and partial sort (R290 to R292) -/

/-- Writes one result to all 64 lanes of DF (R290). -/
def writeAll (x : Ops) (l : BitVec 32) : Exec Unit := modRegs (fun r => r.writeGroup x.d (List.replicate 64 l))

/-- The lanes of a, with an inactive lane's place taken by the identity. -/
def activeLanes (x : Ops) (ident : BitVec 32) : Exec (List (BitVec 32)) := do
  let r ← getRegs
  return ((r.active x (laneCount x)).zip (r.readGroup x.a (groupSize x.mod))).map (fun (b, l) => if b then l else ident)

/-- The lanes of the identities of R137 and R290. -/
def sumIdent (fmt : BitVec 3) : BitVec 32 := if vfloat fmt then BitVec.ofNat 32 (2 ^ (vwidth fmt - 1)) else 0

def leastLane (fmt : BitVec 3) : BitVec 32 :=
  if vfloat fmt then laneOf fmt ((ffmt fmt.toNat).infCode true) else laneOfInt fmt (intRange (vsigned fmt) (vwidth fmt)).1

def greatestLane (fmt : BitVec 3) : BitVec 32 :=
  if vfloat fmt then laneOf fmt ((ffmt fmt.toNat).infCode false) else laneOfInt fmt (intRange (vsigned fmt) (vwidth fmt)).2

/-- One rounded float addition of two lanes (R137). -/
def addLanes (x : Ops) (rd : Rnd) (a b : BitVec 32) : BitVec 32 × Nat :=
  floatLane x rd (fvAdd rd.mode (laneFV x.fmt a) (laneFV x.fmt b))

/-- One level of the tree of R137: element i of the next level from elements 2i and 2i + 1. -/
def treeLevel (f : Nat → BitVec 32 → BitVec 32 → BitVec 32 × Nat) : Nat → List (BitVec 32) → List (BitVec 32) × Nat
  | i, a :: b :: t =>
    let (l, fl) := f i a b
    let (ls, fs) := treeLevel f (i + 1) t
    (l :: ls, fl ||| fs)
  | _, ls => (ls, 0)

/-- The tree of R137 over `n` levels. -/
def treeOf (f : Nat → BitVec 32 → BitVec 32 → BitVec 32 × Nat) : Nat → List (BitVec 32) → List (BitVec 32) × Nat
  | 0, ls => (ls, 0)
  | n + 1, ls =>
    let (ls, fl) := treeLevel f 0 ls
    let (ls, fs) := treeOf f n ls
    (ls, fl ||| fs)

/-- The exact sum of integer lanes. -/
def sumLanes (fmt : BitVec 3) (ls : List (BitVec 32)) : Int := ls.foldl (fun a l => a + laneInt fmt l) 0

/-- VRSUM (R290, R137). -/
def execVrsum (x : Ops) (s : State) : Out :=
  runCore .vector x (do
    let ls ← activeLanes x (sumIdent x.fmt)
    if vfloat x.fmt then
      let rd ← drawVector (groupSize x.mod)
      let (top, f) := treeOf (fun i a b => addLanes x (rd i) a b) (Nat.log2 (laneCount x)) ls
      addFlags f
      writeAll x (top.headD 0)
    else
      let (l, f) := intLane x (sumLanes x.fmt ls)
      addFlags f
      writeAll x l) s

/-- The extreme of a list of lanes, from the identity (R137, R290). -/
def extremeOp (x : Ops) (greater : Bool) : Exec Unit := do
  let ident := if greater then leastLane x.fmt else greatestLane x.fmt
  let ls ← activeLanes x ident
  let (l, f) := ls.foldl (fun (a, f) l => let (b, g) := pickLane x greater a l; (b, f ||| g)) (ident, 0)
  addFlags f
  writeAll x l

/-- VRMAX (R290). -/
def execVrmax (x : Ops) (s : State) : Out := runCore .vector x (extremeOp x true) s

/-- VRMIN (R290). -/
def execVrmin (x : Ops) (s : State) : Out := runCore .vector x (extremeOp x false) s

/-- The active lanes' indices and values. -/
def activeVals (x : Ops) : Exec (List (Nat × FV)) := do
  let r ← getRegs
  let ls := (r.active x (laneCount x)).zip (r.readGroup x.a (groupSize x.mod))
  return (ls.zipIdx.filter (fun ((b, _), _) => b)).map (fun ((_, l), i) => (i, laneVal x.fmt l))

/-- VRAMAX (R290). -/
def execVramax (x : Ops) (s : State) : Out :=
  runCore .vector x (do
    let vs ← activeVals x
    addFlags (flagIf (vs.any (fun v => v.2.isSig)) fINV)
    writeAll x (match bestIdx (fun a b => fvBelow b a) (vs.filter (fun v => !v.2.isNan)) with
      | some v => BitVec.ofNat 32 v.1
      | none => 0xFFFFFFFF)) s

/-- Running sums of float lanes from t with their flags, each addition rounded (R291): step i uses draw i. -/
def scanFloat (x : Ops) (rd : Nat → Rnd) : Nat → BitVec 32 → List (BitVec 32) → List (BitVec 32 × Nat)
  | _, _, [] => []
  | i, t, l :: ls => addLanes x (rd i) t l :: scanFloat x rd (i + 1) (addLanes x (rd i) t l).1 ls

/-- The exact prefix sums of integer lanes from t. -/
def scanInt (fmt : BitVec 3) : Int → List (BitVec 32) → List Int
  | _, [] => []
  | t, l :: ls => (t + laneInt fmt l) :: scanInt fmt (t + laneInt fmt l) ls

/-- A scan whose first output is `first`, followed by the running sums over `rest` (R291); the step of an inactive lane sets no
flag (R282). -/
def scanOp (x : Ops) (split : List (BitVec 32) → BitVec 32 × List (BitVec 32)) : Exec Unit := do
  let act := (← getRegs).active x (laneCount x)
  let (first, rest) := split (← activeLanes x (sumIdent x.fmt))
  if vfloat x.fmt then
    let rd ← drawVector (groupSize x.mod)
    let res := (first, 0) :: scanFloat x rd 1 first rest
    addFlags (laneFlags act (res.map (·.2)))
    writeLanes x act (res.map (fun (l, _) => laneOf x.fmt (laneBits x.fmt l)))
  else
    let t := laneInt x.fmt first
    let res := (t :: scanInt x.fmt t rest).map (intLane x)
    addFlags (laneFlags act (res.map (·.2)))
    writeLanes x act (res.map (·.1))

/-- VSCAN (R291). -/
def execVscan (x : Ops) (s : State) : Out := runCore .vector x (scanOp x (fun ls => (ls.headD 0, ls.tail))) s

/-- VSCANX (R291). -/
def execVscanx (x : Ops) (s : State) : Out :=
  runCore .vector x (scanOp x (fun ls => (sumIdent x.fmt, ls.dropLast))) s

/-- Puts a lane behind those that rank at or above it (R292). -/
def rankIn (v : Nat × FV) : List (Nat × FV) → List (Nat × FV)
  | [] => [v]
  | w :: t => if fvBelow w.2 v.2 then v :: w :: t else w :: rankIn v t

/-- The active lanes in the order of R292. -/
def ranked (vs : List (Nat × FV)) : List (Nat × FV) := vs.foldl (fun acc v => rankIn v acc) []

/-- VTOPK and VTOPKI: what stands in the first k lanes, and the filler in the rest (R292). -/
def topkOp (x : Ops) (fill : BitVec 32) (out : List (BitVec 32) → Nat → BitVec 32) : Exec Unit := do
  let vs ← activeVals x
  let a := (← getRegs).readGroup x.a (groupSize x.mod)
  let top := ((ranked vs).take (x.imm.toNat % 512)).map (fun v => out a v.1)
  modRegs (fun r => r.writeGroup x.d (top ++ List.replicate (laneCount x - top.length) fill))

/-- VTOPK (R292). -/
def execVtopk (x : Ops) (s : State) : Out :=
  runCore .vector x (topkOp x (if vfloat x.fmt then laneNan x.fmt else leastLane x.fmt)
    (fun a i => laneOf x.fmt (laneBits x.fmt (a.getD i 0)))) s

/-- VTOPKI (R292). -/
def execVtopki (x : Ops) (s : State) : Out :=
  runCore .vector x (topkOp x 0xFFFFFFFF (fun _ i => BitVec.ofNat 32 i)) s

/-! ## Permute, broadcast and random (R293, R295) -/

/-- VPERM (R293). -/
def execVperm (x : Ops) (s : State) : Out :=
  runCore .vector x (do
    let act := (← getRegs).active x (laneCount x)
    let ls ← readLanes x false
    let a := ls.map (·.1)
    writeLanes x act (ls.map (fun (_, b, _) => laneOf x.fmt (laneBits x.fmt (a.getD (b.toNat % laneCount x) 0))))) s

/-- VBCAST (R293). -/
def execVbcast (x : Ops) (s : State) : Out :=
  runCore .vector x (do
    let act := (← getRegs).active x (laneCount x)
    let v ← readA x
    writeLanes x act (List.replicate (laneCount x) (laneOf x.fmt (v.toNat % 2 ^ vwidth x.fmt)))) s

/-- VEXT (R293). -/
def execVext (x : Ops) (s : State) : Out :=
  runCore .vector x (do
    let i := (← readB x).toNat % laneCount x
    let l := ((← getRegs).readGroup x.a (groupSize x.mod)).getD i 0
    writeOpd x.d (if vsigned x.fmt then wordI (laneInt x.fmt l) else word (laneBits x.fmt l))) s

/-- VINS (R293). -/
def execVins (x : Ops) (s : State) : Out :=
  runCore .vector x (do
    let v ← readA x
    let i := (← readB x).toNat % laneCount x
    let old := (← getRegs).readGroup x.d (groupSize x.mod)
    modRegs (fun r => r.writeGroup x.d (listSet old i (laneOf x.fmt (v.toNat % 2 ^ vwidth x.fmt))))) s

/-- VIOTA (R293). -/
def execViota (x : Ops) (s : State) : Out :=
  runCore .vector x (do
    let act := (← getRegs).active x (laneCount x)
    let v ← readA x
    writeLanes x act ((List.range (laneCount x)).map (fun i => laneOf x.fmt ((v.toNat + i) % 2 ^ vwidth x.fmt)))) s

/-- VRAND (R295). -/
def execVrand (x : Ops) (s : State) : Out :=
  runCore .vector x (do
    let act := (← getRegs).active x (laneCount x)
    let key := (← readA x).toNat % 2 ^ 32
    let ctr ← readB x
    writeLanes x act ((List.range (laneCount x)).map (fun i =>
      let r := crand32 key (ctr + word i)
      if x.fmt = 4 then BitVec.ofNat 32 r
      else BitVec.ofNat 32 ((ffmt 0).round rne false (.fin false (r / 2 ^ 8) (2 ^ 24))).1))) s

/-! ## Vector loads and stores (R294, R296, R297) -/

/-- An element at a buffer address is checked by alignment (the order of R40), then R49 with AB alone allowed, then R51. The sum
of its OFS is exact: outside 0 to 2^20 - 1 it takes cause 0x0C, with the OFS modulo 2^20 in CFAD (DESIGN CHOICE, log entry 33:
R296 does not say whether it wraps). -/
def vecBuf (a : Word) (off : Int) (n align : Nat) (wr : Bool) : Exec (Acc × Spot) := do
  let kind := if wr then 4 else 3
  let o := (bufOfs a : Int) + off
  let e := word (bufNo a * 2 ^ 28 + Word.bits a 20 8 * 2 ^ 20 + (o % 2 ^ 20).toNat)
  let c : Acc := { kind := kind, write := wr, addr := e, space := 15 }
  if e.toNat % align ≠ 0 then faultAcc c Code.misaligned (Config.openCause Code.misaligned).toNat
  if o < 0 ∨ 2 ^ 20 ≤ o then bufFault e kind 0x0C
  checkBuf e n kind (fun b => b == 2)
  let s ← getState
  checkSide (slabsOf 2 (bufOfs e) n) false kind
  return (c, .tile s.curTile 2 (bufOfs e))

/-- Where the element at an offset from the base lies (R294, R296): MOD[3] tells a buffer address. -/
def vecSpot (x : Ops) (wr : Bool) (a : Word) (off : Int) (n align : Nat) : Exec (Acc × Spot) :=
  if x.mod.getLsbD 3 then vecBuf a off n align wr
  else do
    let c := { accOf (if wr then 1 else 0) wr (addrAdd a off) with vec := true }
    return (c, ← locate c (elemAlign c.addr align) true)

/-- The base leads through a window. -/
def vecWin (x : Ops) (a : Word) : Bool := !x.mod.getLsbD 3 && decide (0xF8 ≤ topByte a) && decide (topByte a ≤ 0xFE)

/-- Element step (R296). -/
def vecStep (x : Ops) (a : Word) : Nat := if vecWin x a then 1 else vwidth x.fmt / 8

/-- The format code of a lane type (R283, R300). -/
def laneCode (fmt : BitVec 3) : Nat :=
  match fmt.toNat with
  | 3 => 11
  | 4 => 12
  | 5 => 9
  | 6 => 7
  | 7 => 8
  | f => f

/-- The draws of a load or store through a window (R129). -/
def vecDraws (x : Ops) (a : Word) : Exec (Nat → Rnd) :=
  if vecWin x a then drawVector (groupSize x.mod) else pure (fun _ => rne)

/-- Loads the element at an offset into a lane: the lane and its flags. -/
def loadLane (x : Ops) (a : Word) (rd : Rnd) (off : Int) : Exec (BitVec 32 × Nat) := do
  let n := vwidth x.fmt / 8
  match ← vecSpot x false a off n n with
  | (c, .win w) => do
    let (v, nearest) ← winRead c w
    let (b, f) := convertTo (laneCode x.fmt) (if nearest then rne else rd) (vecSat x) false [] v
    return (laneOf x.fmt b, f)
  | (c, p) => do return (laneOf x.fmt (ofBytes (← readSpot c p n)), 0)

/-- Stores a lane to the element at an offset; the flags. -/
def storeLane (x : Ops) (a : Word) (rd : Rnd) (off : Int) (l : BitVec 32) : Exec Nat := do
  let n := vwidth x.fmt / 8
  match ← vecSpot x true a off n n with
  | (c, .win w) => winWrite c w rd (vecSat x) (!vfloat x.fmt) (laneVal x.fmt l)
  | (c, p) => do
    writeSpot c p (toBytes n (laneBits x.fmt l))
    return 0

/-- Loads every active lane from its offset, in lane order. -/
def loadLanes (x : Ops) (a : Word) (off : Nat → Int) : Exec Unit := do
  let act := (← getRegs).active x (laneCount x)
  let rd ← vecDraws x a
  let res ← (act.zipIdx).mapM (fun (on, i) => if on then loadLane x a (rd i) (off i) else pure (0, 0))
  addFlags (laneFlags act (res.map (·.2)))
  writeLanes x act (res.map (·.1))

/-- Stores lanes of CF in order, each to its offset: `places` lists lane and offset. -/
def storeLanes (x : Ops) (a : Word) (places : List (Nat × Int)) : Exec Unit := do
  let c := (← getRegs).readGroup x.c (groupSize x.mod)
  let rd ← vecDraws x a
  for (i, off) in places do
    addFlags (← storeLane x a (rd i) off (c.getD i 0))

/-- The active lanes' numbers. -/
def activeIdx (x : Ops) : Exec (List Nat) := do
  let act := (← getRegs).active x (laneCount x)
  return (List.range (laneCount x)).filter (fun i => act.getD i false)

/-- VGATH (R294). -/
def execVgath (x : Ops) (s : State) : Out :=
  runCore .vector x (do
    let a ← readA x
    let idx := (← getRegs).readGroup x.b (groupSize x.mod)
    loadLanes x a (fun i => ((idx.getD i 0).toNat * vecStep x a : Nat))) s

/-- VSCAT (R294). -/
def execVscat (x : Ops) (s : State) : Out :=
  runCore .vector x (do
    let a ← readA x
    let idx := (← getRegs).readGroup x.b (groupSize x.mod)
    storeLanes x a ((← activeIdx x).map (fun i => (i, (((idx.getD i 0).toNat * vecStep x a : Nat) : Int))))) s

/-- Base, and the offset x + disp of a contiguous form (R296); x is unsigned (DESIGN CHOICE, log entry 33: R296 is silent). -/
def readBase (x : Ops) : Exec (Word × Int) := do
  let a ← readA x
  let b ← readB x
  return (a, (b.toNat : Int) + x.imm.toInt)

/-- Base and signed stride of a strided form (R296). -/
def readStride (x : Ops) : Exec (Word × Int) := do
  let a ← readA x
  let b ← readB x
  return (a, b.toInt)

/-- VLD (R296). -/
def execVld (x : Ops) (s : State) : Out :=
  runCore .vector x (do
    let (a, off) ← readBase x
    loadLanes x a (fun i => off + ((i * vecStep x a : Nat) : Int))) s

/-- VST (R296). -/
def execVst (x : Ops) (s : State) : Out :=
  runCore .vector x (do
    let (a, off) ← readBase x
    storeLanes x a ((← activeIdx x).map (fun i => (i, off + ((i * vecStep x a : Nat) : Int))))) s

/-- VLDS (R296). -/
def execVlds (x : Ops) (s : State) : Out :=
  runCore .vector x (do
    let (a, st) ← readStride x
    loadLanes x a (fun i => x.imm.toInt + i * st)) s

/-- VSTS (R296). -/
def execVsts (x : Ops) (s : State) : Out :=
  runCore .vector x (do
    let (a, st) ← readStride x
    storeLanes x a ((← activeIdx x).map (fun i => (i, x.imm.toInt + i * st)))) s

/-- VLDBC: one element, converted once, for every active lane (R296). -/
def execVldbc (x : Ops) (s : State) : Out :=
  runCore .vector x (do
    let (a, off) ← readBase x
    let act := (← getRegs).active x (laneCount x)
    let rd ← vecDraws x a
    let (l, f) ← if act.any (fun b => b) then loadLane x a (rd 0) off else pure (0, 0)
    addFlags f
    writeLanes x act (List.replicate (laneCount x) l)) s

/-- VSTC (R296). -/
def execVstc (x : Ops) (s : State) : Out :=
  runCore .vector x (do
    let (a, off) ← readBase x
    storeLanes x a ((← activeIdx x).zipIdx.map (fun (i, j) => (i, off + ((j * vecStep x a : Nat) : Int))))) s

/-- Where the byte at an offset lies whose address must be a multiple of `align`, behind a window too: there it takes PROTECTION
0x03 behind the alignment (R304, R305, R40). -/
def byteSpot (x : Ops) (wr : Bool) (a : Word) (off : Int) (align : Nat) : Exec (Acc × Spot) :=
  if x.mod.getLsbD 3 then vecBuf a off 1 align wr
  else do
    let c := { accOf (if wr then 1 else 0) wr (addrAdd a off) with vec := true }
    return (c, ← locate c align true)

/-- Reads the byte at an offset. -/
def byteGet (x : Ops) (a : Word) (align : Nat) (off : Int) : Exec (List Byte) := do
  let (c, p) ← byteSpot x false a off align
  readSpot c p 1

/-- Writes the byte at an offset. -/
def bytePut (x : Ops) (a : Word) (align : Nat) (off : Int) (b : Byte) : Exec (List Byte) := do
  let (c, p) ← byteSpot x true a off align
  writeSpot c p [b]
  return []

/-- The accesses of one lane: of their faults the first in the order of R40 is taken (R297). -/
def laneAcc : List (Exec (List Byte)) → Exec (List Byte)
  | [] => pure []
  | m :: ms => fun s =>
    match m s with
    | .ok (b, s') => (do return b ++ (← laneAcc ms)) s'
    | .error (.trap t) =>
      match laneAcc ms s with
      | .ok _ => .error (.trap t)
      | .error (.trap u) => .error (.trap (if u.rank < t.rank then u else t))
      | .error e => .error e
    | .error e => .error e

/-- The accesses of a block: lane 0 makes those of `head` together, and the later lanes follow one by one (R297). -/
def blockAcc (head rest : List (Exec (List Byte))) : Exec (List Byte) := do
  return (← laneAcc head) ++ (← rest.mapM id).flatten

/-- Reads bytes one by one from an offset on. -/
def vecBytes (x : Ops) (a : Word) (off : Int) (n : Nat) : Exec (List Byte) :=
  blockAcc [] ((List.range n).map (fun (i : Nat) => byteGet x a 1 (off + i)))

/-- Writes bytes one by one from an offset on. -/
def vecPut (x : Ops) (a : Word) (off : Int) (bs : List Byte) : Exec Unit := do
  let _ ← blockAcc [] (bs.zipIdx.map (fun (b, i) => bytePut x a 1 (off + i) b))

/-- VLDM (R296). -/
def execVldm (x : Ops) (s : State) : Out :=
  runCore .vector x (do
    let (a, off) ← readBase x
    let v := ofBytes (← vecBytes x a off (laneCount x / 8))
    modRegs (fun r => r.writeGroup x.d (maskLanes ((List.range (laneCount x)).map (fun i => v.testBit i))))) s

/-- VSTM (R296). -/
def execVstm (x : Ops) (s : State) : Out :=
  runCore .vector x (do
    let (a, off) ← readBase x
    let m := (← getRegs).readGroup x.c 1
    let bytes := m.flatMap (fun l => toBytes 4 l.toNat)
    vecPut x a off (bytes.take (laneCount x / 8))) s

end Sys2Proof.Machine
end

