-- ==== Sys2Proof/Machine/Convert.lean ====
section
/-!
DEFINITION. The conversions, the block encoders and the special functions of R300 to R307: OPC 0x180 to 0x1A7.
Log entries (notes/assumptions): 64 DESIGN CHOICE.
-/
namespace Sys2Proof.Machine

/-- Destination code and codebook entries of a conversion (R301). -/
def cvtTarget (x : Ops) : Exec (Nat × List FV) := do
  let s ← getState
  addReads [cbLine s.curTile (x.imm.toNat / 16 % 8)]
  return (x.imm.toNat % 16, (s.tile s.curTile).codebook (x.imm.toNat / 16 % 8))

/-- CVT (R301). -/
def execCvt (src : BitVec 4) (x : Ops) (s : State) : Out :=
  runCore (.alu 1) x (do
    let (dst, cb) ← cvtTarget x
    let a ← readA x
    let rd ← if cvtDraws src.toNat dst then drawScalar else pure rne
    let (b, f) := convertBits src.toNat dst rd (vecSat x) cb (a.toNat % 2 ^ cvtWidth src.toNat)
    addFlags f
    writeOpd x.d (word (extendTo 64 dst b))) s

/-- VCVT (R303). -/
def execVcvt (src : BitVec 4) (x : Ops) (s : State) : Out :=
  runCore .vector x (do
    let (dst, cb) ← cvtTarget x
    laneOp x false (cvtDraws src.toNat dst) (fun rd a _ _ =>
      let (b, f) := convertBits src.toNat dst rd (vecSat x) cb (a.toNat % 2 ^ cvtWidth src.toNat)
      (BitVec.ofNat 32 (extendTo 32 dst b), f))) s

/-- A float rounded to an integral value of its format (R302): the code and the flags. -/
def roundIntegral (f : FFmt) (rd : Rnd) (v : FV) : Nat × Nat :=
  match v with
  | .nan neg sig => (f.nanCode neg, flagIf sig fINV)
  | .inf neg => (f.infCode neg, 0)
  | .fin neg n d =>
    let (q, inx) := roundGrid rd neg n d 0
    ((f.round rne false (.fin neg q 1)).1, flagIf inx fINX)

/-- A scalar drawing function of a float: it reads the low bits of AF and writes its result zero-extended. -/
def scalarFn (x : Ops) (f : FFmt → Rnd → FV → Nat × Nat) : Exec Unit := do
  let m := ffmt x.fmt.toNat
  let a ← readA x
  let rd ← drawScalar
  let (b, fl) := f m rd (m.decode (a.toNat % 2 ^ m.width))
  addFlags fl
  writeOpd x.d (word b)

/-- A vector drawing function of a float. -/
def vectorFn (x : Ops) (f : FFmt → Rnd → FV → Nat × Nat) : Exec Unit :=
  laneOp x false true (fun rd a _ _ =>
    let (b, fl) := f (ffmt x.fmt.toNat) rd (laneFV x.fmt a)
    (laneOf x.fmt b, fl))

/-- FRND (R302). -/
def execFrnd (x : Ops) (s : State) : Out := runCore (.alu 1) x (scalarFn x roundIntegral) s

/-- VFRND (R302). -/
def execVfrnd (x : Ops) (s : State) : Out := runCore .vector x (vectorFn x roundIntegral) s

/-! ## Block formats in memory (R304, R305) -/

/-- The target of a block entry: 0 BM8, 1 BM4, 2 H4S, 3 C4S, 4 and 5 BC16. -/
def blockTarget (x : Ops) : Nat := x.imm.toNat % 8

/-- The codebook entries of a block entry. -/
def blockBook (x : Ops) : Exec (List FV) := do
  let s ← getState
  addReads [cbLine s.curTile (x.imm.toNat / 8 % 8)]
  return (s.tile s.curTile).codebook (x.imm.toNat / 8 % 8)

/-- The code bytes of a block of 32 codes: one byte each for BM8, two to a byte otherwise. -/
def packCodes (fmt : Nat) : List Nat → List Byte
  | [] => []
  | [a] => [BitVec.ofNat 8 a]
  | a :: b :: t =>
    if fmt = 0 then BitVec.ofNat 8 a :: BitVec.ofNat 8 b :: packCodes fmt t
    else BitVec.ofNat 8 (a + 16 * b) :: packCodes fmt t

/-- Bytes of a block's codes in memory. -/
def blockBytes (fmt : Nat) : Nat :=
  match fmt with
  | 0 => 32
  | 4 => 16
  | 5 => 8
  | _ => 16

/-- VENC (R304): of each block, lane 0 writes its code and the side byte, and the later lanes their codes; every lane of a BC16
block writes all of it (R297). A BC16 block is coded from the lanes' exact values, FP32 and FP16 lanes too (DESIGN CHOICE, log
entry 64). -/
def execVenc (x : Ops) (s : State) : Out :=
  runCore .vector x (do
    let a ← readA x
    let side ← readB x
    let fmt := blockTarget x
    let cb ← blockBook x
    let vs := ((← getRegs).readGroup x.c (groupSize x.mod)).map (laneFV x.fmt)
    if fmt < 4 then
      let rd ← if fmt < 3 then drawVector (groupSize x.mod) else pure (fun _ => rne)
      for b in List.range (laneCount x / 32) do
        let (e, codes, f) := blockEncode fmt cb ((List.range 32).map (fun i => rd (32 * b + i))) ((vs.drop (32 * b)).take 32)
        let puts := (packCodes fmt codes).zipIdx.map (fun (c, i) => bytePut x a 1 ((b * blockBytes fmt + i : Nat) : Int) c)
        let _ ← blockAcc (puts.take 1 ++ [bytePut x side 1 (b : Int) (BitVec.ofNat 8 e)]) puts.tail
        addFlags f
    else
      for b in List.range (laneCount x / 16) do
        let (block, e) := bcEncode (fmt == 5) ((vs.drop (16 * b)).take 16)
        let puts := (toBytes (blockBytes fmt) block).zipIdx.map (fun (c, i) =>
          bytePut x a (if i = 0 then 8 else 1) ((b * blockBytes fmt + i : Nat) : Int) c)
        let _ ← blockAcc (puts ++ [bytePut x side 1 (b : Int) (BitVec.ofNat 8 e)]) []) s

/-- The exact values of a block of lanes as VDEC reads them: lane 0 reads its code and the exponent byte, and the later lanes
their codes; every lane of a BC16 block reads all of it (R297). -/
def readBlock (x : Ops) (cb : List FV) (a side : Word) (b : Nat) : Exec (List FV) := do
  let fmt := blockTarget x
  if fmt < 4 then
    let gets := (List.range (blockBytes fmt)).map (fun i => byteGet x a 1 ((b * blockBytes fmt + i : Nat) : Int))
    let bs := (← blockAcc (gets.take 1 ++ [byteGet x side 1 (b : Int)]) gets.tail).map (·.toNat)
    let e := bs.getD 1 0
    let codes := bs.headD 0 :: bs.drop 2
    let units := if fmt = 0 then codes else codes.flatMap (fun c => [c % 16, c / 16])
    return units.map (fun c => blockValue fmt cb e c)
  else
    let block := ofBytes (← blockAcc ((List.range (blockBytes fmt)).map (fun i =>
      byteGet x a 1 ((b * blockBytes fmt + i : Nat) : Int))) [])
    return (List.range 16).map (fun k => bcDecode (fmt == 5) block k)

/-- VDEC (R305). Block-scaled C4 rounds by RNE (R126). -/
def execVdec (x : Ops) (s : State) : Out :=
  runCore .vector x (do
    let a ← readA x
    let side ← readB x
    let fmt := blockTarget x
    let cb ← blockBook x
    let act := (← getRegs).active x (laneCount x)
    let rd ← drawVector (groupSize x.mod)
    let vs ← (List.range (laneCount x / (if fmt < 4 then 32 else 16))).mapM (readBlock x cb a side)
    let res := vs.flatten.zipIdx.map (fun (v, i) =>
      convertTo x.fmt.toNat (if fmt = 3 then rne else rd i) (vecSat x) false [] v)
    addFlags (laneFlags act (res.map (·.2)))
    writeLanes x act (res.map (fun r => laneOf x.fmt r.1))) s

/-! ## Special functions (R306, R307) -/

/-- A special function's code and flags in a format. -/
def specialIn (fn : Nat) (sat : Bool) (f : FFmt) (rd : Rnd) (v : FV) : Nat × Nat :=
  let (y, fl) := special fn v
  let (b, fl') := f.round rd sat y
  (b, fl ||| fl')

/-- EXP2 (R306). -/
def execExp2 (x : Ops) (s : State) : Out := runCore (.alu 1) x (scalarFn x (specialIn 0 false)) s

/-- LOG2 (R306). -/
def execLog2 (x : Ops) (s : State) : Out := runCore (.alu 1) x (scalarFn x (specialIn 1 false)) s

/-- RCP (R306). -/
def execRcp (x : Ops) (s : State) : Out := runCore (.alu 1) x (scalarFn x (specialIn 2 false)) s

/-- RSQ (R306). -/
def execRsq (x : Ops) (s : State) : Out := runCore (.alu 1) x (scalarFn x (specialIn 3 false)) s

/-- VEXP2 (R306). -/
def execVexp2 (x : Ops) (s : State) : Out := runCore .vector x (vectorFn x (specialIn 0 (vecSat x))) s

/-- VLOG2 (R306). -/
def execVlog2 (x : Ops) (s : State) : Out := runCore .vector x (vectorFn x (specialIn 1 (vecSat x))) s

/-- VRCP (R306). -/
def execVrcp (x : Ops) (s : State) : Out := runCore .vector x (vectorFn x (specialIn 2 (vecSat x))) s

/-- VRSQ (R306). -/
def execVrsq (x : Ops) (s : State) : Out := runCore .vector x (vectorFn x (specialIn 3 (vecSat x))) s

end Sys2Proof.Machine
end

