-- ==== Sys2Proof/Machine/Copy.lean ====
section
/-!
DEFINITION. Copies and tags: OPC 0x10C to 0x117 and the pieces that the copy engine moves (R42, R64 to R66, R70, R90, R95,
R271 to R278).
Log entries (notes/assumptions): 31 DEDUCED, 48 DESIGN CHOICE, 52 DEDUCED.
-/
namespace Sys2Proof.Machine

/-! ## Strided ranges -/

/-- Rows of `len` bytes at a pitch, from an offset of a tile memory. -/
structure Strip where
  buf : Nat
  ofs : Nat
  rows : Nat
  len : Nat
  pitch : Nat
deriving DecidableEq, Repr

/-- Bytes from the first to the end of the last row. -/
def extentOf (rows len pitch : Nat) : Nat := if rows = 0 ∨ len = 0 then 0 else (rows - 1) * pitch + len

def Strip.extent (p : Strip) : Nat := extentOf p.rows p.len p.pitch

/-- Whether some row holds a byte of [lo, hi). -/
def Strip.meets (p : Strip) (lo hi : Nat) : Bool :=
  if p.rows = 0 ∨ p.len = 0 ∨ hi ≤ p.ofs then false
  else if p.pitch = 0 then decide (lo < p.ofs + p.len)
  else
    -- the first row that ends above lo
    let r := if lo < p.ofs + p.len then 0 else (lo - p.ofs - p.len) / p.pitch + 1
    decide (r < p.rows) && decide (p.ofs + r * p.pitch < hi)

/-- The slabs that the rows touch (R49). -/
def Strip.slabs (p : Strip) : List SlabId :=
  (slabsOf p.buf p.ofs p.extent).filter (fun (_, n) => p.meets (n * 4096) (n * 4096 + 4096))

/-- Whether two strips share a byte (R272 check 5). -/
def Strip.shares (p q : Strip) : Bool :=
  p.buf == q.buf && (List.range (if p.pitch = 0 then Nat.min 1 p.rows else p.rows)).any (fun r =>
    q.meets (p.ofs + r * p.pitch) (p.ofs + r * p.pitch + p.len))

/-! ## Issue (R272) -/

/-- An operand of a copy: its name in the order of R272, whether it is a buffer address, whether it is written, and its
rows. -/
structure CopyOpd where
  a : Word
  buf : Bool
  write : Bool
  rows : Nat
  len : Nat
  pitch : Nat
deriving DecidableEq, Repr

def CopyOpd.kind (o : CopyOpd) : Nat := if o.write then 4 else 3

def CopyOpd.extent (o : CopyOpd) : Nat := extentOf o.rows o.len o.pitch

/-- The rows of an operand that lie in tile memory; none for a global range. -/
def CopyOpd.strip (o : CopyOpd) (c : Core) : Option Strip :=
  let mk := fun buf ofs => some { buf := buf, ofs := ofs, rows := o.rows, len := o.len, pitch := o.pitch }
  if o.buf then mk (bufNo o.a) (bufOfs o.a)
  else match spaceCode o.a with
    | 1 => if Word.bits o.a 0 32 < Word.bits c.cpriv 0 8 * 4096 then
        mk 0 (Word.bits c.cpriv 8 8 * 4096 + Word.bits o.a 0 32) else none
    | 2 => mk 0 (Word.bits o.a 0 19)
    | _ => none

/-- Check 1 of R272 on a generic operand. A window onto AB is also a closed way into AB, which comes first (R11, R40). -/
def copyCheck1 (o : CopyOpd) : Exec Unit := do
  let s ← getState
  let c := s.me
  let acc := accOf o.kind o.write o.a
  let n := o.extent
  match acc.space with
  | 0 => pure ()
  | 1 =>
    if Word.bits o.a 32 24 ≠ 0 then faultAcc acc Code.protection 0x05
    let ofs := Word.bits o.a 0 32
    let carve := Word.bits c.cpriv 0 8 * 4096
    if n ≠ 0 ∧ !(decide (ofs + n ≤ carve) || (decide (carve ≤ ofs) &&
        decide (ofs + n ≤ carve + Word.bits c.covf 0 16 * 65536))) then faultAcc acc Code.protection 0x06
  | 2 =>
    if Word.bits o.a 40 16 ≠ 0 ∨ Word.bits o.a 19 11 ≠ 0 then faultAcc acc Code.protection 0x05
    let p : Strip := { buf := 0, ofs := Word.bits o.a 0 19, rows := o.rows, len := o.len, pitch := o.pitch }
    let t := (s.tile s.curTile).tailOfs
    if !c.regs.priv ∧ p.meets t (t + 24576) then faultAcc acc Code.protection 0x07
    if Word.bits o.a 30 10 ≠ s.curTile then faultAcc acc Code.foreignLocal 0x01
  | 3 => faultAcc acc Code.protection 0x12
  | 4 => faultAcc acc Code.protection 0x03
  | 5 => faultAcc acc Code.spaceClosed 0x02
  | _ => faultAcc acc Code.spaceClosed 0x01

/-- Check 2 of R272: R49 on a buffer operand, with the copy engine as user; privileged mode lifts the tail rule (R379). -/
def copyCheck2 (o : CopyOpd) (wbOnly : Bool) : Exec Unit := do
  let s ← getState
  let x := s.tile s.curTile
  let b := bufNo o.a
  if bufBad o.a then bufFault o.a o.kind 0x0C
  if o.extent ≠ 0 then
    if bufSize b < bufOfs o.a + o.extent then bufFault o.a o.kind 0x0C
    if b = 3 ∨ (wbOnly ∧ b ≠ 1) then bufFault o.a o.kind 0x0B
    let p : Strip := { buf := b, ofs := bufOfs o.a, rows := o.rows, len := o.len, pitch := o.pitch }
    if !s.me.regs.priv ∧ b = 0 ∧ p.meets x.tailOfs (x.tailOfs + 24576) then bufFault o.a o.kind 0x07

/-- A fault of check 3 or 4 with the record of an operand. -/
def copyFault (o : CopyOpd) (code : Byte) (cause : Nat) : Exec Unit :=
  if o.buf then fun s => .error (.trap (mkTrap code (word (o.a.toNat % 2 ^ 32)) o.kind 15 s.curTile cause))
  else faultAcc (accOf o.kind o.write o.a) code cause

/-- TAG_FAULTED on a tag (R42, R278). -/
def tagTrap (r : TagRec) (tag : Nat) : TrapInfo := { code := Code.tagFaulted, cfad := r.fad, cfdw := r.fdw, aux := word tag }

/-- The record of a tag. -/
def Tile.tag (x : Tile) (n : Nat) : TagRec := smGet TagRec.init x.tags n

def Tile.setTag (x : Tile) (n : Nat) (r : TagRec) : Tile := { x with tags := smPut x.tags n r }

/-- The seven checks of R272 and the issue of a copy. `limits` says that its lengths are within the entry's limits,
`aligns` names the operands with the alignment each needs, `dst` is the destination's place among the operands. -/
def issueCopy (x : Ops) (os : List CopyOpd) (dst : CopyOpd) (wbOnly limits : Bool) (aligns : List (CopyOpd × Nat × Nat))
    (r : TagRec) : Exec Unit := do
  let s ← getState
  let c := s.me
  let tag := x.imm.toNat % 64
  for o in os do
    if !o.buf then copyCheck1 o
  for o in os do
    if o.buf then copyCheck2 o (wbOnly && o.write)
  if !limits then copyFault dst Code.protection 0x0C
  for o in os do
    match o.strip c with
    | some p => if p.extent ≠ 0 ∧ bufSize p.buf < p.ofs + p.extent then copyFault o Code.protection 0x0C
    | none => pure ()
  for (o, add, al) in aligns do
    if (o.a.toNat + add) % al ≠ 0 then copyFault o Code.misaligned (Config.openCause Code.misaligned).toNat
  let strips := os.filterMap (fun o => (o.strip c).map (fun p => (o, p)))
  for ((_, p), i) in strips.zipIdx do
    if (strips.drop (i + 1)).any (fun (_, q) => p.shares q) then faultIp Code.operandOverlap 0
  for (o, p) in strips do
    checkSide p.slabs true o.kind
  let held := (strips.flatMap (fun (_, p) => p.slabs)).dedup
  let old := (s.tile s.curTile).tag tag
  if old.st = .faulted then throwTrap (tagTrap old tag)
  needs (.tag tag)
  roomForP held
  let jid := ((s.tile s.curTile).watch.map (·.jid)).getD 0
  let total := r.rows * r.rowlen
  atCommit (.copy tag { r with
    st := if total = 0 ∧ !r.flag then .done else .busy, fad := old.fad, fdw := old.fdw
    ssem := x.h.ssem.toNat, sinc := x.h.sinc.toNat, aps := ((s.jobOn s.curTile).map (·.apt)).getD [], jid := jid,
    priv := c.regs.priv, held := if total = 0 ∧ !r.flag then [] else held, cpriv := c.cpriv, covf := c.covf })

/-- The entry of a copy. -/
def Entry.copies : Entry := { Entry.base with cores := .x, after := true, engine := true }

/-- A length register's value as a length, and whether its bits 63:32 are zero. -/
def lenOk (n : Word) : Bool := Word.bits n 32 32 == 0

/-- COPY (R273). -/
def execCopy (x : Ops) (s : State) : Out := runCore .copies x (do
  let d ← readOpd x x.d
  let a ← readA x
  let n ← readB x
  let flag := x.mod.getLsbD 2
  let len := Word.bits n 0 32
  let so : CopyOpd := { a := a, buf := x.mod.getLsbD 0, write := false, rows := 1, len := len, pitch := 0 }
  let dof : CopyOpd := { a := d, buf := x.mod.getLsbD 1, write := true, rows := 1,
                         len := if flag then len + 8 else len, pitch := 0 }
  issueCopy x [so, dof] dof false (lenOk n && !(flag && len % 8 != 0)) (if flag then [(dof, len, 8)] else [])
    { TagRec.init with kind := 0, rows := 1, rowlen := len, src := a, dst := d, sbuf := so.buf, dbuf := dof.buf,
                       flag := flag }) s

/-- COPY2 (R274). -/
def execCopy2 (x : Ops) (s : State) : Out := runCore .copies x (do
  let d ← readOpd x x.d
  let a ← readA x
  let sh ← readB x
  let pi ← readOpd x (pairNextOf x.b)
  let xr := x.mod.getLsbD 2
  let rows := Word.bits sh 32 32
  let len := Word.bits sh 0 32
  let so : CopyOpd := { a := a, buf := x.mod.getLsbD 0, write := false, rows := rows, len := len,
                        pitch := Word.bits pi 32 32 }
  let dof : CopyOpd :=
    if xr then { a := d, buf := x.mod.getLsbD 1, write := true, rows := 2 * len, len := rows / 2, pitch := Word.bits pi 0 32 }
    else { a := d, buf := x.mod.getLsbD 1, write := true, rows := rows, len := len, pitch := Word.bits pi 0 32 }
  issueCopy x [so, dof] dof false (!xr || (rows != 0 && rows % 2 == 0)) []
    { TagRec.init with kind := 1, rows := rows, rowlen := len, src := a, dst := d, spitch := so.pitch,
                       dpitch := Word.bits pi 0 32, sbuf := so.buf, dbuf := dof.buf, xrep := xr }) s
where
  pairNextOf (o : Opd) : Opd :=
    match o with
    | .m n => .m (n + 1)
    | o => o

/-- Element size of a REDP type (R275). -/
def redpSize (ty : Nat) : Nat :=
  match ty with
  | 0 => 1
  | 1 | 4 | 5 => 2
  | _ => 4

/-- REDP (R275). -/
def execRedp (x : Ops) (s : State) : Out := runCore .copies x (do
  let d ← readOpd x x.d
  let a ← readA x
  let n ← readB x
  let cw ← readC x
  let named := x.c ≠ .zero
  let k := x.imm.toNat / 64 % 64 + 1
  let size := redpSize x.fmt.toNat
  let len := Word.bits n 0 32 * size
  let so : CopyOpd := { a := a, buf := x.mod.getLsbD 0, write := false, rows := 1, len := k * len, pitch := 0 }
  let dof : CopyOpd := { a := d, buf := x.mod.getLsbD 1, write := true, rows := 1, len := len, pitch := 0 }
  let co : CopyOpd := { a := cw, buf := false, write := true, rows := 1, len := 8, pitch := 0 }
  issueCopy x ([so, dof] ++ if named then [co] else []) dof false (lenOk n)
    ([(so, 0, size), (dof, 0, size)] ++ if named then [(co, 0, 8)] else [])
    { TagRec.init with kind := 2, rows := 1, rowlen := len, src := a, dst := d, sbuf := so.buf, dbuf := dof.buf,
                       ety := x.fmt.toNat, op := x.mod.toNat / 4 % 4, kk := k, cw := if named then some cw else none }) s

/-- APF (R276). The rule gives s as a global address and names no fault for another: a private or local source is copied from like
any other copy's (DESIGN CHOICE, log entry 31). -/
def execApf (x : Ops) (s : State) : Out := runCore .copies x (do
  let d ← readOpd x x.d
  let a ← readA x
  let n ← readB x
  let len := Word.bits n 0 32
  let so : CopyOpd := { a := a, buf := false, write := false, rows := 1, len := len, pitch := 0 }
  let dof : CopyOpd := { a := d, buf := true, write := true, rows := 1, len := len, pitch := 0 }
  issueCopy x [so, dof] dof true (lenOk n && len % 4096 == 0 && decide (4096 ≤ len) && decide (len ≤ 2 ^ 20))
    [(so, 0, 64), (dof, 0, 4096)]
    { TagRec.init with kind := 3, rows := 1, rowlen := len, src := a, dst := d, dbuf := true }) s

/-- CFILL (R277). -/
def execCfill (x : Ops) (s : State) : Out := runCore .copies x (do
  let d ← readOpd x x.d
  let v ← readA x
  let n ← readB x
  let len := Word.bits n 0 32
  let dof : CopyOpd := { a := d, buf := x.mod.getLsbD 1, write := true, rows := 1, len := len, pitch := 0 }
  issueCopy x [dof] dof false (lenOk n && len % 8 == 0) [(dof, 0, 8)]
    { TagRec.init with kind := 0, rows := 1, rowlen := len, src := v, dst := d, dbuf := dof.buf, fill := true }) s

/-! ## Tags (R278) -/

/-- The tags of a mask in one of the given states, lowest first. -/
def Tile.tagsIn (x : Tile) (mask : Word) (st : TagSt) : List Nat :=
  (List.range 64).filter (fun t => mask.getLsbD t && (x.tag t).st == st)

/-- TAG_FAULTED on the lowest FAULTED tag of a mask. -/
def tagFaults (mask : Word) : Exec Tile := do
  let s ← getState
  let x := s.tile s.curTile
  match x.tagsIn mask .faulted with
  | t :: _ => throwTrap (tagTrap (x.tag t) t)
  | [] => return x

/-- The entry of a tag wait and of TFIND. -/
def Entry.tagWait : Entry := { Entry.base with cores := .x, before := true, after := true }

/-- TWANY. -/
def execTwany (x : Ops) (s : State) : Out := runCore .tagWait x (do
  let m ← readA x
  let t ← tagFaults m
  match t.tagsIn m .done with
  | n :: _ => writeOpd x.d (word n)
  | [] => if (t.tagsIn m .busy).isEmpty then writeOpd x.d 64 else stallWait) s

/-- TWALL. -/
def execTwall (x : Ops) (s : State) : Out := runCore .tagWait x (do
  let m ← readA x
  let t ← tagFaults m
  if !((t.tagsIn m .busy).isEmpty && (t.tagsIn m .suspended).isEmpty) then stallWait) s

/-- TWAIT. -/
def execTwait (x : Ops) (s : State) : Out := runCore .tagWait x (do
  let a ← readA x
  let m := word (2 ^ (a.toNat % 64))
  let t ← tagFaults m
  if !((t.tagsIn m .busy).isEmpty && (t.tagsIn m .suspended).isEmpty) then stallWait) s

/-- TFIND. -/
def execTfind (x : Ops) (s : State) : Out := runCore .tagWait x (do
  let m ← readA x
  let s ← getState
  let t := s.tile s.curTile
  writeOpd x.d (word ((t.tagsIn m .done).headD 64 + (t.tagsIn m .faulted).headD 64 * 2 ^ 8))) s

/-- The entry of CRES and CCAN: engine instructions, whose own signal is added at their chunk's commit. -/
def Entry.tagOps : Entry := { Entry.base with cores := .x, after := true }

/-- CRES: the copy that it resumes takes a place in the engine's queue (R375). -/
def execCres (x : Ops) (s : State) : Out := runCore .tagOps x (do
  let a ← readA x
  if ((← getState).tile s.curTile |>.tag (a.toNat % 64)).st = .faulted then needs .engine
  atCommit (.tagOp false (a.toNat % 64))) s

/-- CCAN. It reads the tag's state: a change of it before the chunk commits squashes the chunk (R279). -/
def execCcan (x : Ops) (s : State) : Out := runCore .tagOps x (do
  let a ← readA x
  let s ← getState
  let tag := a.toNat % 64
  addReads [tagLine s.curTile tag]
  writeOpd x.d (word ((s.tile s.curTile).tag tag).st.num)
  atCommit (.tagOp true tag)) s

/-- TSTAT. -/
def execTstat (x : Ops) (s : State) : Out := runCore { Entry.alu 1 with cores := .x } x (do
  let a ← readA x
  let s ← getState
  writeOpd x.d ((s.tile s.curTile).tag (a.toNat % 64)).word0) s

/-! ## The copy engine (R42, R66, R70, R90, R95) -/

/-- Why a piece stops: a fault that the tag records, or bytes of a host or remote source that have not come, with the request
that asks for them. -/
inductive CopyStop where
  | fault (i : TrapInfo)
  | short (f : State → State)

/-- A piece's work on the state, with the bytes that the host returned and are not yet used. -/
abbrev CopyM := StateT (State × List Byte) (Except CopyStop)

/-- The side of a copy that an address belongs to. -/
structure Side where
  t : Nat
  tag : Nat
  r : TagRec
  write : Bool
  /-- The address, as a buffer address or a generic one. -/
  a : Word
  buf : Bool
deriving DecidableEq, Repr

def Side.acc (d : Side) : Acc :=
  if d.buf then { kind := if d.write then 4 else 3, write := d.write, addr := word (d.a.toNat % 2 ^ 32), space := 15 }
  else accOf (if d.write then 4 else 3) d.write d.a

/-- Stops a piece with a fault on its access. -/
def Side.fail {α : Type} (d : Side) (code : Byte) (cause : Nat) : CopyM α :=
  let c := d.acc
  fun _ => .error (.fault (mkTrap code c.addr c.kind c.space d.t cause))

/-- Where a side's address lies. The checks of issue have passed. -/
def Side.spot (d : Side) : Spot :=
  if d.buf then .tile d.t (bufNo d.a) (bufOfs d.a)
  else match spaceCode d.a with
    | 1 =>
      let o := Word.bits d.a 0 32
      let carve := Word.bits d.r.cpriv 0 8 * 4096
      if o < carve then .tile d.t 0 (Word.bits d.r.cpriv 8 8 * 4096 + o)
      else .glob (Word.bits d.r.covf 16 40 * 2 ^ 16 + (o - carve))
    | 2 => .tile d.t 0 (Word.bits d.a 0 19)
    | _ => .glob (Word.bits d.a 0 56)

/-- Translates for the copy engine. -/
def Side.xlate (d : Side) (va : Nat) : CopyM Place := fun (s, e) =>
  let j := s.job? d.r.jid
  let q : XReq := { root := (j.map (·.root)).getD (2 ^ 40), ctx := (j.map (·.ctx)).getD 0, priv := d.r.priv,
                    write := d.write, mmv := false }
  match s.translate d.t (j.bind Job.vfn) q va with
  | .ok (p, s) => .ok (p, (s, e))
  | .error (code, cause) =>
    if code = 0xF4 then .error (.fault (mkTrap 0xF4 (word cause) d.acc.kind d.acc.space d.t 0))
    else d.fail code cause (s, e)

/-- The transfer number of a tag: its own, or the next one. -/
def TagRec.number (r : TagRec) (s : State) : Nat × State :=
  if r.transfer = 0 then
    (s.fabric.nextTransfer + 1, { s with fabric := { s.fabric with nextTransfer := s.fabric.nextTransfer + 1 } })
  else (r.transfer, s)

/-- The name of a read of another package's memory among those of a tag. -/
def askName (p : Place) (n : Nat) : Nat := p.num * 128 + n

/-- A copy's read of `n` bytes of another package goes out (R93). -/
def Side.ask (d : Side) (pkg pa n : Nat) (s : State) : State :=
  let r := (s.tile d.t).tag d.tag
  let name := askName (.remote pkg pa) n
  if (smFind r.asked name).isSome then s
  else
    let (num, s) := r.number s
    let (id, s) := s.sendFab pkg pa (.load n) (.copyRead d.t d.tag name num) none
    s.updTile d.t (fun x => x.setTag d.tag { r with transfer := num, asked := smPut r.asked name id })

/-- Bytes at a place: from the part, from another package's answers, or from what the host returned. -/
def Side.get (d : Side) (p : Place) (n : Nat) : CopyM (List Byte) := fun (s, e) =>
  match p with
  | .mem key kn _ =>
    if (s.badWord key n).isSome then
      d.fail (if isHbm key then 0xF1 else 0xF0) 0 (s, e)
    else .ok (s.readBytes kn key n, (s, e))
  | .remote pkg pa =>
    if s.pairBroken p then d.fail Code.protection 0x18 (s, e)
    else match smFind ((s.tile d.t).tag d.tag).ans (askName p n) with
      | some bs => .ok (bs, (s, e))
      | none => .error (.short (d.ask pkg pa n))
  | .host _ => if e.length < n then .error (.short id) else .ok (e.take n, (s, e.drop n))

/-- Reads `n` bytes, of one 64-byte line, of a side. -/
def Side.read (d : Side) (n : Nat) : CopyM (List Byte) :=
  match d.spot with
  | .tile t b o => d.get (.mem (tileKey t b o) 0 false) n
  | .win _ => pure []
  | .glob va =>
    match aptFind d.r.aps va with
    | none => do d.get (← d.xlate va) n
    | some (w0, w1) =>
      let v := va - Word.bits w0 21 35 * 2 ^ 21
      match aptXf w1 with
      | 0 => do d.get (← d.xlate (aptByte w1 v)) n
      | 3 => do
        let parts ← (List.range n).mapM (fun j => do d.get (← d.xlate (aptByte w1 (v + j))) 1)
        return parts.flatten
      | _ => do
        let w := aptWidth w1
        let first := v / w
        let parts ← (List.range ((v + n - 1) / w - first + 1)).mapM (fun j => do
          let (b, cnt) := aptElem w1 (first + j)
          let bs ← d.get (← d.xlate b) cnt
          return toBytes w (aptDecode w1 (first + j) bs))
        return (parts.flatten.drop (v - first * w)).take n

/-- Sends a packet of a copy: `n` bytes of its destination, from byte `p` of the transfer on (R95). A count at cw is a request
with a sequence number instead. -/
def Side.send (d : Side) (tag p : Nat) (flag : Option (Nat × Nat)) (pkg pa n : Nat) (op : FabOp) : CopyM Unit := fun (s, e) =>
  if s.pairBroken (.remote pkg pa) then d.fail Code.protection 0x18 (s, e)
  else
    let r := (s.tile d.t).tag tag
    let (num, s) := r.number s
    let flag := flag.filter (fun f => f.1 == pkg)
    let data := match op with
      | .atomic _ _ _ _ _ | .spread _ (.atomic _ _ _ _ _) => none
      | _ => some (num, r.total, flag.map (·.2))
    let s := (s.sendFab pkg pa op (.copy d.t tag n p num) data).2
    .ok ((), (s.updTile d.t (fun x => x.setTag tag { r with
      transfer := num, pkgs := setAdd r.pkgs pkg, flagAt := r.flagAt.orElse (fun _ => flag) }), e))

/-- One commit of a copy at a place (R90, R95). -/
def Side.put (d : Side) (tag p : Nat) (flag : Option (Nat × Nat)) (pl : Place) (bs : List Byte) : CopyM Unit :=
  let here : CopyM Unit := modify (fun (s, e) => (s.updTile d.t (fun x =>
    x.setTag tag { x.tag tag with pkgs := setAdd (x.tag tag).pkgs (2 ^ 15) }), e))
  match pl with
  | .mem key kn _ => do
    here
    modify (fun (s, e) => (s.commitBytes d.t ((s.job? d.r.jid).bind Job.vfn) kn key bs, e))
  | .host a => do
    here
    modify (fun (s, e) => ({ s with hostOut := s.hostOut ++ [.write (word a) bs] }, e))
  | .remote pkg pa => d.send tag p flag pkg pa bs.length (.store bs)

/-- Writes bytes of one 64-byte line of a side. A block-coder aperture takes whole aligned blocks (R31); its code words go to
the backing memory and their side bytes nowhere: R125 leaves their place to the writing instruction, and no copy names one
(DESIGN CHOICE, log entry 31). -/
def Side.store (d : Side) (tag p : Nat) (flag : Option (Nat × Nat)) (bs : List Byte) : CopyM Unit :=
  match d.spot with
  | .tile t b o => d.put tag p none (.mem (tileKey t b o) 0 false) bs
  | .win _ => pure ()
  | .glob va =>
    match aptFind d.r.aps va with
    | none => do d.put tag p flag (← d.xlate va) bs
    | some (w0, w1) =>
      let v := va - Word.bits w0 21 35 * 2 ^ 21
      match aptXf w1 with
      | 0 => do d.put tag p flag (← d.xlate (aptByte w1 v)) bs
      | 3 => do
        for (b, j) in bs.zipIdx do
          d.put tag p flag (← d.xlate (aptByte w1 (v + j))) [b]
      | 2 => do
        if v % 32 ≠ 0 ∨ bs.length % 32 ≠ 0 then d.fail Code.protection 0x04
        for (blk, j) in (chunksOf 3 32 bs).zipIdx do
          let (b, _) := aptElem w1 (v / 2 + 16 * j)
          let four := Word.bits w1 56 1 == 1
          let xs := (chunksOf 17 2 blk).map (fun e => (ffmt 2).decode (ofBytes e))
          d.put tag p flag (← d.xlate b) (toBytes (bcSize four) (bcEncode four xs).1)
      | _ => d.fail Code.protection 0x04

/-- The backing address of a view byte (R30): the first byte of its element behind a decode or block-coder aperture. -/
def Side.backing (d : Side) (va : Nat) : Nat :=
  match aptFind d.r.aps va with
  | none => va
  | some (w0, w1) =>
    let v := va - Word.bits w0 21 35 * 2 ^ 21
    if aptXf w1 = 0 ∨ aptXf w1 = 3 then aptByte w1 v else (aptElem w1 (v / aptWidth w1)).1

/-- The place of a side's first byte in global memory; none behind a decode or block-coder aperture. -/
def Side.place (d : Side) : CopyM (Option Place) :=
  match d.spot with
  | .glob va =>
    if (aptFind d.r.aps va).all (fun (_, w1) => aptXf w1 == 0 || aptXf w1 == 3) then do return some (← d.xlate (d.backing va))
    else pure none
  | _ => pure none

/-- A side's address moved by an offset. -/
def Side.at (d : Side) (o : Nat) : Side := { d with a := if d.buf then d.a + word o else addrAdd d.a o }

/-- The package and the addresses of `n` bytes of a side that all lie on one other package (R93). -/
def Side.away (d : Side) (n : Nat) : CopyM (Option (Nat × List Nat)) := do
  match d.spot with
  | .glob _ =>
    let ps ← (List.range n).mapM (fun i => (d.at i).place)
    let at_ := ps.filterMap (fun p => match p with
      | some (.remote pkg pa) => some (pkg, pa)
      | _ => none)
    match at_ with
    | (pkg, _) :: _ => if at_.length = n ∧ at_.all (·.1 == pkg) then return some (pkg, at_.map (·.2)) else return none
    | [] => return none
  | _ => return none

/-- A request on bytes at the given addresses: on one stretch where they follow one another. -/
def spreadOp (pas : List Nat) (op : FabOp) : FabOp :=
  if pas == (List.range pas.length).map (fun i => pas.headD 0 + i) then op else .spread pas op

/-! ### The 64-byte pieces of a copy (R90, R271 to R276) -/

/-- Length of the 64-byte piece of a copy that begins at byte `p` of its count: it ends with its row, with its line of the
destination (of the source when it repacks) and with its 4 KiB piece. -/
def TagRec.unit (r : TagRec) (p : Nat) : Nat :=
  let (a, pitch) := if r.xrep then (r.src, r.spitch) else (r.dst, if r.kind = 1 then r.dpitch else 0)
  let c := p % r.rowlen
  Nat.min (Nat.min (64 - (a.toNat + p / r.rowlen * pitch + c) % 64) (r.rowlen - c)) (4096 - p % 4096)

/-- The first byte from `p` on that lies in none of the stretches. -/
def skipMoved : Nat → List (Nat × Nat) → Nat → Nat
  | 0, _, p => p
  | fuel + 1, ms, p => match ms.find? (fun (o, n) => decide (o ≤ p) && decide (p < o + n)) with
    | some (o, n) => skipMoved fuel ms (o + n)
    | none => p

/-- The piece after `c` others, from byte `p` on, of those begun and not moved. -/
def TagRec.pick (r : TagRec) : Nat → Nat → Option Nat
  | c, p =>
    let q := skipMoved (r.ahead.length + 1) r.ahead p
    if r.front ≤ q then none
    else match c with
      | 0 => some q
      | c + 1 => r.pick c (q + r.unit q)

/-- A record with a stretch moved. -/
def TagRec.move (r : TagRec) (p n : Nat) : TagRec :=
  let ms := (p, n) :: r.ahead
  let d := skipMoved (ms.length + 1) ms r.doneb
  { r with doneb := d, ahead := ms.filter (fun (o, n) => decide (d < o + n)) }

/-- A record with a stretch that was refused to be moved again. -/
def TagRec.unmove (r : TagRec) (p n : Nat) : TagRec :=
  if p < r.doneb then
    { r with doneb := p, ahead := (p + n, r.doneb - (p + n)) :: r.ahead.filter (fun (o, _) => decide (r.doneb ≤ o)) }
  else { r with ahead := r.ahead.flatMap (fun (o, m) =>
    if o ≤ p ∧ p < o + m then [(o, p - o), (p + n, o + m - (p + n))].filter (fun (_, k) => k != 0) else [(o, m)]) }

/-- Cuts a stretch where the address `base + offset` passes a 64-byte line. -/
def cutLines : Nat → Nat → Nat → Nat → List (Nat × Nat)
  | 0, _, _, _ => []
  | fuel + 1, base, o, n =>
    if n = 0 then []
    else
      let m := Nat.min n (64 - (base + o) % 64)
      (o, m) :: cutLines fuel base (o + m) (n - m)

/-- Reads `n` bytes of a side, a row's at most, from an offset on: 64-byte pieces as single accesses (R90). -/
def Side.readAt (d : Side) (o n : Nat) : CopyM (List Byte) := do
  let parts ← (cutLines (n + 1) (d.a.toNat % 64) o n).mapM (fun (o, m) => (d.at o).read m)
  return parts.flatten

/-- The source address of a slab that a COPY or APF fills whole, if its 4,096 bytes are contiguous global ones that pass
no aperture and lie in local HBM (R70). -/
def cleanSource (s : State) (t : Nat) (r : TagRec) (slab : Nat) : Option Word :=
  let first := bufOfs r.dst
  let src : Side := Side.at { t := t, tag := 0, r := r, write := false, a := r.src, buf := r.sbuf } (slab * 4096 - first)
  if r.kind = 1 ∨ r.kind = 2 ∨ r.fill ∨ slab * 4096 < first ∨ first + r.rowlen < slab * 4096 + 4096 then none
  else match src.spot with
    | .glob va =>
      if (aptFind r.aps va).isSome ∨ (aptFind r.aps (va + 4095)).isSome then none
      else
        let ok : Nat → Bool := fun v => match src.xlate v (s, []) with
          | .ok (.mem k _ _, _) => isHbm k
          | _ => false
        if ok va ∧ ok (va + 4095) then some (word va) else none
    | _ => none

/-- The save state of a WB slab that a copy has just written: it is CLEAN once all its bytes have come from one source, and
DIRTY until then (R70). -/
def State.wbAfter (s : State) (t tag slab : Nat) : State :=
  let r := (s.tile t).tag tag
  let first := bufOfs r.dst
  let lo := slab * 4096 - first
  let whole := decide (lo + 4096 ≤ skipMoved (r.ahead.length + 2) ((0, r.doneb) :: r.ahead) lo)
  let w := match if whole then cleanSource s t r slab else none with
    | some v => WbSt.clean v
    | none => WbSt.dirty
  s.updTile t (fun x => { x with wb := smPut x.wb slab w })

/-- The flag's package and address when it lies on another package and no aperture covers it (R95). -/
def flagPlace (r : TagRec) (dst : Side) : CopyM (Option (Nat × Nat)) := fun s =>
  let f := dst.at r.total
  match f.spot with
  | .glob va =>
    if r.flag ∧ (aptFind r.aps va).isNone then
      match f.xlate va s with
      | .ok (.remote pkg pa, _) => .ok (some (pkg, pa), s)
      | _ => .ok (none, s)
    else .ok (none, s)
  | _ => .ok (none, s)

/-- The source and destination of a tag. -/
def TagRec.srcSide (r : TagRec) (t tag : Nat) : Side := { t := t, tag := tag, r := r, write := false, a := r.src, buf := r.sbuf }
def TagRec.dstSide (r : TagRec) (t tag : Nat) : Side := { t := t, tag := tag, r := r, write := true, a := r.dst, buf := r.dbuf }

/-- Where byte `p` of the count lies in rows at a pitch. -/
def TagRec.ofs (r : TagRec) (p pitch : Nat) : Nat := p / r.rowlen * pitch + p % r.rowlen

/-- Whether byte `q` of the count has moved. -/
def TagRec.moved (r : TagRec) (q : Nat) : Bool :=
  decide (q < r.doneb) || r.ahead.any (fun (o, n) => decide (o ≤ q) && decide (q < o + n))

/-- Reads the source bytes of a piece: of a repacking copy's odd row with those of the row before it after them, of a REDP from
each of its K sources (R274, R275). -/
def sourceBytes (t tag p n : Nat) : CopyM (List Byte) := do
  let (s, _) ← get
  let r := (s.tile t).tag tag
  let src := r.srcSide t tag
  if r.fill then return (List.range n).map (fun i => BitVec.ofNat 8 (r.src.toNat / 2 ^ (8 * ((p + i) % 8))))
  else if r.kind = 2 then
    let parts ← (List.range r.kk).mapM (fun k => src.readAt (k * r.rowlen + p) n)
    return parts.flatten
  else if r.xrep ∧ p / r.rowlen % 2 = 1 then
    let high ← src.readAt (r.ofs p r.spitch) n
    let low ← src.readAt (r.ofs (p - r.rowlen) r.spitch) n
    return high ++ low
  else src.readAt (r.ofs p r.spitch) n

/-- The source bytes of a piece: those that it has read before, or those that it reads now (R90). -/
def pieceBytes (t tag p n : Nat) : CopyM (List Byte) := do
  let (s, _) ← get
  match smFind ((s.tile t).tag tag).got p with
  | some bs => return bs
  | none => sourceBytes t tag p n

/-- Keeps or drops the source bytes of a piece; the answers that they came from are used up. -/
def keepBytes (t tag p : Nat) (bs : Option (List Byte)) : CopyM Unit := modify (fun (s, e) => (s.updTile t (fun x =>
  let r := x.tag tag
  x.setTag tag { r with got := bs.elim (smErase r.got p) (smPut r.got p), ans := [] }), e))

/-- Puts what one byte of a row of a repacking copy gives to column `h` of its two: with the odd row the whole byte, of both rows'
nibbles; with the even row its low nibble alone, into a byte of this part that the odd row has not written yet (R274). A byte
that several destination rows share thus ends as one of them has written it whole. -/
def putNibble (t tag q h : Nat) (b low : Byte) : CopyM Unit := do
  let (s, _) ← get
  let r := (s.tile t).tag tag
  let row := q / r.rowlen
  let d := (r.dstSide t tag).at ((2 * (q % r.rowlen) + h) * r.dpitch + row / 2)
  let nib := fun (b : Byte) => if h = 0 then b.toNat % 16 else b.toNat / 16
  if row % 2 = 1 then d.store tag q none (toBytes 1 (nib b * 16 + nib low))
  else
    let place ← d.place
    if !(place.any Place.isExt || r.moved (q + r.rowlen)) then
      let old := ofBytes (← d.read 1)
      d.store tag q none (toBytes 1 (old / 16 * 16 + nib b))
  match d.spot with
  | .tile _ 1 o => modify (fun (s, e) => (s.updTile t (fun x => { x with wb := smPut x.wb (o / 4096) .dirty }), e))
  | _ => pure ()

/-- Moves one 64-byte piece of a copy that does not reduce. -/
def movePiece (t tag p n : Nat) : CopyM Unit := do
  let bytes ← pieceBytes t tag p n
  let (s, _) ← get
  let r := (s.tile t).tag tag
  if r.xrep then
    for (b, i) in (bytes.take n).zipIdx do
      for h in [0, 1] do
        putNibble t tag (p + i) h b (bytes.getD (n + i) 0)
  else
    let dst := r.dstSide t tag
    let flag ← flagPlace r dst
    (dst.at (r.ofs p (if r.kind = 1 then r.dpitch else 0))).store tag p flag bytes

/-- The exact sum of values that hold no NaN and not both infinities. -/
def fvSum (xs : List FV) : FV := xs.tail.foldl (fun a b => (fvAdd 0 a b).1) (xs.headD (.fin false 0 1))

/-- One element of a REDP from its old value and its sources: the bits, SATCNT's step and the flags (R275). A signalling NaN
sets INV (R117). An infinite operand of a float SADD stands for a sum past the range: it is clamped, and counted (DESIGN CHOICE,
log entry 31: R275 speaks of overflow only). -/
def redpElem (ety op : Nat) (xs : List Nat) : Nat × Nat × Nat :=
  if ety < 3 then
    let w := 8 * redpSize ety
    let vs := xs.map (signedOf w)
    let (lo, hi) := intRange true w
    let sum := vs.foldl (fun a b => a + b) 0
    let bits := fun (y : Int) => (y % 2 ^ w).toNat
    match op with
    | 0 => (bits sum, 0, 0)
    | 1 =>
      let z := clampI lo hi sum
      (bits z, if z = sum then 0 else 1, if z = sum then 0 else fSAT)
    | 2 => (bits (vs.tail.foldl (fun a b => if a < b then b else a) (vs.headD 0)), 0, 0)
    | _ => (bits (vs.tail.foldl (fun a b => if b < a then b else a) (vs.headD 0)), 0, 0)
  else
    let f := ffmt (match ety with
      | 3 => 0
      | 4 => 2
      | _ => 1)
    let vs := xs.map f.decode
    let nan := vs.any (·.isNan)
    let clash := vs.any (· == .inf false) && vs.any (· == .inf true)
    match op with
    | 0 | 1 =>
      if nan ∨ clash then (f.nanCode false, 0, fINV)
      else
        let (b, fl) := match fvSum vs with
          | .fin neg n d => f.roundFin rne (op == 1) neg n d
          | .inf neg => if op = 1 then (f.signed neg f.maxCode, fSAT) else (f.infCode neg, 0)
          | v => f.round rne false v
        (b, if op = 1 ∧ fl &&& fSAT ≠ 0 then 1 else 0, fl)
    | _ =>
      if nan then (f.nanCode false, 0, if vs.any (·.isSig) then fINV else 0)
      else
        let better := fun (a b : Nat) =>
          if op = 2 then (if fvBelow (f.decode a) (f.decode b) then b else a)
          else (if fvBelow (f.decode b) (f.decode a) then b else a)
        (xs.tail.foldl better (xs.headD 0), 0, 0)

/-- A destination piece of a REDP: its new bytes, the elements clamped and the flags (R275). -/
def reduceBytes (ety op : Nat) (old : List Byte) (srcs : List (List Byte)) : List Byte × Nat × Nat :=
  let size := redpSize ety
  let elem := fun (bs : List Byte) i => ofBytes ((bs.drop (i * size)).take size)
  let out := (List.range (old.length / size)).map (fun i => redpElem ety op (elem old i :: srcs.map (fun b => elem b i)))
  (out.flatMap (fun (b, _, _) => toBytes size b), (out.map (fun (_, c, _) => c)).foldl (· + ·) 0,
    out.foldl (fun f (_, _, g) => f ||| g) 0)

/-- Adds what a piece of a REDP has counted. -/
def TagRec.tally (r : TagRec) (sat flags : Nat) : TagRec :=
  { r with satcnt := r.satcnt + sat, flags := r.flags ||| word flags }

/-- One 64-byte destination piece of a REDP: read, updated and written as one commit. One on another package is updated there,
by a packet that carries the sources (DEDUCED, log entry 31). -/
def reducePiece (t tag p n : Nat) : CopyM Unit := do
  let bytes ← pieceBytes t tag p n
  let (s, _) ← get
  let r := (s.tile t).tag tag
  let dst := (r.dstSide t tag).at p
  let srcs := chunksOf (r.kk + 1) n bytes
  match ← dst.away n with
  | some (pkg, pas) => dst.send tag p none pkg (pas.headD 0) n (spreadOp pas (.reduce r.ety r.op srcs))
  | none => do
    let old ← dst.read n
    let (new, sat, flags) := reduceBytes r.ety r.op old srcs
    dst.store tag p none new
    modify (fun (s, e) => (s.updTile t (fun x => x.setTag tag ((x.tag tag).tally sat flags)), e))

/-- Reads the source bytes of the piece that begins at byte `p`, which lands later (R90). -/
def fetchUnit (t tag p : Nat) : CopyM Unit := do
  let (s, _) ← get
  let bs ← pieceBytes t tag p (((s.tile t).tag tag).unit p)
  keepBytes t tag p (some bs)

/-- Moves the 64-byte piece of a tag that begins at byte `p`, and notes it as moved. -/
def moveUnit (t tag p : Nat) : CopyM Unit := do
  let (s, _) ← get
  let r := (s.tile t).tag tag
  let n := r.unit p
  if r.kind = 2 then reducePiece t tag p n else movePiece t tag p n
  keepBytes t tag p none
  modify (fun (s, e) =>
    let s := s.updTile t (fun x => x.setTag tag ((x.tag tag).move p n))
    let out := (r.dstSide t tag).at (r.ofs p (if r.kind = 1 then r.dpitch else 0))
    match if r.xrep then Spot.win 0 else out.spot with
    | .tile _ 1 o => (s.wbAfter t tag (o / 4096), e)
    | _ => (s, e))

/-! ### The end of a copy (R66, R95, R275) -/

/-- Adds SATCNT to the word at cw by one commit; on another package by a request, which the end of the copy awaits. -/
def countAt (t tag : Nat) (r : TagRec) (a : Word) : CopyM Unit := do
  let d : Side := { t := t, tag := tag, r := r, write := true, a := a, buf := false }
  match ← d.away 8 with
  | some (pkg, pas) => d.send tag r.total none pkg (pas.headD 0) 8 (spreadOp pas (.atomic .add true true (word r.satcnt) 0))
  | none => do d.store tag r.total none (toBytes 8 (ofBytes (← d.read 8) + r.satcnt))

/-- What the end of a copy writes: its flag, unless the receiver of its transfer writes it, and the count at cw. -/
def endWrites (t tag : Nat) : CopyM Unit := do
  let (s, _) ← get
  let r := (s.tile t).tag tag
  if r.flag ∧ !r.flagAt.any (fun f => r.pkgs == [f.1]) then ((r.dstSide t tag).at r.total).store tag r.total none (toBytes 8 1)
  match r.cw with
  | some a => countAt t tag r a
  | none => pure ()
  modify (fun (s, e) => (s.updTile t (fun x => x.setTag tag { x.tag tag with ended := true }), e))

/-- A copy ends in a fault while it runs (R42, R66); in a draining tile it is dropped and counted (R401). An uncorrectable
error of a tile memory is also a machine check of the X-core (R404). -/
def State.copyFaulted (s : State) (t tag : Nat) (i : TrapInfo) : State :=
  let s := s.updTile t (fun x =>
    let r := x.tag tag
    if x.draining then
      { (x.dropP r.held).setTag tag { r with st := .free, held := [] } with drain := x.drain + r.drops }
    else x.setTag tag { r with st := .faulted, fad := i.cfad, fdw := i.cfdw, got := [], asked := [], ans := [] })
  let s := s.turnTag t tag
  let s := if 0xF0 ≤ i.code.toNat then s.logCheck t i.code i.cfad else s
  if i.code = 0xF0 then
    s.updCore t .x (fun c => if c.run = .off then c else { c with pend := c.pend ++ [{ item := 1, info := i }] })
  else s

/-- A copy is DONE: its flags merge, its P falls, and its signal is added (R51, R66, R133); in a draining tile its bit and
signal are dropped and counted (R401). -/
def State.copyDone (s : State) (t tag : Nat) : State :=
  let x := s.tile t
  let r := x.tag tag
  let gone := x.draining
  let y := x.setTag tag { r with st := if gone then .free else .done, held := [], got := [], asked := [], ans := [] }
  let s := ((s.setTile t { y with drain := if gone then y.drain + r.drops else y.drain }).letGo t r.held).turnTag t tag
  let s := s.updCore t .x (fun c => c.mergeRegs (fun q => q.addFlags r.flags.toNat))
  if gone then s else s.signal t r.ssem r.sinc CoreK.x.idx

/-- A copy whose bytes have all moved and been acknowledged writes its end, and is DONE when that has landed (R95). -/
def State.copyEnd (s : State) (t tag : Nat) (ext : List Byte) : State :=
  let r := (s.tile t).tag tag
  if r.st ≠ .busy ∨ r.doneb < r.total ∨ s.transferDue r.transfer then s
  else if r.ended then s.copyDone t tag
  else match endWrites t tag (s, ext) with
    | .error (.fault i) => s.copyFaulted t tag i
    | .error (.short f) => f s
    | .ok (_, (s, _)) => if s.transferDue ((s.tile t).tag tag).transfer then s else s.copyDone t tag

/-! ### The engine's steps -/

/-- The engine begins a copy's next 4 KiB piece, unless a fault lies in it: then it waits for the pieces before it, and the
copy is FAULTED at this one (R42). An APF's slab that is CLEAN from its source is not moved (R276). None while it waits. -/
def State.openPiece (s : State) (t tag : Nat) (ext : List Byte) : Option State :=
  let r := (s.tile t).tag tag
  let n := Nat.min 4096 (r.total - r.front)
  let r' := { r with front := r.front + n }
  let begun := s.updTile t (fun x => x.setTag tag r')
  if r.kind = 3 ∧ smGet WbSt.empty (s.tile t).wb ((bufOfs r.dst + r.front) / 4096) = .clean (r.src + word r.front) then
    some (((s.updTile t (fun x => x.setTag tag (r'.move r.front n))).noteTag t tag).copyEnd t tag ext)
  else
    let dry : CopyM Unit := (List.range (n / 2 + 1)).foldlM (fun p _ =>
      if r'.front ≤ p then pure p
      else do
        moveUnit t tag p
        pure (p + r.unit p)) r.front *> pure ()
    match dry (begun, ext) with
    | .error (.fault i) => if r.doneb = r.front then some (s.copyFaulted t tag i) else none
    | _ => some begun

/-- One step of a tag (R42, R66, R90): the source bytes of a 64-byte piece of those begun are read, or it lands, each in any order;
or the next 4 KiB piece is begun, but by no copy whose watch is being saved (R400); or the end of the copy is written. A piece
that has not been read before is read as it lands. -/
def State.copyPiece (s : State) (t tag : Nat) (ext : List Byte) : State :=
  let r := (s.tile t).tag tag
  if r.st ≠ .busy ∨ s.soloPackage then s
  else if r.total ≤ r.doneb then s.copyEnd t tag ext
  else
    let (n, s) := s.choose
    let c := n / 2
    let more := decide (r.front < r.total) && !(s.tile t).watch.any (fun w => w.st == .saving)
    let next := if more ∧ (r.pick c r.doneb).isNone then s.openPiece t tag ext else none
    match next, r.pick c r.doneb, r.pick 0 r.doneb with
    | some s', _, _ => s'
    | none, some p, _ => go s p (n % 2 == 1)
    | none, none, some p => go s p (n % 2 == 1)
    | none, none, none => s
where
  go (s : State) (p : Nat) (early : Bool) : State :=
    match (if early then fetchUnit t tag p else moveUnit t tag p) (s, ext) with
    | .error (.fault i) => s.copyFaulted t tag i
    | .error (.short f) => f s
    | .ok (_, (s, e)) => if early then s else (s.noteTag t tag).copyEnd t tag e

/-- Whether one byte of a side lies on another package. -/
def State.sideRemote (s : State) (d : Side) : Bool :=
  match d.spot with
  | .glob va => match d.xlate (d.backing va) (s, []) with
    | .ok (.remote _ _, _) => true
    | _ => false
  | _ => false

/-- Whether a copy has bytes outside the package still to move: source or destination bytes, its flag, or its count (R94). -/
def State.copyRemote (s : State) (t tag : Nat) (r : TagRec) : Bool :=
  let src := r.srcSide t tag
  let dst := r.dstSide t tag
  (List.range (r.total - r.doneb)).any (fun i =>
    let p := r.doneb + i
    (!r.fill && (if r.kind = 2 then (List.range r.kk).any (fun k => s.sideRemote (src.at (k * r.rowlen + p)))
      else s.sideRemote (src.at (r.ofs p r.spitch)))) ||
    (if r.xrep then [0, 1].any (fun h => s.sideRemote (dst.at ((2 * (p % r.rowlen) + h) * r.dpitch + p / r.rowlen / 2)))
      else s.sideRemote (dst.at (r.ofs p (if r.kind = 1 then r.dpitch else 0))))) ||
  (!r.ended && ((r.flag && s.sideRemote (dst.at r.total)) ||
    r.cw.any (fun a => s.sideRemote { t := t, tag := tag, r := r, write := true, a := a, buf := false })))

/-- COPY_PIECE (R90). -/
def execCopyPiece (t tag : Nat) (ext : List Byte) (s : State) : Out := .next (s.copyPiece t tag ext)

end Sys2Proof.Machine
end

