-- ==== Sys2Proof/Machine/Matrix.lean ====
section
/-!
DEFINITION. The matrix instructions: OPC 0x1C0 to 0x1CB, their checks (R312), the join of a gang (R316), and the events of
the array (R308 to R331).
Log entries (notes/assumptions): 15 DEDUCED, 34 DEDUCED, 44 DEDUCED.
-/
namespace Sys2Proof.Machine

/-! ## Checks 1 to 3 of R312 -/

/-- The block that a field names. -/
def blockNo (o : Opd) : Nat :=
  match o with
  | .a n => n
  | _ => 0

/-- The blocks of a region of rows from block k (R314); DF names block k even when the region is empty. -/
def regionOf (k rows : Nat) : List Nat := (List.range (Nat.max 1 (ceilDiv rows 64))).map (k + ·)

/-- The fault of a block check (R312). -/
def blockTrap (s : State) (k kind cause : Nat) (code : Byte) (aux : Word) : TrapInfo :=
  { mkTrap code (word (0x30000000 + k * 0x4000)) kind 15 s.curTile cause with aux := aux }

/-- AUX of ACC_OWNER (R398). -/
def State.accAux (s : State) (k cause : Nat) : Word :=
  let x := s.tile s.curTile
  let owner := if cause = 1 then smFind x.accNote k else x.watch.map (fun w => (w.jid, w.vtn))
  match owner with
  | some (jid, vtn) => match s.job? jid with
    | some j => word (recordBase j vtn)
    | none => 0
  | none => 0

/-- The default service of ACC_OWNER: as at a trap, the chunk up to it commits first and a consumed wait is added back (R383,
R399). -/
def State.accService (s : State) (k cause : Nat) : State :=
  let t := s.curTile
  let c := s.curCore
  if s.me.chunk.any (fun h => decide (0 < h.len)) then s.closeChunk
  else
    let s := ((s.restoreWait t c).dropToken t c).updCore t c (fun c => { c with chunk := none, granted := false, waiting := none })
    (s.serveAcc t k cause).getD s

/-- ACC_OWNER on a block; with HEN = 0 in user mode it is served without a trap when that can be done (R399). -/
def accOwner (k kind cause : Nat) : Exec Unit := fun s =>
  let r := s.me.regs
  let trap := Exit.trap (blockTrap s k kind cause Code.accOwner (s.accAux k cause))
  if r.priv ∨ r.hen ∨ (s.serveAcc s.curTile k cause).isNone then .error trap
  else .error (.stall (fun s => s.accService k cause))

/-- Checks 1 to 3 of R312 on the blocks an instruction names. -/
def checkBlocks (kind : Nat) (ks : List Nat) (tagTest absTest : Bool) : Exec Unit := do
  let s ← getState
  let x := s.tile s.curTile
  match ks.find? (fun k => decide (15 < k)) with
  | some k => throwTrap (blockTrap s k kind 0x0C Code.protection 0)
  | none => pure ()
  match ks.find? (fun k => x.parked.testBit k) with
  | some k => throwTrap (blockTrap s k kind 0x0D Code.protection 0)
  | none => pure ()
  for k in ks do
    if absTest ∧ s.me.regs.cacc.getLsbD k then accOwner k kind 2
    if tagTest ∧ accTag (x.block k) ≠ 0 ∧ accTag (x.block k) ≠ s.me.cctx.toNat then accOwner k kind 1

/-- A rule of check 4 is broken (R312). -/
def checkFour (broken : Bool) (kind : Nat) : Exec Unit := do
  if broken then
    let s ← getState
    throwTrap (mkTrap Code.protection s.me.regs.ip kind 15 s.curTile 0x14)

/-! ## Checks 5 and 6 -/

/-- A buffer range of an instruction: address, bytes, KIND and the buffer its entry gives. -/
structure MRange where
  a : Word
  n : Nat
  kind : Nat
  buf : Nat
deriving DecidableEq, Repr

def MRange.slabs (r : MRange) : List SlabId := slabsOf r.buf (bufOfs r.a) r.n

/-- The bytes of a range in a tile. -/
def MRange.bytes (r : MRange) (t : Nat) : Nat × Nat := (tileKey t r.buf (bufOfs r.a), r.n)

/-- Check 5 of R312 on ranges: R49, then SLAB_OWNER, then room in P. -/
def checkRanges (rs : List MRange) : Exec Unit := do
  for r in rs do
    checkBuf r.a r.n r.kind (fun b => b == r.buf)
  for r in rs do
    checkSide r.slabs true r.kind
  roomForP (rs.flatMap MRange.slabs)

/-- Bytes from the first to the end of the last of `rows` rows. -/
def rowsSpan (rows pitch row : Nat) : Nat := if rows = 0 ∨ row = 0 then 0 else (rows - 1) * pitch + row

/-- Translates the pages of a global range (check 6); a fault reports the address as the operand gives it, moved to the
page that faults. -/
def mapGlobal (c : Acc) (q : XReq) (vf : Option Nat) (va n : Nat) : Exec (SMap (Nat × Nat)) := fun s =>
  match State.mapPages (fun s v => s.translate s.curTile vf q v) (pageStarts va n) s with
  | .ok r => .ok r
  | .error (at_, code, cause) =>
    if code = 0xF4 then .error (.trap (mkTrap 0xF4 (word cause) c.kind c.space s.curTile 0))
    else .error (.trap (mkTrap code (addrAdd c.addr (((at_ + 2 ^ 56 - va) % 2 ^ 56 : Nat) : Int)) c.kind c.space s.curTile cause))

/-! ## The join of a gang (R316) -/

/-- The instruction as it is handed over, before its own fields. -/
def matOp (s : State) (kind : MKind) (x : Ops) (a b c : Word) : MOp :=
  { kind := kind, red := false, x := x, a := a, b := b, c := c, blocks := [], writes := [], pairs := [],
    mode := 1, sts := [], nb := 0, bty := 0, kb := 0, tab := [], heldA := [], held := [], reads := [], readsA := [],
    pages := [], vf := s.vfOn s.curTile, lead := s.curTile, gang := 0, tag := s.me.cctx, rd := false, asked := [],
    got := [] }

/-- Whether the acting core's tile leads its gang (R316). -/
def State.leads (s : State) : Bool := decide (s.me.gsize ≤ 1) || s.me.gpos == 0

/-- The entry of a matrix instruction. -/
def Entry.array : Entry := { Entry.base with cores := .m, after := true, engine := true }

/-- What the members of a join must agree on (R316). -/
def joinKey (x : Ops) (opc : Nat) (vals : List Word) : List Nat :=
  [opc, x.fmt.toNat, x.imm.toNat, x.mod.toNat] ++ vals.map (fun v => v.toNat)

/-- CGANG (R317). -/
def Core.cgang (c : Core) : Word := word (c.tmo % 2 ^ 16 * 2 ^ 48 + c.gsize % 32 * 2 ^ 32 + c.gpos % 16)

/-! ## MLDB, MMA and MMG (R319 to R325) -/

/-- A pitch field is 0 or at least the packed row length (R314). -/
def pitchOk (w : Word) (packed : Nat) : Bool := Word.bits w 32 16 == 0 || decide (packed ≤ Word.bits w 32 16)

/-- No bit of a shape stands outside a mask. -/
def shapeClean (w mask : Word) : Bool := w &&& ~~~mask == 0

/-- MLDB (R319). -/
def execMldb (x : Ops) (s : State) : Out := runCore .array x (do
  let w ← readA x
  let shp ← readB x
  let xb ← readC x
  let s ← getState
  let ty := x.fmt.toNat
  let nb := Word.bits shp 0 7
  let kb := shapeK shp
  let order := x.mod.getLsbD 1
  let row := mtBytes ty (if order then kb else nb)
  let pb := shapePitch shp row
  checkFour (!shapeClean shp 0xFFFF01FF007F || decide (64 < nb) || (mtFour ty && nb % 2 == 1) || kb % 32 != 0 ||
    decide (mtKmax ty ty < kb) || !pitchOk shp row) 3
  let rs : List MRange :=
    { a := w, n := if kb = 0 ∨ nb = 0 then 0 else rowsSpan (if order then nb else kb) pb row, kind := 3, buf := 1 } ::
    (if mtScaled ty then [{ a := xb, n := nb * (kb / 32), kind := 3, buf := 1 }] else [])
  checkRanges rs
  atCommit (.matrix { matOp s .ldb x w shp xb with
    nb := nb, kb := kb, bty := ty, held := (rs.flatMap MRange.slabs).dedup, reads := rs.map (fun r => r.bytes s.curTile) })) s

/-- Rules of check 4 on the blocks that a product names and writes, the shadows of a redundant one included (R313, R325). -/
def productRules (x : Tile) (red : Bool) (ks writes : List Nat) (mode : Nat) : Bool :=
  ks.any (fun k => accSh (x.block k)) ||
  (if red then writes ++ writes.map (· + 8) else writes).any (fun k => accMode (x.block k) != 0 && accMode (x.block k) != mode) ||
  (if red then
    ks.any (fun k => decide (7 < k) || (!accR (x.block k) && (accR (x.block (k + 8)) || accSh (x.block (k + 8)))))
  else writes.any (fun k => accR (x.block k)))

/-- The blocks of a product whose state is checked: with the shadows of a redundant one (R310). -/
def checkedBlocks (red : Bool) (ks : List Nat) : List Nat :=
  if red then ks ++ ((ks.filter (fun k => decide (k < 8))).map (· + 8)) else ks

/-- The ranges of A at the leader, with its exponent bytes (R313, R316). -/
def rangesA (x : Ops) (a shp : Word) (xa : Word) : List MRange :=
  let ty := x.fmt.toNat
  let rows := shapeRows shp
  let k := shapeK shp
  let order := x.mod.getLsbD 1
  let row := mtBytes ty (if order then rows else k)
  { a := a, n := if rows = 0 ∨ k = 0 then 0 else rowsSpan (if order then k else rows) (shapePitch shp row) row, kind := 3,
    buf := 2 } :: (if mtScaled ty then [{ a := xa, n := rows * (k / 32), kind := 3, buf := 2 }] else [])

/-- Whether a shape of MMA or MMG breaks R314. -/
def shapeBad (x : Ops) (shp : Word) (kmax : Nat) : Bool :=
  let order := x.mod.getLsbD 1
  !shapeClean shp 0xFFFF01FF01FF || decide (256 < shapeRows shp) || shapeK shp % 32 != 0 || decide (kmax < shapeK shp) ||
  !pitchOk shp (mtBytes x.fmt.toNat (if order then shapeRows shp else shapeK shp))

/-- The bytes of AS that an instruction reads. -/
def asBytes (t : Nat) (ks : List Nat) : List (Nat × Nat) := ks.map (fun k => (tileKey t 3 (k * 16384), 16384))

/-- MMA and MRED up to the join: checks 1 to 6, and the instruction to hand over (R312, R320, R325). -/
def prepMma (x : Ops) (red : Bool) : Exec (MOp × List Nat) := do
  let a ← readA x
  let shp ← readB x
  let xa ← readC x
  let s ← getState
  let t := s.tile s.curTile
  let ty := x.fmt.toNat
  let ks := regionOf (blockNo x.d) (shapeRows shp)
  checkBlocks 4 (checkedBlocks red ks) true true
  let bank := t.bank (x.mod.toNat / 4 % 2)
  let bt := if bank.loaded then bank.ty else ty
  let nb := if bank.loaded then bank.nb else 0
  let k := shapeK shp
  let mode := if ty = 3 ∧ bt = 3 then 2 else 1
  let writes := if shapeRows shp = 0 ∨ nb = 0 ∨ (k = 0 ∧ !x.mod.getLsbD 0) then [] else ks
  checkFour (shapeBad x shp (mtKmax ty bt) ||
    (k != 0 && (!bank.loaded || bank.kb != k || ((ty == 3) != (bt == 3)))) || productRules t red ks writes mode) 4
  let op := matOp s .mma x a shp xa
  let ra := rangesA x a shp xa
  let mine := s.leads
  if mine then checkRanges ra
  return ({ op with
    red := red, blocks := ks, writes := writes, pairs := if red then writes else [], mode := mode, sts := ks.map t.block, nb := nb, bty := bt, kb := k
    heldA := if mine then (ra.flatMap MRange.slabs).dedup else []
    reads := asBytes s.curTile writes, readsA := ra.map (fun r => (bufOfs r.a, r.n)) },
    joinKey x (if red then 0x1C4 else 0x1C2) [shp, a, xa])

/-- Whether a word of an entry of the adapter-pointer table breaks check 4 for A of type ty and depth k (R323). -/
def entryBad (ty k : Nat) (w w1 : Word) : Bool :=
  let bt := entType w
  Word.bits w 46 18 != 0 || w.getLsbD 39 || Word.bits w1 32 32 != 0 || (entCbs w != 0 && bt != 7) ||
  (Word.bits w1 0 32 != 0 && !mtScaled bt) ||
  decide (64 < entNb w) || (mtFour bt && entNb w % 2 == 1) || ((bt == 3) != (ty == 3)) ||
  (!entNone w && decide (mtKmax ty bt < k))

/-- MMG and MREDG up to the join (R323, R325). -/
def prepMmg (x : Ops) (red : Bool) : Exec (MOp × List Nat) := do
  let a ← readA x
  let shp ← readB x
  let tab ← readC x
  let s ← getState
  let t := s.tile s.curTile
  let ty := x.fmt.toNat
  let rows := shapeRows shp
  let k := shapeK shp
  let ks := regionOf (blockNo x.d) rows
  checkBlocks 4 (checkedBlocks red ks) true true
  let nent := ceilDiv rows 16
  let size := 16 + 16 * nent
  let readable := !bufBad tab && bufNo tab == 2 && decide (bufOfs tab + size ≤ bufSize 2)
  let words := if readable then
      (List.range (2 + 2 * nent)).map (fun i => word (s.readNat 0 (tileKey s.curTile 2 (bufOfs tab + 8 * i)) 8))
    else []
  let ent := fun r => wd words (2 + 2 * r)
  let adds := fun r => !entNone (ent r) && entNb (ent r) != 0 && k != 0
  let mode := if ty = 3 then 2 else 1
  let writes := if rows = 0 then [] else ks.filter (fun b => x.mod.getLsbD 0 ||
    (List.range nent).any (fun r => decide (blockNo x.d + r / 4 = b) && adds r))
  checkFour (shapeBad x shp (mtKmax ty ty) || productRules t red ks writes mode ||
    (readable && (Word.bits (wd words 0) 32 32 != 0 || (Word.bits (wd words 0) 0 32 != 0 && !mtScaled ty) ||
      wd words 1 != 0 || (List.range nent).any (fun r => entryBad ty k (ent r) (wd words (3 + 2 * r)))))) 4
  let op := matOp s .mmg x a shp tab
  let mine := s.leads
  let xa := word (Word.bits (wd words 0) 0 32)
  let rb : List MRange := { a := tab, n := size, kind := 3, buf := 2 } ::
    (List.range nent).flatMap (fun r =>
      let w := ent r
      if entNone w then []
      else { a := word (entBase w), n := if k = 0 then 0 else k * mtBytes (entType w) (entNb w), kind := 3, buf := 1 } ::
        (if mtScaled (entType w) then
          [{ a := word (Word.bits (wd words (3 + 2 * r)) 0 32), n := entNb w * (k / 32), kind := 3, buf := 1 }] else []))
  let ra := rangesA x a shp xa
  checkRanges (rb ++ if mine then ra else [])
  return ({ op with
    red := red, blocks := ks, writes := writes, mode := mode, sts := ks.map t.block, tab := words
    pairs := if !red ∨ rows = 0 ∨ (k = 0 ∧ !x.mod.getLsbD 0) then [] else ks
    heldA := if mine then (ra.flatMap MRange.slabs).dedup else []
    held := (rb.flatMap MRange.slabs).dedup
    reads := rb.map (fun r => r.bytes s.curTile) ++ asBytes s.curTile writes, readsA := ra.map (fun r => (bufOfs r.a, r.n)) },
    joinKey x (if red then 0x1C5 else 0x1C3) [shp, a])

/-! ### The join (R316) -/

/-- A gang instruction up to its join: its checks, the instruction to hand over, and what the members must agree on. -/
def gangPrep (kind : MKind) (red : Bool) (x : Ops) : Exec (MOp × List Nat) :=
  match kind with
  | .gang => do return (matOp (← getState) .gang x 0 0 0, joinKey x 0x1C0 [])
  | .mmg => prepMmg x red
  | _ => prepMma x red

/-- A gang instruction starts: it is handed to the array with its chunk (R90); MGANG writes its register (R318). -/
def gangStart (op : MOp) : Exec Unit := do
  if op.kind = .gang then writeOpd op.x.d (← getState).me.cgang
  else atCommit (.matrix op)

/-- The entry of a gang instruction: MGANG starts no engine work. -/
def gangEntry (kind : MKind) : Entry := { Entry.array with engine := kind != .gang }

/-- The acting core's gang instruction when its join is complete: checked again, handed over, and ended in its chunk. -/
def joinWhole (j : Join) (lead : Nat) : Exec Unit := do
  let x := j.op.x
  modState (fun s => s.setMe { s.me with join := none, stalled := false, gcount := s.me.gcount + 1 })
  let (op, _) ← gangPrep j.op.kind j.op.red x
  if op.kind ≠ .gang then needs .engine
  gangStart { op with gang := j.op.gang, lead := lead }
  finish (gangEntry op.kind) x true

/-- A member's part in a join that is complete: its chunk, with the gang instruction at its end, commits. The error says whether it
would fault. -/
def State.runMember (s : State) (u : Nat) (j : Join) (lead : Nat) : Except Bool State :=
  match joinWhole j lead { s with curTile := u, curCore := .m } with
  | .ok (_, v) => .ok { v.commitChunk u .m with curTile := s.curTile, curCore := s.curCore }
  | .error (.trap _) => .error true
  | .error (.stall _) => .error false

/-- Completes the join of tile t's gang when every M-core of it has joined and the chunk of each can commit (R316): a member
whose chunk meets another commit, or whose instruction would fault by now, withdraws and runs again. -/
def State.settleJoin (s : State) (t : Nat) : State :=
  let joins := (s.gangTiles t).filterMap (fun u =>
    ((s.core u .m).join.filter (fun j => j.verdict == 0)).map (fun j => (u, j)))
  let lead := ((joins.find? (fun (u, _) => (s.core u .m).gpos == 0)).map (·.1)).getD t
  if joins.length ≠ (s.core t .m).gsize then s
  else if joins.any (fun (_, j) => j.key != ((joins.head?).map (fun (_, j) => j.key)).getD []) then
    joins.foldl (fun s (u, j) => s.updCore u .m (fun c => { c with join := some { j with verdict := 2 } })) s
  else
    let done := joins.foldl (fun (r : Except State State) (u, j) => match r with
      | .error v => .error v
      | .ok v =>
        if (v.core u .m).chunk.any (fun h => h.met && !h.single) then .error (s.squash u .m true)
        else if v.soloBlocked u .m then .error s
        else match v.runMember u j lead with
          | .ok w => .ok w
          | .error true => .error (s.updCore u .m (fun c => { c with join := none }))
          | .error false => .error s) (.ok s)
    match done with
    | .ok v => v
    | .error v => v

/-- The acting core joins, and waits (R316); MGANG sets CGANG.TMO first (R318). -/
def State.enterJoin (s : State) (key : List Nat) (op : MOp) : State :=
  let s := if op.kind = .gang then s.setMe { s.me with tmo := op.x.imm.toNat % 2 ^ 16 } else s
  (s.setMe { s.me with join := some { key := key, since := s.cycle, op := op, verdict := 0 }, stalled := true }).settleJoin
    s.curTile

/-- A core that waits in its join looks whether it is complete. -/
def State.awaitJoin (s : State) : State := (s.setMe { s.me with stalled := true }).settleJoin s.curTile

/-- A gang instruction: on a gang of one it starts at once; otherwise it joins, and the join ends it. -/
def gangBody (kind : MKind) (red : Bool) (x : Ops) : Exec Unit := do
  let s ← getState
  match s.me.join with
  | none => do
    let (op, key) ← gangPrep kind red x
    if s.me.gsize ≤ 1 then gangStart op
    else if !s.me.trial then stallWith (fun s => s.enterJoin key { op with gang := s.me.gcount + 1 })
  | some j => match j.verdict with
    | 0 => stallWith State.awaitJoin
    | 2 => faultIp Code.gangTimeout 2
    | _ => faultIp Code.gangTimeout 1

/-- MGANG (R318). -/
def execMgang (x : Ops) (s : State) : Out := runCore (gangEntry .gang) x (do
  modState (fun s => s.setMe { s.me with tmo := x.imm.toNat % 2 ^ 16 })
  gangBody .gang false x) s

/-- MMA (R320). -/
def execMma (x : Ops) (s : State) : Out := runCore (gangEntry .mma) x (gangBody .mma false x) s

/-- MRED (R325). -/
def execMred (x : Ops) (s : State) : Out := runCore (gangEntry .mma) x (gangBody .mma true x) s

/-- MMG (R323). -/
def execMmg (x : Ops) (s : State) : Out := runCore (gangEntry .mmg) x (gangBody .mmg false x) s

/-- MREDG (R325). -/
def execMredg (x : Ops) (s : State) : Out := runCore (gangEntry .mmg) x (gangBody .mmg true x) s

/-! ## MMV (R324) -/

/-- MMV (R324). -/
def execMmv (x : Ops) (s : State) : Out := runCore .array x (do
  let a ← readA x
  let b ← readB x
  let shp ← readC x
  let s ← getState
  let t := s.tile s.curTile
  let at_ := x.mod.toNat % 8
  let bt := x.fmt.toNat
  let rows := Word.bits shp 0 4
  let k := Word.bits shp 16 16
  let cols := Word.bits shp 32 11
  let ks := regionOf (blockNo x.d) cols
  checkBlocks 4 ks true true
  let mode := if at_ = 3 then 2 else 1
  let writes := if rows = 0 ∨ cols = 0 ∨ (k = 0 ∧ !x.mod.getLsbD 3) then [] else ks
  checkFour (!shapeClean shp 0x7FFFFFF000F || decide (8 < rows) || decide (16384 < k) || k % 32 != 0 ||
    decide (1024 < cols) || ((at_ == 3) != (bt == 3)) || productRules t false ks writes mode) 4
  let row := mtBytes at_ k
  let ra : List MRange := [{ a := a, n := rowsSpan rows (roundUp row 64) row, kind := 3, buf := 2 }]
  checkRanges ra
  let brow := mtBytes bt cols
  let bp := x.imm.toNat % 2 ^ 16
  let n := rowsSpan k (if bp = 0 then roundUp brow 64 else bp * 64) brow
  let c := accOf 3 false b
  if topByte b ≠ 0 then faultAcc c Code.protection 0x0A
  let pages ← mapGlobal c { s.myXReq false with mmv := true } (s.vfOn s.curTile) (Word.bits b 0 56) n
  let weights := (pageStarts (Word.bits b 0 56) n).map (fun va => ((pagePlace pages va).num, Nat.min n (2 ^ 16 - va % 2 ^ 16)))
  atCommit (.matrix { matOp s .mmv x a b shp with
    blocks := ks, writes := writes, mode := mode, sts := ks.map t.block, pages := pages
    held := (ra.flatMap MRange.slabs).dedup
    reads := ra.map (fun r => r.bytes s.curTile) ++ weights ++ asBytes s.curTile writes })) s

/-! ## MCLR, MDRAIN and MSTAT (R327 to R329) -/

/-- MCLR (R327). -/
def execMclr (x : Ops) (s : State) : Out := runCore .array x (do
  let s ← getState
  let t := s.tile s.curTile
  let ks := (List.range (x.imm.toNat % 16 + 1)).map (blockNo x.d + ·)
  checkBlocks 4 ks true true
  checkFour (ks.any (fun k => accSh (t.block k))) 4
  atCommit (.matrix { matOp s .clr x 0 0 0 with blocks := ks, writes := ks, sts := ks.map t.block })) s

/-- MDRAIN (R328). -/
def execMdrain (x : Ops) (s : State) : Out := runCore .array x (do
  let d ← readA x
  let shp ← readB x
  let s ← getState
  let t := s.tile s.curTile
  let rows := Word.bits shp 0 9
  let cols := Word.bits shp 16 7
  let (_, size) := drainType x.fmt.toNat
  let ks := regionOf (blockNo x.d) (if cols = 0 then 0 else rows)
  checkBlocks 4 ks true true
  checkFour (!shapeClean shp 0xFFFF007F01FF || decide (256 < rows) || decide (64 < cols) || !pitchOk shp (cols * size) ||
    ks.any (fun k => accSh (t.block k))) 4
  let pd := shapePitch shp (cols * size)
  let rs : List MRange := [{ a := d, n := if rows = 0 ∨ cols = 0 then 0 else rowsSpan rows pd (cols * size), kind := 4, buf := 2 }]
  checkRanges rs
  atCommit (.matrix { matOp s .drain x d shp 0 with
    blocks := ks, writes := ks, sts := ks.map t.block, held := (rs.flatMap MRange.slabs).dedup
    reads := asBytes s.curTile (if rows = 0 ∨ cols = 0 then [] else ks) })) s

/-- Blocks that an instruction in the queue writes, shadows included. -/
def MOp.touches (m : MOp) : List Nat :=
  m.blocks ++ (m.blocks.zip (m.sts ++ List.replicate m.blocks.length 0)).filterMap (fun (k, w) =>
    if m.red ∨ accR w then some (k + 8) else none)

/-- MSTAT: waits for the core's earlier instructions on the block (R309, R329). The save engine works at once, so BUSY
reads 0. -/
def execMstat (x : Ops) (s : State) : Out := runCore { Entry.array with engine := false } x (do
  let s ← getState
  let t := s.tile s.curTile
  let k := blockNo x.a
  if t.mq.any (fun m => m.touches.contains k) then stallWith (fun s => s)
  let w := Word.bits (t.block k) 0 15
  writeOpd x.d (word (w + (t.parked.testBit k).toNat * 2 ^ 16 + (s.me.regs.cacc.getLsbD k).toNat * 2 ^ 17))) s

/-! ## MSPILL and MFILL (R330, R331, R398) -/

/-- The first two steps of check 6 on g and f, in the order of R40, and their global addresses (R330). -/
def recordAddr (kind : Nat) (write : Bool) (gf : List (Word × Nat × Nat)) : Exec (List Nat) := do
  let s ← getState
  let c := s.me
  for (a, _, _) in gf do
    let carve := Word.bits c.cpriv 0 8 * 4096
    let ok := spaceCode a == 0 || (spaceCode a == 1 && (Word.bits a 32 24 != 0 || decide (carve ≤ Word.bits a 0 32)))
    if !ok then faultAcc (accOf kind write a) Code.protection 0x0C
  let vas ← gf.mapM (fun (a, n, _) => do
    match s.spotOf false a, s.spotOf false (addrAdd a ((n : Int) - 1)) with
    | .ok (.glob va), .ok _ => return va
    | .error (code, cause), _ => faultAcc (accOf kind write a) code cause
    | _, .error (code, cause) => faultAcc (accOf kind write a) code cause
    | _, _ => faultAcc (accOf kind write a) Code.protection 0x0C)
  for (a, _, al) in gf do
    if a.toNat % al ≠ 0 then faultAcc (accOf kind write a) Code.misaligned (Config.openCause Code.misaligned).toNat
  return vas

/-- MSPILL (R330, R398). -/
def execMspill (x : Ops) (s : State) : Out := runCore { Entry.array with priv := true } x (do
  let g ← readA x
  let f ← readB x
  let s ← getState
  let t := s.tile s.curTile
  let k := blockNo x.d
  let w := t.block k
  checkBlocks 4 [k] false false
  checkFour (accSh w) 4
  let vas ← recordAddr 4 true [(g, 16384, 256), (f, 8, 8)]
  let other := accTag w ≠ 0 ∧ accTag w ≠ s.me.cctx.toNat
  let owner := if other then smFind t.accNote k else none
  let job := owner.bind (fun o => s.job? o.1)
  if other then
    let aux := s.accAux k 1
    if job.isNone ∨ g ≠ aux + word (0x120000 + 0x4000 * k) ∨ f ≠ aux + word (0xC0 + 8 * k) then
      faultAcc (accOf 4 true g) Code.protection 0x17
  let q : XReq := match job with
    | some j => { root := j.root, ctx := j.ctx, priv := true, write := true, mmv := false }
    | none => s.myXReq true
  let vf := match job with
    | some j => j.vfn
    | none => s.vfOn s.curTile
  let pg ← mapGlobal (accOf 4 true g) q vf (vas.getD 0 0) 16384
  let pf ← mapGlobal (accOf 4 true f) q vf (vas.getD 1 0) 8
  atCommit (.matrix { matOp s .spill x (word (vas.getD 0 0)) (word (vas.getD 1 0)) 0 with
    blocks := [k], writes := [k], sts := [w], pages := pf.foldl (fun m (p, v) => smPut m p v) pg, vf := vf
    reads := asBytes s.curTile [k] })) s

/-- What an effect gives, without its changes; none where it faults. -/
def probe {α : Type} (m : Exec α) : Exec (Option α) := fun s =>
  match m s with
  | .ok (a, _) => .ok (some a, s)
  | .error (.trap _) => .ok (none, s)
  | .error e => .error e

/-- MFILL (R331). Check 4 on the word at f comes before check 6; what its early read of f alone would fault with is dropped, and
check 6 then takes g and f together, both spaces before either alignment (R330). -/
def execMfill (x : Ops) (s : State) : Out := runCore { Entry.array with priv := true } x (do
  let g ← readA x
  let f ← readB x
  let s ← getState
  let t := s.tile s.curTile
  let k := blockNo x.d
  checkBlocks 4 [k] true false
  checkFour (accSh (t.block k)) 4
  let stateWord : Exec Word := do
    let at_ := (← recordAddr 3 false [(f, 8, 8)]).headD 0
    return word (ofBytes (← readGlob (accOf 3 false f) at_ 8))
  if let some w ← probe stateWord then
    checkFour (!fillWordOk w s.me.cctx k) 4
    if accR w then checkBlocks 4 [k + 8] true false
  let vas ← recordAddr 3 false [(g, 16384, 256), (f, 8, 8)]
  let w ← stateWord
  let pg ← mapGlobal (accOf 3 false g) (s.myXReq false) (s.vfOn s.curTile) (vas.getD 0 0) 16384
  modRegs (fun r => { r with cacc := r.cacc &&& ~~~(BitVec.ofNat 16 (2 ^ k)) })
  atCommit (.matrix { matOp s .fill x (word (vas.getD 0 0)) (word (vas.getD 1 0)) 0 with
    blocks := [k], writes := [k], sts := [w], pages := pg
    reads := (pageStarts (vas.getD 0 0) 16384).filterMap (fun va => match pagePlace pg va with
      | .mem p _ _ => some (p, Nat.min 16384 (2 ^ 16 - va % 2 ^ 16))
      | _ => none) })) s

/-! ## Events of the array -/

/-- MATRIX_READ_DONE: the array performs the next instruction, and the slabs it has read are let go (R51). -/
def execMatrixReadDone (t : Nat) (s : State) : Out := .next (s.perform t).slotsSettle

/-- Changes the instruction at the head of a tile's queue. -/
def State.updHead (s : State) (t : Nat) (f : MOp → MOp) : State :=
  match (s.tile t).mq with
  | [] => s
  | m :: _ => s.setOp t 0 (f m)

/-- Where a piece of a spill or fill lies. -/
def MOp.pieceAt (m : MOp) (o : Nat) : Place := pagePlace m.pages (m.a.toNat + o)

/-- One write of a spill as a single-access commit; the acknowledgement of another package is awaited (R308, R330). -/
def State.spillPut (s : State) (t : Nat) (vf : Option Nat) (p : Place) (bs : List Byte) : State :=
  match p with
  | .remote pkg pa =>
    let (id, s) := s.sendFab pkg pa (.store bs) (.array t) none
    s.updHead t (fun m => { m with asked := smPut m.asked id 0 })
  | p => s.placeWrite t vf p bs

/-- The pieces of a fill that have not come from outside the part (R331). -/
def MOp.lacks (m : MOp) : List (Nat × Place) :=
  if m.kind ≠ .fill then []
  else (recordPieces.map (fun o => (o, m.pieceAt o))).filter (fun (o, p) => match p with
    | .mem _ _ _ => false
    | _ => (smFind m.got o).isNone)

/-- The reads of those pieces go out. -/
def State.askPieces (s : State) (t : Nat) (m : MOp) : State :=
  m.lacks.foldl (fun s (o, p) =>
    let (id, s) := match p with
      | .host a => s.sendHostRead t .m (word a) 64
      | .remote pkg pa => s.sendFab pkg pa (.load 64) (.array t) none
      | .mem _ _ _ => (0, s)
    s.updHead t (fun m => { m with asked := smPut m.asked id o })) s

/-- The bytes of a piece of a fill. -/
def State.pieceBytes (s : State) (m : MOp) (o : Nat) : List Byte :=
  match m.pieceAt o with
  | .mem key kn _ => s.readBytes kn key 64
  | _ => (smFind m.got o).getD []

/-- What the completion of an instruction that is not performed earlier does: a drain, a spill or a fill. -/
def State.lateWork (s : State) (t : Nat) (m : MOp) : State :=
  match m.kind with
  | .drain =>
    let (s, f) := s.drainRun t m
    s.updCore t .m (fun c => c.mergeRegs (fun r => r.addFlags f))
  | .spill =>
    (s.spillRun t (m.blocks.headD 0) (m.st 0) (fun s p bs => s.spillPut t m.vf p bs) m.pieceAt
      (pagePlace m.pages m.b.toNat)).updHead t (fun m => { m with rd := true })
  | .fill => s.fillRun t (m.blocks.headD 0) (m.st 0) (recordPieces.flatMap (fun o => s.pieceBytes m o))
  | _ => s

/-- The completion of the oldest instruction (R308): what is left of its work, its P and its signal. A drain that differs
from its shadow does not complete (R326). -/
def State.matrixDone (s : State) (t : Nat) : State :=
  let s' := if (s.tile t).mq.any (fun m => m.rd) then s else s.perform t
  match (s'.tile t).mq with
  | [] => s'
  | m :: _ =>
    let late := m.kind = .drain ∨ m.kind = .spill ∨ m.kind = .fill
    if !m.asked.isEmpty ∨ (!m.rd ∧ !late) then s'
    else if m.kind = .drain ∧ (s'.mismatch t m).isSome then s'
    else if m.kind = .spill ∧ !m.rd ∧ s'.soloPackage then s'
    else if !m.lacks.isEmpty then s'.askPieces t m
    else match if late ∧ !m.rd then s'.badRead m else none with
      | some p => s'.stopOp t 0 p
      | none =>
        let s' := if late ∧ !m.rd then s'.lateWork t m else s'
        if (s'.tile t).mq.any (fun n => !n.asked.isEmpty) then s'
        else (s'.popOp t).engineSignal t m.x.h.ssem.toNat m.x.h.sinc.toNat CoreK.m.idx

/-- MATRIX_COMPLETE (R308). -/
def execMatrixComplete (t : Nat) (s : State) : Out := .next (s.matrixDone t).slotsSettle

/-- MATRIX_MISMATCH (R326). -/
def execMatrixMismatch (t : Nat) (s : State) : Out := .next (
  match (s.tile t).mq with
  | [] => s
  | m :: _ =>
    if m.kind ≠ .drain then s
    else match s.mismatch t m with
      | none => s
      | some a => ((s.popOp t).pendCore t .m 5 (mkTrap Code.matrixMismatch (word a) 3 15 t 1)).slotsSettle)

/-- GANG_TIMEOUT: the join of a tile's M-core has run out of CGANG.TMO (R316). -/
def execGangTimeout (t : Nat) (s : State) : Out := .next (
  let c := s.core t .m
  match c.join with
  | some j =>
    if j.verdict = 0 ∧ c.tmo ≠ 0 ∧ j.since + c.tmo * 1024 ≤ s.cycle then
      s.updCore t .m (fun c => { c with join := some { j with verdict := 3 } })
    else s
  | none => s)

end Sys2Proof.Machine
end

