-- ==== Sys2Proof/Machine/Memory.lean ====
section
/-!
DEFINITION. Loads, stores, block moves and the space instructions: OPC 0x0C0 to 0x0D3 (R253 to R263).
Log entries (notes/assumptions): 30 DEDUCED.
-/
namespace Sys2Proof.Machine

/-! ## Loads and stores -/

/-- The address of R253 from its base and index. -/
def eaOf (x : Ops) (a b : Word) : Word := addrAdd a ((b.toNat * 2 ^ (x.mod.toNat % 8) : Nat) + x.imm.toInt)

/-- Reads base and index: a and ea. -/
def readEa (x : Ops) : Exec (Word × Word) := do
  let a ← readA x
  let b ← readB x
  return (a, eaOf x a b)

/-- The saturation modifier MOD[3] (R253). -/
def satBit (x : Ops) : Bool := x.mod.getLsbD 3

/-- Code of R300 and width in bytes of a float FMT of R255. -/
def ldfFmt (fmt : BitVec 3) : Nat × Nat :=
  match fmt.toNat with
  | 0 => (0, 4)
  | 1 => (1, 2)
  | 2 => (2, 2)
  | 3 => (4, 1)
  | _ => (3, 1)

/-- LD's value at an address: bytes, or a window's element converted (R255, R257). -/
def loadInt (x : Ops) (a : Word) : Exec Word := do
  let c := accOf 0 false a
  let n := widthOf x.fmt / 8
  match ← locate c (elemAlign a n) false with
  | .win w => do
    let (v, nearest) ← winRead c w
    let rd ← drawScalar
    let (y, f) := toIntFmt (if nearest then rne else rd) (satBit x) false (fmtSigned x.fmt) (widthOf x.fmt) v
    addFlags f
    return narrowFmt x.fmt y
  | p => do return narrowFmt x.fmt (ofBytes (← readSpot c p n))

/-- LDF's value at an address (R255, R257). -/
def loadFloat (x : Ops) (a : Word) : Exec Word := do
  let c := accOf 0 false a
  let (dst, n) := ldfFmt x.fmt
  match ← locate c (elemAlign a n) false with
  | .win w => do
    let (v, nearest) ← winRead c w
    let rd ← drawScalar
    let (b, f) := convertTo dst (if nearest then rne else rd) (satBit x) false [] v
    addFlags f
    return word b
  | p => do return word (ofBytes (← readSpot c p n))

/-- Stores the value v at an address; through a window it is encoded from the exact value fv (R255, R257). -/
def storeValue (x : Ops) (a : Word) (n : Nat) (v : Word) (fromInt : Bool) (fv : FV) : Exec Unit := do
  let c := accOf 1 true a
  match ← locate c (elemAlign a n) false with
  | .win w => do
    let rd ← drawScalar
    addFlags (← winWrite c w rd (satBit x) fromInt fv)
  | p => writeSpot c p (toBytes n v.toNat)

/-- ST's store. -/
def storeInt (x : Ops) (a v : Word) : Exec Unit :=
  storeValue x a (widthOf x.fmt / 8) v true (FV.ofInt (viewFmt x.fmt v))

/-- STF's store. -/
def storeFloat (x : Ops) (a v : Word) : Exec Unit :=
  let (f, n) := ldfFmt x.fmt
  storeValue x a n v false ((ffmt f).decode (v.toNat % 2 ^ (8 * n)))

/-- The operand after a main register: the second of a pair (R203). -/
def pairNext (o : Opd) : Opd :=
  match o with
  | .m n => .m (n + 1)
  | o => o

/-- Loads a pair; its first register goes to the latch (R255). -/
def loadPair (x : Ops) (a : Word) : Exec Unit := do
  let w := wordsOf (← loadAt 0 16 false a 16)
  modRegs (fun r => r.put (pairNext x.d) (wd w 1))
  writeOpd x.d (wd w 0)

/-- Stores a pair. -/
def storePair (x : Ops) (a : Word) : Exec Unit := do
  let lo ← readC x
  let hi ← readOpd x (pairNext x.c)
  storeAt 1 16 false a (bytesOfWords [lo, hi])

/-- Writes ea back to the register that AF names; the latch keeps its value (R256). -/
def writeBack (x : Ops) (ea : Word) : Exec Unit := modRegs (fun r => r.put x.a ea)

/-- LD (R255). -/
def execLd (x : Ops) (s : State) : Out := runCore (.alu 3) x (do writeOpd x.d (← loadInt x (← readEa x).2)) s

/-- ST (R255). -/
def execSt (x : Ops) (s : State) : Out := runCore .base x (do
  let (_, ea) ← readEa x
  storeInt x ea (← readC x)) s

/-- LDF (R255). -/
def execLdf (x : Ops) (s : State) : Out := runCore (.alu 3) x (do writeOpd x.d (← loadFloat x (← readEa x).2)) s

/-- STF (R255). -/
def execStf (x : Ops) (s : State) : Out := runCore .base x (do
  let (_, ea) ← readEa x
  storeFloat x ea (← readC x)) s

/-- LDP (R255). -/
def execLdp (x : Ops) (s : State) : Out := runCore .base x (do loadPair x (← readEa x).2) s

/-- STP (R255). -/
def execStp (x : Ops) (s : State) : Out := runCore .base x (do storePair x (← readEa x).2) s

/-- LDI (R256). -/
def execLdi (x : Ops) (s : State) : Out := runCore .base x (do
  let (a, ea) ← readEa x
  writeOpd x.d (← loadInt x a)
  writeBack x ea) s

/-- STI (R256). -/
def execSti (x : Ops) (s : State) : Out := runCore .base x (do
  let (a, ea) ← readEa x
  storeInt x a (← readC x)
  writeBack x ea) s

/-- LDFI (R256). -/
def execLdfi (x : Ops) (s : State) : Out := runCore .base x (do
  let (a, ea) ← readEa x
  writeOpd x.d (← loadFloat x a)
  writeBack x ea) s

/-- STFI (R256). -/
def execStfi (x : Ops) (s : State) : Out := runCore .base x (do
  let (a, ea) ← readEa x
  storeFloat x a (← readC x)
  writeBack x ea) s

/-- PREF: a hint with no effect on registers, memory, flags or signatures, and no fault (R258). -/
def execPref (x : Ops) (s : State) : Out := runCore .base x (pure ()) s

/-- ZLINE (R255). -/
def execZline (x : Ops) (s : State) : Out := runCore .base x (do
  let (_, ea) ← readEa x
  storeAt 1 64 false ea (List.replicate 64 0)) s

/-- LDO (R255). -/
def execLdo (x : Ops) (s : State) : Out := runCore .base x (do
  let (_, ea) ← readEa x
  let w := wordsOf (← loadAt 0 64 false ea 64)
  modRegs (fun r => { r with o := smPutList r.o 0 ((List.range 8).map (wd w)) })) s

/-- STO (R255). -/
def execSto (x : Ops) (s : State) : Out := runCore .base x (do
  let (_, ea) ← readEa x
  let r ← getRegs
  storeAt 1 64 false ea (bytesOfWords (smGetList 0 r.o 0 8))) s

/-- LDPI (R256). -/
def execLdpi (x : Ops) (s : State) : Out := runCore .base x (do
  let (a, ea) ← readEa x
  loadPair x a
  writeBack x ea) s

/-- STPI (R256). -/
def execStpi (x : Ops) (s : State) : Out := runCore .base x (do
  let (a, ea) ← readEa x
  storePair x a
  writeBack x ea) s

/-! ## Block move and fill (R259 to R261) -/

/-- One piece of a BMOV; whether another follows. The latch takes what DF names, the destination pointer (R201). -/
def moveForward (x : Ops) : Exec Bool := do
  let d ← readOpd x x.d
  let s ← readA x
  let n ← readB x
  if n = 0 then return false
  let len := Nat.min n.toNat (64 - d.toNat % 64)
  let t ← loadRange 6 s len
  storeRange 6 d t
  modRegs (fun r => { ((r.put x.d (addrAdd d len)).put x.a (addrAdd s len)).put x.b (n - word len) with prv := addrAdd d len })
  return decide (len < n.toNat)

/-- One piece of a BMOV.B; whether another follows. It moves on its count only, so it writes no latch (R201). -/
def moveBackward (x : Ops) : Exec Bool := do
  let d ← readOpd x x.d
  let s ← readA x
  let n ← readB x
  if n = 0 then return false
  let e := (d.toNat % 2 ^ 56 + n.toNat) % 64
  let len := Nat.min n.toNat (if e = 0 then 64 else e)
  let t ← loadRange 6 (addrAdd s ((n.toNat - len : Nat))) len
  storeRange 6 (addrAdd d ((n.toNat - len : Nat))) t
  modRegs (fun r => r.put x.b (n - word len))
  return decide (len < n.toNat)

/-- BMOV (R259). -/
def execBmov (x : Ops) (s : State) : Out :=
  runPieces .base x (if x.mod.getLsbD 0 then moveBackward x else moveForward x) s

/-- One piece of a BFILL; whether another follows. The latch takes the destination pointer (R201). -/
def fillPiece (x : Ops) : Exec Bool := do
  let d ← readOpd x x.d
  let v ← readA x
  let n ← readB x
  if n = 0 then return false
  let w := widthOf x.fmt / 8
  let q := Nat.min n.toNat ((64 - d.toNat % 64) / w)
  storeAt 6 w false d ((List.replicate q (toBytes w v.toNat)).flatten)
  modRegs (fun r => { (r.put x.d (addrAdd d (q * w))).put x.b (n - word q) with prv := addrAdd d (q * w) })
  return decide (q < n.toNat)

/-- BFILL (R259). -/
def execBfill (x : Ops) (s : State) : Out := runPieces .base x (fillPiece x) s

/-! ## Space test and space cast (R262, R263) -/

/-- The state as its acting core sees it in privileged mode. -/
def State.asPriv (s : State) : State := s.setMe { s.me with regs := { s.me.regs with priv := true } }

/-- SPTEST's word (R262). HERE and OVFA are of the address itself, whatever the mode or the kind of core may reach. -/
def State.spTest (s : State) (a : Word) : Word :=
  let ok := match s.spotOf false a with
    | .ok _ => true
    | .error _ => false
  let (here, ovf) := match s.asPriv.spotOf true a with
    | .ok (.tile t _ _) => (t == s.curTile, false)
    | .ok (.win _) => (true, false)
    | .ok (.glob _) => (false, spaceCode a == 1)
    | .error _ => (false, false)
  word (topByte a * 2 ^ 8 + ovf.toNat * 2 ^ 6 + here.toNat * 2 ^ 5 + ok.toNat * 2 ^ 4 + spaceCode a)

/-- SPTEST (R262). -/
def execSptest (x : Ops) (s : State) : Out := runCore (.alu 1) x (do
  let a ← readA x
  let s ← getState
  writeOpd x.d (s.spTest a)) s

/-- The target of SPCAST. -/
structure CastTo where
  dst : Nat
  win : Nat
  cbs : Nat
  var : Nat
deriving DecidableEq, Repr

def castOf (x : Ops) : CastTo :=
  let i := x.imm.toNat
  { dst := i % 16, win := i / 16 % 8, cbs := i / 128 % 8, var := i / 1024 % 2 }

/-- An LM window address of a tile. -/
def winAddr (c : CastTo) (t e : Nat) : Word :=
  word ((0xF8 + c.win) * 2 ^ 56 + c.var * 2 ^ 54 + t * 2 ^ 30 + c.cbs * 2 ^ 21 + e)

/-- Whether the target of a cast is the address's own space (R263). -/
def castSame (c : CastTo) (a : Word) : Bool :=
  let sp := spaceCode a
  if c.dst = 4 then sp == 4 && topByte a == 0xF8 + c.win && Word.bits a 54 1 == c.var && Word.bits a 21 3 == c.cbs
  else sp == c.dst

/-- The rows of R27. -/
def castRow (c : CastTo) (t : Nat) (a : Word) (p : Spot) : Option Word :=
  match spaceCode a, c.dst, p with
  | 1, 2, .tile _ _ ofs => some (word (0xF1 * 2 ^ 56 + t * 2 ^ 30 + ofs))
  | 1, 0, .glob va => some (word va)
  | 2, 3, .tile _ _ ofs => some (word (0xF2 * 2 ^ 56 + t % 16 * 2 ^ 20 + ofs))
  | 3, 2, .tile u _ ofs => if u = t then some (word (0xF1 * 2 ^ 56 + t * 2 ^ 30 + ofs)) else none
  | 2, 4, .tile _ _ ofs =>
    if c.win = 0 ∨ c.win = 1 ∨ c.win = 4 then some (winAddr c t ofs)
    else if c.win = 2 ∨ c.win = 3 ∨ c.win = 5 then some (winAddr c t (2 * ofs))
    else none
  | _, _, _ => none

/-- The value that names no space (R263). -/
def noSpace : Word := 0xFF00000000000000

/-- SPCAST (R263). -/
def execSpcast (x : Ops) (s : State) : Out := runCore (.alu 1) x (do
  let a ← readA x
  let s ← getState
  let q := x.mod.getLsbD 0
  let c := castOf x
  let acc := accOf 0 false a
  match s.spotOf false a with
  | .error (code, cause) => if q then writeOpd x.d noSpace else faultAcc acc code cause
  | .ok p =>
    if castSame c a then writeOpd x.d a
    else match castRow c s.curTile a p with
      | some v => writeOpd x.d v
      | none => if q then writeOpd x.d noSpace else faultAcc acc Code.protection 0x0F) s

end Sys2Proof.Machine
end

