-- ==== Sys2Proof/Machine/Medium.lean ====
section
/-!
DEFINITION. The medium instructions, OPC 0x1CC to 0x1D5 (R333 to R342), and a port's frames (R159 to R168).
Log entries (notes/assumptions): 15 DEDUCED, 27 PRESUMED, 35 DEDUCED, 40 DEDUCED, 44 DEDUCED, 45 DESIGN CHOICE, 68
DESIGN CHOICE.
-/
namespace Sys2Proof.Machine

/-- The entry of a medium instruction: it ends its chunk (R333). -/
def Entry.medium : Entry := { Entry.base with cores := .c, after := true }

/-- The port that MOD[0] names. -/
def portOf (x : Ops) : Bool := x.mod.getLsbD 0

/-! ## Exchanges (R149 to R151, R334) -/

/-- Reads `n` bytes of a descriptor or a block at an address (R334 step 2). -/
def readLocal (a : Word) (n : Nat) : Exec (List Byte) := do
  let s ← getState
  let acc := accOf 0 false a
  let carve := Word.bits s.me.cpriv 0 8 * 4096
  let ok := acc.space == 2 || (acc.space == 1 && (Word.bits a 32 24 != 0 || decide (Word.bits a 0 32 < carve)))
  if !ok then faultAcc acc Code.protection 0x15
  if a.toNat % n ≠ 0 then faultAcc acc Code.misaligned (Config.openCause Code.misaligned).toNat
  loadAt 0 1 false a n

/-- The modes that an entry accepts (R150). -/
def modeOf (opc mode : Nat) : Bool :=
  match opc with
  | 0x1CC => mode == 0 || mode == 1 || mode == 3 || mode == 4
  | 0x1CD => mode == 2
  | _ => mode == 5

/-- The offending fields of a descriptor: word, lowest bit of the field, and the bit that CAUSE reports (R149 to R151). An RZ field
reads as zero, whatever stands there (R8). -/
def descFaults (opc : Nat) (d : List Word) : List (Nat × Nat × Nat) :=
  let zero := fun (w lo n : Nat) (must : Bool) =>
    let v := Word.bits (wd d w) lo n
    if must ∧ v ≠ 0 then [(w, lo, lo + lowBit n v 0)] else []
  let bad := fun (w lo : Nat) (b : Bool) => if b then [(w, lo, lo)] else []
  let m := dMode d
  let w := dW d
  let rt := dRt d
  let okW := if m = 5 then w == 0 else if m = 1 then w == 4 || w == 8 else [1, 2, 4, 8, 16, 32].contains w
  let okRt := match m with
    | 0 => if dSgn d then decide (rt < 3) else decide (3 ≤ rt) && decide (rt < 6)
    | 1 => rt == 1 || rt == 2 || rt == 6
    | 5 => rt == 4 || rt == 5
    | _ => rt == 0
  zero 0 37 8 (!(m == 1 && dFixx d)) ++
  (if m = 5 then bad 0 45 (dSlen d == 3) else zero 0 45 2 true) ++
  bad 0 47 (if m > 5 then rt == 7 else !okRt) ++ bad 0 50 (decide (m ≤ 5) && !okW) ++
  zero 0 58 1 (m != 1) ++ zero 0 59 1 (m != 0) ++ bad 0 60 (!modeOf opc m) ++
  bad 1 0 (decide (1048576 < dCount d)) ++ zero 1 32 32 (!(m == 1 && (rt == 1 || rt == 2))) ++
  bad 3 0 ((dKaddr d).toNat % 16 != 0) ++ zero 3 32 32 (m != 1)

/-- The ranges that this member uses; true for those that are written (R151). -/
def descRanges (d : List Word) (writer : Bool) : List MRange :=
  (if writer then { a := dCaddr d, n := dCbytes d, kind := 3, buf := 2 } ::
      (if dMode d = 1 then [{ a := dXaddr d, n := dBlocks d, kind := 3, buf := 2 }] else []) else []) ++
  [{ a := dRaddr d, n := dRbytes d, kind := 4, buf := 2 }] ++
  (if dMode d = 1 ∧ dRt d ≠ 6 then [{ a := dYaddr d, n := dYbytes d, kind := 4, buf := 2 }] else []) ++
  [{ a := dKaddr d, n := 16, kind := 4, buf := 2 }]

/-- Whether two ranges share a byte. -/
def MRange.meets (p q : MRange) : Bool :=
  p.n != 0 && q.n != 0 && decide (bufOfs p.a < bufOfs q.a + q.n) && decide (bufOfs q.a < bufOfs p.a + p.n)

/-- A written range overlaps another one of a descriptor (R151 check 8). -/
def rangesClash (rs : List MRange) : Bool :=
  rs.zipIdx.any (fun (p, i) => p.kind == 4 && rs.zipIdx.any (fun (q, j) => i != j && p.meets q))

/-- Keys that no generation in use has made (R421). -/
def State.keyLapsed (s : State) (k : PortKey) : Bool :=
  match s.rsc.dom with
  | none => false
  | some d => !(d.cur.any (fun g => g.1 == k.gen) || d.prev.any (fun g => g.1 == k.gen))

/-- Whether the segment of a port has its lightship on a trunk (R151 check 4). -/
def State.hasTrunk (s : State) (p : Port) : Bool :=
  if p.ls then (s.port true).en && (s.port true).trk else Config.onTrunk p.epoch.toNat p.lsix

/-- Stalls while a port's queue holds 32 entries (R334 step 4): a wait of R390. -/
def queueRoom (port : Bool) : Exec Unit := do
  let s ← getState
  if s.me.trial then needs (.port port)
  else if !s.portRoom port then stallWith (fun s => let s := s.unwait; s.setMe { s.me with stalled := true })

/-- BRED, BMAX and BSTREAM (R334). -/
def exchangeBody (opc : Nat) (x : Ops) : Exec Unit := do
  let a ← readA x
  let d := wordsOf (← readLocal a 32)
  let s ← getState
  match descFaults opc d with
  | [] => pure ()
  | fs =>
    let (w, _, b) := fs.foldl (fun m f => if f.1 < m.1 ∨ (f.1 = m.1 ∧ f.2.1 < m.2.1) then f else m) (fs.headD (0, 0, 0))
    throwTrap (mkTrap Code.reservedField (addrAdd a (8 * w : Nat)) 0 (spaceCode a) s.curTile b)
  let p := s.port (dPort d)
  if !p.en then faultIp Code.busRoster 1
  if p.limit < popCount 32 (dWset d) ∨ dWset d / 2 ^ p.nros ≠ 0 then faultIp Code.busRoster 2
  if dTrk d ∧ !s.hasTrunk p then faultIp Code.busRoster 3
  if dMode d = 5 ∧ p.sec then faultIp Code.busSecure 1
  if p.sec ∧ p.key.all (fun k => k.epoch != p.epoch) then faultIp Code.busEpoch 2
  if p.sec ∧ p.key.any (fun k => s.keyLapsed k) then faultIp Code.busEpoch 7
  let rs := descRanges d ((dWset d).testBit p.myix)
  for r in rs do
    checkBuf r.a r.n r.kind (fun b => b == 2)
  for r in rs do
    checkSide r.slabs true r.kind
  if rangesClash rs then faultIp Code.operandOverlap 0
  let held := (rs.flatMap MRange.slabs).dedup
  roomForP held
  queueRoom (dPort d)
  atCommit (.exchange (dPort d) d held x.h.ssem.toNat x.h.sinc.toNat)

/-- BRED (R333, R334). -/
def execBred (x : Ops) (s : State) : Out := runCore { Entry.medium with engine := true } x (exchangeBody 0x1CC x) s

/-- BMAX (R333, R334). -/
def execBmax (x : Ops) (s : State) : Out := runCore { Entry.medium with engine := true } x (exchangeBody 0x1CD x) s

/-- BSTREAM (R333, R334). -/
def execBstream (x : Ops) (s : State) : Out := runCore { Entry.medium with engine := true } x (exchangeBody 0x1CE x) s

/-- BARR (R335). -/
def execBarr (x : Ops) (s : State) : Out := runCore { Entry.medium with engine := true } x (do
  let s ← getState
  if !(s.port (portOf x)).en then faultIp Code.busRoster 1
  queueRoom (portOf x)
  atCommit (.barrier (portOf x) [] [] x.h.ssem.toNat x.h.sinc.toNat)) s

/-- Entries that tile t's C-core has put on a port. -/
def Port.ofTile (p : Port) (t : Nat) : List Exch := p.queue.filter (fun e => e.t == t && e.trunkOf.isNone)

/-- BWAIT: a wait of R390 (R336). -/
def execBwait (x : Ops) (s : State) : Out := runCore .medium x (do
  let s ← getState
  if !((s.port (portOf x)).ofTile s.curTile).isEmpty then stallWait) s

/-- BSTAT's word (R337). -/
def Port.bstat (p : Port) : Word :=
  word (p.st % 4 * 2 ^ 62 + Nat.min 32 p.queue.length * 2 ^ 56 + p.pkey.isSome.toNat * 2 ^ 55 +
    p.enrol.isSome.toNat * 2 ^ 54 + p.plast.toNat)

/-- BSTAT (R337). -/
def execBstat (x : Ops) (s : State) : Out := runCore .medium x (do
  let s ← getState
  writeOpd x.d (s.port (portOf x)).bstat) s

/-- BCHK: a wait of R390, then an engine read of a record (R338), whose bad word is an asynchronous machine check and leaves the
destination as it was (R404). -/
def execBchk (x : Ops) (s : State) : Out := runCore .medium x (do
  let k ← readA x
  let a := word (k.toNat % 2 ^ 32)
  let r : MRange := { a := a, n := 16, kind := 3, buf := 2 }
  let s ← getState
  if a.toNat % 16 ≠ 0 then
    throwTrap (mkTrap Code.misaligned a 3 15 s.curTile (Config.openCause Code.misaligned).toNat)
  checkBuf a 16 3 (fun b => b == 2)
  checkSide r.slabs true 3
  roomForP r.slabs
  let due := [false, true].any (fun p => ((s.port p).ofTile s.curTile).any (fun e => !e.barr && dKaddr e.desc == a))
  if due then stallWait
  let key := tileKey s.curTile 2 (bufOfs a)
  match s.badWord key 16 with
  | some p => atCommit (.check (badTrap s.curTile p))
  | none =>
    let ws := wordsOf (s.readBytes 0 key 16)
    modRegs (fun r => r.put (pairNext x.d) (wd ws 1))
    writeOpd x.d (wd ws 0)) s

/-! ## Keys and enrolment (R339 to R341) -/

/-- CSEG0 and CSEG1 (R143). -/
def Port.cseg (p : Port) : Word :=
  word (p.en.toNat * 2 ^ 63 + p.sec.toNat * 2 ^ 62 + p.ls.toNat * 2 ^ 61 + p.trk.toNat * 2 ^ 60 + p.nros * 2 ^ 48 +
    p.limit * 2 ^ 42 + p.myix * 2 ^ 37 + p.lsix * 2 ^ 32 + p.epoch.toNat)

/-- The keys of a handle that the RSC does not refuse for a port and an epoch (R423). -/
def State.handleKey (s : State) (h : Nat) (port : Bool) (epoch : BitVec 32) : Option PortKey :=
  (s.rsc.handles.find? (fun x => x.h.toNat == h && x.port == port && x.key.epoch == epoch &&
    s.rsc.dom.any (fun d => d.domain == x.domain))).map (·.key)

/-- A handle lapses at its use. -/
def State.useHandle (s : State) (h : Nat) : State :=
  { s with rsc := { s.rsc with handles := s.rsc.handles.filter (fun x => x.h.toNat != h) } }

/-- The entry of BKEY, BENROL and BLEAVE: its effect on the port is made as it runs. -/
def Entry.portKey : Entry := { Entry.medium with priv := true, pf := true, own := true }

/-- BKEY (R339). -/
def execBkey (x : Ops) (s : State) : Out := runCore .portKey x (do
  let a ← readA x
  let s ← getState
  let port := portOf x
  let p := s.port port
  let h := a.toNat % 2 ^ 32
  if !p.en then faultIp Code.busRoster 1
  if !p.sec then faultIp Code.busSecure 2
  if p.pkey.isSome then faultIp Code.busEpoch 5
  match s.handleKey h port (p.epoch + 1) with
  | none => faultIp Code.busEpoch 4
  | some k => modState (fun s => (s.setPort port { s.port port with pkey := some k }).useHandle h)) s

/-- An enrolment block that R340 calls invalid, for a port. -/
def enrolBad (port : Bool) (w : List Word) : Bool :=
  let f := fun lo n => Word.bits (wd w 0) lo n
  let sec := f 62 1 == 1
  let ls := f 61 1 == 1
  let trk := f 60 1 == 1
  let nros := f 48 6
  let limit := f 42 6
  let myix := f 37 5
  let lsix := f 32 5
  f 63 1 != 0 || f 54 6 != 0 || Word.bits (wd w 1) 32 32 != 0 || (!sec && Word.bits (wd w 1) 0 32 != 0) ||
  (w.drop 2).any (fun x => x != 0) || nros == 0 || decide (32 < nros) || limit == 0 || decide (nros < limit) ||
  decide (nros ≤ myix) || decide (nros ≤ lsix) || (trk && !port) || (trk && ls) || (!trk && ls != (myix == lsix))

/-- BENROL: a wait of R390 until it completes or faults (R340). It takes the keys of its handle, which lapses with that, as it makes its
checks (R423). -/
def execBenrol (x : Ops) (s : State) : Out := runCore .portKey x (do
  let a ← readA x
  let s ← getState
  let port := portOf x
  let p := s.port port
  match p.enrol.filter (fun (t, _, _) => t == s.curTile) with
  | some (_, [], _) => modState (fun s => s.setPort port { s.port port with enrol := none })
  | some (_, [_], _) => faultIp Code.busRoster 6
  | some _ => stallWait
  | none =>
    let w := wordsOf (← readLocal a 64)
    if p.en ∨ p.enrol.isSome then faultIp Code.busRoster 5
    if enrolBad port w then faultIp Code.busRoster 7
    let sec := (wd w 0).getLsbD 62
    let key := s.handleKey (Word.bits (wd w 1) 0 32) port (BitVec.ofNat 32 (Word.bits (wd w 0) 0 32))
    if sec ∧ key.isNone then faultIp Code.busEpoch 4
    stallWith (fun s =>
      let s := s.setPort port { s.port port with
        enrol := some (s.curTile, w, if sec then key else none), trim := s.trims.getD port.toNat 0 }
      let s := if sec then s.useHandle (Word.bits (wd w 1) 0 32) else s
      s.setMe { s.me with stalled := true })) s

/-- What BLEAVE does once the entries before it have ended (R341). -/
def State.leaveSegment (s : State) (port : Bool) : State :=
  let p := s.port port
  let rest := p.queue
  let s := s.setPort port { Port.init with queue := rest, pnum := p.pnum, plast := p.plast }
  rest.foldl (fun s e => s.exchFail port e Code.busRoster 1) s

/-- BLEAVE: a wait of R390 (R341). -/
def execBleave (x : Ops) (s : State) : Out := runCore .portKey x (do
  let s ← getState
  let port := portOf x
  let p := s.port port
  let bound := (p.leaving.map (·.2)).getD s.nextExch
  if p.queue.any (fun e => decide (e.id < bound)) then
    stallWith (fun s =>
      let q := s.port port
      let s := s.setPort port { q with leaving := some (q.leaving.getD (s.curTile, s.nextExch)) }
      s.setMe { s.me with stalled := true })
  modState (fun s => s.leaveSegment port)) s

/-! ## Frames (R146 to R148, R159 to R168) -/

/-- The roster of a port as a mask. -/
def Port.roster (p : Port) : Nat := 2 ^ p.nros - 1

/-- A frame in which a port enrols: it completes when every index of the roster, and no other, is lit on both copies; it
fails when an armed slot reads above 1 (R340). -/
def State.enrolFrame (s : State) (port : Bool) (t : Nat) (w : List Word) (key : Option PortKey) (f : Frame) : State :=
  let p := s.port port
  let g := fun lo n => Word.bits (wd w 0) lo n
  let all := 2 ^ g 48 6 - 1
  if f.armedOver then s.setPort port { p with enrol := some (t, [0], none) }
  else if f.armed1.toNat = all ∧ f.armed2.toNat = all then
    s.setPort port { p with
      en := true, sec := g 62 1 == 1, ls := g 61 1 == 1, trk := g 60 1 == 1, nros := g 48 6, limit := g 42 6,
      myix := g 37 5, lsix := g 32 5, epoch := BitVec.ofNat 32 (g 0 32), key := key, pnum := 0, plast := 0, epochN := 0,
      enrol := some (t, [], none) }
  else s

/-- The signal and flags of a completed entry, whose P has fallen (R142 steps 5 and 6). -/
def State.exchSignal (s : State) (e : Exch) (flags : Nat) : State :=
  (s.updCore e.t .c (fun c => c.mergeRegs (fun r => r.addFlags flags))).engineSignal e.t e.sem e.sinc CoreK.c.idx

/-- A member lights its rekey-ready slots from the first beacon at which its pending key is installed and no entry is armed, and
until the rekey barrier (R168). -/
def Port.makeReady (p : Port) : Port := { p with ready := p.ready || (p.pkey.isSome && p.queue.all (fun e => !e.armed)) }

/-- The rekey barrier: the pending key's epoch becomes current, and the barriers that wait for it complete (R168, R335). -/
def State.rekey (s : State) (port : Bool) : State :=
  let p := s.port port
  let s := s.setPort port { p with key := p.pkey, pkey := none, ready := false, epoch := p.epoch + 1, epochN := 0 }
  (p.queue.filter (fun e => e.noPeriod)).foldl (fun s e => (s.dropExch port e).exchSignal e 0) s

/-- The port stops: a reject flag it lit was not seen (R162, R404). -/
def State.portStop (s : State) (port : Bool) : State :=
  let q := (s.port port).queue
  let ts := (q.filter (fun e => e.trunkOf.isNone)).map (·.t) |>.dedup
  let s := q.foldl (fun s e => s.exchFail port e Code.busMiscount 4) s
  let s := s.setPort port { s.port port with st := 4, flight := [] }
  ts.foldl (fun s t => s.pendCore t .c 1 (mkTrap 0xF2 0 0 15 t 0)) (s.logCheck (ts.headD 0) 0xF2 0)

/-- A lightship whose up pass has passed carries its result to the trunk (R145). The trunk pass is an entry of port 1 with counts of
its own: the record of the exchange counts the periods and rejected attempts of its segment's port alone (R165 does not say;
DEDUCED, log 35). -/
def State.startTrunk (s : State) (e : Exch) : State :=
  let p := s.port false
  if !p.ls ∨ !dTrk e.desc ∨ e.barr ∨ e.trunkOf.isSome ∨ e.trunkSt ≠ 0 ∨ e.passed < e.upTotal p then s
  else
    let s := s.setPort false ((s.port false).setExch { e with trunkSt := 1 })
    let up : Exch := { e with
      id := s.nextExch, held := [], hist := [], next := 0, passed := 0, fails := [], replays := 0, armed := false,
      nums := [], al := [], trunkOf := some e.id, trunkSt := limitBits p.limit, trunk := e.upValues p }
    s.queueExch true up

/-- Whether a period lies in a MAX pass, whose later planes depend on its counts. -/
def Exch.maxAt (e : Exch) (p : Port) (tl k : Nat) : Bool := (e.passOf p tl k).any (fun (ps, _) => ps.kind == .max)

/-- A period of a flight passes or is rejected, as the beacon two frames later shows (R161, R162). -/
def State.judge (s : State) (port : Bool) (f : Frame) : State :=
  let p := s.port port
  let fl := p.flight.map (fun x => { x with age := x.age + 1 })
  let s := s.setPort port { p with flight := fl.filter (fun x => decide (x.age < 2)) }
  match fl.find? (fun x => decide (2 ≤ x.age)) with
  | none => s
  | some d =>
    let p := s.port port
    match p.queue.find? (fun e => e.id == d.ex) with
    | none => s
    | some e =>
      let rej := f.reject.toNat &&& p.roster
      if !d.own ∧ !f.reject.getLsbD p.myix then s.portStop port
      else if d.own ∧ rej = 0 then
        let e := { e with passed := e.passed + 1, lastP := d.p }
        let s := s.setPort port (p.setExch e)
        if port then s else s.startTrunk e
      else
        let n := smGet 0 e.fails d.k + 1
        let e := { e with fails := smPut e.fails d.k n, replays := e.replays + 1, next := d.k }
        let s := s.setPort port (p.setExch e)
        if n = 4 then s.failFrom port e.id Code.busMiscount 1
        else
          let p := s.port port
          let back := p.flight.foldl (fun (p : Port) x => { p with queue := p.queue.map (fun y =>
            if y.id = x.ex ∧ y.id ≠ e.id then { y with next := Nat.min y.next x.k } else y) }) p
          s.setPort port { back with flight := [], sent := if e.maxAt p (s.trunkLim port) d.k then p.sent.filter (fun x => x.1 == d.p.toNat) else p.sent }

/-- The first entry that has not passed. -/
def Port.first (p : Port) (tl : Nat) : Option Exch :=
  p.queue.find? (fun e => !e.noPeriod && e.armed && decide (e.passed < e.total p tl))

/-- Aborts that a beacon shows: a miscount abort comes first (R162, R169). -/
def State.aborts (s : State) (port : Bool) (f : Frame) : State :=
  let p := s.port port
  match p.first (s.trunkLim port) with
  | none => s.setPort port { p with litMiscount := false, litRoster := false }
  | some e =>
    if f.abortMiscount ∨ p.litMiscount then s.failFrom port e.id Code.busMiscount 3
    else if f.abortRoster ∨ p.litRoster then s.failFrom port e.id Code.busRoster 4
    else s

/-- An entry armed without a pending key while another member is ready for a rekey (R168). -/
def State.rekeyClash (s : State) (port : Bool) (f : Frame) : State :=
  let p := s.port port
  let others := (f.rekey1.toNat ||| f.rekey2.toNat) &&& p.roster &&& (2 ^ 32 - 1 - 2 ^ p.myix)
  match p.cur (s.trunkLim port) with
  | some e => if e.armed ∧ e.nums.isEmpty ∧ p.sec ∧ p.pkey.isNone ∧ others ≠ 0 then s.failFrom port e.id Code.busEpoch 1 else s
  | none => s

/-- Whether the pilot count equals the roster (R159). -/
def Port.pilotFull (p : Port) (f : Frame) : Bool :=
  let all := p.roster
  (f.armed1.toNat &&& f.armed2.toNat &&& all) == all && (f.armed1.toNat ||| f.armed2.toNat) / 2 ^ p.nros == 0

/-- A bad word among bytes that an engine reads (R404). -/
def State.badBytes (s : State) (rs : List (Nat × Nat)) : Option Nat :=
  s.poison.find? (fun q => rs.any (fun (key, n) => decide (q < key + n) && decide (key < q + 8)))

/-- The slip allowance A, in units of 1 µs, of a slice that begins at a time (R402, R428). -/
def State.slipAllow (s : State) (s0 : Nat) : Nat :=
  ((s.gslip.find? (fun x => decide (x.1 < s0))).map (fun x => x.2.toNat)).getD 200

/-- The join deadline S + A (R402). -/
def State.slipDeadline (s : State) (s0 : Nat) : Nat := s0 + s.slipAllow s0 * 1000

/-- A period of the first exchange of a launch's slice starts in a frame that begins at or before S + A (R403). -/
def State.sliceStarted (s : State) (t : Nat) : State :=
  match (s.launchOn t).bind s.launch? with
  | some l => s.setLaunch { l with grp := l.grp.map (fun g =>
      { g with started := g.started || g.s0.all (fun s0 => decide (s.gtc ≤ s.slipDeadline s0)) }) }
  | none => s

/-- A member whose next exchange has another signature than the keeper's lights the roster abort (R152, R163), in the beacon after one
that shows every member armed: before that SIG need not be the keeper's head, and a member that arms later would not see the abort
(R163, R169; DEDUCED, log 35). -/
def State.sigClash (s : State) (port : Bool) (f : Frame) : State :=
  let p := s.port port
  match p.cur (s.trunkLim port) with
  | some e =>
    if p.myix ≠ 0 ∧ e.armed ∧ p.pilotFull f ∧ f.sig ≠ e.sigOn p then s.setPort port { p with litRoster := true } else s
  | none => s

/-- The number of the period that an entry sends next: a replay keeps its number (R147, R162). -/
def Port.nextNum (p : Port) (e : Exch) : Nat := (smFind e.nums e.next).getD p.pnum.toNat

/-- Pilot slots that a member lights in a period (R148). -/
def Port.pilotSlots (p : Port) : List Nat := (List.range 128).map (fun i => 32 * i + p.myix)

/-- What a member lights in a frame before it knows whether its period starts (R147, R148, R159, R161, R168). With nothing to
send the keeper's SIG is dark, and so are a member's armed slots, from the last period it has sent until it arms again (DEDUCED,
log 35). -/
def Port.light (p : Port) (tl : Nat) : Lit :=
  let e := (p.cur tl).filter (fun e => e.armed && e.sendable p)
  { keeper := if p.myix = 0 then some (BitVec.ofNat 48 ((e.map p.nextNum).getD p.pnum.toNat), (e.map (·.sigOn p)).getD 0, p.epoch)
      else none
    miscount := p.litMiscount, roster := p.litRoster, armed := e.isSome, rekey := p.ready
    reject := p.flight.any (fun x => x.age == 1 && !x.own), pilots := p.pilotSlots, bits := [] }

/-- Sends the next period of the armed entry in this frame (R159, R161, R162, R167). A MAX pass goes on with its next plane or batch in
the next frame, as R162 says of periods, and does not wait until the planes before have passed (R155; DEDUCED, log 35). -/
def State.sendPeriod (s : State) (port : Bool) (f : Frame) : State :=
  let p := s.port port
  let tl := s.trunkLim port
  match p.cur tl with
  | none => s
  | some e =>
    if !(e.armed && e.sendable p && p.pilotFull f) then s
    else
      let k := e.next
      let num := smFind e.nums k
      if num.isNone ∧ p.sec ∧ 2 ^ 48 ≤ p.epochN then s.failFrom port e.id Code.busEpoch 3
      else match s.badBytes (e.reads p) with
        | some b => ((s.setPort port { p with litMiscount := true }).logCheck e.t (badTrap e.t b).code
            (badTrap e.t b).cfad).pendCore e.t .c 1 (badTrap e.t b)
        | none =>
          let n := p.nextNum e
          let per := BitVec.ofNat 48 n
          let mine := f.p = per
          let own := mine && !f.overlit && f.marksOk && e.periodGood p tl k per f.counts
          let kept := p.sent.find? (fun x => num.isSome && x.1 == n)
          let e' := { e with hist := smPut e.hist k f.counts, nums := smPut e.nums k n, next := k + 1
                             al := if kept.isSome then e.al else s.aligned e p tl k }
          let bits := (kept.map Prod.snd).getD (s.lit e p tl k per)
          let s := s.sliceStarted e.t
          s.setPort port { (p.setExch e') with
            pnum := if num.isNone then p.pnum + 1 else p.pnum
            epochN := if num.isNone then p.epochN + 1 else p.epochN
            plast := per
            sent := ((n, bits) :: p.sent.filter (fun x => x.1 != n)).take 2
            lit := { p.lit with bits := if mine then bits else [] }
            flight := p.flight ++ [{ ex := e.id, k := k, p := per, own := own, age := 0, void := false }] }

/-- The keeper's fields of the beacon, which name the period that the frame is to carry: a replay's number among them (R147, R162). -/
def State.keeperLight (s : State) (port : Bool) : State :=
  let p := s.port port
  s.setPort port { p with lit := { p.lit with keeper := (p.light (s.trunkLim port)).keeper } }

/-- A frame of an enrolled port: what it lights, the rekey barrier, the judgement of the period two frames ago, aborts, and the
next period (R147, R159 to R168). A beacon that judges a period and shows an abort too does both, in this order: the abort ends the
first entry that has not passed then (DEDUCED, log 35). -/
def State.enrolledFrame (s : State) (port : Bool) (f : Frame) : State :=
  let s := s.rearm port
  let p := (s.port port).makeReady
  let s := s.setPort port { p with lit := p.light (s.trunkLim port) }
  let s := if p.ready ∧ (f.rekey1.toNat &&& f.rekey2.toNat &&& p.roster) = p.roster then s.rekey port else s
  let s := s.judge port f
  if (s.port port).st = 4 then s
  else (((((s.keeperLight port).aborts port f).rekeyClash port f).sigClash port f).sendPeriod port f).rearm port

/-- One frame of a port. A frame begins at every multiple of 65 of the global time counter (R146). While it enrols, a port
lights both armed slots (R340). -/
def State.mediumFrame (s : State) (port : Bool) (f : Frame) : State :=
  let p := s.port port
  if s.gtc % 65 ≠ 0 ∨ p.frameAt = some s.gtc then s
  else
    let p := { p with frameAt := some s.gtc, lit := Lit.dark }
    let s := s.setPort port p
    match p.enrol.filter (fun (_, w, _) => w.length == 8) with
    | some (t, w, key) => (s.setPort port { p with lit := { Lit.dark with armed := true } }).enrolFrame port t w key f
    | none => if !p.en ∨ p.st = 4 then s else s.enrolledFrame port f

/-- A frame whose light no event describes: every field of it is open. -/
def openFrame (n : Nat) : Frame :=
  let g := Config.frameField n
  { p := BitVec.ofNat 48 (g 0), sig := BitVec.ofNat 48 (g 1), epoch := BitVec.ofNat 32 (g 2), abortMiscount := g 3 == 1
    abortRoster := g 4 == 1, armed1 := BitVec.ofNat 32 (g 5), armed2 := BitVec.ofNat 32 (g 6), rekey1 := BitVec.ofNat 32 (g 7)
    rekey2 := BitVec.ofNat 32 (g 8), reject := BitVec.ofNat 32 (g 9), overlit := g 10 == 1, armedOver := g 11 == 1
    marksOk := g 12 == 1, counts := (Config.frameCounts n).foldl (fun m (b, c) => smPut m b c) [] }

/-- Whether a port has a frame to run now that it has not run: it is enrolled, or it enrols (R146). -/
def State.frameOwed (s : State) (port : Bool) : Bool :=
  let p := s.port port
  p.frameAt != some s.gtc && (p.en || p.enrol.any (fun (_, w, _) => w.length == 8))

/-- The frames that begin now and that no event has brought (R146). -/
def State.ownFrames (s : State) : State :=
  [false, true].foldl (fun s port =>
    if s.frameOwed port then { s.mediumFrame port (openFrame s.free) with free := s.free + 1 } else s) s

/-- MEDIUM_FRAME (R162). -/
def execMediumFrame (port : Bool) (f : Frame) (s : State) : Out := .next (s.mediumFrame port f)

/-! ## Completion (R142, R164) -/

/-- Writes the results of a port's head exchange and ends it (R142). A trunk pass hands its result to the exchange it
belongs to. -/
def State.exchangeDone (s : State) (port : Bool) (other : Bool × List Nat) : State :=
  let p := s.port port
  let tl := s.trunkLim port
  match p.queue with
  | [] => s
  | e :: _ =>
    if e.noPeriod ∨ !p.en ∨ e.passed < e.total p tl then s
    else match e.trunkOf with
      | some id =>
        let s := (s.dropExch port e).rearm port
        let q := s.port false
        match q.queue.find? (fun y => y.id == id) with
        | some y => (s.setPort false (q.setExch { y with trunkSt := 2, trunk := e.values p tl })).rearm false
        | none => s
      | none =>
        if e.barr then ((s.dropExch port e).exchSignal e 0).rearm port
        else
          let o := e.out p tl other
          let put := fun (s : State) (a : Word) (bs : List Byte) => s.commitBytes e.t none 0 (tileKey e.t 2 (bufOfs a)) bs
          let s := put s (dRaddr e.desc) o.res
          let s := put s (dYaddr e.desc) o.ybytes
          let s := put s (dKaddr e.desc) (e.record 0 0 o.sat)
          ((s.dropExch port e).exchSignal e o.flags).rearm port

/-- EXCHANGE_COMPLETE (R142). -/
def execExchangeComplete (e : ExchEnd) (s : State) : Out := .next (s.exchangeDone e.port (e.inexact, e.clamped))

end Sys2Proof.Machine
end

