-- ==== Sys2Proof/Machine/Stoch.lean ====
section
/-!
DEFINITION. Stochastic streams: OPC 0x1D6 to 0x1DF, and the engine that performs their engine entries (R343 to R351).
Log entries (notes/assumptions): 32 DEDUCED.
-/
namespace Sys2Proof.Machine

/-! ## Stream registers (R343) -/

/-- The number of the stream register that a field names. -/
def zNo (o : Opd) : Nat :=
  match o with
  | .z n => n
  | _ => 0

/-- The stream registers that a field names: one or none. -/
def zNos (o : Opd) : List Nat :=
  match o with
  | .z n => [n]
  | _ => []

/-- Bits of a stream of a length code. -/
def zLen (lc : Nat) : Nat := 64 * 4 ^ (lc % 4)

def Regs.zClass (r : Regs) (k : Nat) : Nat := Word.bits r.czst (8 * k) 4
def Regs.zLc (r : Regs) (k : Nat) : Nat := Word.bits r.czst (8 * k + 4) 2

/-- The lanes of a stream register as numbers. -/
def Regs.zLanes (r : Regs) (k : Nat) : List Nat := (smGetList 0 r.zregs (64 * k) 64).map (fun (b : BitVec 1024) => b.toNat)

def Regs.setLanes (r : Regs) (k : Nat) (ls : List Nat) : Regs :=
  { r with zregs := smPutList r.zregs (64 * k) (ls.map (fun n => BitVec.ofNat 1024 n)) }

/-- Sets a register's class and length code. -/
def Regs.setZ (r : Regs) (k cls lc : Nat) : Regs :=
  let old := r.czst.toNat
  { r with czst := word (old / 2 ^ (8 * k + 8) * 2 ^ (8 * k + 8) + (lc % 4 * 16 + cls % 16) * 2 ^ (8 * k) + old % 2 ^ (8 * k)) }

/-! ## Generation (R344) -/

/-- m and o of each class. -/
def zConst (g : Nat) : Nat × Nat :=
  ([(1, 0), (633, 317), (397, 89), (865, 601), (229, 443), (983, 17), (155, 775), (711, 251), (473, 938), (59, 506),
    (811, 130), (297, 862), (957, 364), (565, 702), (83, 211), (687, 989)]).getD g (1, 0)

/-- The stream for value p under class g at a length. -/
def zStream (p g len : Nat) : Nat :=
  let (m, o) := zConst g
  (List.range len).foldl (fun a t => if (m * t + o) % len < p then a + 2 ^ t else a) 0

/-! ## Buffer operands (R347) -/

/-- The checks of a buffer operand of 64 elements of `m` bytes, lane by lane, so that the lowest lane that faults decides (R347,
R55): R49, alignment, then the owner. -/
def zBuf (a : Word) (m align : Nat) (wr : Bool) : Exec (Acc × Place) := do
  let kind := if wr then 4 else 3
  let e := word (a.toNat % 2 ^ 32)
  let c : Acc := { kind := kind, write := wr, addr := e, space := 15 }
  for i in List.range 64 do
    let ei := word (e.toNat + i * m)
    if 2 ^ 20 ≤ bufOfs e + i * m then bufFault ei kind 0x0C
    checkBuf ei m kind (fun b => b == 2)
    if i = 0 ∧ e.toNat % align ≠ 0 then faultAcc c Code.misaligned (Config.openCause Code.misaligned).toNat
    checkSide (slabsOf 2 (bufOfs ei) m) false kind
  let s ← getState
  return (c, .mem (tileKey s.curTile 2 (bufOfs e)) 0 false)

/-! ## Engine entries (R348, R349) -/

/-- An engine entry: it ends its chunk, and its signal is the engine's. -/
def Entry.stoch : Entry := { Entry.base with cores := .s, after := true, engine := true }

/-- Sets the destination's class and length, and hands the entry over at the commit. -/
def zIssue (x : Ops) (kind : ZKind) (qs : List Nat) (cls lc : Nat) : Exec Unit := do
  modRegs (fun r => r.setZ (zNo x.d) cls lc)
  atCommit (.stoch { kind := kind, x := x, qs := qs, lc := lc, cls := cls })

/-- ZGEN (R348). -/
def execZgen (x : Ops) (s : State) : Out := runCore .stoch x (do
  let a ← readA x
  let lc := x.fmt.toNat
  let g := x.imm.toNat % 16
  let raw ← if x.mod.getLsbD 3 then pure (List.replicate 64 (a.toNat % 65536))
    else do
      let (c, p) ← zBuf a 2 2 false
      let bs ← readPlace c p 128
      pure ((chunksOf 65 2 bs).map ofBytes)
  if raw.any (fun q => decide (zLen lc < q)) then addFlags fSAT
  zIssue x .gen (raw.map (Nat.min (zLen lc))) g lc) s

/-- ZREGEN (R348). -/
def execZregen (x : Ops) (s : State) : Out := runCore .stoch x (do
  let r ← getRegs
  zIssue x .regen [] (x.imm.toNat % 16) (r.zLc (zNo x.a))) s

/-- The issue checks on length and class (R347). -/
def zChecks (kind : ZKind) (srcs : List Nat) : Exec Unit := do
  let r ← getRegs
  let lc := fun i => r.zLc (srcs.getD i 0)
  let cls := fun i => r.zClass (srcs.getD i 0)
  if (List.range srcs.length).any (fun i => lc i != lc 0) then faultIp Code.streamLength 1
  if (kind = .and ∨ kind = .xnor) ∧ cls 0 = cls 1 then faultIp Code.correlation 1
  if kind = .mux ∧ (cls 2 = cls 0 ∨ cls 2 = cls 1) then faultIp Code.correlation 2

/-- The effect of an entry on bits (R349). -/
def zBits (kind : ZKind) (x : Ops) : Exec Unit := do
  zChecks kind (zNos x.a ++ zNos x.b ++ zNos x.c)
  let r ← getRegs
  zIssue x kind [] (r.zClass (zNo x.a)) (r.zLc (zNo x.a))

/-- ZAND (R349). -/
def execZand (x : Ops) (s : State) : Out := runCore .stoch x (zBits .and x) s

/-- ZXNOR (R349). -/
def execZxnor (x : Ops) (s : State) : Out := runCore .stoch x (zBits .xnor x) s

/-- ZMUX (R349). -/
def execZmux (x : Ops) (s : State) : Out := runCore .stoch x (zBits .mux x) s

/-- ZNOT (R349). -/
def execZnot (x : Ops) (s : State) : Out := runCore .stoch x (zBits .not x) s

/-! ## Core entries (R350) -/

/-- The registers that an entry in the engine reads or writes. -/
def ZOp.regs (z : ZOp) : List Nat := [z.x.d, z.x.a, z.x.b, z.x.c].flatMap zNos

/-- A core entry waits for the engine entries that use a register (R347). -/
def zWait (k : Nat) : Exec Unit := do
  let s ← getState
  if (s.tile s.curTile).zq.any (fun z => z.regs.contains k) then stallWith (fun s => s)

/-- The entry of a core entry. -/
def Entry.stochCore : Entry := { Entry.base with cores := .s }

/-- ZCNT (R350). -/
def execZcnt (x : Ops) (s : State) : Out := runCore .stochCore x (do
  let k := zNo x.a
  let b ← readB x
  zWait k
  let r ← getRegs
  let n := zLen (r.zLc k)
  let counts := (r.zLanes k).map (popCount n)
  if x.mod.getLsbD 3 then
    let (_, p) ← zBuf b 2 2 true
    writePlace p (counts.flatMap (toBytes 2))
  else writeOpd x.d (word (counts.getD (b.toNat % 64) 0))) s

/-- ZLD (R350). -/
def execZld (x : Ops) (s : State) : Out := runCore .stochCore x (do
  let a ← readA x
  let k := zNo x.d
  zWait k
  let lc := x.fmt.toNat
  let n := zLen lc / 8
  let (c, p) ← zBuf a n 8 false
  let bs ← readPlace c p (64 * n)
  modRegs (fun r => (r.setLanes k ((chunksOf 65 n bs).map ofBytes)).setZ k (x.imm.toNat % 16) lc)) s

/-- ZST (R350). -/
def execZst (x : Ops) (s : State) : Out := runCore .stochCore x (do
  let a ← readA x
  let k := zNo x.b
  zWait k
  let r ← getRegs
  let n := zLen (r.zLc k) / 8
  let (_, p) ← zBuf a n 8 true
  writePlace p ((r.zLanes k).flatMap (toBytes n))) s

/-- ZCLASS (R350). -/
def execZclass (x : Ops) (s : State) : Out := runCore .stochCore x (do
  let k := zNo x.a
  zWait k
  let r ← getRegs
  writeOpd x.d (word (r.zLc k * 16 + r.zClass k))) s

/-! ## The engine (R347) -/

/-- The lanes that an engine entry writes (R348, R349). -/
def ZOp.lanes (z : ZOp) (r : Regs) : List Nat :=
  let n := zLen z.lc
  let a := (r.zLanes (zNo z.x.a)).map (· % 2 ^ n)
  let b := (r.zLanes (zNo z.x.b)).map (· % 2 ^ n)
  let c := (r.zLanes (zNo z.x.c)).map (· % 2 ^ n)
  let ones := 2 ^ n - 1
  let l : List Nat → Nat → Nat := fun xs i => xs.getD i 0
  match z.kind with
  | .gen => z.qs.map (fun q => zStream q z.cls n)
  | .regen => a.map (fun x => zStream (popCount n x) z.cls n)
  | .and => (List.range 64).map (fun i => l a i &&& l b i)
  | .xnor => (List.range 64).map (fun i => ones ^^^ (l a i ^^^ l b i))
  | .mux => (List.range 64).map (fun i => (l a i &&& (ones ^^^ l c i)) ||| (l b i &&& l c i))
  | .not => a.map (fun x => ones ^^^ x)

/-- The engine performs the oldest entry of a tile. -/
def State.stochDone (s : State) (t : Nat) : State :=
  match (s.tile t).zq with
  | [] => s
  | z :: rest =>
    let ls := z.lanes (s.core t .s).regs
    let s := s.updTile t (fun x => { x with zq := rest })
    (s.updCore t .s (fun c => c.mergeRegs (fun r => r.setLanes (zNo z.x.d) ls))).engineSignal t z.x.h.ssem.toNat
      z.x.h.sinc.toNat CoreK.s.idx

/-- STOCH_ENGINE_COMPLETE (R347). -/
def execStochEngineComplete (t : Nat) (s : State) : Out := .next (s.stochDone t)

end Sys2Proof.Machine
end

