-- ==== Sys2Proof/Machine/Sync.lean ====
section
/-!
DEFINITION. Fences, owner flips, semaphores and votes: OPC 0x0F4 to 0x10B (R267 to R270).
Log entries (notes/assumptions): 15 DEDUCED, 31 DEDUCED, 57 DEDUCED.
-/
namespace Sys2Proof.Machine

/-! ## Fences (R267) -/

/-- FENCE: the core's relaxed atomics are performed as its chunk commits (R86). -/
def execFence (x : Ops) (s : State) : Out := runCore .ends x (atCommit .fence) s

/-- A fabric store of a core is outstanding on a broken pair (R420). -/
def State.fabricBroken (s : State) (c : Core) : Bool :=
  s.fabric.pending.any (fun o => c.fab.contains o.id && (smGet Peer.init s.fabric.peers o.pkg).broken)

/-- A fence ends its chunk, and its core stands behind it until its condition holds (R75, R267). -/
def fenceBody (kind : Nat) : Exec Unit := do
  let r ← getRegs
  atCommit (.fenceWait kind r.ip r.slot.isSome)

/-- FENCE.F (R94): the core's relaxed atomics are performed as its chunk commits. A store refused for its generation, or
outstanding on a broken pair, faults it (R420). -/
def execFenceF (x : Ops) (s : State) : Out := runCore .ends x (do
  let s ← getState
  if s.me.fabRefused then
    needEmpty
    stallWith (fun s => (s.setMe { s.me with fabRefused := false }).preciseTrap (s.ipTrap Code.busEpoch 0x06))
  if s.fabricBroken s.me then faultIp Code.protection 0x18
  atCommit .fence
  fenceBody 1) s

/-- FENCE.E. -/
def execFenceE (x : Ops) (s : State) : Out := runCore .ends x (fenceBody 2) s

/-- FENCE.H. -/
def execFenceH (x : Ops) (s : State) : Out := runCore .ends x (fenceBody 3) s

/-- Whether an engine instruction of the core has not ended: a FAULTED copy has (R267). -/
def State.engineDue (s : State) (t : Nat) (k : CoreK) : Bool :=
  match k with
  | .x => (s.tile t).tags.any (fun (_, r) => r.st == .busy || r.st == .suspended)
  | k => s.mergesDue t k

/-! ## Owner flips (R268) -/

/-- The slabs of an owner-flip range, after its checks. -/
def flipRange (a n : Word) : Exec (List SlabId) := do
  let s ← getState
  let b := bufNo a
  let o := bufOfs a
  if n = 0 then
    if bufBad a then bufFault a 4 0x0C
    return []
  else
    let len := n.toNat * 4096
    if bufBad a ∨ b = 3 ∨ o % 4096 ≠ 0 ∨ bufSize b < o + len then bufFault a 4 0x0C
    if b = 0 ∧ (s.tile s.curTile).tailMeets o len then bufFault a 4 0x07
    return slabsOf b o len

/-- GIVE (R51, R268). -/
def execGive (x : Ops) (s : State) : Out := runCore .ends x (do
  let a ← readA x
  let n ← readB x
  let slabs ← flipRange a n
  atCommit (.give slabs)) s

/-- The slabs of a list whose P is 0. -/
def Tile.idle (x : Tile) (slabs : List SlabId) : List SlabId := slabs.filter (fun (b, n) => x.slabP b n == 0)

/-- Flips to CORE the slabs of a list that the engines hold with P at 0 (R51). -/
def State.flipIdle (s : State) (slabs : List SlabId) : State := s.flip s.curTile ((s.tile s.curTile).idle slabs) false

/-- Whether every slab of a list is CORE. -/
def Tile.allCore (x : Tile) (slabs : List SlabId) : Bool := slabs.all (fun (b, n) => !x.slabEngine b n)

/-- TAKE: a wait of R390, in which each slab flips as its P reaches 0; the slabs it has flipped stay flipped (R51, R268). -/
def execTake (x : Ops) (s : State) : Out := runCore .ends x (do
  let a ← readA x
  let n ← readB x
  let slabs ← flipRange a n
  modState (fun s => s.flipIdle slabs)
  let s ← getState
  if !(s.tile s.curTile).allCore slabs then
    stallWith (fun s => let s := s.flipIdle slabs; s.setMe { s.me with stalled := true, taking := slabs })) s

/-- TTAKE (R268). -/
def execTtake (x : Ops) (s : State) : Out := runCore .ends x (do
  let a ← readA x
  let n ← readB x
  let slabs ← flipRange a n
  modState (fun s => s.flipIdle slabs)
  let s ← getState
  writeOpd x.d (wordB ((s.tile s.curTile).allCore slabs))) s

/-- Save state of a WB slab as a number (R395). -/
def WbSt.num (w : WbSt) : Nat :=
  match w with
  | .empty => 0
  | .clean _ => 1
  | .dirty => 2

/-- OWNR's word for a slab. -/
def Tile.ownrWord (x : Tile) (b n : Nat) : Word :=
  word ((x.slabEngine b n).toNat * 2 ^ 63 + (if b = 1 then (smGet WbSt.empty x.wb n).num else 0) * 2 ^ 8 + x.slabP b n)

/-- OWNR (R268). -/
def execOwnr (x : Ops) (s : State) : Out := runCore .base x (do
  let a ← readA x
  let b := bufNo a
  if bufBad a ∨ b = 3 ∨ bufSize b ≤ bufOfs a then bufFault a 3 0x0C
  let s ← getState
  addReads [ownerLine s.curTile b (bufOfs a / 4096)]
  writeOpd x.d ((s.tile s.curTile).ownrWord b (bufOfs a / 4096))) s

/-! ## Semaphores (R269) -/

/-- An entry that forms a chunk of its own and makes its effect as it commits. -/
def Entry.alone : Entry := { Entry.base with before := true, after := true, own := true }

/-- The semaphore that an entry names. -/
def semNo (x : Ops) : Nat := x.imm.toNat % 256

/-- The value of the semaphore that an entry names. -/
def semNow (x : Ops) : Exec Nat := do
  let s ← getState
  return (s.tile s.curTile).sem (semNo x)

/-- Gives a semaphore a value, clamped to 0 and 65,535; `ovf` raises SEM_OVERFLOW (R206). -/
def semPut (x : Ops) (v : Int) (ovf : Bool) : Exec Unit := modState (fun s => s.updTile s.curTile (fun t =>
  let t' := t.setSem (semNo x) (clampI 0 65535 v).toNat
  if ovf then t'.semOverflowed (semNo x) s.curCore.idx else t'))

/-- SEMSET (R269). -/
def execSemset (x : Ops) (s : State) : Out := runCore .alone x (do
  let a ← readA x
  semPut x a.toNat (decide (65535 < a.toNat))) s

/-- SEMADD (R269). -/
def execSemadd (x : Ops) (s : State) : Out := runCore .alone x (do
  let a ← readA x
  let v ← semNow x
  let sum : Int := v + a.toInt
  semPut x sum (decide (65535 < sum))
  writeOpd x.d (word v)) s

/-- SEMRD (R269). -/
def execSemrd (x : Ops) (s : State) : Out := runCore .alone x (do writeOpd x.d (word (← semNow x))) s

/-- SEMTRY (R269). -/
def execSemtry (x : Ops) (s : State) : Out := runCore .alone x (do
  let k ← readA x
  let v ← semNow x
  if k.toNat ≤ v then
    semPut x (v - k.toNat : Nat) false
    writeOpd x.d 1
  else writeOpd x.d 0) s

/-- SEMWAIT: the semaphore unit grants it as a wait of R205. -/
def execSemwait (x : Ops) (s : State) : Out := runCore .alone x (do
  let k ← readA x
  if k ≠ 0 then
    let c := (← getState).me
    if c.granted then modState (fun s => s.setMe { s.me with granted := false, waiting := none })
    else stallWith (fun s => s.setMe { s.me with waiting := some (semNo x, k.toNat), needs := [], forOwn := true })) s

/-- SEMZ (R269). -/
def execSemz (x : Ops) (s : State) : Out := runCore .alone x (do
  let v ← semNow x
  semPut x 0 false
  writeOpd x.d (word v)) s

/-! ## Votes (R270) -/

/-- Whether a vote that the acting core has entered is this instruction's: a handler's VOTE is not the one it has interrupted. -/
def VoteIn.isOf (v : VoteIn) (r : Regs) (isV : Bool) (scope kind : Nat) : Bool :=
  v.ip == r.ip && v.priv == r.priv && v.isV == isV && v.scope == scope && v.kind == kind

/-- A vote: the core puts in its input, stands until every running core of the scope has voted, and takes its result. -/
def voteBody (isV : Bool) (x : Ops) : Exec Unit := do
  let a ← readA x
  let c := (← getState).me
  let scope := x.fmt.toNat
  let kind := x.mod.toNat % 4
  match c.votes.find? (fun v => v.isOf c.regs isV scope kind) with
  | some v => match v.res with
    | some r =>
      modState (fun s => s.setMe { s.me with votes := s.me.votes.erase v })
      writeOpd x.d r
    | none => stallWith (fun s => s)
  | none => stallWith (fun s =>
      let c := s.me
      let k := smGet 0 c.vcount scope
      let s := s.setMe { c with
        votes := c.votes ++ [{ ip := c.regs.ip, priv := c.regs.priv, scope := scope, k := k, isV := isV, kind := kind,
                               val := a, res := none }]
        vcount := smPut c.vcount scope (k + 1) }
      match s.launchOn s.curTile with
      | some id => s.voteSettle id
      | none => s)

/-- The entry of a vote; with scope GROUP it is a phase-group entry (R209 row 3). -/
def voteEntry (x : Ops) : Entry := { Entry.alone with group := x.fmt == 2 }

/-- VOTE (R270). -/
def execVote (x : Ops) (s : State) : Out := runCore (voteEntry x) x (voteBody false x) s

/-- VOTEV (R270). -/
def execVotev (x : Ops) (s : State) : Out := runCore (voteEntry x) x (voteBody true x) s

end Sys2Proof.Machine
end

