-- ==== Sys2Proof/Machine/Context.lean ====
section
/-!
DEFINITION. Control registers as words (R353 and their maps), and a core's area of the register save tail (R57, R393, R394).
Log entries (notes/assumptions): 36 DEDUCED.
-/
namespace Sys2Proof.Machine

/-! ## Control registers (R353) -/

/-- CSPILL (R59). -/
def Regs.cspill (r : Regs) : Word := word (r.park.toNat * 2 ^ 63 + r.pblk.toNat * 2 ^ 32 + r.depth % 2 ^ 16)

/-- CWIN (R235). -/
def Regs.cwin (r : Regs) : Word :=
  word (r.sptr.toNat * 2 ^ 32 + r.live % 256 * 2 ^ 16 + r.base % 256 * 2 ^ 8 + r.winTraps.toNat)

/-- CRAS (R236). -/
def Regs.cras (r : Regs) : Word := word (r.sbase.toNat * 2 ^ 32 + r.rcnt % 2 ^ 24 * 2 ^ 5 + r.ras.length % 32)

/-- CCHNK (R77). -/
def Core.cchnk (c : Core) : Word := word (c.solo % 2 ^ 16 * 2 ^ 32 + c.squash % 2 ^ 16 * 2 ^ 16 + c.regs.maxlen.toNat)

/-- CYDL (R382). -/
def Core.cydl (c : Core) : Word :=
  word (c.prq.toNat * 2 ^ 63 + (if c.prq then c.left % 2 ^ 21 else 0) * 2 ^ 32 + c.regs.cycles.toNat)

/-- CTAG (R65). -/
def Tile.ctag (x : Tile) : Word :=
  (List.range 64).foldl (fun a t => if (smGet TagRec.init x.tags t).st = .done then a ||| word (2 ^ t) else a) 0

/-- Control register n as core k of tile t reads it; one held on another kind of core reads as zero (R354). -/
def State.readCr (s : State) (t : Nat) (k : CoreK) (n : Nat) : Word :=
  let x := s.tile t
  let c := x.core k
  let r := c.regs
  match n with
  | 0x00 => r.cflag
  | 0x01 => r.crnd
  | 0x02 => r.csrn
  | 0x03 => word s.gtc
  | 0x04 => word c.cctx.toNat
  | 0x05 => x.ctag
  | 0x06 => word r.ceod.toNat
  | 0x07 => r.cspill
  | 0x08 => c.covf
  | 0x09 => c.cpriv
  | 0x0A => c.cydl
  | 0x0B => r.cwin
  | 0x0C => r.cras
  | 0x0D => r.ctrap
  | 0x0E => word r.ctpc.toNat
  | 0x0F => word r.ctnpc.toNat
  | 0x10 => s.rowFlag t
  | 0x11 => r.cfad
  | 0x12 => word r.cfdw.toNat
  | 0x13 => r.cexb
  | 0x14 => word x.csavt.toNat
  | 0x15 => c.cchnk
  | 0x16 => c.cphs
  | 0x17 => if k = .m then word r.cacc.toNat else 0
  | 0x18 => if k = .m then c.cgang else 0
  | 0x19 => (s.port false).cseg
  | 0x1A => (s.port true).cseg
  | 0x1B => if k = .s then r.czst else 0
  | _ => 0

/-! ## The scalar area (R393, R394) -/

/-- A stream's eight words (R394). -/
def Stream.words (st : Stream) : List Word :=
  let d := fun i => st.dims.getD i { n := 0, d := 0, i := 0 }
  [st.base, word (st.bound.toNat * 2 ^ 63 + st.write.toNat * 2 ^ 62 + st.ty.toNat * 2 ^ 59 + st.empty.toNat * 2 ^ 58 +
    st.ndim.toNat)] ++
  (List.range 4).map (fun i => word ((d i).n.toNat * 2 ^ 32 + (d i).d.toNat)) ++
  [word ((d 1).i.toNat * 2 ^ 32 + (d 0).i.toNat), word ((d 3).i.toNat * 2 ^ 32 + (d 2).i.toNat)]

/-- The stream of eight words. -/
def streamOfWords (w : List Word) : Stream :=
  let b := fun i lo n => BitVec.ofNat 32 (Word.bits (wd w i) lo n)
  if w.all (fun x => x == 0) then Stream.init
  else
    { bound := (wd w 1).getLsbD 63, write := (wd w 1).getLsbD 62, ty := BitVec.ofNat 3 (Word.bits (wd w 1) 59 3),
      empty := (wd w 1).getLsbD 58, base := wd w 0, ndim := BitVec.ofNat 2 (Word.bits (wd w 1) 0 2),
      dims := (List.range 4).map (fun i =>
        ({ n := b (2 + i) 32 32, d := b (2 + i) 0 32, i := b (6 + i / 2) (32 * (i % 2)) 32 } : Dim)) }

/-- The 2 KiB of a core's scalar area as 256 words; `aux` is the frame's AUX word. -/
def State.areaWords (s : State) (t : Nat) (k : CoreK) (aux : Word) : List Word :=
  let r := (s.core t k).regs
  let cr := s.readCr t k
  r.frame aux ++ List.replicate 4 0 ++
  [cr 0x00, cr 0x01, cr 0x02, cr 0x06, cr 0x07, cr 0x0B, cr 0x0C, cr 0x13, cr 0x15, cr 0x17, cr 0x1B, cr 0x18, cr 0x0A,
    0, 0, 0] ++
  (List.range 8).map (fun i => smGet 0 r.g i) ++ (List.range 24).map r.m ++
  (List.range 8).flatMap (fun i => (r.stream i).words) ++ List.replicate 120 0

/-- The vector registers as words, two lanes to each. -/
def Regs.vectorWords (r : Regs) : List Word :=
  (List.range 1024).map (fun i => word ((smGet 0 r.vregs (2 * i)).toNat + (smGet 0 r.vregs (2 * i + 1)).toNat * 2 ^ 32))

/-- Writes a core's state to its area of the tail, and on the V-core v0 to v31 (R357). -/
def State.saveArea (s : State) (t : Nat) (k : CoreK) (aux : Word) : State :=
  let s := s.commitWords t (s.areaKey t k) (s.areaWords t k aux)
  if k = .v then s.commitWords t (tileKey t 0 ((s.tile t).tailOfs + 0x2800)) (s.core t k).regs.vectorWords else s

/-- The entries of the return-address store after a load: the newest that the core holds; further ones are open values. -/
def rasOf (free n : Nat) (old : List Word) : List Word :=
  let extra := n - old.length
  ((List.range extra).map (fun i => word (ofBytes ((List.range 8).map (fun j => Config.freeByte free (8 * i + j)))))) ++
    old.drop (old.length - n)

/-- The registers that a scalar area gives core k; the mode is not loaded (R393). -/
def Regs.loadArea (r : Regs) (k : CoreK) (free : Nat) (w : List Word) : Regs :=
  let g := wd w
  let trap := g 2
  let r : Regs := { r with
    ctpc := (g 0).truncate 19, ctnpc := (g 1).truncate 19, dbl := trap.getLsbD 62, bd := trap.getLsbD 61,
    code := BitVec.ofNat 8 (Word.bits trap 48 8), hen := trap.getLsbD 45, hvec := BitVec.ofNat 13 (Word.bits trap 32 13),
    cfad := g 3, cfdw := (g 4).truncate 32, cflag := g 24 &&& 0x3F3F, crnd := g 25 &&& 0xFFFFFFFF00000007, csrn := g 26,
    ceod := (g 27).truncate 32, park := (g 28).getLsbD 63, pblk := BitVec.ofNat 16 (Word.bits (g 28) 32 16),
    depth := Word.bits (g 28) 0 16, sptr := BitVec.ofNat 32 (Word.bits (g 29) 32 32), live := Word.bits (g 29) 16 8 % 169,
    base := Word.bits (g 29) 8 8 % 192, winTraps := (g 29).getLsbD 0, sbase := BitVec.ofNat 32 (Word.bits (g 30) 32 32),
    rcnt := Word.bits (g 30) 5 24, ras := rasOf free (Nat.min 16 (Word.bits (g 30) 0 5)) r.ras,
    cexb := g 31 &&& 0x7FFFF0007FFFF, maxlen := BitVec.ofNat 9 (Word.bits (g 32) 0 9),
    cacc := if k = .m then (g 33).truncate 16 else r.cacc,
    czst := if k = .s then g 34 &&& 0x3F3F3F3F3F3F3F3F else r.czst,
    cycles := BitVec.ofNat 21 (Word.bits (g 36) 0 21),
    g := smPutList r.g 0 ((List.range 8).map (fun i => g (40 + i)))
    streams := (List.range 8).foldl (fun m i => smPut m i (streamOfWords ((w.drop (72 + 8 * i)).take 8))) r.streams }
  let r := (List.range 24).foldl (fun r i => r.setM i (g (48 + i))) r
  r.restoreFrame ((w.drop 6).take 14)

/-- Loads core k's area of the tail (R357): its registers, its chunk counts, and on the M-core CGANG. -/
def State.loadArea (s : State) (t : Nat) (k : CoreK) : State :=
  let w := wordsOf (s.readBytes 0 (s.areaKey t k) 2048)
  let g := wd w
  let vs := if k = .v then wordsOf (s.readBytes 0 (tileKey t 0 ((s.tile t).tailOfs + 0x2800)) 8192) else []
  let s := { s with free := s.free + 1 }
  s.updCore t k (fun c =>
    let r := c.regs.loadArea k s.free w
    let r := if k = .v then { r with vregs := smPutList r.vregs 0 (vs.flatMap (fun x =>
        [BitVec.ofNat 32 (Word.bits x 0 32), BitVec.ofNat 32 (Word.bits x 32 32)])) } else r
    let c := { c with regs := r, squash := Word.bits (g 32) 16 16, solo := Word.bits (g 32) 32 16 }
    if k = .m then { c with tmo := Word.bits (g 35) 48 16, gsize := Word.bits (g 35) 32 5, gpos := Word.bits (g 35) 0 4 } else c)

end Sys2Proof.Machine
end

