-- ==== Sys2Proof/Machine/System.lean ====
section
/-!
DEFINITION. The system instructions: OPC 0x1E0 to 0x1EF (R352 to R363).
Log entries (notes/assumptions): 15 DEDUCED, 36 DEDUCED, 43 DEDUCED, 47 DEDUCED, 54 DEDUCED.
-/
namespace Sys2Proof.Machine

/-! ## Control registers (R354) -/

/-- The control register that an entry names. -/
def crNo (x : Ops) : Nat := x.imm.toNat % 256

/-- RDC (R354). -/
def execRdc (x : Ops) (s : State) : Out := runCore (.alu 0) x (do
  let s ← getState
  if !s.me.regs.priv ∧ (crNo x = 0x0D ∨ crNo x = 0x0E ∨ crNo x = 0x0F ∨ crNo x = 0x10) then faultIp Code.privilege 0
  writeOpd x.d (s.readCr s.curTile s.curCore (crNo x))) s

/-- RESERVED_FIELD of a register write whose value is refused (R127, R382). -/
def refuseValue : Exec Unit := fun s => .error (.trap (s.reservedTrap 32))

/-- PRIVILEGE in user mode for a register whose only writable fields are privileged (R354, R77, R311, R381, R382). -/
def needPriv (priv : Bool) : Exec Unit := if priv then pure () else faultIp Code.privilege 0

/-- What a WRC writes: the fields marked R/W, and privileged ones in privileged mode only (R354). -/
def wrcBody (x : Ops) : Exec Unit := do
  let v ← readA x
  let s ← getState
  let priv := s.me.regs.priv
  match crNo x with
  | 0x00 => modRegs (fun r => { r with cflag := v &&& 0x3F3F })
  | 0x01 =>
    if 5 < Word.bits v 0 3 then refuseValue
    modRegs (fun r => { r with crnd := v &&& 0xFFFFFFFF00000007 })
  | 0x02 => modRegs (fun r => { r with csrn := v })
  | 0x06 => modRegs (fun r => { r with ceod := v.truncate 32 })
  | 0x0A =>
    needPriv priv
    let n := Word.bits v 0 21
    if n < 1024 ∨ 2 ^ 20 < n then refuseValue
    modRegs (fun r => { r with cycles := BitVec.ofNat 21 n })
  | 0x0B => modRegs (fun r => { r with winTraps := v.getLsbD 0 })
  | 0x0D => modRegs (fun r => { r with hen := v.getLsbD 45, hvec := BitVec.ofNat 13 (Word.bits v 32 13) })
  | 0x0E =>
    needPriv priv
    modRegs (fun r => { r with ctpc := v.truncate 19 })
  | 0x0F =>
    needPriv priv
    modRegs (fun r => { r with ctnpc := v.truncate 19 })
  | 0x13 => modRegs (fun r => { r with cexb := v &&& 0x7FFFF0007FFFF })
  | 0x15 =>
    needPriv priv
    modRegs (fun r => { r with maxlen := BitVec.ofNat 9 (Word.bits v 0 9) })
  | 0x17 =>
    needPriv priv
    if s.curCore = .m then modRegs (fun r => { r with cacc := v.truncate 16 })
  | _ => pure ()

/-- WRC of a register other than CSPILL and CRAS (R354). -/
def execWrc (x : Ops) (s : State) : Out := runCore .ends x (wrcBody x) s

/-- WRC to CSPILL (R59). A request held back by PARK reaches the core once its PARK is clear (R61). -/
def execWrcCspill (x : Ops) (s : State) : Out := runCore .ends x (do
  let v ← readA x
  let s ← getState
  let t := s.tile s.curTile
  let r := s.me.regs
  if !r.priv then faultIp Code.privilege 0
  let blk := Word.bits v 32 16
  let others := CoreK.all.any (fun k => k != s.curCore && ((t.core k).regs.pblk.toNat &&& blk) != 0)
  let tagged := (maskList 16 blk).any (fun k => accTag (t.block k) != 0 && accTag (t.block k) != s.me.cctx.toNat)
  if (blk ≠ r.pblk.toNat ∧ r.depth ≠ 0) ∨ others ∨ tagged then faultIp Code.protection 0x0D
  modRegs (fun r => { r with park := v.getLsbD 63, pblk := BitVec.ofNat 16 blk })) s

/-- WRC to CRAS (R236). -/
def execWrcCras (x : Ops) (s : State) : Out := runCore .ends x (do
  let v ← readA x
  let r ← getRegs
  let b := Word.bits v 32 32
  if r.rcnt ≠ 0 ∨ r.sptr ≠ r.sbase ∨ b % 8 ≠ 0 ∨ 0x7FFFFF8 < b then faultIp Code.protection 0x0E
  modRegs (fun r => { r with sbase := BitVec.ofNat 32 b, sptr := BitVec.ofNat 32 b })) s

/-! ## Traps and context (R356, R357) -/

/-- TRAPRET: the return takes effect after its delay slot (R356, R385). -/
def execTrapret (x : Ops) (s : State) : Out := runCore { Entry.jump with priv := true, after := true } x (do
  let s ← getState
  let t := word s.me.regs.ctpc.toNat
  if !ipOk t then throwTrap (mkTrap Code.badTarget t 0 15 s.curTile 2)
  takeTo t .trapret none) s

/-- The entry of CTXSAVE and CTXLOAD (R357). -/
def Entry.context : Entry := { Entry.ends with own := true, priv := true }

/-- CTXSAVE; the frame's AUX word stays as it stands (R357). -/
def execCtxsave (x : Ops) (s : State) : Out := runCore .context x (modState (fun s =>
  let aux := word (s.readNat 0 (s.areaKey s.curTile s.curCore + 0x28) 8)
  s.saveArea s.curTile s.curCore aux)) s

/-- CTXLOAD (R357). -/
def execCtxload (x : Ops) (s : State) : Out := runCore .context x (do
  let s ← getState
  checkTail (s.areaKey s.curTile s.curCore) 2048
  if s.curCore = .v then checkTail (tileKey s.curTile 0 ((s.tile s.curTile).tailOfs + 0x2800)) 8192
  modState (fun s => s.loadArea s.curTile s.curCore)) s

/-! ## Translations and apertures (R358, R359) -/

/-- TLBIP (R358). The entries go as its chunk commits: a walk reads what the chunk has stored from then on (R39, R74). -/
def execTlbip (x : Ops) (s : State) : Out := runCore { Entry.ends with cores := .c, priv := true } x (do
  let a ← readA x
  if topByte a ≠ 0 then faultAcc (accOf 0 false a) Code.protection 0x16
  atCommit (.tlbi (← getState).me.cctx (some (Word.bits a 0 56)))) s

/-- TLBIC (R358). -/
def execTlbic (x : Ops) (s : State) : Out := runCore { Entry.ends with cores := .c, priv := true, pf := true } x (do
  let a ← readA x
  atCommit (.tlbi (a.truncate 8) none)) s

/-- An aperture that R28 refuses. -/
def apertureBad (w1 : Word) : Bool :=
  let p := Word.bits w1 56 4
  match aptXf w1 with
  | 0 => p != 0
  | 1 => p % 4 == 3 || p / 4 % 2 == 1
  | 2 => decide (1 < p)
  | 3 => p != 0 || decide (30 < Word.bits w1 16 5 + Word.bits w1 11 5)
  | _ => true

/-- APTSET (R28, R359). -/
def execAptset (x : Ops) (s : State) : Out := runCore { Entry.ends with priv := true } x (do
  let w0 ← readA x
  let w1 ← readOpd x (pairNext x.a)
  if apertureBad w1 then refuseValue
  atCommit (.aptset (x.imm.toNat % 16) (w0 &&& 0x80FFFFFFFFFFFFFF) (w1 &&& 0xFFFFFFFFFFFFFE00))) s

/-- APTRD (R359). -/
def execAptrd (x : Ops) (s : State) : Out := runCore .base x (do
  let s ← getState
  let (w0, w1) := smGet (0, 0) (((s.jobOn s.curTile).map (·.apt)).getD []) (x.imm.toNat % 16)
  modRegs (fun r => r.put (pairNext x.d) w1)
  writeOpd x.d w0) s

/-! ## Phases (R182, R183, R360) -/

/-- TICKWAIT: a wait of R390 for its group's next release. -/
def execTickwait (x : Ops) (s : State) : Out := runCore { Entry.ends with own := true, group := true } x (do
  let s ← getState
  if s.me.released then modState (fun s => s.setMe { s.me with released := false, ready := false })
  else stallWith (fun s =>
    let s := if s.me.ready then s else s.noteReady s.curTile
    let s := s.setMe { s.me with stalled := true, ready := true }
    match s.launchOn s.curTile with
    | some l => s.groupCheck l
    | none => s)) s

/-- PHASEEND: its core arrives at its chunk's commit (R182). -/
def execPhaseend (x : Ops) (s : State) : Out :=
  runCore { Entry.ends with group := true } x (atCommit .phaseEnd) s

/-! ## Cancels (R361) -/

/-- The entry of a cancel. -/
def Entry.cancels : Entry := { Entry.ends with cores := .c }

/-- Writes d and, when something has the name, cancels it at the commit. -/
def cancelNamed (x : Ops) (level : Nat) (found : Option Nat) : Exec Unit := do
  writeOpd x.d (wordB found.isSome)
  match found with
  | some n => atCommit (.cancel level n)
  | none => pure ()

/-- CANL (R361). -/
def execCanl (x : Ops) (s : State) : Out := runCore .cancels x (do
  let a ← readA x
  let s ← getState
  let jid := (s.jobOn s.curTile).map (·.jid)
  cancelNamed x 0 ((s.launches.find? (fun l => some l.jid == jid && decide (l.state < 2) && word l.cnta == a)).map (·.id))) s

/-- CANG (R361). -/
def execCang (x : Ops) (s : State) : Out := runCore .cancels x (do
  let a ← readA x
  let s ← getState
  let jid := (s.jobOn s.curTile).map (·.jid)
  cancelNamed x 1 ((s.runs.find? (fun r => some r.jid == jid && r.state == 1 && r.grec == a)).map (·.id))) s

/-- CANP (R361). -/
def execCanp (x : Ops) (s : State) : Out := runCore { Entry.cancels with group := true } x (do
  let s ← getState
  match s.launchOn s.curTile with
  | some l => atCommit (.cancel 2 l)
  | none => pure ()) s

/-- CANJ (R361). -/
def execCanj (x : Ops) (s : State) : Out := runCore { Entry.cancels with priv := true, pf := true } x (do
  let a ← readA x
  let s ← getState
  cancelNamed x 3 ((s.jobs.find? (fun j => j.jid == a.toNat % 65536 && j.state == 1)).map (·.jid))) s

/-! ## Codebooks (R63, R362) -/

/-- CBLD (R362); its chunk commits once nothing in flight reads the slot (R63). -/
def execCbld (x : Ops) (s : State) : Out := runCore .ends x (do
  let a ← readA x
  let bs ← loadAt 0 32 false a 32
  atCommit (.cbld (x.imm.toNat % 8) ((chunksOf 17 2 bs).map (fun e => BitVec.ofNat 16 (ofBytes e))))) s

end Sys2Proof.Machine
end

