-- ==== Sys2Proof/Machine/Event.lean ====
section
/-!
DEFINITION. Asynchronous events of a core (R387): which one is due at a boundary and how it is taken; the commit of a chunk,
the grants of the semaphore unit, walks, and machine checks.
Log entries (notes/assumptions): 17 DEDUCED, 18 DEDUCED, 19 DEDUCED, 43 DEDUCED, 44 DEDUCED, 46 DEDUCED, 47 DEDUCED,
51 DEDUCED.
-/
namespace Sys2Proof.Machine

/-! ## Boundaries (R211, R387) -/

/-- The core stands inside an instruction that has left the part, or has enrolled: it ends first. -/
def State.midway (s : State) (t : Nat) (k : CoreK) : Bool :=
  let c := s.core t k
  (c.ext.isSome && !c.stalled) ||
  (k == .c && s.ports.any (fun (_, p) => p.enrol.any (fun (u, w, _) => u == t && w.length < 8)))

/-- Brings a running core to the boundary where it stands: its chunk up to it commits (R84). Left is the state when the
core is not at a boundary; right, the state at it. -/
def State.boundary (s : State) (t : Nat) (k : CoreK) : State ⊕ State :=
  let c := s.core t k
  if c.run ≠ .running ∨ c.regs.slot.isSome ∨ s.midway t k then .inl s
  else match c.chunk with
    | some h =>
      if h.len = 0 then .inr s
      else
        let s := (s.setCore t k { c with chunk := some { h with closed := true } }).tryCommit t k
        if (s.core t k).chunk.isNone ∧ (s.core t k).run = .running then .inr s else .inl s
    | none => .inr s

/-- The order in which events due at one boundary are taken; 0 stands for a notice or the trap of a TRAP (R387). -/
def itemOrder : List Nat := [1, 2, 0, 3, 4, 5, 6, 7, 8, 9]

/-- Whether a forced save is due: LEFT has run out, or the stop of a migration asks for it at once (R391, R432). -/
def State.forcedDue (s : State) (t : Nat) (k : CoreK) : Bool :=
  let c := s.core t k
  c.yields && (c.left == 0 || (s.tile t).watch.any (·.now))

/-- Whether an item of R387 is due and may be taken: in privileged mode all but cancels and machine checks are held; a machine
check is unhandled there (R404; log 18 DEDUCED). TICK_SLIP waits for the end of the TICKWAIT, and a phase CANCEL that meets a
boundary of the group for the next one (R188, R190). -/
def State.itemDue (s : State) (t : Nat) (k : CoreK) (n : Nat) : Bool :=
  let c := s.core t k
  let user := !c.regs.priv
  let inTick := c.ready || c.released
  let running := ((s.launchOn t).bind s.launch?).all (fun l => l.grp.all (fun g => g.st == .running))
  match n with
  | 0 => match c.due with
    | [] => false
    | (arose, _) :: _ => arose || user
  | 1 => c.pend.any (fun p => p.item == 1)
  | 2 => c.cancelled
  | 3 => s.forcedDue t k
  | 7 => user && !inTick && c.pend.any (fun p => p.item == 7)
  | 8 => user && !inTick && running && c.pend.any (fun p => p.item == 8)
  | n => user && c.pend.any (fun p => p.item == n)

/-- The item that is taken next. -/
def State.nextItem (s : State) (t : Nat) (k : CoreK) : Option Nat := itemOrder.find? (fun n => s.itemDue t k n)

/-- Takes an asynchronous trap at the boundary where a core stands; a wait that it has consumed is added back. -/
def State.takeAsync (s : State) (t : Nat) (k : CoreK) (i : TrapInfo) : State :=
  let s := (s.restoreWait t k).dropToken t k
  let r := (s.core t k).regs
  s.enterTrap t k i (r.ip.truncate 19) r.ctnpc false none

/-- A forced save; without room for what it spills it ends the launch (R391, R392). -/
def State.forceSave (s : State) (t : Nat) (k : CoreK) : State :=
  if (s.core t k).saveRoom then (s.dropToken t k).stopCore t k true
  else match s.launchOn t with
    | some l => s.cancelAll l 0x24
    | none => s

/-- A phase in which a phase cancel is taken is not measured (R186). -/
def State.unmeasured (s : State) (t : Nat) : State :=
  match (s.launchOn t).bind s.launch? with
  | some l => s.setLaunch { l with grp := l.grp.map (fun g => { g with cancelledPhase := true }) }
  | none => s

/-- Takes an item at the boundary where a core stands. -/
def State.takeItem (s : State) (t : Nat) (k : CoreK) (n : Nat) : State :=
  let c := s.core t k
  match n with
  | 0 => match c.due with
    | [] => s
    | (_, i) :: rest => (s.setCore t k { c with due := rest }).takeAsync t k i
  | 2 => ((s.restoreWait t k).dropToken t k).taskEnd t k true
  | 3 => s.forceSave t k
  | n => match c.pend.find? (fun p => p.item == n) with
    | some p =>
      let s := if n = 8 then s.unmeasured t else s
      (s.setCore t k { c with pend := c.pend.erase p }).takeAsync t k p.info
    | none => s

/-- A core takes an item, if it is the next one, the core is at a boundary, and no solo token holds its commits back (R83). -/
def State.event (s : State) (t : Nat) (k : CoreK) (n : Nat) : State :=
  if s.nextItem t k ≠ some n ∨ s.soloBlocked t k then s
  else match s.boundary t k with
    | .inl s => s
    | .inr s => if s.nextItem t k = some n then s.takeItem t k n else s

/-! ## Events of one core -/

/-- BUS_FAULT_TAKEN (R163). -/
def execBusFaultTaken (t : Nat) (s : State) : Out := .next (s.event t .c 4)

/-- TICK_SLIP (R188). -/
def execTickSlip (t : Nat) (k : CoreK) (s : State) : Out := .next (s.event t k 7)

/-- CANCEL: the trap of a phase cancel (R189). -/
def execCancel (t : Nat) (k : CoreK) (s : State) : Out := .next (s.event t k 8)

/-- A cancel ends a task: at its next boundary, or where the core stands stopped; a watch being saved ends after its save
(R189, R190). -/
def State.cancelStop (s : State) (t : Nat) (k : CoreK) : State :=
  let c := s.core t k
  if !c.cancelled then s
  else match c.run with
    | .running => s.event t k 2
    | .halted => s.taskEnd t k true
    | .stopped =>
      if (s.tile t).watch.any (fun w => w.st == .saving || w.st == .written) then s else s.taskEnd t k true
    | .off => s

/-- CANCEL_STOP (R189). -/
def execCancelStop (t : Nat) (k : CoreK) (s : State) : Out := .next (s.cancelStop t k)

/-- PREEMPT_FORCED (R391). -/
def execPreemptForced (t : Nat) (k : CoreK) (s : State) : Out := .next (s.event t k 3)

/-- CHUNK_COMMIT: a closed chunk tries to commit (R79). -/
def execChunkCommit (t : Nat) (k : CoreK) (s : State) : Out := .next (
  if (s.core t k).chunk.any (fun h => h.closed) then s.tryCommit t k else s)

/-- One of a core's relaxed atomics, in any order but that of one word (R86, R89). A solo token holds back all but the .QNT
ones (R83). -/
def State.atomicPerform (s : State) (t : Nat) (k : CoreK) : State :=
  let (c, s) := s.choose
  let as := (s.core t k).atoms.filter (fun a => a.use == 3 || !s.soloBlocked t k)
  match as[c % as.length]? with
  | none => s
  | some a => s.performSome t k (fun b => b = a)

/-- ATOMIC_PERFORM (R86). -/
def execAtomicPerform (t : Nat) (k : CoreK) (s : State) : Out := .next (s.atomicPerform t k)

/-! ## The semaphore unit (R205, R206, R377) -/

/-- The cores in the order in which the unit takes them: from the one after its pointer. -/
def semOrder (p : CoreK) : List CoreK :=
  let order := [CoreK.c, .m, .v, .x, .s]
  let i := order.findIdx (fun k => k == p)
  order.drop (i + 1) ++ order.take (i + 1)

/-- Whether an instruction that waits would issue at once if it were granted its units: nothing is to be taken at its boundary,
what it needs beside them is there, and no token holds it back (R375, R378). A request stops no core in privileged mode
(R387). -/
def State.canIssue (s : State) (t : Nat) (k : CoreK) : Bool :=
  let c := s.core t k
  let asked := (s.tile t).watch.any (fun w => w.st == .requested) && !c.regs.park && !c.regs.priv
  let blocked := s.soloBlocked t k
  (c.regs.slot.isSome || ((s.nextItem t k).isNone && (s.tile t).semOvf.isNone && !asked && !c.yields)) &&
  c.needs.all (fun n => s.hasNeed t k n) && !(blocked && (c.forOwn || !c.atoms.isEmpty))

/-- Grants one waiting core whose threshold its semaphore meets: the test and the subtraction are one action. The instruction
issues in the same cycle, so its core's turn is the next (R377). -/
def State.semGrant (s : State) (t : Nat) : State :=
  let x := s.tile t
  let meets := fun (k : CoreK) =>
    let c := x.core k
    c.run == .running && !c.granted && c.waiting.any (fun (sem, n) => decide (n ≤ x.sem sem)) && s.canIssue t k
  match (semOrder x.semPtr).find? meets with
  | none => s
  | some k =>
    let c := x.core k
    match c.waiting with
    | some (sem, n) =>
      { s.setTile t { (x.setSem sem (x.sem sem - n)).setCore k { c with granted := true } with semPtr := k } with
        agenda := ⟨0, .core t k⟩ :: s.agenda }
    | none => s

/-- SEM_GRANT (R205). -/
def execSemGrant (t : Nat) (s : State) : Out := .next (s.semGrant t)

/-- The core that takes an overflow: the C-core, or the first in the order M, V, X, S that still runs a task (R206). -/
def Tile.ovfCore (x : Tile) : Option CoreK := [CoreK.c, .m, .v, .x, .s].find? (fun k => (x.core k).run != .off)

/-- Gives an overflow to the core that takes it; with none it is counted in the error log (R206, R441). -/
def State.semOverflow (s : State) (t : Nat) : State :=
  let x := s.tile t
  match x.semOvf with
  | none => s
  | some o =>
    let s := s.setTile t { x with semOvf := none }
    match x.ovfCore with
    | some k => s.updCore t k (fun c => { c with
        pend := c.pend ++ [{ item := 6, info := semOvfTrap t o.sem o.by_ o.again, more := o.again }] })
    | none => s.count 0x70 (1 + o.again)

/-- SEM_OVERFLOW (R206). -/
def execSemOverflow (t : Nat) (s : State) : Out := .next (s.semOverflow t)

/-! ## Walks and machine checks -/

/-- The walk that a miss of core k of tile t waits for: its answer, with A and D set and the entries cached when its access
passes every check (R35, R37). -/
def State.walkAnswer (s : State) (t : Nat) (k : CoreK) (m : Miss) : State :=
  let c := s.core t k
  let q : XReq := { root := ((s.jobOn t).map (·.root)).getD (2 ^ 40), ctx := c.cctx, priv := c.regs.priv, write := m.write,
                    mmv := false, vec := m.vec, atom := m.atom, home := m.home }
  let (ans, s) := match s.walkFor t (s.vfOn t) q m.va with
    | .ok ((e, log, _), s) => (WalkAns.leaf e log, s)
    | .error (code, cause) => (WalkAns.fault code cause, s)
  s.updCore t k (fun c => { c with walks := c.walks.map (fun m' => if m' = m then { m with ans := some ans } else m') })

/-- The OR that the walk for a miss makes on its leaf entry, as an update behind the chunks that hold solo tokens. -/
def State.walkOr (s : State) (t : Nat) (q : XReq) (va : Nat) : Option RAtom :=
  match s.walkFrom q.ctx (smGet [] s.upper (walkerOf t va)) 4 0 q.root va with
  | (.leaf _ at_ _, _) =>
    let key := hbmKey at_
    some { key := key, pkg := none, op := .or, wide := true, uns := true, nv := 0, dst := none, latch := false, put := [],
           v := 0x20000000 ||| (if q.write then 0x10000000 else 0), use := 3, at_ := s.cycle,
           keyNo := smGet 0 s.keyTag key, vf := s.vfOn t }
  | _ => none

/-- The walk of a miss of a core that holds a solo token: its update of A and D squashes neither its own chunk nor another
holder's, and stands behind them in the commit order (R37, R83). -/
def State.walkSolo (s : State) (t : Nat) (k : CoreK) (m : Miss) : State :=
  let c := s.core t k
  let q : XReq := { root := ((s.jobOn t).map (·.root)).getD (2 ^ 40), ctx := c.cctx, priv := c.regs.priv, write := m.write,
                    mmv := false, vec := m.vec, atom := m.atom, home := m.home }
  match s.walkOr t q m.va with
  | some a => (s.walkAnswer t k m).shield s a
  | none => s.walkAnswer t k m

/-- A walker of tile t's die completes a walk: every miss of the die that is merged into it (the same 64 KiB page, context
and class) is answered, each for its own access (R37, R38). While a token holds back what commits at package scope, only its holder's are
(R83). -/
def State.walkDone (s : State) (t : Nat) (ctx : Byte) (va : Word) (write : Bool) : State :=
  let page := va.toNat % 2 ^ 56 / 2 ^ 16
  (s.tiles.filter (fun (u, _) => u / 256 == t / 256)).foldl (fun s (u, _) => CoreK.all.foldl (fun s k =>
    let solo := s.hasToken u k && !s.soloBlocked u k
    if (s.core u k).cctx = ctx ∧ (solo ∨ !s.soloPackage) then
      ((s.core u k).walks.filter (fun m => m.va / 2 ^ 16 == page && m.write == write && m.ans.isNone)).foldl
        (fun s m => if solo then s.walkSolo u k m else s.walkAnswer u k m) s
    else s) s) s

/-- TRANSLATION_WALK (R38), by the walker that serves the address. -/
def execTranslationWalk (die n : Nat) (ctx : Byte) (va : Word) (write : Bool) (s : State) : Out :=
  .next (if walkerOf (256 * die) va.toNat = 64 * die + n then s.walkDone (256 * die) ctx va write else s)

/-- Every core of an arbiter's scope: its chunk in flight is squashed, and it takes the check (R404). -/
def State.arbiterCheck (s : State) (row : Option Nat) (c : MCheck) : State :=
  let tiles := s.tiles.map (fun (t, _) => t)
  (tiles.filter (fun t => row.all (fun r => t / 16 == r))).foldl (fun s t =>
    CoreK.all.foldl (fun s k => (s.squash t k false).pendCore t k 1
      (mkTrap c.code c.cfad c.kind.toNat c.space.toNat t 0)) s) s

/-- A lost die-to-die link: every core whose chunk or engine instruction waits on it takes the check, and the side-band
controller reports it in a message whose bytes the specification does not give (R404). -/
def State.linkCheck (s : State) (c : MCheck) : State :=
  let s := ((c.t, c.k) :: c.more).foldl (fun s (t, k) =>
    s.pendCore t k 1 (mkTrap c.code c.cfad c.kind.toNat c.space.toNat t 0)) s
  { s with side := { s.side with answers := Config.answer s.free [0xF3] :: s.side.answers }, free := s.free + 1 }

/-- A machine check that no read finds (R404): a lost reject flag, a lost link, an arbiter's error. The checks on words
with errors are raised by the reads that meet them, and 0xF6 to 0xFF never. -/
def State.machineCheck (s : State) (c : MCheck) : State :=
  if c.code = 0xF2 then (if (s.port c.port).en then s.portStop c.port else s)
  else if c.code = 0xF3 then (s.logCheck c.t c.code c.cfad).linkCheck c
  else if c.code = 0xF5 then (s.logCheck c.t c.code c.cfad).arbiterCheck c.row c
  else s

/-- MACHINE_CHECK (R404). -/
def execMachineCheck (c : MCheck) (s : State) : Out := .next (s.machineCheck c)

end Sys2Proof.Machine
end

