-- ==== Sys2Proof/Machine/Launch.lean ====
section
/-!
DEFINITION. Launch descriptors, their checks, and the placing of a new watch (R173 to R177).
Log entries (notes/assumptions): 8 DESIGN CHOICE, 9 DESIGN CHOICE, 21 DEDUCED, 45 DESIGN CHOICE, 52 DEDUCED.
-/
namespace Sys2Proof.Machine

/-! ## Global memory beyond one page -/

/-- The parts of a range that lie in one 64 KiB page each. -/
def pagePieces (va n : Nat) : List (Nat × Nat) :=
  if n = 0 then []
  else (List.range ((va + n - 1) / 2 ^ 16 - va / 2 ^ 16 + 1)).map (fun i =>
    let a := Nat.max va ((va / 2 ^ 16 + i) * 2 ^ 16)
    (a, Nat.min (va + n) ((va / 2 ^ 16 + i + 1) * 2 ^ 16) - a))

/-- Reads a range of a job's global memory. -/
def State.gBytes (s : State) (j : Job) (va n : Nat) : Except (Byte × Nat) (List Byte × State) :=
  (pagePieces va n).foldlM (fun (acc, s) (a, m) =>
    match State.gRead s j a m with
    | .error f => .error f
    | .ok (b, s) => .ok (acc ++ b, s)) ([], s)

/-- Writes a range of a job's global memory in pieces of at most 64 KiB, as records are written. -/
def State.gStore (s : State) (j : Job) (va : Nat) (bs : List Byte) : State :=
  (pagePieces va bs.length).foldl (fun s (a, m) => s.gPut j a ((bs.drop (a - va)).take m)) s

/-! ## The launch descriptor (R173) -/

def dTask (d : List Word) (k : CoreK) : Bool := (wd d 0).getLsbD (51 + k.idx)
def dGang (d : List Word) : Nat := Word.bits (wd d 0) 46 5
def dFixed (d : List Word) : Bool := (wd d 0).getLsbD 45
def dBase (d : List Word) : Nat := Word.bits (wd d 0) 35 10
def dTiles (d : List Word) : Nat := Word.bits (wd d 0) 24 11
def dTail (d : List Word) : Nat := if (wd d 0).getLsbD 15 then Word.bits (wd d 0) 16 8 else 122
def dRmode (d : List Word) : Nat := Word.bits (wd d 0) 12 3
def dVtBase (d : List Word) : Nat := Word.bits (wd d 0) 0 12
def dCodeVa (d : List Word) : Nat := (wd d 1).toNat % 2 ^ 56
def dCodeLen (d : List Word) : Nat := Word.bits (wd d 2) 32 20
def dCodeOfs (d : List Word) : Nat := Word.bits (wd d 2) 0 19

/-- The entry line of a core. -/
def dEntry (d : List Word) (k : CoreK) : Nat :=
  if k = .s then Word.bits (wd d 5) 32 13 else Word.bits (wd d 3) (16 * k.idx) 13

/-- The carve-out of a core: first slab and size (R14). -/
def dCarve (d : List Word) (k : CoreK) : Nat × Nat :=
  let w := if k = .s then wd d 5 else wd d 4
  let lo := if k = .s then 0 else 16 * k.idx
  (Word.bits w lo 8, Word.bits w (lo + 8) 8)

def dOlim (d : List Word) : Nat := Word.bits (wd d 5) 16 16
def dCydl (d : List Word) : Nat := Word.bits (wd d 8) 0 21
def dSeed (d : List Word) : Nat := Word.bits (wd d 8) 32 32
def dSelTab (d : List Word) : Nat := (wd d 10).toNat % 2 ^ 56
def dPhg (d : List Word) : Bool := (wd d 11).getLsbD 0

/-- Whether a bit that the descriptor holds at zero is set. -/
def launchRz (d : List Word) : Bool :=
  let z := fun i lo n => Word.bits (wd d i) lo n != 0
  z 1 56 8 || z 1 0 6 || z 2 52 12 || z 2 19 13 || z 3 13 3 || z 3 29 3 || z 3 45 3 || z 3 61 3 || z 5 45 19 ||
  z 8 21 11 || z 11 1 63 || [12, 13, 14, 15].any (fun i => wd d i != 0)

/-- Two ranges of bytes share one. -/
def overlaps (a n b m : Nat) : Bool := n != 0 && m != 0 && decide (a < b + m) && decide (b < a + n)

/-- Findings on the code image (cause 0x04). -/
def imageBad (d : List Word) : Bool :=
  let len := dCodeLen d
  let ofs := dCodeOfs d
  len == 0 || len % 64 != 0 || decide (0x80000 < len) || ofs % 64 != 0 || decide (0x80000 < ofs + len) ||
  CoreK.all.any (fun k => dTask d k && (decide (dEntry d k * 64 < ofs) || decide (ofs + len ≤ dEntry d k * 64)))

/-- Findings on the carve-outs and the tail (cause 0x05, R58). -/
def carveBad (d : List Word) : Bool :=
  let cs := CoreK.all.map (dCarve d)
  let tail := dTail d
  decide (122 < tail) || cs.any (fun (b, n) => decide (128 < b + n) || overlaps b n tail 6) ||
  cs.zipIdx.any (fun ((b, n), i) => cs.zipIdx.any (fun ((b', n'), i') => decide (i < i') && overlaps b n b' n')) ||
  overlaps (dCodeOfs d) (dCodeLen d) (tail * 4096) 24576

/-- A selector table that breaks R186. What it holds at zero reads as zero (R8). -/
def selBad (w0 : Word) : Bool :=
  let ns := Word.bits w0 0 2 + 1
  let thr := fun k => if k = 0 then 0 else Word.bits w0 (8 * k) 8
  decide (ns ≤ Word.bits w0 32 2) ||
  (List.range ns).any (fun k => k != 0 && decide (thr k ≤ thr (k - 1)))

/-- The causes of R174 that a descriptor shows by itself, and against the launches of its job. -/
def State.launchCauses (s : State) (j : Job) (d : List Word) : List Nat :=
  let gang := dGang d
  let n := dTiles d
  let c := fun (b : Bool) (k : Nat) => if b then [k] else []
  c (Word.bits (wd d 0) 56 8 != 1 || launchRz d || decide (5 < dRmode d)) 1 ++
  c (gang == 0 || decide (16 < gang) || n == 0 || decide (1024 < n) || n % gang != 0) 2 ++
  c (dFixed d && gang != 0 && (List.range (n / gang)).any (fun g =>
    let a := dBase d + g * gang
    a / 16 != (a + gang - 1) / 16 || decide (0x3FF < a + gang - 1))) 3 ++
  c (imageBad d) 4 ++ c (carveBad d) 5 ++ c (decide (dCydl d < 1024) || decide (2 ^ 20 < dCydl d)) 6 ++
  c (decide (4096 < dVtBase d + n) || s.launches.any (fun l => l.jid == j.jid && decide (l.state < 2) &&
    overlaps (dVtBase l.d) (dTiles l.d) (dVtBase d) n)) 7 ++
  c (j.cancelled || j.state != 1) 0x0A

/-- The first fault among the walks of a range of a job's memory. -/
def State.rangeFault (s : State) (j : Job) (va n : Nat) : Option (Byte × Nat) :=
  (pagePieces va n).findSome? (fun (a, _) => match s.xlateJob j false a with
    | .ok _ => none
    | .error f => some f)

/-- The two words of a launch's selector table; zeros for none. -/
def State.selTable (s : State) (j : Job) (d : List Word) : Except (Byte × Nat) (Word × Word) :=
  if dSelTab d = 0 then .ok (0, 0)
  else match s.gBytes j (dSelTab d) 16 with
    | .ok (bs, _) => .ok (wd (wordsOf bs) 0, wd (wordsOf bs) 1)
    | .error f => .error f

/-- What a launch's descriptor names that cannot be reached: its selector table, its record and its code image (cause 0x09 of
R174). -/
def State.launchFaults (s : State) (j : Job) (l : Launch) : List (Byte × Nat) :=
  (match s.selTable j l.d with
    | .error f => [f]
    | .ok _ => []) ++
  (match s.xlateJob j true l.cnta with
    | .error f => [f]
    | .ok _ => []) ++ (s.rangeFault j (dCodeVa l.d) (dCodeLen l.d)).toList

/-- A command processor takes a launch descriptor (R174, R176): the launch is queued, or refused with the lowest cause. A machine
check that it meets is recorded (R440). -/
def State.dispatch (s : State) (j : Job) (addr : Nat) (run : Option Nat) : Nat × State :=
  let l0 : Launch := { id := s.nextId, jid := j.jid, d := [], state := 0, cause := 0, ended := 0, cancelledN := 0,
                       queuedAt := s.gtc, placedAt := 0, tiles := [], aged := false, cancelled := false, saved := [],
                       run := run, grp := none, slice := [], grp0 := none }
  let s := { s with nextId := s.nextId + 1 }
  match s.gBytes j addr 128 with
  | .error f => (l0.id, { s.noteBad f with launches := s.launches ++ [{ l0 with state := 3, cause := 9 }] })
  | .ok (bs, s) =>
    let l := { l0 with d := wordsOf bs }
    let bad := match s.selTable j l.d with
      | .error _ => []
      | .ok (w0, _) => if dSelTab l.d ≠ 0 ∧ selBad w0 then [8] else []
    let faults := s.launchFaults j l
    let causes := s.launchCauses j l.d ++ bad ++ faults.map (fun _ => 9)
    let s := faults.foldl State.noteBad { s with launches := s.launches ++ [l] }
    let s := (s.launchCounts l).launchState l
    match causes with
    | [] => (l.id, s)
    | c :: cs =>
      let l := { l with state := 3, cause := cs.foldl Nat.min c }
      (l.id, (s.setLaunch l).launchState l)

/-! ## Placing (R175, R177) -/

/-- A tile with no watch on it that is not draining. -/
def State.tileFree (s : State) (t : Nat) : Bool := (s.tile t).watch.isNone && !(s.tile t).draining

/-- The tiles of a launch, in the order of its grid, among tiles that are free. -/
def fitTiles (free : Nat → Bool) (d : List Word) : Option (List Nat) :=
  let gang := dGang d
  if dFixed d then
    let ts := (List.range (dTiles d)).map (dBase d + ·)
    if ts.all free then some ts else none
  else
    (List.range (dTiles d / gang)).foldl (fun acc _ => acc.bind (fun ts =>
      let fits := fun t => t / 16 == (t + gang - 1) / 16 &&
        (List.range gang).all (fun i => free (t + i) && !ts.contains (t + i))
      ((List.range 1024).find? fits).map (fun t => ts ++ (List.range gang).map (t + ·)))) (some [])

/-- Blocks of AS that a placement leaves alone: those noted for a watch, with their shadows (R397). -/
def Tile.keptBlocks (x : Tile) : List Nat :=
  x.accNote.flatMap (fun (k, _) => if (smGet 0 x.acc k).getLsbD 11 then [k, k + 8] else [k])

/-- The memory of a tile as a placement finds it: LM, WB, AB and the blocks not noted are zero (R62, R177). -/
def State.wipeTile (s : State) (t : Nat) : State :=
  let x := s.tile t
  let kept := x.keptBlocks
  let mem := smClear s.mem (tileKey t 0 0) (tileKey t 3 0)
  let gone := (List.range 16).filter (fun k => !kept.contains k)
  let mem := gone.foldl (fun m k => smClear m (tileKey t 3 (k * 16384)) (tileKey t 3 (k * 16384 + 16384))) mem
  let lo := tileKey t 0 0
  let s := { s with mem := mem, poison := s.poison.filter (fun p => !(lo ≤ p && p < tileKey t 3 0) &&
    !gone.any (fun k => tileKey t 3 (k * 16384) ≤ p && p < tileKey t 3 (k * 16384 + 16384))) }
  let s := s.conflict ((s.tiles.flatMap (fun (_, y) => y.cores.flatMap (fun (_, c) =>
    (c.chunk.map (·.rset)).getD []))).filter (fun l => decide (lineOf lo ≤ l) && decide (l < lineOf (tileKey t 3 0))))
  s.setTile t { Tile.init with acc := x.acc.filter (fun (k, _) => kept.contains k), accNote := x.accNote, tlb := x.tlb }

/-- Blocks noted for other watches of a job leave a tile before it takes a watch of that job (R397). -/
def State.spillOwn (s : State) (t jid vtn : Nat) : State :=
  (s.tile t).accNote.foldl (fun s (k, o) =>
    if o.1 = jid ∧ o.2 ≠ vtn then s.engineSpill t k else s) s

/-- A core of a new watch (R177). -/
def startCore (d : List Word) (j : Job) (k : CoreK) (t grid sel : Nat) (lm : SMap Byte) : Core :=
  let gang := Nat.max 1 (dGang d)
  let vtn := dVtBase d + grid
  let g := [wd d 7, word grid, word vtn, word (grid / gang * 2 ^ 32 + grid % gang), word t, word (dTiles d)]
  let (cb, cs) := dCarve d k
  let ob := ((wd d 6).toNat + (vtn * 5 + k.idx) * dOlim d * 65536) % 2 ^ 56 / 2 ^ 16
  let c := { Core.init with
    cctx := j.ctx, gsize := dGang d, gpos := grid % gang, iview := lm, cphs := if dPhg d then word sel else 0 }
  if !dTask d k then c
  else { c with
    run := .running
    cpriv := word (cb * 2 ^ 8 + cs)
    covf := word (ob * 2 ^ 16 + dOlim d)
    regs := { Regs.init with
      g := smPutList [] 0 g, ip := word (dEntry d k * 64), crnd := word (dSeed d * 2 ^ 32 + dRmode d),
      csrn := word (vtn * 8 + k.idx), cycles := BitVec.ofNat 21 (dCydl d) } }

/-- Places one new watch of a launch on a free tile, with its code image (R177). -/
def State.placeWatch (s : State) (l : Launch) (j : Job) (grid t sel : Nat) (img : List Byte) : State :=
  let d := l.d
  let vtn := dVtBase d + grid
  let gang := Nat.max 1 (dGang d)
  let s := ((s.spillOwn t j.jid vtn).wipeTile t).commitBytes t none 0 (tileKey t 0 (dCodeOfs d)) img
  let lm := s.lmImage t
  s.updTile t (fun x => { x with
    watch := some { launch := l.id, jid := j.jid, vtn := vtn, grid := grid, gang := grid / gang, gpos := grid % gang,
                    gsize := dGang d, st := .running, placed := s.gtc, now := false }
    csavt := BitVec.ofNat 8 (dTail d)
    cores := CoreK.all.foldl (fun m k => smPut m k.idx (startCore d j k t grid sel lm)) [] })

/-- A phase group as it is created (R183, R186). -/
def Group.new (sel0 : Word) (gtc : Nat) (s0 : Option Nat) : Group :=
  { st := .running, phase := 0, tick := 0, sel := Word.bits sel0 32 2, qlast := 0, relAt := gtc, start := none,
    come := false, lastVtn := 0, cancelledPhase := false, sel0 := sel0, s0 := s0, started := false, slipping := false, gone := [] }

/-! ## Gang-scheduled slices (R402, R403) -/

/-- Whether the part is a member of a segment: a launch with a phase group and a plan is then a gang-scheduled slice (R402;
DESIGN CHOICE, log entry 45). -/
def State.inSegment (s : State) : Bool := s.ports.any (fun (_, p) => p.en)

/-- A slice placed or restored after its join deadline runs nothing of it: its cores take GANG_SLIP at their first boundary
(R403). -/
def State.slipLate (s : State) (id : Nat) : State :=
  match s.launch? id with
  | some l => match l.grp with
    | some g =>
      if g.s0.any (fun s0 => decide (s.slipDeadline s0 < s.gtc)) then
        let l := { l with grp := some { g with s0 := none } }
        (s.setLaunch l).pendGroup l 9 Code.gangSlip
      else s
    | none => s
  | none => s

/-- Places a queued launch whole, if its tiles are free (R175). A code image that cannot be read any more refuses it, and its run
ends FAULTED (R179). A slice is placed to begin at the last planned start at or before the time it was queued (DESIGN CHOICE, log
entry 45). -/
def State.placeLaunch (s : State) (l : Launch) : Option State := do
  let j ← s.job? l.jid
  let ts ← fitTiles s.tileFree l.d
  match s.gBytes j (dCodeVa l.d) (dCodeLen l.d) with
  | .error f =>
    let l := { l with state := 3, cause := 9 }
    return (((s.noteBad f).setLaunch l).launchState l).refuseRun l
  | .ok (img, s) =>
    let (sel0, s) := match State.selTable s j l.d with
      | .ok (w0, _) => (w0, s)
      | .error f => (0, State.noteBad s f)
    let s0 := if s.inSegment then j.plan.map (fun p => planBefore p l.queuedAt) else none
    let grp := if dPhg l.d then some (Group.new sel0 s.gtc s0) else none
    let l := { l with state := 1, placedAt := s.gtc, tiles := ts, grp := grp, grp0 := grp }
    let s := (s.setLaunch l).launchState l
    let s := (ts.zipIdx.foldl (fun s (t, i) => s.placeWatch l j i t (Word.bits sel0 32 2) img) s).slipLate l.id
    return if CoreK.all.all (fun k => !dTask l.d k) then ts.foldl (fun s t => s.watchExit t) s else s

/-- LAUNCH_DISPATCH (R174). -/
def execLaunchDispatch (jid : Nat) (addr : Word) (s : State) : Out := .next (
  match s.job? jid with
  | some j => (s.dispatch j (addr.toNat % 2 ^ 56) none).2
  | none => s)

end Sys2Proof.Machine
end

