-- ==== Sys2Proof/Machine/Save.lean ====
section
/-!
DEFINITION. Saving and restoring a watch, and the abort of a gang-scheduled slice (R72, R392 to R397, R400, R403).
Log entries (notes/assumptions): 18 DEDUCED, 19 DEDUCED, 20 DEDUCED, 45 DESIGN CHOICE, 52 DEDUCED.
-/
namespace Sys2Proof.Machine

/-! ## What a core writes at a save (R392, R393) -/

/-- Spills every return entry and every resident caller register of the acting core to its private space, as R238 does. -/
def spillAll : Exec Unit := do
  let r ← getRegs
  for e in r.ras do
    let r ← getRegs
    storeRange 5 (privAddr (8 * r.rcnt)) (toBytes 8 e.toNat)
    modRegs (fun r => { r with rcnt := r.rcnt + 1, ras := r.ras.tail })
  if 0 < r.live then spillWindow r.live

/-- Spills a stopped core's registers; a fault on the way ends the launch as a lack of room does. -/
def State.spillCore (s : State) (t : Nat) (k : CoreK) : State :=
  let s1 := { s with curTile := t, curCore := k }
  let s1 := s1.setMe { s1.me with chunk := some (s1.newChunk t s1.me.regs none 0) }
  match spillAll s1 with
  | .ok (_, s2) => { s2.commitChunk t k with curTile := s.curTile, curCore := s.curCore }
  | .error (.trap i) => match s.launchOn t with
    | some l => s.cancelAll l i.code.toNat
    | none => s
  | .error (.stall _) => s

/-- A stopped core writes its state into the tail; its AUX word stays as it stands. -/
def State.saveCore (s : State) (t : Nat) (k : CoreK) : State :=
  if (s.core t k).run ≠ .stopped then s
  else
    let s := s.spillCore t k
    s.saveArea t k (word (s.readNat 0 (s.areaKey t k + 0x28) 8))

/-- The owner-bit image: LM, WB, then AB slabs, one bit each (R57). -/
def Tile.ownerImage (x : Tile) : List Word :=
  let bits := (List.range 128).map (x.slabEngine 0) ++ (List.range 256).map (x.slabEngine 1) ++
    (List.range 128).map (x.slabEngine 2)
  (chunksOf 8 64 bits).map (fun bs => word (bs.foldr (fun b n => b.toNat + 2 * n) 0))

/-- The WB save states, two bits to a slab (R395). -/
def Tile.wbImage (x : Tile) : List Word :=
  (List.range 8).map (fun i => word ((List.range 32).foldr (fun j n =>
    (smGet WbSt.empty x.wb (32 * i + j)).num + 4 * n) 0))

/-- The semaphores, codebook slots and owner image of the tail (R57). -/
def State.saveTail (s : State) (t : Nat) : State :=
  let x := s.tile t
  let put := fun (s : State) ofs (bs : List Byte) => s.commitWords t (tileKey t 0 (x.tailOfs + ofs)) (wordsOf bs)
  let s := put s 0x5800 ((List.range 256).flatMap (fun i => toBytes 2 (smGet 0 x.sems i).toNat))
  let s := put s 0x5A00 ((List.range 128).flatMap (fun i => toBytes 2 (smGet 0 x.cb i).toNat))
  put s 0x5B00 (bytesOfWords x.ownerImage ++ List.replicate (192 + 1024) 0)

/-- The S-core's z registers as bytes (R71). -/
def Regs.zBytes (r : Regs) : List Byte := (List.range 512).flatMap (fun i => toBytes 128 (smGet 0 r.zregs i).toNat)

/-- Streams bytes of a tile memory into a record, 4 KiB at a time. A piece with a bad word is not delivered: the machine check
is counted, and the launch is cancelled with its code, for the record cannot be restored (R69, R404; DESIGN CHOICE, log
entry 18). -/
def State.streamOut (s : State) (j : Job) (t buf ofs n va : Nat) : State :=
  (List.range (n / 4096)).foldl (fun s i =>
    let key := tileKey t buf (ofs + 4096 * i)
    match s.badWord key 4096 with
    | some p =>
      let s := s.logCheck t (badTrap t p).code (badTrap t p).cfad
      ((s.launchOn t).map (fun l => s.cancelAll l 0xF0)).getD s
    | none => s.gStore j (va + 4096 * i) (s.readBytes 0 key 4096)) s

/-- The first word of a record's header (R395). -/
def Tile.headWord (x : Tile) : Word :=
  let bit := fun (p : Core → Bool) (at_ : Nat) => CoreK.all.foldl (fun n k =>
    n + (p (x.core k)).toNat * 2 ^ (at_ + k.idx)) 0
  word (2 ^ 63 + bit (·.forced) 8 + bit (fun c => c.run != .off) 0)

/-- The row save engine streams a watch's record; the header's first word is written last (R71, R395, R397). -/
def State.saveRecord (s : State) (j : Job) (t vtn : Nat) : State :=
  let base := recordBase j vtn
  let x := s.tile t
  let put := fun (s : State) ofs (ws : List Word) => s.gStore j (base + ofs) (bytesOfWords ws)
  let src := (List.range 256).map (fun i => match smGet WbSt.empty x.wb i with
    | .clean a => a
    | _ => 0)
  let abs := (x.core .m).regs.cacc
  let s := put s 0x1000 src
  let s := s.gStore j (base + 0x10000) (x.core .s).regs.zBytes
  let s := s.streamOut j t 0 0 0x80000 (base + 0x20000)
  let s := s.streamOut j t 2 0 0x80000 (base + 0xA0000)
  let s := (List.range 256).foldl (fun s i =>
    if smGet WbSt.empty x.wb i = .dirty then s.streamOut j t 1 (4096 * i) 4096 (base + 0x200000 + 4096 * i) else s) s
  let s := put s 0x08 ([word s.gtc, word t, word x.csavt.toNat] ++
    CoreK.all.map (fun k => (x.core k).regs.cspill) ++ List.replicate 7 0 ++ x.ownerImage)
  let s := (List.range 16).foldl (fun s k => if abs.getLsbD k then s else put s (0xC0 + 8 * k) [0]) s
  let s := put s 0x140 (x.wbImage ++ List.replicate 464 0)
  put s 0 [x.headWord]

/-- Step 1 of R72: a BUSY copy whose 4 KiB pieces in flight have landed becomes SUSPENDED (R66, R400). -/
def State.suspendCopies (s : State) (t : Nat) : State :=
  (List.range 64).foldl (fun s n =>
    let r := (s.tile t).tag n
    if r.st = .busy ∧ !s.transferDue r.transfer ∧ r.doneb = r.front ∧ r.doneb < r.total then
      (s.updTile t (fun x => x.setTag n { r with st := .suspended, got := [], asked := [], ans := [] })).noteTag t n
    else s) s

/-- Every engine instruction of a tile has ended, and no copy moves. -/
def State.enginesIdle (s : State) (t : Nat) : Bool :=
  let x := s.tile t
  x.mq.isEmpty && x.zq.isEmpty && x.tags.all (fun (_, r) => r.st != .busy) &&
  !(s.ports.any (fun (_, p) => p.queue.any (fun e => e.t == t)))

/-- Steps 1 to 4 of R72 on a watch whose cores have all stopped. -/
def State.watchSave (s : State) (t : Nat) : State :=
  match (s.tile t).watch with
  | none => s
  | some w =>
    if w.st ≠ .saving ∨ (s.tile t).draining then s
    else
      let s := s.suspendCopies t
      if !s.enginesIdle t then s
      else match s.job? w.jid with
        | none => s
        | some j =>
          let s := (CoreK.all.foldl (fun s k => s.saveCore t k) s).saveTail t
          (s.saveRecord j t w.vtn).updTile t (fun x => { x with watch := some { w with st := .written } })

/-- WATCH_SAVE (R72). -/
def execWatchSave (t : Nat) (s : State) : Out := .next (s.watchSave t)

/-! ## The end of a save (R389, R395, R397) -/

/-- The bit of PEND for an item of a core: items 4 to 8 from bit 8k + 4 down. -/
def pendBit (k : CoreK) (item : Nat) : Nat := 8 * k.idx + 8 - item

/-- The items of PEND that are pending on a core, in their order. -/
def Core.pendItems (c : Core) : List Nat := [4, 5, 6, 7, 8].filter (fun n => c.pend.any (fun p => p.item == n))

/-- Writes PEND, and the CFAD and CFDW of each core's first pending event into its saved frame (R395). -/
def State.savePend (s : State) (j : Job) (t vtn : Nat) : State :=
  let base := recordBase j vtn
  let x := s.tile t
  let s := CoreK.all.foldl (fun s k =>
    match (x.core k).pendItems with
    | [] => s
    | n :: _ => match (x.core k).pend.find? (fun p => p.item == n) with
      | some p => s.gStore j (base + 0x20000 + x.tailOfs + areaOfs k + 0x18)
          (bytesOfWords [p.info.cfad, word p.info.cfdw.toNat])
      | none => s) s
  s.gStore j (base + 0x48) (toBytes 8 (CoreK.all.foldl (fun a k =>
    (x.core k).pendItems.foldl (fun a n => a + 2 ^ pendBit k n) a) 0))

/-- Blocks that hold a context's tag, shadows among them, are noted for its watch (R397). -/
def Tile.noteBlocks (x : Tile) (ctx : Byte) (o : Nat × Nat) : Tile :=
  { x with accNote := (List.range 16).foldl (fun m k =>
      let w := smGet 0 x.acc k
      if accTag w = ctx.toNat ∧ ctx ≠ 0 ∧ (smFind m k).isNone then smPut m k o else m) x.accNote }

/-- The record is complete: the watch is SAVED and its tile free; a watch of a cancelled launch ends (R190, R389). -/
def State.saveComplete (s : State) (t : Nat) : State :=
  match (s.tile t).watch with
  | none => s
  | some w =>
    if w.st ≠ .written then s
    else match s.job? w.jid, s.launch? w.launch with
      | some j, some l =>
        let s := (s.semOverflow t).savePend j t w.vtn
        let x := s.tile t
        let sv : Saved := { vtn := w.vtn, grid := w.grid, gang := w.gang, gpos := w.gpos, tile := t, at_ := s.gtc,
                            cores := x.cores.map (fun (k, c) => (k, { c with
                              pend := c.pend.filter (fun p => p.item < 4 || 8 < p.item) }))
                            semPtr := x.semPtr, tags := x.tags, kept := [], anew := false }
        let y := x.noteBlocks j.ctx (j.jid, w.vtn)
        let s := s.setTile t { Tile.init with acc := y.acc, accNote := y.accNote, tlb := y.tlb, csavt := y.csavt }
        let l := (s.launch? w.launch).getD l
        ((s.setLaunch { l with tiles := l.tiles.filter (fun u => u != t), saved := l.saved ++ [sv] }).endCancelled l.id).migSettle
      | _, _ => s

/-- SAVE_COMPLETE (R389). -/
def execSaveComplete (t : Nat) (s : State) : Out := .next (s.saveComplete t)

/-! ## Restoring (R72, R396) -/

/-- A tag record as its words give it, beside what they do not hold (R64): the pieces past DONEB that have moved stay moved,
unless DONEB has been changed. -/
def TagRec.ofWords (r : TagRec) (w : List Word) : TagRec :=
  let f := fun i lo n => Word.bits (wd w i) lo n
  let r := if f 0 0 32 = r.shown then r else { r with doneb := f 0 0 32, front := f 0 0 32, ahead := [] }
  { r with
    st := match f 0 61 3 with
      | 1 => .busy
      | 2 => .done
      | 3 => .faulted
      | 4 => .suspended
      | _ => .free
    ssem := f 0 44 8, sinc := f 0 41 3, kind := f 0 36 5, rows := f 1 32 32, rowlen := f 1 0 32,
    src := wd w 2, dst := wd w 3, spitch := f 4 32 32, dpitch := f 4 0 32, fad := wd w 5, fdw := (wd w 6).truncate 32 }

/-- The copies of a restored watch: a SUSPENDED one is BUSY again and raises P; no other holds any (R72, R396). -/
def State.restoreTags (s : State) (t : Nat) (tags : SMap TagRec) : State :=
  let ofs := (s.tile t).tailOfs + 0x4800
  (List.range 64).foldl (fun s n =>
    let ws := wordsOf (s.readBytes 0 (tileKey t 0 (ofs + 64 * n)) 64)
    let r := (smGet TagRec.init tags n).ofWords ws
    if r.st = .suspended then
      (s.updTile t (fun x => (x.addP r.held).setTag n { r with st := .busy })).noteTag t n
    else s.updTile t (fun x => x.setTag n { r with held := [] })) s

/-- The code of an item of PEND; a BUS_ fault keeps the code that its CFDW holds. -/
def itemCode (n : Nat) (cfdw : BitVec 32) : Byte :=
  match n with
  | 4 => BitVec.ofNat 8 (cfdw.toNat / 2 ^ 24)
  | 5 => Code.matrixMismatch
  | 6 => Code.semOverflow
  | 7 => Code.tickSlip
  | _ => Code.cancel

/-- The pending events that PEND gives a core (R395). -/
def pendOf (k : CoreK) (pend : Word) (t : Nat) (r : Regs) : List PendEv :=
  (([4, 5, 6, 7, 8].filter (fun n => pend.getLsbD (pendBit k n))).zipIdx).map (fun (n, i) =>
    if i = 0 then { item := n, info := { code := itemCode n r.cfdw, cfad := r.cfad, cfdw := r.cfdw, aux := 0 } }
    else { item := n, info := mkTrap (itemCode n r.cfdw) 0 0 15 t 0x3F })

/-- The pending events of a restored core: those of PEND, those that the save record does not hold, and those that have arisen
since the save (R189, R395). -/
def pendBack (since saved : List PendEv) : List PendEv :=
  since.filter (fun p => p.item < 4 || 8 < p.item) ++ saved ++
  since.filter (fun p => 4 ≤ p.item && p.item ≤ 8 && !saved.any (fun q => q.item == p.item))

/-- A core of a restored watch: it resumes at CTPC, if its task had not ended (R396). -/
def State.restoreCore (s : State) (t : Nat) (k : CoreK) (old : Core) (head pend : Word) (abs : BitVec 16)
    (z : List Byte) : State :=
  let ran := head.getLsbD k.idx
  let s := s.setCore t k { old with regs := { Regs.init with ras := old.regs.ras } }
  let s := if ran then s.loadArea t k else s
  s.updCore t k (fun c =>
    let r := c.regs.trapReturn
    let r := if k = .m then { r with cacc := abs } else r
    let r := if k = .s then { r with zregs := smPutList [] 0 ((chunksOf 512 128 z).map (fun b => BitVec.ofNat 1024 (ofBytes b))) }
      else r
    { c with
      regs := r, run := if ran then .running else .off, prq := false, left := 0, forced := false, chunk := none,
      waiting := none, granted := false, stalled := false, join := none, ext := none, walks := [], iview := s.lmImage t
      pend := pendBack (if ran then c.pend else []) (if ran then pendOf k pend t r else []) })

/-- What a restore reads of a record before it touches the tile. -/
structure Record where
  head : List Word
  src : List Word
  z : List Byte
  lm : List Byte
  ab : List Byte
  /-- Bytes of each WB slab that is not EMPTY. -/
  wb : List (Nat × List Byte)
deriving DecidableEq, Repr

/-- The save state of slab i in a header. -/
def headWb (head : List Word) (i : Nat) : Nat := Word.bits (wd head (40 + i / 32)) (2 * (i % 32)) 2

/-- Reads a record; CLEAN slabs come from their source under the translation of now (R72). A source that cannot be read or
translated is a fault of the read, and so of the restore (DESIGN CHOICE, log entry 52: R72 is silent). -/
def State.readRecord (s : State) (j : Job) (base : Nat) : Except (Byte × Nat) (Record × State) := do
  let (h, s) ← s.gBytes j base 4096
  let (src, s) ← s.gBytes j (base + 0x1000) 2048
  let (z, s) ← s.gBytes j (base + 0x10000) 65536
  let (lm, s) ← s.gBytes j (base + 0x20000) 0x80000
  let (ab, s) ← s.gBytes j (base + 0xA0000) 0x80000
  let head := wordsOf h
  let srcs := wordsOf src
  let (wb, s) ← (List.range 256).foldlM (fun (m, s) i => do
    if headWb head i = 0 then return (m, s)
    else
      let (b, s) ← State.gBytes s j
        (if headWb head i = 1 then (wd srcs i).toNat % 2 ^ 56 else base + 0x200000 + 4096 * i) 4096
      return (m ++ [(i, b)], s)) (([] : List (Nat × List Byte)), s)
  return ({ head := head, src := srcs, z := z, lm := lm, ab := ab, wb := wb }, s)

/-- A WB slab that holds bytes which the specification leaves open (R72). -/
def openSlab (free : Nat) : List Byte := (List.range 4096).map (Config.freeByte free)

/-- Loads a record into a tile that has just been wiped, and starts the watch there (R396). -/
def State.loadRecord (s : State) (l : Launch) (j : Job) (w : Saved) (t : Nat) (r : Record) : State :=
  let csavt := BitVec.ofNat 8 (Word.bits (wd r.head 3) 0 8)
  let put := fun (s : State) b o (bs : List Byte) => s.commitBytes t none 0 (tileKey t b o) bs
  let s := put (put s 0 0 r.lm) 2 0 r.ab
  let s := (List.range 256).foldl (fun s i => match r.wb.find? (fun e => e.1 == i) with
    | some (_, b) => put s 1 (4096 * i) b
    | none => put { s with free := s.free + 1 } 1 (4096 * i) (openSlab s.free)) s
  let owner := fun n => (wd r.head (16 + n / 64)).getLsbD (n % 64)
  let tail := csavt.toNat * 4096
  let s := s.updTile t (fun x =>
    let y := (List.range 512).foldl (fun y n =>
      if n < 128 then y.setSlabEngine 0 n (owner n)
      else if n < 384 then y.setSlabEngine 1 (n - 128) (owner n) else y.setSlabEngine 2 (n - 384) (owner n)) x
    { y with
      csavt := csavt, semPtr := w.semPtr
      watch := some { launch := l.id, jid := j.jid, vtn := w.vtn, grid := w.grid, gang := w.gang, gpos := w.gpos,
                      gsize := dGang l.d, st := .running, placed := s.gtc, now := false }
      wb := (List.range 256).foldl (fun m i => smPut m i (match headWb r.head i with
        | 0 => .empty
        | 1 => .clean (wd r.src i)
        | _ => .dirty)) []
      sems := smPutList [] 0 ((chunksOf 256 2 ((r.lm.drop (tail + 0x5800)).take 512)).map (fun b => BitVec.ofNat 16 (ofBytes b)))
      cb := smPutList [] 0 ((chunksOf 128 2 ((r.lm.drop (tail + 0x5A00)).take 256)).map (fun b => BitVec.ofNat 16 (ofBytes b)))
      accNote := y.accNote.filter (fun (_, o) => o != (j.jid, w.vtn)) })
  let abs := (List.range 16).foldl (fun (a : BitVec 16) k =>
    if accTag (wd r.head (24 + k)) ≠ 0 then a ||| BitVec.ofNat 16 (2 ^ k) else a) 0
  let s := CoreK.all.foldl (fun s k =>
    s.restoreCore t k (smGet Core.init w.cores k.idx) (wd r.head 0) (wd r.head 9) abs r.z) s
  s.restoreTags t w.tags

/-- Blocks that a watch left on other tiles, and blocks of its job on the tile it takes, are spilled first (R397). -/
def State.spillFor (s : State) (jid vtn t : Nat) : State :=
  let s := s.spillOwn t jid vtn
  (s.tiles.filter (fun (u, _) => u != t)).foldl (fun s (u, x) => x.accNote.foldl (fun s (k, o) =>
    if o = (jid, vtn) then s.engineSpill u k else s) s) s

/-- Places a watch of a launch on a tile as a new one, under the schedule of its group at the slice's start (R177, R403). -/
def State.placeAnew (s : State) (l : Launch) (j : Job) (grid t : Nat) : State :=
  match s.gBytes j (dCodeVa l.d) (dCodeLen l.d) with
  | .ok (img, s) => s.placeWatch l j grid t ((l.grp0.map Group.sel).getD 0) img
  | .error f => (s.noteBad f).cancelAll l.id f.1.toNat

/-- Every core of a tile that runs a task has GANG_SLIP to take (R403). -/
def State.pendSlip (s : State) (t : Nat) : State :=
  CoreK.all.foldl (fun s k => s.pendCore t k 9 (groupTrap t Code.gangSlip)) s

/-- Restores a saved watch on a free tile; a record that cannot be read cancels its launch, and so does the source of a CLEAN slab
that cannot be (DESIGN CHOICE, log entry 52). A watch that an abort has to place anew is placed. -/
def State.restoreOn (s : State) (l : Launch) (j : Job) (w : Saved) (t : Nat) : State :=
  if w.anew then (s.placeAnew l j w.grid t).pendSlip t
  else
    let s := s.spillFor j.jid w.vtn t
    match s.readRecord j (recordBase j w.vtn) with
    | .error f => (s.noteBad f).cancelAll l.id f.1.toNat
    | .ok (r, s) => (s.wipeTile t).loadRecord l j w t r

/-- The planned start at which a restored group's slice begins: that of the phase it waits for. A group saved within a phase
is not restored to begin at one (R187, R402; DESIGN CHOICE, log entry 45). -/
def sliceStart (j : Job) (g : Group) : Option Nat :=
  if g.st = .running then none else j.plan.map (fun p => planStart p g.tick g.phase)

/-- The blocks that a watch's save has left on a tile, as they stand (R397). -/
def State.keptFor (s : State) (t : Nat) (o : Nat × Nat) : List (Nat × Word × SMap Byte) :=
  ((s.tile t).accNote.filter (fun (_, q) => q == o)).map (fun (k, _) =>
    let lo := tileKey t 3 (k * 16384)
    (k, (s.tile t).block k, smUnshift (smRange s.mem lo (lo + 16384)) lo))

/-- Puts blocks back as they stood (R403). -/
def State.putKept (s : State) (t : Nat) (bs : List (Nat × Word × SMap Byte)) : State :=
  bs.foldl (fun s (k, w, m) =>
    let s := (s.asClear t k).updTile t (fun x => x.setBlock k w)
    { s with mem := m.foldl (fun u (o, b) => smSet 0 u (tileKey t 3 (k * 16384 + o)) b) s.mem }) s

/-- The tile of a watch of a gang that is to stand at a base. -/
def gangSpots (l : Launch) (ws : List Saved) (base : Nat) : Option (List (Saved × Nat)) :=
  if base / 16 ≠ (base + Nat.max 1 (dGang l.d) - 1) / 16 then none else some (ws.map (fun w => (w, base + w.gpos)))

/-- Where the saved watches of a gang can be restored: beside the members that are still placed, at the fixed place, or at
the lowest place that fits (R175, R396). -/
def State.gangFit (s : State) (l : Launch) (gang : Nat) (ws : List Saved) : Option (List (Saved × Nat)) :=
  let here := l.tiles.findSome? (fun t => match (s.tile t).watch with
    | some v => if v.gang = gang then some (t - v.gpos) else none
    | none => none)
  let ok := fun base => (gangSpots l ws base).any (fun ps => ps.all (fun (_, t) => s.tileFree t))
  let base := match here with
    | some b => some b
    | none => if dFixed l.d then some (dBase l.d + gang * dGang l.d) else (List.range 1024).find? ok
  match base with
  | some b => if ok b then gangSpots l ws b else none
  | none => none

/-- Restores the saved watches of one gang of a launch, if its tiles are free (R396). -/
def State.restoreGang (s : State) (id gang : Nat) : Option State := do
  let l ← s.launch? id
  let j ← s.job? l.jid
  let ws := l.saved.filter (fun w => w.gang == gang)
  if l.state ≠ 1 ∨ l.cancelled ∨ ws.isEmpty then none
  else
    let ps ← s.gangFit l gang ws
    let l1 := { l with
      saved := l.saved.filter (fun w => w.gang != gang), tiles := l.tiles ++ ps.map (·.2),
      slice := l.slice.filter (fun w => w.gang != gang) ++
        (ps.filter (fun (w, _) => !w.anew)).map (fun (w, t) => { w with kept := s.keptFor t (j.jid, w.vtn) })
      grp := l.grp.map (fun g => { g with s0 := if s.inSegment then sliceStart j g else none, started := false })
      grp0 := l.grp }
    return (ps.foldl (fun s (w, t) => s.restoreOn l1 j w t) (s.setLaunch l1)).slipLate id

/-! ## Gang slip (R402, R403) -/

/-- Engine instructions of a tile run to their end: steps 1 and 2 of R72 at an abort. -/
def State.runEngines (s : State) (t : Nat) : State :=
  let s := (List.range (3 * (s.tile t).mq.length)).foldl (fun s _ => s.matrixDone t) s
  (List.range (s.tile t).zq.length).foldl (fun s _ => s.stochDone t) s

/-- The exchanges of a tile are withdrawn: their P falls, and nothing is written or signalled. -/
def State.withdraw (s : State) (t : Nat) : State :=
  [false, true].foldl (fun s p =>
    ((((s.port p).queue.filter (fun e => e.t == t)).foldl (fun s e => s.dropExch p e) s)).rearm p) s

/-- A core's chunk commits up to the boundary where it stands. -/
def State.settleChunk (s : State) (t : Nat) (k : CoreK) : State :=
  match s.boundary t k with
  | .inl s => s
  | .inr s => s

/-- Step 1 of an abort on a tile: its cores stop at their boundaries, its engines end, its exchanges are withdrawn, and its copies
stop behind the pieces in flight. -/
def State.slipStop (s : State) (t : Nat) : State :=
  let s := ((CoreK.all.foldl (fun s k => s.settleChunk t k) s).runEngines t).withdraw t
  (s.updTile t (fun x => { x with
    watch := x.watch.map (fun w => if w.st = .requested then { w with st := .running } else w)
    cores := x.cores.map (fun (k, c) => (k, if c.run = .running then { c with run := .stopped, prq := false } else c)) })).suspendCopies t

/-- The tile tasks of a launch that come back, for some that had ended (R176, R403). -/
def State.countBack (s : State) (id n : Nat) : State :=
  match s.launch? id with
  | some x => if n = 0 then s else (let x := { x with ended := x.ended - n }; (s.setLaunch x).launchCounts x)
  | none => s

/-- One watch of an aborted slice that stands on its tile, be it draining, is put back to its state at the slice's start, and takes
GANG_SLIP. -/
def State.slipWatch (s : State) (l : Launch) (j : Job) (t : Nat) : State :=
  match (s.tile t).watch with
  | none => s
  | some w =>
    let off := (CoreK.all.filter (fun k => (s.core t k).run == .off)).length
    let s := match l.slice.find? (fun v => v.vtn == w.vtn) with
      | some v => (s.restoreOn l j v t).putKept t v.kept
      | none => s.placeAnew l j w.grid t
    (s.countBack l.id (off - (CoreK.all.filter (fun k => (s.core t k).run == .off)).length)).pendSlip t

/-- A watch of a launch that is to be placed anew (R403). -/
def anewWatch (d : List Word) (grid t gtc : Nat) : Saved :=
  let gang := Nat.max 1 (dGang d)
  { vtn := dVtBase d + grid, grid := grid, gang := grid / gang, gpos := grid % gang, tile := t, at_ := gtc
    cores := CoreK.all.foldl (fun m k => smPut m k.idx { Core.init with run := if dTask d k then .running else .off }) []
    semPtr := .c, tags := [], kept := [], anew := true }

/-- A core of a saved watch that runs a task has GANG_SLIP to take. -/
def Core.slips (c : Core) (t : Nat) : Core :=
  if c.run = .off ∨ c.pend.any (fun p => p.item == 9) then c
  else { c with pend := c.pend ++ [{ item := 9, info := groupTrap t Code.gangSlip }] }

/-- A watch of an aborted slice that is saved takes GANG_SLIP when it is restored. One saved before the slice's start is as it was then;
one saved since waits to be placed anew, or, when the slice had begun by restoring it, stays as that save has left it, for its
record has been written again (DESIGN CHOICE, log entry 45). -/
def slipSaved (l : Launch) (s0 gtc : Nat) (w : Saved) : Saved :=
  if l.slice.any (fun v => v.vtn == w.vtn) || w.anew || decide (w.at_ < s0) then
    { w with cores := w.cores.map (fun (k, c) => (k, Core.slips c w.tile)) }
  else anewWatch l.d w.grid w.tile gtc

/-- The watches of an aborted slice that stand on no tile: those saved since its start, and those that have ended and left their
tile, wait for tiles again (R403). -/
def State.slipAway (s : State) (l : Launch) (s0 : Nat) : State :=
  let here := l.tiles.filterMap (fun t => (s.tile t).watch.map (·.grid))
  let gone := (List.range (dTiles l.d)).filter (fun g => !here.contains g && !l.saved.any (fun w => w.grid == g))
  let back := gone.map (fun g => (l.slice.find? (fun v => v.grid == g)).getD (anewWatch l.d g 0 s.gtc))
  let saved := l.saved.map (slipSaved l s0 s.gtc)
  let n := back.foldl (fun n w => n + w.running) 0 + ((l.saved.zip saved).foldl (fun n (v, w) => n + (w.running - v.running)) 0)
  let s := (l.saved.filter (fun w => !(slipSaved l s0 s.gtc w == w) && (slipSaved l s0 s.gtc w).anew)).foldl
    (fun s w => s.dropNotes l.jid w.vtn) s
  match s.launch? l.id with
  | some x => (s.setLaunch { x with saved := saved ++ back.map (slipSaved l s0 s.gtc) }).countBack l.id n
  | none => s

/-- A slice is put back to its start, once its engines have come to their end. -/
def State.slipBack (s : State) (l : Launch) (j : Job) (s0 : Nat) : State :=
  let s := l.tiles.foldl (fun s t => s.slipWatch l j t) (s.slipAway l s0)
  match s.launch? l.id with
  | some l => s.setLaunch { l with grp := l.grp0.map (fun g => { g with s0 := none, relAt := s.gtc }) }
  | none => s

/-- The join deadline of a slice passes with no period of its first exchange started (R403). The abort takes effect when no engine
instruction and no piece of a copy is in flight any more. -/
def State.gangSlip (s : State) (id : Nat) : State :=
  match s.launch? id with
  | none => s
  | some l => match l.grp, s.job? l.jid with
    | some g, some j => match g.s0 with
      | some s0 =>
        if l.state ≠ 1 ∨ l.cancelled ∨ (!g.slipping ∧ (g.started ∨ s.gtc ≤ s.slipDeadline s0)) then s
        else
          let s := l.tiles.foldl (fun s t => s.slipStop t) s
          match s.launch? id with
          | none => s
          | some l =>
            if l.tiles.all s.enginesIdle then s.slipBack l j s0
            else s.setLaunch { l with grp := l.grp.map (fun g => { g with slipping := true }) }
      | none => s
    | _, _ => s

/-- GANG_SLIP (R403). -/
def execGangSlip (l : Nat) (s : State) : Out := .next (s.gangSlip l)

end Sys2Proof.Machine
end

