-- ==== Sys2Proof/Machine/Graph.lean ====
section
/-!
DEFINITION. The placer, graph runs and tick plans (R175, R179 to R183, R187, R373, R374, R401).
Log entries (notes/assumptions): 22 DEDUCED, 44 DEDUCED, 46 DEDUCED.
-/
namespace Sys2Proof.Machine

/-! ## The placer (R373) -/

/-- What waits for tiles: a queued launch, or the saved watches of a gang of a launch, which join with the time of their
save. -/
structure Wait where
  pri : Nat
  at_ : Nat
  id : Nat
  gang : Option Nat
deriving DecidableEq, Repr

/-- Inserts before the first entry that stands behind it. -/
def insertBy {α : Type} (before : α → α → Bool) (x : α) : List α → List α
  | [] => [x]
  | y :: ys => if before x y then x :: y :: ys else y :: insertBy before x ys

/-- A list in an order; entries that tie keep their places. -/
def sortBy {α : Type} (before : α → α → Bool) (xs : List α) : List α := xs.foldl (fun acc x => insertBy before x acc) []

/-- The priority of a job. -/
def State.priOf (s : State) (jid : Nat) : Nat := ((s.job? jid).map (·.pri)).getD 0

/-- The placer's list: highest priority first, then the oldest. What belongs to a virtual function that is stopped for a
migration is not in it (R432). -/
def State.waits (s : State) : List Wait :=
  sortBy (fun a b => decide (b.pri < a.pri) || (a.pri == b.pri && decide (a.at_ < b.at_)))
    (s.launches.flatMap (fun l =>
      if (s.job? l.jid).any s.vfHeld then []
      else if l.state = 0 then [{ pri := s.priOf l.jid, at_ := l.queuedAt, id := l.id, gang := none }]
      else if l.state = 1 ∧ !l.cancelled then
        ((l.saved.map (·.gang)).dedup).map (fun g =>
          { pri := s.priOf l.jid, id := l.id, gang := some g
            at_ := ((l.saved.filter (fun w => w.gang == g)).map (·.at_)).foldl Nat.min s.gtc })
      else []))

/-- Whether an entry is an aged launch: QUEUED for more than 2 ms. -/
def State.isAged (s : State) (w : Wait) : Bool :=
  w.gang.isNone && (s.launch? w.id).any (fun l => l.aged || decide (l.queuedAt + 2000000 < s.gtc))

/-- Tries one entry. -/
def State.placeOne (s : State) (w : Wait) : Option State :=
  match w.gang with
  | none => (s.launch? w.id).bind s.placeLaunch
  | some g => s.restoreGang w.id g

/-- Sends a pre-emption request to the watch on a tile (R389, R61). -/
def State.request (s : State) (t : Nat) : State :=
  match (s.tile t).watch with
  | none => s
  | some w =>
    if w.st ≠ .running then s
    else s.updTile t (fun x => { x with
      watch := some { w with st := .requested }
      cores := x.cores.map (fun (k, c) => (k, if c.run ≠ .running ∨ c.regs.park then c
        else { c with prq := true, left := c.regs.cycles.toNat })) })

/-- The watches that may be asked to leave for an aged launch: of jobs of lower priority, the lowest first and within one
the last placed first; none with a core that parks (R61). -/
def State.choosable (s : State) (pri : Nat) : List Nat :=
  let ts := s.tiles.filterMap (fun (t, x) => match x.watch with
    | some w =>
      if w.st = .running ∧ !x.draining ∧ s.priOf w.jid < pri ∧ !x.cores.any (fun (_, c) => c.run != .off && c.regs.park) then
        some (t, s.priOf w.jid, w.placed)
      else none
    | none => none)
  (sortBy (fun (a : Nat × Nat × Nat) b => decide (a.2.1 < b.2.1) || (a.2.1 == b.2.1 && decide (b.2.2 < a.2.2))) ts).map (·.1)

/-- Pre-emption requests for an aged launch, until the tiles that are free, draining or asked for would fit it (R373). -/
def State.requestFor (s : State) (id : Nat) : State :=
  match s.launch? id with
  | none => s
  | some l =>
    let going := fun t => s.tileFree t || (s.tile t).draining || (s.tile t).watch.any (fun w => w.st != .running)
    let cand := s.choosable (s.priOf l.jid)
    let fits := fun (ts : List Nat) => (fitTiles (fun t => going t || ts.contains t) l.d).isSome
    if !fits cand then s
    else
      let n := ((List.range (cand.length + 1)).find? (fun n => fits (cand.take n))).getD 0
      (cand.take n).foldl (fun s t => s.request t) s

/-- One pass of the placer: it places each entry that fits, and none behind an aged launch that does not. -/
def State.placePass (s : State) : State :=
  (s.waits.foldl (fun (s, stop) w =>
    if stop then (s, true)
    else match State.placeOne s w with
      | some s => (s, false)
      | none => if State.isAged s w then (State.requestFor s w.id, true) else (s, false)) (s, false)).1

/-- LAUNCH_PLACE (R175, R373). -/
def execLaunchPlace (s : State) : Out := .next s.placePass

/-- LAUNCH_AGED (R373). -/
def execLaunchAged (l : Nat) (s : State) : Out := .next (
  match s.launch? l with
  | some x =>
    if x.state = 0 ∧ x.queuedAt + 2000000 < s.gtc then (s.setLaunch { x with aged := true }).placePass else s
  | none => s)

/-- WATCH_RESTORE: the saved watches of a launch are restored as the placer's list comes to them (R373, R396). -/
def execWatchRestore (l : Nat) (s : State) : Out := .next (
  if (s.launch? l).any (fun x => !x.saved.isEmpty) then s.placePass else s)

/-- TILE_DRAIN_DONE (R401). -/
def execTileDrainDone (t : Nat) (s : State) : Out := .next (s.drainDone t)

/-! ## Graph runs (R179, R180) -/

/-- Writes a graph record's counts. -/
def State.runCounts (s : State) (r : Run) : State :=
  match s.job? r.jid with
  | some j => s.gPut j (r.grec.toNat % 2 ^ 56) (toBytes 8 (r.nodesRun % 2 ^ 32 + r.dispatched % 2 ^ 32 * 2 ^ 32))
  | none => s

/-- Starts a run of a graph; a header that breaks R179 ends it at once. -/
def State.startRun (s : State) (j : Job) (addr : Nat) (plan : Bool) : Nat × State :=
  let r : Run := { id := s.nextId, jid := j.jid, addr := word addr, grec := 0, nnodes := 0, node := 0, nodesRun := 0,
                   dispatched := 0, launches := [], loops := [], waitL := none, state := 1, cause := 0,
                   cancelled := false, plan := plan, atLoop := false }
  let s := { s with nextId := s.nextId + 1 }
  match s.gBytes j addr 32 with
  | .error f => (r.id, { s.noteBad f with runs := s.runs ++ [{ r with state := 3, cause := 5 }] })
  | .ok (bs, s) =>
    let h := wordsOf bs
    let n := Word.bits (wd h 0) 0 13
    let r := { r with grec := wd h 1, nnodes := n }
    let s := { s with runs := s.runs ++ [r] }
    let s := s.runRecord r
    if Word.bits (wd h 0) 13 51 ≠ 0 ∨ wd h 2 ≠ 0 ∨ wd h 3 ≠ 0 ∨ 4096 < n then (r.id, s.runFault r 1)
    else if n = 0 then (r.id, s.runFault r 2)
    else (r.id, s)

/-- Where a run goes on after node i, with the loops it stands in. -/
def afterNode (i : Nat) : List LoopFr → Nat × List LoopFr
  | [] => (i + 1, [])
  | f :: rest =>
    if i ≠ f.bend then (i + 1, f :: rest)
    else if 1 < f.left then (f.node + 1, { f with left := f.left - 1 } :: rest)
    else afterNode i rest

/-- A node has run: the run goes on at another; behind the last one it ends FAULTED, at the node it leaves (R179, R180). -/
def State.goOn (s : State) (r : Run) (next : Nat × List LoopFr) : State :=
  let r := { r with nodesRun := r.nodesRun + 1, waitL := none, atLoop := false }
  let r' := if r.nnodes ≤ next.1 then r else { r with node := next.1, loops := next.2 }
  let s := (s.setRun r').runCounts r'
  if r.nnodes ≤ next.1 then s.runFault r 2 else s

/-- A launch of a run has completed. -/
def State.launchOver (s : State) (id : Nat) : Bool := (s.launch? id).all (fun l => decide (2 ≤ l.state))

/-- A launch of a run was refused. -/
def State.launchRefused (s : State) (id : Nat) : Bool := (s.launch? id).any (fun l => l.state == 3)

/-- REL on words of a width (R179). -/
def relHolds (rel w a b : Nat) : Bool :=
  match rel with
  | 0 => a == b
  | 1 => a != b
  | 2 => decide (a < b)
  | 3 => decide (b ≤ a)
  | 4 => decide (signedOf w a < signedOf w b)
  | _ => decide (signedOf w b ≤ signedOf w a)

/-- A reserved KIND or REL, or a bit that a node holds at zero (cause 0x01). -/
def nodeBad (n : List Word) : Bool :=
  let k := Word.bits (wd n 0) 60 4
  let rel := Word.bits (wd n 0) 56 4
  decide (4 < k) || (if k = 3 then decide (5 < rel) else rel != 0) || (k != 1 && (wd n 0).getLsbD 55) ||
  Word.bits (wd n 0) 44 11 != 0 || Word.bits (wd n 0) 20 12 != 0 || Word.bits (wd n 0) 2 6 != 0 ||
  Word.bits (wd n 2) 32 32 != 0 || wd n 3 != 0

/-- A run on a node of a kind: the node's words, with its job, are given to what the kind does. A node that R179 refuses
ends the run whatever kind is asked for; a node of another kind is left alone. -/
def State.onNode (s : State) (r : Nat) (kind : Nat) (f : State → Run → Job → List Word → State) : State :=
  match s.run? r with
  | none => s
  | some x => match s.job? x.jid with
    | none => s
    | some j =>
      if x.state ≠ 1 ∨ x.cancelled ∨ s.vfHeld j then s
      else match s.gBytes j ((x.addr.toNat + 32 + 32 * x.node) % 2 ^ 56) 32 with
        | .error f => (s.noteBad f).runFault x 5
        | .ok (bs, s) =>
          let n := wordsOf bs
          if nodeBad n then s.runFault x 1
          else if Word.bits (wd n 0) 60 4 ≠ kind then s
          else f s x j n

/-- GRAPH_NODE_END: waits for every launch of the run (R179). -/
def execGraphNodeEnd (r : Nat) (s : State) : Out := .next (s.onNode r 0 (fun s x j _ =>
  if x.launches.any s.launchRefused then s.runFault x 4
  else if x.launches.all s.launchOver then
    let x := { x with state := 2, nodesRun := x.nodesRun + 1 }
    (((s.setRun x).runRecord x).jobCount j 1 0).jobSettle x.jid
  else s))

/-- GRAPH_NODE_LAUNCH: dispatches the launch; with WAIT it goes on when that completes (R179). -/
def execGraphNodeLaunch (r : Nat) (s : State) : Out := .next (s.onNode r 1 (fun s x j n =>
  match x.waitL with
  | some l =>
    if s.launchRefused l then s.runFault x 4
    else if s.launchOver l then s.goOn x (afterNode x.node x.loops) else s
  | none =>
    let (l, s) := s.dispatch j ((wd n 1).toNat % 2 ^ 56) (some x.id)
    let x := { x with launches := x.launches ++ [l], dispatched := x.dispatched + 1 }
    let s := (s.setRun x).runCounts x
    if s.launchRefused l then s.runFault x 4
    else if (wd n 0).getLsbD 55 then s.setRun { x with waitL := some l }
    else s.goOn x (afterNode x.node x.loops)))

/-- GRAPH_NODE_JOIN (R179). -/
def execGraphNodeJoin (r : Nat) (s : State) : Out := .next (s.onNode r 2 (fun s x _ _ =>
  if x.launches.any s.launchRefused then s.runFault x 4
  else if x.launches.all s.launchOver then s.goOn x (afterNode x.node x.loops) else s))

/-- GRAPH_NODE_COND: a jump out of a loop's body leaves the loop (R179). -/
def execGraphNodeCond (r : Nat) (s : State) : Out := .next (s.onNode r 3 (fun s x j n =>
  let tgt := Word.bits (wd n 0) 32 12
  if x.nnodes ≤ tgt then s.runFault x 2
  else match s.gRead j ((wd n 1).toNat % 2 ^ 56) 4 with
    | .error f => (s.noteBad f).runFault x 5
    | .ok (bs, s) =>
      if relHolds (Word.bits (wd n 0) 56 4) 32 (ofBytes bs) (Word.bits (wd n 2) 0 32) then
        s.goOn x (tgt, x.loops.dropWhile (fun f => !(decide (f.node < tgt) && decide (tgt ≤ f.bend))))
      else s.goOn x (afterNode x.node x.loops)))

/-- A LOOP node: it waits for its block; with N = 0 the body is passed over (R179, R181). -/
def State.loopNodeBy (s : State) (look : Look) (r : Nat) : State := s.onNode r 4 (fun s x j n =>
  let bend := Word.bits (wd n 0) 8 12
  if bend ≤ x.node ∨ x.nnodes ≤ bend ∨ 4 ≤ x.loops.length ∨ x.loops.head?.any (fun f => decide (f.bend < bend)) then
    s.runFault x 3
  else match look s j ((wd n 1).toNat % 2 ^ 56) 64 with
    | .error f => (s.noteBad f).runFault x 5
    | .ok (bs, s) =>
      let b := wordsOf bs
      if !(wd b 0).getLsbD 63 then s.setRun { x with atLoop := true }
      else
        let c := Word.bits (wd b (1 + Word.bits (wd n 0) 0 2)) 0 32
        if c = 0 then s.goOn x (afterNode bend x.loops)
        else s.goOn x (x.node + 1, { node := x.node, bend := bend, left := c } :: x.loops))

/-- A LOOP node that reads its block as it stands. -/
def State.loopNode (s : State) (r : Nat) : State := s.loopNodeBy State.gRead r

/-- GRAPH_NODE_LOOP (R179). -/
def execGraphNodeLoop (r : Nat) (s : State) : Out := .next (s.loopNode r)

/-! ## Tick plans (R187, R374) -/

/-- The tick and phase of the start that a group waits for next: while a phase runs, that of the one after it. -/
def Group.nextStart (g : Group) (p : List Word) : Nat × Nat :=
  if g.st = .running then (if g.phase + 1 = planNph p then (g.tick + 1, 0) else (g.tick, g.phase + 1))
  else (g.tick, g.phase)

/-- A start has come for a group: in BOUNDARY it releases, or goes LATE (R183). `late` tells that the planned start has passed,
for the comparator was loaded after it (R188, R374). -/
def State.startCome (s : State) (l : Launch) (g : Group) (late : Bool) : State :=
  let g := { g with come := true }
  let s := s.setLaunch { l with grp := some g }
  if g.st ≠ .boundary then s
  else
    let l := { l with grp := some g }
    if ((s.launchCores l).filter (fun c => c.run != .off)).all (·.ready) then
      s.release l g (if late then some (2 ^ 62) else none)
    else s.setLaunch { l with grp := some { g with st := .late } }

/-- Loads a group's comparator with its next start; loaded late, the event occurs at once (R374). -/
def State.tickArm (s : State) (id : Nat) : State :=
  match s.launch? id with
  | none => s
  | some l => match l.grp, s.planOf l with
    | some g, some p =>
      if g.start.isSome ∨ g.st = .late then s
      else
        let (k, ph) := g.nextStart p
        let at_ := planStart p k ph
        let g := { g with start := some at_, come := false }
        if at_ < s.gtc then s.startCome l g true else s.setLaunch { l with grp := some g }
    | _, _ => s

/-- TICK_ARM (R374). -/
def execTickArm (l : Nat) (s : State) : Out := .next (s.tickArm l)

/-- The start number n of a plan: its tick and phase. -/
def planTick (p : List Word) (n : Nat) : Nat × Nat := (n / planNph p, n % planNph p)

/-- The graph of a plan's start; 0 for none. -/
def planGraph (p : List Word) (n : Nat) : Nat := (wd p (5 + 2 * (planTick p n).2)).toNat

/-- Whether a run of a graph is RUNNING. -/
def State.graphRunning (s : State) (jid addr : Nat) : Bool :=
  s.runs.any (fun r => r.jid == jid && r.state == 1 && r.addr.toNat == addr)

/-- A start of a plan's own graph that waited for the graph's last run takes place, and is a slip (R187). -/
def State.planLate (s : State) (j : Job) (p : List Word) : State :=
  match j.planDue.find? (fun n => !s.vfHeld j && !s.graphRunning j.jid (planGraph p n % 2 ^ 56)) with
  | none => s
  | some n =>
    let (k, ph) := planTick p n
    let s := (s.setJob { j with planDue := j.planDue.erase n }).slipLog j p k ph (s.gtc - planStart p k ph) (2 ^ 63)
    (s.startRun j (planGraph p n % 2 ^ 56) true).2

/-- The starts of a plan's own graphs (R187). -/
def State.planStartEvent (s : State) (j : Job) (p : List Word) : State :=
  let s := s.planLate j p
  let j := (s.job? j.jid).getD j
  let (k, ph) := planTick p j.planAt
  if s.gtc < planStart p k ph then s
  else
    let n := j.planAt
    let j := { j with planAt := n + 1 }
    let a := planGraph p n
    if a = 0 then s.setJob j
    else if s.vfHeld j ∨ s.graphRunning j.jid (a % 2 ^ 56) then s.setJob { j with planDue := j.planDue ++ [n] }
    else ((s.setJob j).startRun j (a % 2 ^ 56) true).2

/-- The comparators whose start comes at or before a time, with the launches, in the order of their starts (R374). -/
def State.startsDue (s : State) (t : Nat) : List (Nat × Nat) :=
  sortBy (fun a b => decide (a.1 < b.1)) (s.launches.filterMap (fun l => match l.grp with
    | some g => match g.start with
      | some at_ => if !g.come && decide (at_ ≤ t) then some (at_, l.id) else none
      | none => none
    | none => none))

/-- The start event of a launch's comparator occurs, in the first cycle at or after the loaded value (R374). -/
def State.startAt (s : State) (at_ id : Nat) : State :=
  let s := { s with cycle := Nat.max s.cycle (ceilDiv ((at_ - s.gtc0) * 8) 5) }
  match s.launch? id with
  | some l => match l.grp with
    | some g => if g.start = some at_ ∧ !g.come then s.startCome l g (decide (at_ < s.gtc)) else s
    | none => s
  | none => s

/-- TICK_START_EVENT: the start that a group's comparator holds, or a start of the plan's graphs (R187, R374). -/
def execTickStartEvent (jid : Nat) (l : Option Nat) (s : State) : Out := .next (
  match l with
  | some id => match s.launch? id with
    | some l => match l.grp with
      | some g => match g.start with
        | some at_ => if l.jid = jid ∧ !g.come ∧ at_ ≤ s.gtc then s.startCome l g (decide (at_ < s.gtc)) else s
        | none => s
      | none => s
    | none => s
  | none => match s.job? jid with
    | some j => match j.plan with
      | some p => if j.state = 1 ∧ !j.cancelled then s.planStartEvent j p else s
      | none => s
    | none => s)

end Sys2Proof.Machine
end

