-- ==== Sys2Proof/Machine/Queue.lean ====
section
/-!
DEFINITION. Host queues and their packets (R171, R172, R187, R367 to R372). Queue q of function f has the number
16·f + q; function 0 is the PF and function 1 + v is VFv (R427).
Log entries (notes/assumptions): 3 DESIGN CHOICE, 13 DESIGN CHOICE, 18 DEDUCED, 23 DEDUCED, 24 DESIGN CHOICE, 46
DEDUCED, 47 DEDUCED.
-/
namespace Sys2Proof.Machine

/-! ## Queue registers (R367, R370) -/

/-- Whether a number names a queue of the 65 functions. -/
def isQueue (q : Nat) : Bool := q ≤ 1039

/-- The virtual function of a function number. -/
def fnVf (f : Nat) : Option Nat := if f = 0 then none else some (f - 1)

/-- Whether a function's TDI is locked: QBASE, PRI, LOG2N and DWIN are frozen (R430). -/
def State.frozen (s : State) (f : Nat) : Bool := (fnVf f).any (fun v => smGet 0 s.tdi v != 0)

/-- Packets published and not started. -/
def Queue.pub (x : Queue) : Nat := (x.tail + (2 ^ 32 - x.head)) % 2 ^ 32

/-- Whether a packet index lies in HEAD to min(TAIL, HEAD + 16) − 1 (R369). -/
def Queue.inWindow (x : Queue) (i : Nat) : Bool := decide ((i + (2 ^ 32 - x.head)) % 2 ^ 32 < Nat.min x.pub 16)

/-- More packets published than the ring holds (R370, cause 0x02). -/
def Queue.passed (x : Queue) : Bool := decide (2 ^ x.log2n < x.pub)

/-- Packets fetched that no longer lie in the window are dropped. -/
def Queue.trim (x : Queue) : Queue := { x with fetched := x.fetched.filter (fun (i, _) => x.inWindow i) }

/-- AHEAD (R367). -/
def Queue.ahead (x : Queue) : Nat := x.fetched.length

/-- Where packet index i lies in the ring, in host memory (R367). -/
def Queue.slot (x : Queue) (i : Nat) : Word := x.qbase + word (64 * (i % 2 ^ x.log2n))

/-- What the host reads at an offset of a queue's register block (R367). -/
def Queue.regRead (x : Queue) (ofs : Nat) : Word :=
  match ofs with
  | 0x00 => x.qbase
  | 0x08 => word (x.en.toNat * 2 ^ 63 + x.pri % 4 * 2 ^ 58 + x.log2n)
  | 0x10 => word x.tail
  | 0x18 => word x.head
  | 0x20 => word (x.halt.toNat * 2 ^ 63 + x.cause % 256 * 2 ^ 48 + x.ahead % 32 * 2 ^ 32 + x.done)
  | _ => 0

/-- A command processor reads bytes of packet index i of a queue's ring, as the queue's function (R367, R369). -/
def State.readRing (s : State) (q i len : Nat) : State :=
  { s with hostOut := s.hostOut ++ [.ringRead (q / 16) ((s.queue q).slot i) len] }

/-- Changes the registers of a queue that exists. -/
def State.updQueue (s : State) (q : Nat) (f : Queue → Queue) : State :=
  if isQueue q then s.setQueue q (f (s.queue q)) else s

/-- A queue halts with a cause (R370), and the halt is counted (R441). -/
def State.haltQueue (s : State) (q cause : Nat) : State :=
  (s.updQueue q (fun x => { x with halt := true, cause := cause })).count 0x50 1

/-- QUEUE_TAIL_WRITE (R367). -/
def execQueueTailWrite (q : Nat) (v : Word) (s : State) : Out := .next (
  s.updQueue q (fun x => Queue.trim { x with tail := v.toNat % 2 ^ 32 }))

/-- QUEUE_HALT_CLEAR (R370). -/
def execQueueHaltClear (q : Nat) (v : Word) (s : State) : Out := .next (
  if v.getLsbD 63 then s.updQueue q (fun x => { x with halt := false }) else s)

/-- QUEUE_HEAD_WRITE: only while HALT is 1 (R370). -/
def execQueueHeadWrite (q : Nat) (v : Word) (s : State) : Out := .next (
  s.updQueue q (fun x => if x.halt then Queue.trim { x with head := v.toNat % 2 ^ 32 } else x))

/-- A write of offset 0x08: EN always; PRI and LOG2N while EN is 0 and the TDI is not locked (R367, R430). -/
def State.enableWrite (s : State) (q : Nat) (v : Word) : State :=
  s.updQueue q (fun x =>
    let x' := { x with en := v.getLsbD 63 }
    if x.en ∨ s.frozen (q / 16) then x'
    else
      let n := Word.bits v 0 5
      { x' with pri := Word.bits v 58 2, log2n := if 4 ≤ n ∧ n ≤ 16 then n else 4 })

/-- QUEUE_ENABLE_WRITE (R367). -/
def execQueueEnableWrite (q : Nat) (v : Word) (s : State) : Out := .next (s.enableWrite q v)

/-- A write of QBASE (R367, R430). -/
def State.qbaseWrite (s : State) (q : Nat) (v : Word) : State :=
  s.updQueue q (fun x => if x.en ∨ s.frozen (q / 16) then x else { x with qbase := v &&& ~~~(0xFFF : Word) })

/-! ## Fetching ahead (R369) -/

/-- A packet is read ahead, from its place in the ring; a failed read halts the queue. -/
def State.packetFetch (s : State) (q idx : Nat) (data : Option (List Word)) : State :=
  let x := s.queue q
  if !isQueue q ∨ !x.en ∨ x.halt ∨ !x.inWindow idx ∨ (smFind x.fetched idx).isSome then s
  else
    let s := s.readRing q idx 64
    match data with
    | none => s.haltQueue q 3
    | some w => if w.length = 8 then s.setQueue q { x with fetched := smPut x.fetched idx w } else s

/-- PACKET_FETCH (R369). -/
def execPacketFetch (q idx : Nat) (data : Option (List Word)) (s : State) : Out := .next (s.packetFetch q idx data)

/-! ## What packets hold (R368) -/

def pkLevel (w : List Word) : Nat := Word.bits (wd w 2) 0 3
def pkRel (w : List Word) : Nat := Word.bits (wd w 3) 0 4

/-- A reserved KIND, level or REL, or a bit that the packet holds at zero (cause 0x01). -/
def pkBad (w : List Word) : Bool :=
  let k := pkKind w
  decide (6 < k) || Word.bits (wd w 0) 48 6 != 0 || wd w 5 != 0 || (k != 5 && wd w 4 != 0) ||
  ((k == 0 || k == 1 || k == 5 || k == 6) && Word.bits (wd w 0) 32 16 != 0) ||
  (k == 4 && !(pkLevel w == 1 || pkLevel w == 2 || pkLevel w == 4)) || (k == 5 && decide (5 < pkRel w))

/-! ## Opening a job (R171, R172, R187) -/

/-- The 16 words of the job descriptor at a physical address, as they stand in HBM. -/
def State.jobDesc (s : State) (pa : Nat) : List Word := wordsOf (s.readBytes 0 (hbmKey pa) 128)

def jdJid (d : List Word) : Nat := Word.bits (wd d 0) 48 16
def jdCtx (d : List Word) : Byte := BitVec.ofNat 8 (Word.bits (wd d 0) 40 8)
def jdVf (d : List Word) : Nat := Word.bits (wd d 0) 32 6
def jdPf (d : List Word) : Bool := (wd d 0).getLsbD 31
def jdKs (d : List Word) : Nat × Nat := (Word.bits (wd d 4) 53 11, Word.bits (wd d 4) 41 12)

/-- Jobs whose OPEN_JOB has started and has not run yet: JID, tag and key slots. -/
def State.opening (s : State) : List (Nat × Byte × Nat × Nat) :=
  s.queues.flatMap (fun (_, x) => x.active.filterMap (fun e =>
    if pkKind e.w = 1 ∧ e.st = 0 then some (jdJid (e.w.drop 8), jdCtx (e.w.drop 8), jdKs (e.w.drop 8)) else none))

/-- Whether a job may not be opened from a queue (R172). A JID that is in use is refused too. -/
def State.openRefused (s : State) (q : Nat) (d : List Word) : Bool :=
  let held := s.jobs.map (fun j => (j.jid, j.ctx, j.ksbase, j.kscnt)) ++ s.opening
  let (kb, kn) := jdKs d
  jdCtx d == 0 || (kn != 0 && decide (2048 < kb + kn)) || decide (255 ≤ held.length) ||
  held.any (fun (jid, ctx, b, n) => jid == jdJid d || ctx == jdCtx d || overlaps kb kn b n) ||
  (fnVf (q / 16)).any (fun v => jdPf d || jdVf d != v)

/-- A plan that breaks R187. -/
def planBad (p : List Word) : Bool :=
  let pern := Word.bits (wd p 1) 24 40
  let perd := Word.bits (wd p 1) 16 8
  let ofs := fun j => Word.bits (wd p (4 + 2 * j)) 32 32
  perd == 0 || decide (pern < 4166666 * perd) || decide (100000000 * perd < pern) || ofs 0 != 0 ||
  (List.range (planNph p)).any (fun j => decide (pern / perd ≤ ofs j) || (j != 0 && decide (ofs j ≤ ofs (j - 1))))

/-- The plan at an address: none when it cannot be read or breaks R187. -/
def State.readPlan (s : State) (j : Job) (va : Nat) : Option (List Word) × State :=
  if va % 16 ≠ 0 then (none, s)
  else match s.gBytes j va 32 with
    | .error f => (none, s.noteBad f)
    | .ok (h, s) =>
      match State.gBytes s j (va + 32) (16 * planNph (wordsOf h)) with
      | .error f => (none, s.noteBad f)
      | .ok (e, s) =>
        let p := wordsOf h ++ wordsOf e
        (if planBad p then none else some p, s)

/-- The number of the first start of a plan that has not passed: the plan's own graph starts begin there, and starts that lie in
the past when the job opens are skipped (DESIGN CHOICE, log entry 46: R187 is silent). -/
def firstStart (p : List Word) (gtc : Nat) : Nat :=
  let t0 := (wd p 0).toNat
  let nph := planNph p
  let k := (gtc - t0) * Word.bits (wd p 1) 16 8 / Word.bits (wd p 1) 24 40
  ((List.range (3 * nph)).find? (fun i =>
    let (k, ph) := planTick p (k * nph + i)
    decide (gtc ≤ planStart p k ph))).getD 0 + k * nph

/-- Makes a job resident, with its record RUNNING; a bad plan leaves no plan armed and CAUSE 0x01 (R171, R187). -/
def State.openJob (s : State) (d : List Word) : State :=
  let (kb, kn) := jdKs d
  let j : Job :=
    { jid := jdJid d, ctx := jdCtx d, pri := Word.bits (wd d 0) 38 2, vf := jdVf d, pf := jdPf d, root := (wd d 1).toNat,
      saveb := wd d 2, ksbase := kb, kscnt := kn, domain := (wd d 4).truncate 32, jrec := wd d 5, plan := none,
      planAt := 0, planDue := [], cancelled := false, closing := false, state := 1, cause := 0, apt := [] }
  let va := (wd d 3).toNat
  let (j, s) := if va = 0 then (j, s) else match s.readPlan j (va % 2 ^ 56) with
    | (some p, s) => ({ j with plan := some p, planAt := firstStart p s.gtc }, s)
    | (none, s) => ({ j with cause := 1 }, s)
  let s := { s with jobs := s.jobs ++ [j] }
  (s.gPut j (j.jrec.toNat % 2 ^ 56) (toBytes 8 0)).jobState j

/-! ## Starting packets (R370 to R372) -/

/-- Graph runs that are active, with those that a RUN_GRAPH that has started is about to start. -/
def State.activeRuns (s : State) : Nat :=
  (s.runs.filter (fun r => r.state == 1)).length +
  (s.queues.flatMap (fun (_, x) => x.active.filter (fun e => pkKind e.w == 3 && e.st == 0))).length

/-- Whether a packet may start on its queue (R371). -/
def State.mayStart (s : State) (x : Queue) (w : List Word) : Bool :=
  (!pkSer w || x.active.isEmpty) && (pkKind w != 3 || decide (s.activeRuns < 64)) &&
  !x.active.any (fun e => pkKind e.w == 5)

/-- A queue is ready (R371). Its packet at HEAD has been fetched, or it is to halt with cause 0x02. -/
def State.queueReady (s : State) (q : Nat) (x : Queue) : Bool :=
  x.en && !x.halt && x.head != x.tail && (fnVf (q / 16)).all (fun v => (smGet Mig.init s.mig v).state == 0) &&
  (x.passed || (smFind x.fetched x.head).any (s.mayStart x))

/-- Classes by position (R372). -/
def rotation : List Nat := [3, 2, 3, 1, 3, 2, 3, 0, 3, 2, 3, 1, 3, 2, 3]

/-- The queue that a command processor picks (R372). -/
def State.pickQueue (s : State) : Option Nat :=
  let ready := s.queues.filter (fun (q, x) => s.queueReady q x)
  let c0 := rotation.getD s.rotPos 0
  let c := if ready.any (fun (_, x) => x.pri == c0) then c0 else ready.foldl (fun m (_, x) => Nat.max m x.pri) 0
  let cl := (ready.filter (fun (_, x) => x.pri == c)).map (fun (q, _) => q)
  -- `rotLast` holds the number of the last queue plus one; 0 when none of the class has been picked
  let last := smGet 0 s.rotLast c
  ((cl.find? (fun q => last ≤ q)).orElse (fun _ => cl.head?))

/-- The fault of the walk for the address that a WAIT_MEM or WRITE_MEM packet names. -/
def State.argFault (s : State) (j : Job) (w : List Word) : Option (Byte × Nat) :=
  match s.xlateJob j (pkKind w == 6) (wd w 1).toNat with
  | .ok _ => none
  | .error f => some f

/-- What halts a queue on the packet that it is to start (R370), the lowest cause that holds. A job descriptor with a bad word
is refused (DESIGN CHOICE, log entry 18). -/
def State.startCause (s : State) (q : Nat) (w : List Word) : Option Nat :=
  let k := pkKind w
  let names := k == 2 || k == 3 || k == 4 || k == 5 || k == 6
  let job := s.job? (pkJid w)
  let va := (wd w 1).toNat
  if pkBad w then some 1
  else if k = 1 ∧ ((s.badWord (hbmKey va) 128).isSome ∨ s.openRefused q (s.jobDesc va)) then some 4
  else if names ∧ job.isNone then some 5
  else if names ∧ (fnVf (q / 16)).any (fun v => job.any (fun j => j.vfn != some v)) then some 6
  else if (k = 5 ∨ k = 6) ∧ (va % 8 ≠ 0 ∨ 2 ^ 56 ≤ va ∨ job.any (fun j => (s.argFault j w).isSome)) then some 8
  else none

/-- The machine check, if it is one, that a packet has met that halts its queue with a cause (R404, R440). -/
def State.startCheck (s : State) (w : List Word) (cause : Nat) : Option (Byte × Nat) :=
  let va := (wd w 1).toNat
  if cause = 4 then (s.badWord (hbmKey va) 128).map (fun p => (0xF1, p))
  else if cause = 8 ∧ va % 8 = 0 ∧ va < 2 ^ 56 then (s.job? (pkJid w)).bind (fun j => s.argFault j w)
  else none

/-- The packet that a queue is about to start is read again: its word 0, and the whole of it when that has changed (R369). What
these two reads give is `again`: none when the first fails, and none for the second when that would fail. -/
def State.reread (s : State) (q : Nat) (again : Option (Word × Option (List Word))) : State :=
  let x := s.queue q
  match smFind x.fetched x.head with
  | none => s
  | some w0 =>
    let s := s.readRing q x.head 8
    if again.any (fun w1 => w1.1 != wd w0 0) then s.readRing q x.head 64 else s

/-- The packet that starts: the one fetched when its word 0 still reads the same, else the one read whole now (R369). -/
def packetUsed (w0 : List Word) (again : Option (Word × Option (List Word))) : Option (List Word) :=
  again.bind (fun (w, whole) => if wd w0 0 = w then some w0 else whole.filter (fun w1 => w1.length == 8))

/-- Starts the packet at HEAD of a queue, whose second read is given (R369, R370). -/
def State.startOn (s : State) (q : Nat) (again : Option (Word × Option (List Word))) : State :=
  let s := s.reread q again
  let x := s.queue q
  let take := fun (s : State) =>
    { s with rotLast := smPut s.rotLast x.pri (q + 1), rotPos := (s.rotPos + 1) % 15 }
  match (smFind x.fetched x.head).map (fun w0 => packetUsed w0 again) with
  | some (some w) => match s.startCause q w with
    | some 1 => take (s.haltQueue q 1)
    | c =>
      if x.passed then take (s.haltQueue q 2)
      else match c with
        | some c => take (((s.startCheck w c).elim s s.noteBad).haltQueue q c)
        | none =>
          if !s.mayStart x w then s.setQueue q { x with fetched := smPut x.fetched x.head w }
          else
            let w' := if pkKind w = 1 then w ++ s.jobDesc (wd w 1).toNat else w
            let e : Started := { idx := x.head, w := w', st := 0, run := none }
            take (s.setQueue q (Queue.trim { x with head := (x.head + 1) % 2 ^ 32, active := x.active ++ [e] }))
  | some none => take (s.haltQueue q (if x.passed then 2 else 3))
  | none => take (s.haltQueue q 2)

/-- PACKET_START (R372). -/
def execPacketStart (again : Option (Word × Option (List Word))) (s : State) : Out := .next (
  match s.pickQueue with
  | some q => s.startOn q again
  | none => s)

/-! ## What packets do (R368) -/

/-- Runs the work of the oldest packet of a kind that a queue has started and whose work is not done; the work gives the
packet's new stage and the number that it waits on. -/
def State.onPacket (s : State) (q kind : Nat) (f : State → Started → Nat × Option Nat × State) : State :=
  match (s.queue q).active.find? (fun e => pkKind e.w == kind && e.st != 2) with
  | none => s
  | some e =>
    let (st, n, s) := f s e
    let x := s.queue q
    s.setQueue q { x with active := x.active.map (fun y => if y.idx = e.idx then { y with st := st, run := n } else y) }

/-- PACKET_NOP (R368). -/
def execPacketNop (q : Nat) (s : State) : Out := .next (s.onPacket q 0 (fun s _ => (2, none, s)))

/-- OPEN_JOB (R368, R172). -/
def execOpenJob (q : Nat) (s : State) : Out := .next (s.onPacket q 1 (fun s e => (2, none, s.openJob (e.w.drop 8))))

/-- Whether a job is idle (R171). -/
def State.jobIdle (s : State) (j : Job) : Bool :=
  j.plan.isNone && !s.runs.any (fun r => r.jid == j.jid && r.state == 1) &&
  !s.launches.any (fun l => l.jid == j.jid && decide (l.state < 2))

/-- Blocks still noted for a job are spilled before it leaves (R397). -/
def State.spillJob (s : State) (jid : Nat) : State :=
  s.tiles.foldl (fun s (t, x) => x.accNote.foldl (fun s (k, o) =>
    if o.1 = jid ∧ smFind (s.tile t).accNote k = some o then (let s := s.engineSpill t k
      if smFind (s.tile t).accNote k = some o then s.dropNotes jid o.2 else s) else s) s) s

/-- Closes a job: DONE when idle, cancelled first otherwise; then it leaves the package (R171, R368). -/
def State.closeJob (s : State) (jid cause : Nat) : State :=
  match s.job? jid with
  | none => s
  | some j =>
    if j.state ≠ 1 then s.freeJob j
    else if s.jobIdle j ∧ !j.cancelled then
      let j := { j with state := 2 }
      (((s.setJob j).jobState j).spillJob jid).freeJob j
    else
      let s := s.setJob { j with closing := true }
      if j.cancelled then s else s.cancelJob jid cause

/-- CLOSE_JOB (R368). -/
def execCloseJob (q : Nat) (s : State) : Out := .next (s.onPacket q 2 (fun s e =>
  let jid := pkJid e.w
  if e.st = 0 ∧ s.jobDue jid then (0, none, s)
  else
    let s := if e.st = 0 then s.closeJob jid 0 else s
    (if (s.job? jid).any (·.closing) then 1 else 2, none, s)))

/-- A run of a job whose record is CANCELLED, or becomes so: its graph record says so at once (R368). -/
def State.deadRun (s : State) (j : Job) (addr : Nat) : State :=
  match s.gBytes j addr 32 with
  | .error f => s.noteBad f
  | .ok (bs, s) => s.runRecord
    { id := 0, jid := j.jid, addr := word addr, grec := wd (wordsOf bs) 1, nnodes := 0, node := 0, nodesRun := 0,
      dispatched := 0, launches := [], loops := [], waitL := none, state := 4, cause := 0x0A, cancelled := true,
      plan := false, atLoop := false }

/-- A job that closes leaves the package once the last packet of it is done (R368). -/
def State.closeSettle (s : State) : State := s.jobs.foldl (fun s j => if j.closing then s.jobSettle j.jid else s) s

/-- RUN_GRAPH (R368). -/
def execRunGraph (q : Nat) (s : State) : Out := .next (State.closeSettle (s.onPacket q 3 (fun s e =>
  match e.run with
  | some r => (if (s.run? r).any (fun x => x.state == 1) then 1 else 2, e.run, s)
  | none => match s.job? (pkJid e.w) with
    | none => (2, none, s)
    | some j =>
      let a := (wd e.w 1).toNat % 2 ^ 56
      if j.state ≠ 1 ∨ j.cancelled then (2, none, s.deadRun j a)
      else
        let (r, s) := s.startRun j a false
        (if (s.run? r).any (fun x => x.state == 1) then 1 else 2, some r, s))))

/-- Starts the cancel of a packet, and the number of the launch or run whose record it waits for (R189, R368). -/
def State.beginCancel (s : State) (w : List Word) : Option Nat × State :=
  let jid := pkJid w
  match pkLevel w with
  | 1 => match s.launches.find? (fun l => l.jid == jid && decide (l.state < 2) && word l.cnta == wd w 1) with
    | some l => (some l.id, s.cancelAll l.id 0)
    | none => (none, s)
  | 2 => match s.runs.find? (fun r => r.jid == jid && r.state == 1 && r.grec == wd w 1) with
    | some r => (some r.id, s.cancelRun r.id 0)
    | none => (none, s)
  | _ => (none, s.cancelJob jid 0)

/-- Whether the record that a CANCEL packet names has its final STATE. -/
def State.cancelOver (s : State) (w : List Word) (n : Option Nat) : Bool :=
  match pkLevel w with
  | 1 => n.all s.launchOver
  | 2 => n.all (fun r => (s.run? r).all (fun x => x.state != 1))
  | _ => (s.job? (pkJid w)).all (fun j => j.state != 1)

/-- PACKET_CANCEL (R368, R189). -/
def execPacketCancel (q : Nat) (s : State) : Out := .next (s.onPacket q 4 (fun s e =>
  let (n, s) := if e.st = 0 then s.beginCancel e.w else (e.run, s)
  (if s.cancelOver e.w n then 2 else 1, n, s)))

/-- WAIT_MEM reads its word; a word that cannot be read any more keeps it waiting, and a machine check is recorded (R368, R440). -/
def State.waitMemBy (s : State) (look : Look) (q : Nat) : State := s.onPacket q 5 (fun s e =>
  match s.job? (pkJid e.w) with
  | none => (1, none, s)
  | some j => match look s j ((wd e.w 1).toNat % 2 ^ 56) 8 with
    | .error f => (1, none, s.noteBad f)
    | .ok (bs, s) => (if relHolds (pkRel e.w) 64 (ofBytes bs) (wd e.w 4).toNat then 2 else 1, none, s))

/-- WAIT_MEM reads its word as it stands. -/
def State.waitMem (s : State) (q : Nat) : State := s.waitMemBy State.gRead q

/-- WAIT_MEM (R368). -/
def execWaitMem (q : Nat) (s : State) : Out := .next (s.waitMem q)

/-- WRITE_MEM (R368). -/
def execWriteMem (q : Nat) (s : State) : Out := .next (State.closeSettle (s.onPacket q 6 (fun s e =>
  match s.job? (pkJid e.w) with
  | none => (2, none, s)
  | some j => (2, none, s.gPut j ((wd e.w 1).toNat % 2 ^ 56) (toBytes 8 (wd e.w 3).toNat)))))

/-- The oldest packet of a queue whose work is done completes: CVAL is written to CADDR, then DONE counts it, and the
queue's interrupt is raised (R368). A fault on the write halts the queue instead (R370). -/
def State.packetComplete (s : State) (q : Nat) (ok : Bool) : State :=
  let x := s.queue q
  match x.active.find? (fun e => e.st == 2) with
  | none => s
  | some e =>
    let s := s.setQueue q { x with active := x.active.filter (fun y => y.idx != e.idx) }
    let writes := wd e.w 6 != 0
    if writes ∧ !ok then s.haltQueue q 7
    else
      let s := if writes then { s with hostOut := s.hostOut ++ [.write (wd e.w 6) (toBytes 8 (wd e.w 7).toNat)] } else s
      let s := s.updQueue q (fun x => { x with done := (x.done + 1) % 2 ^ 32 })
      if pkIrq e.w then s.raiseIrq (q / 16) (q % 16) else s

/-- PACKET_COMPLETE (R368). -/
def execPacketComplete (q : Nat) (ok : Bool) (s : State) : Out := .next (s.packetComplete q ok)

end Sys2Proof.Machine
end

