-- ==== Sys2Proof/Machine/Host.lean ====
section
/-!
DEFINITION. The host's registers and windows, live migration, the side-band controller, starts, resets and the scrub
(R427 to R442).
Log entries (notes/assumptions): 4 DESIGN CHOICE, 6 DESIGN CHOICE, 18 DEDUCED, 24 DESIGN CHOICE, 25 DESIGN CHOICE, 26
DEDUCED, 55 DEDUCED, 67 PRESUMED.
-/
namespace Sys2Proof.Machine

/-! ## Live migration (R431, R432) -/

def State.migOf (s : State) (v : Nat) : Mig := smGet Mig.init s.mig v

def State.setMig (s : State) (v : Nat) (m : Mig) : State := { s with mig := smPut s.mig v m }

/-- A watch is asked to leave with its forced save due at once. -/
def State.requestNow (s : State) (t : Nat) : State :=
  (s.request t).updTile t (fun x => { x with watch := x.watch.map (fun w => { w with now := true }) })

/-- A write of STOP (R432). -/
def State.migStop (s : State) (v : Nat) (stop : Bool) : State :=
  let m := s.migOf v
  if 64 ≤ v then s
  else if !stop then s.setMig v { m with stop := false, state := 0 }
  else if m.state ≠ 0 then s.setMig v { m with stop := true }
  else
    let s := s.setMig v { m with stop := true, state := 1 }
    (s.tiles.foldl (fun s (t, x) =>
      if s.vfOn t = some v ∧ !x.draining then s.requestNow t else s) s).migSettle

/-- MIGRATION_STOP (R432). -/
def execMigrationStop (vf : Nat) (stop : Bool) (s : State) : Out := .next (s.migStop vf stop)

/-- A write of a migration block's first word: TRK and DBASE only in RUN (R431). -/
def State.migWrite (s : State) (v : Nat) (w : Word) : State :=
  let m := s.migOf v
  let s := if m.state = 0 then s.setMig v { m with trk := w.getLsbD 63, dbase := BitVec.ofNat 19 (Word.bits w 21 19) } else s
  s.migStop v (w.getLsbD 62)

/-- WVAL_READ: the word at WIDX is read and cleared as one atomic exchange (R431). Of a word with an uncorrectable error
nothing is delivered and nothing cleared: the machine check is recorded, and the read ends in an abort (R69, R404). -/
def State.wvalRead (s : State) (v : Nat) : State :=
  let m := s.migOf v
  let key := hbmKey (m.dbase.toNat * 2 ^ 21 + 8 * m.widx.toNat)
  match s.badWord key 8 with
  | some p =>
    let s := s.logCheck 0 0xF1 (word p)
    { s with hostOut := s.hostOut ++ [.completerAbort] }
  | none =>
    let bs := s.readBytes internalKey key 8
    let s := s.commitBytes 1024 none internalKey key (toBytes 8 0)
    { s with hostOut := s.hostOut ++ [.readData bs] }

/-- WVAL_READ (R431). -/
def execWvalRead (vf : Nat) (s : State) : Out := .next (if 64 ≤ vf then s else s.wvalRead vf)

/-! ## Registers (R427, R428, R433, R441) -/

/-- Offsets of the counters of the error log that a write clears. -/
def isCounter (ofs : Nat) : Bool := ofs % 8 == 0 && (decide (ofs ≤ 0x58) || ofs == 0x70)

/-- A write of a counter of the error log clears it. -/
def State.clearCounter (s : State) (ofs : Nat) : State :=
  if isCounter ofs then { s with errlog := smErase s.errlog ofs } else s

/-- ERROR_COUNTER_CLEAR (R441). -/
def execErrorCounterClear (ofs : Nat) (s : State) : Out := .next (s.clearCounter ofs)

/-- An answer of the mailbox: its status, what it holds beside it, and the error vector (R433). -/
def State.mboxAnswer (s : State) (status : Nat) (ws : List Word) : State :=
  let s := { s with side := { s.side with mbox := status, answers := ws :: s.side.answers } }
  s.raiseIrq 0 16

/-- Byte 63 of the mailbox is written with 1: the RSC takes the request whose code stands in byte 0, which is then answered by the
instruction of its own. While it has one it answers busy, and a code that names none is unknown (R433). -/
def State.boxGo (s : State) : State :=
  let code := Word.bits (smGet 0 s.side.box 0) 0 8
  if s.side.req.isSome then s.mboxAnswer 2 []
  else if 1 ≤ code ∧ code ≤ 5 then { s with side := { s.side with req := some code } }
  else s.mboxAnswer 3 []

/-- A write of a word of the mailbox buffer. -/
def State.boxWrite (s : State) (i : Nat) (v : Word) : State :=
  let s := { s with side := { s.side with box := smPut s.side.box i v } }
  if i = 7 ∧ Word.bits v 56 8 = 1 then s.boxGo else s

/-- A write of byte 63 of the mailbox alone. -/
def State.boxByte (s : State) (v : Word) : State :=
  s.boxWrite 7 (word (Word.bits (smGet 0 s.side.box 7) 0 56 + Word.bits v 0 8 * 2 ^ 56))

/-! ## The configuration space (R427)

The specification names SR-IOV, MSI-X and DOE and does not repeat PCIe 6.0. A register of the space stands at 0x10000 and up, behind
BAR0, in the model's own numbering (PRESUMED, log entry 67). -/

/-- Vectors of function f: 16, and of the PF the error vector. -/
def vectorCount (f : Nat) : Nat := if f = 0 then 17 else 16

/-- The pending vectors of a function that are no longer masked send their messages. -/
def State.irqSettle (s : State) (f : Nat) : State :=
  let p := s.pciFn f
  (p.pending.filter p.unmasked).foldl (fun s v =>
    (State.sendIrq s f v).setPciFn f { s.pciFn f with pending := (s.pciFn f).pending.erase v }) s

/-- A word of an MSI-X table is written: the address, or the data with the mask bit. -/
def State.vectorWrite (s : State) (f v : Nat) (high : Bool) (w : Word) : State :=
  let p := s.pciFn f
  let e := smGet MsixEntry.init p.table v
  let e := if high then { e with data := w.truncate 32, masked := w.getLsbD 32 } else { e with addr := w &&& ~~~(3 : Word) }
  (s.setPciFn f { p with table := smPut p.table v e }).irqSettle f

/-- The DOE mailbox takes its object: the RSC answers it as it does any SPDM request (R415). -/
def PciFn.doeWrite (p : PciFn) (w : Word) : PciFn :=
  if w.getLsbD 0 then { p with doeIn := [], doeBusy := false, doeOut := [] }
  else if w.getLsbD 31 ∧ !p.doeBusy ∧ !p.doeIn.isEmpty then { p with doeBusy := true, doeIn := [], doeOut := [] }
  else p

/-- What a write of a register of the configuration space leaves in it. -/
def PciFn.write (p : PciFn) (f ofs : Nat) (w : Word) : PciFn :=
  match ofs with
  | 0x00 => { p with msixOn := w.getLsbD 31, fmask := w.getLsbD 30 }
  | 0x08 =>
    if f ≠ 0 then p
    else { p with vfEnable := w.getLsbD 0, numVfs := if p.vfEnable ∨ 64 < Word.bits w 16 16 then p.numVfs else Word.bits w 16 16 }
  | 0x10 => p.doeWrite w
  | 0x20 => if p.doeBusy then p else { p with doeIn := p.doeIn ++ [w.truncate 32] }
  | 0x28 => { p with doeOut := p.doeOut.tail }
  | _ => p

/-- A write of the configuration space of function f. -/
def State.configWrite (s : State) (f ofs : Nat) (w : Word) : State :=
  if 0x1000 ≤ ofs ∧ ofs < 0x1000 + 16 * vectorCount f then s.vectorWrite f ((ofs - 0x1000) / 16) (ofs % 16 == 8) w
  else (s.setPciFn f ((s.pciFn f).write f ofs w)).irqSettle f

/-- What the host reads of the configuration space of function f. -/
def State.configRead (s : State) (f ofs : Nat) : Word :=
  let p := s.pciFn f
  if 0x1000 ≤ ofs ∧ ofs < 0x1000 + 16 * vectorCount f then
    let e := smGet MsixEntry.init p.table ((ofs - 0x1000) / 16)
    if ofs % 16 = 8 then word (e.masked.toNat * 2 ^ 32 + e.data.toNat) else e.addr
  else match ofs with
    | 0x00 => word (p.msixOn.toNat * 2 ^ 31 + p.fmask.toNat * 2 ^ 30 + (vectorCount f - 1))
    | 0x08 => if f = 0 then word (p.numVfs * 2 ^ 16 + p.vfEnable.toNat + 64 * 2 ^ 32) else 0
    | 0x18 => word (p.doeBusy.toNat + (!p.doeOut.isEmpty).toNat * 2 ^ 31)
    | 0x28 => word (p.doeOut.headD 0).toNat
    | 0x2000 => word (p.pending.foldl (fun n v => n ||| 2 ^ v) 0)
    | _ => 0

/-- A write of a queue's register at an offset of its block (R367, R370). -/
def State.queueRegWrite (s : State) (q ofs : Nat) (v : Word) : State :=
  match ofs with
  | 0x00 => s.qbaseWrite q v
  | 0x08 => s.enableWrite q v
  | 0x10 => s.updQueue q (fun x => Queue.trim { x with tail := v.toNat % 2 ^ 32 })
  | 0x18 => s.updQueue q (fun x => if x.halt then Queue.trim { x with head := v.toNat % 2 ^ 32 } else x)
  | 0x20 => if v.getLsbD 63 then s.updQueue q (fun x => { x with halt := false }) else s
  | _ => s

/-- The bits of DWIN that are not held at zero (R429). -/
def dwinMask : Word := 0x80FFFFF00000FFFF

/-- A write of a register of BAR0 of function f; every other offset ignores it. The mailbox is started by a write of its byte 63
(R433). -/
def State.regWrite (s : State) (f ofs : Nat) (v : Word) : State :=
  if f = 0 ∧ ofs = 0x403F then s.boxByte v
  else if 64 < f ∨ ofs % 8 ≠ 0 then s
  else if 0x10000 ≤ ofs then s.configWrite f (ofs - 0x10000) v
  else if 0x1000 ≤ ofs ∧ ofs < 0x1400 then s.queueRegWrite (16 * f + (ofs - 0x1000) / 64) (ofs % 64) v
  else if ofs = 0x2000 then (if s.frozen f then s else { s with dwin := smPut s.dwin f (v &&& dwinMask) })
  else if f ≠ 0 then s
  else if ofs = 0 then
    (if Word.bits v 16 16 = 0 then s else { s with gslip := (s.gtc, BitVec.ofNat 16 (Word.bits v 16 16)) :: s.gslip })
  else if 0x3000 ≤ ofs ∧ ofs < 0x3100 then s.clearCounter (ofs - 0x3000)
  else if 0x4000 ≤ ofs ∧ ofs < 0x4040 then s.boxWrite ((ofs - 0x4000) / 8) v
  else if 0x5000 ≤ ofs ∧ ofs < 0x6000 then
    let vf := (ofs - 0x5000) / 64
    match ofs % 64 with
    | 0 => s.migWrite vf v
    | 8 => s.setMig vf { s.migOf vf with widx := BitVec.ofNat 18 (Word.bits v 0 18) }
    | _ => s
  else s

/-- What the host reads of a register of BAR0 of function f (R427): none for what a read changes (WVAL, an instruction of its
own) and for the words of a mailbox answer after its status, whose layout no rule gives. -/
def State.regRead (s : State) (f ofs : Nat) : Option Word :=
  if 64 < f ∨ ofs % 8 ≠ 0 then some 0
  else if 0x10000 ≤ ofs then some (s.configRead f (ofs - 0x10000))
  else if 0x1000 ≤ ofs ∧ ofs < 0x1400 then some ((s.queue (16 * f + (ofs - 0x1000) / 64)).regRead (ofs % 64))
  else if ofs = 0x2000 then some (smGet 0 s.dwin f)
  else if f ≠ 0 then some 0
  else if ofs = 0 then some (word (((s.gslip.head?.map (fun x => x.2.toNat)).getD 200) * 2 ^ 16))
  else if 0x3000 ≤ ofs ∧ ofs < 0x3100 then some (smGet 0 s.errlog (ofs - 0x3000))
  else if 0x4000 ≤ ofs ∧ ofs < 0x4040 then some (smGet 0 s.side.box ((ofs - 0x4000) / 8))
  else if ofs = 0x4040 then some (word s.side.mbox)
  else if 0x4040 < ofs ∧ ofs < 0x4080 then none
  else if 0x5000 ≤ ofs ∧ ofs < 0x6000 then
    let m := s.migOf ((ofs - 0x5000) / 64)
    match ofs % 64 with
    | 0 => some (word (m.trk.toNat * 2 ^ 63 + m.stop.toNat * 2 ^ 62 + m.state % 4 * 2 ^ 60 + m.dbase.toNat * 2 ^ 21))
    | 8 => some (word m.widx.toNat)
    | 0x10 => none
    | _ => some 0
  else some 0

/-- HOST_REGISTER_WRITE (R427). -/
def execHostRegisterWrite (f ofs : Nat) (v : Word) (s : State) : Out := .next (s.regWrite f ofs v)

/-! ## The window into device memory (R429) -/

/-- The job under which a function's window translates, and the global address of an offset. -/
def State.window (s : State) (f ofs : Nat) : Option (Job × Nat) :=
  let d := smGet 0 s.dwin f
  if 64 < f ∨ !d.getLsbD 63 ∨ 2 ^ 36 ≤ ofs then none
  else match s.job? (Word.bits d 0 16) with
    | some j => if j.vfn = fnVf f then some (j, (Word.bits d 36 20 * 2 ^ 36 + ofs) % 2 ^ 56) else none
    | none => none

/-- Where the pieces of a window access lie, by page, or the fault of a translation. -/
def State.windowPlaces (s : State) (j : Job) (write : Bool) (va n : Nat) : Except (Byte × Nat) (List (Place × Nat) × State) :=
  (pagePieces va n).foldlM (fun (acc, s) (a, m) => match State.xlateJob s j write a with
    | .ok (p, s) => .ok (acc ++ [(p, m)], s)
    | .error f => .error f) (([] : List (Place × Nat)), s)

/-- The places of an access through a function's window; with none, the state after the refusal has been counted, and a machine
check recorded (R429, R440). -/
def State.windowAccess (s : State) (f ofs : Nat) (write : Bool) (n : Nat) : Except State (List (Place × Nat) × State) :=
  match s.window f ofs with
  | none => .error (s.count 0x58 1)
  | some (j, va) => match s.windowPlaces j write va n with
    | .error f => .error ((s.noteBad f).count 0x58 1)
    | .ok r => .ok r

/-- HOST_WINDOW_WRITE: translated and committed whole, or dropped and counted. -/
def State.windowWrite (s : State) (f ofs : Nat) (bytes : List Byte) : State :=
  match s.windowAccess f ofs true bytes.length with
  | .error s => s
  | .ok (ps, s) =>
    (ps.foldl (fun (s, bs) (p, m) => (State.placeWrite s 1024 (fnVf f) p (bs.take m), bs.drop m)) (s, bytes)).1

/-- HOST_WINDOW_WRITE (R429). -/
def execHostWindowWrite (f ofs : Nat) (bytes : List Byte) (s : State) : Out := .next (s.windowWrite f ofs bytes)

/-- HOST_WINDOW_READ: the bytes, or Completer Abort; a bad word is a machine check, counted, and is not delivered (R69; DESIGN
CHOICE, log entry 18). -/
def State.windowRead (s : State) (f ofs len : Nat) : State :=
  match s.windowAccess f ofs false len with
  | .error s => { s with hostOut := s.hostOut ++ [.completerAbort] }
  | .ok (ps, s) => match ps.findSome? (fun (p, m) => s.badPlace p m) with
    | some q =>
      let s := s.noteBad (0xF1, q)
      { s with hostOut := s.hostOut ++ [.completerAbort] }
    | none =>
      let (bs, s) := ps.foldl (fun (acc, s) (p, m) => let (b, s) := State.placeBytes s p m; (acc ++ b, s))
        (([] : List Byte), s)
      { s with hostOut := s.hostOut ++ [.readData bs] }

/-- HOST_WINDOW_READ (R429). -/
def execHostWindowRead (f ofs len : Nat) (s : State) : Out := .next (s.windowRead f ofs len)

/-! ## Starts and resets (R436, R437) -/

/-- The part after a start: nothing resident, every register at its reset value. What is no state of the part goes on: time,
what has left it, the number of values the RSC's random source has given, and the model's own order of events. The RSC begins start
number n. -/
def State.started (s : State) (n : Nat) : State :=
  { State.reset with
    cycle := s.cycle, gtc0 := s.gtc0, hostOut := s.hostOut, nextId := s.nextId, agenda := s.agenda, rr := s.rr,
    choices := s.choices, free := s.free, curTile := s.curTile, curCore := s.curCore, curCp := s.curCp
    fabric := { Fabric.init with out := s.fabric.out, exports := s.fabric.exports, nextId := s.fabric.nextId }
    side := { s.side with rails := true, mbox := 0, box := [], req := none }
    rsc := { Rsc.init n with signed := Config.rscSigned n, draws := s.rsc.draws } }

/-- A cold start: memories and the error log begin anew, and the medium is calibrated. -/
def State.coldStart (s : State) : State :=
  let n := s.rsc.start + 1
  { s.started n with trims := [Config.trim n false, Config.trim n true] }

/-- A warm start: HBM, the error log and the stored trims stay; with bad stored parameters it runs as a cold start (R436). -/
def State.warmStart (s : State) : State :=
  if Config.storedParametersGood s.rsc.start then
    { s.started (s.rsc.start + 1) with
      mem := smRange s.mem 0 (2 ^ 40), trims := s.trims, keyTag := s.keyTag, poison := s.poison.filter isHbm, errlog := s.errlog }
  else s.coldStart

/-- POWER_ON: a cold start, with the side-band controller as it powers up (R437). -/
def execPowerOn (s : State) : Out := .next (
  let s := s.coldStart
  { s with side := { Sideband.init with answers := s.side.answers } })

/-- COLD_START (R436). -/
def execColdStart (s : State) : Out := .next s.coldStart

/-- WARM_START (R436). -/
def execWarmStart (s : State) : Out := .next s.warmStart

/-- A Function Level Reset of VFv: its jobs close, and its queues and DWIN take their reset values (R437). -/
def State.vfReset (s : State) (v : Nat) : State :=
  let s := (s.jobs.filter (fun j => j.vfn == some v)).foldl (fun s j => s.closeJob j.jid 0) s
  { s with queues := smClear s.queues (16 * (v + 1)) (16 * (v + 2)), dwin := smErase s.dwin (v + 1) }

/-- VF_FLR (R437). -/
def execVfFlr (vf : Nat) (s : State) : Out := .next (if 64 ≤ vf then s else s.vfReset vf)

/-! ## The scrub (R438) -/

/-- The scrub reads the word at a place of HBM or of a tile memory. -/
def State.scrub (s : State) (key : Nat) (found : ScrubFind) : State :=
  let hbm := isHbm key
  let base := if hbm then key / 32 * 32 else key / 8 * 8
  if !hbm ∧ !(tileKey 0 0 0 ≤ key ∧ key < tileKey 1024 0 0) then s
  else match found with
    | .good => s
    | .correctable => (s.count 0x10 1).count (if hbm then 0x08 else 0x00) 1
    | .uncorrectable => { s.count 0x10 1 with poison := setAdd s.poison base }

/-- SCRUB_PASS (R438). -/
def execScrubPass (key : Nat) (found : ScrubFind) (s : State) : Out := .next (s.scrub key found)

/-! ## The side-band controller (R433) -/

/-- An answer on the side-band. -/
def State.sideAnswer (s : State) (ws : List Word) : State := { s with side := { s.side with answers := ws :: s.side.answers } }

/-- An answer whose content the specification does not list. -/
def State.openAnswer (s : State) (kind : Nat) (w : List Word) : State :=
  { s.sideAnswer (Config.answer s.free (word kind :: w)) with free := s.free + 1 }

/-- MCTP_CONTROL (R433): Set Endpoint ID, command 0x01, gives the controller its endpoint ID (PRESUMED, log entry 67: the command as
DSP0236 has it, its code in the low byte of the first word and the ID in the next). -/
def execMctpControl (w : List Word) (s : State) : Out := .next (
  let v := w.headD 0
  let s := if Word.bits v 0 8 = 1 then { s with side := { s.side with eid := BitVec.ofNat 8 (Word.bits v 8 8) } } else s
  s.openAnswer 0 w)

/-- PLDM_TYPE_0 (R433). -/
def execPldmType0 (w : List Word) (s : State) : Out := .next (s.openAnswer 1 w)

/-- PLDM_FIRMWARE_UPDATE: what it stores is measured at the next start (R433, R416). -/
def execPldmFirmwareUpdate (w : List Word) (s : State) : Out := .next (s.openAnswer 5 w)

/-- ENTDAA (R433). -/
def execEntdaa (addr : BitVec 7) (s : State) : Out := .next { s with side := { s.side with dynAddr := some addr } }

/-- SENSOR_READ: an empty answer stands for unavailable (R433). -/
def execSensorRead (which : Nat) (s : State) : Out := .next (
  if s.side.rails then { s.sideAnswer [Config.sensor s.free which] with free := s.free + 1 } else s.sideAnswer [])

/-- POWER_CAP_SET: a cap outside 500 to 3,200 W is not taken (R433). -/
def execPowerCapSet (watts : Nat) (s : State) : Out := .next (
  if 500 ≤ watts ∧ watts ≤ 3200 then { s with side := { s.side with cap := watts } } else s)

/-- RAIL_SWITCH: switching the rails off takes everything but the standby rail's units; switching them on is a cold
start (R433, R437). -/
def execRailSwitch (on : Bool) (s : State) : Out := .next (
  if on = s.side.rails then s
  else if on then s.coldStart
  else
    let x := s.started s.rsc.start
    { x with rsc := s.rsc, trims := s.trims, side := { s.side with rails := false } })

/-- ERROR_LOG_READ: an empty answer stands for unavailable (R433, R441). -/
def execErrorLogRead (ofs : Nat) (s : State) : Out := .next (
  s.sideAnswer (if s.side.rails then [smGet 0 s.errlog ofs] else []))

end Sys2Proof.Machine
end

