-- ==== Sys2Proof/Machine/Trust.lean ====
section
/-!
DEFINITION. The Root Security Core: SPDM, the trust domain, key handles, memory key slots, IDE and TDISP
(R414 to R425, R430).
Log entries (notes/assumptions): 26 DEDUCED, 27 PRESUMED, 39 DEDUCED, 62 DESIGN CHOICE, 67 PRESUMED.
-/
namespace Sys2Proof.Machine

/-- Changes the RSC's state; nothing of it runs after a start that found its firmware unsigned (R416). -/
def State.rscDo (s : State) (f : State → State) : State := if s.rsc.signed then f s else s

/-- An SPDM answer of the RSC. While an object stands in the PF's DOE mailbox, it is the answer to that (R415, R427; DESIGN CHOICE,
log entry 67). -/
def State.spdmAnswer (s : State) (ws : List Word) : State :=
  let s := s.sideAnswer ws
  let p := s.pciFn 0
  if !p.doeBusy then s
  else s.setPciFn 0 { p with doeBusy := false, doeOut := ws.flatMap (fun (w : Word) => [w.truncate 32, (w >>> 32).truncate 32]) }

/-- An SPDM answer whose content the specification does not list. -/
def State.spdmOpen (s : State) (kind : Nat) (w : List Word) : State :=
  { s.spdmAnswer (Config.answer s.free (word kind :: w)) with free := s.free + 1 }

/-- The RSC answers the mailbox request that it has taken, if it is the one of this code (R433). -/
def State.mboxDo (s : State) (code : Nat) (f : State → State) : State :=
  s.rscDo (fun s => if s.side.req = some code then f { s with side := { s.side with req := none } } else s)

/-! ## The domain (R417 to R422) -/

def State.setDom (s : State) (d : Option Domain) : State := { s with rsc := { s.rsc with dom := d } }

/-- A domain that a manifest begins. -/
def manifestDomain (m : Manifest) : Domain :=
  { domain := m.domain, leader := m.leader, members := m.members, digests := m.digests, cur := none, prev := none,
    pending := none, sentTo := [], acked := [], failed := [] }

/-- A manifest is installed, unless another domain is held (R417). The ports take what it says that each package exports to the
domain (R35; the specification does not say how the export table comes about: DESIGN CHOICE, log entry 62). -/
def State.manifest (s : State) (m : Manifest) : State :=
  let s := if s.rsc.dom.all (fun d => d.domain == m.domain) then { s with fabric := { s.fabric with exports := m.exports } } else s
  match s.rsc.dom with
  | none => (s.setDom (some (manifestDomain m))).mboxAnswer 0 []
  | some d =>
    if d.domain = m.domain then
      (s.setDom (some { d with leader := m.leader, members := m.members, digests := m.digests })).mboxAnswer 0 []
    else s.mboxAnswer 1 []

/-- MANIFEST (R417). -/
def execManifest (m : Manifest) (s : State) : Out := .next (s.mboxDo 1 (fun s => s.manifest m))

/-- The package leaves its domain: the keys of every pair go, with the numbers of the requests under them and what has come under them
(R414, R420, R433). -/
def State.leaveDomain (s : State) : State :=
  { s.setDom none with
    fabric := { s.fabric with
      xfers := [], reduced := []
      peers := s.fabric.peers.map (fun (k, p) => (k, { p with keys := [], send := [], recv := [], tagFails := [] })) } }

/-- LEAVE (R433). -/
def execLeave (s : State) : Out := .next (s.mboxDo 2 (fun s => s.leaveDomain.mboxAnswer 0 []))

/-- A pair at a switch: those of the new generation for a member, beside the keys of the generation that was current; a broken
pair is whole again (R414, R419 to R421). -/
def Peer.switched (p : Peer) (d : Domain) (g : BitVec 32 × BitVec 256) (pkg : Nat) : Peer :=
  let key := fun a b => pairKey d.domain g.1 g.2 a b
  let new := if d.members.contains pkg then [(g.1, key Config.package pkg, key pkg Config.package)] else []
  { p with keys := new ++ p.keys.filter (fun k => d.cur.any (fun c => c.1 == k.1)), broken := false, tagFails := [] }

/-- The switch to the pending generation: the generation before the one left lapses with its keys and its handles (R420,
R421). -/
def State.switchGen (s : State) (d : Domain) (g : BitVec 32 × BitVec 256) : State :=
  let old := d.cur.map Prod.fst
  let s := s.setDom (some { d with cur := some g, prev := d.cur, pending := none })
  { s with
    rsc := { s.rsc with handles := s.rsc.handles.filter (fun h => h.gen == g.1 || old == some h.gen) }
    fabric := { s.fabric with
      peers := (d.members.filter (fun m => m != Config.package && (smFind s.fabric.peers m).isNone)).foldl
        (fun ps m => smPut ps m (Peer.init.switched d g m))
        (s.fabric.peers.map (fun (k, p) => (k, p.switched d g k))) } }

/-- SWITCH (R421). -/
def execSwitch (s : State) : Out := .next (s.mboxDo 3 (fun s =>
  match s.rsc.dom with
  | none => s.mboxAnswer 1 []
  | some d => match d.pending with
    | none => s.mboxAnswer 1 []
    | some g => (s.switchGen d g).mboxAnswer 0 []))

/-- The keys of a port (R419). -/
def portKeys (d : Domain) (g : BitVec 32 × BitVec 256) (keeper keeperPort : Nat) (epoch : BitVec 32) : PortKey :=
  let k := fun label => portKey d.domain g.1 g.2 label keeper keeperPort epoch
  { gen := g.1, mask := k "sq40 mask", check := k "sq40 check", epoch := epoch }

/-- HANDLE: a handle of the current generation, with its keys; none without one, or once every ticket is used (R423). -/
def State.issueHandle (s : State) (port : Bool) (keeper keeperPort : Nat) (epoch : BitVec 32) : State :=
  match s.rsc.dom with
  | none => s.mboxAnswer 1 []
  | some d => match d.cur with
    | none => s.mboxAnswer 1 []
    | some g =>
      let n := s.rsc.ticket
      if 2 ^ 24 ≤ n then s.mboxAnswer 1 []
      else
        let h := BitVec.ofNat 32 (port.toNat * 2 ^ 31 + g.1.toNat % 128 * 2 ^ 24 + n)
        let x : Handle := { h := h, port := port, domain := d.domain, gen := g.1, key := portKeys d g keeper keeperPort epoch }
        ({ s with rsc := { s.rsc with ticket := n + 1, handles := x :: s.rsc.handles } }).mboxAnswer 0 [word h.toNat]

/-- HANDLE (R423). -/
def execHandle (port : Bool) (keeper keeperPort : Nat) (epoch : BitVec 32) (s : State) : Out :=
  .next (s.mboxDo 4 (fun s => s.issueHandle port keeper keeperPort epoch))

/-- Measurement index 8: DOMAIN, LEADER, G and the digest of the member list; while no generation is current there is no G in it
(R416, R421). -/
def State.domainDigest (s : State) : BitVec 512 :=
  match s.rsc.dom with
  | none => Config.digest []
  | some d => Config.digest ([d.domain.toNat, d.leader] ++ (d.cur.map (fun c => c.1.toNat)).toList ++ [(Config.digest d.members).toNat])

/-- A measurement by its index, 1 to 8 (R416). -/
def State.measured (s : State) (i : Nat) : BitVec 512 :=
  if i = 8 then s.domainDigest else Config.measurement s.rsc.start i

/-- A digest as eight words. -/
def digestWords (d : BitVec 512) : List Word := (List.range 8).map (fun i => word (d.toNat / 2 ^ (64 * i)))

/-- MLOG: piece n is the digest of index n + 1 (R433). -/
def execMlog (piece : Nat) (s : State) : Out := .next (s.mboxDo 5 (fun s =>
  if piece < 8 then s.mboxAnswer 0 (digestWords (s.measured (piece + 1))) else s.mboxAnswer 1 []))

/-- The RSC sends a request to another package (R415). -/
def State.rscSend (s : State) (pkg : Nat) (code : Byte) (ws : List Word) : State :=
  { s with rsc := { s.rsc with sent := ⟨pkg, code, ws⟩ :: s.rsc.sent } }

/-- The words of a DOMAIN_KEY: DOMAIN, G, the digest of the member list and the key (R418). -/
def domainKeyWords (d : Domain) (g : BitVec 32 × BitVec 256) : List Word :=
  [word d.domain.toNat, word g.1.toNat] ++ digestWords (Config.digest d.members) ++
  (List.range 4).map (fun i => word (g.2.toNat / 2 ^ (64 * i)))

/-- The one set of algorithms that the RSC offers (R415). -/
def offeredSet : List Word := [1, 1, 1, 1]

/-- The requests by which the RSC, as requester, opens a session with another package: version, capabilities, its one set of algorithms,
the peer's certificates and measurements, then the keys (R415, R418). -/
def openRequests : List (Byte × List Word) :=
  [(0x84, []), (0xE1, []), (0xE3, offeredSet), (0x81, []), (0x82, []), (0xE0, []), (0xE4, []), (0xE5, [])]

/-- The leader, as requester, opens a session with a member, and sends it the key over it when the member has passed. With one that has
not passed there is no session, and it is reported to system software (R415, R418). -/
def State.callMember (s : State) (d : Domain) (g : BitVec 32 × BitVec 256) (passed : Bool) (m : Nat) : State :=
  let s := openRequests.foldl (fun s (c, ws) => s.rscSend m c ws) s
  if passed then
    let s := { s with rsc := { s.rsc with
      asking := smPut s.rsc.asking m { phase := 5, betweenPackages := true, updates := 0 } } }
    s.rscSend m 0xFE (domainKeyWords d g)
  else { s.rscSend m 0xEC [] with hostOut := s.hostOut ++ [.memberFailed m] }

/-- Whether a package's evidence is accepted, and its measurements are those of the manifest (R417, R418). -/
def Domain.passes (d : Domain) (m n : Nat) (measured : List (BitVec 512)) (proof : List Word) : Bool :=
  Config.proofAccepted m n proof && Config.peerProved m proof && measured == d.digests

/-- The leader forms the next generation: it draws a key, and sends it to each member that passes its checks (R418). -/
def State.formDomain (s : State) (proofs : List (Nat × List (BitVec 512) × List Word)) : State :=
  match s.rsc.dom with
  | none => s
  | some d =>
    if d.leader ≠ Config.package then s
    else
      let n := s.rsc.draws
      let g := ((d.cur.map (fun c => c.1 + 1)).getD 0, Config.domainKey n)
      let others := d.members.filter (fun m => m != Config.package)
      let passes := fun (m : Nat) => (proofs.find? (fun p => p.1 == m)).any (fun p => d.passes m n p.2.1 p.2.2)
      let s := ({ s with rsc := { s.rsc with draws := n + 1 } }).setDom (some { d with
        pending := some g, sentTo := others.filter passes, acked := [], failed := others.filter (fun m => !passes m) })
      others.foldl (fun s m => s.callMember d g (passes m) m) s

/-- DOMAIN_FORM (R418). -/
def execDomainForm (proofs : List (Nat × List (BitVec 512) × List Word)) (s : State) : Out := .next (s.rscDo (fun s => s.formDomain proofs))

/-- An ERROR answer of SPDM: 0x7F and the reason, 1 negotiation failure, 2 unsupported request, 3 request out of order. -/
def State.spdmError (s : State) (why : Nat) : State := s.spdmAnswer [0x7F, word why]

/-- A member receives a domain key: installed as pending when the leader, DOMAIN and the list digest check (R418). -/
def State.takeKey (s : State) (domain gen : BitVec 32) (list : BitVec 512) (m : LeaderKey) : State :=
  match s.rsc.dom with
  | none => s.spdmError 3
  | some d =>
    let s := { s with rsc := { s.rsc with draws := s.rsc.draws + 1 } }
    if d.domain = domain ∧ Config.digest d.members = list ∧ d.passes d.leader (s.rsc.draws - 1) m.measured m.proof then
      (s.setDom (some { d with pending := some (gen, m.key) })).spdmAnswer [word gen.toNat]
    else s.spdmError 3

/-! ## Sessions (R415) -/

def State.session (s : State) (n : Nat) : Session :=
  smGet { phase := 0, betweenPackages := false, updates := 0 } s.rsc.sessions n

def State.setSession (s : State) (n : Nat) (x : Session) : State :=
  { s with rsc := { s.rsc with sessions := smPut s.rsc.sessions n x } }

/-- Whether a session has finished its handshake. -/
def State.open? (s : State) (n : Nat) : Bool := (s.session n).phase == 5

/-- DOMAIN_KEY: it travels over a session between packages that has finished its handshake (R415, R418). -/
def execDomainKey (session : Nat) (domain gen : BitVec 32) (list : BitVec 512) (m : LeaderKey) (s : State) : Out :=
  .next (s.rscDo (fun s =>
  if s.open? session && (s.session session).betweenPackages then s.takeKey domain gen list m
  else s.spdmError 3))

/-- DOMAIN_ACK of a member over the session that the leader has opened with it; the leader ends that session (R418). -/
def execDomainAck (member : Nat) (s : State) : Out := .next (s.rscDo (fun s =>
  match s.rsc.dom with
  | none => s
  | some d =>
    if d.sentTo.contains member && !d.acked.contains member && (smFind s.rsc.asking member).isSome then
      let s := { s with rsc := { s.rsc with asking := smErase s.rsc.asking member } }
      (s.setDom (some { d with acked := setAdd d.acked member })).rscSend member 0xEC []
    else s))

/-! ## Memory key slots (R424, R425) -/

/-- LOAD_SLOT (R424): the answer is 0 for done and 1 for refused. -/
def State.loadSlot (s : State) (session slot jid : Nat) (wrapped : List Word) : State :=
  if !s.open? session then s.spdmError 3
  else match s.job? jid, Config.unwrap session wrapped with
    | some j, some n =>
      if (smFind s.rsc.slots slot).isNone ∧ slot < 2048 ∧ j.ksbase ≤ slot ∧ slot < j.ksbase + j.kscnt then
        ({ s with rsc := { s.rsc with
          loads := s.rsc.loads + 1
          slots := smPut s.rsc.slots slot { ctx := j.ctx, load := n, closing := false, session := session } } }).spdmAnswer [0]
      else s.spdmAnswer [1]
    | _, _ => s.spdmAnswer [1]

/-- LOAD_SLOT (R424). -/
def execLoadSlot (session slot jid : Nat) (wrapped : List Word) (s : State) : Out :=
  .next (s.rscDo (fun s => s.loadSlot session slot jid wrapped))

/-- UNLOAD_SLOT: new accesses are refused from now on, and the slot becomes EMPTY when none is in flight (R425). -/
def State.unloadSlot (s : State) (session slot : Nat) : State :=
  if !s.open? session then s.spdmError 3
  else match smFind s.rsc.slots slot with
    | some k =>
      if k.session ≠ session then s.spdmAnswer [1]
      else
        let s := { s with rsc := { s.rsc with slots := smPut s.rsc.slots slot { k with closing := true } } }
        s.slotsSettle.spdmAnswer [0]
    | none => s.spdmAnswer [1]

/-- UNLOAD_SLOT (R424, R425). -/
def execUnloadSlot (session slot : Nat) (s : State) : Out := .next (s.rscDo (fun s => s.unloadSlot session slot))

/-! ## SPDM (R415, R416) -/

/-- Answers a request of a session that has come to a phase; one out of order gets ERROR. -/
def State.spdm (s : State) (n phase code : Nat) (w : List Word) (f : Session → Session) : State :=
  let x := s.session n
  if x.phase < phase then s.spdmError 3 else (s.setSession n (f x)).spdmOpen code w

/-- GET_VERSION begins a session's exchange anew; it is answered whatever the start found (R415, R416). -/
def execGetVersion (session : Nat) (w : List Word) (s : State) : Out := .next (
  s.spdm session 0 0x84 w (fun _ => { phase := 1, betweenPackages := false, updates := 0 }))

/-- GET_CAPABILITIES (R415). -/
def execGetCapabilities (session : Nat) (w : List Word) (s : State) : Out := .next (s.rscDo (fun s =>
  s.spdm session 1 0xE1 w (fun x => { x with phase := Nat.max x.phase 2 })))

/-- NEGOTIATE_ALGORITHMS: exactly one set is accepted (R415). -/
def execNegotiateAlgorithms (session : Nat) (a : AlgSet) (s : State) : Out := .next (s.rscDo (fun s =>
  if (s.session session).phase < 2 then s.spdmError 3
  else if a.rsaPss4096 && a.sha512 && a.ecdheP384 && a.aes256Gcm then
    s.spdm session 2 0xE3 [] (fun x => { x with phase := Nat.max x.phase 3 })
  else { s.spdmError 1 with rsc := { s.rsc with sessions := smErase s.rsc.sessions session } }))

/-- GET_DIGESTS (R415). -/
def execGetDigests (session : Nat) (w : List Word) (s : State) : Out := .next (s.rscDo (fun s =>
  s.spdm session 3 0x81 w id))

/-- GET_CERTIFICATE: slot 0 holds the chain (R415). -/
def execGetCertificate (session slot : Nat) (w : List Word) (s : State) : Out := .next (s.rscDo (fun s =>
  if slot = 0 then s.spdm session 3 0x82 w id else s.spdmError 2))

/-- CHALLENGE (R415). -/
def execChallenge (session : Nat) (w : List Word) (s : State) : Out := .next (s.rscDo (fun s =>
  s.spdm session 3 0x83 w id))

/-- GET_MEASUREMENTS: the digest of an index, 1 to 8 (R416). It is answered whatever the start found. -/
def execGetMeasurements (_session index : Nat) (_w : List Word) (s : State) : Out := .next (
  if 1 ≤ index ∧ index ≤ 8 then s.spdmAnswer (digestWords (s.measured index)) else s.spdmError 2)

/-- KEY_EXCHANGE (R415). -/
def execKeyExchange (session : Nat) (betweenPackages : Bool) (w : List Word) (s : State) : Out := .next (s.rscDo (fun s =>
  s.spdm session 3 0xE4 w (fun x => { x with phase := 4, betweenPackages := betweenPackages })))

/-- FINISH: a peer whose proof is not accepted gets no session, nor does a package that does not authenticate itself (R415,
R418). -/
def execFinish (session : Nat) (proof : List Word) (s : State) : Out := .next (s.rscDo (fun s =>
  if (s.session session).phase ≠ 4 then s.spdmError 3
  else
    let n := s.rsc.draws
    let s := { s with rsc := { s.rsc with draws := n + 1 } }
    let known := !(s.session session).betweenPackages || Config.peerProved session proof
    if Config.proofAccepted session n proof && known then s.spdm session 4 0xE5 [] (fun x => { x with phase := 5 })
    else { s.spdmError 3 with rsc := { s.rsc with sessions := smErase s.rsc.sessions session } }))

/-- KEY_UPDATE (R415). -/
def execKeyUpdate (session : Nat) (s : State) : Out := .next (s.rscDo (fun s =>
  s.spdm session 5 0xE9 [] (fun x => { x with updates := x.updates + 1 })))

/-- HEARTBEAT (R415). -/
def execHeartbeat (session : Nat) (s : State) : Out := .next (s.rscDo (fun s => s.spdm session 5 0xE8 [] id))

/-- END_SESSION (R415). -/
def execEndSession (session : Nat) (s : State) : Out := .next (s.rscDo (fun s =>
  if !s.open? session then s.spdmError 3
  else
    let s := s.spdmOpen 0xEC []
    { s with rsc := { s.rsc with sessions := smErase s.rsc.sessions session } }))

/-- The request codes of R415, each with an event of its own; 0xFE are the domain's messages. -/
def spdmCodes : List Byte := [0x81, 0x82, 0x83, 0x84, 0xE0, 0xE1, 0xE3, 0xE4, 0xE5, 0xE8, 0xE9, 0xEC, 0xFE]

/-- Every other request code gets ERROR UnsupportedRequest (R415; the codes are those of SPDM 1.3: PRESUMED, log 27). -/
def State.otherRequest (s : State) (code : Byte) : State :=
  if spdmCodes.contains code then s else s.rscDo (fun s => s.spdmError 2)

/-! ## IDE and TDISP (R430) -/

/-- IDE_KM: stream 0 stands for link IDE, 1 to 4 for the selective streams (R430). -/
def execIdeKm (session stream : Nat) (key : BitVec 256) (s : State) : Out := .next (s.rscDo (fun s =>
  if !s.open? session then s.spdmError 3
  else if 4 < stream then s.spdmAnswer [1]
  else ({ s with rsc := { s.rsc with ide := smPut s.rsc.ide stream key } }).spdmAnswer [0]))

/-- LOCK_INTERFACE: an unlocked TDI becomes locked (R430). -/
def execLockInterface (session vf : Nat) (s : State) : Out := .next (s.rscDo (fun s =>
  if !s.open? session ∨ 64 ≤ vf ∨ smGet 0 s.tdi vf ≠ 0 then s.spdmError 3
  else ({ s with tdi := smPut s.tdi vf 1 }).spdmAnswer [0]))

/-- STOP_INTERFACE (R430). -/
def execStopInterface (session vf : Nat) (s : State) : Out := .next (s.rscDo (fun s =>
  if !s.open? session ∨ 64 ≤ vf then s.spdmError 3 else ({ s with tdi := smErase s.tdi vf }).spdmAnswer [0]))

/-- A TLP breaks the state of a locked TDI: it goes to ERROR, every job of the VF is cancelled with CAUSE 0xFE, and its
queues halt (R430). -/
def State.tdiError (s : State) (v : Nat) : State :=
  if smGet 0 s.tdi v ≠ 1 then s
  else
    let s := { s with tdi := smPut s.tdi v 2 }
    let s := (s.jobs.filter (fun j => j.vfn == some v)).foldl (fun s j => s.cancelJob j.jid 0xFE) s
    (List.range 16).foldl (fun s q => s.haltQueue (16 * (v + 1) + q) 1) s

/-- TDISP_VIOLATION (R430). -/
def execTdispViolation (vf : Nat) (s : State) : Out := .next (s.tdiError vf)

end Sys2Proof.Machine
end

