-- ==== Sys2Proof/Machine/Cp.lean ====
section
/-!
DEFINITION. The command processors' custom instructions and their traps (R434, R435).
Log entries (notes/assumptions): 7 PRESUMED, 11 DESIGN CHOICE.
-/
namespace Sys2Proof.Machine

def State.cp (s : State) (n : Nat) : Cp := smGet Cp.init s.cps n

def State.setCp (s : State) (n : Nat) (c : Cp) : State := { s with cps := smPut s.cps n c }

/-- x0 reads as zero. -/
def Cp.reg (c : Cp) (r : BitVec 5) : Word := if r = 0 then 0 else smGet 0 c.x r.toNat

/-- A write of x0 is discarded. -/
def Cp.setReg (c : Cp) (r : BitVec 5) (v : Word) : Cp := if r = 0 then c else { c with x := smPut c.x r.toNat v }

/-- Bytes of scratch memory (R434). -/
def cpScratch : Nat := 0x40000

/-- mcycle (R434; PRESUMED, log entry 7): it counts the core cycles that pass, unless it is inhibited. -/
def Cp.mcycle (c : Cp) (now : Nat) : Word := if c.inhibit.getLsbD 0 then c.mcyc else c.mcyc + word now

/-- An instruction has completed: minstret counts it, unless it is inhibited. -/
def Cp.retire (c : Cp) : Cp := if c.inhibit.getLsbD 2 then c else { c with minstret := c.minstret + 1 }

/-- A trap into machine mode: mepc, mcause and mtval, MPIE from MIE, MIE 0, MPP machine mode, and the pc at mtvec's base
(R434, R435). -/
def Cp.trap (c : Cp) (cause tval : Nat) : Cp :=
  let mie := c.mstatus.getLsbD 3
  let st := (c.mstatus &&& ~~~(0x88 : Word)) ||| 0x1800 ||| (if mie then 0x80 else 0)
  { c with
    mepc := c.pc, mcause := word cause, mtval := word tval, mstatus := st, pc := c.mtvec &&& ~~~(3 : Word), sig := none }

/-- The acting command processor. -/
def State.myCp (s : State) : Cp := s.cp s.curCp

/-- The acting command processor takes a trap. -/
def State.cpTrap (s : State) (cause tval : Nat) : State := s.setCp s.curCp (s.myCp.trap cause tval)

/-- The acting command processor writes rd and goes on. -/
def State.cpDone (s : State) (rd : BitVec 5) (v : Word) : State :=
  let c := (s.myCp.setReg rd v).retire
  s.setCp s.curCp { c with pc := c.pc + 4, sig := none }

/-- The interrupt that a command processor takes before its next instruction, if any: external, software, timer, in this order
(PRESUMED, log entry 7). -/
def Cp.interrupt (c : Cp) : Option Nat :=
  let on := c.mip &&& c.mie
  if !c.mstatus.getLsbD 3 then none else [11, 3, 7].find? (fun n => on.getLsbD n)

/-- A command processor takes an interrupt: mepc is at the instruction that it has not run, a SIGWAIT that it stands on among them
(R435), and a vectored mtvec sends it to the cause's entry. -/
def Cp.takeInterrupt (c : Cp) (n : Nat) : Cp :=
  let c' := c.trap n 0
  { c' with mcause := word (2 ^ 63 + n), pc := if c.mtvec.getLsbD 0 then c'.pc + word (4 * n) else c'.pc }

/-- RFETCH (R435) reads the packet at its place in the ring (R367). The bytes of the host's memory are open; the next choice
tells whether the read fails. -/
def execRfetch (x : CpR) (s : State) : Out := .next (
  let c := s.myCp
  let a := c.reg x.rs1
  let at_ := (c.reg x.rs2).toNat
  let q := Word.bits a 0 11
  let y := s.queue q
  if at_ % 64 ≠ 0 ∨ cpScratch < at_ + 64 then s.cpTrap 24 1
  else if !isQueue q then s.cpTrap 24 2
  else if !y.en ∨ y.halt then s.cpTrap 24 3
  else if !y.inWindow (Word.bits a 32 32) then s.cpTrap 24 4
  else
    let i := Word.bits a 32 32
    let (fails, s) := (s.readRing q i 64).choose
    if fails = 1 then (s.haltQueue q 3).cpTrap 24 5
    else
      let bs := (List.range 64).map (fun n => Config.outsideByte s.free ((y.slot i).toNat + n))
      let s := { s.pokeBytes 0 (cpKey s.curCp at_) bs with free := s.free + 1 }
      s.cpDone x.rd (wd (wordsOf bs) 0))

/-- BFEX (R435). -/
def execBfex (x : CpR) (s : State) : Out := .next (
  let b := s.myCp.reg x.rs2
  let pos := Word.bits b 0 6
  let len := Word.bits b 6 6 + 1
  if 64 < pos + len ∨ Word.bits b 12 52 ≠ 0 then s.cpTrap 25 1
  else s.cpDone x.rd (word (Word.bits (s.myCp.reg x.rs1) pos len)))

/-- SIGWAIT: until the relation holds the command processor stands on it (R435). A reserved relation is an illegal
instruction. -/
def State.sigwaitBy (s : State) (look : Look) (rel : BitVec 7) (x : CpR) : State :=
  let c := s.myCp
  let va := (c.reg x.rs1).toNat
  if 5 < rel.toNat then s.cpTrap 2 0
  else match s.job? c.cpjid.toNat with
    | none => s.cpTrap 26 1
    | some j =>
      if va % 8 ≠ 0 then s.cpTrap 26 2
      else if 2 ^ 56 ≤ va then s.cpTrap 26 3
      else match look s j va 8 with
        | .error f => (s.noteBad f).cpTrap 26 3
        | .ok (bs, s) =>
          if relHolds rel.toNat 64 (ofBytes bs) (c.reg x.rs2).toNat then s.cpDone x.rd 1
          else s.setCp s.curCp { c with sig := some (rel, x) }

/-- SIGWAIT reads its word as it stands. -/
def State.sigwait (s : State) (rel : BitVec 7) (x : CpR) : State := s.sigwaitBy State.gRead rel x

/-- SIGWAIT (R435). -/
def execSigwait (rel : BitVec 7) (x : CpR) (s : State) : Out := .next (s.sigwait rel x)

/-! ## What the command processors watch (R181, R368, R435) -/

/-- Memory as a wait on n bytes of a job's memory has to see it: after each commit that touched them in this part's own memory. What
lies elsewhere is read by its own event. -/
def State.sightsOf (s : State) (j : Option Job) (va n : Nat) : List State :=
  match j with
  | none => []
  | some j => match s.xlateJob j false (va % 2 ^ 56) with
    | .ok (.mem key _ _, _) => s.sights key n
    | _ => []

/-- The word that a waiting packet of a queue waits for is read again; `o` is the state in which the commits were made. -/
def State.seeQueue (o s : State) (q : Nat) (x : Queue) : State :=
  match x.active.find? (fun e => pkKind e.w == 5 && e.st == 1) with
  | none => s
  | some e => (o.sightsOf (o.job? (pkJid e.w)) (wd e.w 1).toNat 8).foldl (fun s v =>
      if (s.queue q).active.any (fun y => y.idx == e.idx && y.st == 1) then s.waitMemBy (lookAt v) q else s) s

/-- The block that a graph run waits for is read again. -/
def State.seeRun (o s : State) (r : Run) : State :=
  let block := if !r.atLoop then none else match o.job? r.jid with
    | some j => match o.gBytes j ((r.addr.toNat + 32 + 32 * r.node) % 2 ^ 56) 32 with
      | .ok (bs, _) => some (wd (wordsOf bs) 1).toNat
      | .error _ => none
    | none => none
  match block with
  | none => s
  | some va => (o.sightsOf (o.job? r.jid) va 64).foldl (fun s v =>
      if (s.run? r.id).any (fun y => y.atLoop) then s.loopNodeBy (lookAt v) r.id else s) s

/-- The word that a command processor waits for is read again. -/
def State.seeCp (o s : State) (n : Nat) (c : Cp) : State :=
  match c.sig with
  | some (rel, x) => (o.sightsOf (o.job? c.cpjid.toNat) (c.reg x.rs1).toNat 8).foldl (fun s v =>
      if (s.cp n).sig.isSome then { { s with curCp := n }.sigwaitBy (lookAt v) rel x with curCp := s.curCp } else s) s
  | none => s

/-- Everything that waits on a word in memory reads it again at each commit that touches it, in the order of the commits (R181, R368,
R435). -/
def State.seen (s : State) : State :=
  let o := s
  let s := { s with fresh := 0 }
  let s := o.queues.foldl (fun s (q, x) => o.seeQueue s q x) s
  let s := o.runs.foldl (fun s r => o.seeRun s r) s
  o.cps.foldl (fun s (n, c) => o.seeCp s n c) s

/-- DISP: rd is 1 when the launch is refused (R435). -/
def execDisp (x : CpR) (s : State) : Out := .next (
  let c := s.myCp
  let va := (c.reg x.rs1).toNat
  match s.job? c.cpjid.toNat with
  | none => s.cpTrap 27 1
  | some j =>
    if va % 64 ≠ 0 then s.cpTrap 27 2
    else
      let (l, s) := s.dispatch j (va % 2 ^ 56) none
      s.cpDone x.rd (wordB (s.launchRefused l)))

end Sys2Proof.Machine
end

