-- ==== Sys2Proof/Machine/Fabric.lean ====
section
/-!
DEFINITION. The fabric and the host link as the package meets them: requests and packets of other packages, acknowledgements
and answers, and read completions (R93 to R96, R267, R420).
Log entries (notes/assumptions): 13 DESIGN CHOICE, 15 DEDUCED, 28 DEDUCED, 31 DEDUCED, 34 DEDUCED, 48 DESIGN CHOICE.
-/
namespace Sys2Proof.Machine

def State.peer (s : State) (pkg : Nat) : Peer := smGet Peer.init s.fabric.peers pkg

def State.setPeer (s : State) (pkg : Nat) (p : Peer) : State :=
  { s with fabric := { s.fabric with peers := smPut s.fabric.peers pkg p } }

/-- Whether a receiving port accepts a generation: the one in use or the one before it (R420, R421). Without a domain
there is generation 0 alone. -/
def State.acceptsGen (s : State) (g : BitVec 32) : Bool :=
  match s.rsc.dom with
  | none => g == 0
  | some d => d.cur.any (fun x => x.1 == g) || d.prev.any (fun x => x.1 == g) || (d.cur.isNone && g == 0)

/-- Changes the record of a copy's transfer wherever it is: on a tile, or in a saved watch. -/
def State.onTransfer (s : State) (num : Nat) (f : TagRec → TagRec) : State :=
  let tags := fun (m : SMap TagRec) => m.map (fun (n, r) => (n, if r.transfer = num then f r else r))
  let saved := fun (ws : List Saved) => ws.map (fun w => { w with tags := tags w.tags })
  { s with
    tiles := s.tiles.map (fun (t, x) => (t, { x with tags := tags x.tags }))
    launches := s.launches.map (fun l => { l with saved := saved l.saved, slice := saved l.slice }) }

/-- The tile and the tag of a BUSY copy's transfer. -/
def State.transferAt (s : State) (num : Nat) : Option (Nat × Nat) :=
  s.tiles.findSome? (fun (t, x) => (x.tags.find? (fun (_, r) => r.transfer == num && r.st == .busy)).map (fun (n, _) => (t, n)))

/-- A copy of whose transfer a request was refused, or is outstanding on a broken pair, becomes FAULTED (R420). -/
def State.transferFaulted (s : State) (num : Nat) (write : Bool) (code : Byte) (cause : Nat) : State :=
  match s.transferAt num with
  | some (t, tag) =>
    let r := (s.tile t).tag tag
    let (a, buf) := if write then (r.dst, r.dbuf) else (r.src, r.sbuf)
    s.copyFaulted t tag (mkTrap code a (if write then 4 else 3) (if buf then 15 else spaceCode a) t cause)
  | none => s

/-- Bytes of a copy were refused: it goes on later from the 64-byte piece that was (R420). -/
def State.copyRefused (s : State) (bytes ofs num : Nat) (code : Byte) (cause : Nat) : State :=
  (s.onTransfer num (fun r => if ofs < r.total then r.unmove ofs bytes else { r with ended := false })).transferFaulted num true
    code cause

/-- A pair breaks: the copies with requests outstanding on it become FAULTED (R420). -/
def State.breakPair (s : State) (pkg : Nat) : State :=
  let s := s.setPeer pkg { s.peer pkg with broken := true }
  let ended := fun (s : State) (o : FabOut) =>
    { s with fabric := { s.fabric with pending := s.fabric.pending.filter (fun p => p.id != o.id) } }
  (s.fabric.pending.filter (fun o => o.pkg == pkg)).foldl (fun s o => match o.what with
    | .copy _ _ bytes ofs num => (ended s o).copyRefused bytes ofs num Code.protection 0x18
    | .copyRead _ _ _ num => (ended s o).transferFaulted num false Code.protection 0x18
    | _ => s) s

/-- The name of a request, of a data packet and of an answer among those whose tags have failed. -/
def requestName (r : FabReq) : Nat := r.gen.toNat * 2 ^ 64 + r.seq
def packetName (p : FabPkt) : Nat := 2 ^ 100 + p.transfer * 2 ^ 44 + p.pa
def answerName (id : Nat) : Nat := 2 ^ 200 + id

/-- A message whose tag fails is discarded, and the link sends it again; the eighth failure of one in a row breaks the pair
(R420). -/
def State.tagFailed (s : State) (pkg name : Nat) : State :=
  let n := smGet 0 (s.peer pkg).tagFails name + 1
  let s := s.setPeer pkg { s.peer pkg with tagFails := smPut (s.peer pkg).tagFails name n }
  if n = 8 then s.breakPair pkg else s

/-- A message whose tag holds ends its row of failures. -/
def State.tagHolds (s : State) (pkg name : Nat) : State :=
  s.setPeer pkg { s.peer pkg with tagFails := smErase (s.peer pkg).tagFails name }

/-- Answers a request of another package: its bytes, none for a store; or a refusal. -/
def State.answerFab (s : State) (pkg seq : Nat) (a : Option (List Byte)) : State :=
  { s with fabric := { s.fabric with answers := s.fabric.answers ++ [(pkg, seq, a)] } }

/-- Applies a request as one single-access commit (R93, R275), and what it answers. The memory holds its bytes under no key
of this package. A read that meets an uncorrectable error delivers nothing, which is what an answer without bytes says
(R69). -/
def State.applyOp (s : State) (src pa : Nat) (op : FabOp) (vf : Option Nat) : List Byte × State :=
  let (pas, op) := match op with
    | .spread pas op => (some pas, op)
    | op => (none, op)
  let key := hbmKey pa
  let read := fun (n : Nat) (f : List Byte → List Byte × State) => match pas with
    | none => match s.badWord key n with
      | some p => ([], s.logCheck 0 0xF1 (word p))
      | none => f (s.readBytes 0 key n)
    | some pas => match pas.findSome? (fun a => s.badWord (hbmKey a) 1) with
      | some p => ([], s.logCheck 0 0xF1 (word p))
      | none => f (pas.map (fun a => s.readByte 0 (hbmKey a)))
  let write := fun (bs : List Byte) => match pas with
    | none => s.commitBytes (1024 + src) vf 0 key bs
    | some pas => (pas.zip bs).foldl (fun s (a, b) => s.commitBytes (1024 + src) vf 0 (hbmKey a) [b]) s
  match op with
  | .load n => read n (fun bs => (bs, s))
  | .store bs => ([], write bs)
  | .atomic op wide uns v nv =>
    let w := if wide then 64 else 32
    read (w / 8) (fun old => (old, match atomicNew op w uns (ofBytes old) (v.toNat % 2 ^ w) (nv.toNat % 2 ^ w) with
      | some x => write (toBytes (w / 8) x)
      | none => s))
  | .reduce ety op srcs => read (srcs.headD []).length (fun old =>
      let (new, sat, flags) := reduceBytes ety op old srcs
      (toBytes 8 sat ++ toBytes 1 flags, write new))
  | .spread _ _ => ([], s)

/-- Applies a request and answers it. -/
def State.applyFab (s : State) (src seq pa : Nat) (op : FabOp) (vf : Option Nat) : State :=
  let (bs, s) := s.applyOp src pa op vf
  s.answerFab src seq (some bs)

/-- A request of another package arrives (R93, R420): it is applied once, in sequence order. -/
def State.fabricApply (s : State) (r : FabReq) : State :=
  let p := s.peer r.src
  let g := r.gen.toNat
  let next := smGet 0 p.recv g
  if p.broken ∨ s.soloPackage then s
  else if !r.tagOk then s.tagFailed r.src (requestName r)
  else
    let s := s.tagHolds r.src (requestName r)
    if r.seq < next then s
    else if !s.acceptsGen r.gen then s.answerFab r.src r.seq none
    else if next < r.seq then s
    else (s.setPeer r.src { s.peer r.src with recv := smPut p.recv g (r.seq + 1) }).applyFab r.src r.seq r.pa r.op r.vf

/-- FABRIC_REQUEST_APPLY (R93, R420). -/
def execFabricRequestApply (r : FabReq) (s : State) : Out := .next (s.fabricApply r)

/-- Bytes of its destination that a packet brings. -/
def fabSize (op : FabOp) : Nat :=
  match op with
  | .store bs => bs.length
  | .reduce _ _ srcs | .spread _ (.reduce _ _ srcs) => (srcs.headD []).length
  | _ => 0

/-- Whether a packet updates what it finds, so that it may not be applied twice (R275). -/
def isReduce (op : FabOp) : Bool :=
  match op with
  | .reduce _ _ _ | .spread _ (.reduce _ _ _) => true
  | _ => false

/-- A data packet of another package's copy arrives (R95): it is applied on arrival, and when the transfer's bytes are all
there its flag is written. A packet of a reduce-put that has been applied is not applied again when its sender, which did not
learn that, resumes (R93, R275). -/
def State.packetApply (s : State) (p : FabPkt) : State :=
  if (s.peer p.src).broken ∨ s.soloPackage then s
  else if !p.tagOk then s.tagFailed p.src (packetName p)
  else
    let s := s.tagHolds p.src (packetName p)
    let key := 2 ^ 32 * p.src + p.transfer
    let done := smGet [] s.fabric.reduced key
    if !s.acceptsGen p.gen then s.answerFab p.src p.transfer none
    else if isReduce p.op ∧ done.contains p.pa then s.answerFab p.src p.transfer (some (toBytes 9 0))
    else
      let n := smGet 0 s.fabric.xfers key + fabSize p.op
      let (bs, s) := s.applyOp p.src p.pa p.op p.vf
      let s := { s with fabric := { s.fabric with
        xfers := smPut s.fabric.xfers key (if p.total ≤ n then 0 else n)
        reduced := if isReduce p.op ∧ !bs.isEmpty then smPut s.fabric.reduced key (p.pa :: done) else s.fabric.reduced } }
      let s := match p.flag with
        | some f => if p.total ≤ n then s.commitBytes (1024 + p.src) p.vf 0 (hbmKey f) (toBytes 8 1) else s
        | none => s
      s.answerFab p.src p.transfer (some bs)

/-- FABRIC_DATA_PACKET (R95). -/
def execFabricDataPacket (p : FabPkt) (s : State) : Out := .next (s.packetApply p)

/-- Bytes that the answer to a request holds. -/
def answerLen (op : FabOp) : Nat :=
  match op with
  | .load n => n
  | .store _ => 0
  | .atomic _ wide _ _ _ => if wide then 8 else 4
  | .reduce _ _ _ => 9
  | .spread _ op => match op with
    | .atomic _ wide _ _ _ => if wide then 8 else 4
    | .reduce _ _ _ => 9
    | .load n => n
    | _ => 0

/-- An answer reaches the core that asked; none stands for a word with an uncorrectable error. -/
def Core.answered (c : Core) (id : Nat) (data : Option (List Byte)) (refused : Bool) : Core :=
  { c with ext := c.ext.map (fun e =>
      if e.waiting ∧ e.id = id then
        (if refused then { e with waiting := false, refused := e.place :: e.refused }
        else match data with
          | some bs => { e with waiting := false, got := smPut e.got e.place bs }
          | none => { e with waiting := false, bad := e.place :: e.bad })
      else e) }

/-- A fabric store of a core, which may have been saved meanwhile, has been acknowledged or refused (R94, R420). -/
def Core.acked (c : Core) (id : Nat) (refused : Bool) : Core :=
  { c with fab := c.fab.filter (fun n => n != id), fabRefused := c.fabRefused || (refused && c.fab.contains id) }

/-- The same, wherever the core is: on a tile, or in a saved watch. -/
def State.storeAcked (s : State) (id : Nat) (refused : Bool) : State :=
  let cores := fun (cs : SMap Core) => cs.map (fun (k, c) => (k, c.acked id refused))
  let saved := fun (ws : List Saved) => ws.map (fun w => { w with cores := cores w.cores })
  { s with
    tiles := s.tiles.map (fun (t, x) => (t, { x with cores := cores x.cores }))
    launches := s.launches.map (fun l => { l with saved := saved l.saved, slice := saved l.slice }) }

/-- An answer reaches the instruction of a tile's array that waits for it (R330, R331). -/
def State.pieceAnswered (s : State) (t id : Nat) (bs : List Byte) : State :=
  s.updTile t (fun x => { x with mq := x.mq.map (fun m => match smFind m.asked id with
    | some o => { m with asked := smErase m.asked id, got := if bs.isEmpty then m.got else smPut m.got o bs }
    | none => m) })

/-- A piece of a spill or fill that was refused for its generation goes out again (DESIGN CHOICE, log entry 34: R420 does not
say what it does). -/
def State.pieceAgain (s : State) (t id : Nat) (m : FabMsg) : State :=
  let (id', s) := s.sendFab m.pkg m.pa m.op (.array t) none
  s.updTile t (fun x => { x with mq := x.mq.map (fun n => match smFind n.asked id with
    | some o => { n with asked := smPut (smErase n.asked id) id' o }
    | none => n) })

/-- A piece of a fill had an uncorrectable error: the instruction stops (R404). -/
def State.pieceBad (s : State) (t id : Nat) : State :=
  match (s.tile t).mq.zipIdx.find? (fun (m, _) => (smFind m.asked id).isSome) with
  | none => s
  | some (m, n) =>
    let i := mkTrap 0xF1 m.a 3 0 t 0
    (((s.updTile t (fun x => { x with mq := x.mq.eraseIdx n })).letGo t m.slabs).logCheck t i.code i.cfad).pendCore t .m 1 i

/-- The answer to a read of a copy's source reaches the copy, if it still asks for it. -/
def TagRec.answered (r : TagRec) (place : Nat) (bs : List Byte) : TagRec :=
  if (smFind r.asked place).isSome then { r with asked := smErase r.asked place, ans := smPut r.ans place bs } else r

/-- Another package acknowledges, answers or refuses a request, or reports the pair broken (R93 to R95, R420). An answer whose
tag fails is discarded, and comes again. -/
def State.fabricAck (s : State) (id : Nat) (data : List Byte) (st : FabAns) : State :=
  match s.fabric.pending.find? (fun o => o.id == id), s.fabric.out.find? (fun m => m.id == id) with
  | some o, some m =>
    let refused := st == .refused
    if st = .badTag then s.tagFailed o.pkg (answerName id)
    else if st = .broken then s.breakPair o.pkg
    else if !refused ∧ data.length ≠ answerLen m.op ∧ !data.isEmpty then s
    else
      let s := s.tagHolds o.pkg (answerName id)
      let s := { s with fabric := { s.fabric with pending := s.fabric.pending.filter (fun p => p.id != id) } }
      match o.what with
      | .core t k => s.updCore t k (fun c => c.answered id (if data.length = answerLen m.op then some data else none) refused)
      | .store _ _ => s.storeAcked id refused
      | .array t =>
        if refused then s.pieceAgain t id m
        else if data.length ≠ answerLen m.op then s.pieceBad t id
        else s.pieceAnswered t id data
      | .copy _ _ bytes ofs num =>
        if refused then s.copyRefused bytes ofs num Code.busEpoch 0x06
        else if data.length ≠ answerLen m.op then s.copyRefused bytes ofs num 0xF1 0
        else
          let s := if isReduce m.op then s.onTransfer num (fun r => r.tally (ofBytes (data.take 8)) (ofBytes (data.drop 8))) else s
          match s.transferAt num with
          | some (t, tag) => s.copyEnd t tag []
          | none => s
      | .copyRead _ _ place num =>
        if refused then s.transferFaulted num false Code.busEpoch 0x06
        else if data.length ≠ answerLen m.op then s.transferFaulted num false 0xF1 0
        else s.onTransfer num (fun r => r.answered place data)
  | _, _ => s

/-! ## Standing behind a fence (R267) -/

/-- Whether a fabric store of the core before its FENCE.F, or a copy that its tile's X-core had begun by then, has still to be
applied and acknowledged (R94): a copy when a packet or read of it is on its way, or when it is BUSY with bytes outside the
package to move. -/
def State.fabricDue (s : State) (t : Nat) (k : CoreK) (f : Fence) : Bool :=
  !(s.core t k).fab.isEmpty || f.nums.any s.transferDue ||
    (s.tile t).tags.any (fun (n, r) => r.st == .busy && f.nums.contains r.transfer && s.copyRemote t n r)

/-- The chunk after a fence cannot begin yet (R267). -/
def State.fenceDue (s : State) (t : Nat) (k : CoreK) (f : Fence) : Bool :=
  match f.kind with
  | 1 => (s.core t k).fabRefused || s.fabricBroken (s.core t k) || s.fabricDue t k f
  | 2 => s.engineDue t k
  | _ => (s.core t k).hostAt.isSome

/-- A core stands behind a fence. A FENCE.F whose store has been refused, or is outstanding on a broken pair, faults and is issued
again (R420); FENCE.E is one of the waits of R390; for FENCE.H a zero-length read goes out after the core's last store to a
host page, and its completion ends the wait. -/
def State.standFence (s : State) (t : Nat) (k : CoreK) (f : Fence) : State :=
  let c := s.core t k
  match f.kind with
  | 1 =>
    let fault := fun (s : State) (i : TrapInfo) =>
      if s.soloBlocked t k then s
      else (s.setCore t k { s.core t k with fabRefused := false, fence := none }).enterTrap t k i (f.ip.truncate 19)
        (if f.inSlot then c.regs.ip.truncate 19 else c.regs.ctnpc) f.inSlot
        (if f.inSlot then some { target := c.regs.ip, act := .plain, notice := none } else none)
    if c.fabRefused then fault s (mkTrap Code.busEpoch f.ip 0 15 t 0x06)
    else if s.fabricBroken c then fault s (mkTrap Code.protection f.ip 0 15 t 0x18)
    else s
  | 2 => s.setCore t k { c with stalled := true }
  | _ => match c.hostAt with
    | some n =>
      if s.hostReads.any (fun r => r.t == t && r.k == k && r.len == 0 && decide (n ≤ r.id)) then s
      else (s.sendHostRead t k 0 0).2
    | none => s

/-- FABRIC_ACK (R93, R94). -/
def execFabricAck (id : Nat) (data : List Byte) (st : FabAns) (s : State) : Out := .next (s.fabricAck id data st)

/-! ## The host link -/

/-- A read completion returns (R267). A read that failed gives its core open bytes; a zero-length one ends the wait of
FENCE.H. -/
def State.hostReadDone (s : State) (id : Nat) (data : Option (List Byte)) : State :=
  match s.hostReads.find? (fun r => r.id == id) with
  | none => s
  | some r =>
    if data.any (fun d => d.length != r.len) then s
    else
      let s := { s with hostReads := s.hostReads.filter (fun x => x.id != id) }
      if r.len = 0 then s.updCore r.t r.k (fun c => { c with hostAt := c.hostAt.filter (fun n => decide (r.id < n)) })
      else
        let (bs, s) := match data with
          | some d => (d, s)
          | none => ((List.range r.len).map (fun i => Config.outsideByte s.free i), { s with free := s.free + 1 })
        (s.updCore r.t r.k (fun c => c.answered id (some bs) false)).pieceAnswered r.t id bs

/-- HOST_READ_COMPLETION (R267). -/
def execHostReadCompletion (id : Nat) (data : Option (List Byte)) (s : State) : Out := .next (s.hostReadDone id data)

/-- A loop-count block on another package is read again for a bind that waits for it: the answer is dropped, and the bind's
next issue sends another uncached read (R181). -/
def State.blockReread (s : State) (t : Nat) (k : CoreK) (id : Nat) : State :=
  let c := s.core t k
  if c.stalled ∧ c.chunk.any (·.binds) ∧ c.ext.any (·.id == id) then s.setCore t k { c with ext := none } else s

/-- REMOTE_BLOCK_REREAD (R181). -/
def execRemoteBlockReread (t : Nat) (k : CoreK) (id : Nat) (s : State) : Out := .next (s.blockReread t k id)

end Sys2Proof.Machine
end

