-- ==== Sys2Proof/Machine/Scalar.lean ====
section
/-!
DEFINITION. The scalar entries of OPC 0x000 to 0x05F (R218 to R232).
-/
namespace Sys2Proof.Machine

/-! ## Values -/

/-- Integer arithmetic of R220: the exact value of each entry from the views of its operands. -/
def mulhVal (fmt : BitVec 3) (a b : Word) : Int := viewFmt fmt a * viewFmt fmt b / 2 ^ widthOf fmt

/-- DIV's value and flags (R221). -/
def divVal (_fmt : BitVec 3) (a b : Int) : Int × Nat := if b = 0 then (-1, fDZ) else (Int.tdiv a b, 0)

/-- REM's value and flags (R221). -/
def remVal (a b : Int) : Int × Nat := if b = 0 then (a, fDZ) else (Int.tmod a b, 0)

/-- Carry out of ADDCO and borrow of SUBBO (R220). -/
def carryVal (fmt : BitVec 3) (a b c : Word) : Int :=
  if 2 ^ widthOf fmt ≤ lowFmt fmt a + lowFmt fmt b + c.toNat % 2 then 1 else 0

def borrowVal (fmt : BitVec 3) (a b c : Word) : Int :=
  if lowFmt fmt a < lowFmt fmt b + c.toNat % 2 then 1 else 0

/-- The shifts and rotates of R223 by an amount. -/
def shlVal (fmt : BitVec 3) (a : Word) (n : Nat) : Int := if n < widthOf fmt then lowFmt fmt a * 2 ^ n else 0

def shrVal (fmt : BitVec 3) (a : Word) (n : Nat) : Int := if n < widthOf fmt then ((lowFmt fmt a / 2 ^ n : Nat) : Int) else 0

def sarVal (fmt : BitVec 3) (a : Word) (n : Nat) : Int :=
  let s := signedOf (widthOf fmt) a.toNat
  if n < widthOf fmt then s / 2 ^ n else if s < 0 then -1 else 0

def rolVal (fmt : BitVec 3) (a : Word) (n : Nat) : Int :=
  let w := widthOf fmt
  let u := lowFmt fmt a
  ((u * 2 ^ (n % w) % 2 ^ w + u / 2 ^ (w - n % w) : Nat) : Int)

def rorVal (fmt : BitVec 3) (a : Word) (n : Nat) : Int :=
  let w := widthOf fmt
  let u := lowFmt fmt a
  ((u / 2 ^ (n % w) + u * 2 ^ (w - n % w) % 2 ^ w : Nat) : Int)

/-- CLZ and CTZ within the type's width (R223). -/
def clzVal (fmt : BitVec 3) (a : Word) : Int := widthOf fmt - bitLen (lowFmt fmt a)

def ctzVal (fmt : BitVec 3) (a : Word) : Int := lowBit (widthOf fmt) (lowFmt fmt a) 0

/-- An exact value clamped once to a type's range, with SAT for a clamp (R226). -/
def clampFmt (fmt : BitVec 3) (y : Int) : Word × Nat :=
  let (lo, hi) := intRange (fmtSigned fmt) (widthOf fmt)
  let z := clampI lo hi y
  (narrowFmt fmt z, if z = y then 0 else fSAT)

/-- SSHL's exact value (R226); past 128 places every non-zero value is out of every range. -/
def sshlVal (fmt : BitVec 3) (a b : Word) : Int := viewFmt fmt a * 2 ^ Nat.min b.toNat 128

/-- The constant K of R227: IMM by the signedness of the type. -/
def kFmt (x : Ops) : Int := if fmtSigned x.fmt then x.imm.toInt else (x.imm.toNat : Int)

/-- The low len bits of a register from pos on; bits past 63 read as 0 (R231). -/
def fieldOf (a : Word) (pos len : Nat) : Nat := bitsAt a.toNat pos len

/-- A register with bits pos+len−1:pos replaced; bits past 63 are dropped (R231). -/
def insertField (a b : Word) (pos len : Nat) : Word :=
  let m := word ((2 ^ len - 1) * 2 ^ pos)
  (a &&& ~~~m) ||| (word (b.toNat % 2 ^ len * 2 ^ pos) &&& m)

def posOf (n : Nat) : Nat := n % 64
def lenOf (n : Nat) : Nat := n / 64 % 64 + 1

/-- The 32-bit constant of LIL and LIH (R229). -/
def constOf (x : Ops) : Nat :=
  let byte := fun o => match o with
    | Opd.byte b => b.toNat
    | _ => 0
  byte x.b * 2 ^ 24 + byte x.c % 16 * 2 ^ 20 + x.imm.toNat

/-! ## Shapes of effects -/

/-- Writes a function of AF, of AF and BF, or of AF, BF and CF to DF (R219). -/
def un (x : Ops) (f : Word → Word) : Exec Unit := do
  let a ← readA x
  writeOpd x.d (f a)

def bin (x : Ops) (f : Word → Word → Word) : Exec Unit := do
  let a ← readA x
  let b ← readB x
  writeOpd x.d (f a b)

def tri (x : Ops) (f : Word → Word → Word → Word) : Exec Unit := do
  let a ← readA x
  let b ← readB x
  let c ← readC x
  writeOpd x.d (f a b c)

/-- As `un` and `bin`, with flags. -/
def unF (x : Ops) (f : Word → Word × Nat) : Exec Unit := do
  let a ← readA x
  writeOpd x.d (f a).1
  addFlags (f a).2

def binF (x : Ops) (f : Word → Word → Word × Nat) : Exec Unit := do
  let a ← readA x
  let b ← readB x
  writeOpd x.d (f a b).1
  addFlags (f a b).2

/-- A binary operation on the views of the operands, narrowed (R219). -/
def viewBin (x : Ops) (f : Int → Int → Int) : Exec Unit :=
  bin x (fun a b => narrowFmt x.fmt (f (viewFmt x.fmt a) (viewFmt x.fmt b)))

/-- A compare of the views of the operands (R224). -/
def viewCmp (x : Ops) (f : Int → Int → Bool) : Exec Unit :=
  bin x (fun a b => wordB (f (viewFmt x.fmt a) (viewFmt x.fmt b)))

/-! ## Integer arithmetic (R220, R221) -/

/-- ADD (R220). -/
def execAdd (x : Ops) (s : State) : Out := runCore (.alu 2) x
  (viewBin x (fun a b => a + b)) s

/-- SUB (R220). -/
def execSub (x : Ops) (s : State) : Out := runCore (.alu 2) x
  (viewBin x (fun a b => a - b)) s

/-- MUL (R220). -/
def execMul (x : Ops) (s : State) : Out := runCore (.alu 2) x
  (viewBin x (fun a b => a * b)) s

/-- MULH (R220). -/
def execMulh (x : Ops) (s : State) : Out := runCore (.alu 2) x
  (bin x (fun a b => narrowFmt x.fmt (mulhVal x.fmt a b))) s

/-- DIV (R220, R221). -/
def execDiv (x : Ops) (s : State) : Out := runCore (.alu 2) x
  (binF x (fun a b =>
    let r := divVal x.fmt (viewFmt x.fmt a) (viewFmt x.fmt b)
    (narrowFmt x.fmt r.1, r.2))) s

/-- REM (R220, R221). -/
def execRem (x : Ops) (s : State) : Out := runCore (.alu 2) x
  (binF x (fun a b =>
    let r := remVal (viewFmt x.fmt a) (viewFmt x.fmt b)
    (narrowFmt x.fmt r.1, r.2))) s

/-- MADD (R220). -/
def execMadd (x : Ops) (s : State) : Out := runCore (.alu 3) x
  (tri x (fun a b c => narrowFmt x.fmt (viewFmt x.fmt a * viewFmt x.fmt b + viewFmt x.fmt c))) s

/-- MSUB (R220). -/
def execMsub (x : Ops) (s : State) : Out := runCore (.alu 3) x
  (tri x (fun a b c => narrowFmt x.fmt (viewFmt x.fmt c - viewFmt x.fmt a * viewFmt x.fmt b))) s

/-- ADDX (R220). -/
def execAddx (x : Ops) (s : State) : Out := runCore (.alu 3) x
  (tri x (fun a b c => narrowFmt x.fmt (viewFmt x.fmt a + viewFmt x.fmt b + (c.toNat % 2 : Nat)))) s

/-- ADDCO (R220). -/
def execAddco (x : Ops) (s : State) : Out := runCore (.alu 3) x
  (tri x (fun a b c => narrowFmt x.fmt (carryVal x.fmt a b c))) s

/-- SUBX (R220). -/
def execSubx (x : Ops) (s : State) : Out := runCore (.alu 3) x
  (tri x (fun a b c => narrowFmt x.fmt (viewFmt x.fmt a - viewFmt x.fmt b - (c.toNat % 2 : Nat)))) s

/-- SUBBO (R220). -/
def execSubbo (x : Ops) (s : State) : Out := runCore (.alu 3) x
  (tri x (fun a b c => narrowFmt x.fmt (borrowVal x.fmt a b c))) s

/-- ABS (R220). -/
def execAbs (x : Ops) (s : State) : Out := runCore (.alu 1) x
  (un x (fun a => narrowFmt x.fmt (viewFmt x.fmt a).natAbs)) s

/-- NEG (R220). -/
def execNeg (x : Ops) (s : State) : Out := runCore (.alu 1) x
  (un x (fun a => narrowFmt x.fmt (-(viewFmt x.fmt a)))) s

/-- ABSD (R220). -/
def execAbsd (x : Ops) (s : State) : Out := runCore (.alu 2) x
  (viewBin x (fun a b => ((a - b).natAbs : Int))) s

/-- AVG (R220). -/
def execAvg (x : Ops) (s : State) : Out := runCore (.alu 2) x
  (viewBin x (fun a b => (a + b) / 2)) s

/-! ## Logic, shifts and counts (R222, R223) -/

/-- AND (R222). -/
def execAnd (x : Ops) (s : State) : Out := runCore (.alu 2) x
  (bin x (fun a b => a &&& b)) s

/-- OR (R222). -/
def execOr (x : Ops) (s : State) : Out := runCore (.alu 2) x
  (bin x (fun a b => a ||| b)) s

/-- XOR (R222). -/
def execXor (x : Ops) (s : State) : Out := runCore (.alu 2) x
  (bin x (fun a b => a ^^^ b)) s

/-- ANDN (R222). -/
def execAndn (x : Ops) (s : State) : Out := runCore (.alu 2) x
  (bin x (fun a b => a &&& ~~~b)) s

/-- ORN (R222). -/
def execOrn (x : Ops) (s : State) : Out := runCore (.alu 2) x
  (bin x (fun a b => a ||| ~~~b)) s

/-- XNOR (R222). -/
def execXnor (x : Ops) (s : State) : Out := runCore (.alu 2) x
  (bin x (fun a b => ~~~(a ^^^ b))) s

/-- MOV (R222). -/
def execMov (x : Ops) (s : State) : Out := runCore (.alu 1) x
  (un x (fun a => a)) s

/-- MUX (R222). -/
def execMux (x : Ops) (s : State) : Out := runCore (.alu 3) x
  (tri x (fun a b c => (a &&& c) ||| (b &&& ~~~c))) s

/-- SHL (R223). -/
def execShl (x : Ops) (s : State) : Out := runCore (.alu 2) x
  (bin x (fun a b => narrowFmt x.fmt (shlVal x.fmt a b.toNat))) s

/-- SHR (R223). -/
def execShr (x : Ops) (s : State) : Out := runCore (.alu 2) x
  (bin x (fun a b => narrowFmt x.fmt (shrVal x.fmt a b.toNat))) s

/-- SAR (R223). -/
def execSar (x : Ops) (s : State) : Out := runCore (.alu 2) x
  (bin x (fun a b => narrowFmt x.fmt (sarVal x.fmt a b.toNat))) s

/-- ROL (R223). -/
def execRol (x : Ops) (s : State) : Out := runCore (.alu 2) x
  (bin x (fun a b => narrowFmt x.fmt (rolVal x.fmt a b.toNat))) s

/-- ROR (R223). -/
def execRor (x : Ops) (s : State) : Out := runCore (.alu 2) x
  (bin x (fun a b => narrowFmt x.fmt (rorVal x.fmt a b.toNat))) s

/-- POPC (R223). -/
def execPopc (x : Ops) (s : State) : Out := runCore (.alu 1) x
  (un x (fun a => narrowFmt x.fmt (popCount (widthOf x.fmt) (lowFmt x.fmt a)))) s

/-- CLZ (R223). -/
def execClz (x : Ops) (s : State) : Out := runCore (.alu 1) x
  (un x (fun a => narrowFmt x.fmt (clzVal x.fmt a))) s

/-- CTZ (R223). -/
def execCtz (x : Ops) (s : State) : Out := runCore (.alu 1) x
  (un x (fun a => narrowFmt x.fmt (ctzVal x.fmt a))) s

/-! ## Min, max, select, compares, predicate logic (R224, R225) -/

/-- MIN (R224). -/
def execMin (x : Ops) (s : State) : Out := runCore (.alu 2) x
  (viewBin x (fun a b => if b < a then b else a)) s

/-- MAX (R224). -/
def execMax (x : Ops) (s : State) : Out := runCore (.alu 2) x
  (viewBin x (fun a b => if a < b then b else a)) s

/-- SEL (R224). -/
def execSel (x : Ops) (s : State) : Out := runCore (.alu 3) x
  (tri x (fun a b c => if c ≠ 0 then a else b)) s

/-- CMPEQ (R224). -/
def execCmpeq (x : Ops) (s : State) : Out := runCore (.alu 2) x
  (viewCmp x (fun a b => decide (a = b))) s

/-- CMPNE (R224). -/
def execCmpne (x : Ops) (s : State) : Out := runCore (.alu 2) x
  (viewCmp x (fun a b => decide (a ≠ b))) s

/-- CMPLT (R224). -/
def execCmplt (x : Ops) (s : State) : Out := runCore (.alu 2) x
  (viewCmp x (fun a b => decide (a < b))) s

/-- CMPLE (R224). -/
def execCmple (x : Ops) (s : State) : Out := runCore (.alu 2) x
  (viewCmp x (fun a b => decide (a ≤ b))) s

/-- TST (R224). -/
def execTst (x : Ops) (s : State) : Out := runCore (.alu 2) x
  (bin x (fun a b => wordB (lowFmt x.fmt a &&& lowFmt x.fmt b != 0))) s

/-- PAND (R225). -/
def execPand (x : Ops) (s : State) : Out := runCore (.alu 2) x
  (bin x (fun a b => wordB (a != 0 && b != 0))) s

/-- POR (R225). -/
def execPor (x : Ops) (s : State) : Out := runCore (.alu 2) x
  (bin x (fun a b => wordB (a != 0 || b != 0))) s

/-- PXOR (R225). -/
def execPxor (x : Ops) (s : State) : Out := runCore (.alu 2) x
  (bin x (fun a b => wordB ((a != 0) != (b != 0)))) s

/-- PANDN (R225). -/
def execPandn (x : Ops) (s : State) : Out := runCore (.alu 2) x
  (bin x (fun a b => wordB (a != 0 && !(b != 0)))) s

/-! ## Saturating arithmetic (R226) -/

/-- SADD (R226). -/
def execSadd (x : Ops) (s : State) : Out := runCore (.alu 2) x
  (binF x (fun a b => clampFmt x.fmt (viewFmt x.fmt a + viewFmt x.fmt b))) s

/-- SSUB (R226). -/
def execSsub (x : Ops) (s : State) : Out := runCore (.alu 2) x
  (binF x (fun a b => clampFmt x.fmt (viewFmt x.fmt a - viewFmt x.fmt b))) s

/-- SMUL (R226). -/
def execSmul (x : Ops) (s : State) : Out := runCore (.alu 2) x
  (binF x (fun a b => clampFmt x.fmt (viewFmt x.fmt a * viewFmt x.fmt b))) s

/-- SSHL (R226). -/
def execSshl (x : Ops) (s : State) : Out := runCore (.alu 2) x
  (binF x (fun a b => clampFmt x.fmt (sshlVal x.fmt a b))) s

/-! ## Immediate forms (R227, R228) -/

/-- ADDI (R227). -/
def execAddi (x : Ops) (s : State) : Out := runCore (.alu 1) x
  (un x (fun a => narrowFmt x.fmt (viewFmt x.fmt a + kFmt x))) s

/-- RSUBI (R227). -/
def execRsubi (x : Ops) (s : State) : Out := runCore (.alu 1) x
  (un x (fun a => narrowFmt x.fmt (kFmt x - viewFmt x.fmt a))) s

/-- MULI (R227). -/
def execMuli (x : Ops) (s : State) : Out := runCore (.alu 1) x
  (un x (fun a => narrowFmt x.fmt (viewFmt x.fmt a * kFmt x))) s

/-- DIVI (R227). -/
def execDivi (x : Ops) (s : State) : Out := runCore (.alu 1) x
  (unF x (fun a =>
    let r := divVal x.fmt (viewFmt x.fmt a) (kFmt x)
    (narrowFmt x.fmt r.1, r.2))) s

/-- REMI (R227). -/
def execRemi (x : Ops) (s : State) : Out := runCore (.alu 1) x
  (unF x (fun a =>
    let r := remVal (viewFmt x.fmt a) (kFmt x)
    (narrowFmt x.fmt r.1, r.2))) s

/-- ANDI (R227). -/
def execAndi (x : Ops) (s : State) : Out := runCore (.alu 1) x
  (un x (fun a => a &&& immS x)) s

/-- ORI (R227). -/
def execOri (x : Ops) (s : State) : Out := runCore (.alu 1) x
  (un x (fun a => a ||| immU x)) s

/-- XORI (R227). -/
def execXori (x : Ops) (s : State) : Out := runCore (.alu 1) x
  (un x (fun a => a ^^^ immU x)) s

/-- SHLI (R227). -/
def execShli (x : Ops) (s : State) : Out := runCore (.alu 1) x
  (un x (fun a => narrowFmt x.fmt (shlVal x.fmt a (x.imm.toNat % 64)))) s

/-- SHRI (R227). -/
def execShri (x : Ops) (s : State) : Out := runCore (.alu 1) x
  (un x (fun a => narrowFmt x.fmt (shrVal x.fmt a (x.imm.toNat % 64)))) s

/-- SARI (R227). -/
def execSari (x : Ops) (s : State) : Out := runCore (.alu 1) x
  (un x (fun a => narrowFmt x.fmt (sarVal x.fmt a (x.imm.toNat % 64)))) s

/-- ROLI (R227). -/
def execRoli (x : Ops) (s : State) : Out := runCore (.alu 1) x
  (un x (fun a => narrowFmt x.fmt (rolVal x.fmt a (x.imm.toNat % 64)))) s

/-- RORI (R227). -/
def execRori (x : Ops) (s : State) : Out := runCore (.alu 1) x
  (un x (fun a => narrowFmt x.fmt (rorVal x.fmt a (x.imm.toNat % 64)))) s

/-- MINI (R227). -/
def execMini (x : Ops) (s : State) : Out := runCore (.alu 1) x
  (un x (fun a => narrowFmt x.fmt (if kFmt x < viewFmt x.fmt a then kFmt x else viewFmt x.fmt a))) s

/-- MAXI (R227). -/
def execMaxi (x : Ops) (s : State) : Out := runCore (.alu 1) x
  (un x (fun a => narrowFmt x.fmt (if viewFmt x.fmt a < kFmt x then kFmt x else viewFmt x.fmt a))) s

/-- SADDI (R227). -/
def execSaddi (x : Ops) (s : State) : Out := runCore (.alu 1) x
  (unF x (fun a => clampFmt x.fmt (viewFmt x.fmt a + kFmt x))) s

/-! ## Constants, addresses and bit fields (R229 to R231) -/

/-- LIL (R229). -/
def execLil (x : Ops) (s : State) : Out := runCore (.alu 0) x
  (writeOpd x.d (wordI (signedOf 32 (constOf x)))) s

/-- LIH (R229). -/
def execLih (x : Ops) (s : State) : Out := runCore (.alu 1) x
  (un x (fun a => word (constOf x * 2 ^ 32 + a.toNat % 2 ^ 32))) s

/-- SCADD (R230). -/
def execScadd (x : Ops) (s : State) : Out := runCore (.alu 2) x
  (bin x (fun a b => a + (b <<< x.mod.toNat) + immS x)) s

/-- SCADDU (R230). -/
def execScaddu (x : Ops) (s : State) : Out := runCore (.alu 2) x
  (bin x (fun a b => a + (word (b.toNat % 2 ^ 32) <<< x.mod.toNat) + immS x)) s

/-- BFX (R231). -/
def execBfx (x : Ops) (s : State) : Out := runCore (.alu 1) x
  (un x (fun a => word (fieldOf a (posOf x.imm.toNat) (lenOf x.imm.toNat)))) s

/-- BFXS (R231). -/
def execBfxs (x : Ops) (s : State) : Out := runCore (.alu 1) x
  (un x (fun a => wordI (signedOf (lenOf x.imm.toNat) (fieldOf a (posOf x.imm.toNat) (lenOf x.imm.toNat))))) s

/-- BFI (R231). -/
def execBfi (x : Ops) (s : State) : Out := runCore (.alu 2) x
  (bin x (fun a b => insertField a b (posOf x.imm.toNat) (lenOf x.imm.toNat))) s

/-- BFXR (R231). -/
def execBfxr (x : Ops) (s : State) : Out := runCore (.alu 2) x
  (bin x (fun a b => word (fieldOf a (posOf b.toNat) (lenOf b.toNat)))) s

/-- BFIR (R231). -/
def execBfir (x : Ops) (s : State) : Out := runCore (.alu 3) x
  (tri x (fun a b c => insertField a c (posOf b.toNat) (lenOf b.toNat))) s

/-! ## Compare with immediate (R232) -/

/-- CMPEQI (R232). -/
def execCmpeqi (x : Ops) (s : State) : Out := runCore (.alu 1) x
  (un x (fun a => wordB (decide (viewFmt x.fmt a = kFmt x)))) s

/-- CMPNEI (R232). -/
def execCmpnei (x : Ops) (s : State) : Out := runCore (.alu 1) x
  (un x (fun a => wordB (decide (viewFmt x.fmt a ≠ kFmt x)))) s

/-- CMPLTI (R232). -/
def execCmplti (x : Ops) (s : State) : Out := runCore (.alu 1) x
  (un x (fun a => wordB (decide (viewFmt x.fmt a < kFmt x)))) s

/-- CMPLEI (R232). -/
def execCmplei (x : Ops) (s : State) : Out := runCore (.alu 1) x
  (un x (fun a => wordB (decide (viewFmt x.fmt a ≤ kFmt x)))) s

/-- CMPGTI (R232). -/
def execCmpgti (x : Ops) (s : State) : Out := runCore (.alu 1) x
  (un x (fun a => wordB (decide (kFmt x < viewFmt x.fmt a)))) s

/-- CMPGEI (R232). -/
def execCmpgei (x : Ops) (s : State) : Out := runCore (.alu 1) x
  (un x (fun a => wordB (decide (kFmt x ≤ viewFmt x.fmt a)))) s

/-- TSTI (R232). -/
def execTsti (x : Ops) (s : State) : Out := runCore (.alu 1) x
  (un x (fun a => wordB (lowFmt x.fmt a &&& x.imm.toNat % 2 ^ widthOf x.fmt != 0))) s

end Sys2Proof.Machine
end

