-- ==== Sys2Proof/Machine/Dispatch.lean ====
section
/-!
DEFINITION. The meaning of every instruction: one arm per constructor of `Instr`.
Log entries (notes/assumptions): 48 DESIGN CHOICE.
-/
namespace Sys2Proof.Machine

def exec (i : Instr) (s : State) : Host.Outcome State Fault Refusal :=
  match i with
  | .add x => Sys2Proof.Machine.execAdd x s
  | .sub x => Sys2Proof.Machine.execSub x s
  | .mul x => Sys2Proof.Machine.execMul x s
  | .mulh x => Sys2Proof.Machine.execMulh x s
  | .div x => Sys2Proof.Machine.execDiv x s
  | .rem x => Sys2Proof.Machine.execRem x s
  | .madd x => Sys2Proof.Machine.execMadd x s
  | .msub x => Sys2Proof.Machine.execMsub x s
  | .addx x => Sys2Proof.Machine.execAddx x s
  | .addco x => Sys2Proof.Machine.execAddco x s
  | .subx x => Sys2Proof.Machine.execSubx x s
  | .subbo x => Sys2Proof.Machine.execSubbo x s
  | .abs x => Sys2Proof.Machine.execAbs x s
  | .neg x => Sys2Proof.Machine.execNeg x s
  | .absd x => Sys2Proof.Machine.execAbsd x s
  | .avg x => Sys2Proof.Machine.execAvg x s
  | .and x => Sys2Proof.Machine.execAnd x s
  | .or x => Sys2Proof.Machine.execOr x s
  | .xor x => Sys2Proof.Machine.execXor x s
  | .andn x => Sys2Proof.Machine.execAndn x s
  | .orn x => Sys2Proof.Machine.execOrn x s
  | .xnor x => Sys2Proof.Machine.execXnor x s
  | .mov x => Sys2Proof.Machine.execMov x s
  | .mux x => Sys2Proof.Machine.execMux x s
  | .shl x => Sys2Proof.Machine.execShl x s
  | .shr x => Sys2Proof.Machine.execShr x s
  | .sar x => Sys2Proof.Machine.execSar x s
  | .rol x => Sys2Proof.Machine.execRol x s
  | .ror x => Sys2Proof.Machine.execRor x s
  | .popc x => Sys2Proof.Machine.execPopc x s
  | .clz x => Sys2Proof.Machine.execClz x s
  | .ctz x => Sys2Proof.Machine.execCtz x s
  | .min x => Sys2Proof.Machine.execMin x s
  | .max x => Sys2Proof.Machine.execMax x s
  | .sel x => Sys2Proof.Machine.execSel x s
  | .cmpeq x => Sys2Proof.Machine.execCmpeq x s
  | .cmpne x => Sys2Proof.Machine.execCmpne x s
  | .cmplt x => Sys2Proof.Machine.execCmplt x s
  | .cmple x => Sys2Proof.Machine.execCmple x s
  | .tst x => Sys2Proof.Machine.execTst x s
  | .pand x => Sys2Proof.Machine.execPand x s
  | .por x => Sys2Proof.Machine.execPor x s
  | .pxor x => Sys2Proof.Machine.execPxor x s
  | .pandn x => Sys2Proof.Machine.execPandn x s
  | .sadd x => Sys2Proof.Machine.execSadd x s
  | .ssub x => Sys2Proof.Machine.execSsub x s
  | .smul x => Sys2Proof.Machine.execSmul x s
  | .sshl x => Sys2Proof.Machine.execSshl x s
  | .addi x => Sys2Proof.Machine.execAddi x s
  | .rsubi x => Sys2Proof.Machine.execRsubi x s
  | .muli x => Sys2Proof.Machine.execMuli x s
  | .divi x => Sys2Proof.Machine.execDivi x s
  | .remi x => Sys2Proof.Machine.execRemi x s
  | .andi x => Sys2Proof.Machine.execAndi x s
  | .ori x => Sys2Proof.Machine.execOri x s
  | .xori x => Sys2Proof.Machine.execXori x s
  | .shli x => Sys2Proof.Machine.execShli x s
  | .shri x => Sys2Proof.Machine.execShri x s
  | .sari x => Sys2Proof.Machine.execSari x s
  | .roli x => Sys2Proof.Machine.execRoli x s
  | .rori x => Sys2Proof.Machine.execRori x s
  | .mini x => Sys2Proof.Machine.execMini x s
  | .maxi x => Sys2Proof.Machine.execMaxi x s
  | .saddi x => Sys2Proof.Machine.execSaddi x s
  | .lil x => Sys2Proof.Machine.execLil x s
  | .lih x => Sys2Proof.Machine.execLih x s
  | .scadd x => Sys2Proof.Machine.execScadd x s
  | .scaddu x => Sys2Proof.Machine.execScaddu x s
  | .bfx x => Sys2Proof.Machine.execBfx x s
  | .bfxs x => Sys2Proof.Machine.execBfxs x s
  | .bfi x => Sys2Proof.Machine.execBfi x s
  | .bfxr x => Sys2Proof.Machine.execBfxr x s
  | .bfir x => Sys2Proof.Machine.execBfir x s
  | .cmpeqi x => Sys2Proof.Machine.execCmpeqi x s
  | .cmpnei x => Sys2Proof.Machine.execCmpnei x s
  | .cmplti x => Sys2Proof.Machine.execCmplti x s
  | .cmplei x => Sys2Proof.Machine.execCmplei x s
  | .cmpgti x => Sys2Proof.Machine.execCmpgti x s
  | .cmpgei x => Sys2Proof.Machine.execCmpgei x s
  | .tsti x => Sys2Proof.Machine.execTsti x s
  | .nop x => Sys2Proof.Machine.execNop x s
  | .endTask x => Sys2Proof.Machine.execEndTask x s
  | .br x => Sys2Proof.Machine.execBr x s
  | .bnz x => Sys2Proof.Machine.execBnz x s
  | .bz x => Sys2Proof.Machine.execBz x s
  | .beod x => Sys2Proof.Machine.execBeod x s
  | .bneod x => Sys2Proof.Machine.execBneod x s
  | .dbnz x => Sys2Proof.Machine.execDbnz x s
  | .brr x => Sys2Proof.Machine.execBrr x s
  | .btab x => Sys2Proof.Machine.execBtab x s
  | .call x => Sys2Proof.Machine.execCall x s
  | .callr x => Sys2Proof.Machine.execCallr x s
  | .ret x => Sys2Proof.Machine.execRet x s
  | .yield x => Sys2Proof.Machine.execYield x s
  | .trap x => Sys2Proof.Machine.execTrap x s
  | .tfence x => Sys2Proof.Machine.execTfence x s
  | .sbind x => Sys2Proof.Machine.execSbind x s
  | .sbindc x => Sys2Proof.Machine.execSbindc x s
  | .sunb x => Sys2Proof.Machine.execSunb x s
  | .srew x => Sys2Proof.Machine.execSrew x s
  | .sskip x => Sys2Proof.Machine.execSskip x s
  | .spos x => Sys2Proof.Machine.execSpos x s
  | .speek x => Sys2Proof.Machine.execSpeek x s
  | .sstat x => Sys2Proof.Machine.execSstat x s
  | .ld x => Sys2Proof.Machine.execLd x s
  | .st x => Sys2Proof.Machine.execSt x s
  | .ldf x => Sys2Proof.Machine.execLdf x s
  | .stf x => Sys2Proof.Machine.execStf x s
  | .ldp x => Sys2Proof.Machine.execLdp x s
  | .stp x => Sys2Proof.Machine.execStp x s
  | .ldi x => Sys2Proof.Machine.execLdi x s
  | .sti x => Sys2Proof.Machine.execSti x s
  | .ldfi x => Sys2Proof.Machine.execLdfi x s
  | .stfi x => Sys2Proof.Machine.execStfi x s
  | .pref x => Sys2Proof.Machine.execPref x s
  | .zline x => Sys2Proof.Machine.execZline x s
  | .ldo x => Sys2Proof.Machine.execLdo x s
  | .sto x => Sys2Proof.Machine.execSto x s
  | .ldpi x => Sys2Proof.Machine.execLdpi x s
  | .stpi x => Sys2Proof.Machine.execStpi x s
  | .bmov x => Sys2Proof.Machine.execBmov x s
  | .bfill x => Sys2Proof.Machine.execBfill x s
  | .sptest x => Sys2Proof.Machine.execSptest x s
  | .spcast x => Sys2Proof.Machine.execSpcast x s
  | .aadd j x => Sys2Proof.Machine.execAadd j x s
  | .aand j x => Sys2Proof.Machine.execAand j x s
  | .aor j x => Sys2Proof.Machine.execAor j x s
  | .axor j x => Sys2Proof.Machine.execAxor j x s
  | .amax j x => Sys2Proof.Machine.execAmax j x s
  | .amin j x => Sys2Proof.Machine.execAmin j x s
  | .axchg j x => Sys2Proof.Machine.execAxchg j x s
  | .acas j x => Sys2Proof.Machine.execAcas j x s
  | .fence x => Sys2Proof.Machine.execFence x s
  | .fenceF x => Sys2Proof.Machine.execFenceF x s
  | .fenceE x => Sys2Proof.Machine.execFenceE x s
  | .fenceH x => Sys2Proof.Machine.execFenceH x s
  | .give x => Sys2Proof.Machine.execGive x s
  | .take x => Sys2Proof.Machine.execTake x s
  | .ttake x => Sys2Proof.Machine.execTtake x s
  | .ownr x => Sys2Proof.Machine.execOwnr x s
  | .semset x => Sys2Proof.Machine.execSemset x s
  | .semadd x => Sys2Proof.Machine.execSemadd x s
  | .semrd x => Sys2Proof.Machine.execSemrd x s
  | .semtry x => Sys2Proof.Machine.execSemtry x s
  | .semwait x => Sys2Proof.Machine.execSemwait x s
  | .semz x => Sys2Proof.Machine.execSemz x s
  | .vote x => Sys2Proof.Machine.execVote x s
  | .votev x => Sys2Proof.Machine.execVotev x s
  | .copy x => Sys2Proof.Machine.execCopy x s
  | .copy2 x => Sys2Proof.Machine.execCopy2 x s
  | .redp x => Sys2Proof.Machine.execRedp x s
  | .apf x => Sys2Proof.Machine.execApf x s
  | .cfill x => Sys2Proof.Machine.execCfill x s
  | .twany x => Sys2Proof.Machine.execTwany x s
  | .twall x => Sys2Proof.Machine.execTwall x s
  | .tfind x => Sys2Proof.Machine.execTfind x s
  | .cres x => Sys2Proof.Machine.execCres x s
  | .ccan x => Sys2Proof.Machine.execCcan x s
  | .tstat x => Sys2Proof.Machine.execTstat x s
  | .twait x => Sys2Proof.Machine.execTwait x s
  | .vadd x => Sys2Proof.Machine.execVadd x s
  | .vsub x => Sys2Proof.Machine.execVsub x s
  | .vmul x => Sys2Proof.Machine.execVmul x s
  | .vfma x => Sys2Proof.Machine.execVfma x s
  | .vfms x => Sys2Proof.Machine.execVfms x s
  | .vfnma x => Sys2Proof.Machine.execVfnma x s
  | .vmin x => Sys2Proof.Machine.execVmin x s
  | .vmax x => Sys2Proof.Machine.execVmax x s
  | .vabs x => Sys2Proof.Machine.execVabs x s
  | .vneg x => Sys2Proof.Machine.execVneg x s
  | .vdiv x => Sys2Proof.Machine.execVdiv x s
  | .vand x => Sys2Proof.Machine.execVand x s
  | .vor x => Sys2Proof.Machine.execVor x s
  | .vxor x => Sys2Proof.Machine.execVxor x s
  | .vshl x => Sys2Proof.Machine.execVshl x s
  | .vshr x => Sys2Proof.Machine.execVshr x s
  | .vcmpeq x => Sys2Proof.Machine.execVcmpeq x s
  | .vcmpne x => Sys2Proof.Machine.execVcmpne x s
  | .vcmplt x => Sys2Proof.Machine.execVcmplt x s
  | .vcmple x => Sys2Proof.Machine.execVcmple x s
  | .vcmpun x => Sys2Proof.Machine.execVcmpun x s
  | .vsel x => Sys2Proof.Machine.execVsel x s
  | .vmcnt x => Sys2Proof.Machine.execVmcnt x s
  | .vmff x => Sys2Proof.Machine.execVmff x s
  | .vrsum x => Sys2Proof.Machine.execVrsum x s
  | .vrmax x => Sys2Proof.Machine.execVrmax x s
  | .vrmin x => Sys2Proof.Machine.execVrmin x s
  | .vramax x => Sys2Proof.Machine.execVramax x s
  | .vscan x => Sys2Proof.Machine.execVscan x s
  | .vscanx x => Sys2Proof.Machine.execVscanx x s
  | .vtopk x => Sys2Proof.Machine.execVtopk x s
  | .vtopki x => Sys2Proof.Machine.execVtopki x s
  | .vperm x => Sys2Proof.Machine.execVperm x s
  | .vbcast x => Sys2Proof.Machine.execVbcast x s
  | .vext x => Sys2Proof.Machine.execVext x s
  | .vins x => Sys2Proof.Machine.execVins x s
  | .viota x => Sys2Proof.Machine.execViota x s
  | .vgath x => Sys2Proof.Machine.execVgath x s
  | .vscat x => Sys2Proof.Machine.execVscat x s
  | .vrand x => Sys2Proof.Machine.execVrand x s
  | .vld x => Sys2Proof.Machine.execVld x s
  | .vst x => Sys2Proof.Machine.execVst x s
  | .vlds x => Sys2Proof.Machine.execVlds x s
  | .vsts x => Sys2Proof.Machine.execVsts x s
  | .vldbc x => Sys2Proof.Machine.execVldbc x s
  | .vstc x => Sys2Proof.Machine.execVstc x s
  | .vldm x => Sys2Proof.Machine.execVldm x s
  | .vstm x => Sys2Proof.Machine.execVstm x s
  | .cvt src x => Sys2Proof.Machine.execCvt src x s
  | .frnd x => Sys2Proof.Machine.execFrnd x s
  | .vcvt src x => Sys2Proof.Machine.execVcvt src x s
  | .vfrnd x => Sys2Proof.Machine.execVfrnd x s
  | .venc x => Sys2Proof.Machine.execVenc x s
  | .vdec x => Sys2Proof.Machine.execVdec x s
  | .exp2 x => Sys2Proof.Machine.execExp2 x s
  | .log2 x => Sys2Proof.Machine.execLog2 x s
  | .rcp x => Sys2Proof.Machine.execRcp x s
  | .rsq x => Sys2Proof.Machine.execRsq x s
  | .vexp2 x => Sys2Proof.Machine.execVexp2 x s
  | .vlog2 x => Sys2Proof.Machine.execVlog2 x s
  | .vrcp x => Sys2Proof.Machine.execVrcp x s
  | .vrsq x => Sys2Proof.Machine.execVrsq x s
  | .mgang x => Sys2Proof.Machine.execMgang x s
  | .mldb x => Sys2Proof.Machine.execMldb x s
  | .mma x => Sys2Proof.Machine.execMma x s
  | .mmg x => Sys2Proof.Machine.execMmg x s
  | .mred x => Sys2Proof.Machine.execMred x s
  | .mredg x => Sys2Proof.Machine.execMredg x s
  | .mmv x => Sys2Proof.Machine.execMmv x s
  | .mclr x => Sys2Proof.Machine.execMclr x s
  | .mdrain x => Sys2Proof.Machine.execMdrain x s
  | .mstat x => Sys2Proof.Machine.execMstat x s
  | .mspill x => Sys2Proof.Machine.execMspill x s
  | .mfill x => Sys2Proof.Machine.execMfill x s
  | .bred x => Sys2Proof.Machine.execBred x s
  | .bmax x => Sys2Proof.Machine.execBmax x s
  | .bstream x => Sys2Proof.Machine.execBstream x s
  | .barr x => Sys2Proof.Machine.execBarr x s
  | .bwait x => Sys2Proof.Machine.execBwait x s
  | .bstat x => Sys2Proof.Machine.execBstat x s
  | .bchk x => Sys2Proof.Machine.execBchk x s
  | .bkey x => Sys2Proof.Machine.execBkey x s
  | .benrol x => Sys2Proof.Machine.execBenrol x s
  | .bleave x => Sys2Proof.Machine.execBleave x s
  | .zgen x => Sys2Proof.Machine.execZgen x s
  | .zregen x => Sys2Proof.Machine.execZregen x s
  | .zand x => Sys2Proof.Machine.execZand x s
  | .zxnor x => Sys2Proof.Machine.execZxnor x s
  | .zmux x => Sys2Proof.Machine.execZmux x s
  | .znot x => Sys2Proof.Machine.execZnot x s
  | .zcnt x => Sys2Proof.Machine.execZcnt x s
  | .zld x => Sys2Proof.Machine.execZld x s
  | .zst x => Sys2Proof.Machine.execZst x s
  | .zclass x => Sys2Proof.Machine.execZclass x s
  | .rdc x => Sys2Proof.Machine.execRdc x s
  | .wrc x => Sys2Proof.Machine.execWrc x s
  | .wrcCspill x => Sys2Proof.Machine.execWrcCspill x s
  | .wrcCras x => Sys2Proof.Machine.execWrcCras x s
  | .trapret x => Sys2Proof.Machine.execTrapret x s
  | .ctxsave x => Sys2Proof.Machine.execCtxsave x s
  | .ctxload x => Sys2Proof.Machine.execCtxload x s
  | .tlbip x => Sys2Proof.Machine.execTlbip x s
  | .tlbic x => Sys2Proof.Machine.execTlbic x s
  | .aptset x => Sys2Proof.Machine.execAptset x s
  | .aptrd x => Sys2Proof.Machine.execAptrd x s
  | .tickwait x => Sys2Proof.Machine.execTickwait x s
  | .phaseend x => Sys2Proof.Machine.execPhaseend x s
  | .canl x => Sys2Proof.Machine.execCanl x s
  | .cang x => Sys2Proof.Machine.execCang x s
  | .canp x => Sys2Proof.Machine.execCanp x s
  | .canj x => Sys2Proof.Machine.execCanj x s
  | .cbld x => Sys2Proof.Machine.execCbld x s
  | .atomicPerform t k => Sys2Proof.Machine.execAtomicPerform t k s
  | .semGrant t => Sys2Proof.Machine.execSemGrant t s
  | .semOverflow t => Sys2Proof.Machine.execSemOverflow t s
  | .copyPiece t tag ext => Sys2Proof.Machine.execCopyPiece t tag ext s
  | .gangTimeout t => Sys2Proof.Machine.execGangTimeout t s
  | .matrixComplete t => Sys2Proof.Machine.execMatrixComplete t s
  | .matrixMismatch t => Sys2Proof.Machine.execMatrixMismatch t s
  | .mediumFrame port f => Sys2Proof.Machine.execMediumFrame port f s
  | .exchangeComplete e => Sys2Proof.Machine.execExchangeComplete e s
  | .busFaultTaken t => Sys2Proof.Machine.execBusFaultTaken t s
  | .stochEngineComplete t => Sys2Proof.Machine.execStochEngineComplete t s
  | .chunkCommit t k => Sys2Proof.Machine.execChunkCommit t k s
  | .translationWalk die n ctx va write => Sys2Proof.Machine.execTranslationWalk die n ctx va write s
  | .fabricRequestApply r => Sys2Proof.Machine.execFabricRequestApply r s
  | .fabricAck id data st => Sys2Proof.Machine.execFabricAck id data st s
  | .fabricDataPacket p => Sys2Proof.Machine.execFabricDataPacket p s
  | .tickSlip t k => Sys2Proof.Machine.execTickSlip t k s
  | .cancel t k => Sys2Proof.Machine.execCancel t k s
  | .cancelStop t k => Sys2Proof.Machine.execCancelStop t k s
  | .machineCheck c => Sys2Proof.Machine.execMachineCheck c s
  | .preemptForced t k => Sys2Proof.Machine.execPreemptForced t k s
  | .watchSave t => Sys2Proof.Machine.execWatchSave t s
  | .saveComplete t => Sys2Proof.Machine.execSaveComplete t s
  | .watchRestore l => Sys2Proof.Machine.execWatchRestore l s
  | .gangSlip l => Sys2Proof.Machine.execGangSlip l s
  | .launchDispatch jid addr => Sys2Proof.Machine.execLaunchDispatch jid addr s
  | .launchPlace => Sys2Proof.Machine.execLaunchPlace s
  | .launchAged l => Sys2Proof.Machine.execLaunchAged l s
  | .tileDrainDone t => Sys2Proof.Machine.execTileDrainDone t s
  | .graphNodeEnd r => Sys2Proof.Machine.execGraphNodeEnd r s
  | .graphNodeLaunch r => Sys2Proof.Machine.execGraphNodeLaunch r s
  | .graphNodeJoin r => Sys2Proof.Machine.execGraphNodeJoin r s
  | .graphNodeCond r => Sys2Proof.Machine.execGraphNodeCond r s
  | .graphNodeLoop r => Sys2Proof.Machine.execGraphNodeLoop r s
  | .tickArm l => Sys2Proof.Machine.execTickArm l s
  | .tickStartEvent jid l => Sys2Proof.Machine.execTickStartEvent jid l s
  | .packetFetch q idx data => Sys2Proof.Machine.execPacketFetch q idx data s
  | .packetStart again => Sys2Proof.Machine.execPacketStart again s
  | .packetNop q => Sys2Proof.Machine.execPacketNop q s
  | .openJob q => Sys2Proof.Machine.execOpenJob q s
  | .closeJob q => Sys2Proof.Machine.execCloseJob q s
  | .runGraph q => Sys2Proof.Machine.execRunGraph q s
  | .packetCancel q => Sys2Proof.Machine.execPacketCancel q s
  | .waitMem q => Sys2Proof.Machine.execWaitMem q s
  | .writeMem q => Sys2Proof.Machine.execWriteMem q s
  | .packetComplete q ok => Sys2Proof.Machine.execPacketComplete q ok s
  | .queueTailWrite q v => Sys2Proof.Machine.execQueueTailWrite q v s
  | .queueHaltClear q v => Sys2Proof.Machine.execQueueHaltClear q v s
  | .queueHeadWrite q v => Sys2Proof.Machine.execQueueHeadWrite q v s
  | .queueEnableWrite q v => Sys2Proof.Machine.execQueueEnableWrite q v s
  | .hostRegisterWrite f ofs v => Sys2Proof.Machine.execHostRegisterWrite f ofs v s
  | .hostWindowWrite f ofs bytes => Sys2Proof.Machine.execHostWindowWrite f ofs bytes s
  | .hostWindowRead f ofs len => Sys2Proof.Machine.execHostWindowRead f ofs len s
  | .wvalRead vf => Sys2Proof.Machine.execWvalRead vf s
  | .migrationStop vf stop => Sys2Proof.Machine.execMigrationStop vf stop s
  | .errorCounterClear ofs => Sys2Proof.Machine.execErrorCounterClear ofs s
  | .manifest m => Sys2Proof.Machine.execManifest m s
  | .leave => Sys2Proof.Machine.execLeave s
  | .switch => Sys2Proof.Machine.execSwitch s
  | .handle port keeper keeperPort epoch => Sys2Proof.Machine.execHandle port keeper keeperPort epoch s
  | .mlog piece => Sys2Proof.Machine.execMlog piece s
  | .domainForm proofs => Sys2Proof.Machine.execDomainForm proofs s
  | .domainKey session domain gen list m => Sys2Proof.Machine.execDomainKey session domain gen list m s
  | .domainAck member => Sys2Proof.Machine.execDomainAck member s
  | .loadSlot session slot jid wrapped => Sys2Proof.Machine.execLoadSlot session slot jid wrapped s
  | .unloadSlot session slot => Sys2Proof.Machine.execUnloadSlot session slot s
  | .getVersion session w => Sys2Proof.Machine.execGetVersion session w s
  | .getCapabilities session w => Sys2Proof.Machine.execGetCapabilities session w s
  | .negotiateAlgorithms session a => Sys2Proof.Machine.execNegotiateAlgorithms session a s
  | .getDigests session w => Sys2Proof.Machine.execGetDigests session w s
  | .getCertificate session slot w => Sys2Proof.Machine.execGetCertificate session slot w s
  | .challenge session w => Sys2Proof.Machine.execChallenge session w s
  | .getMeasurements session index w => Sys2Proof.Machine.execGetMeasurements session index w s
  | .keyExchange session betweenPackages w => Sys2Proof.Machine.execKeyExchange session betweenPackages w s
  | .finish session proof => Sys2Proof.Machine.execFinish session proof s
  | .keyUpdate session => Sys2Proof.Machine.execKeyUpdate session s
  | .heartbeat session => Sys2Proof.Machine.execHeartbeat session s
  | .endSession session => Sys2Proof.Machine.execEndSession session s
  | .ideKm session stream key => Sys2Proof.Machine.execIdeKm session stream key s
  | .lockInterface session vf => Sys2Proof.Machine.execLockInterface session vf s
  | .stopInterface session vf => Sys2Proof.Machine.execStopInterface session vf s
  | .tdispViolation vf => Sys2Proof.Machine.execTdispViolation vf s
  | .mctpControl w => Sys2Proof.Machine.execMctpControl w s
  | .entdaa addr => Sys2Proof.Machine.execEntdaa addr s
  | .sensorRead which => Sys2Proof.Machine.execSensorRead which s
  | .powerCapSet watts => Sys2Proof.Machine.execPowerCapSet watts s
  | .railSwitch on => Sys2Proof.Machine.execRailSwitch on s
  | .errorLogRead ofs => Sys2Proof.Machine.execErrorLogRead ofs s
  | .pldmFirmwareUpdate w => Sys2Proof.Machine.execPldmFirmwareUpdate w s
  | .powerOn => Sys2Proof.Machine.execPowerOn s
  | .coldStart => Sys2Proof.Machine.execColdStart s
  | .warmStart => Sys2Proof.Machine.execWarmStart s
  | .vfFlr vf => Sys2Proof.Machine.execVfFlr vf s
  | .scrubPass key found => Sys2Proof.Machine.execScrubPass key found s
  | .rfetch x => Sys2Proof.Machine.execRfetch x s
  | .bfex x => Sys2Proof.Machine.execBfex x s
  | .sigwait rel x => Sys2Proof.Machine.execSigwait rel x s
  | .disp x => Sys2Proof.Machine.execDisp x s
  | .matrixReadDone t => Sys2Proof.Machine.execMatrixReadDone t s
  | .remoteBlockReread t k id => Sys2Proof.Machine.execRemoteBlockReread t k id s
  | .hostReadCompletion id data => Sys2Proof.Machine.execHostReadCompletion id data s
  | .pldmType0 w => Sys2Proof.Machine.execPldmType0 w s

end Sys2Proof.Machine
end

