-- ==== Sys2Proof/Machine/Fetch.lean ====
section
/-!
DEFINITION. Instruction fetch of a core: the line, its parity and its checks, and the faults that decode finds
(R192 to R196, R209).
Log entries (notes/assumptions): 16 DEDUCED, 48 DESIGN CHOICE.
-/
namespace Sys2Proof.Machine

/-- LM offset of the line that an instruction pointer names (R195). -/
def lineBase (ip : Word) : Nat := Word.bits ip 0 19 / 64 * 64

/-- The 64 bytes of a line as a core's fetch sees them (R92, R192). -/
def Core.line (c : Core) (ip : Word) : List Byte := (List.range 64).map (fun i => c.fetchByte (lineBase ip + i))

/-- Parity of one class of a line, as a 512-bit number: the number of 1 bits at indices k, k + 16, … is odd (R194). -/
def classOdd (line k : Nat) : Bool :=
  (List.range 32).foldl (fun b i => b != line.testBit (k + 16 * i)) false

/-- The lowest parity class that fails (R194). -/
def parityFails (line : Nat) : Option Nat := (List.range 16).find? (classOdd line)

/-- The word of the slot that an instruction pointer names (R192). -/
def slotWord (line : Nat) (ip : Word) : BitVec 96 := BitVec.ofNat 96 (line / 2 ^ (96 * (ip.toNat % 8)))

/-- An uncorrectable error in a line of LM (R404). -/
def State.badLine (s : State) (ofs : Nat) : Option Nat :=
  let key := tileKey s.curTile 0 ofs
  s.poison.find? (fun p => decide (key ≤ p) && decide (p < key + 64))

/-- What fetch finds on the line of the acting core's next instruction (R194 to R196, R404). -/
def State.fetchTrap (s : State) : Option TrapInfo :=
  let c := s.me
  let x := s.tile s.curTile
  let ip := c.regs.ip
  let ofs := lineBase ip
  if 2 ^ 19 ≤ ip.toNat then some (mkTrap Code.badTarget 0x80000 0 15 s.curTile 3)
  else if !c.regs.priv ∧ (x.inTail ofs ∨ x.inTail (ofs + 63)) then some (s.ipTrap Code.protection 7)
  else if x.slabEngine 0 (ofs / 4096) then some (s.ipTrap Code.slabOwner 3)
  else match s.badLine ofs with
    | some p => some (mkTrap 0xF0 (localAddr s.curTile p) 0 2 s.curTile 0)
    | none => (parityFails (ofBytes (c.line ip))).map (fun k => s.ipTrap Code.fetchParity k)

/-- OPC of a transfer (R210). -/
def opcTransfer (opc : Nat) : Bool := (decide (0x082 ≤ opc) && decide (opc ≤ 0x08C)) || opc == 0x1E2

/-- OPC and FMT of an entry of a phase group (R209 row 3). -/
def opcGroup (opc fmt : Nat) : Bool :=
  opc == 0x1E9 || opc == 0x1EA || opc == 0x1ED || ((opc == 0x109 || opc == 0x10A) && fmt == 2)

/-- OPC of a privileged entry that a job with PF = 0 may not run (R379). -/
def opcPf (opc : Nat) : Bool := opc == 0x1D3 || opc == 0x1D4 || opc == 0x1D5 || opc == 0x1E6 || opc == 0x1EE

/-- The fault of a word that is no instruction, in the order of R209. -/
noncomputable def State.decodeTrap (s : State) (w : Raw) (e : DecodeErr) : TrapInfo :=
  let opc := w.opc.toNat
  let last := match e with
    | .illegalOpc => s.ipTrap Code.illegalOpc 1
    | .badFmt => s.ipTrap Code.illegalOpc 2
    | .reserved b => s.reservedTrap b
    | .overlap => s.ipTrap Code.operandOverlap 0
  if opcTransfer opc ∧ s.me.regs.slot.isSome then s.ipTrap Code.delayBranch 0
  else match e with
    | .illegalOpc | .badFmt => last
    | _ => match findRow w.opc with
      | none => last
      | some r => (s.gate { Entry.base with cores := r.cores, priv := r.priv, pf := opcPf opc,
                                            group := opcGroup opc w.fmt.toNat }).getD last

/-- What a core's fetch gives: a fault, or an instruction. -/
noncomputable def State.fetch (s : State) : TrapInfo ⊕ Instr :=
  match s.fetchTrap with
  | some i => .inl i
  | none =>
    let c := s.me
    let w := slotWord (ofBytes (c.line c.regs.ip)) c.regs.ip
    match decode w with
    | .error e => .inl (s.decodeTrap (Raw.ofWord w) e)
    | .ok i => .inr i

end Sys2Proof.Machine
end

