-- ==== Sys2Proof/Machine/Riscv.lean ====
section
/-!
DEFINITION. The base instructions of a command processor: RV64IMC with Zicsr in machine mode (R434). The specification
names that instruction set and does not repeat it: what stands here is PRESUMED from the RISC-V manuals.
Log entries (notes/assumptions): 7 PRESUMED.
-/
namespace Sys2Proof.Machine

/-! ## Compressed instructions, as the 32-bit instructions they stand for -/

/-- Words of the I, R, S, B, J and U formats. -/
def rvI (imm rs1 f3 rd op : Nat) : Nat := imm % 4096 * 2 ^ 20 + rs1 * 2 ^ 15 + f3 * 2 ^ 12 + rd * 2 ^ 7 + op
def rvR (f7 rs2 rs1 f3 rd op : Nat) : Nat := f7 * 2 ^ 25 + rs2 * 2 ^ 20 + rs1 * 2 ^ 15 + f3 * 2 ^ 12 + rd * 2 ^ 7 + op
def rvS (imm rs2 rs1 f3 : Nat) : Nat :=
  bitsAt imm 5 7 * 2 ^ 25 + rs2 * 2 ^ 20 + rs1 * 2 ^ 15 + f3 * 2 ^ 12 + bitsAt imm 0 5 * 2 ^ 7 + 0x23
def rvB (imm rs2 rs1 f3 : Nat) : Nat :=
  bitsAt imm 12 1 * 2 ^ 31 + bitsAt imm 5 6 * 2 ^ 25 + rs2 * 2 ^ 20 + rs1 * 2 ^ 15 + f3 * 2 ^ 12 +
  bitsAt imm 1 4 * 2 ^ 8 + bitsAt imm 11 1 * 2 ^ 7 + 0x63
def rvJ (imm rd : Nat) : Nat :=
  bitsAt imm 20 1 * 2 ^ 31 + bitsAt imm 1 10 * 2 ^ 21 + bitsAt imm 11 1 * 2 ^ 20 + bitsAt imm 12 8 * 2 ^ 12 + rd * 2 ^ 7 + 0x6F

/-- A number of `n` bits sign-extended to `m` bits. -/
def sxBits (n m x : Nat) : Nat := (signedOf n x % 2 ^ m).toNat

/-- The registers that the three-bit fields name. -/
def rvc (h lo : Nat) : Nat := 8 + bitsAt h lo 3

/-- The immediate of six bits of the CI format. -/
def rvcImm (h : Nat) : Nat := bitsAt h 12 1 * 32 + bitsAt h 2 5

/-- Quadrant 0. -/
def rvcQ0 (h : Nat) : Option Nat :=
  let lw := bitsAt h 5 1 * 64 + bitsAt h 10 3 * 8 + bitsAt h 6 1 * 4
  let ld := bitsAt h 5 2 * 64 + bitsAt h 10 3 * 8
  match bitsAt h 13 3 with
  | 0 =>
    let imm := bitsAt h 7 4 * 64 + bitsAt h 11 2 * 16 + bitsAt h 5 1 * 8 + bitsAt h 6 1 * 4
    if imm = 0 then none else some (rvI imm 2 0 (rvc h 2) 0x13)
  | 2 => some (rvI lw (rvc h 7) 2 (rvc h 2) 0x03)
  | 3 => some (rvI ld (rvc h 7) 3 (rvc h 2) 0x03)
  | 6 => some (rvS lw (rvc h 2) (rvc h 7) 2)
  | 7 => some (rvS ld (rvc h 2) (rvc h 7) 3)
  | _ => none

/-- The arithmetic of quadrant 1. -/
def rvcAlu (h : Nat) : Option Nat :=
  let rd := rvc h 7
  let rs2 := rvc h 2
  match bitsAt h 10 2 with
  | 0 => some (rvI (rvcImm h) rd 5 rd 0x13)
  | 1 => some (rvI (rvcImm h + 0x400) rd 5 rd 0x13)
  | 2 => some (rvI (sxBits 6 12 (rvcImm h)) rd 7 rd 0x13)
  | _ => match bitsAt h 12 1, bitsAt h 5 2 with
    | 0, 0 => some (rvR 0x20 rs2 rd 0 rd 0x33)
    | 0, 1 => some (rvR 0 rs2 rd 4 rd 0x33)
    | 0, 2 => some (rvR 0 rs2 rd 6 rd 0x33)
    | 0, _ => some (rvR 0 rs2 rd 7 rd 0x33)
    | _, 0 => some (rvR 0x20 rs2 rd 0 rd 0x3B)
    | _, 1 => some (rvR 0 rs2 rd 0 rd 0x3B)
    | _, _ => none

/-- Quadrant 1. -/
def rvcQ1 (h : Nat) : Option Nat :=
  let rd := bitsAt h 7 5
  let imm := sxBits 6 12 (rvcImm h)
  let j := sxBits 12 21 (bitsAt h 12 1 * 2048 + bitsAt h 8 1 * 1024 + bitsAt h 9 2 * 256 + bitsAt h 6 1 * 128 +
    bitsAt h 7 1 * 64 + bitsAt h 2 1 * 32 + bitsAt h 11 1 * 16 + bitsAt h 3 3 * 2)
  let b := sxBits 9 13 (bitsAt h 12 1 * 256 + bitsAt h 5 2 * 64 + bitsAt h 2 1 * 32 + bitsAt h 10 2 * 8 + bitsAt h 3 2 * 2)
  match bitsAt h 13 3 with
  | 0 => some (rvI imm rd 0 rd 0x13)
  | 1 => if rd = 0 then none else some (rvI imm rd 0 rd 0x1B)
  | 2 => some (rvI imm 0 0 rd 0x13)
  | 3 =>
    if rd = 2 then
      let n := bitsAt h 12 1 * 512 + bitsAt h 3 2 * 128 + bitsAt h 5 1 * 64 + bitsAt h 2 1 * 32 + bitsAt h 6 1 * 16
      if n = 0 then none else some (rvI (sxBits 10 12 n) 2 0 2 0x13)
    else if rvcImm h = 0 then none
    else some (sxBits 6 20 (rvcImm h) * 2 ^ 12 + rd * 2 ^ 7 + 0x37)
  | 4 => rvcAlu h
  | 5 => some (rvJ j 0)
  | 6 => some (rvB b 0 (rvc h 7) 0)
  | _ => some (rvB b 0 (rvc h 7) 1)

/-- Quadrant 2. -/
def rvcQ2 (h : Nat) : Option Nat :=
  let rd := bitsAt h 7 5
  let rs2 := bitsAt h 2 5
  match bitsAt h 13 3 with
  | 0 => some (rvI (rvcImm h) rd 1 rd 0x13)
  | 2 => if rd = 0 then none else some (rvI (bitsAt h 2 2 * 64 + bitsAt h 12 1 * 32 + bitsAt h 4 3 * 4) 2 2 rd 0x03)
  | 3 => if rd = 0 then none else some (rvI (bitsAt h 2 3 * 64 + bitsAt h 12 1 * 32 + bitsAt h 5 2 * 8) 2 3 rd 0x03)
  | 4 =>
    if bitsAt h 12 1 = 0 then
      (if rs2 ≠ 0 then some (rvR 0 rs2 0 0 rd 0x33) else if rd = 0 then none else some (rvI 0 rd 0 0 0x67))
    else if rs2 ≠ 0 then some (rvR 0 rs2 rd 0 rd 0x33)
    else if rd = 0 then some 0x00100073 else some (rvI 0 rd 0 1 0x67)
  | 6 => some (rvS (bitsAt h 7 2 * 64 + bitsAt h 9 4 * 4) rs2 2 2)
  | 7 => some (rvS (bitsAt h 7 3 * 64 + bitsAt h 10 3 * 8) rs2 2 3)
  | _ => none

/-- The 32-bit instruction that a compressed one stands for; none for an illegal one. -/
def rvExpand (h : Nat) : Option Nat :=
  match h % 4 with
  | 0 => rvcQ0 h
  | 1 => rvcQ1 h
  | _ => rvcQ2 h

/-! ## Control registers -/

/-- The value of a control register of command processor n; none when there is no such register. The further counters and their
event selectors read as zero. -/
def Cp.csr (c : Cp) (n now : Nat) (k : Nat) : Option Word :=
  match k with
  | 0x300 => some (c.mstatus &&& 0x88 ||| 0x1800)
  | 0x301 => some 0x8000000000001104
  | 0x304 => some c.mie
  | 0x305 => some c.mtvec
  | 0x340 => some c.mscratch
  | 0x341 => some c.mepc
  | 0x342 => some c.mcause
  | 0x343 => some c.mtval
  | 0x320 => some c.inhibit
  | 0x344 => some c.mip
  | 0xB00 => some (c.mcycle now)
  | 0xB02 => some c.minstret
  | 0x7C0 => some (word c.cpjid.toNat)
  | 0xF11 | 0xF12 | 0xF13 | 0xF15 => some 0
  | 0xF14 => some (word n)
  | k => if (0x323 ≤ k ∧ k ≤ 0x33F) ∨ (0xB03 ≤ k ∧ k ≤ 0xB1F) then some 0 else none

/-- mcountinhibit stops or lets run mcycle (bit 0) and minstret (bit 2); mcycle keeps its value. -/
def Cp.setInhibit (c : Cp) (now : Nat) (v : Word) : Cp :=
  let x := v &&& 5
  { c with inhibit := x, mcyc := if x.getLsbD 0 then c.mcycle now else c.mcycle now - word now }

/-- A write of a control register. What an instruction writes to minstret stands behind the count of the instruction itself. -/
def Cp.setCsr (c : Cp) (now : Nat) (k : Nat) (v : Word) : Cp :=
  match k with
  | 0x320 => c.setInhibit now v
  | 0xB00 => { c with mcyc := if c.inhibit.getLsbD 0 then v else v - word now }
  | 0xB02 => { c with minstret := if c.inhibit.getLsbD 2 then v else v - 1 }
  | 0x300 => { c with mstatus := v &&& 0x88 ||| 0x1800 }
  | 0x304 => { c with mie := v &&& 0x888 }
  | 0x305 => { c with mtvec := v &&& ~~~(2 : Word) }
  | 0x340 => { c with mscratch := v }
  | 0x341 => { c with mepc := v &&& ~~~(1 : Word) }
  | 0x342 => { c with mcause := v }
  | 0x343 => { c with mtval := v }
  | 0x7C0 => { c with cpjid := v.truncate 16 }
  | _ => c

/-! ## The instructions -/

/-- The acting command processor goes on at an address, having written rd. -/
def State.rvGo (s : State) (rd : Nat) (v pc : Word) : State :=
  s.setCp s.curCp { (s.myCp.setReg (BitVec.ofNat 5 rd) v).retire with pc := pc }

/-- The sign-extended low 32 bits. -/
def sx32 (v : Word) : Word := (v.truncate 32).signExtend 64

/-- OP and OP-IMM on 64 bits; `alt` is bit 30 of the instruction. -/
def rvAlu (f3 : Nat) (alt : Bool) (a b : Word) : Word :=
  match f3 with
  | 0 => if alt then a - b else a + b
  | 1 => a <<< (b.toNat % 64)
  | 2 => wordB (a.slt b)
  | 3 => wordB (a.ult b)
  | 4 => a ^^^ b
  | 5 => if alt then a.sshiftRight (b.toNat % 64) else a >>> (b.toNat % 64)
  | 6 => a ||| b
  | _ => a &&& b

/-- The 32-bit forms; none for a reserved function. -/
def rvAluW (f3 : Nat) (alt : Bool) (a b : Word) : Option Word :=
  let x : BitVec 32 := a.truncate 32
  match f3 with
  | 0 => some (sx32 (if alt then a - b else a + b))
  | 1 => some ((x <<< (b.toNat % 32)).signExtend 64)
  | 5 => some ((if alt then x.sshiftRight (b.toNat % 32) else x >>> (b.toNat % 32)).signExtend 64)
  | _ => none

/-- Division and remainder of the M extension at a width. -/
def rvDiv {w : Nat} (f3 : Nat) (a b : BitVec w) : BitVec w :=
  match f3 with
  | 4 => if b = 0 then BitVec.allOnes w else a.sdiv b
  | 5 => if b = 0 then BitVec.allOnes w else a.udiv b
  | 6 => if b = 0 then a else a.srem b
  | _ => if b = 0 then a else a.umod b

/-- The M extension on 64 bits. -/
def rvMul (f3 : Nat) (a b : Word) : Word :=
  match f3 with
  | 0 => a * b
  | 1 => wordI (a.toInt * b.toInt / 2 ^ 64)
  | 2 => wordI (a.toInt * b.toNat / 2 ^ 64)
  | 3 => word (a.toNat * b.toNat / 2 ^ 64)
  | f => rvDiv f a b

/-- The M extension on 32 bits. -/
def rvMulW (f3 : Nat) (a b : Word) : Option Word :=
  match f3 with
  | 0 => some (sx32 (a * b))
  | 1 | 2 | 3 => none
  | f => some ((rvDiv f (a.truncate 32 : BitVec 32) (b.truncate 32)).signExtend 64)

/-- Whether a branch is taken; none for a reserved function. -/
def rvTaken (f3 : Nat) (a b : Word) : Option Bool :=
  match f3 with
  | 0 => some (a == b)
  | 1 => some (a != b)
  | 4 => some (a.slt b)
  | 5 => some (!a.slt b)
  | 6 => some (a.ult b)
  | 7 => some (!a.ult b)
  | _ => none

/-- A load of the acting command processor from its scratch; elsewhere a load access fault. -/
def State.rvLoad (s : State) (f3 rd : Nat) (va next : Word) : State :=
  let n := 2 ^ (f3 % 4)
  if 7 ≤ f3 then s.cpTrap 2 0
  else if cpScratch < va.toNat + n then s.cpTrap 5 va.toNat
  else
    let x := s.readNat 0 (cpKey s.curCp va.toNat) n
    s.rvGo rd (if 4 ≤ f3 then word x else wordI (signedOf (8 * n) x)) next

/-- A store of the acting command processor into its scratch; elsewhere a store access fault. -/
def State.rvStore (s : State) (f3 : Nat) (va v next : Word) : State :=
  let n := 2 ^ f3
  if 4 ≤ f3 then s.cpTrap 2 0
  else if cpScratch < va.toNat + n then s.cpTrap 7 va.toNat
  else (s.pokeBytes 0 (cpKey s.curCp va.toNat) (toBytes n v.toNat)).rvGo 0 0 next

/-- SYSTEM: the environment instructions, and the control register instructions of Zicsr. -/
def State.rvSystem (s : State) (w : Nat) (next : Word) : State :=
  let c := s.myCp
  let f3 := bitsAt w 12 3
  let rd := bitsAt w 7 5
  let z := bitsAt w 15 5
  let k := bitsAt w 20 12
  if f3 = 0 then
    if w = 0x00000073 then s.cpTrap 11 0
    else if w = 0x00100073 then s.cpTrap 3 0
    else if w = 0x30200073 then
      let mpie := c.mstatus.getLsbD 7
      s.setCp s.curCp { c.retire with pc := c.mepc, mstatus := (if mpie then 0x88 else 0x80) ||| 0x1800 }
    else if w = 0x10500073 then s.rvGo 0 0 next
    else s.cpTrap 2 0
  else if f3 = 4 then s.cpTrap 2 0
  else match c.csr s.curCp s.cycle k with
    | none => s.cpTrap 2 0
    | some old =>
      let v := if 5 ≤ f3 then word z else c.reg (BitVec.ofNat 5 z)
      let new := match f3 % 4 with
        | 1 => v
        | 2 => old ||| v
        | _ => old &&& ~~~v
      let writes := f3 % 4 == 1 || z != 0
      if writes ∧ 0xC00 ≤ k then s.cpTrap 2 0
      else
        let c := if writes then c.setCsr s.cycle k new else c
        (s.setCp s.curCp c).rvGo rd old next

/-- A 32-bit base instruction of the acting command processor; `next` is the address behind it. -/
def State.rvBase (s : State) (w : Nat) (next : Word) : State :=
  let c := s.myCp
  let rd := bitsAt w 7 5
  let f3 := bitsAt w 12 3
  let f7 := bitsAt w 25 7
  let a := c.reg (BitVec.ofNat 5 (bitsAt w 15 5))
  let b := c.reg (BitVec.ofNat 5 (bitsAt w 20 5))
  let immI := wordI (signedOf 12 (bitsAt w 20 12))
  let immS := wordI (signedOf 12 (bitsAt w 25 7 * 32 + rd))
  let immB := wordI (signedOf 13 (bitsAt w 31 1 * 4096 + bitsAt w 7 1 * 2048 + bitsAt w 25 6 * 32 + bitsAt w 8 4 * 2))
  let immU := wordI (signedOf 32 (bitsAt w 12 20 * 4096))
  let immJ := wordI (signedOf 21 (bitsAt w 31 1 * 2 ^ 20 + bitsAt w 12 8 * 4096 + bitsAt w 20 1 * 2048 + bitsAt w 21 10 * 2))
  let put := fun (v : Option Word) => match v with
    | some v => s.rvGo rd v next
    | none => s.cpTrap 2 0
  match bitsAt w 0 7 with
  | 0x37 => s.rvGo rd immU next
  | 0x17 => s.rvGo rd (c.pc + immU) next
  | 0x6F => s.rvGo rd next (c.pc + immJ)
  | 0x67 => if f3 = 0 then s.rvGo rd next ((a + immI) &&& ~~~(1 : Word)) else s.cpTrap 2 0
  | 0x63 => match rvTaken f3 a b with
    | some t => s.rvGo 0 0 (if t then c.pc + immB else next)
    | none => s.cpTrap 2 0
  | 0x03 => s.rvLoad f3 rd (a + immI) next
  | 0x23 => s.rvStore f3 (a + immS) b next
  | 0x13 =>
    let f6 := bitsAt w 26 6
    if (f3 = 1 ∧ f6 ≠ 0) ∨ (f3 = 5 ∧ f6 ≠ 0 ∧ f6 ≠ 0x10) then s.cpTrap 2 0
    else put (some (rvAlu f3 (f3 == 5 && f6 == 0x10) a immI))
  | 0x1B =>
    if (f3 = 1 ∧ f7 ≠ 0) ∨ (f3 = 5 ∧ f7 ≠ 0 ∧ f7 ≠ 0x20) then s.cpTrap 2 0
    else put (rvAluW f3 (f3 == 5 && f7 == 0x20) a immI)
  | 0x33 =>
    if f7 = 1 then put (some (rvMul f3 a b))
    else if f7 = 0 ∨ (f7 = 0x20 ∧ (f3 = 0 ∨ f3 = 5)) then put (some (rvAlu f3 (f7 == 0x20) a b))
    else s.cpTrap 2 0
  | 0x3B =>
    if f7 = 1 then put (rvMulW f3 a b)
    else if f7 = 0 ∨ (f7 = 0x20 ∧ (f3 = 0 ∨ f3 = 5)) then put (rvAluW f3 (f7 == 0x20) a b)
    else s.cpTrap 2 0
  | 0x0F => if f3 = 0 ∨ f3 = 1 then s.rvGo 0 0 next else s.cpTrap 2 0
  | 0x73 => s.rvSystem w next
  | _ => s.cpTrap 2 0

end Sys2Proof.Machine
end

