-- ==== Sys2Proof/Machine/Turn.lean ====
section
/-!
DEFINITION. One turn: time passes, and a core, a command processor or an event acts. The agenda says which turns come; with
an empty agenda the part's own work goes round in a rotation.
Log entries (notes/assumptions): 7 PRESUMED, 10 DESIGN CHOICE, 11 DESIGN CHOICE, 12 DESIGN CHOICE, 17 DEDUCED, 19
DEDUCED, 25 DESIGN CHOICE, 40 DEDUCED, 44 DEDUCED, 68 DESIGN CHOICE.
-/
namespace Sys2Proof.Machine

/-! ## Time -/

/-- LEFT of a core after some cycles (R391). -/
def Core.elapse (c : Core) (dt : Nat) : Core :=
  if c.prq ∧ !c.regs.priv ∧ !c.regs.park then { c with left := c.left - dt } else c

/-- The .QNT atomics whose 4 µs would end before some cycles have passed are performed (R86, R88). They stand with their core from
their issue on, for their chunk commits with them. -/
def State.qntDue (s : State) (dt : Nat) : State :=
  s.tiles.foldl (fun s (t, _) => CoreK.all.foldl (fun s k =>
    s.performSome t k (fun a => a.use == 3 && decide (a.at_ + 6400 < s.cycle + dt))) s) s

/-- Core cycles pass; the starts that come meanwhile occur at their time (R374). -/
def State.pass (s : State) (dt : Nat) : State :=
  if dt = 0 then s
  else
    let s := s.qntDue dt
    let c := s.cycle + dt
    let s := (s.startsDue (s.gtc0 + c * 5 / 8)).foldl (fun s (at_, id) => s.startAt at_ id) s
    { s with
      cycle := c
      tiles := s.tiles.map (fun (t, x) => (t, { x with cores := x.cores.map (fun (k, c) => (k, c.elapse dt)) })) }

/-- Whether the part has come up: the main rails are on, and the start has found the RSC firmware signed (R416, R433). -/
def State.up (s : State) : Bool := s.side.rails && s.rsc.signed

/-- The cycles at which frames begin from now on, among some that pass (R146). A frame of the present cycle is over when time goes
on. -/
def State.framesIn (s : State) (dt : Nat) : List Nat :=
  let lo := ceilDiv s.gtc 65
  let hi := ceilDiv (s.gtc0 + (s.cycle + dt) * 5 / 8) 65
  (List.range (hi - lo)).map (fun i => Nat.max s.cycle (ceilDiv ((65 * (lo + i) - s.gtc0) * 8) 5))

/-- Core cycles pass. What waits on a word in memory has first seen the commits of the turn before, and a slot that no access holds any
more has been unloaded (R181, R425). A frame begins at every multiple of 65 of the global time counter: the light of one that no
event has brought is open (R146; DESIGN CHOICE, log entry 68). -/
def State.elapse (s : State) (dt : Nat) : State :=
  let s := s.seen.slotsSettle
  let end_ := s.cycle + dt
  let live := s.up && [false, true].any (fun p => (s.port p).en || (s.port p).enrol.isSome)
  let s := if live then (s.framesIn dt).foldl (fun s c => (s.pass (c - s.cycle)).ownFrames) s else s
  s.pass (end_ - s.cycle)

/-! ## A core's turn -/

/-- A core whose watch has been asked to leave and that was not told yet is told (R389). -/
def State.tellRequest (s : State) (t : Nat) (k : CoreK) : State :=
  let c := s.core t k
  if (s.tile t).watch.any (fun w => w.st == .requested) ∧ !c.prq ∧ !c.regs.park ∧ c.run = .running then
    s.setCore t k { c with prq := true, left := c.regs.cycles.toNat }
  else s

/-- Whether a core stands in a wait of R390, or in a semaphore wait that has not been granted. -/
def Core.inWait (c : Core) : Bool := c.stalled || (c.waiting.isSome && !c.granted)

/-- A core that waits stops at once on a request (R390), when the spill has room (R392). -/
def State.stopWaiting (s : State) (t : Nat) (k : CoreK) : State :=
  match s.boundary t k with
  | .inl s => s
  | .inr s => if (s.core t k).yields ∧ (s.core t k).saveRoom then s.stopCore t k false else s

/-- A core whose fence has not ended: only a cancel, a forced save, and at a FENCE.E a request, stop it there (R190, R390, R391);
the fence is saved with the context, and waits again on resume (R279). -/
def State.behindFence (s : State) (t : Nat) (k : CoreK) : State :=
  let c := s.core t k
  if s.nextItem t k = some 2 ∨ s.nextItem t k = some 3 then s.event t k ((s.nextItem t k).getD 2)
  else match c.fence with
    | none => s
    | some f => if f.kind = 2 ∧ c.yields ∧ c.saveRoom then s.stopWaiting t k else s.standFence t k f

/-- What a core does before it fetches: right is the state in which it fetches. -/
def State.beforeFetch (s : State) (t : Nat) (k : CoreK) : State ⊕ State :=
  let s := if (s.tile t).semOvf.isSome then s.semOverflow t else s
  let s := s.tellRequest t k
  let c := s.core t k
  if c.run ≠ .running then .inl s
  else if c.chunk.any (fun h => h.closed) then .inl (s.tryCommit t k)
  else
    let open_ := c.regs.slot.isNone && !s.midway t k
    if c.fence.any (fun f => s.fenceDue t k f) then .inl (s.behindFence t k)
    else
    let s := if c.fence.isSome then s.setCore t k { c with fence := none, stalled := false } else s
    match if open_ then s.nextItem t k else none with
    | some n => .inl (s.event t k n)
    | none => if open_ ∧ c.yields ∧ c.inWait ∧ c.saveRoom then .inl (s.stopWaiting t k) else .inr s

/-- A core's turn. -/
noncomputable def State.coreTurn (s : State) (t : Nat) (k : CoreK) : Out :=
  match s.beforeFetch t k with
  | .inl s => .next s
  | .inr s =>
    let s := { s with curTile := t, curCore := k }
    match s.fetch with
    | .inl i => .next (s.preciseTrap i)
    | .inr i => exec i s

/-! ## A command processor's turn (R434, R435) -/

/-- A command processor takes an interrupt that is due, or else fetches and runs one instruction; outside its scratch it takes an
instruction access fault. -/
noncomputable def State.cpTurn (s : State) (n : Nat) : Out :=
  let s := { s with curCp := n }
  let pc := (s.cp n).pc
  if 8 ≤ n then .next s
  else if let some i := (s.cp n).interrupt then .next (s.setCp n ((s.cp n).takeInterrupt i))
  else if pc.toNat % 2 = 1 ∨ cpScratch < pc.toNat + 2 then .next (s.cpTrap 1 pc.toNat)
  else
    let h := s.readNat 0 (cpKey n pc.toNat) 2
    if h % 4 ≠ 3 then
      match rvExpand h with
      | some w => .next (s.rvBase w (pc + 2))
      | none => .next (s.cpTrap 2 0)
    else if cpScratch < pc.toNat + 4 then .next (s.cpTrap 1 pc.toNat)
    else
      let w := s.readNat 0 (cpKey n pc.toNat) 4
      if w % 128 = 0x0B then
        match decodeCp (BitVec.ofNat 32 w) with
        | some i => exec i s
        | none => .next (s.cpTrap 2 0)
      else .next (s.rvBase w (pc + 4))

/-! ## Events -/

/-- Whether an instruction is an event: the others are fetched by a core or a command processor. -/
def Instr.isEvent (i : Instr) : Bool :=
  match i with
  | .rfetch _ | .bfex _ | .sigwait _ _ | .disp _ => false
  | i => i.opOps.isNone

/-- What the standby rail's units and a start do with the main rails off (R433, R437). -/
def Instr.standby (i : Instr) : Bool :=
  match i with
  | .warmStart | .mctpControl _ | .entdaa _ | .sensorRead _ | .powerCapSet _ | .railSwitch _ | .errorLogRead _
  | .pldmFirmwareUpdate _ | .pldmType0 _ | .powerOn | .coldStart | .getVersion _ _ | .getCapabilities _ _
  | .negotiateAlgorithms _ _ | .getDigests _ _ | .getCertificate _ _ _ | .challenge _ _ | .getMeasurements _ _ _
  | .keyExchange _ _ _ | .finish _ _ | .keyUpdate _ | .heartbeat _ | .endSession _ => true
  | _ => false

/-- The events that go on while a solo token is held: those that commit nothing at the holder's arbiter, those that see to the
token themselves, and those that the holder may need (R83). Everything else waits for the holder's commit. -/
def Instr.beside (i : Instr) : Bool :=
  match i with
  | .semGrant _ | .semOverflow _ | .gangTimeout _ | .matrixReadDone _ | .matrixComplete _ | .matrixMismatch _
  | .stochEngineComplete _ | .copyPiece _ _ _ | .busFaultTaken _ | .chunkCommit _ _ | .tickSlip _ _ | .cancel _ _
  | .cancelStop _ _ | .machineCheck _ | .preemptForced _ _ | .tickArm _ | .tickStartEvent _ _ | .gangSlip _
  | .atomicPerform _ _ | .launchAged _ | .translationWalk _ _ _ _ _ | .mediumFrame _ _ | .fabricRequestApply _
  | .fabricDataPacket _ | .fabricAck _ _ _ | .hostReadCompletion _ _ | .remoteBlockReread _ _ _ | .powerOn | .coldStart
  | .warmStart | .railSwitch _ => true
  | _ => false

/-- Whether a tag's steps wait for the commit of a chunk that holds a solo token: its record lies in the tile's LM, and its state in
read sets. A holder that waits for the tag commits nothing meanwhile (R83, R279). -/
def State.tagHeld (s : State) (t : Nat) : Bool := s.holders.any (fun q => s.stops q t && !(s.core q.t q.k).stalled)

/-- Whether an answer from another package waits: one that ends a copy or faults it (R83). -/
def State.ackHeld (s : State) (id : Nat) : Bool :=
  s.fabric.pending.any (fun o => o.id == id && (match o.what with
    | .copy t _ _ _ _ => s.tagHeld t
    | .copyRead t _ _ _ => s.tagHeld t
    | _ => false))

/-- Whether a turn waits for the commit of a chunk that holds a solo token (R83). -/
def State.holdsBack (s : State) (w : Who) : Bool :=
  !s.holders.isEmpty && (match w with
    | .core _ _ => false
    | .cp _ => true
    | .request _ => false
    | .lines _ _ => false
    | .event i => !Instr.beside i || (match i with
      | .copyPiece t _ _ => s.soloPackage || s.tagHeld t
      | .fabricRequestApply _ | .fabricDataPacket _ => s.soloPackage
      | .fabricAck id _ _ => s.ackHeld id
      | _ => false))

/-- Whether an event can happen. -/
def State.admits (s : State) (i : Instr) : Bool :=
  Instr.isEvent i && (s.up || Instr.standby i)

/-! ## The part's own work -/

/-- What is due on a tile. -/
noncomputable def tileWork (t : Nat) (x : Tile) : List Who :=
  let ev := fun (b : Bool) (i : Instr) => if b then [Who.event i] else []
  CoreK.all.flatMap (fun k =>
    let c := x.core k
    (if c.run = .running then [Who.core t k] else []) ++
    (c.walks.filter (fun m => m.ans.isNone)).map (fun m => Who.event (.translationWalk (t / 256) (walkerOf t m.va % 64) c.cctx (word m.va) m.write)) ++
    (c.ext.toList.filter (fun _ => c.stalled)).map (fun e => Who.event (.remoteBlockReread t k e.id)) ++ ev (!c.atoms.isEmpty) (.atomicPerform t k) ++
    ev (c.cancelled && c.run != .running && c.run != .off) (.cancelStop t k)) ++
  ev (x.cores.any (fun (_, c) => c.waiting.isSome && !c.granted)) (.semGrant t) ++
  ev (x.core .m).join.isSome (.gangTimeout t) ++
  ev (!x.mq.isEmpty) (.matrixReadDone t) ++ ev (!x.mq.isEmpty) (.matrixComplete t) ++
  ev (!x.mq.isEmpty) (.matrixMismatch t) ++ ev (!x.zq.isEmpty) (.stochEngineComplete t) ++
  x.tags.flatMap (fun (n, r) => ev (r.st == .busy) (.copyPiece t n [])) ++
  ev (x.watch.any (fun w => w.st == .saving)) (.watchSave t) ++
  ev (x.watch.any (fun w => w.st == .written)) (.saveComplete t) ++ ev x.draining (.tileDrainDone t)

/-- What is due for a graph run: its node, of whichever kind it is. -/
noncomputable def runWork (r : Run) : List Who :=
  if r.state ≠ 1 then []
  else ([.graphNodeEnd r.id, .graphNodeLaunch r.id, .graphNodeJoin r.id, .graphNodeCond r.id,
         .graphNodeLoop r.id] : List Instr).map Who.event

/-- What is due for a launch. -/
noncomputable def launchWork (l : Launch) : List Who :=
  (if l.state = 0 then [Who.event (.launchAged l.id)] else []) ++
  (if l.grp.isSome then ([.tickArm l.id, .tickStartEvent l.jid (some l.id), .gangSlip l.id] : List Instr).map Who.event else [])

/-- What is due for a queue's packets. -/
noncomputable def queueWork (q : Nat) (x : Queue) : List Who :=
  x.active.map (fun e => Who.event (if e.st = 2 then .packetComplete q true else match pkKind e.w with
    | 0 => .packetNop q
    | 1 => .openJob q
    | 2 => .closeJob q
    | 3 => .runGraph q
    | 4 => .packetCancel q
    | 5 => .waitMem q
    | _ => .writeMem q))

/-- Everything that the part itself has to do. -/
noncomputable def State.ownWork (s : State) : List Who :=
  s.tiles.flatMap (fun (t, x) => tileWork t x) ++ s.runs.flatMap runWork ++ s.launches.flatMap launchWork ++
  s.jobs.flatMap (fun j => if j.plan.isSome then [Who.event (.tickStartEvent j.jid none)] else []) ++
  s.queues.flatMap (fun (q, x) => queueWork q x) ++ (if s.waits.isEmpty then [] else [Who.event .launchPlace])

/-! ## A turn -/

/-- The next turn: the agenda's first that is not held back, or the next of the part's own work after one cycle. -/
noncomputable def State.nextTurn (s : State) : Nat × Option Who × State :=
  match s.agenda.find? (fun t => !s.holdsBack t.who) with
  | some t => (t.dt, some t.who, { s with agenda := s.agenda.erase t })
  | none =>
    let ws := if s.up then s.ownWork.filter (fun w => !s.holdsBack w) else []
    (1, ws[s.rr % ws.length]?, { s with rr := s.rr + 1 })

/-- Someone acts. -/
noncomputable def State.act (s : State) (w : Who) : Out :=
  match w with
  | .core t k => if s.up then s.coreTurn t k else .next s
  | .cp n => if s.up then s.cpTurn n else .next s
  | .event i => if s.admits i then exec i s else .next s
  | .request code => .next (s.otherRequest code)
  | .lines n up => .next (if n < 8 then s.setCp n { s.cp n with mip := up &&& 0x888 } else s)

/-- One turn. -/
noncomputable def State.turn (s : State) : Out :=
  let (dt, w, s) := s.nextTurn
  let s := s.elapse dt
  match w with
  | some w => s.act w
  | none => .next s

/-! ## Placing one instruction -/

/-- A word in the slot that an instruction pointer names, in a line with its parity. -/
def lineWithWord (w : BitVec 96) (ip : Word) : List Byte :=
  let x := w.toNat * 2 ^ (96 * (ip.toNat % 8)) % 2 ^ 480
  toBytes 64 (x + (List.range 16).foldl (fun a k => if classOdd x k then a + 2 ^ (480 + k) else a) 0)

/-- The core that is to run a word of a range: the acting one where it may. -/
def coreFor (range : Cores) (k : CoreK) : CoreK :=
  match range with
  | .all => k
  | .c => .c
  | .m => .m
  | .v => .v
  | .x => .x
  | .s => .s

/-- A core set to run a word at its instruction pointer, in privileged mode where the entry asks for it. -/
def Core.withWord (c : Core) (w : BitVec 96) (priv : Bool) : Core :=
  { c with
    run := .running, iview := smPutList c.iview (lineBase c.regs.ip) (lineWithWord w c.regs.ip)
    regs := { c.regs with priv := c.regs.priv || priv } }

/-- The state whose next turn is the acting tile's core that runs a word, or the acting command processor with a word at its
pc. -/
noncomputable def State.placeWord (s : State) (nbits w : Nat) : State :=
  if nbits ≤ 32 then
    { s.pokeBytes 0 (cpKey s.curCp (s.cp s.curCp).pc.toNat) (toBytes 4 w) with agenda := ⟨0, .cp s.curCp⟩ :: s.agenda }
  else
    let word := BitVec.ofNat 96 w
    let row := findRow (Raw.ofWord word).opc
    let k := coreFor ((row.map (·.cores)).getD .all) s.curCore
    let s := s.updCore s.curTile k (fun c => c.withWord word (row.any (·.priv)))
    { s with agenda := ⟨0, .core s.curTile k⟩ :: s.agenda }

end Sys2Proof.Machine
end

