-- ==== Sys2Proof/Machine/Step.lean ====
section
/-!
DEFINITION. One step of the part: one turn.
Log entries (notes/assumptions): 12 DESIGN CHOICE, 48 DESIGN CHOICE.
-/
namespace Sys2Proof.Machine

/-- One step. -/
noncomputable def step (s : State) : Host.Outcome State Fault Refusal := s.turn

/-- The state with an instruction placed where the next step fetches it. -/
noncomputable def State.withFetchWord (s : State) (nbits w : Nat) : State := s.placeWord nbits w

end Sys2Proof.Machine
end

