-- ==== Sys2Proof/Safety.lean ====
section
/-!
DEFINITION. The words that the statements are made of: what counts as a safe run, when a core instruction issues, what
follows its effect, and the form that every state of a run keeps.
Log entries (notes/assumptions): 1 DESIGN CHOICE.
-/
namespace Sys2Proof.Machine

/-- A step that answers a next state: neither a fault nor a refusal. -/
def Safe (s : State) : Prop := ∃ t, step s = .next t

/-- The instruction issues in this step, from the state `s0`: the checks of R209 that depend on the core pass, no boundary
and no wait holds it back (R75, R205), its predicate holds (R202), it is no transfer at the last slot of LM (R195), an engine
instruction finds room in its engine's queue (R375), and one that makes its effect on the tile as it runs is the first of its
chunk, with no token in its way (R83). -/
structure Issues (e : Entry) (x : Ops) (s s0 : State) : Prop where
  gate : s.gate e = none
  ready : s.prepare e x = .inr s0
  holds : s0.me.regs.holds x.h = true
  room : ¬ (e.transfer = true ∧ s0.me.regs.ip = 0x7FFC4)
  queue : e.engine = true → s0.roomFor s0.curTile s0.curCore = true
  first : e.own = true → s0.soloBlocked s0.curTile s0.curCore = false ∧ s0.me.chunk.any (fun h => decide (0 < h.len)) = false

/-- Nothing holds back the commit that an instruction which issued from `s` and has left `t` asks for: no solo token of another
core (R83), and no line of its chunk that another commit has written (R79). -/
def Commits (e : Entry) (s t : State) : Prop := e.own = false → s.commitsNow t = true → s.heldBack t = false

/-- From the state `s` that the effect of an instruction which issued from `s0` has left, what follows it (the next slot or the
end of a transfer, and its chunk one instruction longer) leads to `t`, and where the chunk commits with it, it can. -/
def Ends (e : Entry) (x : Ops) (s0 s t : State) : Prop := finish e x true s = .ok ((), t) ∧ Commits e s0 t

/-- An instruction that issued from `s` and has left `t` is done: an entry that makes its effect on the tile as it runs commits
with its chunk, and so do an uncached access (R80) and a .QNT atomic (R88). -/
def State.done (s : State) (e : Entry) (t : State) : State :=
  if e.own || s.commitsNow t then t.commitChunk s.curTile s.curCore else t

/-- What follows the effect of an instruction that is no transfer and stands in no delay slot: the next slot in sequence
(R195), and its chunk one instruction longer. -/
def State.follow (s : State) (e : Entry) (x : Ops) : State :=
  (s.setMe { s.me with regs := { s.me.regs with mid := none, ip := ipNext s.me.regs.ip } }).grow e x true

/-- What follows the effect of a transfer (R210): the slot behind it is a delay slot, after which the target that the
effect has set is taken, or else the slot in sequence. -/
def State.followJump (s : State) (e : Entry) (x : Ops) : State :=
  let next := ipNext s.me.regs.ip
  (s.setMe { s.me with regs := { s.me.regs with
    mid := none, ip := next
    slot := some (s.me.regs.slot.getD { target := ipNext next, act := .plain, notice := none }) } }).grow e x true

/-- Merges flags into the acting core's CFLAG (R133). -/
def State.withFlags (s : State) (f : Nat) : State := s.setMe { s.me with regs := s.me.regs.addFlags f }

/-- Adds an action to what the acting core's chunk does as it commits. -/
def State.withAct (s : State) (a : Act) : State :=
  s.setMe { s.me with chunk := s.me.chunk.map (fun h => { h with acts := h.acts ++ [a] }) }

/-- Changes the acting core's registers. -/
def State.withRegs (s : State) (f : Regs → Regs) : State := s.setMe { s.me with regs := f s.me.regs }

/-- The first `n` sources, read in order (R219). -/
def sources (n : Nat) (x : Ops) : Exec (Word × Word × Word) := do
  let a ← if 0 < n then readA x else pure 0
  let b ← if 1 < n then readB x else pure 0
  let c ← if 2 < n then readC x else pure 0
  return (a, b, c)

/-- The canonical form of the memory: addresses strictly rising, and no entry equal to what an unlisted address reads as. -/
def State.Form (s : State) : Prop := smWf 0 s.mem = true

end Sys2Proof.Machine
end

