-- ==== Sys2Proof/WellFormed.lean ====
section
/-!
DEFINITION. Well-formed instructions: operands that exist and that their entry admits (R200, R203, R204), and events that
name existing tiles, queues and functions.
-/
namespace Sys2Proof

/-- The operand exists (R200). -/
def Opd.exists_ : Opd → Bool
  | .prv | .zero | .imm | .vprv | .byte _ => true
  | .o n | .g n | .s n | .p n | .z n => n < 8
  | .m n => n < 24
  | .a n => n < 16
  | .v n => n < 32

/-- A scalar operand of R219: the latch, the files, constants, streams and predicates. -/
def Opd.isScalar : Opd → Bool
  | .prv | .o _ | .m _ | .g _ | .zero | .imm | .s _ | .p _ => true
  | _ => false

/-- A vector operand of a group of `g` registers (R203, R282). -/
def Opd.isVector (g : Nat) : Opd → Bool
  | .vprv | .zero => true
  | .v n => n % g == 0
  | _ => false

/-- Whether a class of fields admits an operand. -/
def FieldC.admits (g : Nat) (scalarB : Bool) (x : Opd) : FieldC → Bool
  | .unused => x == .prv
  | .src => x.isScalar
  | .srcR | .dst => x.isScalar && x != .imm
  | .mg => match x with
    | .m _ | .g _ => true
    | _ => false
  | .pair => match x with
    | .m n => n % 2 == 0
    | _ => false
  | .strm => match x with
    | .s _ => true
    | _ => false
  | .z => match x with
    | .z _ => true
    | _ => false
  | .acc => match x with
    | .a _ => true
    | _ => false
  | .vg => x.isVector g
  | .v1 => x.isVector 1
  | .vb => if scalarB then x.isScalar else x.isVector g
  | .any => match x with
    | .byte _ => true
    | _ => false
  | .cfx => match x with
    | .byte b => (b &&& 0xF0) == 0
    | _ => false
  | .cfm => x.isScalar

/-- Whether an operand bundle is one that a row admits: FMT listed, every operand existing and of its class, and no
offending bit in the immediate, the modifier, the wait and signal fields or between fields (R204), no overlap (R203). -/
def Row.admits (r : Row) (x : Ops) : Bool :=
  let w := toRaw r.opc x
  let g := groupSize x.mod
  let sb := r.bf == .vb && x.mod.getLsbD 3
  r.fmts.contains x.fmt.toNat &&
  [(r.df, x.d), (r.af, x.a), (r.bf, x.b), (r.cf, x.c)].all (fun (c, o) => o.exists_ && c.admits g sb o) &&
  (r.bad w).isEmpty && !r.overlaps w

/-- A WRC constructor stands for its own control registers only (R353). -/
def Instr.ownWrc : Instr → Bool
  | .wrc x => x.imm != 0x07 && x.imm != 0x0C
  | .wrcCspill x => x.imm == 0x07
  | .wrcCras x => x.imm == 0x0C
  | _ => true

/-- Sources a conversion's OPC can name (R301, R303). -/
def Instr.ownSrc : Instr → Bool
  | .cvt src _ => src.toNat < 15
  | .vcvt src _ => src.toNat < 13
  | _ => true

/-- Whether the tile, queue, virtual function or core an event names exists (R2, R367, R427). -/
def Instr.eventInRange : Instr → Bool
  | .atomicPerform t _ | .semGrant t | .semOverflow t | .gangTimeout t | .matrixComplete t | .matrixMismatch t
  | .busFaultTaken t | .stochEngineComplete t | .chunkCommit t _ | .tickSlip t _
  | .cancel t _ | .cancelStop t _ | .preemptForced t _ | .watchSave t | .saveComplete t | .tileDrainDone t
  | .matrixReadDone t | .remoteBlockReread t _ _ => t < 1024
  | .translationWalk die n _ _ _ => die < 4 && n < 64
  | .copyPiece t tag _ => t < 1024 && tag < 64
  | .machineCheck c => c.t < 1024
  | .packetFetch q _ _ | .packetNop q | .openJob q | .closeJob q | .runGraph q | .packetCancel q | .waitMem q
  | .writeMem q | .packetComplete q _ | .queueTailWrite q _ | .queueHaltClear q _ | .queueHeadWrite q _
  | .queueEnableWrite q _ => q < 1040
  | .hostRegisterWrite f _ _ | .hostWindowWrite f _ _ | .hostWindowRead f _ _ => f < 65
  | .wvalRead vf | .migrationStop vf _ | .lockInterface _ vf | .stopInterface _ vf | .tdispViolation vf
  | .vfFlr vf => vf < 64
  | .loadSlot _ slot _ _ | .unloadSlot _ slot => slot < 2048
  | .sigwait rel _ => rel.toNat ≤ 5
  | .disp x => x.rs2 == 0
  | _ => true

/-- The well-formedness check. -/
noncomputable def Instr.wf (i : Instr) : Bool :=
  i.ownWrc && i.ownSrc && i.eventInRange &&
  match i.opOps with
  | none => true
  | some (opc, x) => match findRow (BitVec.ofNat 9 opc) with
    | some r => r.admits x
    | none => false

end Sys2Proof
end

