-- ==== Sys2Proof/Certificates/Slice0/Obligations.lean ====
section
/-!
DEFINITION. The statements for the provers. Each says what an instruction, an event or the machine does, in the words of the
rules of spec/: `Issues` is an instruction that the checks before its effect let through, `Ends` is what follows its effect.
-/
namespace Sys2Proof.Claims
open Sys2Proof.Machine

/-! ## The core instructions and their entries -/

/-- The entry and the operands of a core instruction: which cores may run it, whether it is privileged, a transfer or of a
phase group, and where R75 puts chunk boundaries. -/
def entryOf (i : Instr) : Option (Entry × Ops) :=
  match i with
  | .add x | .sub x | .mul x | .mulh x | .div x | .rem x | .absd x | .avg x | .and x | .or x | .xor x | .andn x
  | .orn x | .xnor x | .shl x | .shr x | .sar x | .rol x | .ror x | .min x | .max x | .cmpeq x | .cmpne x
  | .cmplt x | .cmple x | .tst x | .pand x | .por x | .pxor x | .pandn x | .sadd x | .ssub x | .smul x | .sshl x
  | .scadd x | .scaddu x | .bfi x | .bfxr x => some ((.alu 2), x)
  | .madd x | .msub x | .addx x | .addco x | .subx x | .subbo x | .mux x | .sel x | .bfir x | .ld x | .ldf x => some ((.alu 3), x)
  | .abs x | .neg x | .mov x | .popc x | .clz x | .ctz x | .addi x | .rsubi x | .muli x | .divi x | .remi x
  | .andi x | .ori x | .xori x | .shli x | .shri x | .sari x | .roli x | .rori x | .mini x | .maxi x | .saddi x
  | .lih x | .bfx x | .bfxs x | .cmpeqi x | .cmpnei x | .cmplti x | .cmplei x | .cmpgti x | .cmpgei x | .tsti x
  | .sptest x | .spcast x | .cvt _ x | .frnd x | .exp2 x | .log2 x | .rcp x | .rsq x => some ((.alu 1), x)
  | .lil x | .rdc x => some ((.alu 0), x)
  | .nop x | .sbind x | .sbindc x | .sunb x | .srew x | .sskip x | .spos x | .speek x | .sstat x | .st x | .stf x
  | .ldp x | .stp x | .ldi x | .sti x | .ldfi x | .stfi x | .pref x | .zline x | .ldo x | .sto x | .ldpi x
  | .stpi x | .bmov x | .bfill x | .ownr x | .aptrd x | .aadd _ x | .aand _ x | .aor _ x | .axor _ x | .amax _ x
  | .amin _ x | .axchg _ x | .acas _ x => some (.base, x)
  | .endTask x | .yield x | .trap x | .tfence x | .fence x | .fenceF x | .fenceE x | .fenceH x | .give x | .take x
  | .ttake x | .wrc x | .wrcCspill x | .wrcCras x | .cbld x => some (.ends, x)
  | .br x | .bnz x | .bz x | .beod x | .bneod x | .dbnz x | .brr x | .btab x | .call x | .callr x | .ret x => some (.jump, x)
  | .semset x | .semadd x | .semrd x | .semtry x | .semwait x | .semz x => some (.alone, x)
  | .vote x | .votev x => some ((voteEntry x), x)
  | .copy x | .copy2 x | .redp x | .apf x | .cfill x => some (.copies, x)
  | .twany x | .twall x | .tfind x | .twait x => some (.tagWait, x)
  | .cres x | .ccan x => some (.tagOps, x)
  | .tstat x => some ({ Entry.alu 1 with cores := .x }, x)
  | .vadd x | .vsub x | .vmul x | .vfma x | .vfms x | .vfnma x | .vmin x | .vmax x | .vabs x | .vneg x | .vdiv x
  | .vand x | .vor x | .vxor x | .vshl x | .vshr x | .vcmpeq x | .vcmpne x | .vcmplt x | .vcmple x | .vcmpun x
  | .vsel x | .vmcnt x | .vmff x | .vrsum x | .vrmax x | .vrmin x | .vramax x | .vscan x | .vscanx x | .vtopk x
  | .vtopki x | .vperm x | .vbcast x | .vext x | .vins x | .viota x | .vgath x | .vscat x | .vrand x | .vld x
  | .vst x | .vlds x | .vsts x | .vldbc x | .vstc x | .vldm x | .vstm x | .vcvt _ x | .vfrnd x | .venc x | .vdec x
  | .vexp2 x | .vlog2 x | .vrcp x | .vrsq x => some (.vector, x)
  | .mgang x => some ((gangEntry .gang), x)
  | .mldb x | .mmv x | .mclr x | .mdrain x => some (.array, x)
  | .mma x | .mred x => some ((gangEntry .mma), x)
  | .mmg x | .mredg x => some ((gangEntry .mmg), x)
  | .mstat x => some ({ Entry.array with engine := false }, x)
  | .mspill x | .mfill x => some ({ Entry.array with priv := true }, x)
  | .bred x | .bmax x | .bstream x | .barr x => some ({ Entry.medium with engine := true }, x)
  | .bwait x | .bstat x | .bchk x => some (.medium, x)
  | .bkey x | .benrol x | .bleave x => some (.portKey, x)
  | .zgen x | .zregen x | .zand x | .zxnor x | .zmux x | .znot x => some (.stoch, x)
  | .zcnt x | .zld x | .zst x | .zclass x => some (.stochCore, x)
  | .trapret x => some ({ Entry.jump with priv := true, after := true }, x)
  | .ctxsave x | .ctxload x => some (.context, x)
  | .tlbip x => some ({ Entry.ends with cores := .c, priv := true }, x)
  | .tlbic x => some ({ Entry.ends with cores := .c, priv := true, pf := true }, x)
  | .aptset x => some ({ Entry.ends with priv := true }, x)
  | .tickwait x => some ({ Entry.ends with own := true, group := true }, x)
  | .phaseend x => some ({ Entry.ends with group := true }, x)
  | .canl x | .cang x => some (.cancels, x)
  | .canp x => some ({ Entry.cancels with group := true }, x)
  | .canj x => some ({ Entry.cancels with priv := true, pf := true }, x)
  | _ => none

/-! ## Scalar entries (R218 to R232) -/

/-- A result of the type of R219, with no flag. -/
def narrow (x : Ops) (y : Int) : Word × Nat := (narrowFmt x.fmt y, 0)

/-- A truth value, with no flag. -/
def truth (b : Bool) : Word × Nat := (wordB b, 0)

/-- The operands of an instruction, the number of its sources, and the result and flags of its values. -/
abbrev ScalarRow := Ops × Nat × (Word → Word → Word → Word × Nat)

/-- Integer arithmetic (R220, R221). -/
def arithRow (i : Instr) : Option ScalarRow :=
  match i with
  | .add x => some (x, 2, fun a b _ => narrow x (viewFmt x.fmt a + viewFmt x.fmt b))
  | .sub x => some (x, 2, fun a b _ => narrow x (viewFmt x.fmt a - viewFmt x.fmt b))
  | .mul x => some (x, 2, fun a b _ => narrow x (viewFmt x.fmt a * viewFmt x.fmt b))
  | .mulh x => some (x, 2, fun a b _ => narrow x (viewFmt x.fmt a * viewFmt x.fmt b / 2 ^ widthOf x.fmt))
  | .div x => some (x, 2, fun a b _ => if viewFmt x.fmt b = 0 then (narrowFmt x.fmt (-1), fDZ)
      else narrow x ((viewFmt x.fmt a).tdiv (viewFmt x.fmt b)))
  | .rem x => some (x, 2, fun a b _ => if viewFmt x.fmt b = 0 then (narrowFmt x.fmt (viewFmt x.fmt a), fDZ)
      else narrow x ((viewFmt x.fmt a).tmod (viewFmt x.fmt b)))
  | .madd x => some (x, 3, fun a b c => narrow x (viewFmt x.fmt a * viewFmt x.fmt b + viewFmt x.fmt c))
  | .msub x => some (x, 3, fun a b c => narrow x (viewFmt x.fmt c - viewFmt x.fmt a * viewFmt x.fmt b))
  | .addx x => some (x, 3, fun a b c => narrow x (viewFmt x.fmt a + viewFmt x.fmt b + (c.toNat % 2 : Nat)))
  | .addco x => some (x, 3, fun a b c =>
      narrow x (if 2 ^ widthOf x.fmt ≤ lowFmt x.fmt a + lowFmt x.fmt b + c.toNat % 2 then 1 else 0))
  | .subx x => some (x, 3, fun a b c => narrow x (viewFmt x.fmt a - viewFmt x.fmt b - (c.toNat % 2 : Nat)))
  | .subbo x => some (x, 3, fun a b c =>
      narrow x (if lowFmt x.fmt a < lowFmt x.fmt b + c.toNat % 2 then 1 else 0))
  | .abs x => some (x, 1, fun a _ _ => narrow x (viewFmt x.fmt a).natAbs)
  | .neg x => some (x, 1, fun a _ _ => narrow x (-(viewFmt x.fmt a)))
  | .absd x => some (x, 2, fun a b _ => narrow x ((viewFmt x.fmt a - viewFmt x.fmt b).natAbs : Int))
  | .avg x => some (x, 2, fun a b _ => narrow x ((viewFmt x.fmt a + viewFmt x.fmt b) / 2))
  | _ => none

/-- Logic, shifts and counts (R222, R223). -/
def logicRow (i : Instr) : Option ScalarRow :=
  match i with
  | .and x => some (x, 2, fun a b _ => (a &&& b, 0))
  | .or x => some (x, 2, fun a b _ => (a ||| b, 0))
  | .xor x => some (x, 2, fun a b _ => (a ^^^ b, 0))
  | .andn x => some (x, 2, fun a b _ => (a &&& ~~~b, 0))
  | .orn x => some (x, 2, fun a b _ => (a ||| ~~~b, 0))
  | .xnor x => some (x, 2, fun a b _ => (~~~(a ^^^ b), 0))
  | .mov x => some (x, 1, fun a _ _ => (a, 0))
  | .mux x => some (x, 3, fun a b c => ((a &&& c) ||| (b &&& ~~~c), 0))
  | .shl x => some (x, 2, fun a b _ => narrow x (shlVal x.fmt a b.toNat))
  | .shr x => some (x, 2, fun a b _ => narrow x (shrVal x.fmt a b.toNat))
  | .sar x => some (x, 2, fun a b _ => narrow x (sarVal x.fmt a b.toNat))
  | .rol x => some (x, 2, fun a b _ => narrow x (rolVal x.fmt a b.toNat))
  | .ror x => some (x, 2, fun a b _ => narrow x (rorVal x.fmt a b.toNat))
  | .popc x => some (x, 1, fun a _ _ => narrow x (popCount (widthOf x.fmt) (lowFmt x.fmt a)))
  | .clz x => some (x, 1, fun a _ _ => narrow x (clzVal x.fmt a))
  | .ctz x => some (x, 1, fun a _ _ => narrow x (ctzVal x.fmt a))
  | _ => none

/-- Minimum, maximum, select, compares, predicate logic and saturation (R224 to R226). -/
def compareRow (i : Instr) : Option ScalarRow :=
  match i with
  | .min x => some (x, 2, fun a b _ => narrow x (min (viewFmt x.fmt a) (viewFmt x.fmt b)))
  | .max x => some (x, 2, fun a b _ => narrow x (max (viewFmt x.fmt a) (viewFmt x.fmt b)))
  | .sel x => some (x, 3, fun a b c => (if c = 0 then b else a, 0))
  | .cmpeq x => some (x, 2, fun a b _ => truth (viewFmt x.fmt a == viewFmt x.fmt b))
  | .cmpne x => some (x, 2, fun a b _ => truth (viewFmt x.fmt a != viewFmt x.fmt b))
  | .cmplt x => some (x, 2, fun a b _ => truth (decide (viewFmt x.fmt a < viewFmt x.fmt b)))
  | .cmple x => some (x, 2, fun a b _ => truth (decide (viewFmt x.fmt a ≤ viewFmt x.fmt b)))
  | .tst x => some (x, 2, fun a b _ => truth (lowFmt x.fmt a &&& lowFmt x.fmt b != 0))
  | .pand x => some (x, 2, fun a b _ => truth (a != 0 && b != 0))
  | .por x => some (x, 2, fun a b _ => truth (a != 0 || b != 0))
  | .pxor x => some (x, 2, fun a b _ => truth ((a != 0) != (b != 0)))
  | .pandn x => some (x, 2, fun a b _ => truth (a != 0 && b == 0))
  | .sadd x => some (x, 2, fun a b _ => clampFmt x.fmt (viewFmt x.fmt a + viewFmt x.fmt b))
  | .ssub x => some (x, 2, fun a b _ => clampFmt x.fmt (viewFmt x.fmt a - viewFmt x.fmt b))
  | .smul x => some (x, 2, fun a b _ => clampFmt x.fmt (viewFmt x.fmt a * viewFmt x.fmt b))
  | .sshl x => some (x, 2, fun a b _ => clampFmt x.fmt (sshlVal x.fmt a b))
  | _ => none

/-- Immediate forms (R227, R228, R232): K is IMM by the signedness of the type. -/
def immediateRow (i : Instr) : Option ScalarRow :=
  match i with
  | .addi x => some (x, 1, fun a _ _ => narrow x (viewFmt x.fmt a + kFmt x))
  | .rsubi x => some (x, 1, fun a _ _ => narrow x (kFmt x - viewFmt x.fmt a))
  | .muli x => some (x, 1, fun a _ _ => narrow x (viewFmt x.fmt a * kFmt x))
  | .divi x => some (x, 1, fun a _ _ => if kFmt x = 0 then (narrowFmt x.fmt (-1), fDZ)
      else narrow x ((viewFmt x.fmt a).tdiv (kFmt x)))
  | .remi x => some (x, 1, fun a _ _ => if kFmt x = 0 then (narrowFmt x.fmt (viewFmt x.fmt a), fDZ)
      else narrow x ((viewFmt x.fmt a).tmod (kFmt x)))
  | .andi x => some (x, 1, fun a _ _ => (a &&& x.imm.signExtend 64, 0))
  | .ori x => some (x, 1, fun a _ _ => (a ||| x.imm.zeroExtend 64, 0))
  | .xori x => some (x, 1, fun a _ _ => (a ^^^ x.imm.zeroExtend 64, 0))
  | .shli x => some (x, 1, fun a _ _ => narrow x (shlVal x.fmt a (x.imm.toNat % 64)))
  | .shri x => some (x, 1, fun a _ _ => narrow x (shrVal x.fmt a (x.imm.toNat % 64)))
  | .sari x => some (x, 1, fun a _ _ => narrow x (sarVal x.fmt a (x.imm.toNat % 64)))
  | .roli x => some (x, 1, fun a _ _ => narrow x (rolVal x.fmt a (x.imm.toNat % 64)))
  | .rori x => some (x, 1, fun a _ _ => narrow x (rorVal x.fmt a (x.imm.toNat % 64)))
  | .mini x => some (x, 1, fun a _ _ => narrow x (min (viewFmt x.fmt a) (kFmt x)))
  | .maxi x => some (x, 1, fun a _ _ => narrow x (max (viewFmt x.fmt a) (kFmt x)))
  | .saddi x => some (x, 1, fun a _ _ => clampFmt x.fmt (viewFmt x.fmt a + kFmt x))
  | .cmpeqi x => some (x, 1, fun a _ _ => truth (viewFmt x.fmt a == kFmt x))
  | .cmpnei x => some (x, 1, fun a _ _ => truth (viewFmt x.fmt a != kFmt x))
  | .cmplti x => some (x, 1, fun a _ _ => truth (decide (viewFmt x.fmt a < kFmt x)))
  | .cmplei x => some (x, 1, fun a _ _ => truth (decide (viewFmt x.fmt a ≤ kFmt x)))
  | .cmpgti x => some (x, 1, fun a _ _ => truth (decide (kFmt x < viewFmt x.fmt a)))
  | .cmpgei x => some (x, 1, fun a _ _ => truth (decide (kFmt x ≤ viewFmt x.fmt a)))
  | .tsti x => some (x, 1, fun a _ _ => truth (lowFmt x.fmt a &&& x.imm.toNat % 2 ^ widthOf x.fmt != 0))
  | _ => none

/-- Constants, scaled addresses and bit fields (R229 to R231). -/
def fieldRow (i : Instr) : Option ScalarRow :=
  match i with
  | .lil x => some (x, 0, fun _ _ _ => (wordI (signedOf 32 (constOf x)), 0))
  | .lih x => some (x, 1, fun a _ _ => (word (constOf x * 2 ^ 32 + a.toNat % 2 ^ 32), 0))
  | .scadd x => some (x, 2, fun a b _ => (a + b * word (2 ^ x.mod.toNat) + x.imm.signExtend 64, 0))
  | .scaddu x => some (x, 2, fun a b _ =>
      (a + word (b.toNat % 2 ^ 32) * word (2 ^ x.mod.toNat) + x.imm.signExtend 64, 0))
  | .bfx x => some (x, 1, fun a _ _ => (word (fieldOf a (posOf x.imm.toNat) (lenOf x.imm.toNat)), 0))
  | .bfxs x => some (x, 1, fun a _ _ =>
      (wordI (signedOf (lenOf x.imm.toNat) (fieldOf a (posOf x.imm.toNat) (lenOf x.imm.toNat))), 0))
  | .bfi x => some (x, 2, fun a b _ => (insertField a b (posOf x.imm.toNat) (lenOf x.imm.toNat), 0))
  | .bfxr x => some (x, 2, fun a b _ => (word (fieldOf a (posOf b.toNat) (lenOf b.toNat)), 0))
  | .bfir x => some (x, 3, fun a b c => (insertField a c (posOf b.toNat) (lenOf b.toNat), 0))
  | _ => none

/-- The instructions of a table do what it says: they read their sources in order, write the result to DF and the latch, merge
the flags, and go on. -/
def Follows (row : Instr → Option ScalarRow) : Prop :=
  ∀ (i : Instr) (x : Ops) (n : Nat) (f : Word → Word → Word → Word × Nat) (s s0 s1 s2 t : State) (a b c : Word),
    row i = some (x, n, f) → Issues (.alu n) x s s0 → sources n x s0 = .ok ((a, b, c), s1) →
    writeOpd x.d (f a b c).1 s1 = .ok ((), s2) → Ends (.alu n) x s0 (s2.withFlags (f a b c).2) t →
    exec i s = .next (s0.done (.alu n) t)

/-! ## What an instruction does -/

/-- The instruction issues from `s0`, its effect leaves `s1`, and the machine goes on behind it; the chunk of an entry that
makes its effect on the tile as it runs commits at once, and so does that of an uncached access or a .QNT atomic. -/
def Does (e : Entry) (x : Ops) (i : Instr) (s s0 s1 : State) : Prop :=
  Issues e x s s0 → ∀ t, Ends e x s0 s1 t → exec i s = .next (s0.done e t)

/-- The instruction issues from `s0` and takes a precise trap there. -/
def Traps (e : Entry) (x : Ops) (i : Instr) (s s0 : State) (tr : TrapInfo) : Prop :=
  Issues e x s s0 → exec i s = .next (s0.preciseTrap tr)

/-- The instruction issues from `s0` and does not end: it is issued again later, after `f`. -/
def Waits (e : Entry) (x : Ops) (i : Instr) (s s0 : State) (f : State → State) : Prop :=
  Issues e x s s0 → exec i s = .next (f s0)

end Sys2Proof.Claims

open Sys2Proof Sys2Proof.Machine Sys2Proof.Claims

/-! # Scalar instructions -/

/-- R220, R221: the results and the DZ flag of ADD, SUB, MUL, MULH, DIV, REM, MADD, MSUB, ADDX, ADDCO, SUBX, SUBBO, ABS, NEG,
ABSD and AVG. -/
def Sys2Proof.Claims.IntegerArithmeticResults : Prop := Follows arithRow

/-- R222, R223: the results of AND, OR, XOR, ANDN, ORN, XNOR, MOV, MUX, SHL, SHR, SAR, ROL, ROR, POPC, CLZ and CTZ. -/
def Sys2Proof.Claims.LogicAndShiftResults : Prop := Follows logicRow

/-- R224 to R226: the results of MIN, MAX, SEL, the compares, TST, the predicate logic, and SADD, SSUB, SMUL, SSHL with SAT. -/
def Sys2Proof.Claims.CompareAndSaturateResults : Prop := Follows compareRow

/-- R227, R228, R232: the results of the immediate forms. -/
def Sys2Proof.Claims.ImmediateFormResults : Prop := Follows immediateRow

/-- R229 to R231: the results of LIL, LIH, SCADD, SCADDU and the bit-field entries. -/
def Sys2Proof.Claims.ConstantAndBitFieldResults : Prop := Follows fieldRow

/-- R220 to R226: the results and flags of the scalar arithmetic, logic, shift, count, minimum, maximum, select, compare, predicate
and saturating entries. -/
def Obligations.ScalarArithmeticAndLogicResults : Prop :=
  IntegerArithmeticResults ∧ LogicAndShiftResults ∧ CompareAndSaturateResults

/-- R227 to R232: the results and flags of the immediate forms, the constants, the scaled adds and the bit-field entries. -/
def Obligations.ImmediateAndFieldResults : Prop :=
  ImmediateFormResults ∧ ConstantAndBitFieldResults

/-! # The machine: steps, fetch, issue, traps -/

/-- The state in which core k of tile t acts. -/
def Sys2Proof.Claims.actAs (s : State) (t : Nat) (k : CoreK) : State := { s with curTile := t, curCore := k }

/-- R192, R434, R435: a core's turn runs the instruction that the word at its instruction pointer decodes to; a command
processor's turn, with no interrupt due, the custom instruction at its pc; an event's turn the event. Around it a step only lets
time pass and does what precedes a fetch (`beforeFetch`: events due, the commit of a closed chunk, a stop). Who moves next is the
model's choice (log entry 11). -/
def Obligations.StepRunsTheDecodedInstruction : Prop :=
  (∀ (s s1 s2 : State) (t dt : Nat) (k : CoreK) (i : Instr),
    s.nextTurn = (dt, some (.core t k), s1) → (s1.elapse dt).up = true →
    (s1.elapse dt).beforeFetch t k = .inr s2 → (actAs s2 t k).fetchTrap = none →
    decode (slotWord (ofBytes ((actAs s2 t k).me.line (actAs s2 t k).me.regs.ip)) (actAs s2 t k).me.regs.ip) = .ok i →
    step s = exec i (actAs s2 t k)) ∧
  (∀ (s s1 : State) (n dt : Nat) (i : Instr),
    s.nextTurn = (dt, some (.cp n), s1) → (s1.elapse dt).up = true → n < 8 → ((s1.elapse dt).cp n).interrupt = none →
    ((s1.elapse dt).cp n).pc.toNat % 2 = 0 → ((s1.elapse dt).cp n).pc.toNat + 4 ≤ cpScratch →
    decodeCp (BitVec.ofNat 32 ((s1.elapse dt).readNat 0 (cpKey n ((s1.elapse dt).cp n).pc.toNat) 4)) = some i →
    step s = exec i { s1.elapse dt with curCp := n }) ∧
  (∀ (s s1 : State) (dt : Nat) (i : Instr),
    s.nextTurn = (dt, some (.event i), s1) → (s1.elapse dt).admits i = true → step s = exec i (s1.elapse dt))

/-- No step of the model ends in a fault or a refusal: whatever the state, a step answers a next state. The event rows are total and
no meaning stops: that is the model's choice (log entry 48). -/
def Obligations.EveryStepAnswersANextState : Prop := ∀ s : State, ∃ t, step s = .next t

/-- R194 to R196: what fetch finds on the line of the next instruction, in its order, and that the core takes it precisely:
an instruction pointer past LM, the register save tail in user mode, a slab that the engines hold, a parity class that fails.
The order among them is the model's choice (log entry 16). -/
def Sys2Proof.Claims.FetchFaultsAreTakenPrecisely : Prop :=
  (∀ (s s1 s2 : State) (t dt : Nat) (k : CoreK) (i : TrapInfo),
    s.nextTurn = (dt, some (.core t k), s1) → (s1.elapse dt).up = true →
    (s1.elapse dt).beforeFetch t k = .inr s2 → (actAs s2 t k).fetch = .inl i →
    step s = .next ((actAs s2 t k).preciseTrap i)) ∧
  (∀ s : State, 2 ^ 19 ≤ s.me.regs.ip.toNat →
    s.fetch = .inl (mkTrap Code.badTarget 0x80000 0 15 s.curTile 3)) ∧
  (∀ s : State, s.me.regs.ip.toNat < 2 ^ 19 → s.me.regs.priv = false →
    (s.tile s.curTile).inTail (lineBase s.me.regs.ip) = true → s.fetch = .inl (s.ipTrap Code.protection 7)) ∧
  (∀ s : State, s.me.regs.ip.toNat < 2 ^ 19 →
    (s.me.regs.priv = true ∨ (s.tile s.curTile).tailMeets (lineBase s.me.regs.ip) 64 = false) →
    (s.tile s.curTile).slabEngine 0 (lineBase s.me.regs.ip / 4096) = true → s.fetch = .inl (s.ipTrap Code.slabOwner 3)) ∧
  (∀ (s : State) (c : Nat), s.me.regs.ip.toNat < 2 ^ 19 →
    (s.me.regs.priv = true ∨ (s.tile s.curTile).tailMeets (lineBase s.me.regs.ip) 64 = false) →
    (s.tile s.curTile).slabEngine 0 (lineBase s.me.regs.ip / 4096) = false → s.badLine (lineBase s.me.regs.ip) = none →
    parityFails (ofBytes (s.me.line s.me.regs.ip)) = some c → s.fetch = .inl (s.ipTrap Code.fetchParity c))

/-- R209: the faults of decode, in its order: a transfer in a delay slot; an unassigned OPC (cause 1); an unlisted FMT (cause
2); the checks on the core; then the lowest reserved bit, and a partial overlap. -/
def Sys2Proof.Claims.DecodeFaultsComeInOrder : Prop :=
  (∀ (s : State) (w : BitVec 96) (e : DecodeErr), s.fetchTrap = none →
    w = slotWord (ofBytes (s.me.line s.me.regs.ip)) s.me.regs.ip → decode w = .error e →
    s.fetch = .inl (s.decodeTrap (Raw.ofWord w) e)) ∧
  (∀ (s : State) (w : Raw) (e : DecodeErr), opcTransfer w.opc.toNat = true → s.me.regs.slot.isSome = true →
    s.decodeTrap w e = s.ipTrap Code.delayBranch 0) ∧
  (∀ (s : State) (w : Raw), s.me.regs.slot = none →
    s.decodeTrap w .illegalOpc = s.ipTrap Code.illegalOpc 1 ∧ s.decodeTrap w .badFmt = s.ipTrap Code.illegalOpc 2) ∧
  (∀ (s : State) (w : Raw) (r : Row) (b : Nat), s.me.regs.slot = none → findRow w.opc = some r →
    coreMatches r.cores s.curCore = true → (r.priv = true → s.me.regs.priv = true) → opcPf w.opc.toNat = false →
    opcGroup w.opc.toNat w.fmt.toNat = false →
    s.decodeTrap w (.reserved b) =
      mkTrap Code.reservedField (s.me.regs.ip ||| word (b * 2 ^ 56)) 0 15 s.curTile b ∧
    s.decodeTrap w .overlap = s.ipTrap Code.operandOverlap 0) ∧
  (∀ (w : BitVec 96), findRow (Raw.ofWord w).opc = none → decode w = .error .illegalOpc) ∧
  (∀ (w : BitVec 96) (r : Row), findRow (Raw.ofWord w).opc = some r →
    r.fmts.contains (Raw.ofWord w).fmt.toNat = false → decode w = .error .badFmt)

/-- R209 rows 1, 3, 4 and 5, R379: an instruction whose core, mode, job or place forbids it takes the fault of the first check
that fails, precisely, before any wait. -/
def Sys2Proof.Claims.ChecksOnTheCoreComeBeforeTheWait : Prop :=
  (∀ (i : Instr) (e : Entry) (x : Ops) (s : State) (tr : TrapInfo),
    entryOf i = some (e, x) → s.gate e = some tr → exec i s = .next (s.preciseTrap tr)) ∧
  (∀ (s : State) (e : Entry), e.transfer = true → s.me.regs.slot.isSome = true →
    s.gate e = some (s.ipTrap Code.delayBranch 0)) ∧
  (∀ (s : State) (e : Entry), (e.transfer = false ∨ s.me.regs.slot = none) → e.group = true → s.inGroup s.curTile = false →
    s.gate e = some (s.ipTrap Code.illegalOpc 2)) ∧
  (∀ (s : State) (e : Entry), (e.transfer = false ∨ s.me.regs.slot = none) → (e.group = true → s.inGroup s.curTile = true) →
    coreMatches e.cores s.curCore = false → s.gate e = some (s.ipTrap Code.wrongCore s.curCore.idx)) ∧
  (∀ (s : State) (e : Entry), (e.transfer = false ∨ s.me.regs.slot = none) → (e.group = true → s.inGroup s.curTile = true) →
    coreMatches e.cores s.curCore = true → e.priv = true → s.me.regs.priv = false →
    s.gate e = some (s.ipTrap Code.privilege 0)) ∧
  (∀ (s : State) (e : Entry), (e.transfer = false ∨ s.me.regs.slot = none) → (e.group = true → s.inGroup s.curTile = true) →
    coreMatches e.cores s.curCore = true → (e.priv = true → s.me.regs.priv = true) →
    ((e.pf = true → (s.jobOn s.curTile).any (·.pf) = true) → s.gate e = none) ∧
    (e.pf = true → (s.jobOn s.curTile).any (·.pf) = false → s.gate e = some (s.ipTrap Code.privilege 1)))

/-- R75, R76, R205: an instruction with a wait starts a chunk: in an empty chunk it stands in its wait until the semaphore unit
has granted it, with what else it needs noted, and then issues with the units it consumed noted; behind other instructions
their chunk ends first. An instruction that acts on the tile as it runs commits with its chunk, and what stands before it in the
chunk commits first (the model's choice, log entry 15). -/
def Sys2Proof.Claims.WaitingInstructionsStartAChunk : Prop :=
  (∀ (i : Instr) (e : Entry) (x : Ops) (s : State), entryOf i = some (e, x) → s.gate e = none →
    x.h.wthr ≠ 0 → s.me.regs.mid = none → s.me.atoms = [] → s.me.chunk = none → s.me.granted = false →
    ∃ ns, exec i s = .next (s.setMe { s.me with
      stalled := false, taking := [], waiting := some (x.h.wsem.toNat, x.h.wthr.toNat), forOwn := e.own, needs := ns })) ∧
  (∀ (e : Entry) (x : Ops) (s : State), x.h.wthr ≠ 0 → s.me.regs.mid = none → s.me.atoms = [] → s.me.chunk = none →
    s.me.granted = true →
    s.prepare e x = .inr (s.setMe { s.me with
      stalled := false, taking := [], granted := false, waiting := none, trial := false
      chunk := some (s.newChunk s.curTile s.me.regs (some (x.h.wsem.toNat, x.h.wthr.toNat)) 0) })) ∧
  (∀ (e : Entry) (x : Ops) (s : State), x.h.wthr = 0 → s.me.atoms = [] → s.me.chunk = none →
    s.prepare e x = .inr (s.setMe { s.me with
      stalled := false, taking := [], trial := false, chunk := some (s.newChunk s.curTile s.me.regs none 0) })) ∧
  (∀ (i : Instr) (e : Entry) (x : Ops) (s : State) (h : Chunk), entryOf i = some (e, x) → s.gate e = none →
    s.me.atoms = [] → s.me.chunk = some h → h.closed = false → 0 < h.len →
    (e.before = true ∨ (x.h.wthr ≠ 0 ∧ s.me.regs.mid = none)) →
    ∃ ns, exec i s = .next (s.setMe { s.me with
      stalled := false, taking := [], chunk := some { h with closed := true }, needs := ns })) ∧
  (∀ (e : Entry) (x : Ops) (w : Exec Unit) (s s0 s1 : State) (u : Unit × State), s.gate e = none →
    s.prepare e x = .inr s0 → e.own = true → s0.soloBlocked s0.curTile s0.curCore = false → w s0 = .ok u →
    w s0.ownStart = .ok ((), s1) →
    runWhole e x w s = .next (s1.commitChunk s0.ownStart.curTile s0.ownStart.curCore)) ∧
  (∀ (s : State) (h : Chunk), s.me.chunk = some h → 0 < h.len →
    s.ownStart.mem = (s.commitChunk s.curTile s.curCore).mem)

/-- R202: an instruction whose predicate is false changes nothing but what follows every instruction: the instruction pointer
and its chunk, with its signal; as a transfer it is not taken, and the slot after it is its delay slot. p0 reads 1. At the last
slot of LM a transfer takes BAD_TARGET on itself whatever its predicate (the model's choice, log entry 60). `done` is the commit
of a chunk that already asks for it. -/
def Obligations.FalsePredicateHasNoEffect : Prop :=
  (∀ (i : Instr) (e : Entry) (x : Ops) (s s0 : State), entryOf i = some (e, x) → s.gate e = none →
    s.prepare e x = .inr s0 → s0.me.regs.holds x.h = false → e.transfer = false → s0.me.regs.slot = none →
    (e.own = true → s0.soloBlocked s0.curTile s0.curCore = false ∧ s0.me.chunk.any (fun h => decide (0 < h.len)) = false) →
    let t := (s0.setMe { s0.me with regs := { s0.me.regs with mid := none, ip := ipNext s0.me.regs.ip } }).grow e x false
    Commits e s0 t → exec i s = .next (s0.done e t)) ∧
  (∀ (i : Instr) (e : Entry) (x : Ops) (s s0 : State), entryOf i = some (e, x) → s.gate e = none →
    s.prepare e x = .inr s0 → e.transfer = true → s0.me.regs.ip = 0x7FFC4 →
    exec i s = .next (s0.preciseTrap (mkTrap Code.badTarget 0x80000 0 15 s0.curTile 3))) ∧
  (∀ (i : Instr) (e : Entry) (x : Ops) (s s0 : State), entryOf i = some (e, x) → s.gate e = none →
    s.prepare e x = .inr s0 → s0.me.regs.holds x.h = false → e.transfer = true → s0.me.regs.slot = none →
    s0.me.regs.ip ≠ 0x7FFC4 →
    let t := (s0.setMe { s0.me with regs := { s0.me.regs with
      mid := none, ip := ipNext s0.me.regs.ip
      slot := some { target := ipNext (ipNext s0.me.regs.ip), act := .plain, notice := none } } }).grow e x false
    Commits e s0 t → exec i s = .next (s0.done e t)) ∧
  (∀ (r : Regs) (h : Hdr), (h.prd = 0 → r.holds h = true) ∧ (h.prd = 8 → r.holds h = false))

/-- R75, R195, R206, R210: what follows an instruction. In sequence the next slot is next; behind a transfer comes its delay
slot, then the target the transfer set, or the slot in sequence; a delay slot completes its transfer; and the chunk grows by
one instruction, takes the signal unless an engine gives it, and ends at a boundary. -/
def Obligations.WhatFollowsAnInstruction : Prop :=
  (∀ (e : Entry) (x : Ops) (ran : Bool) (s : State), e.transfer = false → s.me.regs.slot = none →
    finish e x ran s = .ok ((),
      (s.setMe { s.me with regs := { s.me.regs with mid := none, ip := ipNext s.me.regs.ip } }).grow e x ran)) ∧
  (∀ (e : Entry) (x : Ops) (ran : Bool) (s : State), e.transfer = true →
    finish e x ran s = .ok ((), (s.setMe { s.me with regs := { s.me.regs with
      mid := none, ip := ipNext s.me.regs.ip
      slot := some (s.me.regs.slot.getD
        { target := ipNext (ipNext s.me.regs.ip), act := .plain, notice := none }) } }).grow e x ran)) ∧
  (∀ (e : Entry) (x : Ops) (ran : Bool) (s : State) (g : Word), e.transfer = false →
    s.me.regs.slot = some { target := g, act := .plain, notice := none } →
    finish e x ran s = .ok ((),
      (s.setMe { s.me with regs := { s.me.regs with mid := none, ip := g, slot := none } }).grow e x ran)) ∧
  (∀ (e : Entry) (x : Ops) (ran : Bool) (s : State) (h : Chunk), s.me.chunk = some h →
    (s.grow e x ran).me.chunk = some { h with
      acts := if x.h.sinc ≠ 0 ∧ (e.engine && ran) = false then
          h.acts.filter (· ≠ .endTask) ++ [.signal x.h.ssem.toNat x.h.sinc.toNat] ++ h.acts.filter (· = .endTask)
        else h.acts
      len := h.len + 1
      wrote := if ran && s.me.atoms.any (fun a => a.dst.isSome || a.latch) then x.d :: h.wrote else h.wrote
      closed := h.closed || e.after || x.h.sinc != 0 ||
        decide ((if s.me.regs.maxlen = 0 then 512 else s.me.regs.maxlen.toNat) ≤ h.len + 1) } ∧
    (s.grow e x ran).me.regs = s.me.regs)

/-- R195: a well-formed instruction pointer, and sequential execution, which runs from slot k to slot k + 1, and from slot 4
to slot 0 of the next line: a well-formed pointer stays one until LM ends. -/
def Obligations.SequentialPointersStayWellFormed : Prop :=
  (∀ ip : Word, ipOk ip = true ↔ ∃ l k : Nat, l < 2 ^ 13 ∧ k ≤ 4 ∧ ip = word (l * 64 + k)) ∧
  (∀ l k : Nat, l < 2 ^ 13 → k < 4 → ipNext (word (l * 64 + k)) = word (l * 64 + k + 1)) ∧
  (∀ l : Nat, l < 2 ^ 13 → ipNext (word (l * 64 + 4)) = word ((l + 1) * 64)) ∧
  (∀ ip : Word, ipOk ip = true → ip ≠ 0x7FFC4 → ipOk (ipNext ip) = true)

/-- R84, R205, R209, R211: a precise trap. An earlier part of the chunk ends and commits first, the instruction then being
issued again; with none, the wait it consumed is added back and the trap is taken at the instruction's own pointer, with the
pending target of a delay slot in CTNPC and BD, once no solo token of another core holds back the commit of its frame (R83). -/
def Sys2Proof.Claims.PreciseTrapsNameTheirInstruction : Prop :=
  (∀ (s : State) (i : TrapInfo) (h : Chunk), s.me.chunk = some h → 0 < h.len →
    s.preciseTrap i = s.setMe { s.me with chunk := some { h with closed := true } }) ∧
  (∀ (s : State) (i : TrapInfo), s.me.chunk.all (fun h => h.len == 0) = true →
    s.soloBlocked s.curTile s.curCore = true → s.preciseTrap i = s) ∧
  (∀ (s : State) (i : TrapInfo), s.me.chunk.all (fun h => h.len == 0) = true → i.code.toNat < 0xF0 →
    s.soloBlocked s.curTile s.curCore = false → s.me.regs.slot = none →
    s.preciseTrap i = (((s.restoreWait s.curTile s.curCore).dropToken s.curTile s.curCore).enterTrap s.curTile s.curCore i
      (s.me.regs.ip.truncate 19) s.me.regs.ctnpc false none)) ∧
  (∀ (s : State) (i : TrapInfo) (sl : Slot), s.me.chunk.all (fun h => h.len == 0) = true → i.code.toNat < 0xF0 →
    s.soloBlocked s.curTile s.curCore = false → s.me.regs.slot = some sl →
    s.preciseTrap i = (((s.restoreWait s.curTile s.curCore).dropToken s.curTile s.curCore).enterTrap s.curTile s.curCore i
      (s.me.regs.ip.truncate 19) (sl.target.truncate 19) true (some sl)))

/-- R383, R384: in user mode with a handler, a trap saves the pointers, BD and its record, sets PRIV, goes to slot 0 of the
line HVEC, and writes the trap frame into the core's area of the tail, with the AUX word that its record gives; every other
register, and every byte outside the frame, keeps its value. A join of the core ends. -/
def Obligations.TrapEntrySavesAndVectors : Prop :=
  ∀ (s : State) (t : Nat) (k : CoreK) (i : TrapInfo) (pc npc : BitVec 19) (bd : Bool) (held : Option Slot),
    s.Form → (s.core t k).regs.priv = false → (s.core t k).regs.hen = true →
    let r := (s.core t k).regs
    let s' := s.takeTrap t k i pc npc bd held
    let base := (s.tile t).csavt.toNat * 4096 + areaOfs k
    (s'.core t k).regs = { r with
      ctpc := pc, ctnpc := npc, bd := bd, held := held, code := i.code, cfad := i.cfad, cfdw := i.cfdw, slot := none
      mid := none, priv := true, ip := word (r.hvec.toNat * 64) } ∧
    (s'.core t k).chunk = none ∧ (s'.core t k).join = none ∧ (s'.core t k).run = (s.core t k).run ∧
    s'.readBytes 0 (tileKey t 0 base) 160 = ([word pc.toNat, word npc.toNat,
        word (r.dbl.toNat * 2 ^ 62 + bd.toNat * 2 ^ 61 + i.code.toNat * 2 ^ 48 + 2 ^ 45 + r.hvec.toNat * 2 ^ 32),
        i.cfad, word i.cfdw.toNat, i.aux, r.prv, word (r.preds ||| 1).toNat] ++
        (List.range 8).map (fun n => smGet 0 r.o n) ++ [r.m 20, r.m 21, r.m 22, r.m 23]).flatMap
          (fun w => toBytes 8 w.toNat) ∧
    ∀ a, (a < tileKey t 0 base ∨ tileKey t 0 base + 160 ≤ a) → memByte s'.mem a = memByte s.mem a

/-- R386: a trap met in privileged mode, or with no handler, stops its core with the frame written, sets DBL when it was met
in privileged mode, and has the launch cancelled with its code, what is left of it settled; a notice with no handler is
dropped. -/
def Sys2Proof.Claims.UnhandledTrapsStopTheCore : Prop :=
  (∀ (s : State) (t : Nat) (k : CoreK) (i : TrapInfo) (pc npc : BitVec 19) (bd : Bool) (held : Option Slot),
    (s.core t k).regs.priv = false → (s.core t k).regs.hen = false → isNotice i.code = true →
    s.takeTrap t k i pc npc bd held = s) ∧
  (∀ (s : State) (t l : Nat) (k : CoreK) (i : TrapInfo) (pc npc : BitVec 19) (bd : Bool) (held : Option Slot),
    s.Form → ((s.core t k).regs.priv = true ∨ ((s.core t k).regs.hen = false ∧ isNotice i.code = false)) →
    s.launchOn t = some l →
    let r := { (s.core t k).regs with
      ctpc := pc, ctnpc := npc, bd := bd, held := held, code := i.code, cfad := i.cfad, cfdw := i.cfdw, slot := none
      mid := none }
    let s' := s.takeTrap t k i pc npc bd held
    let base := tileKey t 0 ((s.tile t).csavt.toNat * 4096 + areaOfs k)
    (s'.core t k).run = .halted ∧ (s'.core t k).regs = { r with dbl := r.priv } ∧
    s'.readBytes 0 base 160 = (r.frame i.aux).flatMap (fun w => toBytes 8 w.toNat) ∧
    ∀ a, (a < base ∨ base + 160 ≤ a) → memByte s'.mem a = memByte s.mem a) ∧
  (∀ (s : State) (t l : Nat) (k : CoreK) (i : TrapInfo) (pc npc : BitVec 19) (bd : Bool) (held : Option Slot) (x : Launch),
    ((s.core t k).regs.priv = true ∨ ((s.core t k).regs.hen = false ∧ isNotice i.code = false)) →
    s.launchOn t = some l → s.launch? l = some x → x.state ≤ 1 → x.cancelled = false →
    ((s.takeTrap t k i pc npc bd held).launch? l).any (fun y => y.cancelled && y.cause == i.code.toNat) = true) ∧
  (∀ (s : State) (t : Nat) (k : CoreK) (i : TrapInfo) (pc npc : BitVec 19) (bd : Bool) (held : Option Slot),
    let s' := s.takeTrap t k i pc npc bd held
    ((s'.core t k).run ≠ .halted ∨ s'.launchOn t = none → s.enterTrap t k i pc npc bd held = s') ∧
    ∀ l, (s'.core t k).run = .halted → s'.launchOn t = some l → s.enterTrap t k i pc npc bd held = s'.endCancelled l)

/-- R385: a TRAPRET whose delay slot ends restores prv, the predicates, the operand file and m20 to m23 from the frame, leaves
privileged mode, and goes on at CTPC: with BD as at a delay slot with CTNPC behind it. -/
def Obligations.TrapReturnRestores : Prop :=
  ∀ (s s2 : State) (g : Word) (bs : List Byte),
    let s1 := s.setMe { s.me with regs := { s.me.regs with ip := g, slot := none } }
    let key := s1.areaKey s.curTile s.curCore + 0x30
    checkTail key 112 s1 = .ok ((), s1) →
    readPlace { kind := 0, write := false, addr := localAddr s1.curTile key, space := 2 } (.mem key 0 false) 112 s1 =
      .ok (bs, s2) →
    ∃ s', completeSlot { target := g, act := .trapret, notice := none } s = .ok ((), s') ∧
      s' = s2.setMe { s2.me with regs := s'.me.regs } ∧
      s'.me.regs.priv = false ∧ s'.me.regs.ip = word s2.me.regs.ctpc.toNat ∧
      s'.me.regs.prv = (wordsOf bs).getD 0 0 ∧
      s'.me.regs.preds = BitVec.ofNat 8 ((wordsOf bs).getD 1 0).toNat ||| 1 ∧
      (∀ n, n < 8 → smGet 0 s'.me.regs.o n = (wordsOf bs).getD (2 + n) 0) ∧
      (∀ n, n < 4 → s'.me.regs.m (20 + n) = (wordsOf bs).getD (10 + n) 0) ∧
      (s2.me.regs.bd = false → s'.me.regs.slot = none) ∧
      (s2.me.regs.bd = true → s'.me.regs.slot.map (·.target) = some (word s2.me.regs.ctnpc.toNat))

/-- The registers of a core that no launch has set: the window of R235 at its bottom, the predicates with p0 one, everything else
zero. -/
def Sys2Proof.Claims.RegistersAtReset (r : Regs) : Prop :=
  ((∀ n, r.m n = 0 ∧ smGet 0 r.phys n = 0 ∧ smGet 0 r.o n = 0 ∧ smGet 0 r.g n = 0 ∧ (r.stream n).bound = false) ∧
    r.prv = 0 ∧ r.preds = 1 ∧ r.ip = 0 ∧ r.slot = none ∧ r.held = none ∧ r.mid = none) ∧
  ((∀ n, smGet 0 r.vregs n = 0 ∧ smGet 0 r.vprv n = 0 ∧ smGet 0 r.zregs n = 0) ∧ r.czst = 0 ∧ r.ceod = 0) ∧
  (r.cflag = 0 ∧ r.crnd = 0 ∧ r.csrn = 0 ∧ r.cexb = 0 ∧ r.cacc = 0 ∧ r.maxlen = 0 ∧ r.cycles = 0) ∧
  (r.park = false ∧ r.pblk = 0 ∧ r.depth = 0 ∧ r.sptr = 0x400 ∧ r.live = 0 ∧ r.base = 0 ∧ r.winTraps = false ∧
    r.sbase = 0x400 ∧ r.rcnt = 0 ∧ r.ras = []) ∧
  (r.priv = false ∧ r.dbl = false ∧ r.bd = false ∧ r.code = 0 ∧ r.hen = false ∧ r.hvec = 0 ∧ r.ctpc = 0 ∧ r.ctnpc = 0 ∧
    r.cfad = 0 ∧ r.cfdw = 0)

/-- R41, R391, R436: a cold start. No job is resident, every tile is free with CSAVT 122, every tag FREE, every semaphore zero and
every key slot EMPTY; every port and every queue is disabled, with FCTL, DWIN and the migration blocks at their reset values; no
core runs, and every register of every core holds the value the model gives it. Memory lists nothing, and time, the counts and
the registers that the rules give no reset value start at the values that the model chose (log entries 1, 2, 4, 8 and 9); the
rails are on and the power cap is 3,200 W (log entry 6). -/
def Obligations.ResetState : Prop :=
  State.reset.Form ∧ State.reset.mem = [] ∧ State.reset.poison = [] ∧ State.reset.cycle = 0 ∧ State.reset.gtc = 0 ∧
  State.reset.jobs = [] ∧ State.reset.launches = [] ∧ State.reset.runs = [] ∧
  (∀ t, (State.reset.tile t).watch = none ∧ (State.reset.tile t).draining = false ∧ (State.reset.tile t).csavt = 122 ∧
    (State.reset.tile t).semOvf = none ∧ (State.reset.tile t).mq = [] ∧ (State.reset.tile t).zq = [] ∧
    (∀ n, (smGet TagRec.init (State.reset.tile t).tags n).st = .free ∧ smGet 0 (State.reset.tile t).sems n = 0) ∧
    ∀ b n, (State.reset.tile t).slabEngine b n = false ∧ (State.reset.tile t).slabP b n = 0) ∧
  (∀ t k, RegistersAtReset (State.reset.core t k).regs ∧
    (State.reset.core t k).run = .off ∧ (State.reset.core t k).chunk = none ∧ (State.reset.core t k).waiting = none ∧
    (State.reset.core t k).join = none ∧ (State.reset.core t k).atoms = [] ∧ (State.reset.core t k).cctx = 0 ∧
    (State.reset.core t k).cpriv = 0 ∧ (State.reset.core t k).covf = 0 ∧ (State.reset.core t k).tmo = 0 ∧
    (State.reset.core t k).gsize = 0 ∧ (State.reset.core t k).gpos = 0 ∧ (State.reset.core t k).cphs = 0 ∧
    (State.reset.core t k).prq = false ∧ (State.reset.core t k).left = 0 ∧ (State.reset.core t k).forced = false ∧
    (State.reset.core t k).squash = 0 ∧ (State.reset.core t k).solo = 0) ∧
  (∀ p, (State.reset.port p).en = false ∧ (State.reset.port p).queue = [] ∧ (State.reset.port p).key = none) ∧
  (∀ q, (State.reset.queue q).en = false ∧ (State.reset.queue q).head = 0 ∧ (State.reset.queue q).tail = 0 ∧
    (State.reset.queue q).halt = false) ∧
  (∀ v, smGet Mig.init State.reset.mig v = { trk := false, stop := false, state := 0, dbase := 0, widx := 0 }) ∧
  State.reset.regRead 0 0 = some (word (200 * 2 ^ 16)) ∧
  (∀ n, smGet 0 State.reset.dwin n = 0 ∧ smGet 0 State.reset.errlog n = 0) ∧ State.reset.rsc.slots = [] ∧
  State.reset.side.rails = true ∧ State.reset.side.cap = 3200

/-- R194 to R196, R209: what fetching a slot can meet, and the faults of decode, in the order of R209.
That the tail comes before the slab's owner and the owner before the parity is the model's choice (log entry 16). -/
def Obligations.FetchAndDecodeFaultsComeInOrder : Prop :=
  FetchFaultsAreTakenPrecisely ∧ DecodeFaultsComeInOrder

/-- R75, R76, R205, R209, R379: the checks on the core come first; then a wait starts a chunk.
That an instruction which acts on the tile as it runs commits with its chunk, what stands before it in the chunk first, is the
model's choice (log entry 15). -/
def Obligations.ChecksComeBeforeWaitsAndWaitsStartChunks : Prop :=
  ChecksOnTheCoreComeBeforeTheWait ∧ WaitingInstructionsStartAChunk

/-- R84, R205, R209, R211, R386: where a precise trap is taken, and what a trap does that nothing handles. -/
def Obligations.TrapsArePreciseOrStopTheirCore : Prop :=
  PreciseTrapsNameTheirInstruction ∧ UnhandledTrapsStopTheCore

/-! # Operands, transfers, task control, streams -/

namespace Sys2Proof.Claims

/-- A transfer's target now stands behind its delay slot. -/
def goTo (s : State) (t : Word) (act : SlotAct) (notice : Option TrapInfo) : State :=
  s.withRegs (fun r => { r with slot := some { target := t, act := act, notice := notice } })

/-- A checked transfer may go to the target (R197): it is well-formed and its slot is set in TGT of its line. -/
def Reaches (t : Word) (s : State) : Prop := ipOk t = true ∧ s.me.tgtBit t = true

/-- BAD_TARGET on a target, with a cause (R197). -/
def badTarget (t : Word) (s : State) (cause : Nat) : TrapInfo := mkTrap Code.badTarget t 0 15 s.curTile cause

/-- The direct target of an entry (R233). -/
def direct (x : Ops) : Word := word (x.imm.toNat % 2 ^ 19)

/-- The branches (R234): their operands, and what they read and write before whether they are taken, and where to, is known. -/
def branchRow (i : Instr) : Option (Ops × Exec (Bool × Word)) :=
  match i with
  | .br x => some (x, pure (true, direct x))
  | .bnz x => some (x, do let a ← readA x; pure (a != 0, direct x))
  | .bz x => some (x, do let a ← readA x; pure (a == 0, direct x))
  | .beod x => some (x, do let r ← getRegs; pure (r.ceod.getLsbD (4 * streamNo x.a + x.mod.toNat % 4), direct x))
  | .bneod x => some (x, do let r ← getRegs; pure (!r.ceod.getLsbD (4 * streamNo x.a + x.mod.toNat % 4), direct x))
  | .dbnz x => some (x, do let a ← readA x; writeOpd x.d (a - 1); pure (a - 1 != 0, direct x))
  | .brr x => some (x, do let a ← readA x; pure (true, a))
  | .btab x => some (x, do let a ← readA x; pure (true, direct x + 64 * a))
  | _ => none

/-- The calls (R238): their operands and what they read before their target is known. -/
def callRow (i : Instr) : Option (Ops × Exec Word) :=
  match i with
  | .call x => some (x, pure (direct x))
  | .callr x => some (x, readA x)
  | _ => none

/-- The oldest return entry goes to the return area when the store is full, and the new one is pushed (R238). -/
def PushesEntry (ent : Word) (s s' : State) : Prop :=
  (s.me.regs.ras.length ≠ 16 ∧ s' = s.withRegs (fun r => { r with ras := r.ras ++ [ent] })) ∨
  (s.me.regs.ras.length = 16 ∧ ∃ s1,
    storeRange 5 (privAddr (8 * s.me.regs.rcnt)) (toBytes 8 (s.me.regs.ras.headD 0).toNat) s = .ok ((), s1) ∧
    s' = s1.withRegs (fun r => { r with rcnt := r.rcnt + 1, ras := r.ras.tail ++ [ent] }))

/-- The k oldest resident registers of callers go, oldest first, to the spill area, or with PARK to AS (R238, R60). -/
def SpillsOldest (k : Nat) (s s' : State) : Prop :=
  let r := s.me.regs
  (k = 0 ∧ s' = s) ∨
  (0 < k ∧ r.park = false ∧ ∃ s1,
    storeRange 5 (privAddr r.sptr.toNat)
      (bytesOfWords ((List.range k).map (fun i => smGet 0 r.phys ((r.base + 192 - r.live + i) % 192)))) s = .ok ((), s1) ∧
    s' = s1.withRegs (fun r => { r with sptr := r.sptr + BitVec.ofNat 32 (8 * k), live := r.live - k })) ∨
  (0 < k ∧ r.park = true ∧ spillWindow k s = .ok ((), s'))

/-- The notice of R240 that a transfer raises when it has moved k registers, or only a return entry; CFDW has place for bits 5:0
of its cause (R41; log entry 61). -/
def noticeOf (s : State) (k : Nat) (ret fill : Bool) : Option TrapInfo :=
  let r := s.me.regs
  if r.winTraps = false ∨ r.park = true then none
  else if 0 < k then some (mkTrap (if fill then Code.windowFill else Code.windowSpill) r.cfad 0 15 s.curTile (k % 64))
  else if ret then some (mkTrap (if fill then Code.returnFill else Code.returnSpill) r.cfad 0 15 s.curTile 1)
  else none

/-- The return entry that RET takes: the youngest of the store, or the last of the return area (R239). -/
def PopsEntry (ent : Word) (area : Bool) (s s' : State) : Prop :=
  (s.me.regs.ras.getLast? = some ent ∧ area = false ∧ s' = s.withRegs (fun r => { r with ras := r.ras.dropLast })) ∨
  (s.me.regs.ras = [] ∧ 0 < s.me.regs.rcnt ∧ area = true ∧ ∃ bs s1,
    loadRange 5 (privAddr (8 * (s.me.regs.rcnt - 1))) 8 s = .ok (bs, s1) ∧ ent = word (ofBytes bs) ∧
    s' = s1.withRegs (fun r => { r with rcnt := r.rcnt - 1 }))

end Sys2Proof.Claims

/-- R200, R216, R219: what an operand field reads as: the latch, the files, `zero`, IMM sign-extended, and a predicate as 0 or
1; p0 reads as 1. Reading it changes nothing. -/
def Sys2Proof.Claims.OperandsReadTheirRegisters : Prop :=
  ∀ (x : Ops) (s : State) (n : Nat),
    readOpd x .prv s = .ok (s.me.regs.prv, s) ∧ readOpd x (.o n) s = .ok (smGet 0 s.me.regs.o n, s) ∧
    readOpd x (.m n) s = .ok (smGet 0 s.me.regs.phys ((s.me.regs.base + n) % 192), s) ∧
    readOpd x (.g n) s = .ok (smGet 0 s.me.regs.g n, s) ∧ readOpd x .zero s = .ok (0, s) ∧
    readOpd x .imm s = .ok (x.imm.signExtend 64, s) ∧
    readOpd x (.p n) s = .ok ((if n = 0 ∨ s.me.regs.preds.getLsbD n = true then 1 else 0), s)

/-- R200, R201: a write to a scalar destination that is no stream also writes the latch; it reaches the one register it names
and no other, a write to `zero`, to p0 or to the latch reaches none; and nothing outside the registers changes. -/
def Sys2Proof.Claims.WritesReachTheirDestination : Prop :=
  ∀ (o : Opd) (v : Word) (s : State), o.exists_ = true → o.isScalar = true → (∀ n, o ≠ .s n) →
    ∃ t, writeOpd o v s = .ok ((), t) ∧ t.me.regs.prv = v ∧
      (∀ n, n < 24 → t.me.regs.m n = if o = .m n then v else s.me.regs.m n) ∧
      (∀ n, smGet 0 t.me.regs.o n = if o = .o n then v else smGet 0 s.me.regs.o n) ∧
      (∀ n, smGet 0 t.me.regs.g n = if o = .g n then v else smGet 0 s.me.regs.g n) ∧
      (∀ n, n < 8 → t.me.regs.pred n = if o = .p n ∧ n ≠ 0 then v != 0 else s.me.regs.pred n) ∧
      (∀ n, (∀ k, k < 24 → n ≠ s.me.regs.physOf k) → smGet 0 t.me.regs.phys n = smGet 0 s.me.regs.phys n) ∧
      { t.me.regs with phys := s.me.regs.phys, o := s.me.regs.o, g := s.me.regs.g, preds := s.me.regs.preds
                       prv := s.me.regs.prv } = s.me.regs ∧
      t = s.setMe { s.me with regs := t.me.regs }

/-- R247: a read of a bound read stream loads its element at BASE plus the strides of its indices, extends it by TYPE and
advances; an empty stream reads as 0 and loads nothing; an unbound stream or one of the other direction takes STREAM_UNBOUND
with nothing changed. -/
def Sys2Proof.Claims.StreamReadsLoadTheNextElement : Prop :=
  (∀ (x : Ops) (n : Nat) (s s1 : State) (bs : List Byte),
    (s.me.regs.stream n).bound = true → (s.me.regs.stream n).write = false → (s.me.regs.stream n).empty = false →
    loadAt 0 (widthOf (s.me.regs.stream n).ty / 8) false
      (addrAdd (s.me.regs.stream n).base (((s.me.regs.stream n).dims.take ((s.me.regs.stream n).ndim.toNat + 1)).foldl
        (fun a d => a + (d.i.toNat : Int) * d.d.toInt) 0))
      (widthOf (s.me.regs.stream n).ty / 8) s = .ok (bs, s1) →
    readOpd x (.s n) s = .ok (narrowFmt (s.me.regs.stream n).ty (ofBytes bs),
      s1.withRegs (fun r => (r.setStream n (r.stream n).advance.1).setCeod n (r.stream n).advance.2))) ∧
  (∀ (x : Ops) (n : Nat) (s : State),
    (s.me.regs.stream n).bound = true → (s.me.regs.stream n).write = false → (s.me.regs.stream n).empty = true →
    readOpd x (.s n) s = .ok (0, s.withRegs (fun r =>
      (r.setStream n (r.stream n)).setCeod n (2 ^ ((r.stream n).ndim.toNat + 1) - 1)))) ∧
  (∀ (x : Ops) (n : Nat) (s : State), (s.me.regs.stream n).bound = false →
    readOpd x (.s n) s = .error (.trap (s.ipTrap Code.streamUnbound 1))) ∧
  (∀ (x : Ops) (n : Nat) (s : State), (s.me.regs.stream n).bound = true → (s.me.regs.stream n).write = true →
    readOpd x (.s n) s = .error (.trap (s.ipTrap Code.streamUnbound 3)))

/-- R247, R201: a write to a bound write stream stores the low bits of the value at its element, advances, and writes the
latch; an empty stream stores nothing; an unbound stream or one of the other direction takes STREAM_UNBOUND. -/
def Sys2Proof.Claims.StreamWritesStoreTheNextElement : Prop :=
  (∀ (n : Nat) (v : Word) (s s1 : State),
    (s.me.regs.stream n).bound = true → (s.me.regs.stream n).write = true → (s.me.regs.stream n).empty = false →
    storeAt 1 (widthOf (s.me.regs.stream n).ty / 8) false (s.me.regs.stream n).ea
      (toBytes (widthOf (s.me.regs.stream n).ty / 8) v.toNat) s = .ok ((), s1) →
    writeOpd (.s n) v s = .ok ((), s1.withRegs (fun r =>
      { (r.setStream n (r.stream n).advance.1).setCeod n (r.stream n).advance.2 with prv := v }))) ∧
  (∀ (n : Nat) (v : Word) (s : State),
    (s.me.regs.stream n).bound = true → (s.me.regs.stream n).write = true → (s.me.regs.stream n).empty = true →
    writeOpd (.s n) v s = .ok ((), s.withRegs (fun r =>
      { (r.setStream n (r.stream n)).setCeod n (2 ^ ((r.stream n).ndim.toNat + 1) - 1) with prv := v }))) ∧
  (∀ (n : Nat) (v : Word) (s : State), (s.me.regs.stream n).bound = false →
    writeOpd (.s n) v s = .error (.trap (s.ipTrap Code.streamUnbound 1))) ∧
  (∀ (n : Nat) (v : Word) (s : State), (s.me.regs.stream n).bound = true → (s.me.regs.stream n).write = false →
    writeOpd (.s n) v s = .error (.trap (s.ipTrap Code.streamUnbound 3)))

/-- R247, R248: the indices of a stream count like a mixed-radix number whose digits the dimensions hold: an access adds one
to the position, which starts again behind the last element, and completes dimension k when the new position is a multiple of
N0 · … · Nk. -/
def Sys2Proof.Claims.StreamsWalkTheirPattern : Prop :=
  ∀ st : Stream, st.dims.length = 4 → st.empty = false →
    (∀ d ∈ st.dims.take (st.ndim.toNat + 1), 0 < d.n.toNat ∧ d.i.toNat < d.n.toNat) →
    (∀ d ∈ st.dims.drop (st.ndim.toNat + 1), d.n = 0 ∧ d.i = 0) →
    st.advance.1.pos = (st.pos + 1) % ((st.dims.take (st.ndim.toNat + 1)).map (fun d => d.n.toNat)).prod ∧
    (∀ k, k ≤ st.ndim.toNat →
      st.advance.2.testBit k = decide ((st.pos + 1) % ((st.dims.take (k + 1)).map (fun d => d.n.toNat)).prod = 0)) ∧
    st.advance.2 < 2 ^ (st.ndim.toNat + 1) ∧
    st.advance.1 = { st with dims := st.advance.1.dims } ∧
    st.advance.1.dims.map (fun d => (d.n, d.d)) = st.dims.map (fun d => (d.n, d.d))

/-- R248: skipping n elements moves the indices as n accesses would, and its CEOD bits are those of every step together. -/
def Sys2Proof.Claims.SkippingIsRepeatedAdvance : Prop :=
  ∀ (ds : List Dim) (n : Nat), (∀ d ∈ ds, 0 < d.n.toNat ∧ d.i.toNat < d.n.toNat) →
    skipDims 0 0 ds = (ds, 0) ∧
    (skipDims 0 (n + 1) ds).1 = (stepDims 0 (skipDims 0 n ds).1).1 ∧
    (skipDims 0 (n + 1) ds).2 = (skipDims 0 n ds).2 ||| (stepDims 0 (skipDims 0 n ds).1).2

/-- R233, R234, R197: BR, BNZ, BZ, BEOD, BNEOD, DBNZ, BRR and BTAB: taken, they go to their target behind the delay slot;
not taken, they only have their delay slot; a taken branch to a malformed target (cause 2), or to a slot that TGT does not
allow (cause 1), takes BAD_TARGET on itself. -/
def Obligations.BranchesGoToCheckedTargets : Prop :=
  ∀ (i : Instr) (x : Ops) (m : Exec (Bool × Word)) (s s0 s1 : State) (b : Bool) (t : Word),
    branchRow i = some (x, m) → m s0 = .ok ((b, t), s1) →
    (b = false → Does .jump x i s s0 s1) ∧
    (b = true → Reaches t s1 → Does .jump x i s s0 (goTo s1 t .plain none)) ∧
    (b = true → ipOk t = false → Traps .jump x i s s0 (badTarget t s1 2)) ∧
    (b = true → ipOk t = true → s1.me.tgtBit t = false → Traps .jump x i s s0 (badTarget t s1 1))

/-- R238, R240: CALL and CALLR: the return entry is pushed, the callers' registers that no longer fit are spilled, and the
window slides up by n behind the delay slot; without room they take OVERFLOW_EXHAUSTED, and a bad target BAD_TARGET, with
nothing changed. -/
def Sys2Proof.Claims.CallsPushAndSlide : Prop :=
  ∀ (i : Instr) (x : Ops) (m : Exec Word) (s s0 s1 s2 s3 : State) (t : Word),
    callRow i = some (x, m) → m s0 = .ok (t, s1) →
    let n := 4 * (x.fmt.toNat % 4 + 1)
    let r := s1.me.regs
    let k := r.live + n + 24 - 192
    let noReturn := r.ras.length = 16 ∧ Nat.min r.sbase.toNat s1.me.privEnd < 8 * (r.rcnt + 1)
    let noSpill := 0 < k ∧ r.park = false ∧ s1.me.privEnd < r.sptr.toNat + 8 * k
    (ipOk t = false → Traps .jump x i s s0 (badTarget t s1 2)) ∧
    (ipOk t = true → s1.me.tgtBit t = false → Traps .jump x i s s0 (badTarget t s1 1)) ∧
    (Reaches t s1 → noReturn → Traps .jump x i s s0 (s1.ipTrap Code.overflowExhausted 2)) ∧
    (Reaches t s1 → ¬ noReturn → noSpill → Traps .jump x i s s0 (s1.ipTrap Code.overflowExhausted 1)) ∧
    (Reaches t s1 → ¬ noReturn → ¬ noSpill →
      PushesEntry (word (x.fmt.toNat % 4 * 2 ^ 62 + (ipNext (ipNext r.ip)).toNat % 2 ^ 19)) s1 s2 → SpillsOldest k s2 s3 →
      Does .jump x i s s0 (goTo s3 t (.slideUp n) (noticeOf s3 k (r.ras.length == 16) false)))

/-- R239, R240: RET takes the youngest return entry, fills the callers' registers that are missing, and slides the window
down behind its delay slot; a malformed return IP takes BAD_TARGET; the outermost RET ends its task. -/
def Sys2Proof.Claims.ReturnsPopAndSlide : Prop :=
  (∀ (x : Ops) (s s0 s2 s3 : State) (ent : Word) (area : Bool), PopsEntry ent area s0 s2 →
    ipOk (word (ent.toNat % 2 ^ 19)) = true →
    fillWindow (4 * (Word.bits ent 62 2 + 1) - s2.me.regs.live) s2 = .ok ((), s3) →
    Does .jump x (.ret x) s s0 (goTo s3 (word (ent.toNat % 2 ^ 19)) (.slideDown (4 * (Word.bits ent 62 2 + 1)))
      (noticeOf s3 (4 * (Word.bits ent 62 2 + 1) - s2.me.regs.live) area true))) ∧
  (∀ (x : Ops) (s s0 s2 : State) (ent : Word) (area : Bool), PopsEntry ent area s0 s2 →
    ipOk (word (ent.toNat % 2 ^ 19)) = false →
    Traps .jump x (.ret x) s s0 (badTarget (word (ent.toNat % 2 ^ 19)) s2 2)) ∧
  (∀ (x : Ops) (s s0 : State), s0.me.regs.ras = [] → s0.me.regs.rcnt = 0 →
    Does .jump x (.ret x) s s0 (goTo s0 (ipNext (ipNext s0.me.regs.ip)) .endTask none)) ∧
  (∀ (s : State), fillWindow 0 s = .ok ((), s)) ∧
  (∀ (n : Nat) (s s1 : State) (bs : List Byte), (s.me.regs.park = false ∨ s.me.regs.depth = 0) →
    loadRange 5 (privAddr (s.me.regs.sptr.toNat - 8)) 8 s = .ok (bs, s1) →
    fillWindow (n + 1) s = fillWindow n (s1.withRegs (fun r => { r with
      phys := smPut r.phys ((s.me.regs.base + 192 - s.me.regs.live - 1) % 192) (word (ofBytes bs))
      live := r.live + 1, sptr := r.sptr - 8 })))

/-- R238, R239, R241: as the delay slot of a CALL ends, the window has moved up by n; of a RET, down; of an outermost RET, the
task ends as the chunk commits; and execution goes on at the target. -/
def Sys2Proof.Claims.DelaySlotsCompleteTransfers : Prop :=
  ∀ (s : State) (g : Word) (n : Nat),
    completeSlot { target := g, act := .slideUp n, notice := none } s = .ok ((), s.withRegs (fun r =>
      { r with ip := g, slot := none, base := (r.base + n) % 192, live := r.live + n })) ∧
    completeSlot { target := g, act := .slideDown n, notice := none } s = .ok ((), s.withRegs (fun r =>
      { r with ip := g, slot := none, base := (r.base + 192 - n) % 192, live := r.live - n })) ∧
    completeSlot { target := g, act := .endTask, notice := none } s = .ok ((),
      s.setMe { s.me with
        regs := { s.me.regs with ip := g, slot := none }
        chunk := s.me.chunk.map (fun h => { h with acts := h.acts ++ [.endTask], closed := true }) })

/-- R241 to R244, R258: NOP and PREF do nothing; END ends the task as its chunk commits, and a transfer it stands behind never
takes effect; YIELD stops the core there when a request is pending, and takes OVERFLOW_EXHAUSTED without room for the save of the
window as a transfer leaves it whose delay slot it fills;
TRAP raises its code there; TFENCE waits for the flag merges due, takes ARITH when an enabled flag is set, and drops the lines
fetched ahead. -/
def Obligations.TaskControlActsAtTheCommit : Prop :=
  ∀ (x : Ops) (s s0 : State),
    let slid := { s0.me with regs := s0.me.regs.slide ((s0.me.regs.slot.map (fun (sl : Slot) => sl.act)).getD .plain) }
    Does .base x (.nop x) s s0 s0 ∧ Does .base x (.pref x) s s0 s0 ∧
    Does .ends x (.endTask x) s s0 ((s0.withRegs (fun r => { r with slot := none })).withAct .endTask) ∧
    ((s0.me.yields = false ∨ slid.saveRoom = true) → Does .ends x (.yield x) s s0 (s0.withAct .yield)) ∧
    (s0.me.yields = true → slid.saveRoom = false →
      Traps .ends x (.yield x) s s0 (s0.ipTrap Code.overflowExhausted 3)) ∧
    Does .ends x (.trap x) s s0 (s0.withAct (.trap (s0.ipTrap (BitVec.ofNat 8 x.imm.toNat) 0))) ∧
    (s0.mergesDue s0.curTile s0.curCore = true → Waits .ends x (.tfence x) s s0 id) ∧
    (s0.mergesDue s0.curTile s0.curCore = false → s0.me.regs.arithTrap = true →
      ∃ cause, Traps .ends x (.tfence x) s s0 (s0.ipTrap Code.arith cause)) ∧
    (s0.mergesDue s0.curTile s0.curCore = false → s0.me.regs.arithTrap = false →
      Does .ends x (.tfence x) s s0 (s0.withAct .instrView))

/-- R248 to R250: SBIND and SBINDC bind a stream to the pattern they load, or take STREAM_UNBOUND (cause 2) on a bad one,
SBINDC waiting for its block's RDY, and squashed at once when a commit has met its chunk meanwhile, which a commit to the block's
own line does without counting towards solo mode (R181); SUNB unbinds, and
has no effect on a stream that is not bound; SREW and SSKIP move the indices; SPOS, SPEEK and SSTAT read them; an
unbound stream takes STREAM_UNBOUND (cause 1) in SREW, SSKIP and SPOS. -/
def Obligations.StreamInstructionsBindAndMove : Prop :=
  (∀ (x : Ops) (s s0 s1 s2 : State) (a : Word) (bs : List Byte), readA x s0 = .ok (a, s1) →
    loadAt 0 64 false a 64 s1 = .ok (bs, s2) →
    (patternBad (wordsOf bs) = false → Does .base x (.sbind x) s s0 (s2.withRegs (fun r =>
      (r.setStream (streamNo x.d) (streamOf x (wordsOf bs) none)).setCeod (streamNo x.d) 0))) ∧
    (patternBad (wordsOf bs) = true → Traps .base x (.sbind x) s s0 (s2.ipTrap Code.streamUnbound 2))) ∧
  (∀ (x : Ops) (s s0 s1 s2 s3 s4 : State) (a b : Word) (bk bs : List Byte) (ours : List Nat),
    readA x s0 = .ok (a, s1) → readB x s1 = .ok (b, s2) → linesRead (loadAt 0 64 false b 64) s2 = .ok ((bk, ours), s3) →
    let meets := s3.me.chunk.any (fun h => h.binds && h.met && !h.single)
    (meets = true → Waits .base x (.sbindc x) s s0 (fun u =>
      u.squash u.curTile u.curCore (!u.me.chunk.any (fun h => h.binds && h.hit.any (fun l => h.block.contains l))))) ∧
    (meets = false → (wd (wordsOf bk) 0).getLsbD 63 = false → Waits .base x (.sbindc x) s s0 (fun u => u.setMe { u.me with
      stalled := true
      chunk := ((s3.me.chunk.filter (fun h => !h.closed)).orElse (fun _ => u.me.chunk)).map (fun h =>
        { h with binds := true, block := ours }) })) ∧
    (meets = false → (wd (wordsOf bk) 0).getLsbD 63 = true →
      loadAt 0 64 false a 64 (s3.setMe { s3.me with chunk := s3.me.chunk.map (fun h => { h with binds := false }) }) =
        .ok (bs, s4) →
      patternBad (wordsOf bs) = false → Does .base x (.sbindc x) s s0 (s4.withRegs (fun r =>
        (r.setStream (streamNo x.d) (streamOf x (wordsOf bs) (some (wordsOf bk)))).setCeod (streamNo x.d) 0)))) ∧
  (∀ (x : Ops) (s s0 : State),
    ((s0.me.regs.stream (streamNo x.d)).bound = true → Does .base x (.sunb x) s s0 (s0.withRegs (fun r =>
      (r.setStream (streamNo x.d) { r.stream (streamNo x.d) with bound := false }).setCeod (streamNo x.d) 0))) ∧
    ((s0.me.regs.stream (streamNo x.d)).bound = false → Does .base x (.sunb x) s s0 s0)) ∧
  (∀ (x : Ops) (s s0 : State), (s0.me.regs.stream (streamNo x.d)).bound = true →
    Does .base x (.srew x) s s0 (s0.withRegs (fun r => (r.setStream (streamNo x.d)
      { r.stream (streamNo x.d) with dims := (r.stream (streamNo x.d)).dims.map (fun d => { d with i := 0 }) }).setCeod
        (streamNo x.d) 0))) ∧
  (∀ (x : Ops) (s s0 s1 : State) (a : Word), readA x s0 = .ok (a, s1) →
    (s1.me.regs.stream (streamNo x.d)).bound = true →
    ((s1.me.regs.stream (streamNo x.d)).empty = true →
      Does .base x (.sskip x) s s0 (s1.withRegs (fun r => r.setCeod (streamNo x.d) 0))) ∧
    ((s1.me.regs.stream (streamNo x.d)).empty = false →
      let st := s1.me.regs.stream (streamNo x.d)
      let moved := skipDims 0 a.toNat (st.dims.take (st.ndim.toNat + 1))
      Does .base x (.sskip x) s s0 (s1.withRegs (fun r => (r.setStream (streamNo x.d)
        { st with dims := moved.1 ++ st.dims.drop (st.ndim.toNat + 1) }).setCeod (streamNo x.d) moved.2)))) ∧
  (∀ (x : Ops) (s s0 s1 : State), (s0.me.regs.stream (streamNo x.a)).bound = true →
    writeOpd x.d (word (s0.me.regs.stream (streamNo x.a)).pos) s0 = .ok ((), s1) → Does .base x (.spos x) s s0 s1) ∧
  (∀ (x : Ops) (s s0 s1 s2 : State) (v : Word), streamPeek (streamNo x.a) s0 = .ok (v, s1) →
    writeOpd x.d v s1 = .ok ((), s2) → Does .base x (.speek x) s s0 s2) ∧
  (∀ (x : Ops) (s s0 s1 : State),
    let st := s0.me.regs.stream (streamNo x.a)
    writeOpd x.d (word (st.bound.toNat * 2 ^ 63 + st.write.toNat * 2 ^ 62 + st.ty.toNat * 2 ^ 59 +
      st.empty.toNat * 2 ^ 58 + st.ndim.toNat)) s0 = .ok ((), s1) → Does .base x (.sstat x) s s0 s1) ∧
  (∀ (x : Ops) (s s0 : State), (s0.me.regs.stream (streamNo x.d)).bound = false →
    Traps .base x (.srew x) s s0 (s0.ipTrap Code.streamUnbound 1)) ∧
  (∀ (x : Ops) (s s0 : State), (s0.me.regs.stream (streamNo x.a)).bound = false →
    Traps .base x (.spos x) s s0 (s0.ipTrap Code.streamUnbound 1)) ∧
  (∀ (x : Ops) (s s0 s1 : State) (a : Word), readA x s0 = .ok (a, s1) →
    (s1.me.regs.stream (streamNo x.d)).bound = false →
    Traps .base x (.sskip x) s s0 (s1.ipTrap Code.streamUnbound 1))

/-- R200, R201, R216, R219: reading an operand and writing a destination. -/
def Obligations.OperandsAreReadAndWritten : Prop :=
  OperandsReadTheirRegisters ∧ WritesReachTheirDestination

/-- R201, R247: reading and writing through a stream. -/
def Obligations.StreamAccessesLoadOrStoreTheNextElement : Prop :=
  StreamReadsLoadTheNextElement ∧ StreamWritesStoreTheNextElement

/-- R247, R248: one step of a stream, and skipping. -/
def Obligations.StreamsWalkAndSkip : Prop :=
  StreamsWalkTheirPattern ∧ SkippingIsRepeatedAdvance

/-- R238 to R241: CALL, CALLR and RET, and what their delay slot completes. -/
def Obligations.CallsAndReturnsSlideTheWindow : Prop :=
  CallsPushAndSlide ∧ ReturnsPopAndSlide ∧ DelaySlotsCompleteTransfers

/-! # Addresses, loads, stores, chunks, atomics -/

namespace Sys2Proof.Claims

/-- The effective address of R253. -/
def effective (x : Ops) (a b : Word) : Word := addrAdd a ((b.toNat * 2 ^ (x.mod.toNat % 8) : Nat) + x.imm.toInt)

/-- The loads of one value: entry, operands, what loads the value at an address, and whether the address is read before it is
updated (R255, R256). -/
def loadRow (i : Instr) : Option (Entry × Ops × (Word → Exec Word) × Bool) :=
  match i with
  | .ld x => some (.alu 3, x, loadInt x, false)
  | .ldf x => some (.alu 3, x, loadFloat x, false)
  | .ldi x => some (.base, x, loadInt x, true)
  | .ldfi x => some (.base, x, loadFloat x, true)
  | _ => none

/-- The stores of one value, likewise. -/
def storeRow (i : Instr) : Option (Ops × (Word → Word → Exec Unit) × Bool) :=
  match i with
  | .st x => some (x, storeInt x, false)
  | .stf x => some (x, storeFloat x, false)
  | .sti x => some (x, storeInt x, true)
  | .stfi x => some (x, storeFloat x, true)
  | _ => none

/-- The stores and loads of a pair, likewise. -/
def pairRow (i : Instr) : Option (Ops × Bool × Bool) :=
  match i with
  | .ldp x => some (x, true, false)
  | .ldpi x => some (x, true, true)
  | .stp x => some (x, false, false)
  | .stpi x => some (x, false, true)
  | _ => none

/-- The effective address goes back to the register of AF in the post-increment forms (R256). -/
def updated (post : Bool) (x : Ops) (ea : Word) (s : State) : State :=
  if post then s.withRegs (fun r => r.put x.a ea) else s

/-- The address that a form accesses. -/
def accessed (post : Bool) (x : Ops) (a b : Word) : Word := if post then a else effective x a b

/-- A byte as the acting core's chunk reads it: its own store, or else memory's byte at the chunk's point in the commit order. -/
def chunkByte (s : State) (kn key : Nat) : Byte :=
  match s.me.chunk.bind (fun h => smFind h.stores key) with
  | some b => b
  | none => (s.me.chunk.bind (fun h => smFind h.veil key)).getD (s.readByte kn key)

end Sys2Proof.Claims

/-- R10: the space that the top byte of an address names. -/
def Sys2Proof.Claims.TopByteNamesTheSpace : Prop :=
  ∀ a : Word,
    ((a >>> 56).toNat = 0 → spaceCode a = 0) ∧ ((a >>> 56).toNat = 0xF0 → spaceCode a = 1) ∧
    ((a >>> 56).toNat = 0xF1 → spaceCode a = 2) ∧ ((a >>> 56).toNat = 0xF2 → spaceCode a = 3) ∧
    (0xF8 ≤ (a >>> 56).toNat → (a >>> 56).toNat ≤ 0xFE → spaceCode a = if a.getLsbD 55 then 5 else 4) ∧
    ((1 ≤ (a >>> 56).toNat ∧ (a >>> 56).toNat < 0xF0) ∨ (0xF3 ≤ (a >>> 56).toNat ∧ (a >>> 56).toNat < 0xF8) ∨
      (a >>> 56).toNat = 0xFF → spaceCode a = 15)

/-- R16, R40 rows 1 to 4: where an address leads: global memory; a private offset to its carve-out in LM or its overflow area;
the tile's own LM; LM of the row; and the faults of must-be-zero bits, of a private offset past its end, of the register save
tail in user mode, of another tile's local address, and of a space that does not exist. -/
def Sys2Proof.Claims.AddressesLeadToTheirSpace : Prop :=
  (∀ (s : State) (a : Word), spaceCode a = 0 → s.spotOf false a = .ok (.glob (a.toNat % 2 ^ 56))) ∧
  (∀ (s : State) (a : Word), spaceCode a = 1 → Word.bits a 32 24 ≠ 0 → s.spotOf false a = .error (Code.protection, 5)) ∧
  (∀ (s : State) (a : Word), spaceCode a = 1 → Word.bits a 32 24 = 0 →
    let carve := Word.bits s.me.cpriv 0 8 * 4096
    let o := a.toNat % 2 ^ 32
    (o < carve → s.spotOf false a = .ok (.tile s.curTile 0 (Word.bits s.me.cpriv 8 8 * 4096 + o))) ∧
    (carve ≤ o → o < carve + Word.bits s.me.covf 0 16 * 65536 →
      s.spotOf false a = .ok (.glob (Word.bits s.me.covf 16 40 * 65536 + (o - carve)))) ∧
    (carve + Word.bits s.me.covf 0 16 * 65536 ≤ o → s.spotOf false a = .error (Code.protection, 6))) ∧
  (∀ (s : State) (a : Word), spaceCode a = 2 → Word.bits a 40 16 = 0 → Word.bits a 19 11 = 0 →
    ((s.me.regs.priv = false ∧ (s.tile s.curTile).inTail (a.toNat % 2 ^ 19) = true) →
      s.spotOf false a = .error (Code.protection, 7)) ∧
    ((s.me.regs.priv = true ∨ (s.tile s.curTile).inTail (a.toNat % 2 ^ 19) = false) →
      s.spotOf false a = if Word.bits a 30 10 = s.curTile then .ok (.tile s.curTile 0 (a.toNat % 2 ^ 19))
        else .error (Code.foreignLocal, 1))) ∧
  (∀ (s : State) (a : Word), spaceCode a = 2 → (Word.bits a 40 16 ≠ 0 ∨ Word.bits a 19 11 ≠ 0) →
    s.spotOf false a = .error (Code.protection, 5)) ∧
  (∀ (s : State) (a : Word), spaceCode a = 3 → Word.bits a 24 32 = 0 → a.getLsbD 19 = false →
    let t := s.curTile / 16 * 16 + Word.bits a 20 4
    s.spotOf false a = if s.me.regs.priv = false ∧ (s.tile t).inTail (a.toNat % 2 ^ 19) = true
      then .error (Code.protection, 7) else .ok (.tile t 0 (a.toNat % 2 ^ 19))) ∧
  (∀ (s : State) (a : Word), spaceCode a = 15 → s.spotOf false a = .error (Code.spaceClosed, 1)) ∧
  (∀ (s : State) (c : Acc) (al : Nat) (t b o : Nat), s.spotOf false c.addr = .ok (.tile t b o) →
    (c.addr.toNat % al = 0 → locate c al false s = .ok (.tile t b o, s)) ∧
    (c.addr.toNat % al ≠ 0 → ∃ cause, locate c al false s = .error (.trap (s.accTrap c Code.misaligned cause))))

/-- R33, R34, R37: the walk of a four-level table: an entry that is not valid takes PAGE_FAULT with its level's cause; a valid leaf
at a level ends the walk, with its page size; a table entry leads to the next level. An entry that the walker keeps stands for
the one in memory, and the walk tells which table entries it has gone through. -/
def Obligations.WalksFollowTheTable : Prop :=
  ∀ (s : State) (ctx : Byte) (old : List Tlb) (l table va : Nat), l < 4 → table < 2 ^ 40 →
    let lo := [43, 30, 21, 16].getD l 0
    let n := [13, 13, 9, 5].getD l 0
    table % (8 * 2 ^ n) = 0 →
    let at_ := table + 8 * (va / 2 ^ lo % 2 ^ n)
    let e := ((old.find? (fun u => u.serves ctx va && u.log == lo)).map (·.leaf)).getD (word (s.readNat 0 at_ 8))
    let w := s.walkFrom ctx old (4 - l) l table va
    s.poison = [] →
    (e.getLsbD 63 = false → w = (.fault (1 + l), [])) ∧
    (e.getLsbD 63 = true → e.getLsbD 62 = false → l < 3 →
      let next := s.walkFrom ctx old (4 - (l + 1)) (l + 1) (Word.bits e 0 36 * 256) va
      w = (next.1, { ctx := ctx, page := va / 2 ^ lo, log := lo, leaf := e } :: next.2)) ∧
    (e.getLsbD 63 = true → e.getLsbD 62 = true → leafTgt e ≠ 3 → 0 < l → leafFrame e % 2 ^ (lo - 16) = 0 →
      w = (.leaf e at_ lo, [])) ∧
    (e.getLsbD 63 = true → e.getLsbD 62 = false → l = 3 → w = (.fault 9, []))

/-- R78, R81: a load of a chunk reads the chunk's own stores first, then committed memory, and enters the lines it touches into
the read set, and a load of HBM makes the package arbiter decide the chunk (R80); it changes neither memory nor registers. -/
def Sys2Proof.Claims.LoadsSeeTheirChunksStores : Prop :=
  ∀ (c : Acc) (key kn n : Nat) (s : State), s.me.atomOverlap key n = false →
    s.poison = [] →
    ∃ t, readPlace c (.mem key kn false) n s = .ok ((List.range n).map (fun j => chunkByte s kn (key + j)), t) ∧
      t = s.setMe { s.me with chunk := s.me.chunk.map (fun h => { h with
        rset := (linesOf key n).foldl setAdd h.rset, pkg := h.pkg || isHbm key }) }

/-- R75, R78: a store of a chunk is buffered in it: committed memory keeps its bytes, and the chunk's later loads of the stored
bytes read them. -/
def Sys2Proof.Claims.StoresWaitForTheCommit : Prop :=
  ∀ (key kn : Nat) (bs : List Byte) (s : State) (h : Chunk), s.me.atomOverlap key bs.length = false →
    s.me.chunk = some h → (h.len = 0 ∨ h.bytes + bs.length ≤ 8192) →
    ∃ t, writePlace (.mem key kn false) bs s = .ok ((), t) ∧ t.mem = s.mem ∧ t.me.regs = s.me.regs ∧
      (∀ j, j < bs.length → chunkByte t kn (key + j) = bs.getD j 0) ∧
      (∀ a, (a < key ∨ key + bs.length ≤ a) → chunkByte t kn a = chunkByte s kn a)

/-- R74, R79: a chunk commits as a whole: every byte it stored becomes memory's, every other byte keeps its value, and the core
has no chunk in flight; a chunk that a commit has met returns to its checkpoint instead, with memory unchanged, one more squash
counted unless what met it is the block a bind waits for (R181). -/
def Sys2Proof.Claims.ChunksCommitOrReturn : Prop :=
  (∀ (s : State) (t : Nat) (k : CoreK) (h : Chunk), s.Form → (s.core t k).chunk = some h → h.acts = [] → h.late = [] → h.vf = none →
    h.stores.Pairwise (fun p q => p.1 < q.1) →
    ((s.commitChunk t k).core t k).chunk = none ∧
    ∀ a, memByte (s.commitChunk t k).mem a = (smFind h.stores a).getD (memByte s.mem a)) ∧
  (∀ (s : State) (t : Nat) (k : CoreK) (h : Chunk), (s.core t k).chunk = some h → h.met = true →
    h.single = false →
    (s.tryCommit t k).mem = s.mem ∧ ((s.tryCommit t k).core t k).regs = h.ck ∧
    ((s.tryCommit t k).core t k).chunk.map (fun g => (g.len, g.stores, g.acts, g.hit, g.squashes)) =
      some (0, [], [], [], h.squashes + (!(h.binds && h.hit.any (fun l => h.block.contains l))).toNat)) ∧
  (∀ (s : State) (t : Nat) (vf : Option Nat) (kn key : Nat) (bs : List Byte) (u : Nat) (k : CoreK) (h : Chunk),
    bs ≠ [] → (s.core u k).chunk = some h → (linesOf key bs.length).any (fun l => h.rset.contains l) = true →
    ((s.commitBytes t vf kn key bs).core u k).chunk.any (·.met) = true)

/-- R255 to R257: LD, LDF, LDI and LDFI load at their address (the post-increment forms at AF, to which the effective address
goes back), and write DF and the latch; ST, STF, STI and STFI store the value of CF; the pairs move two registers and 16
bytes. -/
def Sys2Proof.Claims.LoadsAndStoresUseTheirAddress : Prop :=
  (∀ (i : Instr) (e : Entry) (x : Ops) (f : Word → Exec Word) (post : Bool) (s s0 s1 s2 s3 s4 : State) (a b v : Word),
    loadRow i = some (e, x, f, post) → readA x s0 = .ok (a, s1) → readB x s1 = .ok (b, s2) →
    f (accessed post x a b) s2 = .ok (v, s3) → writeOpd x.d v s3 = .ok ((), s4) →
    Does e x i s s0 (updated post x (effective x a b) s4)) ∧
  (∀ (i : Instr) (x : Ops) (f : Word → Word → Exec Unit) (post : Bool) (s s0 s1 s2 s3 s4 : State) (a b c : Word),
    storeRow i = some (x, f, post) → readA x s0 = .ok (a, s1) → readB x s1 = .ok (b, s2) → readC x s2 = .ok (c, s3) →
    f (accessed post x a b) c s3 = .ok ((), s4) → Does .base x i s s0 (updated post x (effective x a b) s4)) ∧
  (∀ (i : Instr) (x : Ops) (post : Bool) (s s0 s1 s2 s3 s4 : State) (a b : Word) (bs : List Byte),
    pairRow i = some (x, true, post) → readA x s0 = .ok (a, s1) → readB x s1 = .ok (b, s2) →
    loadAt 0 16 false (accessed post x a b) 16 s2 = .ok (bs, s3) →
    writeOpd x.d (wd (wordsOf bs) 0) (s3.withRegs (fun r => r.put (pairNext x.d) (wd (wordsOf bs) 1))) = .ok ((), s4) →
    Does .base x i s s0 (updated post x (effective x a b) s4)) ∧
  (∀ (i : Instr) (x : Ops) (post : Bool) (s s0 s1 s2 s3 s4 s5 : State) (a b lo hi : Word),
    pairRow i = some (x, false, post) → readA x s0 = .ok (a, s1) → readB x s1 = .ok (b, s2) →
    readC x s2 = .ok (lo, s3) → readOpd x (pairNext x.c) s3 = .ok (hi, s4) →
    storeAt 1 16 false (accessed post x a b) (toBytes 8 lo.toNat ++ toBytes 8 hi.toNat) s4 = .ok ((), s5) →
    Does .base x i s s0 (updated post x (effective x a b) s5))

/-- R255, R257: the value that a load gives: the bytes there extended by the type (LD) or as they are (LDF), or through a
window the element converted, whatever its alignment, with its flags and under SR one draw (R129); and what a store writes: the low bytes of CF, or through a window
its value encoded. -/
def Sys2Proof.Claims.LoadAndStoreValues : Prop :=
  (∀ (x : Ops) (a : Word) (p : Spot) (s s1 s2 : State) (bs : List Byte), (∀ w, p ≠ .win w) →
    locate (accOf 0 false a) (elemAlign a (widthOf x.fmt / 8)) false s = .ok (p, s1) →
    readSpot (accOf 0 false a) p (widthOf x.fmt / 8) s1 = .ok (bs, s2) →
    loadInt x a s = .ok (narrowFmt x.fmt (ofBytes bs), s2)) ∧
  (∀ (x : Ops) (a : Word) (p : Spot) (s s1 s2 : State) (bs : List Byte), (∀ w, p ≠ .win w) →
    locate (accOf 0 false a) (elemAlign a (ldfFmt x.fmt).2) false s = .ok (p, s1) →
    readSpot (accOf 0 false a) p (ldfFmt x.fmt).2 s1 = .ok (bs, s2) → loadFloat x a s = .ok (word (ofBytes bs), s2)) ∧
  (∀ (x : Ops) (a w : Word) (v : FV) (near : Bool) (s s1 s2 : State),
    locate (accOf 0 false a) (elemAlign a (widthOf x.fmt / 8)) false s = .ok (.win w, s1) →
    winRead (accOf 0 false a) w s1 = .ok ((v, near), s2) →
    let r := toIntFmt (if near then rne else s2.me.regs.rnd 0) (x.mod.getLsbD 3) false (fmtSigned x.fmt) (widthOf x.fmt) v
    loadInt x a s = .ok (narrowFmt x.fmt r.1, (s2.withRegs (fun g => g.drawn 1)).withFlags r.2)) ∧
  (∀ (x : Ops) (a w : Word) (v : FV) (near : Bool) (s s1 s2 : State),
    locate (accOf 0 false a) (elemAlign a (ldfFmt x.fmt).2) false s = .ok (.win w, s1) →
    winRead (accOf 0 false a) w s1 = .ok ((v, near), s2) →
    let r := convertTo (ldfFmt x.fmt).1 (if near then rne else s2.me.regs.rnd 0) (x.mod.getLsbD 3) false [] v
    loadFloat x a s = .ok (word r.1, (s2.withRegs (fun g => g.drawn 1)).withFlags r.2)) ∧
  (∀ (r : Regs) (n : Nat), (r.drawn n).csrn = (if Word.bits r.crnd 0 3 = 5 then r.csrn + word n else r.csrn) ∧
    { r.drawn n with csrn := r.csrn } = r) ∧
  (∀ (x : Ops) (a v : Word) (p : Spot) (s s1 s2 : State), (∀ w, p ≠ .win w) →
    locate (accOf 1 true a) (elemAlign a (widthOf x.fmt / 8)) false s = .ok (p, s1) →
    writeSpot (accOf 1 true a) p (toBytes (widthOf x.fmt / 8) v.toNat) s1 = .ok ((), s2) → storeInt x a v s = .ok ((), s2)) ∧
  (∀ (x : Ops) (a v : Word) (p : Spot) (s s1 s2 : State), (∀ w, p ≠ .win w) →
    locate (accOf 1 true a) (elemAlign a (ldfFmt x.fmt).2) false s = .ok (p, s1) →
    writeSpot (accOf 1 true a) p (toBytes (ldfFmt x.fmt).2 v.toNat) s1 = .ok ((), s2) → storeFloat x a v s = .ok ((), s2))

/-- R255, R259, R260, R262, R263: ZLINE stores 64 zero bytes; LDO and STO move the operand file; a piece of BMOV and of BFILL
moves or fills up to the next 64-byte line, steps its registers, the forward move and the fill writing the new destination
pointer to the latch and the backward move writing no latch (the model's choice, log entry 30), and, when nothing is left, ends
the instruction; SPTEST writes
its word; SPCAST writes an address of its own space unchanged and a castable one cast. -/
def Obligations.BlockAndSpaceInstructions : Prop :=
  (∀ (x : Ops) (s s0 s1 s2 s3 : State) (a b : Word), readA x s0 = .ok (a, s1) → readB x s1 = .ok (b, s2) →
    storeAt 1 64 false (effective x a b) (List.replicate 64 0) s2 = .ok ((), s3) → Does .base x (.zline x) s s0 s3) ∧
  (∀ (x : Ops) (s s0 s1 s2 s3 : State) (a b : Word) (bs : List Byte), readA x s0 = .ok (a, s1) → readB x s1 = .ok (b, s2) →
    loadAt 0 64 false (effective x a b) 64 s2 = .ok (bs, s3) →
    Does .base x (.ldo x) s s0 (s3.withRegs (fun r => { r with
      o := smPutList r.o 0 ((List.range 8).map (fun n => (wordsOf bs).getD n 0)) }))) ∧
  (∀ (x : Ops) (s s0 s1 s2 s3 : State) (a b : Word), readA x s0 = .ok (a, s1) → readB x s1 = .ok (b, s2) →
    storeAt 1 64 false (effective x a b) (((List.range 8).map (fun n => smGet 0 s2.me.regs.o n)).flatMap
      (fun w => toBytes 8 w.toNat)) s2 = .ok ((), s3) → Does .base x (.sto x) s s0 s3) ∧
  (∀ (i : Instr) (x : Ops) (s s0 s1 t : State), Issues .base x s s0 →
    ((i = .bmov x ∧ (if x.mod.getLsbD 0 then moveBackward x else moveForward x) s0 = .ok (false, s1)) ∨
      (i = .bfill x ∧ fillPiece x s0 = .ok (false, s1))) → Ends .base x s0 s1 t → exec i s = .next (s0.done .base t)) ∧
  (∀ (i : Instr) (x : Ops) (s s0 s1 t : State), Issues .base x s s0 →
    ((i = .bmov x ∧ (if x.mod.getLsbD 0 then moveBackward x else moveForward x) s0 = .ok (true, s1)) ∨
      (i = .bfill x ∧ fillPiece x s0 = .ok (true, s1))) → stay x s1 = .ok ((), t) → Commits .base s0 t →
    exec i s = .next (s0.done .base t)) ∧
  (∀ (x : Ops) (s0 s1 s2 : State) (d a n : Nat) (bs : List Byte), x.d = .m d → x.a = .m a → x.b = .m n →
    let dst := s0.me.regs.m d
    let src := s0.me.regs.m a
    let left := (s0.me.regs.m n).toNat
    let len := min left (64 - dst.toNat % 64)
    (left = 0 → moveForward x s0 = .ok (false, s0)) ∧
    (0 < left → loadRange 6 src len s0 = .ok (bs, s1) → storeRange 6 dst bs s1 = .ok ((), s2) →
      moveForward x s0 = .ok (decide (len < left), s2.withRegs (fun r =>
        { ((r.setM d (addrAdd dst len)).setM a (addrAdd src len)).setM n (s0.me.regs.m n - word len) with
          prv := addrAdd dst len })))) ∧
  (∀ (x : Ops) (s0 s1 s2 : State) (d a n : Nat) (bs : List Byte), x.d = .m d → x.a = .m a → x.b = .m n →
    let dst := s0.me.regs.m d
    let src := s0.me.regs.m a
    let left := (s0.me.regs.m n).toNat
    let over64 := (dst.toNat % 2 ^ 56 + left) % 64
    let len := min left (if over64 = 0 then 64 else over64)
    (left = 0 → moveBackward x s0 = .ok (false, s0)) ∧
    (0 < left → loadRange 6 (addrAdd src (left - len : Nat)) len s0 = .ok (bs, s1) →
      storeRange 6 (addrAdd dst (left - len : Nat)) bs s1 = .ok ((), s2) →
      moveBackward x s0 = .ok (decide (len < left), s2.withRegs (fun r => r.setM n (s0.me.regs.m n - word len))))) ∧
  (∀ (x : Ops) (s0 s1 : State) (d a n : Nat), x.d = .m d → x.a = .m a → x.b = .m n →
    let dst := s0.me.regs.m d
    let left := (s0.me.regs.m n).toNat
    let w := widthOf x.fmt / 8
    let q := min left ((64 - dst.toNat % 64) / w)
    (left = 0 → fillPiece x s0 = .ok (false, s0)) ∧
    (0 < left → storeAt 6 w false dst (List.replicate q (toBytes w (s0.me.regs.m a).toNat)).flatten s0 = .ok ((), s1) →
      fillPiece x s0 = .ok (decide (q < left), s1.withRegs (fun r =>
        { (r.setM d (addrAdd dst (q * w : Nat))).setM n (s0.me.regs.m n - word q) with
          prv := addrAdd dst (q * w : Nat) })))) ∧
  (∀ (x : Ops) (s s0 s1 s2 : State) (a : Word), readA x s0 = .ok (a, s1) →
    writeOpd x.d (s1.spTest a) s1 = .ok ((), s2) → Does (.alu 1) x (.sptest x) s s0 s2) ∧
  (∀ (x : Ops) (s s0 s1 s2 : State) (a : Word) (p : Spot), readA x s0 = .ok (a, s1) → s1.spotOf false a = .ok p →
    castSame (castOf x) a = true → writeOpd x.d a s1 = .ok ((), s2) → Does (.alu 1) x (.spcast x) s s0 s2) ∧
  (∀ (x : Ops) (s s0 s1 s2 : State) (a v : Word) (p : Spot), readA x s0 = .ok (a, s1) → s1.spotOf false a = .ok p →
    castSame (castOf x) a = false → castRow (castOf x) s1.curTile a p = some v → writeOpd x.d v s1 = .ok ((), s2) →
    Does (.alu 1) x (.spcast x) s s0 s2) ∧
  (∀ (x : Ops) (s s0 s1 s2 : State) (a : Word), readA x s0 = .ok (a, s1) →
    (∀ p, s1.spotOf false a = .ok p → castSame (castOf x) a = false ∧ castRow (castOf x) s1.curTile a p = none) →
    x.mod.getLsbD 0 = true → writeOpd x.d 0xFF00000000000000 s1 = .ok ((), s2) → Does (.alu 1) x (.spcast x) s s0 s2)

/-- R10, R16, R40: the space of an address, and the place it leads to. -/
def Obligations.AddressesNameAndReachTheirSpace : Prop :=
  TopByteNamesTheSpace ∧ AddressesLeadToTheirSpace

/-- R74, R75, R78, R79, R81: a load sees its chunk's stores, a store waits for the commit, and a chunk commits whole or returns. -/
def Obligations.ChunksIsolateAndCommit : Prop :=
  LoadsSeeTheirChunksStores ∧ StoresWaitForTheCommit ∧ ChunksCommitOrReturn

/-- R255 to R257: the addresses and the values of the load and store entries. -/
def Obligations.LoadsAndStoresMoveTheirValues : Prop :=
  LoadsAndStoresUseTheirAddress ∧ LoadAndStoreValues

/-! # Atomics, fences, owner flips, semaphores, votes -/

namespace Sys2Proof.Claims

/-- The atomics: operation, j of R264 (bit 0 the width, bit 1 the relaxed class), operands. -/
def atomRow (i : Instr) : Option (AtomOp × BitVec 2 × Ops) :=
  match i with
  | .aadd j x => some (.add, j, x)
  | .aand j x => some (.and, j, x)
  | .aor j x => some (.or, j, x)
  | .axor j x => some (.xor, j, x)
  | .amax j x => some (.max, j, x)
  | .amin j x => some (.min, j, x)
  | .axchg j x => some (.xchg, j, x)
  | .acas j x => some (.cas, j, x)
  | _ => none

/-- The width in bits of an atomic. -/
def atomWidth (j : BitVec 2) : Nat := if j.getLsbD 0 then 64 else 32

/-- The new value of the word, if there is one, is stored. -/
def Updates (op : AtomOp) (w : Nat) (uns : Bool) (old : Nat) (v nv : Word) (p : Place) (s s' : State) : Prop :=
  match atomicNew op w uns old (v.toNat % 2 ^ w) (nv.toNat % 2 ^ w) with
  | some y => writePlace p (toBytes (w / 8) y) s = .ok ((), s')
  | none => s' = s

/-- Whether an operand is a stream, and its number. -/
def isStream (o : Opd) : Bool :=
  match o with
  | .s _ => true
  | _ => false
def streamOf (o : Opd) : Nat :=
  match o with
  | .s n => n
  | _ => 0

/-- Every instruction of the acting core's chunk before this one has committed. -/
def fresh (s : State) : Prop := s.me.chunk.all (fun h => h.len == 0) = true

/-- A semaphore of the acting tile takes a value; `ovf` keeps an overflow for the core that takes it (R206). -/
def semBecomes (s : State) (n v : Nat) (ovf : Bool) : State :=
  s.updTile s.curTile (fun t => if ovf then (t.setSem n v).semOverflowed n s.curCore.idx else t.setSem n v)

end Sys2Proof.Claims

/-- R31, R86, R89, R264 to R266: an atomic on a place of this package is made in its chunk (.SPC), or left to the commit of its
chunk, which ends behind it, to be made there or queued; one on another package is made by that package's answer, an ordered
one behind the core's relaxed ones; an atomic on a host page takes PROTECTION with cause 0x10, and a .QNT or .SPC one on another
page that has no home line with cause 0x11. Through a swap aperture whose elements are narrower than the word it is one request
when its bytes all lie on one other package, and otherwise made in its chunk (the model's choice, log entry 63). -/
def Sys2Proof.Claims.AtomicsAreMadeOrLeftToTheCommit : Prop :=
  (∀ (i : Instr) (op : AtomOp) (j : BitVec 2) (x : Ops) (s s0 s1 s2 s3 s4 : State) (a v nv : Word) (o : Option Place),
    atomRow i = some (op, j, x) → readA x s0 = .ok (a, s1) → readB x s1 = .ok (v, s2) →
    (if op = .cas then readC x else pure 0 : Exec Word) s2 = .ok (nv, s3) →
    let w := atomWidth j
    let n := w / 8
    let use := x.mod.toNat % 8
    let relaxed := j.getLsbD 1
    let uns := decide (x.fmt = 1)
    let unpaid := relaxed = true ∧ use = 0
    let inside := relaxed = true ∧ use = 4
    let orders := relaxed = false ∧ use ≠ 1
    let acc := { accOf 2 true a with atom := true, home := relaxed && (use == 3 || use == 4) }
    (∀ tr, atomPlace acc n s3 = .error (.trap tr) → Traps .base x i s s0 tr) ∧
    (atomPlace acc n s3 = .ok (o, s4) →
      (∀ (p : Place) (key kn : Nat) (uc : Bool) (s5 s6 s7 : State) (bs : List Byte), o = some p → p = .mem key kn uc → inside →
        readPlace acc p n s4 = .ok (bs, s5) → Updates op w uns (ofBytes bs) v nv p s5 s6 →
        writeOpd x.d (atomicOld w uns (ofBytes bs)) s6 = .ok ((), s7) → Does .base x i s s0 s7) ∧
      (∀ (key kn : Nat) (uc : Bool) (sa s5 s6 : State) (put : List Place), o = some (.mem key kn uc) → ¬ inside →
        (relaxed = true → atomAfterStores key s4 = .ok ((), s4)) → checkPoison acc key n s4 = .ok ((), s4) →
        s4.me.atoms.any (fun b => b.puts key n) = false → (uc = true → fresh s4) →
        (if uc then alone else pure () : Exec Unit) s4 = .ok ((), sa) →
        (if isHbm key then pkgScope else pure () : Exec Unit) sa = .ok ((), s5) →
        (if unpaid then put = [] ∧ s6 = s5
         else if isStream x.d then streamSlot (streamOf x.d) s5 = .ok (put, s6) else put = [] ∧ s6 = s5) →
        Does .base x i s s0 (s6.setMe { s6.me with chunk := s6.me.chunk.map (fun h => { h with
          closed := true
          acts := h.acts ++ [.atomic { key := key, pkg := none, op := op, wide := j.getLsbD 0, uns := uns, v := v, nv := nv
                                       dst := if unpaid then none else some x.d, latch := decide (¬ unpaid), put := put
                                       use := if relaxed then use else if use = 1 then 5 else 6
                                       at_ := s6.cycle, keyNo := kn, vf := s6.vfOn s6.curTile }] }) })) ∧
      (∀ (p : Place) (pk pa : Nat) (s5 : State) (bs : List Byte), o = some p → p = .remote pk pa → fresh s4 →
        (orders → s4.me.atoms = []) → s4.me.ext.bind (fun e => smFind e.got p.num) = some bs →
        let s4' := s4.setMe { s4.me with chunk := s4.me.chunk.map (fun h => { h with pkg := true, closed := true }) }
        (unpaid → Does .base x i s s0 s4') ∧
        (¬ unpaid → writeOpd x.d (atomicOld w uns (ofBytes bs % 2 ^ w)) s4' = .ok ((), s5) → Does .base x i s s0 s5)) ∧
      (∀ (pk pa : Nat), o = some (.remote pk pa) → fresh s4 → orders → s4.me.atoms ≠ [] →
        Waits .base x i s s0 (fun u =>
          if u.soloBlocked u.curTile u.curCore then u else u.performAll u.curTile u.curCore)) ∧
      (∀ (sa s5 : State) (bs : List Byte) (pk : Nat) (pas : List Nat), o = none →
        atomAway acc (Word.bits a 0 56) n s4 = .ok (some (pk, pas), sa) → fresh sa → (orders → sa.me.atoms = []) →
        sa.me.ext.bind (fun e => smFind e.got (Place.remote pk (pas.headD 0)).num) = some bs →
        let sa' := sa.setMe { sa.me with chunk := sa.me.chunk.map (fun h => { h with pkg := true, closed := true }) }
        (unpaid → Does .base x i s s0 sa') ∧
        (¬ unpaid → writeOpd x.d (atomicOld w uns (ofBytes bs % 2 ^ w)) sa' = .ok ((), s5) → Does .base x i s s0 s5)) ∧
      (∀ (sa s5 s6 s7 : State) (bs : List Byte), o = none → atomAway acc (Word.bits a 0 56) n s4 = .ok (none, sa) →
        (orders → sa.me.atoms = []) → readGlob acc (Word.bits a 0 56) n sa = .ok (bs, s5) →
        (match atomicNew op w uns (ofBytes bs) (v.toNat % 2 ^ w) (nv.toNat % 2 ^ w) with
          | some y => writeGlob acc (Word.bits a 0 56) (toBytes n y) s5 = .ok ((), s6)
          | none => s6 = s5) →
        (if unpaid then s7 = s6 else writeOpd x.d (atomicOld w uns (ofBytes bs)) s6 = .ok ((), s7)) →
        Does .base x i s s0 (if inside then s7 else
          s7.setMe { s7.me with chunk := s7.me.chunk.map (fun h => { h with closed := true }) })))) ∧
  (∀ (s : State) (q : XReq) (e : Word) (log va : Nat), q.atom = true →
    (q.priv = true ∨ leafS e = false) → (q.write = true → leafW e = true) → q.mmv = false → q.vec = false →
    (leafTgt e = 1 → s.leafCheck q e log va = .error (Code.protection, 0x10)) ∧
    (q.home = true → leafTgt e ≠ 1 → (leafTgt e ≠ 0 ∨ leafUc e = true) →
      s.leafCheck q e log va = .error (Code.protection, 0x11)))

/-- R86, R264, R265: what an atomic does where it is performed: its word takes the operation's value and no other byte of
memory changes; its destination and the latch take the value before the update, extended by its type. -/
def Sys2Proof.Claims.AtomicsUpdateTheirWord : Prop :=
  (∀ (s : State) (t : Nat) (k : CoreK) (a : RAtom), s.Form → a.use ≠ 3 → a.vf = none → a.put = [] →
    (s.core t k).chunk = none →
    let w := if a.wide then 64 else 32
    let old := s.readNat a.keyNo a.key (w / 8)
    let s' := s.performAtom t k a
    (∀ y, atomicNew a.op w a.uns old (a.v.toNat % 2 ^ w) (a.nv.toNat % 2 ^ w) = some y →
      ∀ n, n < w / 8 → memByte s'.mem (a.key + n) = (toBytes (w / 8) y).getD n 0) ∧
    (atomicNew a.op w a.uns old (a.v.toNat % 2 ^ w) (a.nv.toNat % 2 ^ w) = none → s'.mem = s.mem) ∧
    (∀ b, (b < a.key ∨ a.key + w / 8 ≤ b) → memByte s'.mem b = memByte s.mem b) ∧
    (s'.core t k).regs =
      let v := if a.uns then word old else wordI (signedOf w old)
      let r := match a.dst with
        | some d => (s.core t k).regs.put d v
        | none => (s.core t k).regs
      if a.latch then { r with prv := v } else r) ∧
  (∀ (w : Nat) (uns : Bool) (old v nv : Nat),
    atomicNew .add w uns old v nv = some ((old + v) % 2 ^ w) ∧ atomicNew .and w uns old v nv = some (old &&& v) ∧
    atomicNew .or w uns old v nv = some (old ||| v) ∧ atomicNew .xor w uns old v nv = some (old ^^^ v) ∧
    atomicNew .xchg w uns old v nv = some v ∧ atomicNew .cas w uns old v nv = (if old = v then some nv else none) ∧
    atomicNew .max w true old v nv = some (max old v) ∧ atomicNew .min w true old v nv = some (min old v) ∧
    atomicNew .max w false old v nv = some (if signedOf w old < signedOf w v then v else old) ∧
    atomicNew .min w false old v nv = some (if signedOf w v < signedOf w old then v else old)) ∧
  (∀ (s : State) (t : Nat) (k : CoreK) (a : RAtom), s.Form → a.use ≠ 3 → a.vf = none →
    (s.core t k).chunk = none → (∀ p ∈ a.put, ∃ key kn uc, p = .mem key kn uc) →
    ∀ b, (b < a.key ∨ a.key + (if a.wide then 64 else 32) / 8 ≤ b) → (∀ key kn uc, Place.mem key kn uc ∈ a.put → b ≠ key) →
      memByte (s.performAtom t k a).mem b = memByte s.mem b) ∧
  (∀ (s : State) (t : Nat) (k : CoreK) (m : SMap Byte) (a : RAtom),
    (a.use = 6 → s.doAct t k m (.atomic a) = (s.performAll t k).performAtom t k a) ∧
    (a.use = 5 → s.doAct t k m (.atomic a) =
      (s.performSome t k (fun b => b.overlaps a)).performAtom t k a) ∧
    (a.use ≠ 5 → a.use ≠ 6 → ((s.doAct t k m (.atomic a)).core t k).atoms = (s.core t k).atoms ++ [a]))

/-- R75, R86, R94, R267, R390: a fence ends its chunk, and its core stands between that chunk and the next. As the chunk of FENCE
and of FENCE.F commits, the core's relaxed atomics are performed. Behind FENCE.F the core waits until its fabric stores and the
transfers begun before it are acknowledged, behind FENCE.E until its engine instructions have ended, behind FENCE.H until a read
sent behind its host stores completes; then it goes on. A refused store (BUS_EPOCH, cause 6) and a broken pair (PROTECTION, cause
0x18) fault FENCE.F. That the wait lies behind the fence's own chunk, and what the copies of a FENCE.F are, is the model's choice
(log entries 15 and 31). -/
def Sys2Proof.Claims.FencesWaitForTheirWork : Prop :=
  (∀ (x : Ops) (s s0 : State),
    let stands := fun (u : State) (kind : Nat) => u.withAct (.fenceWait kind u.me.regs.ip u.me.regs.slot.isSome)
    Does .ends x (.fence x) s s0 (s0.withAct .fence) ∧
    (s0.me.fabRefused = false → s0.fabricBroken s0.me = false →
      Does .ends x (.fenceF x) s s0 (stands (s0.withAct .fence) 1)) ∧
    (s0.me.fabRefused = false → s0.fabricBroken s0.me = true →
      Traps .ends x (.fenceF x) s s0 (s0.ipTrap Code.protection 0x18)) ∧
    (s0.me.fabRefused = true → fresh s0 → Waits .ends x (.fenceF x) s s0 (fun u =>
      (u.setMe { u.me with fabRefused := false }).preciseTrap (u.ipTrap Code.busEpoch 6))) ∧
    (s0.me.fabRefused = true → ¬ fresh s0 → Waits .ends x (.fenceF x) s s0 State.closeChunk) ∧
    Does .ends x (.fenceE x) s s0 (stands s0 2) ∧ Does .ends x (.fenceH x) s s0 (stands s0 3)) ∧
  (∀ (s : State) (t : Nat) (k : CoreK) (m : SMap Byte), s.doAct t k m .fence = s.performAll t k) ∧
  (∀ (s : State) (t kind : Nat) (k : CoreK) (m : SMap Byte) (ip : Word) (inSlot : Bool), kind ≠ 1 →
    s.doAct t k m (.fenceWait kind ip inSlot) = s.updCore t k (fun c => { c with fence := some ⟨kind, ip, inSlot, []⟩ })) ∧
  (∀ (s : State) (t : Nat) (k : CoreK) (m : SMap Byte) (ip : Word) (inSlot : Bool),
    let u := s.numberTags t
    s.doAct t k m (.fenceWait 1 ip inSlot) = u.updCore t k (fun c => { c with fence := some ⟨1, ip, inSlot,
      (u.core t .x).orphans ++ ((u.tile t).tags.filter (fun (_, r) => r.st != .free)).map (fun (_, r) => r.transfer)⟩ })) ∧
  (∀ (s : State) (t : Nat) (k : CoreK) (f : Fence), (s.core t k).run = .running → (s.core t k).fence = some f →
    (s.core t k).chunk.any (fun h => h.closed) = false → (s.tile t).semOvf = none →
    (s.tile t).watch.any (fun w => w.st == .requested) = false →
    let due := (f.kind = 1 ∧ ((s.core t k).fabRefused = true ∨ s.fabricBroken (s.core t k) = true ∨ s.fabricDue t k f = true)) ∨
      (f.kind = 2 ∧ s.engineDue t k = true) ∨ (f.kind = 3 ∧ (s.core t k).hostAt ≠ none)
    let s' := s.setCore t k { s.core t k with fence := none, stalled := false }
    (due → s.beforeFetch t k = .inl (s.behindFence t k)) ∧
    (1 ≤ f.kind → f.kind ≤ 3 → ¬ due → s'.nextItem t k = none → (s.core t k).yields = false → s.beforeFetch t k = .inr s')) ∧
  (∀ (s : State) (t : Nat) (k : CoreK) (f : Fence),
    let c := s.core t k
    let faults := fun (i : TrapInfo) => if s.soloBlocked t k then s
      else (s.setCore t k { c with fabRefused := false, fence := none }).enterTrap t k i (f.ip.truncate 19)
        (if f.inSlot then c.regs.ip.truncate 19 else c.regs.ctnpc) f.inSlot
        (if f.inSlot then some { target := c.regs.ip, act := .plain, notice := none } else none)
    (f.kind = 1 → c.fabRefused = true → s.standFence t k f = faults (mkTrap Code.busEpoch f.ip 0 15 t 6)) ∧
    (f.kind = 1 → c.fabRefused = false → s.fabricBroken c = true →
      s.standFence t k f = faults (mkTrap Code.protection f.ip 0 15 t 0x18)) ∧
    (f.kind = 1 → c.fabRefused = false → s.fabricBroken c = false → s.standFence t k f = s) ∧
    (f.kind = 2 → s.standFence t k f = s.setCore t k { c with stalled := true }) ∧
    (∀ n, f.kind = 3 → c.hostAt = some n →
      s.standFence t k f = if s.hostReads.any (fun r => r.t == t && r.k == k && r.len == 0 && decide (n ≤ r.id)) then s
        else (s.sendHostRead t k 0 0).2))

/-- R51, R268: GIVE flips its slabs to the engines as its chunk commits; TAKE and TTAKE flip to the cores the slabs that no
engine instruction holds, TAKE waiting for the rest and TTAKE telling whether all are the cores'; OWNR reads a slab's owner,
save state and pending count; a range that is no whole slabs of LM, WB or AB takes PROTECTION. A flip moves the slabs it names
and no others. -/
def Sys2Proof.Claims.OwnerFlipsMoveTheirSlabs : Prop :=
  (∀ (x : Ops) (s s0 s1 s2 s3 : State) (a n : Word) (slabs : List SlabId), readA x s0 = .ok (a, s1) →
    readB x s1 = .ok (n, s2) → flipRange a n s2 = .ok (slabs, s3) →
    let s4 := s3.flipIdle slabs
    Does .ends x (.give x) s s0 (s3.withAct (.give slabs)) ∧
    ((s4.tile s4.curTile).allCore slabs = true → Does .ends x (.take x) s s0 s4) ∧
    ((s4.tile s4.curTile).allCore slabs = false → Waits .ends x (.take x) s s0 (fun u =>
      (u.flipIdle slabs).setMe { (u.flipIdle slabs).me with stalled := true, taking := slabs })) ∧
    (∀ s5, writeOpd x.d (wordB ((s4.tile s4.curTile).allCore slabs)) s4 = .ok ((), s5) →
      Does .ends x (.ttake x) s s0 s5)) ∧
  (∀ (i : Instr) (x : Ops) (s s0 s1 s2 : State) (a n : Word) (tr : TrapInfo), (i = .give x ∨ i = .take x ∨ i = .ttake x) →
    readA x s0 = .ok (a, s1) → readB x s1 = .ok (n, s2) → flipRange a n s2 = .error (.trap tr) → Traps .ends x i s s0 tr) ∧
  (∀ (a n : Word) (s : State), n ≠ 0 →
    ((bufBad a = true ∨ bufNo a = 3 ∨ bufOfs a % 4096 ≠ 0 ∨ bufSize (bufNo a) < bufOfs a + n.toNat * 4096) →
      flipRange a n s =
        .error (.trap (mkTrap Code.protection (word (a.toNat % 2 ^ 32)) 4 15 s.curTile 0x0C))) ∧
    (bufBad a = false → bufNo a ≠ 3 → bufOfs a % 4096 = 0 → bufOfs a + n.toNat * 4096 ≤ bufSize (bufNo a) →
      (bufNo a = 0 → (s.tile s.curTile).tailMeets (bufOfs a) (n.toNat * 4096) = false) →
      flipRange a n s = .ok (slabsOf (bufNo a) (bufOfs a) (n.toNat * 4096), s))) ∧
  (∀ (s : State) (t : Nat) (slabs : List SlabId) (e : Bool) (b n : Nat), b < 3 → n < 256 →
    (∀ p ∈ slabs, p.1 < 3 ∧ p.2 < 256) →
    ((s.flip t slabs e).tile t).slabEngine b n = if (b, n) ∈ slabs then e else (s.tile t).slabEngine b n) ∧
  (∀ (x : Ops) (s s0 s1 s2 : State) (a : Word), readA x s0 = .ok (a, s1) → bufBad a = false → bufNo a ≠ 3 →
    bufOfs a < bufSize (bufNo a) →
    let y := s1.tile s1.curTile
    let b := bufNo a
    let n := bufOfs a / 4096
    let s1' := s1.setMe { s1.me with chunk := s1.me.chunk.map (fun h => { h with
      rset := setAdd h.rset (ownerLine s1.curTile b n) }) }
    writeOpd x.d (word ((y.slabEngine b n).toNat * 2 ^ 63 +
      (if b = 1 then (smGet WbSt.empty y.wb n).num else 0) * 2 ^ 8 + y.slabP b n)) s1' = .ok ((), s2) →
    Does .base x (.ownr x) s s0 s2)

/-- R269, R206: SEMSET, SEMADD, SEMRD, SEMTRY, SEMWAIT and SEMZ on the semaphore that IMM names; a value past 65,535 leaves
65,535 and raises SEM_OVERFLOW, one below 0 leaves 0. -/
def Sys2Proof.Claims.SemaphoreInstructions : Prop :=
  ∀ (x : Ops) (s s0 s1 s2 : State) (a : Word), readA x s0 = .ok (a, s1) →
    let n := x.imm.toNat % 256
    let v := (s1.tile s1.curTile).sem n
    let v0 := (s0.tile s0.curTile).sem n
    Does .alone x (.semset x) s s0 (semBecomes s1 n (min a.toNat 65535) (decide (65535 < a.toNat))) ∧
    (writeOpd x.d (word v) (semBecomes s1 n (min (v + a.toInt) 65535).toNat (decide (65535 < v + a.toInt))) = .ok ((), s2) →
      Does .alone x (.semadd x) s s0 s2) ∧
    (writeOpd x.d (word v0) s0 = .ok ((), s2) → Does .alone x (.semrd x) s s0 s2) ∧
    (a.toNat ≤ v → writeOpd x.d 1 (semBecomes s1 n (v - a.toNat) false) = .ok ((), s2) →
      Does .alone x (.semtry x) s s0 s2) ∧
    (v < a.toNat → writeOpd x.d 0 s1 = .ok ((), s2) → Does .alone x (.semtry x) s s0 s2) ∧
    (a = 0 → Does .alone x (.semwait x) s s0 s1) ∧
    (a ≠ 0 → s1.me.granted = true →
      Does .alone x (.semwait x) s s0 (s1.setMe { s1.me with granted := false, waiting := none })) ∧
    (a ≠ 0 → s1.me.granted = false → Waits .alone x (.semwait x) s s0 (fun u =>
      u.setMe { u.me with waiting := some (n, a.toNat), needs := [], forOwn := true })) ∧
    (writeOpd x.d (word v0) (semBecomes s0 n 0 false) = .ok ((), s2) → Does .alone x (.semz x) s s0 s2)

/-- R206: a signal adds to its semaphore; a sum past 65,535 leaves 65,535 and keeps the overflow, and a second one before it is
taken is counted. No other semaphore changes. -/
def Sys2Proof.Claims.SignalsSaturate : Prop :=
  ∀ (s : State) (t n v k : Nat), 0 < v →
    let old := (s.tile t).sem n
    let y := (s.signal t n v k).tile t
    y.sem n = min (old + v) 65535 ∧ (∀ m, m ≠ n → y.sem m = (s.tile t).sem m) ∧
    (old + v ≤ 65535 → y.semOvf = (s.tile t).semOvf) ∧
    (65535 < old + v → (s.tile t).semOvf = none →
      (s.tile t).cores.any (fun (_, c) => c.pend.any (fun p => p.item == 6)) = false →
      y.semOvf = some { sem := n, by_ := k, again := 0 }) ∧
    (∀ o, 65535 < old + v → (s.tile t).semOvf = some o → y.semOvf = some { o with again := o.again + 1 })

/-- R270: a VOTE or VOTEV puts in its input and stands until every running core of its scope has voted, then takes the result;
the results are any, all and the number of non-zero inputs, and maximum, minimum, sum and unsigned maximum of the values. An
input belongs to the instruction that has put it in: a handler's vote is not the one it has interrupted. -/
def Obligations.VotesCollectTheirScope : Prop :=
  (∀ (i : Instr) (isV : Bool) (x : Ops) (s s0 s1 : State) (a : Word),
    ((i = .vote x ∧ isV = false) ∨ (i = .votev x ∧ isV = true)) → readA x s0 = .ok (a, s1) →
    let c := s1.me
    let scope := x.fmt.toNat
    let kind := x.mod.toNat % 4
    let mine := c.votes.find? (fun v => v.ip == c.regs.ip && v.priv == c.regs.priv && v.isV == isV && v.scope == scope &&
      v.kind == kind)
    (∀ (v : VoteIn) (r : Word) (s2 : State), mine = some v → v.res = some r →
      writeOpd x.d r (s1.setMe { c with votes := c.votes.erase v }) = .ok ((), s2) → Does (voteEntry x) x i s s0 s2) ∧
    (∀ v : VoteIn, mine = some v → v.res = none → Waits (voteEntry x) x i s s0 id) ∧
    (mine = none → Waits (voteEntry x) x i s s0 (fun u =>
      let n := smGet 0 u.me.vcount scope
      let u' := u.setMe { u.me with
        votes := u.me.votes ++ [{ ip := u.me.regs.ip, priv := u.me.regs.priv, scope := scope, k := n, isV := isV,
                                  kind := kind, val := a, res := none }]
        vcount := smPut u.me.vcount scope (n + 1) }
      match u'.launchOn u'.curTile with
      | some l => u'.voteSettle l
      | none => u'))) ∧
  (∀ (ins : List Word),
    voteResult false 0 ins = (if ins.any (fun a => a != 0) then 1 else 0) ∧
    voteResult false 1 ins = (if ins.all (fun a => a != 0) then 1 else 0) ∧
    voteResult false 2 ins = word (ins.countP (fun a => a != 0)) ∧
    voteResult true 2 ins = ins.foldl (fun m a => m + a) 0 ∧
    (∀ a ∈ ins, a.toInt ≤ (voteResult true 0 ins).toInt ∧ (voteResult true 1 ins).toInt ≤ a.toInt ∧
      a.toNat ≤ (voteResult true 3 ins).toNat) ∧
    (ins ≠ [] → voteResult true 0 ins ∈ ins ∧ voteResult true 1 ins ∈ ins ∧ voteResult true 3 ins ∈ ins)) ∧
  (∀ (pool : List (Nat × Nat × Core)) (gang vtn n : Nat) (c : Core) (v : VoteIn), c.votes[n]? = some v → v.res = none →
    let ms := voteScope pool v.scope gang vtn
    let waits := ms.any (fun d => d.run != .off && decide (smGet 0 d.vcount v.scope ≤ v.k))
    (waits = true → (voteGive pool gang vtn c).votes[n]? = some v) ∧
    (waits = false → (voteGive pool gang vtn c).votes[n]? = some { v with res := some (voteResult v.isV v.kind
      (ms.filterMap (fun d => (d.votes.find? (fun u => u.scope == v.scope && u.k == v.k)).map (·.val)))) }))

/-- R86, R89, R264 to R266: when an atomic is made, and what it leaves. -/
def Obligations.AtomicsMakeTheirUpdate : Prop :=
  AtomicsAreMadeOrLeftToTheCommit ∧ AtomicsUpdateTheirWord

/-- R206, R269: the semaphore entries and signals. -/
def Obligations.SemaphoresCountAndSaturate : Prop :=
  SemaphoreInstructions ∧ SignalsSaturate

/-- R51, R86, R94, R267, R268, R390: the fences, and the entries that flip slabs or read their owner.
That the wait of a fence lies behind its own chunk is the model's choice (log entry 15), and so is what FENCE.E and FENCE.F wait
for (log entry 31). -/
def Obligations.FencesAndOwnerFlips : Prop :=
  FencesWaitForTheirWork ∧ OwnerFlipsMoveTheirSlabs

/-! # Copies and tags -/

namespace Sys2Proof.Claims

/-- An operand of a copy: an address, whether it is a buffer address, whether it is written, and its rows. -/
def copyOpd (a : Word) (buf write : Bool) (rows len pitch : Nat) : CopyOpd :=
  { a := a, buf := buf, write := write, rows := rows, len := len, pitch := pitch }

/-- No tag of a mask is in a state that a wait waits for: the tags are DONE, FREE or FAULTED. -/
def tagsSettled (s : State) (m : Word) : Bool :=
  ((s.tile s.curTile).tagsIn m .busy).isEmpty && ((s.tile s.curTile).tagsIn m .suspended).isEmpty

end Sys2Proof.Claims

/-- R271 to R277: the operands, limits and alignments that COPY, COPY2, REDP, APF and CFILL put to the checks of R272, and the
record their tag gets; when the checks pass the X-core goes on. -/
def Sys2Proof.Claims.CopyEntriesIssueTheirCopy : Prop :=
  (∀ (x : Ops) (s s0 s1 s2 s3 s4 : State) (d a n : Word),
    readOpd x x.d s0 = .ok (d, s1) → readA x s1 = .ok (a, s2) → readB x s2 = .ok (n, s3) →
    let len := n.toNat % 2 ^ 32
    let f := x.mod.getLsbD 2
    let so := copyOpd a (x.mod.getLsbD 0) false 1 len 0
    let dof := copyOpd d (x.mod.getLsbD 1) true 1 (if f then len + 8 else len) 0
    issueCopy x [so, dof] dof false (Word.bits n 32 32 == 0 && !(f && len % 8 != 0)) (if f then [(dof, len, 8)] else [])
      { TagRec.init with
        kind := 0, rows := 1, rowlen := len, src := a, dst := d, sbuf := so.buf, dbuf := dof.buf, flag := f } s3 =
      .ok ((), s4) → Does .copies x (.copy x) s s0 s4) ∧
  (∀ (x : Ops) (s s0 s1 s2 s3 s4 s5 : State) (d a sh pi : Word),
    readOpd x x.d s0 = .ok (d, s1) → readA x s1 = .ok (a, s2) → readB x s2 = .ok (sh, s3) →
    readOpd x (pairNext x.b) s3 = .ok (pi, s4) →
    let rows := Word.bits sh 32 32
    let len := Word.bits sh 0 32
    let xr := x.mod.getLsbD 2
    let so := copyOpd a (x.mod.getLsbD 0) false rows len (Word.bits pi 32 32)
    let dof := if xr then copyOpd d (x.mod.getLsbD 1) true (2 * len) (rows / 2) (Word.bits pi 0 32)
      else copyOpd d (x.mod.getLsbD 1) true rows len (Word.bits pi 0 32)
    issueCopy x [so, dof] dof false (!xr || (rows != 0 && rows % 2 == 0)) []
      { TagRec.init with
        kind := 1, rows := rows, rowlen := len, src := a, dst := d, spitch := so.pitch, dpitch := Word.bits pi 0 32
        sbuf := so.buf, dbuf := dof.buf, xrep := xr } s4 = .ok ((), s5) → Does .copies x (.copy2 x) s s0 s5) ∧
  (∀ (x : Ops) (s s0 s1 s2 s3 s4 s5 : State) (d a n cw : Word),
    readOpd x x.d s0 = .ok (d, s1) → readA x s1 = .ok (a, s2) → readB x s2 = .ok (n, s3) → readC x s3 = .ok (cw, s4) →
    let k := x.imm.toNat / 64 % 64 + 1
    let size := redpSize x.fmt.toNat
    let len := n.toNat % 2 ^ 32 * size
    let so := copyOpd a (x.mod.getLsbD 0) false 1 (k * len) 0
    let dof := copyOpd d (x.mod.getLsbD 1) true 1 len 0
    let co := copyOpd cw false true 1 8 0
    issueCopy x ([so, dof] ++ if x.c ≠ .zero then [co] else []) dof false (Word.bits n 32 32 == 0)
      ([(so, 0, size), (dof, 0, size)] ++ if x.c ≠ .zero then [(co, 0, 8)] else [])
      { TagRec.init with
        kind := 2, rows := 1, rowlen := len, src := a, dst := d, sbuf := so.buf, dbuf := dof.buf, ety := x.fmt.toNat
        op := x.mod.toNat / 4 % 4, kk := k, cw := if x.c ≠ .zero then some cw else none } s4 = .ok ((), s5) →
    Does .copies x (.redp x) s s0 s5) ∧
  (∀ (x : Ops) (s s0 s1 s2 s3 s4 : State) (d a n : Word),
    readOpd x x.d s0 = .ok (d, s1) → readA x s1 = .ok (a, s2) → readB x s2 = .ok (n, s3) →
    let len := n.toNat % 2 ^ 32
    let so := copyOpd a false false 1 len 0
    let dof := copyOpd d true true 1 len 0
    issueCopy x [so, dof] dof true (Word.bits n 32 32 == 0 && len % 4096 == 0 && decide (4096 ≤ len) && decide (len ≤ 2 ^ 20))
      [(so, 0, 64), (dof, 0, 4096)]
      { TagRec.init with kind := 3, rows := 1, rowlen := len, src := a, dst := d, dbuf := true } s3 = .ok ((), s4) →
    Does .copies x (.apf x) s s0 s4) ∧
  (∀ (x : Ops) (s s0 s1 s2 s3 s4 : State) (d v n : Word),
    readOpd x x.d s0 = .ok (d, s1) → readA x s1 = .ok (v, s2) → readB x s2 = .ok (n, s3) →
    let len := n.toNat % 2 ^ 32
    let dof := copyOpd d (x.mod.getLsbD 1) true 1 len 0
    issueCopy x [dof] dof false (Word.bits n 32 32 == 0 && len % 8 == 0) [(dof, 0, 8)]
      { TagRec.init with kind := 0, rows := 1, rowlen := len, src := v, dst := d, dbuf := dof.buf, fill := true } s3 =
      .ok ((), s4) → Does .copies x (.cfill x) s s0 s4)

/-- R375, R378: an instruction that needs something beside its operands to issue (room in its engine's queue, a tag not in use, P
below 255) goes on when it is there, and otherwise stands at issue, a wait it has consumed given back; the trial of one that waits
for its grant only notes the need. -/
def Sys2Proof.Claims.NeedsHoldTheIssue : Prop :=
  ∀ (n : Need) (s : State),
    (s.me.trial = false → s.hasNeed s.curTile s.curCore n = true → needs n s = .ok ((), s)) ∧
    (s.me.trial = false → s.hasNeed s.curTile s.curCore n = false → needs n s = .error (.stall State.unwait)) ∧
    (s.me.trial = true → needs n s = .ok ((), s.setMe { s.me with needs := s.me.needs ++ [n] }))

/-- R65, R66, R272: a copy whose checks pass leaves its record to the commit of its chunk, BUSY, or DONE when it moves nothing
and writes no flag, with the instruction's signal; registers and memory keep their values, and its tag was neither FAULTED nor
in use; a length outside the limits stops it. A FAULTED tag and one in use stop it too. (An instruction that runs on its own
account, not the trial of one that waits.) -/
def Sys2Proof.Claims.CopiesThatPassTheirChecksAreHandedOver : Prop :=
  ∀ (x : Ops) (os : List CopyOpd) (dst : CopyOpd) (wb lim : Bool) (al : List (CopyOpd × Nat × Nat)) (r : TagRec)
    (s t : State), s.me.trial = false → issueCopy x os dst wb lim al r s = .ok ((), t) →
    lim = true ∧ t.mem = s.mem ∧ t.me.regs = s.me.regs ∧
    (((s.tile s.curTile).tag (x.imm.toNat % 64)).st = .free ∨ ((s.tile s.curTile).tag (x.imm.toNat % 64)).st = .done) ∧
    ∀ h, s.me.chunk = some h → ∃ g c, t.me.chunk = some g ∧ g.acts = h.acts ++ [.copy (x.imm.toNat % 64) c] ∧
      c.st = (if r.rows * r.rowlen = 0 ∧ r.flag = false then .done else .busy) ∧
      c.ssem = x.h.ssem.toNat ∧ c.sinc = x.h.sinc.toNat ∧ c.kind = r.kind ∧ c.rows = r.rows ∧ c.rowlen = r.rowlen ∧
      c.src = r.src ∧ c.dst = r.dst ∧ c.doneb = r.doneb

/-- R66, R278: TWANY, TWALL, TWAIT and TFIND on the tags of their mask: a FAULTED tag comes first and takes TAG_FAULTED; a wait
goes on when its tags are settled; CRES and CCAN act at their chunk's commit, on a FAULTED tag only, CRES with room in the engine's
queue; TSTAT reads a tag's first word. -/
def Obligations.TagInstructionsFollowTheTags : Prop :=
  (∀ (i : Instr) (x : Ops) (s s0 s1 : State) (a m : Word) (n : Nat) (ns : List Nat),
    (((i = .twany x ∨ i = .twall x) ∧ m = a) ∨ (i = .twait x ∧ m = word (2 ^ (a.toNat % 64)))) →
    readA x s0 = .ok (a, s1) → (s1.tile s1.curTile).tagsIn m .faulted = n :: ns →
    Traps .tagWait x i s s0 (tagTrap ((s1.tile s1.curTile).tag n) n)) ∧
  (∀ (x : Ops) (s s0 s1 s2 : State) (m : Word) (n : Nat) (ns : List Nat), readA x s0 = .ok (m, s1) →
    (s1.tile s1.curTile).tagsIn m .faulted = [] → (s1.tile s1.curTile).tagsIn m .done = n :: ns →
    writeOpd x.d (word n) s1 = .ok ((), s2) → Does .tagWait x (.twany x) s s0 s2) ∧
  (∀ (x : Ops) (s s0 s1 s2 : State) (m : Word), readA x s0 = .ok (m, s1) →
    (s1.tile s1.curTile).tagsIn m .faulted = [] → (s1.tile s1.curTile).tagsIn m .done = [] →
    ((s1.tile s1.curTile).tagsIn m .busy = [] → writeOpd x.d 64 s1 = .ok ((), s2) →
      Does .tagWait x (.twany x) s s0 s2) ∧
    ((s1.tile s1.curTile).tagsIn m .busy ≠ [] → Waits .tagWait x (.twany x) s s0 (fun u =>
      u.setMe { u.me with stalled := true }))) ∧
  (∀ (i : Instr) (x : Ops) (s s0 s1 : State) (a m : Word),
    ((i = .twall x ∧ m = a) ∨ (i = .twait x ∧ m = word (2 ^ (a.toNat % 64)))) → readA x s0 = .ok (a, s1) →
    (s1.tile s1.curTile).tagsIn m .faulted = [] →
    (tagsSettled s1 m = true → Does .tagWait x i s s0 s1) ∧
    (tagsSettled s1 m = false → Waits .tagWait x i s s0 (fun u => u.setMe { u.me with stalled := true }))) ∧
  (∀ (x : Ops) (s s0 s1 s2 : State) (m : Word), readA x s0 = .ok (m, s1) →
    writeOpd x.d (word (((s1.tile s1.curTile).tagsIn m .done).headD 64 +
      ((s1.tile s1.curTile).tagsIn m .faulted).headD 64 * 2 ^ 8)) s1 = .ok ((), s2) → Does .tagWait x (.tfind x) s s0 s2) ∧
  (∀ (x : Ops) (s s0 s1 s2 : State) (a : Word), readA x s0 = .ok (a, s1) →
    (if ((s1.tile s1.curTile).tag (a.toNat % 64)).st = .faulted then needs .engine else pure () : Exec Unit) s1 =
      .ok ((), s2) → Does .tagOps x (.cres x) s s0 (s2.withAct (.tagOp false (a.toNat % 64)))) ∧
  (∀ (x : Ops) (s s0 s1 s2 : State) (a : Word), readA x s0 = .ok (a, s1) →
    writeOpd x.d (word ((s1.tile s1.curTile).tag (a.toNat % 64)).st.num) (s1.setMe { s1.me with
      chunk := s1.me.chunk.map (fun h => { h with rset := setAdd h.rset (tagLine s1.curTile (a.toNat % 64)) }) }) =
      .ok ((), s2) →
    Does .tagOps x (.ccan x) s s0 (s2.withAct (.tagOp true (a.toNat % 64)))) ∧
  (∀ (x : Ops) (s s0 s1 s2 : State) (a : Word), readA x s0 = .ok (a, s1) →
    writeOpd x.d ((s1.tile s1.curTile).tag (a.toNat % 64)).word0 s1 = .ok ((), s2) →
    Does { Entry.alu 1 with cores := .x } x (.tstat x) s s0 s2) ∧
  (∀ (s : State) (t tag : Nat) (k : CoreK) (m : SMap Byte),
    let r := (s.tile t).tag tag
    (r.st ≠ .faulted → s.doAct t k m (.tagOp true tag) = s ∧ s.doAct t k m (.tagOp false tag) = s) ∧
    (r.st = .faulted → (((s.doAct t k m (.tagOp true tag)).tile t).tag tag).st = .free ∧
      (((s.doAct t k m (.tagOp false tag)).tile t).tag tag).st = .busy ∧
      (((s.doAct t k m (.tagOp false tag)).tile t).tag tag).doneb = r.doneb))

/-- R66, R90, R273: the copy engine's steps. A tag that is not BUSY moves nothing. A COPY of up to 64 bytes between 64-byte
aligned offsets of AB, of a job of the PF, first has its piece begun, which moves no byte; then its source is read, which moves no
byte either, or the piece lands at once; and it lands: the destination's bytes become those read, its tag is DONE, its signal is
added, and no other byte of AB changes. Which of the two comes is one of the open choices of a run (`State.choose`). -/
def Obligations.CopyPiecesMoveTheirBytes : Prop :=
  (∀ (s : State) (t tag : Nat) (ext : List Byte), ((s.tile t).tag tag).st ≠ .busy →
    exec (.copyPiece t tag ext) s = .next s) ∧
  (∀ (s : State) (t tag jid : Nat) (ext : List Byte) (o1 o2 n m v : Nat), s.Form → s.poison = [] → s.solo = [] →
    o1 % 64 = 0 → o2 % 64 = 0 → o1 + 64 ≤ 0x80000 → o2 + 64 ≤ 0x80000 → o1 ≠ o2 → 0 < n → n ≤ 64 →
    (s.tile t).draining = false → (s.tile t).tailOfs + 24576 ≤ 0x80000 → tag < 64 →
    (s.job? jid).bind Job.vfn = none → s.transferDue 0 = false → (0 < v ∨ (s.tile t).sem m ≤ 65535) →
    let copy : TagRec := { TagRec.init with
      st := .busy, kind := 0, rows := 1, rowlen := n, src := word (2 * 2 ^ 28 + o1), dst := word (2 * 2 ^ 28 + o2)
      sbuf := true, dbuf := true, ssem := m, sinc := v, jid := jid }
    let from_ := (List.range n).map (fun j => memByte s.mem (tileKey t 2 (o1 + j)))
    let lands := fun (bs : List Byte) =>
      ∃ u, exec (.copyPiece t tag ext) s = .next u ∧ ((u.tile t).tag tag).st = .done ∧
        (u.tile t).sem m = min ((s.tile t).sem m + v) 65535 ∧
        (∀ j, j < n → memByte u.mem (tileKey t 2 (o2 + j)) = bs.getD j 0) ∧
        (∀ o, o < 0x80000 → (o < o2 ∨ o2 + n ≤ o) → memByte u.mem (tileKey t 2 o) = memByte s.mem (tileKey t 2 o))
    ((s.tile t).tag tag = copy → (s.tile t).watch.any (fun w => w.st == .saving) = false →
      ∃ u, exec (.copyPiece t tag ext) s = .next u ∧ (u.tile t).tag tag = { copy with front := n } ∧ u.mem = s.mem) ∧
    ((s.tile t).tag tag = { copy with front := n } → s.choose.1 % 2 = 1 →
      ∃ u, exec (.copyPiece t tag ext) s = .next u ∧ (u.tile t).tag tag = { copy with front := n, got := [(0, from_)] } ∧
        u.mem = s.mem) ∧
    ((s.tile t).tag tag = { copy with front := n } → s.choose.1 % 2 = 0 → lands from_) ∧
    (∀ bs, bs.length = n → (s.tile t).tag tag = { copy with front := n, got := [(0, bs)] } → s.choose.1 % 2 = 0 → lands bs))

/-- R65, R66, R271 to R277: the copy entries, and what a copy that passes its checks leaves. -/
def Obligations.CopyEntriesCheckAndHandOver : Prop :=
  CopyEntriesIssueTheirCopy ∧ NeedsHoldTheIssue ∧ CopiesThatPassTheirChecksAreHandedOver

/-! # Vectors -/

namespace Sys2Proof.Claims

/-- Lane `i` of the group that a field names. -/
def laneAt (s : State) (x : Ops) (o : Opd) (i : Nat) : BitVec 32 := (s.me.regs.readGroup o (groupSize x.mod)).getD i 0

/-- Lane `i` is active (R282): every lane, or with MSK those whose bit of v31 is 1. -/
def laneOn (s : State) (x : Ops) (i : Nat) : Bool :=
  !x.mod.getLsbD 4 || maskBit (s.me.regs.readGroup (.v 31) 1) i

/-- The ORed flags of the active lanes (R285). -/
def orFlags (s : State) (x : Ops) (f : Nat → Nat) : Nat :=
  (List.range (laneCount x)).foldl (fun a i => if laneOn s x i then a ||| f i else a) 0

/-- A destination group: its active lanes take new values, the others keep theirs (R282). -/
def mergedLanes (s u : State) (x : Ops) (f : Nat → BitVec 32) : List (BitVec 32) :=
  (List.range (laneCount x)).map (fun i => if laneOn s x i then f i else laneAt u x x.d i)

/-- A lane operation of values a, b, c of a lane. -/
abbrev LaneFn := Rnd → BitVec 32 → BitVec 32 → BitVec 32 → BitVec 32 × Nat

/-- A float lane's result, rounded once, or an integer lane's, wrapped or clamped once (R285). -/
def arithLane (x : Ops) (ff : Nat → FV → FV → FV → FV × Nat) (fi : Int → Int → Int → Int) : LaneFn := fun rd a b c =>
  if x.fmt.toNat < 3 then
    let m := ffmt x.fmt.toNat
    let v := ff rd.mode (m.decode (laneBits x.fmt a)) (m.decode (laneBits x.fmt b)) (m.decode (laneBits x.fmt c))
    let r := m.round rd (x.mod.getLsbD 2) v.1
    (laneOf x.fmt r.1, v.2 ||| r.2)
  else
    let y := fi (laneInt x.fmt a) (laneInt x.fmt b) (laneInt x.fmt c)
    let lo := (intRange (vsigned x.fmt) (vwidth x.fmt)).1
    let hi := (intRange (vsigned x.fmt) (vwidth x.fmt)).2
    if x.mod.getLsbD 2 then (laneOfInt x.fmt (max lo (min hi y)), if y < lo ∨ hi < y then fSAT else 0)
    else (laneOfInt x.fmt y, 0)

/-- A logic or shift lane, on the element's bits. -/
def bitsLane (x : Ops) (f : BitVec 32 → BitVec 32 → Nat) : LaneFn := fun _ a b _ => (laneOf x.fmt (f a b), 0)

/-- The lesser or the greater of two lanes (R286). -/
def pickOf (x : Ops) (greater : Bool) : LaneFn := fun _ a b _ =>
  let va := laneVal x.fmt a
  let vb := laneVal x.fmt b
  (if va.isNan || vb.isNan then laneNan x.fmt
   else laneOf x.fmt (laneBits x.fmt (if greater then (if fvBelow va vb then b else a) else (if fvBelow vb va then b else a))),
   if va.isSig || vb.isSig then fINV else 0)

/-- A float function of one lane. -/
def fnLane (x : Ops) (f : FFmt → Rnd → FV → Nat × Nat) : LaneFn := fun rd a _ _ =>
  let r := f (ffmt x.fmt.toNat) rd ((ffmt x.fmt.toNat).decode (laneBits x.fmt a))
  (laneOf x.fmt r.1, r.2)

/-- The lane operations of R286, R287, R302 and R306: operands, whether SB is taken, whether lanes draw, the lane. -/
def laneRow (i : Instr) : Option (Ops × Bool × Bool × LaneFn) :=
  match i with
  | .vadd x => some (x, true, vfloat x.fmt, arithLane x (fun m a b _ => fvAdd m a b) (fun a b _ => a + b))
  | .vsub x => some (x, true, vfloat x.fmt, arithLane x (fun m a b _ => fvAdd m a b.negate) (fun a b _ => a - b))
  | .vmul x => some (x, true, vfloat x.fmt, arithLane x (fun _ a b _ => fvMul a b) (fun a b _ => a * b))
  | .vfma x => some (x, true, vfloat x.fmt, arithLane x fvFma (fun a b c => a * b + c))
  | .vfms x => some (x, true, vfloat x.fmt, arithLane x (fun m a b c => fvFma m a b c.negate) (fun a b c => a * b - c))
  | .vfnma x => some (x, true, vfloat x.fmt, arithLane x (fun m a b c => fvFma m a.negate b c) (fun a b c => c - a * b))
  | .vmin x => some (x, true, false, pickOf x false)
  | .vmax x => some (x, true, false, pickOf x true)
  | .vabs x => some (x, false, false, fun _ a b c => arithLane x
      (fun _ v _ _ => (nanOf [v]).getD (if v.neg then v.negate else v, 0)) (fun v _ _ => v.natAbs) rne a b c)
  | .vneg x => some (x, false, false, fun _ a b c => arithLane x
      (fun _ v _ _ => (nanOf [v]).getD (v.negate, 0)) (fun v _ _ => -v) rne a b c)
  | .vdiv x => some (x, true, vfloat x.fmt, fun rd a b c =>
      if x.fmt.toNat < 3 ∨ laneInt x.fmt b ≠ 0 then arithLane x (fun _ a b _ => fvDiv a b) (fun a b _ => a.tdiv b) rd a b c
      else (laneOfInt x.fmt (-1), fDZ))
  | .vand x => some (x, true, false, bitsLane x (fun a b => laneBits x.fmt a &&& laneBits x.fmt b))
  | .vor x => some (x, true, false, bitsLane x (fun a b => laneBits x.fmt a ||| laneBits x.fmt b))
  | .vxor x => some (x, true, false, bitsLane x (fun a b => laneBits x.fmt a ^^^ laneBits x.fmt b))
  | .vshl x => some (x, true, false, bitsLane x (fun a b =>
      if b.toNat < vwidth x.fmt then laneBits x.fmt a * 2 ^ b.toNat else 0))
  | .vshr x => some (x, true, false, fun _ a b _ =>
      (laneOfInt x.fmt (laneInt x.fmt a / 2 ^ (min b.toNat (vwidth x.fmt))), 0))
  | .vfrnd x => some (x, false, true, fnLane x roundIntegral)
  | .vexp2 x => some (x, false, true, fnLane x (specialIn 0 (x.mod.getLsbD 2)))
  | .vlog2 x => some (x, false, true, fnLane x (specialIn 1 (x.mod.getLsbD 2)))
  | .vrcp x => some (x, false, true, fnLane x (specialIn 2 (x.mod.getLsbD 2)))
  | .vrsq x => some (x, false, true, fnLane x (specialIn 3 (x.mod.getLsbD 2)))
  | _ => none

/-- Operand b of the lanes: a scalar read once under SB, or the group that BF names (R284). -/
def laneB (x : Ops) (sb : Bool) (s0 s1 : State) (b : Nat → BitVec 32) : Prop :=
  if sb && x.mod.getLsbD 3 then ∃ v, readB x s0 = .ok (v, s1) ∧ b = fun i => if i < laneCount x then v.truncate 32 else 0
  else s1 = s0 ∧ b = laneAt s0 x x.b

/-- A drawing instruction takes a draw for each of its lanes (R129). -/
def drawn (draws : Bool) (x : Ops) (s : State) : State :=
  if draws then s.withRegs (fun r => r.drawn (laneCount x)) else s

/-- The compares: whether every NaN sets INV, and the relation. -/
def vcmpRow (i : Instr) : Option (Ops × Bool × (FV → FV → Bool)) :=
  match i with
  | .vcmpeq x => some (x, false, fvEq)
  | .vcmpne x => some (x, false, fun a b => !fvEq a b)
  | .vcmplt x => some (x, true, fun a b => !a.isNan && !b.isNan && fvLt a b)
  | .vcmple x => some (x, true, fun a b => !a.isNan && !b.isNan && (fvLt a b || fvEq a b))
  | .vcmpun x => some (x, false, fun a b => a.isNan || b.isNan)
  | _ => none

/-- A mask register: bit `i` for lane `i` below L, every other bit 0. -/
def isMask (ls : List (BitVec 32)) (p : Nat → Bool) : Prop :=
  ls.length = 64 ∧ ∀ i, i < 2048 → maskBit ls i = p i

/-- The lanes that a reduction or a scan takes in: an inactive one is the identity. -/
def takenLanes (s : State) (x : Ops) (ident : BitVec 32) : List (BitVec 32) :=
  (List.range (laneCount x)).map (fun i => if laneOn s x i then laneAt s x x.a i else ident)

/-- The active lanes with their numbers, in order. -/
def activeList (s : State) (x : Ops) : List (Nat × FV) :=
  ((List.range (laneCount x)).filter (laneOn s x)).map (fun i => (i, laneVal x.fmt (laneAt s x x.a i)))

/-- The value `v` ranks before `w` (R292): greater first, then the lower lane. -/
def ranksBefore (v w : Nat × FV) : Prop := fvBelow w.2 v.2 = true ∨ (fvBelow v.2 w.2 = false ∧ v.1 < w.1)

/-- A scan of float lanes: each output is the one before it plus the next input, rounded with that step's draw; with it the
flags of its own step (R291). -/
def scanOut (x : Ops) (rd : Nat → Rnd) (first : BitVec 32) (rest : List (BitVec 32)) : Nat → BitVec 32 × Nat
  | 0 => (first, 0)
  | i + 1 => addLanes x (rd (i + 1)) (scanOut x rd first rest i).1 (rest.getD i 0)

end Sys2Proof.Claims

/-- R282 to R287, R302, R303, R306: the lane operations. Every active lane of DF takes the result of its lanes (a float result
rounded once, with the draw of its position; an integer result wrapped, or clamped once under SAT), every inactive lane keeps
its value; the latch takes the whole group; the flags of the active lanes are merged into CFLAG. -/
def Obligations.LaneOperationsComputeTheirLanes : Prop :=
  (∀ (i : Instr) (x : Ops) (sb draws : Bool) (f : LaneFn) (s s0 s1 : State) (b : Nat → BitVec 32),
    laneRow i = some (x, sb, draws, f) → laneB x sb s0 s1 b →
    let r := fun n => f (if draws then s1.me.regs.rnd n else rne) (laneAt s0 x x.a n) (b n) (laneAt s0 x x.c n)
    Does .vector x i s s0 (((drawn draws x s1).withFlags (orFlags s0 x (fun n => (r n).2))).withRegs (fun g =>
      g.writeGroup x.d (mergedLanes s0 s1 x (fun n => (r n).1))))) ∧
  (∀ (src : BitVec 4) (x : Ops) (s s0 s1 : State) (cb : List FV), cvtTarget x s0 = .ok ((x.imm.toNat % 16, cb), s1) →
    let dst := x.imm.toNat % 16
    let draws := cvtDraws src.toNat dst
    let r := fun n => convertBits src.toNat dst (if draws then s1.me.regs.rnd n else rne) (x.mod.getLsbD 2) cb
      ((laneAt s1 x x.a n).toNat % 2 ^ cvtWidth src.toNat)
    Does .vector x (.vcvt src x) s s0 (((drawn draws x s1).withFlags (orFlags s1 x (fun n => (r n).2))).withRegs (fun g =>
      g.writeGroup x.d (mergedLanes s1 s1 x (fun n => BitVec.ofNat 32 (extendTo 32 dst (r n).1)))))) ∧
  (∀ (x : Ops) (s : State), ∃ u, cvtTarget x s =
    .ok ((x.imm.toNat % 16, (s.tile s.curTile).codebook (x.imm.toNat / 16 % 8)), u) ∧ u.me.regs = s.me.regs ∧ u.mem = s.mem)

/-- R300 to R302, R306: CVT converts the low bits of AF from its source format to its destination format and writes the result
extended; FRND, EXP2, LOG2, RCP and RSQ round their function of AF once, with one draw, and write its code zero-extended. -/
def Obligations.ScalarConversionsAndFunctions : Prop :=
  (∀ (src : BitVec 4) (x : Ops) (s s0 s1 s2 s3 : State) (cb : List FV) (a : Word),
    cvtTarget x s0 = .ok ((x.imm.toNat % 16, cb), s1) → readA x s1 = .ok (a, s2) →
    let dst := x.imm.toNat % 16
    let draws := cvtDraws src.toNat dst
    let r := convertBits src.toNat dst (if draws then s2.me.regs.rnd 0 else rne) (x.mod.getLsbD 2) cb
      (a.toNat % 2 ^ cvtWidth src.toNat)
    let s2' := if draws then s2.withRegs (fun g => g.drawn 1) else s2
    writeOpd x.d (word (extendTo 64 dst r.1)) (s2'.withFlags r.2) = .ok ((), s3) →
    Does (.alu 1) x (.cvt src x) s s0 s3) ∧
  (∀ (i : Instr) (x : Ops) (f : FFmt → Rnd → FV → Nat × Nat) (s s0 s1 s2 : State) (a : Word),
    ((i = .frnd x ∧ f = roundIntegral) ∨ (i = .exp2 x ∧ f = specialIn 0 false) ∨ (i = .log2 x ∧ f = specialIn 1 false) ∨
      (i = .rcp x ∧ f = specialIn 2 false) ∨ (i = .rsq x ∧ f = specialIn 3 false)) →
    readA x s0 = .ok (a, s1) →
    let m := ffmt x.fmt.toNat
    let r := f m (s1.me.regs.rnd 0) (m.decode (a.toNat % 2 ^ m.width))
    writeOpd x.d (word r.1) ((s1.withRegs (fun g => g.drawn 1)).withFlags r.2) = .ok ((), s2) →
    Does (.alu 1) x i s s0 s2) ∧
  (∀ (m : FFmt) (rd : Rnd) (neg : Bool) (n d : Nat), (m = ffmt 0 ∨ m = ffmt 1 ∨ m = ffmt 2) → 0 < d → n % d = 0 →
    (roundIntegral m rd (.fin neg n d)) = ((m.round rne false (.fin neg (n / d) 1)).1, 0))

/-- R282, R288, R289: the compares write to DF a mask with a 1 for each active lane in which the relation holds and a 0 for
every other; VSEL takes lane i of a or of b by bit i of c; VMCNT counts a mask's bits below L, VMFF finds the lowest. -/
def Sys2Proof.Claims.VectorComparesAndMasks : Prop :=
  (∀ (i : Instr) (x : Ops) (all : Bool) (rel : FV → FV → Bool) (s s0 s1 : State) (b : Nat → BitVec 32),
    vcmpRow i = some (x, all, rel) → laneB x true s0 s1 b →
    let va := fun n => laneVal x.fmt (laneAt s0 x x.a n)
    let vb := fun n => laneVal x.fmt (b n)
    ∃ ls, isMask ls (fun n => decide (n < laneCount x) && laneOn s0 x n && rel (va n) (vb n)) ∧
      Does .vector x i s s0 ((s1.withFlags (orFlags s0 x (fun n =>
        if (if all then (va n).isNan || (vb n).isNan else (va n).isSig || (vb n).isSig) then fINV else 0))).withRegs
          (fun g => g.writeGroup x.d ls))) ∧
  (∀ (x : Ops) (s s0 s1 : State) (b : Nat → BitVec 32), laneB x true s0 s1 b →
    Does .vector x (.vsel x) s s0 (s1.withRegs (fun g => g.writeGroup x.d (mergedLanes s0 s1 x (fun n =>
      laneOf x.fmt (laneBits x.fmt (if maskBit (s1.me.regs.readGroup x.c 1) n then laneAt s0 x x.a n else b n))))))) ∧
  (∀ (x : Ops) (s s0 s1 : State), writeOpd x.d (word ((List.range (laneCount x)).countP
      (maskBit (s0.me.regs.readGroup x.a 1)))) s0 = .ok ((), s1) → Does .vector x (.vmcnt x) s s0 s1) ∧
  (∀ (x : Ops) (s s0 s1 : State) (n : Nat),
    (∀ i, i < n → maskBit (s0.me.regs.readGroup x.a 1) i = false) → n ≤ laneCount x →
    (n < laneCount x → maskBit (s0.me.regs.readGroup x.a 1) n = true) →
    writeOpd x.d (word n) s0 = .ok ((), s1) → Does .vector x (.vmff x) s s0 s1)

/-- R137, R290 to R292: the reductions write one result to all 64 lanes of DF: the tree of R137 (element i of a level joins
elements 2i and 2i + 1 of the one below), the exact integer sum, the extreme, the lowest index of a greatest lane; the scans
write each running sum; VTOPK and VTOPKI write the first k active lanes in rank order, or their indices, and a filler. INV of
VRAMAX for an active signalling NaN, −0 below +0 there, and no flag from the step of an inactive lane of a scan are the model's
choice, log entry 33: R290 and R291 are silent on them. -/
def Obligations.ReductionsScansAndRanking : Prop :=
  (∀ (x : Ops) (s s0 : State),
    let rd := fun n => s0.me.regs.rnd n
    let ls := takenLanes s0 x (sumIdent x.fmt)
    let r := treeOf (fun i a b => addLanes x (rd i) a b) (Nat.log2 (laneCount x)) ls
    let y := (ls.map (laneInt x.fmt)).sum
    (vfloat x.fmt = true → Does .vector x (.vrsum x) s s0 (((drawn true x s0).withFlags r.2).withRegs (fun g =>
      g.writeGroup x.d (List.replicate 64 (r.1.headD 0))))) ∧
    (vfloat x.fmt = false → Does .vector x (.vrsum x) s s0 ((s0.withFlags (intLane x y).2).withRegs (fun g =>
      g.writeGroup x.d (List.replicate 64 (intLane x y).1))))) ∧
  (∀ (f : Nat → BitVec 32 → BitVec 32 → BitVec 32 × Nat) (ls : List (BitVec 32)) (i : Nat), 2 * i + 1 < ls.length →
    (treeLevel f 0 ls).1.getD i 0 = (f i (ls.getD (2 * i) 0) (ls.getD (2 * i + 1) 0)).1) ∧
  (∀ (i : Instr) (x : Ops) (greater : Bool) (s s0 : State),
    ((i = .vrmax x ∧ greater = true) ∨ (i = .vrmin x ∧ greater = false)) →
    let ident := if greater then leastLane x.fmt else greatestLane x.fmt
    let pick := fun p l => if greater then pickOf x true rne p l 0 else pickOf x false rne l p 0
    let r := (takenLanes s0 x ident).foldl (fun p l => ((pick p.1 l).1, p.2 ||| (pick p.1 l).2)) (ident, 0)
    Does .vector x i s s0 ((s0.withFlags r.2).withRegs (fun g => g.writeGroup x.d (List.replicate 64 r.1)))) ∧
  (∀ (x : Ops) (s s0 : State) (n : Nat) (v : FV), (n, v) ∈ activeList s0 x → v.isNan = false →
    (∀ w ∈ activeList s0 x, w.2.isNan = false → w.1 ≠ n → ranksBefore (n, v) w) →
    Does .vector x (.vramax x) s s0 ((s0.withFlags (if (activeList s0 x).any (fun w => w.2.isSig) then fINV else 0)).withRegs
      (fun g => g.writeGroup x.d (List.replicate 64 (BitVec.ofNat 32 n))))) ∧
  (∀ (x : Ops) (s s0 : State), (∀ w ∈ activeList s0 x, w.2.isNan = true) →
    Does .vector x (.vramax x) s s0 ((s0.withFlags (if (activeList s0 x).any (fun w => w.2.isSig) then fINV else 0)).withRegs
      (fun g => g.writeGroup x.d (List.replicate 64 0xFFFFFFFF)))) ∧
  (∀ (i : Instr) (x : Ops) (s s0 : State) (first : BitVec 32) (rest : List (BitVec 32)),
    let ls := takenLanes s0 x (sumIdent x.fmt)
    ((i = .vscan x ∧ first = ls.headD 0 ∧ rest = ls.tail) ∨
      (i = .vscanx x ∧ first = sumIdent x.fmt ∧ rest = ls.dropLast)) →
    (vfloat x.fmt = true →
      let out := scanOut x (fun n => s0.me.regs.rnd n) first rest
      Does .vector x i s s0 (((drawn true x s0).withFlags (orFlags s0 x (fun n => (out n).2))).withRegs (fun g =>
        g.writeGroup x.d (mergedLanes s0 s0 x (fun n => laneOf x.fmt (laneBits x.fmt (out n).1)))))) ∧
    (vfloat x.fmt = false →
      let out := fun n => intLane x (laneInt x.fmt first + ((rest.take n).map (laneInt x.fmt)).sum)
      Does .vector x i s s0 ((s0.withFlags (orFlags s0 x (fun n => (out n).2))).withRegs (fun g =>
        g.writeGroup x.d (mergedLanes s0 s0 x (fun n => (out n).1)))))) ∧
  (∀ (x : Ops) (s s0 : State) (vs : List (Nat × FV)), vs.Perm (activeList s0 x) → vs.Pairwise ranksBefore →
    let top := vs.take (x.imm.toNat % 512)
    let fill := List.replicate (laneCount x - top.length)
    Does .vector x (.vtopk x) s s0 (s0.withRegs (fun g => g.writeGroup x.d
      (top.map (fun v => laneOf x.fmt (laneBits x.fmt (laneAt s0 x x.a v.1))) ++
        fill (if vfloat x.fmt then laneNan x.fmt else leastLane x.fmt)))) ∧
    Does .vector x (.vtopki x) s s0 (s0.withRegs (fun g => g.writeGroup x.d
      (top.map (fun v => BitVec.ofNat 32 v.1) ++ fill 0xFFFFFFFF))))

/-- R293, R295: VPERM moves lanes by index; VBCAST, VIOTA and VRAND fill the active lanes; VEXT reads one lane, VINS writes one.
No flag changes; VRAND leaves CSRN alone. -/
def Sys2Proof.Claims.PermutesBroadcastsAndRandomLanes : Prop :=
  (∀ (x : Ops) (s s0 : State), Does .vector x (.vperm x) s s0 (s0.withRegs (fun g => g.writeGroup x.d
    (mergedLanes s0 s0 x (fun n => laneOf x.fmt (laneBits x.fmt
      (laneAt s0 x x.a ((laneAt s0 x x.b n).toNat % laneCount x)))))))) ∧
  (∀ (x : Ops) (s s0 s1 : State) (a : Word), readA x s0 = .ok (a, s1) →
    Does .vector x (.vbcast x) s s0 (s1.withRegs (fun g => g.writeGroup x.d
      (mergedLanes s0 s1 x (fun _ => laneOf x.fmt (a.toNat % 2 ^ vwidth x.fmt))))) ∧
    Does .vector x (.viota x) s s0 (s1.withRegs (fun g => g.writeGroup x.d
      (mergedLanes s0 s1 x (fun n => laneOf x.fmt ((a.toNat + n) % 2 ^ vwidth x.fmt)))))) ∧
  (∀ (x : Ops) (s s0 s1 s2 : State) (b : Word), readB x s0 = .ok (b, s1) →
    let l := laneAt s1 x x.a (b.toNat % laneCount x)
    writeOpd x.d (if vsigned x.fmt then wordI (laneInt x.fmt l) else word (laneBits x.fmt l)) s1 = .ok ((), s2) →
    Does .vector x (.vext x) s s0 s2) ∧
  (∀ (x : Ops) (s s0 s1 s2 : State) (a b : Word), readA x s0 = .ok (a, s1) → readB x s1 = .ok (b, s2) →
    Does .vector x (.vins x) s s0 (s2.withRegs (fun g => g.writeGroup x.d ((List.range (laneCount x)).map (fun n =>
      if n = b.toNat % laneCount x then laneOf x.fmt (a.toNat % 2 ^ vwidth x.fmt) else laneAt s2 x x.d n)))) ∧
    Does .vector x (.vrand x) s s0 (s2.withRegs (fun g => g.writeGroup x.d (mergedLanes s0 s2 x (fun n =>
      let r := crand32 (a.toNat % 2 ^ 32) (b + word n)
      if x.fmt = 4 then BitVec.ofNat 32 r
      else BitVec.ofNat 32 ((ffmt 0).round rne false (.fin false (r / 2 ^ 8) (2 ^ 24))).1)))))

/-- R282, R288, R289, R293, R295: compares, masks, permutes, broadcasts and random lanes. -/
def Obligations.VectorMasksAndPermutes : Prop :=
  VectorComparesAndMasks ∧ PermutesBroadcastsAndRandomLanes

namespace Sys2Proof.Claims

/-- The base of a vector access and the offset of lane `n`'s element (R294, R296): by index, contiguous, or strided. -/
def vecAddr (i : Instr) (x : Ops) (s0 s1 : State) (a : Word) (off : Nat → Int) : Prop :=
  ((i = .vgath x ∨ i = .vscat x) ∧ readA x s0 = .ok (a, s1) ∧
    off = fun (n : Nat) => (((laneAt s1 x x.b n).toNat * vecStep x a : Nat) : Int)) ∨
  (∃ b u, (i = .vld x ∨ i = .vst x ∨ i = .vstc x) ∧ readA x s0 = .ok (a, u) ∧ readB x u = .ok (b, s1) ∧
    off = fun (n : Nat) => (b.toNat : Int) + x.imm.toInt + ((n * vecStep x a : Nat) : Int)) ∨
  (∃ b u, (i = .vlds x ∨ i = .vsts x) ∧ readA x s0 = .ok (a, u) ∧ readB x u = .ok (b, s1) ∧
    off = fun (n : Nat) => x.imm.toInt + (n : Int) * b.toInt)

/-- The active lanes, in order. -/
def onLanes (s : State) (x : Ops) : List Nat := (List.range (laneCount x)).filter (laneOn s x)

/-- Lanes of a list load one after another: lane `n` takes `v n` with flags `f n`. -/
def LanesLoad (x : Ops) (a : Word) (rd : Nat → Rnd) (off : Nat → Int) (v : Nat → BitVec 32) (f : Nat → Nat) :
    List Nat → State → State → Prop
  | [], s, t => t = s
  | n :: ns, s, t => ∃ u, loadLane x a (rd n) (off n) s = .ok ((v n, f n), u) ∧ LanesLoad x a rd off v f ns u t

/-- Lanes with their offsets store one after another, each merging its flags. -/
def LanesStore (x : Ops) (a : Word) (rd : Nat → Rnd) (v : Nat → BitVec 32) : List (Nat × Int) → State → State → Prop
  | [], s, t => t = s
  | (n, o) :: ns, s, t => ∃ f u, storeLane x a (rd n) o (v n) s = .ok (f, u) ∧ LanesStore x a rd v ns (u.withFlags f) t

/-- Bytes stored one after another, each at a base and an offset whose address must be a multiple of a number. -/
def BytesStore (x : Ops) : List (Word × Nat × Int × Byte) → State → State → Prop
  | [], s, t => t = s
  | (a, al, o, b) :: ps, s, t => ∃ u, bytePut x a al o b s = .ok ([], u) ∧ BytesStore x ps u t

/-- Bytes loaded one after another. -/
def BytesLoad (x : Ops) : List (Word × Int) → List Byte → State → State → Prop
  | [], bs, s, t => bs = [] ∧ t = s
  | (a, o) :: ps, bs, s, t => ∃ b c u, bs = b :: c ∧ byteGet x a 1 o s = .ok ([b], u) ∧ BytesLoad x ps c u t

/-- The bytes that a block stores, in order: of the targets 0 to 3 the first code, the side byte, and the other codes; of BC16
its block, which is 8-byte aligned, and its side byte (R297, R304). -/
def blockPuts (fmt : Nat) (a side : Word) (b : Nat) (codes : List Byte) (e : Nat) : List (Word × Nat × Int × Byte) :=
  let cs := codes.zipIdx.map (fun p =>
    (a, (if 4 ≤ fmt ∧ p.2 = 0 then 8 else 1), ((b * blockBytes fmt + p.2 : Nat) : Int), p.1))
  let sd := [(side, 1, (b : Int), BitVec.ofNat 8 e)]
  if fmt < 4 then cs.take 1 ++ sd ++ cs.tail else cs ++ sd

/-- The blocks of a block encoding, one after another (R304); the BC16 targets set no flag. -/
def BlocksStore (x : Ops) (a side : Word) (fmt : Nat) (enc : Nat → List Byte × Nat × Nat) : List Nat → State → State → Prop
  | [], s, t => t = s
  | b :: bs, s, t => ∃ u, BytesStore x (blockPuts fmt a side b (enc b).1 (enc b).2.1) s u ∧
      BlocksStore x a side fmt enc bs (if fmt < 4 then u.withFlags (enc b).2.2 else u) t

/-- The bytes that a block is read from, in order: as they are stored, but BC16 reads no side byte (R305). -/
def blockGets (fmt : Nat) (a side : Word) (b : Nat) : List (Word × Int) :=
  let cs := (List.range (blockBytes fmt)).map (fun i => (a, ((b * blockBytes fmt + i : Nat) : Int)))
  if fmt < 4 then cs.take 1 ++ [(side, (b : Int))] ++ cs.tail else cs

/-- The exact values of a block read from those bytes (R122, R123, R126, R305). -/
def blockVals (fmt : Nat) (cb : List FV) (bs : List Byte) : List FV :=
  let codes := bs.take 1 ++ bs.drop 2
  let e := (bs.getD 1 0).toNat
  if fmt < 4 then (List.range 32).map (fun i => blockValue fmt cb e
    (if fmt = 0 then (codes.getD i 0).toNat else (codes.getD (i / 2) 0).toNat / 16 ^ (i % 2) % 16))
  else (List.range 16).map (fun i => bcDecode (fmt == 5) (ofBytes bs) i)

/-- The blocks of a decoding, one after another: the exact values of block `b` are `v b`. -/
def BlocksLoad (x : Ops) (cb : List FV) (a side : Word) (v : Nat → List FV) : List Nat → State → State → Prop
  | [], s, t => t = s
  | b :: bs, s, t => ∃ u, readBlock x cb a side b s = .ok (v b, u) ∧ BlocksLoad x cb a side v bs u t

end Sys2Proof.Claims

/-- R294, R296, R297: VGATH, VLD and VLDS load each active lane of DF from its element, in lane order; VSCAT, VST and VSTS store
each active lane of CF to its element in rising lane order, VSTC packed; VLDBC loads one element for every active lane, converted once with draw 0 (the model's choice, log entry 33); VLDM
and VSTM move a mask's bytes. An inactive lane reaches no memory and keeps its value. -/
def Sys2Proof.Claims.VectorLoadsAndStores : Prop :=
  (∀ (i : Instr) (x : Ops) (s s0 s1 s2 : State) (a : Word) (off : Nat → Int) (v : Nat → BitVec 32) (f : Nat → Nat),
    (i = .vgath x ∨ i = .vld x ∨ i = .vlds x) → vecAddr i x s0 s1 a off →
    LanesLoad x a (fun n => if vecWin x a then s1.me.regs.rnd n else rne) off v f (onLanes s1 x) (drawn (vecWin x a) x s1) s2 →
    Does .vector x i s s0 ((s2.withFlags (orFlags s1 x f)).withRegs (fun g => g.writeGroup x.d (mergedLanes s1 s2 x v)))) ∧
  (∀ (i : Instr) (x : Ops) (s s0 s1 s2 : State) (a : Word) (off : Nat → Int),
    (i = .vscat x ∨ i = .vst x ∨ i = .vsts x ∨ i = .vstc x) → vecAddr i x s0 s1 a off →
    LanesStore x a (fun n => if vecWin x a then s1.me.regs.rnd n else rne) (laneAt s1 x x.c)
      (if i = .vstc x then (onLanes s1 x).zipIdx.map (fun p => (p.1, off p.2)) else (onLanes s1 x).map (fun n => (n, off n)))
      (drawn (vecWin x a) x s1) s2 → Does .vector x i s s0 s2) ∧
  (∀ (x : Ops) (s s0 s1 s2 s3 : State) (a b : Word) (l : BitVec 32) (f : Nat), readA x s0 = .ok (a, s1) →
    readB x s1 = .ok (b, s2) →
    (if onLanes s2 x = [] then s3 = drawn (vecWin x a) x s2 ∧ f = 0
     else loadLane x a (if vecWin x a then s2.me.regs.rnd 0 else rne) ((b.toNat : Int) + x.imm.toInt)
       (drawn (vecWin x a) x s2) = .ok ((l, f), s3)) →
    Does .vector x (.vldbc x) s s0 ((s3.withFlags f).withRegs (fun g =>
      g.writeGroup x.d (mergedLanes s2 s3 x (fun _ => l))))) ∧
  (∀ (x : Ops) (s s0 s1 s2 s3 : State) (a b : Word) (bs : List Byte), readA x s0 = .ok (a, s1) → readB x s1 = .ok (b, s2) →
    vecBytes x a ((b.toNat : Int) + x.imm.toInt) (laneCount x / 8) s2 = .ok (bs, s3) →
    ∃ ls, isMask ls (fun n => decide (n < laneCount x) && (bs.getD (n / 8) 0).getLsbD (n % 8)) ∧
      Does .vector x (.vldm x) s s0 (s3.withRegs (fun g => g.writeGroup x.d ls))) ∧
  (∀ (x : Ops) (s s0 s1 s2 s3 : State) (a b : Word) (bs : List Byte), readA x s0 = .ok (a, s1) → readB x s1 = .ok (b, s2) →
    bs.length = laneCount x / 8 →
    (∀ n, n < laneCount x → (bs.getD (n / 8) 0).getLsbD (n % 8) = maskBit (s2.me.regs.readGroup x.c 1) n) →
    vecPut x a ((b.toNat : Int) + x.imm.toInt) bs s2 = .ok ((), s3) → Does .vector x (.vstm x) s s0 s3)

/-- R39, R48, R257, R296: where a vector element lies (the generic address moved on in its space, or the buffer address of AB
with its offset moved on, the sum exact: the model's choice, log entry 33) and how it moves: outside a window its bytes as they
are, through a window converted, whatever its alignment. -/
def Sys2Proof.Claims.VectorElementsLieAtTheirAddress : Prop :=
  (∀ (x : Ops) (wr : Bool) (a : Word) (off : Int) (n al : Nat) (s : State), x.mod.getLsbD 3 = false →
    let c := { accOf (if wr then 1 else 0) wr (addrAdd a off) with vec := true }
    (∀ p, locate c (elemAlign c.addr al) true s = .ok (p, s) → vecSpot x wr a off n al s = .ok ((c, p), s)) ∧
    (∀ e, locate c (elemAlign c.addr al) true s = .error e → vecSpot x wr a off n al s = .error e)) ∧
  (∀ (x : Ops) (wr : Bool) (a : Word) (off : Int) (n al : Nat) (s : State) (o : Nat), x.mod.getLsbD 3 = true →
    bufBad a = false → bufNo a = 2 → (bufOfs a : Int) + off = o → o + n ≤ bufSize 2 → al ∣ 2 ^ 20 → o % al = 0 →
    (∀ sl, sl ∈ slabsOf 2 o n → (s.tile s.curTile).slabEngine sl.1 sl.2 = false) →
    ∃ c u, vecSpot x wr a off n al s = .ok ((c, .tile s.curTile 2 o), u) ∧ (c.kind = if wr then 4 else 3) ∧ u.mem = s.mem ∧
      u.me.regs = s.me.regs) ∧
  (∀ (x : Ops) (a : Word) (rd : Rnd) (off : Int) (c : Acc) (p : Spot) (s s1 s2 : State) (bs : List Byte),
    vecSpot x false a off (vwidth x.fmt / 8) (vwidth x.fmt / 8) s = .ok ((c, p), s1) → (∀ w, p ≠ .win w) →
    readSpot c p (vwidth x.fmt / 8) s1 = .ok (bs, s2) →
    loadLane x a rd off s = .ok ((laneOf x.fmt (ofBytes bs), 0), s2)) ∧
  (∀ (x : Ops) (a w : Word) (rd : Rnd) (off : Int) (c : Acc) (s s1 s2 : State) (v : FV) (near : Bool),
    vecSpot x false a off (vwidth x.fmt / 8) (vwidth x.fmt / 8) s = .ok ((c, .win w), s1) →
    winRead c w s1 = .ok ((v, near), s2) →
    let r := convertTo (laneCode x.fmt) (if near then rne else rd) (x.mod.getLsbD 2) false [] v
    loadLane x a rd off s = .ok ((laneOf x.fmt r.1, r.2), s2)) ∧
  (∀ (x : Ops) (a : Word) (rd : Rnd) (off : Int) (l : BitVec 32) (c : Acc) (p : Spot) (s s1 s2 : State),
    vecSpot x true a off (vwidth x.fmt / 8) (vwidth x.fmt / 8) s = .ok ((c, p), s1) → (∀ w, p ≠ .win w) →
    writeSpot c p (toBytes (vwidth x.fmt / 8) (laneBits x.fmt l)) s1 = .ok ((), s2) →
    storeLane x a rd off l s = .ok (0, s2))

/-- R304, R305: VENC encodes each block of lanes of CF and stores its codes and its side byte (the BC16 coder takes the exact value
of an FP32 or FP16 lane: the model's choice, log entry 64); VDEC reads each block's codes
and side byte, and rounds every element to its lane of DF. Of the faults of one lane's accesses the first in the order of R40
is taken (R297). -/
def Obligations.BlocksAreEncodedAndDecoded : Prop :=
  (∀ (x : Ops) (s s0 s1 s2 s3 s4 : State) (a side : Word) (cb : List FV), readA x s0 = .ok (a, s1) →
    readB x s1 = .ok (side, s2) → blockBook x s2 = .ok (cb, s3) →
    let fmt := x.imm.toNat % 8
    let v := fun n => laneVal x.fmt (laneAt s3 x x.c n)
    (fmt < 4 → x.fmt.toNat < 3 →
      BlocksStore x a side fmt (fun b =>
        let r := blockEncode fmt cb ((List.range 32).map (fun i => if fmt < 3 then s3.me.regs.rnd (32 * b + i) else rne))
          ((List.range 32).map (fun i => v (32 * b + i)))
        (packCodes fmt r.2.1, r.1, r.2.2)) (List.range (laneCount x / 32)) (drawn (fmt < 3) x s3) s4 →
      Does .vector x (.venc x) s s0 s4) ∧
    (4 ≤ fmt → x.fmt.toNat < 3 →
      BlocksStore x a side fmt (fun b =>
        let r := bcEncode (fmt == 5) ((List.range 16).map (fun i => v (16 * b + i)))
        (toBytes (blockBytes fmt) r.1, r.2, 0)) (List.range (laneCount x / 16)) s3 s4 →
      Does .vector x (.venc x) s s0 s4)) ∧
  (∀ (x : Ops) (s s0 s1 s2 s3 s4 : State) (a side : Word) (cb : List FV) (v : Nat → List FV), readA x s0 = .ok (a, s1) →
    readB x s1 = .ok (side, s2) → blockBook x s2 = .ok (cb, s3) →
    let fmt := x.imm.toNat % 8
    let m := if fmt < 4 then 32 else 16
    BlocksLoad x cb a side v (List.range (laneCount x / m)) (drawn true x s3) s4 → (∀ b, (v b).length = m) →
    let r := fun n => convertTo x.fmt.toNat (if fmt = 3 then rne else s3.me.regs.rnd n) (x.mod.getLsbD 2) false []
      ((v (n / m)).getD (n % m) (.fin false 0 1))
    Does .vector x (.vdec x) s s0 ((s4.withFlags (orFlags s3 x (fun n => (r n).2))).withRegs (fun g =>
      g.writeGroup x.d (mergedLanes s3 s4 x (fun n => laneOf x.fmt (r n).1))))) ∧
  (∀ (x : Ops) (cb : List FV) (a side : Word) (b : Nat) (bs : List Byte) (s u : State),
    BytesLoad x (blockGets (x.imm.toNat % 8) a side b) bs s u →
    readBlock x cb a side b s = .ok (blockVals (x.imm.toNat % 8) cb bs, u)) ∧
  (∀ (m : Exec (List Byte)) (ms : List (Exec (List Byte))) (s : State) (t u : TrapInfo), m s = .error (.trap t) →
    laneAcc ms s = .error (.trap u) → laneAcc (m :: ms) s = .error (.trap (if u.rank < t.rank then u else t))) ∧
  (∀ (x : Ops) (s : State), ∃ u, blockBook x s = .ok ((s.tile s.curTile).codebook (x.imm.toNat / 8 % 8), u) ∧
    u.me.regs = s.me.regs ∧ u.mem = s.mem)

/-- R39, R48, R257, R294, R296, R297: the vector loads and stores, and where their elements lie.
That VLDBC converts its value once, with draw 0, and that the sum of an offset is exact are the model's choice (log entry 33). -/
def Obligations.VectorMemoryEntries : Prop :=
  VectorLoadsAndStores ∧ VectorElementsLieAtTheirAddress

/-! # The matrix array -/

namespace Sys2Proof.Claims

/-- The instruction issues and leaves `m` to its chunk's commit, which hands it to the array (R308). -/
def HandsOver (e : Entry) (x : Ops) (i : Instr) (s s0 u : State) (m : MOp) : Prop :=
  Does e x i s s0 (u.withAct (.matrix m))

/-- The gang instructions of the array up to their join: what they check and prepare. -/
def gangRow (i : Instr) : Option (MKind × Ops × Exec (MOp × List Nat)) :=
  match i with
  | .mma x => some (.mma, x, prepMma x false)
  | .mred x => some (.mma, x, prepMma x true)
  | .mmg x => some (.mmg, x, prepMmg x false)
  | .mredg x => some (.mmg, x, prepMmg x true)
  | _ => none

/-- The members of tile t's gang that have joined and wait, with their joins. -/
def Joined (s : State) (t : Nat) (joins : List (Nat × Join)) : Prop :=
  (s.gangTiles t).filterMap (fun u => ((s.core u .m).join.filter (fun j => j.verdict == 0)).map (fun j => (u, j))) = joins

/-- Blocks that pass checks 1 to 3 of R312: none past a15, none in a PBLK, none absent, none of another context. -/
def BlocksPass (s : State) (ks : List Nat) (tagTest absTest : Bool) : Prop :=
  ∀ k, k ∈ ks → k ≤ 15 ∧ (s.tile s.curTile).parked.testBit k = false ∧
    (absTest = true → s.me.regs.cacc.getLsbD k = false) ∧
    (tagTest = true → accTag ((s.tile s.curTile).block k) = 0 ∨ accTag ((s.tile s.curTile).block k) = s.me.cctx.toNat)

/-- Two states that agree but for the accumulators of tile t. -/
def AgreeOffAs (t : Nat) (s u : State) : Prop :=
  (∀ key, (key < asKey t 0 0 0 ∨ asKey t 16 0 0 ≤ key) → memByte u.mem key = memByte s.mem key) ∧ u.keyTag = s.keyTag ∧
  ∀ n, (u.tile n).cb = (s.tile n).cb ∧ (u.tile n).banks = (s.tile n).banks

end Sys2Proof.Claims

/-- R312, R316, R319, R320, R323 to R325: what each matrix instruction hands to the array when its checks pass. MLDB, MMV, MCLR
and MDRAIN start at their commit; so does a gang instruction on a gang of one; on a larger gang it joins, waits, and takes
GANG_TIMEOUT with cause 2 when the members do not agree, 1 when time has run out. -/
def Sys2Proof.Claims.MatrixEntriesHandOverTheirWork : Prop :=
  (∀ (x : Ops) (s s0 s1 s2 s3 u : State) (w shp xb : Word), readA x s0 = .ok (w, s1) → readB x s1 = .ok (shp, s2) →
    readC x s2 = .ok (xb, s3) →
    let ty := x.fmt.toNat
    let nb := Word.bits shp 0 7
    let kb := shapeK shp
    let order := x.mod.getLsbD 1
    let row := mtBytes ty (if order then kb else nb)
    let rs : List MRange :=
      { a := w, n := if kb = 0 ∨ nb = 0 then 0 else rowsSpan (if order then nb else kb) (shapePitch shp row) row
        kind := 3, buf := 1 } ::
      (if ty = 4 ∨ ty = 5 then [{ a := xb, n := nb * (kb / 32), kind := 3, buf := 1 }] else [])
    shapeClean shp 0xFFFF01FF007F = true → nb ≤ 64 → (5 ≤ ty → nb % 2 = 0) → kb % 32 = 0 → kb ≤ mtKmax ty ty →
    pitchOk shp row = true → checkRanges rs s3 = .ok ((), u) →
    HandsOver .array x (.mldb x) s s0 u { matOp s3 .ldb x w shp xb with
      nb := nb, kb := kb, bty := ty, held := (rs.flatMap MRange.slabs).dedup, reads := rs.map (fun r => r.bytes s3.curTile) }) ∧
  (∀ (i : Instr) (k : MKind) (x : Ops) (p : Exec (MOp × List Nat)) (s s0 u : State) (op : MOp) (key : List Nat),
    gangRow i = some (k, x, p) → s0.me.join = none → p s0 = .ok ((op, key), u) →
    (s0.me.gsize ≤ 1 → HandsOver (gangEntry k) x i s s0 u op) ∧
    (1 < s0.me.gsize →
      Waits (gangEntry k) x i s s0 (fun v => v.enterJoin key { op with gang := s0.me.gcount + 1 }))) ∧
  (∀ (i : Instr) (k : MKind) (x : Ops) (p : Exec (MOp × List Nat)) (s s0 : State) (j : Join), gangRow i = some (k, x, p) →
    s0.me.join = some j →
    (j.verdict = 0 → Waits (gangEntry k) x i s s0 State.awaitJoin) ∧
    (j.verdict = 2 → Traps (gangEntry k) x i s s0 (s0.ipTrap Code.gangTimeout 2)) ∧
    (j.verdict = 3 → Traps (gangEntry k) x i s s0 (s0.ipTrap Code.gangTimeout 1))) ∧
  (∀ (x : Ops) (s s0 u : State), s0.me.join = none → s0.me.gsize ≤ 1 →
    let s1 := s0.setMe { s0.me with tmo := x.imm.toNat % 2 ^ 16 }
    writeOpd x.d s1.me.cgang s1 = .ok ((), u) → Does (gangEntry .gang) x (.mgang x) s s0 u) ∧
  (∀ (x : Ops) (s s0 : State), s0.me.join = none → 1 < s0.me.gsize →
    Waits (gangEntry .gang) x (.mgang x) s s0 (fun v =>
      v.enterJoin [0x1C0, x.fmt.toNat, x.imm.toNat, x.mod.toNat]
        { matOp (s0.setMe { s0.me with tmo := x.imm.toNat % 2 ^ 16 }) .gang x 0 0 0 with gang := s0.me.gcount + 1 })) ∧
  (∀ (x : Ops) (s s0 : State) (j : Join), s0.me.join = some j →
    (j.verdict = 0 → Waits (gangEntry .gang) x (.mgang x) s s0 State.awaitJoin) ∧
    (j.verdict = 2 → Traps (gangEntry .gang) x (.mgang x) s s0 (s0.ipTrap Code.gangTimeout 2)) ∧
    (j.verdict = 3 → Traps (gangEntry .gang) x (.mgang x) s s0 (s0.ipTrap Code.gangTimeout 1))) ∧
  (∀ (x : Ops) (s s0 : State),
    let ks := (List.range (x.imm.toNat % 16 + 1)).map (blockNo x.d + ·)
    BlocksPass s0 ks true true → (∀ k, k ∈ ks → accSh ((s0.tile s0.curTile).block k) = false) →
    HandsOver .array x (.mclr x) s s0 s0 { matOp s0 .clr x 0 0 0 with
      blocks := ks, writes := ks, sts := ks.map (s0.tile s0.curTile).block }) ∧
  (∀ (x : Ops) (s s0 s1 s2 u : State) (d shp : Word), readA x s0 = .ok (d, s1) → readB x s1 = .ok (shp, s2) →
    let rows := Word.bits shp 0 9
    let cols := Word.bits shp 16 7
    let size := (drainType x.fmt.toNat).2
    let ks := regionOf (blockNo x.d) (if cols = 0 then 0 else rows)
    let r : MRange := { a := d, n := if rows = 0 ∨ cols = 0 then 0 else rowsSpan rows (shapePitch shp (cols * size)) (cols * size)
                        kind := 4, buf := 2 }
    BlocksPass s2 ks true true → (∀ k, k ∈ ks → accSh ((s2.tile s2.curTile).block k) = false) →
    shapeClean shp 0xFFFF007F01FF = true → rows ≤ 256 → cols ≤ 64 → pitchOk shp (cols * size) = true →
    checkRanges [r] s2 = .ok ((), u) →
    HandsOver .array x (.mdrain x) s s0 u { matOp s2 .drain x d shp 0 with
      blocks := ks, writes := ks, sts := ks.map (s2.tile s2.curTile).block, held := r.slabs.dedup
      reads := asBytes s2.curTile (if rows = 0 ∨ cols = 0 then [] else ks) }) ∧
  (∀ (x : Ops) (s s0 s1 s2 s3 u v : State) (a b shp : Word) (pages : SMap (Nat × Nat)), readA x s0 = .ok (a, s1) →
    readB x s1 = .ok (b, s2) → readC x s2 = .ok (shp, s3) →
    let t := s3.tile s3.curTile
    let at_ := x.mod.toNat % 8
    let rows := Word.bits shp 0 4
    let k := Word.bits shp 16 16
    let cols := Word.bits shp 32 11
    let ks := regionOf (blockNo x.d) cols
    let mode := if at_ = 3 then 2 else 1
    let writes := if rows = 0 ∨ cols = 0 ∨ (k = 0 ∧ x.mod.getLsbD 3 = false) then [] else ks
    let r : MRange := { a := a, n := rowsSpan rows (roundUp (mtBytes at_ k) 64) (mtBytes at_ k), kind := 3, buf := 2 }
    let brow := mtBytes x.fmt.toNat cols
    let n := rowsSpan k (if x.imm.toNat % 2 ^ 16 = 0 then roundUp brow 64 else x.imm.toNat % 2 ^ 16 * 64) brow
    BlocksPass s3 ks true true → shapeClean shp 0x7FFFFFF000F = true → rows ≤ 8 → k ≤ 16384 → k % 32 = 0 → cols ≤ 1024 →
    (at_ = 3 ↔ x.fmt.toNat = 3) → productRules t false ks writes mode = false → checkRanges [r] s3 = .ok ((), u) →
    (topByte b ≠ 0 → Traps .array x (.mmv x) s s0 (u.accTrap (accOf 3 false b) Code.protection 0x0A)) ∧
    (topByte b = 0 → mapGlobal (accOf 3 false b) { s3.myXReq false with mmv := true } (s3.vfOn s3.curTile) (Word.bits b 0 56) n u =
      .ok (pages, v) →
    ∃ reads, HandsOver .array x (.mmv x) s s0 v { matOp s3 .mmv x a b shp with
      blocks := ks, writes := writes, mode := mode, sts := ks.map t.block, pages := pages
      held := r.slabs.dedup, reads := reads }))

/-- R90, R316, R318: a join is complete when every M-core of the gang has joined. Until then nothing changes. Members that do not
agree are turned away (R317, cause 2). Members that agree go on together: each takes its instruction to its end once more, hands it
to the array with the commit of the chunk that ends with it (MGANG writes its register), and has counted one gang instruction more;
if one of them cannot (another commit has written what its chunk read, a token of another core is held, or its instruction would
fault by now), none of them goes on. -/
def Sys2Proof.Claims.JoinsCompleteTogether : Prop :=
  let met := fun (s : State) (u : Nat) => (s.core u .m).chunk.any (fun h => h.met && !h.single)
  (∀ (s : State) (t : Nat) (joins : List (Nat × Join)), Joined s t joins →
    (joins.length ≠ (s.core t .m).gsize → s.settleJoin t = s) ∧
    (∀ u j, joins.head? = some (u, j) → joins.length = (s.core t .m).gsize → (∃ p ∈ joins, p.2.key ≠ j.key) →
      s.settleJoin t = joins.foldl (fun s p => s.updCore p.1 .m (fun c => { c with join := some { p.2 with verdict := 2 } })) s) ∧
    (∀ (lead m : Nat) (f : Nat → State), joins.length = (s.core t .m).gsize → (∀ p ∈ joins, ∀ q ∈ joins, p.2.key = q.2.key) →
      ((joins.find? (fun p => (s.core p.1 .m).gpos == 0)).map (·.1)).getD t = lead → m ≤ joins.length → f 0 = s →
      (∀ n u j, n < m → joins[n]? = some (u, j) →
        met (f n) u = false ∧ (f n).soloBlocked u .m = false ∧ (f n).runMember u j lead = .ok (f (n + 1))) →
      (m = joins.length → s.settleJoin t = f m) ∧
      ∀ u j, joins[m]? = some (u, j) →
        (met (f m) u = true → s.settleJoin t = s.squash u .m true) ∧
        (met (f m) u = false → (f m).soloBlocked u .m = true → s.settleJoin t = s) ∧
        (met (f m) u = false → (f m).soloBlocked u .m = false → (f m).runMember u j lead = .error true →
          s.settleJoin t = s.updCore u .m (fun c => { c with join := none })) ∧
        (met (f m) u = false → (f m).soloBlocked u .m = false → (f m).runMember u j lead = .error false →
          s.settleJoin t = s))) ∧
  (∀ (s u v w : State) (t lead : Nat) (j : Join) (op : MOp) (key : List Nat),
    let s1 : State := { s with curTile := t, curCore := .m }
    let s2 := s1.setMe { s1.me with join := none, stalled := false, gcount := s1.me.gcount + 1 }
    gangPrep j.op.kind j.op.red j.op.x s2 = .ok ((op, key), u) → op.kind = j.op.kind →
    ((op.kind = .gang ∧ writeOpd op.x.d u.me.cgang u = .ok ((), v)) ∨
      (op.kind ≠ .gang ∧ u.me.trial = false ∧ u.hasNeed u.curTile u.curCore .engine = true ∧
        v = u.withAct (.matrix { op with gang := j.op.gang, lead := lead }))) →
    finish (gangEntry op.kind) j.op.x true v = .ok ((), w) →
    s.runMember t j lead = .ok { w.commitChunk t .m with curTile := s.curTile, curCore := s.curCore })

/-- R309, R310, R312, R329 to R331: MSTAT reads the state word of its block once no earlier instruction of its core touches it;
MSPILL and MFILL hand over their block when its state and their addresses pass; a block past a15, then one in a PBLK, stops a
matrix instruction; handing over claims a free block for the CCTX tag, a redundant product pairs it with its shadow, MCLR and
MSPILL clear its word, MFILL sets it. -/
def Sys2Proof.Claims.MatrixBlocksAreCheckedAndClaimed : Prop :=
  (∀ (x : Ops) (s s0 s1 : State),
    let t := s0.tile s0.curTile
    let k := blockNo x.a
    (t.mq.all (fun m => !m.touches.contains k) = true →
      writeOpd x.d (word (Word.bits (t.block k) 0 15 + (t.parked.testBit k).toNat * 2 ^ 16 +
        (s0.me.regs.cacc.getLsbD k).toNat * 2 ^ 17)) s0 = .ok ((), s1) →
      Does { Entry.array with engine := false } x (.mstat x) s s0 s1) ∧
    (t.mq.any (fun m => m.touches.contains k) = true → Waits { Entry.array with engine := false } x (.mstat x) s s0 id)) ∧
  (∀ (x : Ops) (s s0 s1 s2 s3 u v : State) (g f : Word) (vg vf : Nat) (pg pf : SMap (Nat × Nat)),
    readA x s0 = .ok (g, s1) → readB x s1 = .ok (f, s2) →
    let k := blockNo x.d
    let w := (s2.tile s2.curTile).block k
    BlocksPass s2 [k] false false → accSh w = false → (accTag w = 0 ∨ accTag w = s2.me.cctx.toNat) →
    recordAddr 4 true [(g, 16384, 256), (f, 8, 8)] s2 = .ok ([vg, vf], s3) →
    mapGlobal (accOf 4 true g) (s2.myXReq true) (s2.vfOn s2.curTile) vg 16384 s3 = .ok (pg, u) →
    mapGlobal (accOf 4 true f) (s2.myXReq true) (s2.vfOn s2.curTile) vf 8 u = .ok (pf, v) →
    ∃ m, HandsOver { Entry.array with priv := true } x (.mspill x) s s0 v m ∧ m.kind = .spill ∧ m.blocks = [k] ∧
      m.sts = [w] ∧ m.a = word vg ∧ m.b = word vf) ∧
  (∀ (x : Ops) (s s0 s1 s2 s3 s4 u : State) (g f : Word) (vg vf : Nat) (bs : List Byte) (pg : SMap (Nat × Nat)),
    readA x s0 = .ok (g, s1) → readB x s1 = .ok (f, s2) →
    let k := blockNo x.d
    BlocksPass s2 [k] true false → accSh ((s2.tile s2.curTile).block k) = false →
    recordAddr 3 false [(g, 16384, 256), (f, 8, 8)] s2 = .ok ([vg, vf], s3) →
    readGlob (accOf 3 false f) vf 8 s3 = .ok (bs, s4) →
    let w := word (ofBytes bs)
    accTag w = s2.me.cctx.toNat → Word.bits w 15 49 = 0 → accSh w = false →
    (accR w = true → k ≤ 7 ∧ BlocksPass s2 [k + 8] true false) →
    mapGlobal (accOf 3 false g) (s2.myXReq false) (s2.vfOn s2.curTile) vg 16384 s4 = .ok (pg, u) →
    ∃ m, HandsOver { Entry.array with priv := true } x (.mfill x) s s0
        (u.withRegs (fun r => { r with cacc := r.cacc &&& ~~~(BitVec.ofNat 16 (2 ^ k)) })) m ∧
      m.kind = .fill ∧ m.blocks = [k] ∧ m.sts = [w] ∧ m.a = word vg) ∧
  (∀ (kind : Nat) (ks : List Nat) (tt at_ : Bool) (s : State),
    (BlocksPass s ks tt at_ → checkBlocks kind ks tt at_ s = .ok ((), s)) ∧
    (∀ k, ks.find? (fun k => decide (15 < k)) = some k → checkBlocks kind ks tt at_ s =
      .error (.trap (mkTrap Code.protection (word (0x30000000 + k * 0x4000)) kind 15 s.curTile 0x0C))) ∧
    (∀ k, (∀ j, j ∈ ks → j ≤ 15) → ks.find? (fun k => (s.tile s.curTile).parked.testBit k) = some k →
      checkBlocks kind ks tt at_ s =
        .error (.trap (mkTrap Code.protection (word (0x30000000 + k * 0x4000)) kind 15 s.curTile 0x0D)))) ∧
  (∀ (s : State) (t k : Nat) (m : MOp), m.blocks = [k] → k < 8 → m.pairs = [k] → (m.kind = .mma ∨ m.kind = .mmg) →
    let w := (s.tile t).block k
    let w' := ((s.matrixIssue t m).tile t).block k
    let sh := ((s.matrixIssue t m).tile t).block (k + 8)
    accR w' = true ∧ accSh w' = false ∧ accR sh = false ∧ accSh sh = true ∧ accTag sh = accTag w' ∧ accMode sh = accMode w' ∧
    accTag w' = (if accTag w = 0 then m.tag.toNat else accTag w)) ∧
  (∀ (s : State) (t k : Nat) (m : MOp), m.pairs = [] → m.blocks = [k] → k < 16 →
    let w := (s.tile t).block k
    let w' := ((s.matrixIssue t m).tile t).block k
    ((m.kind = .mma ∨ m.kind = .mmg ∨ m.kind = .mmv) →
      accTag w' = (if accTag w = 0 then m.tag.toNat else accTag w) ∧ accStatus w' = accStatus w ∧ accR w' = accR w ∧
      (accMode w' = if m.writes.contains k then m.mode % 4 else accMode w)) ∧
    (m.kind = .clr → accTag w' = m.tag.toNat ∧ accR w' = false ∧ accSh w' = false ∧ accMode w' = 0) ∧
    (m.kind = .spill → accTag w' = 0 ∧ accR w' = false ∧ accMode w' = 0) ∧
    (∀ v, m.kind = .fill → m.sts = [v] → accTag w' = accTag v ∧ accR w' = accR v ∧ accMode w' = accMode v) ∧
    ∀ j, j < 16 → j ≠ k → j ≠ k + 8 → ((s.matrixIssue t m).tile t).block j = (s.tile t).block j)

/-- R135, R136, R308, R319, R320, R327, R328: the array's work. An INT8 product adds its exact sum to the INT32 element modulo
2^32. A product changes each element of its region, once, to the accumulation of its row of A and its column of B, and nothing
else but status; a block of MODE 0 that it writes reads as zero first; MLDB loads its bank; MCLR zeroes its block; MDRAIN writes each element converted to AB. -/
def Obligations.MatrixWorkComputesItsElements : Prop :=
  (∀ (c fuel : Nat) (ab : List (Int × Int)), ab.length < fuel →
    ((accumulate true fuel c (ab.map (fun p => (MVal.fin p.1 0, MVal.fin p.2 0)))).1 : Int) % 2 ^ 32 =
      ((c : Int) + (ab.map (fun p => p.1 * p.2)).sum) % 2 ^ 32) ∧
  (∀ (c fuel : Nat) (ps : List (MVal × MVal)), ps.length = 32 → 0 < fuel →
    let g := groupSum ps
    let gb := (ffmt 0).round rne false g.1
    let y := fvAdd 0 ((ffmt 0).decode c) ((ffmt 0).decode gb.1)
    (accumulate false (fuel + 1) c ps).1 = ((ffmt 0).round rne false y.1).1) ∧
  (∀ (s : State) (t : Nat) (m : MOp), s.Form → m.kind = .mma → m.red = false →
    m.blocks = regionOf (m.blocks.headD 0) (shapeRows m.b) → m.blocks.headD 0 + shapeRows m.b / 64 < 16 → m.nb ≤ 64 →
    (∀ i u, AgreeOffAs t s u → u.aRow m m.c.toNat i = s.aRow m m.c.toNat i) →
    (shapeK m.b ≠ 0 ∨ m.x.mod.getLsbD 0 = true) → (∀ w ∈ m.sts, accR w = false) →
    let fresh := fun (k : Nat) => (m.blocks.zip m.sts).any (fun p => p.1 == k && accMode p.2 == 0) && m.writes.contains k
    let old := fun (k r n : Nat) => if fresh k then 0 else s.asGet t k r n
    let u := s.slice t m 0
    let bank := (s.tile t).bank (m.x.mod.toNat / 4 % 2)
    AgreeOffAs t s u ∧
    ∀ i n, i < 64 * (16 - m.blocks.headD 0) → n < 64 →
      u.asGet t (m.blocks.headD 0 + i / 64) (i % 64) n =
        if i < shapeRows m.b ∧ n < m.nb then
          (accumulate (m.mode == 2) ((s.aRow m m.c.toNat i).length + 1)
            (if m.x.mod.getLsbD 0 then 0 else old (m.blocks.headD 0 + i / 64) (i % 64) n)
            ((s.aRow m m.c.toNat i).zip ((List.range (shapeK m.b)).map (fun kk =>
              smGet (.fin 0 0) bank.vals (64 * kk + n))))).1 % 2 ^ 32
        else old (m.blocks.headD 0 + i / 64) (i % 64) n) ∧
  (∀ (s : State) (t : Nat) (m : MOp), m.kind = .ldb →
    let u := s.slice t m 0
    (u.tile t).bank (m.x.mod.toNat / 4 % 2) = { (s.tile t).bank (m.x.mod.toNat / 4 % 2) with vals := s.bankVals t m } ∧
    u.mem = s.mem) ∧
  (∀ (s : State) (t k : Nat) (m : MOp) (w : Word), s.Form → k < 16 → m.kind = .clr → m.blocks = [k] → m.sts = [w] →
    accR w = false →
    let u := s.slice t m 0
    (∀ r c, r < 64 → c < 64 → u.asGet t k r c = 0) ∧ accStatus ((u.tile t).block k) = 0 ∧
    ∀ key, (key < asKey t k 0 0 ∨ asKey t (k + 1) 0 0 ≤ key) → memByte u.mem key = memByte s.mem key) ∧
  (∀ (s : State) (t : Nat) (m : MOp), s.Form → m.kind = .drain →
    let d := drainType m.x.fmt.toNat
    let pd := if Word.bits m.b 32 16 = 0 then drainCols m * d.2 else Word.bits m.b 32 16
    drainCols m * d.2 ≤ pd → bufOfs m.a + drainRows m * pd ≤ 0x80000 → drainCols m ≤ 64 →
    m.blocks.headD 0 + drainRows m / 64 < 16 →
    let u := (s.drainRun t m).1
    (∀ i n, i < drainRows m → n < drainCols m →
      let raw := s.asGet t (m.blocks.headD 0 + i / 64) (i % 64) n
      let mode := accMode (m.st (i / 64))
      let v := if mode = 0 then FV.fin false 0 1 else if mode = 2 then FV.ofInt (signedOf 32 raw) else (ffmt 0).decode raw
      u.readNat 0 (tileKey t 2 (bufOfs m.a + i * pd + n * d.2)) d.2 =
        (convertTo d.1 rne (m.x.mod.getLsbD 0) (mode == 2) [] v).1 % 2 ^ (8 * d.2)) ∧
    (∀ key, (key < tileKey t 2 (bufOfs m.a) ∨ tileKey t 2 (bufOfs m.a + drainRows m * pd) ≤ key) →
      (key < asKey t 0 0 0 ∨ asKey t 16 0 0 ≤ key) → memByte u.mem key = memByte s.mem key) ∧
    (m.x.mod.getLsbD 1 = false → ∀ k r c, k < 16 → r < 64 → c < 64 → u.asGet t k r c = s.asGet t k r c))

/-- R308, R316, R326: the events of the array. A read completes when the array performs its instruction; a completion takes the
oldest instruction off the queue and gives its signal; a redundant drain that differs from its shadow leaves the queue and
pends MATRIX_MISMATCH instead; a join that has waited CGANG.TMO times 1,024 cycles is turned away. With nothing in the queue
or no join, nothing changes. -/
def Obligations.MatrixEventsEndTheirWork : Prop :=
  (∀ (s : State) (t : Nat), exec (.matrixReadDone t) s = .next (s.perform t).slotsSettle) ∧
  (∀ (s : State) (t : Nat) (m : MOp) (rest : List MOp), (s.tile t).mq = m :: rest → m.rd = true →
    (m :: rest).all (fun n => n.asked.isEmpty) = true →
    (m.kind ≠ .drain ∧ m.kind ≠ .spill ∧ m.kind ≠ .fill) →
    exec (.matrixComplete t) s =
      .next ((s.popOp t).engineSignal t m.x.h.ssem.toNat m.x.h.sinc.toNat CoreK.m.idx).slotsSettle) ∧
  (∀ (s : State) (t : Nat) (m : MOp) (rest : List MOp), (s.tile t).mq = m :: rest → m.kind = .drain → m.rd = false →
    rest.all (fun n => !n.rd) = true → (m :: rest).all (fun n => n.asked.isEmpty) = true → s.mismatch t m = none →
    s.badRead m = none →
    exec (.matrixComplete t) s =
      .next (((((s.drainRun t m).1.updCore t .m (fun c => c.mergeRegs (fun r => r.addFlags (s.drainRun t m).2))).popOp
        t).engineSignal t m.x.h.ssem.toNat m.x.h.sinc.toNat CoreK.m.idx).slotsSettle)) ∧
  (∀ (s : State) (t a : Nat) (m : MOp) (rest : List MOp), (s.tile t).mq = m :: rest → m.kind = .drain →
    s.mismatch t m = some a →
    exec (.matrixMismatch t) s =
      .next ((s.popOp t).pendCore t .m 5 (mkTrap Code.matrixMismatch (word a) 3 15 t 1)).slotsSettle) ∧
  (∀ (s : State) (t : Nat), (s.tile t).mq = [] → s.rsc.slots = [] →
    exec (.matrixReadDone t) s = .next s ∧ exec (.matrixComplete t) s = .next s ∧ exec (.matrixMismatch t) s = .next s) ∧
  (∀ (s : State) (t : Nat) (j : Join), (s.core t .m).join = some j →
    (j.verdict = 0 ∧ (s.core t .m).tmo ≠ 0 ∧ j.since + (s.core t .m).tmo * 1024 ≤ s.cycle →
      exec (.gangTimeout t) s = .next (s.updCore t .m (fun c => { c with join := some { j with verdict := 3 } }))) ∧
    (¬ (j.verdict = 0 ∧ (s.core t .m).tmo ≠ 0 ∧ j.since + (s.core t .m).tmo * 1024 ≤ s.cycle) →
      exec (.gangTimeout t) s = .next s))

/-- R309, R310, R312, R316 to R320, R323 to R325, R329 to R331: the matrix entries, their joins, their checks and what they claim.
That the block by which a refused region is recorded is the first that meets the test, and that MODE, R, SH and TAG change with the
commit of the issuing chunk, is the model's choice (log entry 34). -/
def Obligations.MatrixEntriesCheckAndHandOver : Prop :=
  MatrixEntriesHandOverTheirWork ∧ JoinsCompleteTogether ∧ MatrixBlocksAreCheckedAndClaimed

/-! # The medium and the stochastic engine -/

namespace Sys2Proof.Claims

/-- The exchange instructions with the opcode that R150 tells their modes by. -/
def exchangeRow (i : Instr) : Option (Ops × Nat) :=
  match i with
  | .bred x => some (x, 0x1CC)
  | .bmax x => some (x, 0x1CD)
  | .bstream x => some (x, 0x1CE)
  | _ => none

/-- The number of writers in whose value bit `j` of `w` is 1. -/
def lightAt (w : Nat) (vs : List Int) (j : Nat) : Nat := vs.countP (fun v => (v % 2 ^ w).toNat.testBit j)

end Sys2Proof.Claims

/-- R149 to R151, R333 to R341: BRED, BMAX and BSTREAM read their descriptor and, when its fields, its port, its ranges and
their owners pass, leave the exchange to their chunk's commit; BARR leaves a barrier; BWAIT and BCHK wait for the tile's
entries, BCHK then reads the record (a bad word of it is a machine check at the commit, R404); BSTAT reads the port; BKEY installs the pending key of its handle; BENROL stores its block, takes
the keys of its handle, which lapses (R423), and waits until frames enrol the port or refuse it; BLEAVE waits for the earlier entries, then clears the port. -/
def Obligations.MediumInstructions : Prop :=
  (∀ (i : Instr) (x : Ops) (opc : Nat) (s s0 s1 s2 u : State) (a : Word) (bs : List Byte), exchangeRow i = some (x, opc) →
    readA x s0 = .ok (a, s1) → readLocal a 32 s1 = .ok (bs, s2) →
    let d := wordsOf bs
    let p := s2.port (dPort d)
    let rs := descRanges d ((dWset d).testBit p.myix)
    (∀ f, descFaults opc d = [f] → Traps { Entry.medium with engine := true } x i s s0
      (mkTrap Code.reservedField (addrAdd a (8 * f.1 : Nat)) 0 (spaceCode a) s2.curTile f.2.2)) ∧
    (descFaults opc d = [] →
      (p.en = false → Traps { Entry.medium with engine := true } x i s s0 (s2.ipTrap Code.busRoster 1)) ∧
      (p.en = true → popCount 32 (dWset d) ≤ p.limit → dWset d < 2 ^ p.nros → (dTrk d = true → s2.hasTrunk p = true) →
        p.sec = false → checkRanges rs s2 = .ok ((), u) → rangesClash rs = false → p.queue.length < 32 →
        Does { Entry.medium with engine := true } x i s s0 (u.withAct
          (.exchange (dPort d) d (rs.flatMap MRange.slabs).dedup x.h.ssem.toNat x.h.sinc.toNat))) ∧
      (p.en = true → popCount 32 (dWset d) ≤ p.limit → dWset d < 2 ^ p.nros → (dTrk d = true → s2.hasTrunk p = true) →
        p.sec = true → dMode d ≠ 5 → (∃ k, p.key = some k ∧ k.epoch = p.epoch ∧ s2.keyLapsed k = false) →
        checkRanges rs s2 = .ok ((), u) → rangesClash rs = false → p.queue.length < 32 →
        Does { Entry.medium with engine := true } x i s s0 (u.withAct
          (.exchange (dPort d) d (rs.flatMap MRange.slabs).dedup x.h.ssem.toNat x.h.sinc.toNat))))) ∧
  (∀ (x : Ops) (s s0 : State),
    let p := s0.port (x.mod.getLsbD 0)
    (p.en = false → Traps { Entry.medium with engine := true } x (.barr x) s s0 (s0.ipTrap Code.busRoster 1)) ∧
    (p.en = true → p.queue.length < 32 → Does { Entry.medium with engine := true } x (.barr x) s s0
      (s0.withAct (.barrier (x.mod.getLsbD 0) [] [] x.h.ssem.toNat x.h.sinc.toNat))) ∧
    (p.ofTile s0.curTile = [] → Does .medium x (.bwait x) s s0 s0) ∧
    (p.ofTile s0.curTile ≠ [] → Waits .medium x (.bwait x) s s0 (fun u =>
      u.setMe { u.me with stalled := true })) ∧
    (∀ s1, writeOpd x.d (word (p.st % 4 * 2 ^ 62 + min 32 p.queue.length * 2 ^ 56 + p.pkey.isSome.toNat * 2 ^ 55 +
      p.enrol.isSome.toNat * 2 ^ 54 + p.plast.toNat)) s0 = .ok ((), s1) → Does .medium x (.bstat x) s s0 s1)) ∧
  (∀ (x : Ops) (s s0 s1 s2 s3 : State) (k : Word), readA x s0 = .ok (k, s1) →
    let a := word (k.toNat % 2 ^ 32)
    let r : MRange := { a := a, n := 16, kind := 3, buf := 2 }
    let due := [false, true].any (fun p => ((s2.port p).ofTile s2.curTile).any (fun e => !e.barr && dKaddr e.desc == a))
    let ws := wordsOf (s2.readBytes 0 (tileKey s2.curTile 2 (bufOfs a)) 16)
    (a.toNat % 16 ≠ 0 → Traps .medium x (.bchk x) s s0
      (mkTrap Code.misaligned a 3 15 s1.curTile (Config.openCause Code.misaligned).toNat)) ∧
    (a.toNat % 16 = 0 → checkRanges [r] s1 = .ok ((), s2) → due = true → Waits .medium x (.bchk x) s s0 (fun u =>
      u.setMe { u.me with stalled := true })) ∧
    (∀ p, a.toNat % 16 = 0 → checkRanges [r] s1 = .ok ((), s2) → due = false →
      s2.badWord (tileKey s2.curTile 2 (bufOfs a)) 16 = some p →
      Does .medium x (.bchk x) s s0 (s2.withAct (.check (badTrap s2.curTile p)))) ∧
    (a.toNat % 16 = 0 → checkRanges [r] s1 = .ok ((), s2) → due = false →
      s2.badWord (tileKey s2.curTile 2 (bufOfs a)) 16 = none → writeOpd x.d (wd ws 0) (s2.withRegs (fun r => r.put (pairNext x.d) (wd ws 1))) = .ok ((), s3) →
      Does .medium x (.bchk x) s s0 s3)) ∧
  (∀ (x : Ops) (s s0 s1 : State) (a : Word), readA x s0 = .ok (a, s1) →
    let port := x.mod.getLsbD 0
    let p := s1.port port
    (p.en = false → Traps .portKey x (.bkey x) s s0 (s1.ipTrap Code.busRoster 1)) ∧
    (p.en = true → p.sec = false → Traps .portKey x (.bkey x) s s0 (s1.ipTrap Code.busSecure 2)) ∧
    (p.en = true → p.sec = true → p.pkey.isSome = true → Traps .portKey x (.bkey x) s s0 (s1.ipTrap Code.busEpoch 5)) ∧
    (p.en = true → p.sec = true → p.pkey = none → s1.handleKey (a.toNat % 2 ^ 32) port (p.epoch + 1) = none →
      Traps .portKey x (.bkey x) s s0 (s1.ipTrap Code.busEpoch 4)) ∧
    (∀ k, p.en = true → p.sec = true → p.pkey = none → s1.handleKey (a.toNat % 2 ^ 32) port (p.epoch + 1) = some k →
      Does .portKey x (.bkey x) s s0
        ((s1.setPort port { p with pkey := some k }).useHandle (a.toNat % 2 ^ 32)))) ∧
  (∀ (x : Ops) (s s0 s1 : State) (a : Word), readA x s0 = .ok (a, s1) →
    let port := x.mod.getLsbD 0
    let p := s1.port port
    (∀ k, p.enrol = some (s1.curTile, [], k) → Does .portKey x (.benrol x) s s0 (s1.setPort port { p with enrol := none })) ∧
    (∀ w k, p.enrol = some (s1.curTile, [w], k) → Traps .portKey x (.benrol x) s s0 (s1.ipTrap Code.busRoster 6)) ∧
    (∀ s2 bs, p.enrol = none → readLocal a 64 s1 = .ok (bs, s2) → p.en = false → enrolBad port (wordsOf bs) = true →
      Traps .portKey x (.benrol x) s s0 (s2.ipTrap Code.busRoster 7)) ∧
    (∀ s2 bs, p.enrol = none → readLocal a 64 s1 = .ok (bs, s2) → p.en = false → enrolBad port (wordsOf bs) = false →
      (wd (wordsOf bs) 0).getLsbD 62 = true →
      let h := Word.bits (wd (wordsOf bs) 1) 0 32
      let key := s2.handleKey h port (BitVec.ofNat 32 (Word.bits (wd (wordsOf bs) 0) 0 32))
      (key = none → Traps .portKey x (.benrol x) s s0 (s2.ipTrap Code.busEpoch 4)) ∧
      (∀ k, key = some k → Waits .portKey x (.benrol x) s s0 (fun u =>
        let v := (u.setPort port { u.port port with
          enrol := some (u.curTile, wordsOf bs, some k), trim := u.trims.getD port.toNat 0 }).useHandle h
        v.setMe { v.me with stalled := true }))) ∧
    (∀ s2 bs, p.enrol = none → readLocal a 64 s1 = .ok (bs, s2) → p.en = false → enrolBad port (wordsOf bs) = false →
      (wd (wordsOf bs) 0).getLsbD 62 = false → Waits .portKey x (.benrol x) s s0 (fun u =>
        let v := u.setPort port { u.port port with
          enrol := some (u.curTile, wordsOf bs, none), trim := u.trims.getD port.toNat 0 }
        v.setMe { v.me with stalled := true }))) ∧
  (∀ (x : Ops) (s s0 : State),
    let port := x.mod.getLsbD 0
    let p := s0.port port
    let bound := (p.leaving.map (·.2)).getD s0.nextExch
    (p.queue.any (fun e => decide (e.id < bound)) = false → Does .portKey x (.bleave x) s s0 (s0.leaveSegment port)) ∧
    (p.queue.any (fun e => decide (e.id < bound)) = true → Waits .portKey x (.bleave x) s s0 (fun u =>
      let v := u.setPort port { u.port port with leaving := some ((u.port port).leaving.getD (u.curTile, u.nextExch)) }
      v.setMe { v.me with stalled := true })) ∧
    (p.queue = [] → ((s0.leaveSegment port).port port).en = false ∧ ((s0.leaveSegment port).port port).key = none))

/-- R154, R157, R158, R160, R138, R142, R146: the counts of light that the writers of an element make add up to the exact sum
of their values (SUM), or tell bit by bit whether one writer (OR) or all of them (ALL) lit it; a result type clamps the exact
sum once. A frame begins at a multiple of 65 of the time counter, once; one that no event brings has open light (the model's choice,
log entry 68). In it a port without a segment lights nothing, one that enrols lights its armed slots, and one that is enrolled
lights its beacon and its pilot slots, judges the frame, names the period that it is to carry and sends it; an exchange whose periods have passed writes its results, agreed exponents and record, and its signal is given; an
empty queue completes nothing. -/
def Obligations.MediumAddsExactly : Prop :=
  (∀ (e : Exch) (p : Pass) (base i : Nat) (all : Bool) (vs : List Int), p.kind = .sum → p.cl = 0 → 0 < p.w →
    (∀ j, j < p.w → e.plane p base i j = lightAt p.w vs j) →
    (∀ v, v ∈ vs → if p.sgn then -(2 ^ (p.w - 1)) ≤ v ∧ v < 2 ^ (p.w - 1) else 0 ≤ v ∧ v < 2 ^ p.w) →
    e.valueOf p base i all = vs.sum) ∧
  (∀ (e : Exch) (p : Pass) (base i : Nat) (all : Bool) (vs : List Int), p.kind = .bits → p.cl = 0 → p.down = false →
    p.writers = vs.length → (∀ j, j < p.w → e.plane p base i j = lightAt p.w vs j) → ∀ j, j < p.w →
    (e.valueOf p base i all).toNat.testBit j =
      if all then vs.all (fun v => (v % 2 ^ p.w).toNat.testBit j) else vs.any (fun v => (v % 2 ^ p.w).toNat.testBit j)) ∧
  (∀ (rt : Nat) (v : Int),
    let w := 8 * rtSize rt
    let lo := (intRange (decide (rt < 3)) w).1
    let hi := (intRange (decide (rt < 3)) w).2
    (sumBytes rt v).1 = toBytes (rtSize rt) (max lo (min hi v) % 2 ^ w).toNat ∧
    ((sumBytes rt v).2 = true ↔ (v < lo ∨ hi < v))) ∧
  (∀ (s : State) (port : Bool) (f : Frame), (s.gtc % 65 ≠ 0 ∨ (s.port port).frameAt = some s.gtc) →
    exec (.mediumFrame port f) s = .next s) ∧
  (∀ (s : State) (port : Bool) (f : Frame), s.gtc % 65 = 0 → (s.port port).frameAt ≠ some s.gtc →
    let begun := fun (l : Lit) => s.setPort port { s.port port with frameAt := some s.gtc, lit := l }
    ((s.port port).enrol = none → (s.port port).en = false → exec (.mediumFrame port f) s = .next (begun Lit.dark)) ∧
    (∀ (t : Nat) (w : List Word) (key : Option PortKey), (s.port port).enrol = some (t, w, key) → w.length = 8 →
      exec (.mediumFrame port f) s = .next ((begun { Lit.dark with armed := true }).enrolFrame port t w key f)) ∧
    ((s.port port).enrol = none → (s.port port).en = true → (s.port port).st ≠ 4 →
      let v := (begun Lit.dark).rearm port
      let p := (v.port port).makeReady
      let u := (v.setPort port { p with lit := p.light (v.trunkLim port) }).judge port f
      p.ready = false → (u.port port).st ≠ 4 → exec (.mediumFrame port f) s =
        .next ((((((u.keeperLight port).aborts port f).rekeyClash port f).sigClash port f).sendPeriod port f).rearm port))) ∧
  (∀ (s : State), s.frameOwed false = false → s.frameOwed true = false → s.ownFrames = s) ∧
  (∀ (s : State), s.frameOwed false = true →
    let u : State := { s.mediumFrame false (openFrame s.free) with free := s.free + 1 }
    (u.frameOwed true = false → s.ownFrames = u) ∧
    (u.frameOwed true = true → s.ownFrames = { u.mediumFrame true (openFrame u.free) with free := u.free + 1 })) ∧
  (∀ (p : Port) (tl t : Nat), p.myix < 32 →
    (t ∈ (p.light tl).pilots ↔ t < 4096 ∧ t % 32 = p.myix) ∧ ((p.light tl).keeper.isSome = true ↔ p.myix = 0)) ∧
  (∀ (s : State) (port : Bool) (f : Frame) (e : Exch), (s.port port).cur (s.trunkLim port) = some e →
    (e.armed && e.sendable (s.port port) && (s.port port).pilotFull f) = true → smFind e.nums e.next = none →
    (s.port port).sec = false → s.badBytes (e.reads (s.port port)) = none →
    let p := s.port port
    let q := (s.sendPeriod port f).port port
    let bits := s.lit e p (s.trunkLim port) e.next p.pnum
    q.pnum = p.pnum + 1 ∧ q.plast = p.pnum ∧ q.sent.headD (0, []) = (p.pnum.toNat, bits) ∧
    q.lit.bits = (if f.p = p.pnum then bits else []) ∧ q.flight.length = p.flight.length + 1) ∧
  (∀ (s : State) (port inexact : Bool) (clamped : List Nat), (s.port port).queue = [] →
    exec (.exchangeComplete ⟨port, inexact, clamped⟩) s = .next s) ∧
  (∀ (s : State) (port inexact : Bool) (clamped : List Nat) (e : Exch) (rest : List Exch),
    (s.port port).queue = e :: rest → e.noPeriod = false → (s.port port).en = true → e.trunkOf = none →
    e.total (s.port port) (s.trunkLim port) ≤ e.passed →
    (e.barr = true → exec (.exchangeComplete ⟨port, inexact, clamped⟩) s =
      .next (((s.dropExch port e).exchSignal e 0).rearm port)) ∧
    (e.barr = false →
      let o := e.out (s.port port) (s.trunkLim port) (inexact, clamped)
      let put := fun (u : State) (a : Word) (bs : List Byte) => u.commitBytes e.t none 0 (tileKey e.t 2 (bufOfs a)) bs
      exec (.exchangeComplete ⟨port, inexact, clamped⟩) s = .next
        ((((put (put (put s (dRaddr e.desc) o.res) (dYaddr e.desc) o.ybytes) (dKaddr e.desc) (e.record 0 0 o.sat)).dropExch
          port e).exchSignal e o.flags).rearm port)))

/-- R343 to R350: ZGEN, ZREGEN and the bit entries set their destination's class and length and leave their work to the commit;
ZCNT, ZLD, ZST and ZCLASS work on the core, once no engine entry uses their register; the checks of R347; and what the engine
makes: a generated stream has as many ones as its value, and the bit entries combine streams bit by bit. -/
def Obligations.StochasticInstructions : Prop :=
  (∀ (x : Ops) (s s0 s1 : State) (a : Word), readA x s0 = .ok (a, s1) → x.mod.getLsbD 3 = true →
    let lc := x.fmt.toNat
    let q := a.toNat % 65536
    let s2 := if zLen lc < q then s1.withFlags fSAT else s1
    Does .stoch x (.zgen x) s s0 ((s2.withRegs (fun r => r.setZ (zNo x.d) (x.imm.toNat % 16) lc)).withAct
      (.stoch { kind := .gen, x := x, qs := List.replicate 64 (min (zLen lc) q), lc := lc, cls := x.imm.toNat % 16 }))) ∧
  (∀ (x : Ops) (s s0 s1 s2 s3 : State) (a : Word) (c : Acc) (p : Place) (bs : List Byte), readA x s0 = .ok (a, s1) →
    x.mod.getLsbD 3 = false → zBuf a 2 2 false s1 = .ok ((c, p), s2) → readPlace c p 128 s2 = .ok (bs, s3) →
    let lc := x.fmt.toNat
    let raw := (chunksOf 65 2 bs).map ofBytes
    let s4 := if raw.any (fun q => decide (zLen lc < q)) then s3.withFlags fSAT else s3
    Does .stoch x (.zgen x) s s0 ((s4.withRegs (fun r => r.setZ (zNo x.d) (x.imm.toNat % 16) lc)).withAct
      (.stoch { kind := .gen, x := x, qs := raw.map (min (zLen lc)), lc := lc, cls := x.imm.toNat % 16 }))) ∧
  (∀ (x : Ops) (s s0 : State),
    let lc := s0.me.regs.zLc (zNo x.a)
    Does .stoch x (.zregen x) s s0 ((s0.withRegs (fun r => r.setZ (zNo x.d) (x.imm.toNat % 16) lc)).withAct
      (.stoch { kind := .regen, x := x, qs := [], lc := lc, cls := x.imm.toNat % 16 }))) ∧
  (∀ (i : Instr) (x : Ops) (k : ZKind) (s s0 : State),
    ((i = .zand x ∧ k = .and) ∨ (i = .zxnor x ∧ k = .xnor) ∨ (i = .zmux x ∧ k = .mux) ∨ (i = .znot x ∧ k = .not)) →
    let srcs := zNos x.a ++ zNos x.b ++ zNos x.c
    let r := s0.me.regs
    let lc := fun n => r.zLc (srcs.getD n 0)
    let cls := fun n => r.zClass (srcs.getD n 0)
    let clash := ((k = .and ∨ k = .xnor) ∧ cls 0 = cls 1) ∨ (k = .mux ∧ (cls 2 = cls 0 ∨ cls 2 = cls 1))
    ((∃ n, n < srcs.length ∧ lc n ≠ lc 0) → Traps .stoch x i s s0 (s0.ipTrap Code.streamLength 1)) ∧
    ((∀ n, n < srcs.length → lc n = lc 0) → clash →
      Traps .stoch x i s s0 (s0.ipTrap Code.correlation (if k = .mux then 2 else 1))) ∧
    ((∀ n, n < srcs.length → lc n = lc 0) → ¬ clash →
      Does .stoch x i s s0 ((s0.withRegs (fun r => r.setZ (zNo x.d) (r.zClass (zNo x.a)) (r.zLc (zNo x.a)))).withAct
        (.stoch { kind := k, x := x, qs := [], lc := r.zLc (zNo x.a), cls := r.zClass (zNo x.a) })))) ∧
  (∀ (s s0 : State), (s0.tile s0.curTile).zq = [] →
    (∀ (x : Ops) (s1 s2 : State) (b : Word), readB x s0 = .ok (b, s1) → (s1.tile s1.curTile).zq = [] →
      let n := zLen (s1.me.regs.zLc (zNo x.a))
      let counts := (s1.me.regs.zLanes (zNo x.a)).map (popCount n)
      (x.mod.getLsbD 3 = false → writeOpd x.d (word (counts.getD (b.toNat % 64) 0)) s1 = .ok ((), s2) →
        Does .stochCore x (.zcnt x) s s0 s2) ∧
      (∀ c p s3, x.mod.getLsbD 3 = true → zBuf b 2 2 true s1 = .ok ((c, p), s2) →
        writePlace p (counts.flatMap (toBytes 2)) s2 = .ok ((), s3) → Does .stochCore x (.zcnt x) s s0 s3)) ∧
    (∀ (x : Ops) (s1 s2 s3 : State) (a : Word) (c : Acc) (p : Place) (bs : List Byte), readA x s0 = .ok (a, s1) →
      (s1.tile s1.curTile).zq = [] → zBuf a (zLen x.fmt.toNat / 8) 8 false s1 = .ok ((c, p), s2) →
      readPlace c p (64 * (zLen x.fmt.toNat / 8)) s2 = .ok (bs, s3) →
      Does .stochCore x (.zld x) s s0 (s3.withRegs (fun r =>
        (r.setLanes (zNo x.d) ((chunksOf 65 (zLen x.fmt.toNat / 8) bs).map ofBytes)).setZ (zNo x.d) (x.imm.toNat % 16)
          x.fmt.toNat))) ∧
    (∀ (x : Ops) (s1 s2 s3 : State) (a : Word) (c : Acc) (p : Place), readA x s0 = .ok (a, s1) →
      (s1.tile s1.curTile).zq = [] →
      let n := zLen (s1.me.regs.zLc (zNo x.b)) / 8
      zBuf a n 8 true s1 = .ok ((c, p), s2) →
      writePlace p ((s1.me.regs.zLanes (zNo x.b)).flatMap (toBytes n)) s2 = .ok ((), s3) →
      Does .stochCore x (.zst x) s s0 s3) ∧
    (∀ (x : Ops) (s1 : State),
      writeOpd x.d (word (s0.me.regs.zLc (zNo x.a) * 16 + s0.me.regs.zClass (zNo x.a))) s0 = .ok ((), s1) →
      Does .stochCore x (.zclass x) s s0 s1)) ∧
  (∀ (x : Ops) (s s0 : State), (s0.tile s0.curTile).zq.any (fun z => z.regs.contains (zNo x.a)) = true →
    Waits .stochCore x (.zclass x) s s0 id) ∧
  (∀ (p lc g : Nat), lc < 3 → g < 16 → p ≤ zLen lc →
    popCount (zLen lc) (zStream p g (zLen lc)) = p ∧ zStream p g (zLen lc) < 2 ^ zLen lc) ∧
  (∀ (z : ZOp) (r : Regs) (n : Nat), n < 64 →
    let ln := fun o => (r.zLanes (zNo o)).getD n 0 % 2 ^ zLen z.lc
    let out := (z.lanes r).getD n 0
    ∀ b, b < zLen z.lc →
      (z.kind = .and → out.testBit b = ((ln z.x.a).testBit b && (ln z.x.b).testBit b)) ∧
      (z.kind = .xnor → out.testBit b = ((ln z.x.a).testBit b == (ln z.x.b).testBit b)) ∧
      (z.kind = .not → out.testBit b = !(ln z.x.a).testBit b) ∧
      (z.kind = .mux → out.testBit b = if (ln z.x.c).testBit b then (ln z.x.b).testBit b else (ln z.x.a).testBit b)) ∧
  (∀ (s : State) (t : Nat), (s.tile t).zq = [] → exec (.stochEngineComplete t) s = .next s) ∧
  (∀ (s : State) (t : Nat) (z : ZOp) (rest : List ZOp), (s.tile t).zq = z :: rest →
    exec (.stochEngineComplete t) s = .next
      (((s.updTile t (fun x => { x with zq := rest })).updCore t .s (fun c => c.mergeRegs (fun r =>
        r.setLanes (zNo z.x.d) (z.lanes (s.core t .s).regs)))).engineSignal t z.x.h.ssem.toNat z.x.h.sinc.toNat CoreK.s.idx))

/-! # The system instructions -/

namespace Sys2Proof.Claims

/-- Registers that a user-mode RDC may not read: CTRAP, CTPC, CTNPC and CTFLG (R354). -/
def hiddenCr (n : Nat) : Bool := n == 0x0D || n == 0x0E || n == 0x0F || n == 0x10

/-- What a write of a control register that every mode may write leaves (R353, R354). -/
def crWritten (n : Nat) (v : Word) (r : Regs) : Option Regs :=
  match n with
  | 0x00 => some { r with cflag := v &&& 0x3F3F }
  | 0x01 => if Word.bits v 0 3 ≤ 5 then some { r with crnd := v &&& 0xFFFFFFFF00000007 } else none
  | 0x02 => some { r with csrn := v }
  | 0x06 => some { r with ceod := v.truncate 32 }
  | 0x0B => some { r with winTraps := v.getLsbD 0 }
  | 0x0D => some { r with hen := v.getLsbD 45, hvec := BitVec.ofNat 13 (Word.bits v 32 13) }
  | 0x13 => some { r with cexb := v &&& 0x7FFFF0007FFFF }
  | _ => none

/-- What a write of a register of the privileged mode leaves. -/
def privWritten (n : Nat) (k : CoreK) (v : Word) (r : Regs) : Option Regs :=
  match n with
  | 0x0A => if 1024 ≤ Word.bits v 0 21 ∧ Word.bits v 0 21 ≤ 2 ^ 20 then
      some { r with cycles := BitVec.ofNat 21 (Word.bits v 0 21) } else none
  | 0x0E => some { r with ctpc := v.truncate 19 }
  | 0x0F => some { r with ctnpc := v.truncate 19 }
  | 0x15 => some { r with maxlen := BitVec.ofNat 9 (Word.bits v 0 9) }
  | 0x17 => if k = .m then some { r with cacc := v.truncate 16 } else none
  | _ => none

end Sys2Proof.Claims

/-- R59, R127, R236, R353, R354, R382: RDC writes a control register to DF, and in user mode takes PRIVILEGE for the trap
registers; WRC writes the fields that its mode may write, ignores the read-only registers, refuses a CRND mode above 5 and a
CYDL outside its range, and takes PRIVILEGE in user mode for CCHNK and CACC, and for CYDL, CTPC and CTNPC (the last three are the
model's choice, log entry 36); a write of CSPILL is
privileged and of CRAS needs an empty store. -/
def Obligations.ControlRegistersReadAndWrite : Prop :=
  (∀ (x : Ops) (s s0 s1 : State),
    let n := x.imm.toNat % 256
    ((s0.me.regs.priv = true ∨ hiddenCr n = false) →
      writeOpd x.d (s0.readCr s0.curTile s0.curCore n) s0 = .ok ((), s1) → Does (.alu 0) x (.rdc x) s s0 s1) ∧
    (s0.me.regs.priv = false → hiddenCr n = true → Traps (.alu 0) x (.rdc x) s s0 (s0.ipTrap Code.privilege 0))) ∧
  (∀ (x : Ops) (s s0 s1 : State) (v : Word), readA x s0 = .ok (v, s1) →
    let n := x.imm.toNat % 256
    (∀ g, crWritten n v s1.me.regs = some g → Does .ends x (.wrc x) s s0 (s1.withRegs (fun _ => g))) ∧
    (n = 0x01 → 5 < Word.bits v 0 3 → Traps .ends x (.wrc x) s s0 (s1.reservedTrap 32)) ∧
    (∀ g, s1.me.regs.priv = true → privWritten n s1.curCore v s1.me.regs = some g →
      Does .ends x (.wrc x) s s0 (s1.withRegs (fun _ => g))) ∧
    (n = 0x17 → s1.me.regs.priv = true → s1.curCore ≠ .m → Does .ends x (.wrc x) s s0 s1) ∧
    (n = 0x0A → s1.me.regs.priv = true → (Word.bits v 0 21 < 1024 ∨ 2 ^ 20 < Word.bits v 0 21) →
      Traps .ends x (.wrc x) s s0 (s1.reservedTrap 32)) ∧
    ((n = 0x0A ∨ n = 0x0E ∨ n = 0x0F ∨ n = 0x15 ∨ n = 0x17) → s1.me.regs.priv = false →
      Traps .ends x (.wrc x) s s0 (s1.ipTrap Code.privilege 0)) ∧
    (n ∈ [0x03, 0x04, 0x05, 0x07, 0x08, 0x09, 0x0C, 0x10, 0x11, 0x12, 0x14, 0x16, 0x18, 0x19, 0x1A, 0x1B] →
      Does .ends x (.wrc x) s s0 s1)) ∧
  (∀ (x : Ops) (s s0 s1 : State) (v : Word), readA x s0 = .ok (v, s1) →
    let t := s1.tile s1.curTile
    let r := s1.me.regs
    let blk := Word.bits v 32 16
    (r.priv = false → Traps .ends x (.wrcCspill x) s s0 (s1.ipTrap Code.privilege 0)) ∧
    (r.priv = true → (blk = r.pblk.toNat ∨ r.depth = 0) →
      (∀ k, k ≠ s1.curCore → (t.core k).regs.pblk.toNat &&& blk = 0) →
      (∀ k, k < 16 → blk.testBit k = true → accTag (t.block k) = 0 ∨ accTag (t.block k) = s1.me.cctx.toNat) →
      Does .ends x (.wrcCspill x) s s0 (s1.withRegs (fun r =>
        { r with park := v.getLsbD 63, pblk := BitVec.ofNat 16 blk }))) ∧
    (r.priv = true → blk ≠ r.pblk.toNat → r.depth ≠ 0 →
      Traps .ends x (.wrcCspill x) s s0 (s1.ipTrap Code.protection 0x0D))) ∧
  (∀ (x : Ops) (s s0 s1 : State) (v : Word), readA x s0 = .ok (v, s1) →
    let b := Word.bits v 32 32
    let bad := s1.me.regs.rcnt ≠ 0 ∨ s1.me.regs.sptr ≠ s1.me.regs.sbase ∨ b % 8 ≠ 0 ∨ 0x7FFFFF8 < b
    (¬ bad → Does .ends x (.wrcCras x) s s0 (s1.withRegs (fun r =>
      { r with sbase := BitVec.ofNat 32 b, sptr := BitVec.ofNat 32 b }))) ∧
    (bad → Traps .ends x (.wrcCras x) s s0 (s1.ipTrap Code.protection 0x0E)))

/-- R28, R182, R356 to R362, R385: TRAPRET returns to CTPC after its delay slot; CTXSAVE and CTXLOAD move the core's area of the
tail (the AUX word stays as it is: the model's choice, log entry 36), CTXLOAD takes the machine check of a bad word in it (R404);
TLBIP and TLBIC drop translations from the tiles', the rows' and the walkers' caches at their commit, which meets the open chunks
that have used one of them (R39, R74); APTSET leaves its
aperture to the commit (a bad word is RESERVED_FIELD with cause 32: the model's choice, log entry 36) and APTRD reads one; TICKWAIT goes on when its group has released it; PHASEEND arrives at its commit; the
cancels tell whether they found what they name and cancel it at their commit; CBLD leaves its 16 entries to the commit, which
waits while the slot is read. -/
def Obligations.SystemInstructions : Prop :=
  (∀ (x : Ops) (s s0 : State),
    let t := word s0.me.regs.ctpc.toNat
    let e := { Entry.jump with priv := true, after := true }
    (ipOk t = true → Does e x (.trapret x) s s0 (s0.withRegs (fun r =>
      { r with slot := some { target := t, act := .trapret, notice := none } }))) ∧
    (ipOk t = false → Traps e x (.trapret x) s s0 (mkTrap Code.badTarget t 0 15 s0.curTile 2))) ∧
  (∀ (x : Ops) (s s0 : State),
    Does .context x (.ctxsave x) s s0 (s0.saveArea s0.curTile s0.curCore
      (word (s0.readNat 0 (s0.areaKey s0.curTile s0.curCore + 0x28) 8))) ∧
    let bad := (s0.badWord (s0.areaKey s0.curTile s0.curCore) 2048).orElse (fun _ =>
      if s0.curCore = .v then s0.badWord (tileKey s0.curTile 0 ((s0.tile s0.curTile).tailOfs + 0x2800)) 8192 else none)
    (bad = none → Does .context x (.ctxload x) s s0 (s0.loadArea s0.curTile s0.curCore)) ∧
    (∀ p, bad = some p → Traps .context x (.ctxload x) s s0 (mkTrap 0xF0 (localAddr s0.curTile p) 0 2 s0.curTile 0))) ∧
  (∀ (x : Ops) (s s0 s1 : State) (a : Word), readA x s0 = .ok (a, s1) →
    (topByte a = 0 → Does { Entry.ends with cores := .c, priv := true } x (.tlbip x) s s0
      (s1.withAct (.tlbi s1.me.cctx (some (Word.bits a 0 56))))) ∧
    (topByte a ≠ 0 → Traps { Entry.ends with cores := .c, priv := true } x (.tlbip x) s s0
      (s1.accTrap (accOf 0 false a) Code.protection 0x16)) ∧
    Does { Entry.ends with cores := .c, priv := true, pf := true } x (.tlbic x) s s0
      (s1.withAct (.tlbi (a.truncate 8) none))) ∧
  (∀ (s : State) (t : Nat) (k : CoreK) (m : SMap Byte) (ctx : Byte) (va : Option Nat), s.doAct t k m (.tlbi ctx va) =
    s.invalidate ctx va) ∧
  (∀ (s : State) (ctx : Byte) (v t log : Nat) (k : CoreK) (h : Chunk), t ∈ s.tiles.map (·.1) →
    (log = 16 ∨ log = 21 ∨ log = 30) → ((s.core t k).chunk = some h) → pageLine ctx log (v / 2 ^ log) ∈ h.rset →
    (∀ u j, (s.core u j).atoms = []) → ∀ g, ((s.invalidate ctx (some v)).core t k).chunk = some g → g.met = true) ∧
  (∀ (s : State) (ctx : Byte) (v n : Nat) (l : Tlb), (l ∈ ((s.invalidate ctx (some v)).tile n).tlb ∨
    l ∈ smGet [] (s.invalidate ctx (some v)).rowTlb n ∨ l ∈ smGet [] (s.invalidate ctx (some v)).upper n) →
    l.ctx ≠ ctx ∨ l.page ≠ v / 2 ^ l.log) ∧
  (∀ (s : State) (p : Tlb → Bool) (n : Nat) (l : Tlb), (l ∈ ((s.dropTlb p).tile n).tlb ∨
    l ∈ smGet [] (s.dropTlb p).rowTlb n ∨ l ∈ smGet [] (s.dropTlb p).upper n) → p l = false) ∧
  (∀ (x : Ops) (s s0 s1 s2 : State) (w0 w1 : Word), readA x s0 = .ok (w0, s1) → readOpd x (pairNext x.a) s1 = .ok (w1, s2) →
    (apertureBad w1 = false → Does { Entry.ends with priv := true } x (.aptset x) s s0
      (s2.withAct (.aptset (x.imm.toNat % 16) (w0 &&& 0x80FFFFFFFFFFFFFF) (w1 &&& 0xFFFFFFFFFFFFFE00)))) ∧
    (apertureBad w1 = true → Traps { Entry.ends with priv := true } x (.aptset x) s s0 (s2.reservedTrap 32))) ∧
  (∀ (x : Ops) (s s0 s1 : State),
    let w := smGet (0, 0) (((s0.jobOn s0.curTile).map (·.apt)).getD []) (x.imm.toNat % 16)
    writeOpd x.d w.1 (s0.withRegs (fun r => r.put (pairNext x.d) w.2)) = .ok ((), s1) → Does .base x (.aptrd x) s s0 s1) ∧
  (∀ (x : Ops) (s s0 : State),
    (s0.me.released = true → Does { Entry.ends with own := true, group := true } x (.tickwait x) s s0
      (s0.setMe { s0.me with released := false, ready := false })) ∧
    (s0.me.released = false → Waits { Entry.ends with own := true, group := true } x (.tickwait x) s s0 (fun u =>
      let v := if u.me.ready then u else u.noteReady u.curTile
      let w := v.setMe { v.me with stalled := true, ready := true }
      match w.launchOn w.curTile with
      | some l => w.groupCheck l
      | none => w)) ∧
    Does { Entry.ends with group := true } x (.phaseend x) s s0 (s0.withAct .phaseEnd)) ∧
  (∀ (i : Instr) (e : Entry) (x : Ops) (lvl : Nat) (s s0 s1 s2 : State) (a : Word) (found : Option Nat),
    readA x s0 = .ok (a, s1) →
    ((i = .canl x ∧ e = .cancels ∧ lvl = 0 ∧ found = (s1.launches.find? (fun l =>
        some l.jid == (s1.jobOn s1.curTile).map (·.jid) && decide (l.state < 2) && word l.cnta == a)).map (·.id)) ∨
      (i = .cang x ∧ e = .cancels ∧ lvl = 1 ∧ found = (s1.runs.find? (fun r =>
        some r.jid == (s1.jobOn s1.curTile).map (·.jid) && r.state == 1 && r.grec == a)).map (·.id)) ∨
      (i = .canj x ∧ e = { Entry.cancels with priv := true, pf := true } ∧ lvl = 3 ∧ found = (s1.jobs.find? (fun j =>
        j.jid == a.toNat % 65536 && j.state == 1)).map (·.jid))) →
    writeOpd x.d (wordB found.isSome) s1 = .ok ((), s2) →
    Does e x i s s0 (match found with
      | some n => s2.withAct (.cancel lvl n)
      | none => s2)) ∧
  (∀ (x : Ops) (s s0 : State) (l : Nat), s0.launchOn s0.curTile = some l →
    Does { Entry.cancels with group := true } x (.canp x) s s0 (s0.withAct (.cancel 2 l))) ∧
  (∀ (x : Ops) (s s0 s1 s2 : State) (a : Word) (bs : List Byte), readA x s0 = .ok (a, s1) →
    loadAt 0 32 false a 32 s1 = .ok (bs, s2) →
    Does .ends x (.cbld x) s s0 (s2.withAct
      (.cbld (x.imm.toNat % 8) ((chunksOf 17 2 bs).map (fun e => BitVec.ofNat 16 (ofBytes e)))))) ∧
  (∀ (s : State) (t slot : Nat) (k : CoreK) (m : SMap Byte) (es : List (BitVec 16)), s.doAct t k m (.cbld slot es) =
    (s.updTile t (fun x => { x with cb := smPutList x.cb (16 * slot) es })).conflict [cbLine t slot]) ∧
  (∀ (s : State) (t slot : Nat) (k : CoreK) (h : Chunk) (es : List (BitVec 16)), (s.core t k).chunk = some h →
    (h.met = false ∨ h.single = true) → .cbld slot es ∈ h.acts → s.slotBusy t slot = true → s.tryCommit t k = s)

/-! # Events of cores and tiles -/

namespace Sys2Proof.Claims

/-- The events of a core that R387 takes at a boundary, by item. -/
def itemRow (i : Instr) : Option (Nat × CoreK × Nat) :=
  match i with
  | .busFaultTaken t => some (t, .c, 4)
  | .tickSlip t k => some (t, k, 7)
  | .cancel t k => some (t, k, 8)
  | .preemptForced t k => some (t, k, 3)
  | _ => none

/-- A core that runs a task, with nothing in flight and no delay slot, join or enrolment under way. -/
def AtBoundary (s : State) (t : Nat) (k : CoreK) : Prop :=
  (s.core t k).run = .running ∧ (s.core t k).chunk = none ∧ (s.core t k).regs.slot = none ∧ s.midway t k = false

/-- A pass of the placer over entries of its list, from `s` to `u`: each is placed, or does not fit and is no aged launch. -/
def Passes : State → List Wait → State → Prop
  | s, [], u => u = s
  | s, w :: ws, u => (∃ v, s.placeOne w = some v ∧ Passes v ws u) ∨
      (s.placeOne w = none ∧ s.isAged w = false ∧ Passes s ws u)

/-- A launch as dispatch takes it from its descriptor: QUEUED. -/
def queuedLaunch (s : State) (j : Job) (d : List Word) (run : Option Nat) : Launch :=
  { id := s.nextId, jid := j.jid, d := d, state := 0, cause := 0, ended := 0, cancelledN := 0, queuedAt := s.gtc, placedAt := 0
    tiles := [], aged := false, cancelled := false, saved := [], run := run, grp := none, slice := [], grp0 := none }

/-- A run behind a node that has run. -/
def passedNode (r : Run) : Run := { r with nodesRun := r.nodesRun + 1, waitL := none, atLoop := false }

end Sys2Proof.Claims

/-- R79, R83, R86, R163, R188 to R191, R205, R206, R387, R391, R404: a due event is taken at a boundary, and an event that is not
the next one due, or that a solo token of another core holds back, changes nothing; a phase cancel that is taken keeps its phase from being measured; SEM_GRANT subtracts the
threshold from the semaphore in one action, and the core's turn is next; a chunk that is not closed does not commit; an overflow
goes to the core that takes it, with the overflows that came behind it, or is counted when none does; a relaxed atomic of the choice
is performed (which one is open; the choice list is the model's, log entry 17), and those that overlap in their order; a walk
answers the misses that wait for it; a lost link is reported (with an answer of the side-band controller whose bytes are open: the
model's choice, log entry 18) and every core that waits on it takes the check; a cancel ends a task that stands halted. -/
def Obligations.CoreEventsAreTakenAtBoundaries : Prop :=
  (∀ (i : Instr) (t : Nat) (k : CoreK) (n : Nat) (s : State), itemRow i = some (t, k, n) →
    ((s.nextItem t k ≠ some n ∨ s.soloBlocked t k = true) → exec i s = .next s) ∧
    (s.nextItem t k = some n → s.soloBlocked t k = false → AtBoundary s t k → exec i s = .next (s.takeItem t k n))) ∧
  (∀ (s : State) (t : Nat) (k : CoreK) (n : Nat) (p : PendEv), (n = 1 ∨ 4 ≤ n) →
    (s.core t k).pend.find? (fun p => p.item == n) = some p →
    s.takeItem t k n =
      ((if n = 8 then s.unmeasured t else s).setCore t k { s.core t k with pend := (s.core t k).pend.erase p }).takeAsync t k p.info) ∧
  (∀ (s : State) (t id : Nat) (l : Launch), s.launchOn t = some id → s.launch? id = some l →
    s.unmeasured t = s.setLaunch { l with grp := l.grp.map (fun g => { g with cancelledPhase := true }) }) ∧
  (∀ (s : State) (t : Nat) (k : CoreK), (s.core t k).cancelled = true → (s.core t k).run = .halted →
    exec (.cancelStop t k) s = .next (s.taskEnd t k true)) ∧
  (∀ (s : State) (t : Nat) (k : CoreK), (s.core t k).cancelled = false → exec (.cancelStop t k) s = .next s) ∧
  (∀ (s : State) (t : Nat) (k : CoreK),
    ((s.core t k).chunk.any (fun h => h.closed) = true → exec (.chunkCommit t k) s = .next (s.tryCommit t k)) ∧
    ((s.core t k).chunk.any (fun h => h.closed) = false → exec (.chunkCommit t k) s = .next s)) ∧
  (∀ (s : State) (t : Nat) (k : CoreK),
    let u := { s with choices := s.choices.tail }
    let as := (u.core t k).atoms.filter (fun a => a.use == 3 || !u.soloBlocked t k)
    (as = [] → exec (.atomicPerform t k) s = .next u) ∧
    ∀ a, as[s.choices.headD 0 % as.length]? = some a → exec (.atomicPerform t k) s =
      .next (u.performSome t k (fun b => b = a))) ∧
  (∀ (s : State) (t : Nat) (k : CoreK) (p : RAtom → Bool) (a b : RAtom),
    ((s.core t k).atoms = [a] → p a = true →
      s.performSome t k p = (s.updCore t k (fun c => { c with atoms := [] })).performAtom t k a) ∧
    ((s.core t k).atoms = [a, b] → p a = false → a.overlaps b = false → p b = true →
      s.performSome t k p = (s.updCore t k (fun c => { c with atoms := [a] })).performAtom t k b) ∧
    ((s.core t k).atoms = [a, b] → a.overlaps b = true → p b = true →
      s.performSome t k p = ((s.updCore t k (fun c => { c with atoms := [] })).performAtom t k a).performAtom t k b)) ∧
  (∀ (s : State) (t : Nat), ∃ u, exec (.semGrant t) s = .next u ∧
    ∀ k sem n, k ∈ CoreK.all → (s.core t k).run = .running → (s.core t k).granted = false →
      (s.core t k).waiting = some (sem, n) → n ≤ (s.tile t).sem sem →
      (∀ j, j ∈ CoreK.all → j ≠ k → (s.core t j).waiting = none) → sem < 256 → s.canIssue t k = true →
      u.agenda = ⟨0, .core t k⟩ :: s.agenda ∧ (u.tile t).semPtr = k ∧ (u.core t k).granted = true ∧ (u.tile t).sem sem = (s.tile t).sem sem - n ∧
      ∀ m, m < 256 → m ≠ sem → (u.tile t).sem m = (s.tile t).sem m) ∧
  (∀ (s : State) (t : Nat), ((s.tile t).semOvf = none → exec (.semOverflow t) s = .next s) ∧
    ∀ o, (s.tile t).semOvf = some o →
      let u := s.setTile t { s.tile t with semOvf := none }
      let given := fun (k : CoreK) => u.updCore t k (fun c => { c with
        pend := c.pend ++ [{ item := 6, info := semOvfTrap t o.sem o.by_ o.again, more := o.again }] })
      ((s.core t .c).run ≠ .off → exec (.semOverflow t) s = .next (given .c)) ∧
      (∀ k, (s.tile t).ovfCore = some k → exec (.semOverflow t) s = .next (given k)) ∧
      ((s.tile t).ovfCore = none → exec (.semOverflow t) s = .next (u.count 0x70 (1 + o.again)))) ∧
  (∀ (s : State) (die n : Nat) (ctx : Byte) (va : Word) (write : Bool),
    let t := 256 * die
    (walkerOf t va.toNat = 64 * die + n →
      exec (.translationWalk die n ctx va write) s = .next (s.walkDone t ctx va write)) ∧
    (walkerOf t va.toNat ≠ 64 * die + n → exec (.translationWalk die n ctx va write) s = .next s) ∧
    ((∀ v k m, m ∈ (s.core v k).walks → m.ans.isSome = true ∨ m.write ≠ write ∨
      m.va / 2 ^ 16 ≠ va.toNat % 2 ^ 56 / 2 ^ 16) → s.walkDone t ctx va write = s)) ∧
  (∀ (s u : State) (t log cause : Nat) (k : CoreK) (m : Miss) (e : Word) (p : Place) (code : Byte),
    let q : XReq := { root := ((s.jobOn t).map (·.root)).getD (2 ^ 40), ctx := (s.core t k).cctx,
                      priv := (s.core t k).regs.priv, write := m.write, mmv := false, vec := m.vec, atom := m.atom, home := m.home }
    let told := fun (v : State) (a : WalkAns) => v.updCore t k (fun c => { c with
      walks := c.walks.map (fun m' => if m' = m then { m with ans := some a } else m') })
    (s.walkFor t (s.vfOn t) q m.va = .ok ((e, log, p), u) → s.walkAnswer t k m = told u (.leaf e log)) ∧
    (s.walkFor t (s.vfOn t) q m.va = .error (code, cause) → s.walkAnswer t k m = told s (.fault code cause))) ∧
  (∀ (s : State) (c : MCheck), c.code ≠ 0xF2 → c.code ≠ 0xF3 → c.code ≠ 0xF5 → exec (.machineCheck c) s = .next s) ∧
  (∀ (s : State) (c : MCheck), c.code = 0xF3 → exec (.machineCheck c) s = .next
    ((s.logCheck c.t c.code c.cfad).linkCheck c)) ∧
  (∀ (s : State) (c : MCheck), (s.linkCheck c).side.answers = Config.answer s.free [0xF3] :: s.side.answers ∧
    (c.more = [] → (s.core c.t c.k).run ≠ .off → ((s.linkCheck c).core c.t c.k).pend = (s.core c.t c.k).pend ++
      [{ item := 1, info := mkTrap c.code c.cfad c.kind.toNat c.space.toNat c.t 0 }])) ∧
  (∀ (s : State) (t : Nat) (k : CoreK),
    (∀ id, (s.core t k).stalled = false → exec (.remoteBlockReread t k id) s = .next s) ∧
    (∀ h e, (s.core t k).stalled = true → (s.core t k).chunk = some h → h.binds = true → (s.core t k).ext = some e →
      exec (.remoteBlockReread t k e.id) s = .next (s.setCore t k { s.core t k with ext := none })))

/-- R72, R175, R189, R190, R389, R396, R401, R403: saving, restoring and draining: a tile with no watch, or whose watch is not at
that stage, is left alone; a complete record frees the tile and keeps the watch as SAVED; a restore is a pass
of the placer, and none where nothing is saved. A slice (which launches are slices, and when one slips, is the model's choice, log
entry 45) that has started, or whose allowance has not run out, does not slip; one that slips is stopped on its tiles, and when its
engines have come to their end it is put back to its start: each of its watches that stands on a tile comes back as it was restored,
or as a new one, and its cores take GANG_SLIP. A tile that has drained is free, its tags FREE and its P zero. -/
def Obligations.SavesAndRestoresMoveWatches : Prop :=
  (∀ (s : State) (t : Nat), (s.tile t).watch = none → exec (.watchSave t) s = .next s ∧ exec (.saveComplete t) s = .next s) ∧
  (∀ (s : State) (t : Nat) (w : Watch), (s.tile t).watch = some w →
    (w.st ≠ .saving → exec (.watchSave t) s = .next s) ∧ (w.st ≠ .written → exec (.saveComplete t) s = .next s)) ∧
  (∀ (s : State) (t : Nat) (w : Watch) (j : Job), (s.tile t).watch = some w → w.st = .saving →
    (s.tile t).draining = false → (s.suspendCopies t).enginesIdle t = true →
    (s.suspendCopies t).job? w.jid = some j →
    exec (.watchSave t) s = .next
      (((((CoreK.all.foldl (fun u k => u.saveCore t k) (s.suspendCopies t)).saveTail t).saveRecord j t w.vtn)).updTile t
        (fun x => { x with watch := some { w with st := .written } }))) ∧
  (∀ (s : State) (t : Nat) (w : Watch) (j : Job) (l : Launch), (s.tile t).watch = some w → w.st = .written →
    s.job? w.jid = some j → s.launch? w.launch = some l →
    ∃ u, exec (.saveComplete t) s = .next u ∧
      (l.cancelled = false → (u.tile t).watch = none ∧
        ∃ l', u.launch? w.launch = some l' ∧ l'.saved.any (fun v => v.vtn == w.vtn) = true)) ∧
  (∀ (s : State) (id : Nat), (s.launch? id).any (fun x => !x.saved.isEmpty) = false →
    exec (.watchRestore id) s = .next s) ∧
  (∀ (s : State) (id : Nat) (l : Launch), s.launch? id = some l → l.saved ≠ [] →
    exec (.watchRestore id) s = .next s.placePass) ∧
  (∀ (s : State) (id : Nat), (s.launch? id = none ∨ (∃ l, s.launch? id = some l ∧ (l.state ≠ 1 ∨ l.cancelled = true ∨
      l.grp.all (fun g => !g.slipping && (g.started || g.s0.all (fun s0 => decide (s.gtc ≤ s.slipDeadline s0)))) = true))) →
    exec (.gangSlip id) s = .next s) ∧
  (∀ (s : State) (id s0 : Nat) (l l' : Launch) (g : Group) (j : Job), s.launch? id = some l → l.grp = some g → s.job? l.jid = some j →
    g.s0 = some s0 → l.state = 1 → l.cancelled = false → (g.slipping = true ∨ (g.started = false ∧ s.slipDeadline s0 < s.gtc)) →
    let u := l.tiles.foldl (fun s t => s.slipStop t) s
    u.launch? id = some l' →
    (l'.tiles.all u.enginesIdle = true → exec (.gangSlip id) s = .next (u.slipBack l' j s0)) ∧
    (l'.tiles.all u.enginesIdle = false →
      exec (.gangSlip id) s = .next (u.setLaunch { l' with grp := l'.grp.map (fun g => { g with slipping := true }) }))) ∧
  (∀ (s : State) (t : Nat) (l : Launch) (j : Job) (w : Watch), (s.tile t).watch = some w →
    let off := fun (u : State) => (CoreK.all.filter (fun k => (u.core t k).run == .off)).length
    (∀ v, l.slice.find? (fun v => v.vtn == w.vtn) = some v →
      let u := (s.restoreOn l j v t).putKept t v.kept
      s.slipWatch l j t = (u.countBack l.id (off s - off u)).pendSlip t) ∧
    (l.slice.find? (fun v => v.vtn == w.vtn) = none →
      let u := s.placeAnew l j w.grid t
      s.slipWatch l j t = (u.countBack l.id (off s - off u)).pendSlip t)) ∧
  (∀ (s : State) (t : Nat) (k : CoreK), ((s.pendSlip t).core t k).pend = (s.core t k).pend ++
    (if (s.core t k).run = .off then [] else [{ item := 9, info := groupTrap t Code.gangSlip }])) ∧
  (∀ (s : State) (t : Nat), exec (.tileDrainDone t) s = .next (s.drainDone t)) ∧
  (∀ (s : State) (t : Nat), s.drained t = false → s.drainDone t = s) ∧
  (∀ (s : State) (t id : Nat) (l : Launch), s.drained t = true → (s.tile t).drainOf = some id → s.launch? id = some l →
    let u := (s.setTile t { s.tile t with
      watch := none, draining := false, drainOf := none, drain := 0, tags := [], pcnt := [] }).count 0x48 (s.tile t).drain
    s.drainDone t = ((u.setLaunch { l with tiles := l.tiles.filter (fun v => v != t) }).launchSettle id).migSettle)

/-- R174, R175, R179 to R181, R187, R373, R374: a dispatched launch is queued, or refused with the lowest cause that holds; the
placer places what fits, in the order of its list, and nothing behind an aged launch that does not, for which it asks watches to
leave; a graph's nodes do what their kind says, on a node of that kind alone (that a jump of a COND out of a loop's body leaves the
loop is the model's choice, log entry 22); a run that runs off its last node ends FAULTED there; a comparator is armed once, and a start that has not come releases nothing. -/
def Obligations.LaunchesAndGraphsProceed : Prop :=
  (∀ (s : State) (jid : Nat) (a : Word), (s.job? jid = none → exec (.launchDispatch jid a) s = .next s) ∧
    ∀ j, s.job? jid = some j → exec (.launchDispatch jid a) s = .next (s.dispatch j (a.toNat % 2 ^ 56) none).2) ∧
  (∀ (s u : State) (j : Job) (a : Nat) (f : Byte × Nat), State.gBytes { s with nextId := s.nextId + 1 } j a 128 = .error f →
    u = (s.dispatch j a none).2 →
    u.mem = s.mem ∧ u.launches.length = s.launches.length + 1 ∧
    (u.launches.getLast?.any (fun l => l.state == 3 && l.cause == 9)) = true) ∧
  (∀ (s : State) (j : Job) (d : List Word),
    ((Word.bits (wd d 0) 56 8 ≠ 1 ∨ launchRz d = true ∨ 5 < dRmode d) ↔ 1 ∈ s.launchCauses j d) ∧
    ((dGang d = 0 ∨ 16 < dGang d ∨ dTiles d = 0 ∨ 1024 < dTiles d ∨ dTiles d % dGang d ≠ 0) ↔ 2 ∈ s.launchCauses j d) ∧
    (imageBad d = true ↔ 4 ∈ s.launchCauses j d) ∧ (carveBad d = true ↔ 5 ∈ s.launchCauses j d) ∧
    ((dCydl d < 1024 ∨ 2 ^ 20 < dCydl d) ↔ 6 ∈ s.launchCauses j d) ∧
    ((dFixed d = true ∧ dGang d ≠ 0 ∧ ∃ g, g < dTiles d / dGang d ∧
      ((dBase d + g * dGang d) / 16 ≠ (dBase d + g * dGang d + dGang d - 1) / 16 ∨
        0x3FF < dBase d + g * dGang d + dGang d - 1)) ↔ 3 ∈ s.launchCauses j d) ∧
    ((4096 < dVtBase d + dTiles d ∨ ∃ l ∈ s.launches, l.jid = j.jid ∧ l.state < 2 ∧
      overlaps (dVtBase l.d) (dTiles l.d) (dVtBase d) (dTiles d) = true) ↔ 7 ∈ s.launchCauses j d) ∧
    ((j.cancelled = true ∨ j.state ≠ 1) ↔ 0x0A ∈ s.launchCauses j d)) ∧
  (∀ (s u : State) (j : Job) (a : Nat) (run : Option Nat) (bs : List Byte),
    State.gBytes { s with nextId := s.nextId + 1 } j a 128 = .ok (bs, u) → (∀ x ∈ s.launches, x.id ≠ s.nextId) →
    let d := wordsOf bs
    let l := queuedLaunch s j d run
    let causes := u.launchCauses j d ++
      (if dSelTab d ≠ 0 ∧ ∃ p, u.selTable j d = .ok p ∧ selBad p.1 = true then [8] else []) ++
      (if u.launchFaults j l = [] then [] else [9])
    let p := s.dispatch j a run
    p.1 = s.nextId ∧ (causes = [] → p.2.launch? p.1 = some l) ∧
    ∀ c, c ∈ causes → (∀ b, b ∈ causes → c ≤ b) → p.2.launch? p.1 = some { l with state := 3, cause := c }) ∧
  (∀ (s : State), exec .launchPlace s = .next s.placePass) ∧
  (∀ (s u : State), Passes s s.waits u → s.placePass = u) ∧
  (∀ (s u : State) (pre post : List Wait) (w : Wait), s.waits = pre ++ w :: post → Passes s pre u → u.placeOne w = none →
    u.isAged w = true → s.placePass = u.requestFor w.id) ∧
  (∀ (s : State) (id : Nat), (s.requestFor id).launches = s.launches ∧ (s.requestFor id).mem = s.mem ∧
    ∀ t, ((s.requestFor id).tile t).watch.map (·.launch) = (s.tile t).watch.map (·.launch)) ∧
  (∀ (s : State) (l : Launch) (j : Job), s.job? l.jid = some j →
    (fitTiles s.tileFree l.d = none → s.placeLaunch l = none) ∧
    (∀ ts f, fitTiles s.tileFree l.d = some ts → s.gBytes j (dCodeVa l.d) (dCodeLen l.d) = .error f →
      let y := { l with state := 3, cause := 9 }
      s.placeLaunch l = some ((((s.noteBad f).setLaunch y).launchState y).refuseRun y)) ∧
    (∀ ts img u, fitTiles s.tileFree l.d = some ts → s.gBytes j (dCodeVa l.d) (dCodeLen l.d) = .ok (img, u) →
      s.launch? l.id = some l → (CoreK.all.any (fun k => dTask l.d k)) = true →
      ∃ v y, s.placeLaunch l = some v ∧ v.launch? l.id = some y ∧ y.state = 1 ∧ y.tiles = ts)) ∧
  (∀ (free : Nat → Bool) (d : List Word) (ts : List Nat), 0 < dGang d → dTiles d % dGang d = 0 → fitTiles free d = some ts →
    ts.length = dTiles d ∧ (∀ t, t ∈ ts → free t = true) ∧
    (dFixed d = true → ts = (List.range (dTiles d)).map (dBase d + ·))) ∧
  (∀ (s : State) (l : Nat) (x : Launch), s.launch? l = some x →
    (x.state = 0 → x.queuedAt + 2000000 < s.gtc →
      exec (.launchAged l) s = .next (s.setLaunch { x with aged := true }).placePass) ∧
    ((x.state ≠ 0 ∨ s.gtc ≤ x.queuedAt + 2000000) → exec (.launchAged l) s = .next s)) ∧
  (∀ (s : State) (i : Instr) (r : Nat), (i = .graphNodeEnd r ∨ i = .graphNodeLaunch r ∨ i = .graphNodeJoin r ∨
      i = .graphNodeCond r ∨ i = .graphNodeLoop r) →
    (s.run? r = none → exec i s = .next s) ∧
    (∀ x, s.run? r = some x → (x.state ≠ 1 ∨ x.cancelled = true) → exec i s = .next s)) ∧
  (∀ (s u : State) (r : Nat) (x : Run) (j : Job) (bs : List Byte), s.run? r = some x → s.job? x.jid = some j →
    x.state = 1 → x.cancelled = false → s.vfHeld j = false →
    s.gBytes j ((x.addr.toNat + 32 + 32 * x.node) % 2 ^ 56) 32 = .ok (bs, u) →
    let n := wordsOf bs
    let kind := Word.bits (wd n 0) 60 4
    (nodeBad n = true → exec (.graphNodeEnd r) s = .next (u.runFault x 1)) ∧
    (nodeBad n = false → kind = 0 → x.launches.any u.launchRefused = false → x.launches.all u.launchOver = true →
      let y := { x with state := 2, nodesRun := x.nodesRun + 1 }
      exec (.graphNodeEnd r) s = .next ((((u.setRun y).runRecord y).jobCount j 1 0).jobSettle y.jid)) ∧
    (nodeBad n = false → kind = 1 → x.waitL = none → (wd n 0).getLsbD 55 = false →
      let p := u.dispatch j ((wd n 1).toNat % 2 ^ 56) (some x.id)
      let y := { x with launches := x.launches ++ [p.1], dispatched := x.dispatched + 1 }
      let v := (p.2.setRun y).runCounts y
      v.launchRefused p.1 = false → exec (.graphNodeLaunch r) s = .next (v.goOn y (afterNode y.node y.loops))) ∧
    (nodeBad n = false → kind = 2 → x.launches.any u.launchRefused = false → x.launches.all u.launchOver = true →
      exec (.graphNodeJoin r) s = .next (u.goOn x (afterNode x.node x.loops))) ∧
    (∀ cs v, nodeBad n = false → kind = 3 → Word.bits (wd n 0) 32 12 < x.nnodes →
      u.gRead j ((wd n 1).toNat % 2 ^ 56) 4 = .ok (cs, v) →
      exec (.graphNodeCond r) s = .next (v.goOn x
        (if relHolds (Word.bits (wd n 0) 56 4) 32 (ofBytes cs) (Word.bits (wd n 2) 0 32) then
          (Word.bits (wd n 0) 32 12, x.loops.dropWhile (fun f =>
            !(decide (f.node < Word.bits (wd n 0) 32 12) && decide (Word.bits (wd n 0) 32 12 ≤ f.bend))))
        else afterNode x.node x.loops))) ∧
    (∀ cs v, nodeBad n = false → kind = 4 → x.node < Word.bits (wd n 0) 8 12 → Word.bits (wd n 0) 8 12 < x.nnodes →
      x.loops = [] → u.gRead j ((wd n 1).toNat % 2 ^ 56) 64 = .ok (cs, v) → (wd (wordsOf cs) 0).getLsbD 63 = true →
      let c := Word.bits (wd (wordsOf cs) (1 + Word.bits (wd n 0) 0 2)) 0 32
      exec (.graphNodeLoop r) s = .next (if c = 0 then v.goOn x (afterNode (Word.bits (wd n 0) 8 12) [])
        else v.goOn x (x.node + 1, [{ node := x.node, bend := Word.bits (wd n 0) 8 12, left := c }]))) ∧
    (∀ cs v, nodeBad n = false → kind = 4 → x.node < Word.bits (wd n 0) 8 12 → Word.bits (wd n 0) 8 12 < x.nnodes →
      x.loops = [] → u.gRead j ((wd n 1).toNat % 2 ^ 56) 64 = .ok (cs, v) → (wd (wordsOf cs) 0).getLsbD 63 = false →
      exec (.graphNodeLoop r) s = .next (v.setRun { x with atLoop := true }))) ∧
  (∀ (s : State) (r : Run) (next : Nat × List LoopFr),
    (r.nnodes ≤ next.1 → s.goOn r next = ((s.setRun (passedNode r)).runCounts (passedNode r)).runFault (passedNode r) 2) ∧
    (next.1 < r.nnodes → let y := { passedNode r with node := next.1, loops := next.2 }
      s.goOn r next = (s.setRun y).runCounts y)) ∧
  (∀ (i : Nat) (f : LoopFr) (rest : List LoopFr), (i ≠ f.bend → afterNode i (f :: rest) = (i + 1, f :: rest)) ∧
    (i = f.bend → 1 < f.left → afterNode i (f :: rest) = (f.node + 1, { f with left := f.left - 1 } :: rest))) ∧
  (∀ (s : State) (id : Nat), exec (.tickArm id) s = .next (s.tickArm id) ∧
    (∀ l g, s.launch? id = some l → l.grp = some g → g.start.isSome = true → s.tickArm id = s) ∧
    (∀ l g p, s.launch? id = some l → l.grp = some g → s.planOf l = some p → g.start = none → g.st ≠ .late →
      s.gtc ≤ planStart p (g.nextStart p).1 (g.nextStart p).2 →
      s.tickArm id = s.setLaunch { l with grp := some { g with
        start := some (planStart p (g.nextStart p).1 (g.nextStart p).2), come := false } })) ∧
  (∀ (s : State) (jid id at_ : Nat) (l : Launch) (g : Group), s.launch? id = some l → l.grp = some g → g.start = some at_ →
    (s.gtc < at_ → exec (.tickStartEvent jid (some id)) s = .next s) ∧
    (at_ ≤ s.gtc → l.jid = jid → g.come = false →
      exec (.tickStartEvent jid (some id)) s = .next (s.startCome l g (decide (at_ < s.gtc)))) ∧
    (g.come = true → exec (.tickStartEvent jid (some id)) s = .next s))

/-! # Queues and packets -/

namespace Sys2Proof.Claims

/-- A command processor has picked a queue: its class and the rotation remember it (R372). -/
def picked (x : Queue) (q : Nat) (s : State) : State :=
  { s with rotLast := smPut s.rotLast x.pri (q + 1), rotPos := (s.rotPos + 1) % 15 }

/-- The packet that starts: the one fetched, when word 0 still reads the same, or else the one read whole now (R369). -/
def readTwice (w0 : List Word) (w1 : Word) (whole : Option (List Word)) (w : List Word) : Prop :=
  (wd w0 0 = w1 ∧ w = w0) ∨ (wd w0 0 ≠ w1 ∧ whole = some w ∧ w.length = 8)

/-- The packet instructions: their queue and kind (R368). -/
def packetRow (i : Instr) : Option (Nat × Nat) :=
  match i with
  | .packetNop q => some (q, 0)
  | .openJob q => some (q, 1)
  | .closeJob q => some (q, 2)
  | .runGraph q => some (q, 3)
  | .packetCancel q => some (q, 4)
  | .waitMem q => some (q, 5)
  | .writeMem q => some (q, 6)
  | _ => none

/-- The packet that a packet instruction works on: the oldest of its kind whose work is not done. -/
def workOn (s : State) (q k : Nat) : Option Started := (s.queue q).active.find? (fun e => pkKind e.w == k && e.st != 2)

/-- A packet has come to a stage: 1 when it still waits, 2 when its work is done. -/
def staged (s : State) (q : Nat) (e : Started) (st : Nat) (run : Option Nat) : State :=
  s.setQueue q { s.queue q with
    active := (s.queue q).active.map (fun y => if y.idx = e.idx then { y with st := st, run := run } else y) }

/-- The job that a packet names. -/
def jobOf (s : State) (e : Started) : Option Job := s.job? (pkJid e.w)

/-- ARG0 of a packet as an address of its job. -/
def arg0 (e : Started) : Nat := (wd e.w 1).toNat % 2 ^ 56

end Sys2Proof.Claims

/-- R367, R369 to R372, R430: the registers of a queue, as they are written and as the host reads them; a packet is read ahead
only in its window, once, from QBASE + 64·(i mod 2^LOG2N) in host memory, and a failed read halts the queue with cause 0x03; a
ready queue of the class at hand, or of the highest class, is picked; word 0 of its packet is read again, and the whole of it when
that has changed; then it starts, or halts the queue with the lowest cause that holds. An OPEN_JOB that starts takes its descriptor
with it. That clearing HALT keeps CAUSE, that a write of TAIL or HEAD drops the packets fetched outside the window, and that a pick
which halts its queue moves the rotation on, is the model's choice (log entry 23). -/
def Obligations.QueuesFetchAndStartPackets : Prop :=
  (∀ (s : State) (q : Nat) (v : Word), q < 1040 →
    let x := s.queue q
    exec (.queueTailWrite q v) s = .next (s.setQueue q (Queue.trim { x with tail := v.toNat % 2 ^ 32 })) ∧
    (x.halt = true →
      exec (.queueHeadWrite q v) s = .next (s.setQueue q (Queue.trim { x with head := v.toNat % 2 ^ 32 }))) ∧
    (x.halt = false → ∃ u, exec (.queueHeadWrite q v) s = .next u ∧ ∀ p, u.queue p = s.queue p) ∧
    (v.getLsbD 63 = true → exec (.queueHaltClear q v) s = .next (s.setQueue q { x with halt := false })) ∧
    (v.getLsbD 63 = false → exec (.queueHaltClear q v) s = .next s) ∧
    ∃ u, exec (.queueEnableWrite q v) s = .next u ∧ (∀ p, p ≠ q → u.queue p = s.queue p) ∧
      (u.queue q).en = v.getLsbD 63 ∧
      { u.queue q with en := x.en, pri := x.pri, log2n := x.log2n } = x ∧
      (x.en = true ∨ s.frozen (q / 16) = true → (u.queue q).pri = x.pri ∧ (u.queue q).log2n = x.log2n) ∧
      (x.en = false → s.frozen (q / 16) = false → (u.queue q).pri = Word.bits v 58 2 ∧
        (u.queue q).log2n = if 4 ≤ Word.bits v 0 5 ∧ Word.bits v 0 5 ≤ 16 then Word.bits v 0 5 else 4)) ∧
  (∀ (x : Queue) (i : Nat), x.head < 2 ^ 32 → x.tail < 2 ^ 32 → i < 2 ^ 32 →
    (x.inWindow i = true ↔ ∃ d, d < 16 ∧ d < (x.tail + (2 ^ 32 - x.head)) % 2 ^ 32 ∧ i = (x.head + d) % 2 ^ 32)) ∧
  (∀ (s : State) (q i : Nat) (w : List Word), q < 1040 → w.length = 8 →
    let x := s.queue q
    let may := x.en = true ∧ x.halt = false ∧ x.inWindow i = true ∧ smFind x.fetched i = none
    (may → exec (.packetFetch q i (some w)) s =
        .next ((s.readRing q i 64).setQueue q { x with fetched := smPut x.fetched i w }) ∧
      exec (.packetFetch q i none) s = .next ((s.readRing q i 64).haltQueue q 3)) ∧
    (¬ may → ∀ data, exec (.packetFetch q i data) s = .next s)) ∧
  (∀ (s : State) (q i len : Nat), (s.readRing q i len).hostOut = s.hostOut ++
    [.ringRead (q / 16) ((s.queue q).qbase + word (64 * (i % 2 ^ (s.queue q).log2n))) len]) ∧
  (∀ (s : State) (q : Nat) (w0 : List Word) (w1 : Word) (whole : Option (List Word)),
    smFind (s.queue q).fetched (s.queue q).head = some w0 →
    s.reread q (some (w1, whole)) = (if w1 = wd w0 0 then s.readRing q (s.queue q).head 8
      else (s.readRing q (s.queue q).head 8).readRing q (s.queue q).head 64)) ∧
  (∀ (s : State) (f n ofs : Nat), f ≤ 64 → n < 16 → ofs < 64 → ofs % 8 = 0 →
    s.regRead f (0x1000 + 64 * n + ofs) = some ((s.queue (16 * f + n)).regRead ofs)) ∧
  (∀ x : Queue, x.done < 2 ^ 32 → x.log2n < 32 →
    x.regRead 0x00 = x.qbase ∧ x.regRead 0x10 = word x.tail ∧ x.regRead 0x18 = word x.head ∧
    (x.regRead 0x08).getLsbD 63 = x.en ∧ Word.bits (x.regRead 0x08) 58 2 = x.pri % 4 ∧
    Word.bits (x.regRead 0x08) 0 5 = x.log2n ∧ (x.regRead 0x20).getLsbD 63 = x.halt ∧
    Word.bits (x.regRead 0x20) 48 8 = x.cause % 256 ∧ Word.bits (x.regRead 0x20) 32 5 = x.fetched.length % 32 ∧
    Word.bits (x.regRead 0x20) 0 32 = x.done) ∧
  (∀ (s : State) (q c : Nat), q < 1040 →
    (s.haltQueue q c).queue q = { s.queue q with halt := true, cause := c } ∧
    ∀ p, p ≠ q → (s.haltQueue q c).queue p = s.queue p) ∧
  (∀ s : State,
    let ready := fun p : Nat × Queue => p ∈ s.queues ∧ s.queueReady p.1 p.2 = true
    let c := rotation.getD s.rotPos 0
    (s.pickQueue = none ↔ ∀ p, ¬ ready p) ∧
    (∀ q, s.pickQueue = some q → ∃ x, ready (q, x) ∧ ((∃ p, ready p ∧ p.2.pri = c) → x.pri = c) ∧
      ((¬ ∃ p, ready p ∧ p.2.pri = c) → ∀ p, ready p → p.2.pri ≤ x.pri)) ∧
    (s.pickQueue = none → ∀ again, exec (.packetStart again) s = .next s)) ∧
  (∀ (s : State) (q : Nat) (w0 w : List Word) (w1 : Word) (whole : Option (List Word)), s.pickQueue = some q →
    smFind (s.queue q).fetched (s.queue q).head = some w0 →
    let x := s.queue q
    let r := s.reread q (some (w1, whole))
    (readTwice w0 w1 whole w →
      (r.startCause q w = some 1 → exec (.packetStart (some (w1, whole))) s = .next (picked x q (r.haltQueue q 1))) ∧
      (∀ c, r.startCause q w = some c → c ≠ 1 → x.passed = false →
        exec (.packetStart (some (w1, whole))) s =
          .next (picked x q (((r.startCheck w c).elim r r.noteBad).haltQueue q c))) ∧
      (r.startCause q w ≠ some 1 → x.passed = true →
        exec (.packetStart (some (w1, whole))) s = .next (picked x q (r.haltQueue q 2))) ∧
      (r.startCause q w = none → x.passed = false → r.mayStart x w = true →
        exec (.packetStart (some (w1, whole))) s = .next (picked x q (r.setQueue q (Queue.trim { x with
          head := (x.head + 1) % 2 ^ 32
          active := x.active ++ [{ idx := x.head, st := 0, run := none
                                   w := if pkKind w = 1 then w ++ r.jobDesc (wd w 1).toNat else w }] })))) ∧
      (r.startCause q w = none → x.passed = false → r.mayStart x w = false →
        exec (.packetStart (some (w1, whole))) s = .next (r.setQueue q { x with fetched := smPut x.fetched x.head w }))) ∧
    (x.passed = false → exec (.packetStart none) s = .next (picked x q ((s.readRing q x.head 8).haltQueue q 3))) ∧
    (x.passed = false → wd w0 0 ≠ w1 → exec (.packetStart (some (w1, none))) s = .next (picked x q
      (((s.readRing q x.head 8).readRing q x.head 64).haltQueue q 3)))) ∧
  (∀ (s : State) (w : List Word), (s.startCheck w 4 = (s.badWord (hbmKey (wd w 1).toNat) 128).map (fun p => (0xF1, p))) ∧
    (∀ c, c ≠ 4 → c ≠ 8 → s.startCheck w c = none) ∧
    (∀ j f, s.job? (pkJid w) = some j → (wd w 1).toNat % 8 = 0 → (wd w 1).toNat < 2 ^ 56 →
      s.xlateJob j (pkKind w == 6) (wd w 1).toNat = .error f → s.startCheck w 8 = some f)) ∧
  (∀ (s : State) (q : Nat) (w : List Word), (pkBad w = true → s.startCause q w = some 1) ∧
    (pkBad w = false → pkKind w = 1 → s.openRefused q (s.jobDesc (wd w 1).toNat) = true → s.startCause q w = some 4) ∧
    (pkBad w = false → 2 ≤ pkKind w → s.job? (pkJid w) = none → s.startCause q w = some 5) ∧
    (∀ j, pkBad w = false → 2 ≤ pkKind w → s.job? (pkJid w) = some j → 16 ≤ q → j.vfn ≠ some (q / 16 - 1) →
      s.startCause q w = some 6) ∧
    (∀ j f, pkBad w = false → 5 ≤ pkKind w → s.job? (pkJid w) = some j → (q < 16 ∨ j.vfn = some (q / 16 - 1)) →
      ((wd w 1).toNat % 8 ≠ 0 ∨ 2 ^ 56 ≤ (wd w 1).toNat ∨ s.xlateJob j (pkKind w == 6) (wd w 1).toNat = .error f) →
      s.startCause q w = some 8) ∧
    (pkBad w = false → pkKind w = 0 → s.startCause q w = none))

/-- R171, R172, R179, R187, R189, R368, R370: NOP is done at once; OPEN_JOB makes its job resident and RUNNING; CLOSE_JOB waits for
the job's packets that have started and not begun, lets an idle job leave and cancels another first; RUN_GRAPH starts its run; CANCEL begins its cancel and waits for the record; WAIT_MEM
waits for its relation; WRITE_MEM stores; a job that closes leaves once the last of its packets is done; a packet whose work is done completes with CVAL at CADDR, DONE and the interrupt. -/
def Obligations.PacketsDoTheirWork : Prop :=
  (∀ (i : Instr) (q k : Nat) (s : State), packetRow i = some (q, k) → workOn s q k = none →
    (k = 3 ∨ k = 6 ∨ exec i s = .next s) ∧ (k = 3 ∨ k = 6 → exec i s = .next s.closeSettle)) ∧
  (∀ s : State, (∀ j ∈ s.jobs, j.closing = false) → s.closeSettle = s) ∧
  (∀ (s : State) (q : Nat) (e : Started), workOn s q 0 = some e → exec (.packetNop q) s = .next (staged s q e 2 none)) ∧
  (∀ (s : State) (q : Nat) (e : Started), workOn s q 1 = some e →
    exec (.openJob q) s = .next (staged (s.openJob (e.w.drop 8)) q e 2 none)) ∧
  (∀ (s : State) (d : List Word), ∃ j, (s.openJob d).jobs = s.jobs ++ [j] ∧ j.jid = jdJid d ∧ j.ctx = jdCtx d ∧
    j.vf = jdVf d ∧ j.pf = jdPf d ∧ j.pri = Word.bits (wd d 0) 38 2 ∧ j.root = (wd d 1).toNat ∧ j.saveb = wd d 2 ∧
    (j.ksbase, j.kscnt) = jdKs d ∧ j.jrec = wd d 5 ∧ j.state = 1 ∧ j.cancelled = false ∧ j.apt = [] ∧
    (wd d 3 = 0 → j.plan = none ∧ j.cause = 0) ∧ (j.cause ≠ 0 → j.plan = none ∧ j.cause = 1)) ∧
  (∀ (s : State) (q : Nat) (e : Started), workOn s q 2 = some e →
    let u := if e.st = 0 then s.closeJob (pkJid e.w) 0 else s
    (e.st = 0 → s.jobDue (pkJid e.w) = true → exec (.closeJob q) s = .next (staged s q e 0 none)) ∧
    (e.st ≠ 0 ∨ s.jobDue (pkJid e.w) = false →
      exec (.closeJob q) s = .next (staged u q e (if (jobOf u e).any (·.closing) then 1 else 2) none))) ∧
  (∀ (s : State) (j : Job) (c : Nat), s.job? j.jid = some j →
    (j.state ≠ 1 → s.closeJob j.jid c = s.freeJob j) ∧
    (j.state = 1 → s.jobIdle j = true → j.cancelled = false →
      s.closeJob j.jid c = ((((s.setJob { j with state := 2 }).jobState { j with state := 2 }).spillJob j.jid).freeJob
        { j with state := 2 })) ∧
    (j.state = 1 → s.jobIdle j = false → j.cancelled = false →
      s.closeJob j.jid c = (s.setJob { j with closing := true }).cancelJob j.jid c)) ∧
  (∀ (s : State) (j : Job) (k : Nat), (s.freeJob j).job? j.jid = none ∧
    (k ≠ j.jid → (s.freeJob j).job? k = s.job? k)) ∧
  (∀ (s : State) (q : Nat) (e : Started), workOn s q 3 = some e →
    (∀ r, e.run = some r → exec (.runGraph q) s =
      .next (staged s q e (if (s.run? r).any (fun x => x.state == 1) then 1 else 2) (some r)).closeSettle) ∧
    (∀ j r u, e.run = none → jobOf s e = some j → j.state = 1 → j.cancelled = false →
      s.startRun j (arg0 e) false = (r, u) → exec (.runGraph q) s =
        .next (staged u q e (if (u.run? r).any (fun x => x.state == 1) then 1 else 2) (some r)).closeSettle) ∧
    (∀ j, e.run = none → jobOf s e = some j → (j.state ≠ 1 ∨ j.cancelled = true) →
      exec (.runGraph q) s = .next (staged (s.deadRun j (arg0 e)) q e 2 none).closeSettle)) ∧
  (∀ (s : State) (q : Nat) (e : Started), workOn s q 4 = some e →
    (∀ n u, e.st = 0 → s.beginCancel e.w = (n, u) →
      exec (.packetCancel q) s = .next (staged u q e (if u.cancelOver e.w n then 2 else 1) n)) ∧
    (e.st = 1 → exec (.packetCancel q) s = .next (staged s q e (if s.cancelOver e.w e.run then 2 else 1) e.run)) ∧
    (pkLevel e.w = 4 → s.beginCancel e.w = (none, s.cancelJob (pkJid e.w) 0)) ∧
    (∀ l, pkLevel e.w = 1 → s.launches.find? (fun l => l.jid == pkJid e.w && decide (l.state < 2) &&
      word l.cnta == wd e.w 1) = some l → s.beginCancel e.w = (some l.id, s.cancelAll l.id 0)) ∧
    (∀ r, pkLevel e.w = 2 → s.runs.find? (fun r => r.jid == pkJid e.w && r.state == 1 && r.grec == wd e.w 1) = some r →
      s.beginCancel e.w = (some r.id, s.cancelRun r.id 0))) ∧
  (∀ (s u : State) (q : Nat) (e : Started) (j : Job) (bs : List Byte), workOn s q 5 = some e → jobOf s e = some j →
    s.gRead j (arg0 e) 8 = .ok (bs, u) → exec (.waitMem q) s =
      .next (staged u q e (if relHolds (pkRel e.w) 64 (ofBytes bs) (wd e.w 4).toNat then 2 else 1) none)) ∧
  (∀ (s : State) (q : Nat) (e : Started) (j : Job) (f : Byte × Nat), workOn s q 5 = some e → jobOf s e = some j →
    s.gRead j (arg0 e) 8 = .error f → exec (.waitMem q) s = .next (staged (s.noteBad f) q e 1 none)) ∧
  (∀ (s : State) (q : Nat) (e : Started) (j : Job), workOn s q 6 = some e → jobOf s e = some j →
    exec (.writeMem q) s = .next (staged (s.gPut j (arg0 e) (toBytes 8 (wd e.w 3).toNat)) q e 2 none).closeSettle) ∧
  (∀ (s : State) (q : Nat) (ok : Bool), (s.queue q).active.find? (fun e => e.st == 2) = none →
    exec (.packetComplete q ok) s = .next s) ∧
  (∀ (s : State) (q : Nat) (ok : Bool) (e : Started), q < 1040 → (s.queue q).active.find? (fun e => e.st == 2) = some e →
    let x := s.queue q
    let left := x.active.filter (fun y => y.idx != e.idx)
    ∃ u, exec (.packetComplete q ok) s = .next u ∧
      (wd e.w 6 = 0 ∨ ok = true → ∃ v, u = (if pkIrq e.w then v.raiseIrq (q / 16) (q % 16) else v) ∧
        v.queue q = { x with active := left, done := (x.done + 1) % 2 ^ 32 } ∧ v.pci = s.pci ∧
        v.hostOut = s.hostOut ++ (if wd e.w 6 ≠ 0 then [.write (wd e.w 6) (toBytes 8 (wd e.w 7).toNat)] else [])) ∧
      (wd e.w 6 ≠ 0 → ok = false → u.queue q = { x with active := left, halt := true, cause := 7 } ∧
        u.hostOut = s.hostOut))

/-! # The host, the side-band and starts -/

namespace Sys2Proof.Claims

/-- The error log's counter of refused window accesses. -/
def refusedWindow (s : State) : State := s.count 0x58 1

/-- The part's package state is that of a fresh start: no job, no launch, every queue disabled, every tile off. -/
def Fresh (u : State) : Prop :=
  u.jobs = [] ∧ u.launches = [] ∧ u.runs = [] ∧ (∀ q, (u.queue q).en = false) ∧ (∀ t k, (u.core t k).run = .off) ∧
  u.rsc.handles = [] ∧ u.rsc.slots = [] ∧ u.rsc.dom = none

end Sys2Proof.Claims

/-- R427 to R433, R436 to R438, R441: a register write reaches the queue register, DWIN, counter or migration field that its
offset names, and no other offset; a window access goes through DWIN's job, or is counted and dropped or aborted; WVAL_READ
takes and clears its word, but for a bad one; STOP, which asks the function's tiles to leave and is STOPPED once none is held (that
STOP = 0 in STOPPING returns to RUN is the model's choice, log entry 24); the mailbox; a vector sends its message, or is pending
while it is masked; read completions, of which a zero-length one ends the wait for the stores before it; the scrub; what a cold start, a warm start, a power-on and a Function Level
Reset leave (what a start and the rail switch keep or clear beside R436 and R437 is the model's choice, log entry 25); the side-band's
sensors, cap, rails (both on and the cap at 3,200 W at first: the model's choice, log entry 6), error log and address, and its
answers that the specification does not list. -/
def Obligations.HostAndSideBandRequests : Prop :=
  (∀ (s : State) (f n : Nat) (v : Word), f ≤ 64 → n < 16 →
    exec (.hostRegisterWrite f (0x1000 + 64 * n + 0x08) v) s = exec (.queueEnableWrite (16 * f + n) v) s ∧
    exec (.hostRegisterWrite f (0x1000 + 64 * n + 0x10) v) s = exec (.queueTailWrite (16 * f + n) v) s ∧
    exec (.hostRegisterWrite f (0x1000 + 64 * n + 0x18) v) s = exec (.queueHeadWrite (16 * f + n) v) s ∧
    exec (.hostRegisterWrite f (0x1000 + 64 * n + 0x20) v) s = exec (.queueHaltClear (16 * f + n) v) s ∧
    ((s.queue (16 * f + n)).en = false → s.frozen f = false → exec (.hostRegisterWrite f (0x1000 + 64 * n) v) s =
      .next (s.setQueue (16 * f + n) { s.queue (16 * f + n) with qbase := v &&& 0xFFFFFFFFFFFFF000 }))) ∧
  (∀ (s : State) (f ofs : Nat) (v : Word),
    (64 < f ∨ (ofs % 8 ≠ 0 ∧ (f ≠ 0 ∨ ofs ≠ 0x403F)) → exec (.hostRegisterWrite f ofs v) s = .next s) ∧
    (f ≤ 64 → s.frozen f = true → exec (.hostRegisterWrite f 0x2000 v) s = .next s) ∧
    (f ≤ 64 → s.frozen f = false → exec (.hostRegisterWrite f 0x2000 v) s =
      .next { s with dwin := smPut s.dwin f (v &&& 0x80FFFFF00000FFFF) }) ∧
    (f = 0 → Word.bits v 16 16 ≠ 0 → exec (.hostRegisterWrite f 0 v) s =
      .next { s with gslip := (s.gtc, BitVec.ofNat 16 (Word.bits v 16 16)) :: s.gslip }) ∧
    (f ≠ 0 → f ≤ 64 → ¬ (0x1000 ≤ ofs ∧ ofs < 0x1400) → ofs ≠ 0x2000 → ofs < 0x10000 → exec (.hostRegisterWrite f ofs v) s = .next s) ∧
    (ofs < 0x100 → ofs % 8 = 0 → exec (.hostRegisterWrite 0 (0x3000 + ofs) v) s = exec (.errorCounterClear ofs) s) ∧
    (isCounter ofs = true → exec (.errorCounterClear ofs) s = .next { s with errlog := smErase s.errlog ofs }) ∧
    (isCounter ofs = false → exec (.errorCounterClear ofs) s = .next s) ∧
    (∀ m, m < 64 → exec (.hostRegisterWrite 0 (0x5000 + 64 * m + 8) v) s =
      .next (s.setMig m { s.migOf m with widx := BitVec.ofNat 18 (Word.bits v 0 18) }))) ∧
  (∀ (s : State) (v : Word), Word.bits v 56 8 = 1 →
    let u := { s with side := { s.side with box := smPut s.side.box 7 v } }
    let code := Word.bits (smGet 0 u.side.box 0) 0 8
    (s.side.req.isSome = true → exec (.hostRegisterWrite 0 0x4038 v) s = .next (u.mboxAnswer 2 [])) ∧
    (s.side.req = none → (code < 1 ∨ 5 < code) → exec (.hostRegisterWrite 0 0x4038 v) s = .next (u.mboxAnswer 3 [])) ∧
    (s.side.req = none → 1 ≤ code → code ≤ 5 →
      exec (.hostRegisterWrite 0 0x4038 v) s = .next { u with side := { u.side with req := some code } })) ∧
  (∀ (s : State) (f v : Nat),
    ((s.pciFn f).unmasked v = true → let e := smGet MsixEntry.init (s.pciFn f).table v
      s.raiseIrq f v = { s with hostOut := s.hostOut ++ [.irq f v e.addr e.data] }) ∧
    ((s.pciFn f).unmasked v = false →
      s.raiseIrq f v = s.setPciFn f { s.pciFn f with pending := setAdd (s.pciFn f).pending v })) ∧
  (∀ (s : State) (f ofs : Nat),
    (∀ j, f ≤ 64 → ofs < 2 ^ 36 → (smGet 0 s.dwin f).getLsbD 63 = true →
      s.job? (Word.bits (smGet 0 s.dwin f) 0 16) = some j → j.vfn = fnVf f →
      s.window f ofs = some (j, (Word.bits (smGet 0 s.dwin f) 36 20 * 2 ^ 36 + ofs) % 2 ^ 56)) ∧
    ((smGet 0 s.dwin f).getLsbD 63 = false → s.window f ofs = none) ∧
    (s.window f ofs = none → ∀ (n : Nat) (bs : List Byte),
      exec (.hostWindowWrite f ofs bs) s = .next (refusedWindow s) ∧
      exec (.hostWindowRead f ofs n) s =
        .next { refusedWindow s with hostOut := s.hostOut ++ [.completerAbort] }) ∧
    (∀ j va n e, s.window f ofs = some (j, va) → s.windowPlaces j false va n = .error e →
      exec (.hostWindowRead f ofs n) s = .next { refusedWindow (s.noteBad e) with
        hostOut := (refusedWindow (s.noteBad e)).hostOut ++ [.completerAbort] }) ∧
    (∀ j va bs e, s.window f ofs = some (j, va) → s.windowPlaces j true va bs.length = .error e →
      exec (.hostWindowWrite f ofs bs) s = .next (refusedWindow (s.noteBad e))) ∧
    (∀ j va n p u b, s.window f ofs = some (j, va) → s.windowPlaces j false va n = .ok ([(p, n)], u) →
      u.badPlace p n = some b → exec (.hostWindowRead f ofs n) s = .next { u.noteBad (0xF1, b) with
        hostOut := (u.noteBad (0xF1, b)).hostOut ++ [.completerAbort] }) ∧
    (∀ j va n p u, s.window f ofs = some (j, va) → s.windowPlaces j false va n = .ok ([(p, n)], u) →
      u.badPlace p n = none → exec (.hostWindowRead f ofs n) s = .next { (u.placeBytes p n).2 with
        hostOut := (u.placeBytes p n).2.hostOut ++ [.readData (u.placeBytes p n).1] }) ∧
    (∀ j va p u bs, s.window f ofs = some (j, va) → s.windowPlaces j true va bs.length = .ok ([(p, bs.length)], u) →
      exec (.hostWindowWrite f ofs bs) s = .next (u.placeWrite 1024 (fnVf f) p bs))) ∧
  (∀ (s : State) (vf : Nat), 64 ≤ vf → exec (.wvalRead vf) s = .next s ∧ exec (.vfFlr vf) s = .next s ∧
    ∀ stop, exec (.migrationStop vf stop) s = .next s) ∧
  (∀ (s : State) (vf : Nat), s.Form → vf < 64 →
    let key := hbmKey ((s.migOf vf).dbase.toNat * 2 ^ 21 + 8 * (s.migOf vf).widx.toNat)
    (∀ p, s.badWord key 8 = some p → exec (.wvalRead vf) s = .next { s.logCheck 0 0xF1 (word p) with
      hostOut := (s.logCheck 0 0xF1 (word p)).hostOut ++ [.completerAbort] }) ∧
    (s.badWord key 8 = none → ∃ u, exec (.wvalRead vf) s = .next u ∧ u.hostOut = s.hostOut ++ [.readData (s.readBytes internalKey key 8)] ∧
      (∀ a, key ≤ a → a < key + 8 → memByte u.mem a = 0) ∧
      (∀ a, (a < key ∨ key + 8 ≤ a) → memByte u.mem a = memByte s.mem a))) ∧
  (∀ (s : State) (vf : Nat), vf < 64 →
    exec (.migrationStop vf false) s = .next (s.setMig vf { s.migOf vf with stop := false, state := 0 }) ∧
    ((s.migOf vf).state ≠ 0 → exec (.migrationStop vf true) s = .next (s.setMig vf { s.migOf vf with stop := true })) ∧
    ((s.migOf vf).state = 0 → s.tiles = [] → ∃ u, exec (.migrationStop vf true) s = .next u ∧
      u.migOf vf = { s.migOf vf with stop := true, state := 2 }) ∧
    ((s.migOf vf).state = 0 →
      let u := s.setMig vf { s.migOf vf with stop := true, state := 1 }
      exec (.migrationStop vf true) s = .next (u.tiles.foldl (fun v p =>
        if v.vfOn p.1 = some vf ∧ p.2.draining = false then v.requestNow p.1 else v) u).migSettle) ∧
    ((s.migOf vf).state = 1 → ((s.migSettle.migOf vf).state = 2 ↔ ∀ t ∈ s.tiles.map (·.1), s.vfOn t ≠ some vf))) ∧
  (∀ (s : State) (id : Nat) (data : Option (List Byte)),
    (s.hostReads.find? (fun r => r.id == id) = none → exec (.hostReadCompletion id data) s = .next s) ∧
    (∀ r bs, s.hostReads.find? (fun r => r.id == id) = some r → data = some bs → bs.length = r.len →
      let u := { s with hostReads := s.hostReads.filter (fun x => x.id != id) }
      exec (.hostReadCompletion id data) s = .next (if r.len = 0 then
          u.updCore r.t r.k (fun c => { c with hostAt := c.hostAt.filter (fun n => decide (r.id < n)) })
        else (u.updCore r.t r.k (fun c => c.answered id (some bs) false)).pieceAnswered r.t id bs))) ∧
  (∀ (s : State) (key : Nat), exec (.scrubPass key .good) s = .next s ∧
    (key < 2 ^ 40 → exec (.scrubPass key .correctable) s = .next ((s.count 0x10 1).count 0x08 1) ∧
      exec (.scrubPass key .uncorrectable) s =
        .next { s.count 0x10 1 with poison := setAdd s.poison (key / 32 * 32) }) ∧
    (2 ^ 44 ≤ key → key < 2 ^ 44 + 1024 * 2 ^ 22 →
      exec (.scrubPass key .correctable) s = .next ((s.count 0x10 1).count 0x00 1) ∧
      exec (.scrubPass key .uncorrectable) s =
        .next { s.count 0x10 1 with poison := setAdd s.poison (key / 8 * 8) })) ∧
  (∀ (s : State), ∃ u, exec .coldStart s = .next u ∧ Fresh u ∧ u.mem = [] ∧ u.errlog = [] ∧ u.cycle = s.cycle ∧
    u.trims = [Config.trim (s.rsc.start + 1) false, Config.trim (s.rsc.start + 1) true] ∧
    u.rsc.start = s.rsc.start + 1 ∧ u.rsc.signed = Config.rscSigned (s.rsc.start + 1) ∧
    (∃ v, exec .powerOn s = .next v ∧ { v with side := u.side } = u ∧ v.side.cap = Sideband.init.cap ∧
      v.side.dynAddr = Sideband.init.dynAddr) ∧
    (Config.storedParametersGood s.rsc.start = false → exec .warmStart s = .next u)) ∧
  (∀ (s : State), s.Form → Config.storedParametersGood s.rsc.start = true → ∃ u, exec .warmStart s = .next u ∧ Fresh u ∧
    u.errlog = s.errlog ∧ u.trims = s.trims ∧ u.rsc.start = s.rsc.start + 1 ∧ (∀ a, a < 2 ^ 40 → memByte u.mem a = memByte s.mem a) ∧
    (∀ a, 2 ^ 40 ≤ a → memByte u.mem a = 0)) ∧
  (∀ (s : State) (vf : Nat), vf < 64 → ∃ u, exec (.vfFlr vf) s = .next u ∧
    (∀ n, n < 16 → u.queue (16 * (vf + 1) + n) = Queue.init) ∧
    let v := (s.jobs.filter (fun j => j.vfn == some vf)).foldl (fun v j => v.closeJob j.jid 0) s
    u = { v with queues := smClear v.queues (16 * (vf + 1)) (16 * (vf + 2)), dwin := smErase v.dwin (vf + 1) }) ∧
  (∀ (s : State) (i : Instr) (w : List Word), (i = .pldmType0 w ∨ i = .pldmFirmwareUpdate w) →
    ∃ ws, exec i s = .next { s.sideAnswer ws with free := s.free + 1 }) ∧
  (∀ (s : State) (w : List Word), ∃ ws id, exec (.mctpControl w) s =
    .next { { s with side := { s.side with eid := id } }.sideAnswer ws with free := s.free + 1 }) ∧
  (∀ (s : State) (a : BitVec 7) (n : Nat),
    exec (.entdaa a) s = .next { s with side := { s.side with dynAddr := some a } } ∧
    (s.side.rails = false → exec (.sensorRead n) s = .next (s.sideAnswer []) ∧
      exec (.errorLogRead n) s = .next (s.sideAnswer []) ∧ exec (.railSwitch false) s = .next s) ∧
    (s.side.rails = true → (∃ v, exec (.sensorRead n) s = .next { s.sideAnswer [v] with free := s.free + 1 }) ∧
      exec (.errorLogRead n) s = .next (s.sideAnswer [smGet 0 s.errlog n]) ∧ exec (.railSwitch true) s = .next s ∧
      ∃ u, exec (.railSwitch false) s = .next u ∧ u.side.rails = false ∧ u.side.cap = s.side.cap ∧ u.mem = []) ∧
    (s.side.rails = false → exec (.railSwitch true) s = exec .coldStart s) ∧
    (500 ≤ n ∧ n ≤ 3200 → exec (.powerCapSet n) s = .next { s with side := { s.side with cap := n } }) ∧
    (n < 500 ∨ 3200 < n → exec (.powerCapSet n) s = .next s))

/-! # The fabric and the trust of the part -/

namespace Sys2Proof.Claims

/-- A request comes in its turn from a peer that is not broken: its tag verifies, its generation is accepted, its number is
the next one (R93, R420). -/
def InTurn (r : FabReq) (s : State) : Prop :=
  (s.peer r.src).broken = false ∧ s.soloPackage = false ∧ r.tagOk = true ∧ s.acceptsGen r.gen = true ∧
  r.seq = smGet 0 (s.peer r.src).recv r.gen.toNat

/-- The answer to another package, behind those before it. -/
def answeredWith (s u : State) (pkg seq : Nat) (a : Option (List Byte)) : Prop :=
  u.fabric.answers = s.fabric.answers ++ [(pkg, seq, a)]

/-- The Root Security Core's requests that a start with unsigned firmware leaves unanswered (R416). -/
def rscOnly (i : Instr) : Bool :=
  match i with
  | .manifest _ | .leave | .switch | .handle _ _ _ _ | .mlog _ | .domainForm _ | .domainKey _ _ _ _ _
  | .domainAck _   | .loadSlot _ _ _ _ | .unloadSlot _ _ | .getCapabilities _ _ | .negotiateAlgorithms _ _ | .getDigests _ _
  | .getCertificate _ _ _ | .challenge _ _ | .keyExchange _ _ _ | .finish _ _ | .keyUpdate _ | .heartbeat _
  | .endSession _ | .ideKm _ _ _ | .lockInterface _ _ | .stopInterface _ _ => true
  | _ => false

/-- The SPDM requests that only need a phase: session, the phase, the session's state after it (R415). -/
def spdmRow (i : Instr) : Option (Nat × Nat × (Session → Session)) :=
  match i with
  | .getVersion n _ => some (n, 0, fun _ => { phase := 1, betweenPackages := false, updates := 0 })
  | .getCapabilities n _ => some (n, 1, fun x => { x with phase := max x.phase 2 })
  | .getDigests n _ => some (n, 3, id)
  | .getCertificate n 0 _ => some (n, 3, id)
  | .challenge n _ => some (n, 3, id)
  | .keyExchange n b _ => some (n, 3, fun x => { x with phase := 4, betweenPackages := b })
  | .keyUpdate n => some (n, 5, fun x => { x with updates := x.updates + 1 })
  | .heartbeat n => some (n, 5, id)
  | _ => none

/-- The RSC has taken the mailbox request, and answers it (R433). -/
def taken (s : State) : State := { s with side := { s.side with req := none } }

/-- The mailbox requests and their codes (R433). -/
def boxRow (i : Instr) : Option Nat :=
  match i with
  | .manifest _ => some 1
  | .leave => some 2
  | .switch => some 3
  | .handle _ _ _ _ => some 4
  | .mlog _ => some 5
  | _ => none

/-- The mailbox answers with a status, and what stands beside it (R433). -/
def mailbox (s : State) (st : Nat) (ws : List Word) : State := s.mboxAnswer st ws

/-- The ports hold what a manifest says that each package exports. -/
def exporting (s : State) (m : Manifest) : State := { s with fabric := { s.fabric with exports := m.exports } }

/-- A session has finished its handshake (R415). -/
def isOpen (s : State) (n : Nat) : Prop := (s.session n).phase = 5

end Sys2Proof.Claims

/-- R93 to R96, R420: a request of another package is applied once, in its turn: a load answers its bytes, a store writes them,
an atomic answers the old word, a reduce-put makes its update and answers what it counted, and a read that meets an uncorrectable
error answers no bytes; a broken pair is ignored, a number already applied or ahead is not applied, a generation that is not
accepted is refused, the eighth failure in a row of one message's tag breaks its pair; a packet is applied as it arrives; an
acknowledgement reaches the core, the store, the array or the copy that waits for it, wherever its record is, and one that nothing
waits for changes nothing. That a request ahead of its turn is dropped and a bad word is answered with no bytes is the model's choice
(log entry 28), and so is that a refused piece of the array goes out again (log entry 34). -/
def Obligations.FabricRequestsAreAppliedOnce : Prop :=
  (∀ (r : FabReq) (s : State), InTurn r s → s.Form →
    let key := hbmKey r.pa
    (∀ n, r.op = .load n → ∃ u, exec (.fabricRequestApply r) s = .next u ∧ u.mem = s.mem ∧
      answeredWith s u r.src r.seq (some (if s.badWord key n = none then s.readBytes 0 key n else []))) ∧
    (∀ ety op srcs, r.op = .reduce ety op srcs → s.badWord key (srcs.headD []).length = none →
      let p := reduceBytes ety op (s.readBytes 0 key (srcs.headD []).length) srcs
      ∃ u, exec (.fabricRequestApply r) s = .next u ∧
        answeredWith s u r.src r.seq (some (toBytes 8 p.2.1 ++ toBytes 1 p.2.2)) ∧
        ∀ j, j < p.1.length → memByte u.mem (key + j) = p.1.getD j 0) ∧
    (∀ bs, r.op = .store bs → ∃ u, exec (.fabricRequestApply r) s = .next u ∧ answeredWith s u r.src r.seq (some []) ∧
      (∀ j, j < bs.length → memByte u.mem (key + j) = bs.getD j 0) ∧
      (r.vf = none → ∀ a, (a < key ∨ key + bs.length ≤ a) → memByte u.mem a = memByte s.mem a)) ∧
    (∀ op wide uns v nv, r.op = .atomic op wide uns v nv → s.badWord key ((if wide then 64 else 32) / 8) = none →
      let w := if wide then 64 else 32
      let old := s.readNat 0 key (w / 8)
      let new := atomicNew op w uns old (v.toNat % 2 ^ w) (nv.toNat % 2 ^ w)
      ∃ u, exec (.fabricRequestApply r) s = .next u ∧ answeredWith s u r.src r.seq (some (toBytes (w / 8) old)) ∧
        (new = none → u.mem = s.mem) ∧
        (∀ x, new = some x → ∀ j, j < w / 8 → memByte u.mem (key + j) = (toBytes (w / 8) x).getD j 0)) ∧
    (∀ u, exec (.fabricRequestApply r) s = .next u →
      smGet 0 (u.peer r.src).recv r.gen.toNat = r.seq + 1 ∧
      (u.peer r.src).tagFails = smErase (s.peer r.src).tagFails (requestName r))) ∧
  (∀ (s : State) (pkg name : Nat),
    let n := smGet 0 (s.peer pkg).tagFails name + 1
    let u := s.setPeer pkg { s.peer pkg with tagFails := smPut (s.peer pkg).tagFails name n }
    (n ≠ 8 → s.tagFailed pkg name = u) ∧ (n = 8 → s.tagFailed pkg name = u.breakPair pkg ∧
      ((u.breakPair pkg).peer pkg).broken = true)) ∧
  (∀ (r : FabReq) (s : State), s.soloPackage = false →
    let p := s.peer r.src
    let t := s.setPeer r.src { p with tagFails := smErase p.tagFails (requestName r) }
    (p.broken = true → exec (.fabricRequestApply r) s = .next s) ∧
    (p.broken = false → r.tagOk = false → exec (.fabricRequestApply r) s = .next (s.tagFailed r.src (requestName r))) ∧
    (p.broken = false → r.tagOk = true → r.seq < smGet 0 p.recv r.gen.toNat → exec (.fabricRequestApply r) s = .next t) ∧
    (p.broken = false → r.tagOk = true → smGet 0 p.recv r.gen.toNat < r.seq → s.acceptsGen r.gen = true →
      exec (.fabricRequestApply r) s = .next t) ∧
    (p.broken = false → r.tagOk = true → smGet 0 p.recv r.gen.toNat ≤ r.seq → s.acceptsGen r.gen = false →
      exec (.fabricRequestApply r) s = .next (t.answerFab r.src r.seq none))) ∧
  (∀ (p : FabPkt) (s : State), s.soloPackage = false →
    ((s.peer p.src).broken = true → exec (.fabricDataPacket p) s = .next s) ∧
    ((s.peer p.src).broken = false → p.tagOk = false →
      exec (.fabricDataPacket p) s = .next (s.tagFailed p.src (packetName p))) ∧
    ((s.peer p.src).broken = false → p.tagOk = true → s.acceptsGen p.gen = true → s.Form → p.flag = none →
      ∀ bs, p.op = .store bs →
      ∃ u, exec (.fabricDataPacket p) s = .next u ∧ answeredWith s u p.src p.transfer (some []) ∧
        (∀ j, j < bs.length → memByte u.mem (hbmKey p.pa + j) = bs.getD j 0) ∧
        (p.vf = none → ∀ a, (a < hbmKey p.pa ∨ hbmKey p.pa + bs.length ≤ a) → memByte u.mem a = memByte s.mem a)) ∧
    ((s.peer p.src).broken = false → p.tagOk = true → s.acceptsGen p.gen = true → s.Form →
      ∀ f, p.flag = some f →
      (isReduce p.op = true → (smGet [] s.fabric.reduced (2 ^ 32 * p.src + p.transfer)).contains p.pa = false) →
      p.total ≤ smGet 0 s.fabric.xfers (2 ^ 32 * p.src + p.transfer) + fabSize p.op →
      ∃ u, exec (.fabricDataPacket p) s = .next u ∧
        ∀ j, j < 8 → memByte u.mem (hbmKey f + j) = (toBytes 8 1).getD j 0)) ∧
  (∀ (s : State) (id : Nat) (data : List Byte) (st : FabAns),
    (s.fabric.pending.find? (fun o => o.id == id) = none → exec (.fabricAck id data st) s = .next s) ∧
    (∀ o m, s.fabric.pending.find? (fun o => o.id == id) = some o → s.fabric.out.find? (fun m => m.id == id) = some m →
      (st = .badTag → exec (.fabricAck id data st) s = .next (s.tagFailed o.pkg (answerName id))) ∧
      (st = .broken → exec (.fabricAck id data st) s = .next (s.breakPair o.pkg))) ∧
    (∀ o m, s.fabric.pending.find? (fun o => o.id == id) = some o → s.fabric.out.find? (fun m => m.id == id) = some m →
      (st = .refused ∨ (st = .ok ∧ (data.length = answerLen m.op ∨ data = []))) →
      let v := s.tagHolds o.pkg (answerName id)
      let u := { v with fabric := { v.fabric with pending := v.fabric.pending.filter (fun p => p.id != id) } }
      let refused := decide (st = .refused)
      (∀ t k, o.what = .core t k →
        exec (.fabricAck id data st) s = .next (u.updCore t k (fun c =>
          c.answered id (if data.length = answerLen m.op then some data else none) refused))) ∧
      (∀ t k, o.what = .store t k → exec (.fabricAck id data st) s = .next (u.storeAcked id refused)) ∧
      (∀ t, o.what = .array t → exec (.fabricAck id data st) s = .next (if refused then u.pieceAgain t id m
        else if data.length = answerLen m.op then u.pieceAnswered t id data else u.pieceBad t id)) ∧
      (∀ t tag n ofs num, o.what = .copy t tag n ofs num →
        (refused = true → exec (.fabricAck id data st) s = .next (u.copyRefused n ofs num Code.busEpoch 0x06)) ∧
        (refused = false → data.length ≠ answerLen m.op →
          exec (.fabricAck id data st) s = .next (u.copyRefused n ofs num 0xF1 0)) ∧
        (refused = false → data.length = answerLen m.op →
          let w := if isReduce m.op then u.onTransfer num (fun r => r.tally (ofBytes (data.take 8)) (ofBytes (data.drop 8))) else u
          (w.transferAt num = none → exec (.fabricAck id data st) s = .next w) ∧
          ∀ t' tag', w.transferAt num = some (t', tag') → exec (.fabricAck id data st) s = .next (w.copyEnd t' tag' []))) ∧
      (∀ t tag place num, o.what = .copyRead t tag place num →
        (refused = true → exec (.fabricAck id data st) s = .next (u.transferFaulted num false Code.busEpoch 0x06)) ∧
        (refused = false → data.length ≠ answerLen m.op →
          exec (.fabricAck id data st) s = .next (u.transferFaulted num false 0xF1 0)) ∧
        (refused = false → data.length = answerLen m.op →
          exec (.fabricAck id data st) s = .next (u.onTransfer num (fun r => r.answered place data)))))) ∧
  (∀ (s : State) (t id : Nat) (k : CoreK), (s.core t k).fab.contains id = true →
    ∀ refused, ((s.storeAcked id refused).core t k).fab.contains id = false ∧
      (((s.storeAcked id refused).core t k).fabRefused = ((s.core t k).fabRefused || refused))) ∧
  (∀ (s : State) (n ofs num : Nat) (code : Byte) (cause : Nat),
    let back := fun (r : TagRec) => if ofs < r.total then r.unmove ofs n else { r with ended := false }
    let u := s.onTransfer num back
    (u.transferAt num = none → s.copyRefused n ofs num code cause = u) ∧
    ∀ t tag r, u.transferAt num = some (t, tag) → smFind (s.tile t).tags tag = some r → r.transfer = num → r.st = .busy →
      (s.tile t).draining = false → tag < 64 →
      let q := ((s.copyRefused n ofs num code cause).tile t).tag tag
      q.st = .faulted ∧ q.got = [] ∧ q.asked = [] ∧ (ofs < r.total → q.doneb = min r.doneb ofs) ∧
        (r.total ≤ ofs → q.ended = false))

/-- R414 to R425, R430, R433: after a start with unsigned firmware only GET_VERSION and GET_MEASUREMENTS answer; a manifest
begins or renews its domain, with what each package exports to it, and refuses another; these come by the mailbox, and the RSC answers
the request that it has taken; LEAVE, SWITCH with the keys of each pair,
HANDLE with the keys of its port, MLOG; the leader forms a generation and sends its key to the members that pass, and a member
takes it over a session between packages when it checks; SPDM answers a session at its phase, turns away one out of order and any
other request code; key slots are loaded and unloaded by an open session; IDE keys; the lock of a TDI, and what breaks it. The model's choices: that the manifest brings the exports (log entry 62), SPDM's order and error
answers (log entry 27), the derivation of the keys (log entry 66), and that an answer is the one to an object that stands in the DOE
mailbox (log entry 67). -/
def Obligations.TrustRequestsFollowTheirRules : Prop :=
  (∀ (i : Instr) (s : State), rscOnly i = true → s.rsc.signed = false → exec i s = .next s) ∧
  (∀ (i : Instr) (c : Nat) (s : State), boxRow i = some c → s.side.req ≠ some c → exec i s = .next s) ∧
  (∀ (s : State) (ws : List Word), ((s.pciFn 0).doeBusy = false → s.spdmAnswer ws = s.sideAnswer ws) ∧
    ((s.pciFn 0).doeBusy = true → s.spdmAnswer ws = (s.sideAnswer ws).setPciFn 0 { s.pciFn 0 with
      doeBusy := false, doeOut := ws.flatMap (fun (w : Word) => [w.truncate 32, (w >>> 32).truncate 32]) })) ∧
  (∀ (s : State), s.rsc.signed = true →
    (∀ m, s.side.req = some 1 → s.rsc.dom = none →
      exec (.manifest m) s = .next (mailbox ((exporting (taken s) m).setDom (some (manifestDomain m))) 0 [])) ∧
    (∀ m d, s.side.req = some 1 → s.rsc.dom = some d → d.domain = m.domain →
      exec (.manifest m) s = .next (mailbox ((exporting (taken s) m).setDom (some { d with
        leader := m.leader, members := m.members, digests := m.digests })) 0 [])) ∧
    (∀ m d, s.side.req = some 1 → s.rsc.dom = some d → d.domain ≠ m.domain →
      exec (.manifest m) s = .next (mailbox (taken s) 1 [])) ∧
    (s.side.req = some 2 → ∃ u, exec .leave s = .next (mailbox u 0 []) ∧ u.rsc.dom = none ∧
      ∀ p, p ∈ u.fabric.peers → p.2.keys = [] ∧ p.2.send = [] ∧ p.2.recv = []) ∧
    (s.side.req = some 3 → s.rsc.dom.bind (·.pending) = none → exec .switch s = .next (mailbox (taken s) 1 [])) ∧
    (∀ d g, s.side.req = some 3 → s.rsc.dom = some d → d.pending = some g → ∃ u, exec .switch s = .next u ∧
      u.rsc.dom = some { d with cur := some g, prev := d.cur, pending := none } ∧ u.side.mbox = 0 ∧
      (∀ h, h ∈ u.rsc.handles ↔ h ∈ s.rsc.handles ∧ (h.gen = g.1 ∨ d.cur.map Prod.fst = some h.gen)) ∧
      (∀ p, p ∈ u.fabric.peers → p.2.broken = false) ∧
      (∀ m, m ∈ d.members → m ≠ Config.package → (u.peer m).keys =
        (g.1, pairKey d.domain g.1 g.2 Config.package m, pairKey d.domain g.1 g.2 m Config.package) ::
          (s.peer m).keys.filter (fun k => d.cur.any (fun c => c.1 == k.1)))) ∧
    (∀ port kp kpp ep, s.side.req = some 4 → s.rsc.dom.bind (·.cur) = none →
      exec (.handle port kp kpp ep) s = .next (mailbox (taken s) 1 [])) ∧
    (∀ port kp kpp ep d g, s.side.req = some 4 → s.rsc.dom = some d → d.cur = some g → s.rsc.ticket < 2 ^ 24 →
      let h := BitVec.ofNat 32 (port.toNat * 2 ^ 31 + g.1.toNat % 128 * 2 ^ 24 + s.rsc.ticket)
      let k := fun l => portKey d.domain g.1 g.2 l kp kpp ep
      let x : Handle := { h := h, port := port, domain := d.domain, gen := g.1
                          key := { gen := g.1, mask := k "sq40 mask", check := k "sq40 check", epoch := ep } }
      exec (.handle port kp kpp ep) s = .next (mailbox { taken s with rsc := { s.rsc with
        ticket := s.rsc.ticket + 1, handles := x :: s.rsc.handles } } 0 [word h.toNat])) ∧
    (∀ port kp kpp ep, s.side.req = some 4 → 2 ^ 24 ≤ s.rsc.ticket →
      exec (.handle port kp kpp ep) s = .next (mailbox (taken s) 1 [])) ∧
    (∀ n, s.side.req = some 5 →
      (n < 8 → exec (.mlog n) s = .next (mailbox (taken s) 0 (digestWords (s.measured (n + 1))))) ∧
      (8 ≤ n → exec (.mlog n) s = .next (mailbox (taken s) 1 []))) ∧
    (∀ ps, (s.rsc.dom.all (fun d => d.leader != Config.package) = true → exec (.domainForm ps) s = .next s) ∧
      ∀ d, s.rsc.dom = some d → d.leader = Config.package → ∃ u e, exec (.domainForm ps) s = .next u ∧ u.rsc.dom = some e ∧
        u.rsc.draws = s.rsc.draws + 1 ∧ e.cur = d.cur ∧ e.acked = [] ∧
        e.pending = some ((d.cur.map (fun c => c.1 + 1)).getD 0, Config.domainKey s.rsc.draws) ∧
        (∀ m, m ∈ d.members → m ≠ Config.package → (m ∈ e.sentTo ∨ m ∈ e.failed) ∧
          ∀ q, q ∈ openRequests → ⟨m, q.1, q.2⟩ ∈ u.rsc.sent) ∧
        (∀ m, m ∈ e.failed → .memberFailed m ∈ u.hostOut) ∧
        (∀ m, m ∈ e.sentTo → m ∈ d.members ∧ (smFind u.rsc.asking m).isSome = true ∧
          ⟨m, 0xFE, domainKeyWords d ((d.cur.map (fun c => c.1 + 1)).getD 0, Config.domainKey s.rsc.draws)⟩ ∈ u.rsc.sent ∧
          ∃ p, (m, d.digests, p) ∈ ps ∧ Config.proofAccepted m s.rsc.draws p = true ∧ Config.peerProved m p = true)) ∧
    (∀ n dm g l k ms pr, (s.rsc.dom = none ∨ ¬ (isOpen s n ∧ (s.session n).betweenPackages = true)) →
      exec (.domainKey n dm g l ⟨k, ms, pr⟩) s = .next (s.spdmError 3)) ∧
    (∀ n dm g l k ms pr d, s.rsc.dom = some d → isOpen s n → (s.session n).betweenPackages = true →
      let u := { s with rsc := { s.rsc with draws := s.rsc.draws + 1 } }
      let ok := d.domain = dm ∧ Config.digest d.members = l ∧ Config.proofAccepted d.leader s.rsc.draws pr = true ∧
        Config.peerProved d.leader pr = true ∧ ms = d.digests
      (ok → exec (.domainKey n dm g l ⟨k, ms, pr⟩) s =
        .next ((u.setDom (some { d with pending := some (g, k) })).spdmAnswer [word g.toNat])) ∧
      (¬ ok → exec (.domainKey n dm g l ⟨k, ms, pr⟩) s = .next (u.spdmError 3))) ∧
    (∀ m, (s.rsc.dom.all (fun d => !d.sentTo.contains m || d.acked.contains m || (smFind s.rsc.asking m).isNone) = true →
        exec (.domainAck m) s = .next s) ∧
      ∀ d, s.rsc.dom = some d → d.sentTo.contains m = true → d.acked.contains m = false →
        (smFind s.rsc.asking m).isSome = true → exec (.domainAck m) s =
          .next (({ s with rsc := { s.rsc with asking := smErase s.rsc.asking m } }.setDom
            (some { d with acked := setAdd d.acked m })).rscSend m 0xEC [])) ∧
    (∀ code, spdmCodes.contains code = false → s.act (.request code) = .next (s.spdmError 2))) ∧
  (∀ (s : State) (i : Instr) (n ph : Nat) (f : Session → Session), spdmRow i = some (n, ph, f) →
    ((∃ w, i = .getVersion n w) ∨ s.rsc.signed = true) →
    ((s.session n).phase < ph → exec i s = .next (s.spdmError 3)) ∧
    (ph ≤ (s.session n).phase → ∃ ws, exec i s = .next { (s.setSession n (f (s.session n))).spdmAnswer ws with
      free := s.free + 1 })) ∧
  (∀ (s : State) (n : Nat) (a : AlgSet), s.rsc.signed = true →
    let all := a = { rsaPss4096 := true, sha512 := true, ecdheP384 := true, aes256Gcm := true }
    ((s.session n).phase < 2 → exec (.negotiateAlgorithms n a) s = .next (s.spdmError 3)) ∧
    (2 ≤ (s.session n).phase → all → ∃ ws, exec (.negotiateAlgorithms n a) s =
      .next { (s.setSession n { s.session n with phase := max (s.session n).phase 3 }).spdmAnswer ws with
        free := s.free + 1 }) ∧
    (2 ≤ (s.session n).phase → ¬ all → exec (.negotiateAlgorithms n a) s =
      .next { s.spdmError 1 with rsc := { s.rsc with sessions := smErase s.rsc.sessions n } })) ∧
  (∀ (s : State) (n k : Nat) (w : List Word),
    (1 ≤ k ∧ k ≤ 8 → exec (.getMeasurements n k w) s = .next (s.spdmAnswer (digestWords (s.measured k)))) ∧
    (k = 0 ∨ 8 < k → exec (.getMeasurements n k w) s = .next (s.spdmError 2)) ∧
    (k ≠ 0 → s.rsc.signed = true → exec (.getCertificate n k w) s = .next (s.spdmError 2))) ∧
  (∀ (s : State) (n : Nat) (pr : List Word), s.rsc.signed = true →
    let u := { s with rsc := { s.rsc with draws := s.rsc.draws + 1 } }
    let proved := Config.proofAccepted n s.rsc.draws pr = true ∧
      ((s.session n).betweenPackages = true → Config.peerProved n pr = true)
    ((s.session n).phase ≠ 4 → exec (.finish n pr) s = .next (s.spdmError 3)) ∧
    ((s.session n).phase = 4 → proved → ∃ ws, exec (.finish n pr) s =
      .next { (u.setSession n { s.session n with phase := 5 }).spdmAnswer ws with free := s.free + 1 }) ∧
    ((s.session n).phase = 4 → ¬ proved → exec (.finish n pr) s =
      .next { u.spdmError 3 with rsc := { u.rsc with sessions := smErase s.rsc.sessions n } })) ∧
  (∀ (s : State) (n : Nat), s.rsc.signed = true → ¬ isOpen s n →
    (∀ sl j w, exec (.loadSlot n sl j w) s = .next (s.spdmError 3) ∧ exec (.unloadSlot n sl) s = .next (s.spdmError 3)) ∧
    (∀ st k, exec (.ideKm n st k) s = .next (s.spdmError 3)) ∧
    (∀ v, exec (.lockInterface n v) s = .next (s.spdmError 3) ∧ exec (.stopInterface n v) s = .next (s.spdmError 3)) ∧
    exec (.endSession n) s = .next (s.spdmError 3)) ∧
  (∀ (s : State) (n : Nat), s.rsc.signed = true → isOpen s n →
    (∀ sl jid w j kn, s.job? jid = some j → Config.unwrap n w = some kn →
      let fits := smFind s.rsc.slots sl = none ∧ sl < 2048 ∧ j.ksbase ≤ sl ∧ sl < j.ksbase + j.kscnt
      (fits → exec (.loadSlot n sl jid w) s = .next ({ s with rsc := { s.rsc with
        loads := s.rsc.loads + 1
        slots := smPut s.rsc.slots sl { ctx := j.ctx, load := kn, closing := false, session := n } } }.spdmAnswer [0])) ∧
      (¬ fits → exec (.loadSlot n sl jid w) s = .next (s.spdmAnswer [1]))) ∧
    (∀ sl jid w, (s.job? jid = none ∨ Config.unwrap n w = none) →
      exec (.loadSlot n sl jid w) s = .next (s.spdmAnswer [1])) ∧
    (∀ sl, (smFind s.rsc.slots sl = none ∨ ∃ k, smFind s.rsc.slots sl = some k ∧ k.session ≠ n) →
      exec (.unloadSlot n sl) s = .next (s.spdmAnswer [1])) ∧
    (∀ sl k, smFind s.rsc.slots sl = some k → k.session = n → exec (.unloadSlot n sl) s = .next ({ s with
      rsc := { s.rsc with slots := smPut s.rsc.slots sl { k with closing := true } } }.slotsSettle.spdmAnswer [0])) ∧
    (∀ st k, (st ≤ 4 → exec (.ideKm n st k) s =
        .next ({ s with rsc := { s.rsc with ide := smPut s.rsc.ide st k } }.spdmAnswer [0])) ∧
      (4 < st → exec (.ideKm n st k) s = .next (s.spdmAnswer [1]))) ∧
    (∀ v, (v < 64 → smGet 0 s.tdi v = 0 → exec (.lockInterface n v) s =
        .next ({ s with tdi := smPut s.tdi v 1 }.spdmAnswer [0])) ∧
      (v < 64 → smGet 0 s.tdi v ≠ 0 → exec (.lockInterface n v) s = .next (s.spdmError 3)) ∧
      (v < 64 → exec (.stopInterface n v) s = .next ({ s with tdi := smErase s.tdi v }.spdmAnswer [0])))  ∧
    ∃ u, exec (.endSession n) s = .next u ∧ u.rsc.sessions = smErase s.rsc.sessions n ∧ u.free = s.free + 1) ∧
  (∀ (s : State) (v : Nat), (smGet 0 s.tdi v ≠ 1 → exec (.tdispViolation v) s = .next s) ∧
    (smGet 0 s.tdi v = 1 → v < 64 → ∃ u, exec (.tdispViolation v) s = .next u ∧ smGet 0 u.tdi v = 2 ∧
      ∀ n, n < 16 → (u.queue (16 * (v + 1) + n)).halt = true))

/-! # The command processors -/

/-- R434, R435: RFETCH reads a published packet into the scratch, or traps with cause 24 and the reason; BFEX extracts a field,
or traps with cause 25; SIGWAIT stands on its word until the relation holds, or traps with cause 26; DISP dispatches a launch and
tells whether it was refused, or traps with cause 27; a trap saves mepc, mcause, mtval and MIE and goes to mtvec; x0 stays 0. An
interrupt that is enabled and pending is taken before the next instruction, and where a SIGWAIT stands it comes back to it. What
MIE, MPIE, mtvec, mcause and x0 do is of the RISC-V manuals, which R434 names and does not repeat: the model's choice (log
entry 7). -/
def Obligations.CommandProcessorInstructions : Prop :=
  (∀ (s : State) (x : CpR),
    let c := s.myCp
    let at_ := (c.reg x.rs2).toNat
    let q := Word.bits (c.reg x.rs1) 0 11
    let y := s.queue q
    let may := q < 1040 ∧ y.en = true ∧ y.halt = false ∧ y.inWindow (Word.bits (c.reg x.rs1) 32 32) = true
    (at_ % 64 ≠ 0 ∨ 0x40000 < at_ + 64 → exec (.rfetch x) s = .next (s.cpTrap 24 1)) ∧
    (at_ % 64 = 0 → at_ + 64 ≤ 0x40000 → 1040 ≤ q → exec (.rfetch x) s = .next (s.cpTrap 24 2)) ∧
    (at_ % 64 = 0 → at_ + 64 ≤ 0x40000 → q < 1040 → (y.en = false ∨ y.halt = true) →
      exec (.rfetch x) s = .next (s.cpTrap 24 3)) ∧
    (at_ % 64 = 0 → at_ + 64 ≤ 0x40000 → q < 1040 → y.en = true → y.halt = false →
      y.inWindow (Word.bits (c.reg x.rs1) 32 32) = false → exec (.rfetch x) s = .next (s.cpTrap 24 4)) ∧
    (at_ % 64 = 0 → at_ + 64 ≤ 0x40000 → may → s.choices.headD 0 = 1 → ∃ u, exec (.rfetch x) s = .next u ∧
      u.queue q = { y with halt := true, cause := 3 } ∧ u.myCp = c.trap 24 5 ∧
      u.hostOut = s.hostOut ++ [.ringRead (q / 16) (y.slot (Word.bits (c.reg x.rs1) 32 32)) 64]) ∧
    (at_ % 64 = 0 → at_ + 64 ≤ 0x40000 → may → s.choices.headD 0 ≠ 1 → s.Form → ∃ u bs, exec (.rfetch x) s = .next u ∧
      bs.length = 64 ∧ u.hostOut = s.hostOut ++ [.ringRead (q / 16) (y.slot (Word.bits (c.reg x.rs1) 32 32)) 64] ∧
      (∀ j, j < 64 → memByte u.mem (cpKey s.curCp (at_ + j)) = bs.getD j 0) ∧
      (∀ a, (a < cpKey s.curCp at_ ∨ cpKey s.curCp at_ + 64 ≤ a) → memByte u.mem a = memByte s.mem a) ∧
      u.myCp = { (c.setReg x.rd (wd (wordsOf bs) 0)).retire with pc := c.pc + 4, sig := none })) ∧
  (∀ (s : State) (x : CpR),
    let c := s.myCp
    let b := c.reg x.rs2
    let pos := Word.bits b 0 6
    let len := Word.bits b 6 6 + 1
    (64 < pos + len ∨ Word.bits b 12 52 ≠ 0 → exec (.bfex x) s = .next (s.cpTrap 25 1)) ∧
    (pos + len ≤ 64 → Word.bits b 12 52 = 0 →
      exec (.bfex x) s = .next (s.cpDone x.rd (word ((c.reg x.rs1).toNat / 2 ^ pos % 2 ^ len))))) ∧
  (∀ (s u : State) (rel : BitVec 7) (x : CpR) (j : Job) (bs : List Byte), rel.toNat ≤ 5 →
    let c := s.myCp
    let va := (c.reg x.rs1).toNat
    (s.job? c.cpjid.toNat = none → exec (.sigwait rel x) s = .next (s.cpTrap 26 1)) ∧
    (s.job? c.cpjid.toNat = some j → va % 8 ≠ 0 → exec (.sigwait rel x) s = .next (s.cpTrap 26 2)) ∧
    (s.job? c.cpjid.toNat = some j → va % 8 = 0 → 2 ^ 56 ≤ va → exec (.sigwait rel x) s = .next (s.cpTrap 26 3)) ∧
    (∀ f, s.job? c.cpjid.toNat = some j → va % 8 = 0 → va < 2 ^ 56 → s.gRead j va 8 = .error f →
      exec (.sigwait rel x) s = .next ((s.noteBad f).cpTrap 26 3)) ∧
    (s.job? c.cpjid.toNat = some j → va % 8 = 0 → va < 2 ^ 56 → s.gRead j va 8 = .ok (bs, u) →
      relHolds rel.toNat 64 (ofBytes bs) (c.reg x.rs2).toNat = true → exec (.sigwait rel x) s = .next (u.cpDone x.rd 1)) ∧
    (s.job? c.cpjid.toNat = some j → va % 8 = 0 → va < 2 ^ 56 → s.gRead j va 8 = .ok (bs, u) →
      relHolds rel.toNat 64 (ofBytes bs) (c.reg x.rs2).toNat = false →
      exec (.sigwait rel x) s = .next (u.setCp u.curCp { c with sig := some (rel, x) }))) ∧
  (∀ (a b : Nat), a < 2 ^ 64 → b < 2 ^ 64 →
    relHolds 0 64 a b = decide (a = b) ∧ relHolds 1 64 a b = decide (a ≠ b) ∧ relHolds 2 64 a b = decide (a < b) ∧
    relHolds 3 64 a b = decide (b ≤ a) ∧ relHolds 4 64 a b = decide ((word a).toInt < (word b).toInt) ∧
    relHolds 5 64 a b = decide ((word b).toInt ≤ (word a).toInt)) ∧
  (∀ (s u : State) (x : CpR) (j : Job) (l : Nat),
    let c := s.myCp
    let va := (c.reg x.rs1).toNat
    (s.job? c.cpjid.toNat = none → exec (.disp x) s = .next (s.cpTrap 27 1)) ∧
    (s.job? c.cpjid.toNat = some j → va % 64 ≠ 0 → exec (.disp x) s = .next (s.cpTrap 27 2)) ∧
    (s.job? c.cpjid.toNat = some j → va % 64 = 0 → s.dispatch j (va % 2 ^ 56) none = (l, u) →
      exec (.disp x) s = .next (u.cpDone x.rd (if (u.launch? l).any (fun y => y.state == 3) then 1 else 0)))) ∧
  (∀ (s : State) (rd : BitVec 5) (v : Word) (cause tval : Nat),
    let c := s.myCp
    (s.cpDone rd v).myCp.pc = c.pc + 4 ∧
    (∀ r, (s.cpDone rd v).myCp.reg r = if r = rd ∧ rd ≠ 0 then v else c.reg r) ∧
    (s.cpTrap cause tval).myCp.mepc = c.pc ∧ (s.cpTrap cause tval).myCp.mcause = word cause ∧
    (s.cpTrap cause tval).myCp.mtval = word tval ∧ (s.cpTrap cause tval).myCp.pc = c.mtvec &&& 0xFFFFFFFFFFFFFFFC ∧
    (s.cpTrap cause tval).myCp.mstatus.getLsbD 3 = false ∧
    (s.cpTrap cause tval).myCp.mstatus.getLsbD 7 = c.mstatus.getLsbD 3 ∧
    (∀ r, (s.cpTrap cause tval).myCp.reg r = c.reg r) ∧ c.reg 0 = 0 ∧
    (s.cpDone rd v).myCp.minstret = c.minstret + (if c.inhibit.getLsbD 2 then 0 else 1)) ∧
  (∀ (c : Cp) (n : Nat), c.interrupt = some n ↔ c.mstatus.getLsbD 3 = true ∧
    ((n = 11 ∧ (c.mip &&& c.mie).getLsbD 11 = true) ∨
      (n = 3 ∧ (c.mip &&& c.mie).getLsbD 11 = false ∧ (c.mip &&& c.mie).getLsbD 3 = true) ∨
      (n = 7 ∧ (c.mip &&& c.mie).getLsbD 11 = false ∧ (c.mip &&& c.mie).getLsbD 3 = false ∧
        (c.mip &&& c.mie).getLsbD 7 = true))) ∧
  (∀ (c : Cp) (n : Nat),
    (c.takeInterrupt n).mepc = c.pc ∧ (c.takeInterrupt n).mcause = word (2 ^ 63 + n) ∧
    (c.takeInterrupt n).mstatus.getLsbD 3 = false ∧ (c.takeInterrupt n).mstatus.getLsbD 7 = c.mstatus.getLsbD 3 ∧
    (c.takeInterrupt n).pc = (c.mtvec &&& 0xFFFFFFFFFFFFFFFC) + (if c.mtvec.getLsbD 0 then word (4 * n) else 0) ∧
    (c.takeInterrupt n).sig = none ∧ ∀ r, (c.takeInterrupt n).reg r = c.reg r)

/-! # Encodings, frames, values and what every step keeps -/

namespace Sys2Proof.Claims

/-- The instructions of the scalar tables. -/
def scalarRow (i : Instr) : Option ScalarRow :=
  (arithRow i).orElse fun _ => (logicRow i).orElse fun _ => (compareRow i).orElse fun _ =>
    (immediateRow i).orElse fun _ => fieldRow i

/-- No operand of an instruction is a stream. -/
def noStream (x : Ops) : Prop := ∀ n, x.d ≠ .s n ∧ x.a ≠ .s n ∧ x.b ≠ .s n ∧ x.c ≠ .s n

/-- Everything outside the acting core is unchanged: memory, every other core, and the rest of the part. -/
def outsideKept (s t : State) : Prop :=
  (∀ a, memByte t.mem a = memByte s.mem a) ∧ t = s.setMe t.me

/-- Of the registers only those in the list may differ: the register file named by a destination, the latch, CFLAG, and what
every instruction moves. -/
def scalarKept (d : Opd) (r g : Regs) : Prop :=
  (∀ n, n < 24 → d ≠ .m n → g.m n = r.m n) ∧ (∀ n, d ≠ .o n → smGet 0 g.o n = smGet 0 r.o n) ∧
  (∀ n, d ≠ .g n → smGet 0 g.g n = smGet 0 r.g n) ∧ (∀ n, n < 8 → d ≠ .p n → g.pred n = r.pred n) ∧
  { g with phys := r.phys, o := r.o, g := r.g, preds := r.preds, prv := r.prv, cflag := r.cflag, ip := r.ip, mid := r.mid } = r

/-- A vector instruction writes the group of its destination, the vector latch, CFLAG and CSRN. -/
def vectorKept (r g : Regs) : Prop :=
  { g with vregs := r.vregs, vprv := r.vprv, cflag := r.cflag, csrn := r.csrn, ip := r.ip, mid := r.mid } = r

/-- A chunk of the acting core that has not issued an instruction is empty, it has no tracked VF, and no .QNT atomic stands in
it, for that commits with its instruction. -/
def tidy (s : State) : Prop :=
  s.commitsNow s = false ∧
  ∀ h, s.me.chunk = some h → h.vf = none ∧ (h.len = 0 → h.stores = [] ∧ h.acts = [] ∧ h.late = [])

/-- What the acting core's chunk has stored is as it was; a chunk that is gone had stored nothing. -/
def bufferKept (s t : State) : Prop :=
  match t.me.chunk with
  | some h => ∃ g, s.me.chunk = some g ∧ h.stores = g.stores ∧ h.skey = g.skey ∧ h.bytes = g.bytes
  | none => ∀ g, s.me.chunk = some g → g.stores = []

/-- The width of a store in bytes (R255). -/
def storeWidth (i : Instr) : Nat :=
  match i with
  | .st x | .sti x => widthOf x.fmt / 8
  | .stf x | .stfi x => (ldfFmt x.fmt).2
  | _ => 0

/-- The places of the bytes of a store of `n` bytes that leads to a spot: those of the tile memory or of the pages, through an
aperture where one covers them, or the byte that holds a window's element (R24, R30, R247). -/
def storedAt (c : Acc) (p : Spot) (n : Nat) (s : State) (ps : List Place) : Prop :=
  match p with
  | .win w => ps = [.mem (tileKey s.curTile 0 ((winBytes w).getD (0, 1)).1) 0 false]
  | p => ∃ s', storePlaces c p n s = .ok (ps, s')

end Sys2Proof.Claims

/-- R200 to R204, R435: decoding reads back what encoding wrote: for every well-formed core instruction, with every operand at
every value that its entry admits, and for every well-formed custom instruction of a command processor. -/
def Obligations.DecodeReadsWhatEncodeWrote : Prop :=
  (∀ (i : Instr) (w : BitVec 96), i.wf = true → encodeCore i = some w → decode w = .ok i) ∧
  (∀ (i : Instr) (w : BitVec 32), i.wf = true → i.opOps = none → encode i = [w] → decodeCp w = some i)

/-- R199, R200, R435: the words of some instructions, written out from their encodings, and what they decode to: ADD m0, m0, s2;
RFETCH x10, x11, x12 and SIGWAIT.GEU x5, x6, x7; and OPC 0x1FF is not assigned. -/
def Obligations.WordsDecodeToTheirInstructions : Prop :=
  let h0 : Hdr := { prd := 0, wsem := 0, wthr := 0, ssem := 0, sinc := 0 }
  decode 0x0008080CA000000000000000 = .ok (.add
    { h := h0, fmt := 0, d := .m 0, a := .m 0, b := .s 2, c := .prv, imm := 0, mod := 0 }) ∧
  decodeCp 0x00C5850B = some (.rfetch { rd := 10, rs1 := 11, rs2 := 12 }) ∧
  decodeCp 0x0673228B = some (.sigwait 3 { rd := 5, rs1 := 6, rs2 := 7 }) ∧
  (∀ w : BitVec 96, w.extractLsb' 87 9 = 0x1FF → decode w = .error .illegalOpc)

/-- R218, R219, R220, R221, R223, R226, R231: what the words of the scalar results hold, as numbers and bit by bit: narrowing
keeps the value modulo the type's width and extends it by the type's sign; MUL and MULH are the two halves of one product, and
the carry and borrow forms chain; shifts and rotates move bits; counts count them; SAT clamps to the range; bit fields are
read and replaced. -/
def Obligations.ScalarValuesBitByBit : Prop :=
  ∀ (fmt : BitVec 3) (a b : Word) (y z : Int) (n c : Nat),
    let w := widthOf fmt
    let lo := (intRange (fmtSigned fmt) w).1
    let hi := (intRange (fmtSigned fmt) w).2
    let bit := fun (v : Int) (i : Nat) => (narrowFmt fmt v).getLsbD i
    (lo ≤ viewFmt fmt (narrowFmt fmt y) ∧ viewFmt fmt (narrowFmt fmt y) ≤ hi ∧
      (viewFmt fmt (narrowFmt fmt y) - y) % 2 ^ w = 0 ∧ narrowFmt fmt y = wordI (viewFmt fmt (narrowFmt fmt y)) ∧
      (narrowFmt fmt y = narrowFmt fmt z ↔ (y - z) % 2 ^ w = 0)) ∧
    (viewFmt fmt (narrowFmt fmt (mulhVal fmt a b)) * 2 ^ w + lowFmt fmt (narrowFmt fmt (viewFmt fmt a * viewFmt fmt b)) =
      viewFmt fmt a * viewFmt fmt b) ∧
    (let sum := narrowFmt fmt (viewFmt fmt a + viewFmt fmt b + (c % 2 : Nat))
     let carry := if 2 ^ w ≤ lowFmt fmt a + lowFmt fmt b + c % 2 then 1 else 0
     lowFmt fmt sum + carry * 2 ^ w = lowFmt fmt a + lowFmt fmt b + c % 2) ∧
    (let dif := narrowFmt fmt (viewFmt fmt a - viewFmt fmt b - (c % 2 : Nat))
     let borrow := if lowFmt fmt a < lowFmt fmt b + c % 2 then 1 else 0
     lowFmt fmt dif + lowFmt fmt b + c % 2 = lowFmt fmt a + borrow * 2 ^ w) ∧
    (∀ i, i < w → bit (shlVal fmt a n) i = (decide (n ≤ i) && a.getLsbD (i - n)) ∧
      bit (shrVal fmt a n) i = (decide (i + n < w) && a.getLsbD (i + n)) ∧
      bit (sarVal fmt a n) i = a.getLsbD (min (i + n) (w - 1)) ∧
      bit (rolVal fmt a n) i = a.getLsbD ((i + w - n % w) % w) ∧ bit (rorVal fmt a n) i = a.getLsbD ((i + n) % w)) ∧
    (popCount w (lowFmt fmt a) = ((List.range w).filter (fun i => a.getLsbD i)).length ∧
      (∀ i, i < w → (w : Int) - clzVal fmt a ≤ i → a.getLsbD i = false) ∧
      (0 ≤ clzVal fmt a ∧ clzVal fmt a ≤ w) ∧ (clzVal fmt a < w → a.getLsbD ((w : Int) - 1 - clzVal fmt a).toNat = true) ∧
      (∀ i : Nat, (i : Int) < ctzVal fmt a → a.getLsbD i = false) ∧ (0 ≤ ctzVal fmt a ∧ ctzVal fmt a ≤ w) ∧
      (ctzVal fmt a < w → a.getLsbD (ctzVal fmt a).toNat = true)) ∧
    ((clampFmt fmt y).1 = narrowFmt fmt (max lo (min hi y)) ∧ ((clampFmt fmt y).2 = fSAT ↔ y < lo ∨ hi < y) ∧
      ((clampFmt fmt y).2 = 0 ↔ lo ≤ y ∧ y ≤ hi)) ∧
    (∀ pos len i, pos < 64 → 0 < len → len ≤ 64 → i < 64 →
      (insertField a b pos len).getLsbD i = (if pos ≤ i ∧ i < pos + len then b.getLsbD (i - pos) else a.getLsbD i) ∧
      (word (fieldOf a pos len)).getLsbD i = (decide (i < len) && a.getLsbD (pos + i)))

/-- R3, R200, R201, R219, R253, R255, R256, R282, R284, R300, R306: what an instruction that issues from a state leaves unchanged
of it. The register instructions keep memory, every other core and the rest of the part; of the acting core, every register but
the destination's, the latch, CFLAG (CSRN where lanes or the result draw under SR) and the instruction pointer. A load keeps
memory and the stores of its chunk, and the same registers but for the base that a post-increment form updates; a store
changes the bytes of its width at the address that its operands give, and no other, and no register but that base (through a
window, CFLAG and CSRN). Admission itself changes the acting core alone. That an uncached access commits with its
instruction is the model's choice, log entry 14. -/
def Obligations.RegisterInstructionsKeepTheRest : Prop :=
  (∀ (e : Entry) (x : Ops) (s s0 : State), s.prepare e x = .inr s0 → s.me.atoms = [] →
    s.hasToken s.curTile s.curCore = false → outsideKept s s0 ∧ s0.me.regs = s.me.regs) ∧
  (∀ (i : Instr) (x : Ops) (n : Nat) (f : Word → Word → Word → Word × Nat) (s s0 s1 s2 t : State) (a b c : Word),
    scalarRow i = some (x, n, f) → Issues (.alu n) x s s0 → tidy s0 → s0.me.regs.slot = none → noStream x →
    x.d.exists_ = true → x.d.isScalar = true → sources n x s0 = .ok ((a, b, c), s1) →
    writeOpd x.d (f a b c).1 s1 = .ok ((), s2) → exec i s = .next t →
    outsideKept s0 t ∧ scalarKept x.d s0.me.regs t.me.regs) ∧
  (∀ (i : Instr) (x : Ops) (s s0 s1 t : State) (a : Word),
    (i = .frnd x ∨ i = .exp2 x ∨ i = .log2 x ∨ i = .rcp x ∨ i = .rsq x) →
    Issues (.alu 1) x s s0 → tidy s0 → s0.me.regs.slot = none → noStream x →
    x.d.exists_ = true → x.d.isScalar = true → readA x s0 = .ok (a, s1) → exec i s = .next t →
    outsideKept s0 t ∧ t.me.regs.csrn = (s0.me.regs.drawn 1).csrn ∧
      scalarKept x.d s0.me.regs { t.me.regs with csrn := s0.me.regs.csrn }) ∧
  (∀ (i : Instr) (x : Ops) (sb draws : Bool) (f : LaneFn) (s s0 s1 t : State) (b : Nat → BitVec 32),
    laneRow i = some (x, sb, draws, f) → Issues .vector x s s0 → tidy s0 → s0.me.regs.slot = none → noStream x →
    laneB x sb s0 s1 b → exec i s = .next t →
    outsideKept s0 t ∧ vectorKept s0.me.regs t.me.regs ∧ (draws = false → t.me.regs.csrn = s0.me.regs.csrn)) ∧
  (∀ (i : Instr) (x : Ops) (all : Bool) (rel : FV → FV → Bool) (s s0 s1 t : State) (b : Nat → BitVec 32),
    vcmpRow i = some (x, all, rel) → Issues .vector x s s0 → tidy s0 → s0.me.regs.slot = none → noStream x →
    laneB x true s0 s1 b → exec i s = .next t →
    outsideKept s0 t ∧ vectorKept s0.me.regs t.me.regs ∧ t.me.regs.csrn = s0.me.regs.csrn) ∧
  (∀ (i : Instr) (e : Entry) (x : Ops) (f : Word → Exec Word) (post : Bool) (s s0 s1 s2 u : State) (a b v : Word),
    loadRow i = some (e, x, f, post) → Issues e x s s0 → tidy s0 → s0.me.regs.slot = none → noStream x →
    x.d.exists_ = true → x.d.isScalar = true → readA x s0 = .ok (a, s0) → readB x s0 = .ok (b, s0) →
    f (accessed post x a b) s0 = .ok (v, s1) → writeOpd x.d v s1 = .ok ((), s2) →
    Ends e x s0 (updated post x (effective x a b) s2) u →
    let t := s0.done e u
    let r := (updated post x (effective x a b) s0).me.regs
    exec i s = .next t ∧ (∀ q, memByte t.mem q = memByte s0.mem q) ∧ bufferKept s0 t ∧
      scalarKept x.d r { t.me.regs with csrn := r.csrn } ∧
      ((∀ w, s0.spotOf false (accessed post x a b) ≠ .ok (.win w)) →
        t.me.regs.csrn = r.csrn ∧ t.me.regs.cflag = r.cflag)) ∧
  (∀ (i : Instr) (x : Ops) (f : Word → Word → Exec Unit) (post : Bool) (s s0 s1 u : State) (a b c : Word) (p : Spot)
      (ps : List Place),
    storeRow i = some (x, f, post) → Issues .base x s s0 → tidy s0 → s0.me.regs.slot = none → noStream x →
    readA x s0 = .ok (a, s0) → readB x s0 = .ok (b, s0) → readC x s0 = .ok (c, s0) →
    f (accessed post x a b) c s0 = .ok ((), s1) → Ends .base x s0 (updated post x (effective x a b) s1) u →
    s0.spotOf false (accessed post x a b) = .ok p →
    storedAt (accOf 1 true (accessed post x a b)) p (storeWidth i) s0 ps →
    let t := s0.done .base u
    let r := (updated post x (effective x a b) s0).me.regs
    exec i s = .next t ∧
      (∀ q, (∀ kn uc, Place.mem q kn uc ∉ ps) → memByte t.mem q = memByte s0.mem q ∧
        (t.me.chunk.isSome = true → ∀ kn, chunkByte t kn q = chunkByte s0 kn q)) ∧
      (t.me.chunk.isSome = true → ∀ q, memByte t.mem q = memByte s0.mem q) ∧
      (∀ key kn uc, (∀ w, p ≠ .win w) → ps = (Place.mem key kn uc).bytes (storeWidth i) →
        ∀ j, j < storeWidth i → isHbm (key + j) = isHbm key →
          chunkByte t kn (key + j) = (toBytes (storeWidth i) c.toNat).getD j 0) ∧
      { t.me.regs with cflag := r.cflag, csrn := r.csrn, ip := r.ip, mid := r.mid } = r ∧
      ((∀ w, p ≠ .win w) → t.me.regs.csrn = r.csrn ∧ t.me.regs.cflag = r.cflag))

/-- Every step keeps the canonical form of the memory: addresses strictly rising, and no entry equal to what an unlisted
address reads as. -/
def Obligations.EveryStepKeepsTheMemoryForm : Prop := ∀ s t : State, s.Form → step s = .next t → t.Form
end

