-- ==== Sys2Proof/Laws/SMap.lean ====
section
/-!
SUPPORT. Lemmas of the map operations: what a read gives after a write, and that the operations keep the canonical form.
-/
namespace Sys2Proof.Machine

variable {α : Type}

@[simp] theorem smGet_nil (d : α) (i : Nat) : smGet d [] i = d := rfl

theorem smGet_smPut (d : α) (m : SMap α) (i j : Nat) (v : α) :
    smGet d (smPut m i v) j = if j = i then v else smGet d m j := by
  induction m with
  | nil => by_cases h : j = i <;> simp [smPut, smGet, h]
  | cons e t ih =>
    obtain ⟨k, w⟩ := e
    simp only [smPut]
    by_cases h1 : i = k
    · by_cases h2 : j = i
      · simp [h1, h2, smGet]
      · simp [h1, smGet, h1 ▸ h2]
    · by_cases h2 : i < k
      · simp only [h1, h2, if_true, if_false, smGet]
        by_cases h3 : j = i
        · simp [h3]
        · by_cases h4 : j < i
          · have h5 : j < k := by omega
            have h6 : j ≠ k := by omega
            simp [h3, h4, h5, h6]
          · simp [h3, h4]
      · simp only [h1, h2, if_false, smGet, ih]
        by_cases h3 : j = k
        · simp [h3, Ne.symm h1]
        · by_cases h4 : j < k
          · have h5 : j ≠ i := by omega
            simp [h3, h4, h5]
          · simp [h3, h4]

@[simp] theorem smGet_smPut_same (d : α) (m : SMap α) (i : Nat) (v : α) : smGet d (smPut m i v) i = v := by
  simp [smGet_smPut]

theorem smGet_smPut_other (d : α) (m : SMap α) {i j : Nat} (v : α) (h : j ≠ i) :
    smGet d (smPut m i v) j = smGet d m j := by
  simp [smGet_smPut, h]

@[simp] theorem smPut_smPut (m : SMap α) (i : Nat) (v w : α) : smPut (smPut m i v) i w = smPut m i w := by
  induction m with
  | nil => simp [smPut]
  | cons e t ih =>
    obtain ⟨k, x⟩ := e
    simp only [smPut]
    by_cases h1 : i = k
    · simp [h1, smPut]
    · by_cases h2 : i < k
      · simp [h1, h2, smPut]
      · simp [h1, h2, smPut, ih]

/-- Every key of a map is above a bound. -/
def smAbove (b : Nat) (m : SMap α) : Prop := ∀ e ∈ m, b < e.1

/-- Reading a map after the values of a list have been listed from a key on. -/
theorem smGet_smPutList (d : α) (m : SMap α) (i j : Nat) (vs : List α) :
    smGet d (smPutList m i vs) j = if i ≤ j ∧ j < i + vs.length then vs.getD (j - i) d else smGet d m j := by
  induction vs generalizing m i with
  | nil => simp [smPutList]
  | cons v vs ih =>
    rw [smPutList, ih, smGet_smPut]
    by_cases h : j = i
    · subst h
      simp
    · by_cases h1 : i + 1 ≤ j ∧ j < i + 1 + vs.length
      · have h2 : i ≤ j ∧ j < i + (v :: vs).length := by simp; omega
        obtain ⟨n, hn⟩ : ∃ n, j - i = n + 1 := ⟨j - i - 1, by omega⟩
        rw [if_pos h1, if_pos h2, hn]
        simp [show j - (i + 1) = n by omega]
      · have h2 : ¬ (i ≤ j ∧ j < i + (v :: vs).length) := by simp; omega
        rw [if_neg h1, if_neg h2, if_neg h]

theorem smWf_cons [DecidableEq α] (d : α) (k : Nat) (v : α) (t : SMap α) :
    smWf d ((k, v) :: t) = true ↔ smAbove k t ∧ v ≠ d ∧ smWf d t = true := by
  induction t generalizing k v with
  | nil => simp [smWf, smAbove]
  | cons e t ih =>
    obtain ⟨k', v'⟩ := e
    simp only [smWf, Bool.and_eq_true, decide_eq_true_eq, bne_iff_ne, ne_eq]
    rw [ih k' v']
    constructor
    · rintro ⟨⟨h1, h2⟩, h3, h4, h5⟩
      refine ⟨?_, h2, h3, h4, h5⟩
      intro e he
      rcases List.mem_cons.1 he with rfl | h
      · exact h1
      · exact Nat.lt_trans h1 (h3 e h)
    · rintro ⟨h1, h2, h3, h4, h5⟩
      exact ⟨⟨h1 (k', v') (by simp), h2⟩, h3, h4, h5⟩

theorem smAbove_smPut {b : Nat} {m : SMap α} {i : Nat} {v : α} (h : smAbove b m) (hi : b < i) :
    smAbove b (smPut m i v) := by
  induction m with
  | nil => intro e he; simp [smPut] at he; subst he; exact hi
  | cons e t ih =>
    obtain ⟨k, w⟩ := e
    have ht : smAbove b t := fun e he => h e (List.mem_cons_of_mem _ he)
    have hk : b < k := h (k, w) (by simp)
    intro e he
    simp only [smPut] at he
    split at he
    · rcases List.mem_cons.1 he with rfl | h'
      · exact hk
      · exact ht e h'
    · split at he
      · rcases List.mem_cons.1 he with rfl | h'
        · exact hi
        · exact h e h'
      · rcases List.mem_cons.1 he with rfl | h'
        · exact hk
        · exact ih ht e h'

theorem smAbove_smErase {b : Nat} {m : SMap α} {i : Nat} (h : smAbove b m) : smAbove b (smErase m i) := by
  induction m with
  | nil => exact h
  | cons e t ih =>
    obtain ⟨k, w⟩ := e
    have ht : smAbove b t := fun e he => h e (List.mem_cons_of_mem _ he)
    simp only [smErase]
    split
    · exact ht
    · split
      · exact h
      · intro e he
        rcases List.mem_cons.1 he with rfl | h'
        · exact h (k, w) (by simp)
        · exact ih ht e h'

theorem smWf_smPut [DecidableEq α] {d : α} {m : SMap α} {i : Nat} {v : α} (h : smWf d m = true) (hv : v ≠ d) :
    smWf d (smPut m i v) = true := by
  induction m with
  | nil => simp [smPut, smWf, hv]
  | cons e t ih =>
    obtain ⟨k, w⟩ := e
    obtain ⟨h1, h2, h3⟩ := (smWf_cons d k w t).1 h
    simp only [smPut]
    split
    · exact (smWf_cons d k v t).2 ⟨h1, hv, h3⟩
    · split
      · rename_i hlt
        refine (smWf_cons d i v _).2 ⟨?_, hv, h⟩
        intro e he
        rcases List.mem_cons.1 he with rfl | h'
        · exact hlt
        · exact Nat.lt_trans hlt (h1 e h')
      · exact (smWf_cons d k w _).2 ⟨smAbove_smPut h1 (by omega), h2, ih h3⟩

theorem smWf_smErase [DecidableEq α] {d : α} {m : SMap α} {i : Nat} (h : smWf d m = true) :
    smWf d (smErase m i) = true := by
  induction m with
  | nil => exact h
  | cons e t ih =>
    obtain ⟨k, w⟩ := e
    obtain ⟨h1, h2, h3⟩ := (smWf_cons d k w t).1 h
    simp only [smErase]
    split
    · exact h3
    · split
      · exact h
      · exact (smWf_cons d k w _).2 ⟨smAbove_smErase h1, h2, ih h3⟩

/-- A write keeps the canonical form. -/
theorem smWf_smSet [DecidableEq α] {d : α} {m : SMap α} {i : Nat} {v : α} (h : smWf d m = true) :
    smWf d (smSet d m i v) = true := by
  unfold smSet
  split
  · exact smWf_smErase h
  · exact smWf_smPut h ‹_›

/-- A write of a list keeps the canonical form. -/
theorem smWf_smSetList [DecidableEq α] {d : α} {m : SMap α} {i : Nat} {vs : List α} (h : smWf d m = true) :
    smWf d (smSetList d m i vs) = true := by
  induction vs generalizing m i with
  | nil => exact h
  | cons v vs ih => exact ih (smWf_smSet h)

/-- A part of a map in the canonical form is in it. -/
theorem smWf_filter [DecidableEq α] {d : α} {m : SMap α} {p : Nat × α → Bool} (h : smWf d m = true) :
    smWf d (m.filter p) = true := by
  induction m with
  | nil => exact h
  | cons e t ih =>
    obtain ⟨k, w⟩ := e
    obtain ⟨h1, h2, h3⟩ := (smWf_cons d k w t).1 h
    rw [List.filter_cons]
    split
    · exact (smWf_cons d k w _).2 ⟨fun e he => h1 e (List.mem_filter.1 he).1, h2, ih h3⟩
    · exact ih h3

theorem smWf_smRange [DecidableEq α] {d : α} {m : SMap α} {lo hi : Nat} (h : smWf d m = true) :
    smWf d (smRange m lo hi) = true := smWf_filter h

theorem smWf_smClear [DecidableEq α] {d : α} {m : SMap α} {lo hi : Nat} (h : smWf d m = true) :
    smWf d (smClear m lo hi) = true := smWf_filter h

theorem smGet_of_above {d : α} {m : SMap α} {i : Nat} (h : smAbove i m) : smGet d m i = d := by
  cases m with
  | nil => rfl
  | cons e t =>
    obtain ⟨k, w⟩ := e
    have hk : i < k := h (k, w) (by simp)
    have hn : i ≠ k := by omega
    simp [smGet, hk, hn]

theorem smGet_smErase [DecidableEq α] {d : α} {m : SMap α} (h : smWf d m = true) (i j : Nat) :
    smGet d (smErase m i) j = if j = i then d else smGet d m j := by
  induction m with
  | nil => simp [smErase, smGet]
  | cons e t ih =>
    obtain ⟨k, w⟩ := e
    obtain ⟨h1, h2, h3⟩ := (smWf_cons d k w t).1 h
    simp only [smErase]
    by_cases c1 : i = k
    · subst c1
      by_cases c2 : j = i
      · subst c2; simp [smGet_of_above h1]
      · by_cases c3 : j < i
        · have : smAbove j t := fun e he => Nat.lt_trans c3 (h1 e he)
          simp [c2, c3, smGet, smGet_of_above this]
        · simp [c2, c3, smGet]
    · by_cases c2 : i < k
      · by_cases c3 : j = i
        · subst c3; simp [c1, c2, smGet]
        · simp [c1, c2, c3]
      · simp only [c1, c2, if_false, smGet, ih h3]
        by_cases c3 : j = k
        · have : j ≠ i := by omega
          simp [c3, Ne.symm c1]
        · by_cases c4 : j < k
          · have : j ≠ i := by omega
            simp [c3, c4, this]
          · simp [c3, c4]

/-- What a read gives after a write. -/
theorem smGet_smSet [DecidableEq α] {d : α} {m : SMap α} (h : smWf d m = true) (i j : Nat) (v : α) :
    smGet d (smSet d m i v) j = if j = i then v else smGet d m j := by
  unfold smSet
  split
  · rename_i hv; subst hv; exact smGet_smErase h i j
  · exact smGet_smPut d m i j v

/-- What a read gives after a write of a list. -/
theorem smGet_smSetList [DecidableEq α] {d : α} {m : SMap α} (h : smWf d m = true) (i j : Nat) (vs : List α) :
    smGet d (smSetList d m i vs) j = if i ≤ j ∧ j < i + vs.length then vs.getD (j - i) d else smGet d m j := by
  induction vs generalizing m i with
  | nil => simp [smSetList]
  | cons v vs ih =>
    rw [smSetList, ih (smWf_smSet h), smGet_smSet h, List.length_cons]
    by_cases c : j = i
    · subst c; simp
    · by_cases c2 : i + 1 ≤ j ∧ j < i + 1 + vs.length
      · have e : j - i = (j - (i + 1)) + 1 := by omega
        have c3 : i ≤ j ∧ j < i + (vs.length + 1) := by omega
        simp [c2, c3, e]
      · have c3 : ¬ (i ≤ j ∧ j < i + (vs.length + 1)) := by omega
        rw [if_neg c2, if_neg c, if_neg c3]

end Sys2Proof.Machine
end

