-- ==== Sys2Proof/Laws/State.lean ====
section
/-!
SUPPORT. What each update of the state leaves as it was and what a read of the part it changes gives: one lemma for each
field and update, true by `rfl`, and the lemmas of reading a tile or a core back.
-/
namespace Sys2Proof.Machine

/-! ## Fields that an update leaves alone -/

@[simp] theorem State.setTile_mem (s : State) (t : Nat) (x : Tile) : (s.setTile t x).mem = s.mem := rfl
@[simp] theorem State.setTile_keyTag (s : State) (t : Nat) (x : Tile) : (s.setTile t x).keyTag = s.keyTag := rfl
@[simp] theorem State.setTile_poison (s : State) (t : Nat) (x : Tile) : (s.setTile t x).poison = s.poison := rfl
@[simp] theorem State.setTile_cycle (s : State) (t : Nat) (x : Tile) : (s.setTile t x).cycle = s.cycle := rfl
@[simp] theorem State.setTile_gtc0 (s : State) (t : Nat) (x : Tile) : (s.setTile t x).gtc0 = s.gtc0 := rfl
@[simp] theorem State.setTile_jobs (s : State) (t : Nat) (x : Tile) : (s.setTile t x).jobs = s.jobs := rfl
@[simp] theorem State.setTile_launches (s : State) (t : Nat) (x : Tile) : (s.setTile t x).launches = s.launches := rfl
@[simp] theorem State.setTile_runs (s : State) (t : Nat) (x : Tile) : (s.setTile t x).runs = s.runs := rfl
@[simp] theorem State.setTile_queues (s : State) (t : Nat) (x : Tile) : (s.setTile t x).queues = s.queues := rfl
@[simp] theorem State.setTile_rotPos (s : State) (t : Nat) (x : Tile) : (s.setTile t x).rotPos = s.rotPos := rfl
@[simp] theorem State.setTile_rotLast (s : State) (t : Nat) (x : Tile) : (s.setTile t x).rotLast = s.rotLast := rfl
@[simp] theorem State.setTile_cps (s : State) (t : Nat) (x : Tile) : (s.setTile t x).cps = s.cps := rfl
@[simp] theorem State.setTile_ports (s : State) (t : Nat) (x : Tile) : (s.setTile t x).ports = s.ports := rfl
@[simp] theorem State.setTile_nextExch (s : State) (t : Nat) (x : Tile) : (s.setTile t x).nextExch = s.nextExch := rfl
@[simp] theorem State.setTile_fabric (s : State) (t : Nat) (x : Tile) : (s.setTile t x).fabric = s.fabric := rfl
@[simp] theorem State.setTile_hostOut (s : State) (t : Nat) (x : Tile) : (s.setTile t x).hostOut = s.hostOut := rfl
@[simp] theorem State.setTile_hostReads (s : State) (t : Nat) (x : Tile) : (s.setTile t x).hostReads = s.hostReads := rfl
@[simp] theorem State.setTile_solo (s : State) (t : Nat) (x : Tile) : (s.setTile t x).solo = s.solo := rfl
@[simp] theorem State.setTile_updates (s : State) (t : Nat) (x : Tile) : (s.setTile t x).updates = s.updates := rfl
@[simp] theorem State.setTile_gslip (s : State) (t : Nat) (x : Tile) : (s.setTile t x).gslip = s.gslip := rfl
@[simp] theorem State.setTile_dwin (s : State) (t : Nat) (x : Tile) : (s.setTile t x).dwin = s.dwin := rfl
@[simp] theorem State.setTile_mig (s : State) (t : Nat) (x : Tile) : (s.setTile t x).mig = s.mig := rfl
@[simp] theorem State.setTile_tdi (s : State) (t : Nat) (x : Tile) : (s.setTile t x).tdi = s.tdi := rfl
@[simp] theorem State.setTile_errlog (s : State) (t : Nat) (x : Tile) : (s.setTile t x).errlog = s.errlog := rfl
@[simp] theorem State.setTile_rsc (s : State) (t : Nat) (x : Tile) : (s.setTile t x).rsc = s.rsc := rfl
@[simp] theorem State.setTile_side (s : State) (t : Nat) (x : Tile) : (s.setTile t x).side = s.side := rfl
@[simp] theorem State.setTile_nextId (s : State) (t : Nat) (x : Tile) : (s.setTile t x).nextId = s.nextId := rfl
@[simp] theorem State.setTile_agenda (s : State) (t : Nat) (x : Tile) : (s.setTile t x).agenda = s.agenda := rfl
@[simp] theorem State.setTile_rr (s : State) (t : Nat) (x : Tile) : (s.setTile t x).rr = s.rr := rfl
@[simp] theorem State.setTile_choices (s : State) (t : Nat) (x : Tile) : (s.setTile t x).choices = s.choices := rfl
@[simp] theorem State.setTile_free (s : State) (t : Nat) (x : Tile) : (s.setTile t x).free = s.free := rfl
@[simp] theorem State.setTile_curTile (s : State) (t : Nat) (x : Tile) : (s.setTile t x).curTile = s.curTile := rfl
@[simp] theorem State.setTile_curCore (s : State) (t : Nat) (x : Tile) : (s.setTile t x).curCore = s.curCore := rfl
@[simp] theorem State.setTile_curCp (s : State) (t : Nat) (x : Tile) : (s.setTile t x).curCp = s.curCp := rfl
@[simp] theorem State.setTile_rowTlb (s : State) (t : Nat) (x : Tile) : (s.setTile t x).rowTlb = s.rowTlb := rfl
@[simp] theorem State.setTile_upper (s : State) (t : Nat) (x : Tile) : (s.setTile t x).upper = s.upper := rfl
@[simp] theorem State.setTile_trims (s : State) (t : Nat) (x : Tile) : (s.setTile t x).trims = s.trims := rfl
@[simp] theorem State.setTile_fresh (s : State) (t : Nat) (x : Tile) : (s.setTile t x).fresh = s.fresh := rfl
@[simp] theorem State.setTile_pci (s : State) (t : Nat) (x : Tile) : (s.setTile t x).pci = s.pci := rfl

@[simp] theorem State.updTile_mem (s : State) (t : Nat) (f : Tile → Tile) : (s.updTile t f).mem = s.mem := rfl
@[simp] theorem State.updTile_keyTag (s : State) (t : Nat) (f : Tile → Tile) : (s.updTile t f).keyTag = s.keyTag := rfl
@[simp] theorem State.updTile_poison (s : State) (t : Nat) (f : Tile → Tile) : (s.updTile t f).poison = s.poison := rfl
@[simp] theorem State.updTile_cycle (s : State) (t : Nat) (f : Tile → Tile) : (s.updTile t f).cycle = s.cycle := rfl
@[simp] theorem State.updTile_gtc0 (s : State) (t : Nat) (f : Tile → Tile) : (s.updTile t f).gtc0 = s.gtc0 := rfl
@[simp] theorem State.updTile_jobs (s : State) (t : Nat) (f : Tile → Tile) : (s.updTile t f).jobs = s.jobs := rfl
@[simp] theorem State.updTile_launches (s : State) (t : Nat) (f : Tile → Tile) : (s.updTile t f).launches = s.launches := rfl
@[simp] theorem State.updTile_runs (s : State) (t : Nat) (f : Tile → Tile) : (s.updTile t f).runs = s.runs := rfl
@[simp] theorem State.updTile_queues (s : State) (t : Nat) (f : Tile → Tile) : (s.updTile t f).queues = s.queues := rfl
@[simp] theorem State.updTile_rotPos (s : State) (t : Nat) (f : Tile → Tile) : (s.updTile t f).rotPos = s.rotPos := rfl
@[simp] theorem State.updTile_rotLast (s : State) (t : Nat) (f : Tile → Tile) : (s.updTile t f).rotLast = s.rotLast := rfl
@[simp] theorem State.updTile_cps (s : State) (t : Nat) (f : Tile → Tile) : (s.updTile t f).cps = s.cps := rfl
@[simp] theorem State.updTile_ports (s : State) (t : Nat) (f : Tile → Tile) : (s.updTile t f).ports = s.ports := rfl
@[simp] theorem State.updTile_nextExch (s : State) (t : Nat) (f : Tile → Tile) : (s.updTile t f).nextExch = s.nextExch := rfl
@[simp] theorem State.updTile_fabric (s : State) (t : Nat) (f : Tile → Tile) : (s.updTile t f).fabric = s.fabric := rfl
@[simp] theorem State.updTile_hostOut (s : State) (t : Nat) (f : Tile → Tile) : (s.updTile t f).hostOut = s.hostOut := rfl
@[simp] theorem State.updTile_hostReads (s : State) (t : Nat) (f : Tile → Tile) : (s.updTile t f).hostReads = s.hostReads := rfl
@[simp] theorem State.updTile_solo (s : State) (t : Nat) (f : Tile → Tile) : (s.updTile t f).solo = s.solo := rfl
@[simp] theorem State.updTile_updates (s : State) (t : Nat) (f : Tile → Tile) : (s.updTile t f).updates = s.updates := rfl
@[simp] theorem State.updTile_gslip (s : State) (t : Nat) (f : Tile → Tile) : (s.updTile t f).gslip = s.gslip := rfl
@[simp] theorem State.updTile_dwin (s : State) (t : Nat) (f : Tile → Tile) : (s.updTile t f).dwin = s.dwin := rfl
@[simp] theorem State.updTile_mig (s : State) (t : Nat) (f : Tile → Tile) : (s.updTile t f).mig = s.mig := rfl
@[simp] theorem State.updTile_tdi (s : State) (t : Nat) (f : Tile → Tile) : (s.updTile t f).tdi = s.tdi := rfl
@[simp] theorem State.updTile_errlog (s : State) (t : Nat) (f : Tile → Tile) : (s.updTile t f).errlog = s.errlog := rfl
@[simp] theorem State.updTile_rsc (s : State) (t : Nat) (f : Tile → Tile) : (s.updTile t f).rsc = s.rsc := rfl
@[simp] theorem State.updTile_side (s : State) (t : Nat) (f : Tile → Tile) : (s.updTile t f).side = s.side := rfl
@[simp] theorem State.updTile_nextId (s : State) (t : Nat) (f : Tile → Tile) : (s.updTile t f).nextId = s.nextId := rfl
@[simp] theorem State.updTile_agenda (s : State) (t : Nat) (f : Tile → Tile) : (s.updTile t f).agenda = s.agenda := rfl
@[simp] theorem State.updTile_rr (s : State) (t : Nat) (f : Tile → Tile) : (s.updTile t f).rr = s.rr := rfl
@[simp] theorem State.updTile_choices (s : State) (t : Nat) (f : Tile → Tile) : (s.updTile t f).choices = s.choices := rfl
@[simp] theorem State.updTile_free (s : State) (t : Nat) (f : Tile → Tile) : (s.updTile t f).free = s.free := rfl
@[simp] theorem State.updTile_curTile (s : State) (t : Nat) (f : Tile → Tile) : (s.updTile t f).curTile = s.curTile := rfl
@[simp] theorem State.updTile_curCore (s : State) (t : Nat) (f : Tile → Tile) : (s.updTile t f).curCore = s.curCore := rfl
@[simp] theorem State.updTile_curCp (s : State) (t : Nat) (f : Tile → Tile) : (s.updTile t f).curCp = s.curCp := rfl
@[simp] theorem State.updTile_rowTlb (s : State) (t : Nat) (f : Tile → Tile) : (s.updTile t f).rowTlb = s.rowTlb := rfl
@[simp] theorem State.updTile_upper (s : State) (t : Nat) (f : Tile → Tile) : (s.updTile t f).upper = s.upper := rfl
@[simp] theorem State.updTile_trims (s : State) (t : Nat) (f : Tile → Tile) : (s.updTile t f).trims = s.trims := rfl
@[simp] theorem State.updTile_fresh (s : State) (t : Nat) (f : Tile → Tile) : (s.updTile t f).fresh = s.fresh := rfl
@[simp] theorem State.updTile_pci (s : State) (t : Nat) (f : Tile → Tile) : (s.updTile t f).pci = s.pci := rfl

@[simp] theorem State.setCore_mem (s : State) (t : Nat) (k : CoreK) (c : Core) : (s.setCore t k c).mem = s.mem := rfl
@[simp] theorem State.setCore_keyTag (s : State) (t : Nat) (k : CoreK) (c : Core) : (s.setCore t k c).keyTag = s.keyTag := rfl
@[simp] theorem State.setCore_poison (s : State) (t : Nat) (k : CoreK) (c : Core) : (s.setCore t k c).poison = s.poison := rfl
@[simp] theorem State.setCore_cycle (s : State) (t : Nat) (k : CoreK) (c : Core) : (s.setCore t k c).cycle = s.cycle := rfl
@[simp] theorem State.setCore_gtc0 (s : State) (t : Nat) (k : CoreK) (c : Core) : (s.setCore t k c).gtc0 = s.gtc0 := rfl
@[simp] theorem State.setCore_jobs (s : State) (t : Nat) (k : CoreK) (c : Core) : (s.setCore t k c).jobs = s.jobs := rfl
@[simp] theorem State.setCore_launches (s : State) (t : Nat) (k : CoreK) (c : Core) : (s.setCore t k c).launches = s.launches := rfl
@[simp] theorem State.setCore_runs (s : State) (t : Nat) (k : CoreK) (c : Core) : (s.setCore t k c).runs = s.runs := rfl
@[simp] theorem State.setCore_queues (s : State) (t : Nat) (k : CoreK) (c : Core) : (s.setCore t k c).queues = s.queues := rfl
@[simp] theorem State.setCore_rotPos (s : State) (t : Nat) (k : CoreK) (c : Core) : (s.setCore t k c).rotPos = s.rotPos := rfl
@[simp] theorem State.setCore_rotLast (s : State) (t : Nat) (k : CoreK) (c : Core) : (s.setCore t k c).rotLast = s.rotLast := rfl
@[simp] theorem State.setCore_cps (s : State) (t : Nat) (k : CoreK) (c : Core) : (s.setCore t k c).cps = s.cps := rfl
@[simp] theorem State.setCore_ports (s : State) (t : Nat) (k : CoreK) (c : Core) : (s.setCore t k c).ports = s.ports := rfl
@[simp] theorem State.setCore_nextExch (s : State) (t : Nat) (k : CoreK) (c : Core) : (s.setCore t k c).nextExch = s.nextExch := rfl
@[simp] theorem State.setCore_fabric (s : State) (t : Nat) (k : CoreK) (c : Core) : (s.setCore t k c).fabric = s.fabric := rfl
@[simp] theorem State.setCore_hostOut (s : State) (t : Nat) (k : CoreK) (c : Core) : (s.setCore t k c).hostOut = s.hostOut := rfl
@[simp] theorem State.setCore_hostReads (s : State) (t : Nat) (k : CoreK) (c : Core) : (s.setCore t k c).hostReads = s.hostReads := rfl
@[simp] theorem State.setCore_solo (s : State) (t : Nat) (k : CoreK) (c : Core) : (s.setCore t k c).solo = s.solo := rfl
@[simp] theorem State.setCore_updates (s : State) (t : Nat) (k : CoreK) (c : Core) : (s.setCore t k c).updates = s.updates := rfl
@[simp] theorem State.setCore_gslip (s : State) (t : Nat) (k : CoreK) (c : Core) : (s.setCore t k c).gslip = s.gslip := rfl
@[simp] theorem State.setCore_dwin (s : State) (t : Nat) (k : CoreK) (c : Core) : (s.setCore t k c).dwin = s.dwin := rfl
@[simp] theorem State.setCore_mig (s : State) (t : Nat) (k : CoreK) (c : Core) : (s.setCore t k c).mig = s.mig := rfl
@[simp] theorem State.setCore_tdi (s : State) (t : Nat) (k : CoreK) (c : Core) : (s.setCore t k c).tdi = s.tdi := rfl
@[simp] theorem State.setCore_errlog (s : State) (t : Nat) (k : CoreK) (c : Core) : (s.setCore t k c).errlog = s.errlog := rfl
@[simp] theorem State.setCore_rsc (s : State) (t : Nat) (k : CoreK) (c : Core) : (s.setCore t k c).rsc = s.rsc := rfl
@[simp] theorem State.setCore_side (s : State) (t : Nat) (k : CoreK) (c : Core) : (s.setCore t k c).side = s.side := rfl
@[simp] theorem State.setCore_nextId (s : State) (t : Nat) (k : CoreK) (c : Core) : (s.setCore t k c).nextId = s.nextId := rfl
@[simp] theorem State.setCore_agenda (s : State) (t : Nat) (k : CoreK) (c : Core) : (s.setCore t k c).agenda = s.agenda := rfl
@[simp] theorem State.setCore_rr (s : State) (t : Nat) (k : CoreK) (c : Core) : (s.setCore t k c).rr = s.rr := rfl
@[simp] theorem State.setCore_choices (s : State) (t : Nat) (k : CoreK) (c : Core) : (s.setCore t k c).choices = s.choices := rfl
@[simp] theorem State.setCore_free (s : State) (t : Nat) (k : CoreK) (c : Core) : (s.setCore t k c).free = s.free := rfl
@[simp] theorem State.setCore_curTile (s : State) (t : Nat) (k : CoreK) (c : Core) : (s.setCore t k c).curTile = s.curTile := rfl
@[simp] theorem State.setCore_curCore (s : State) (t : Nat) (k : CoreK) (c : Core) : (s.setCore t k c).curCore = s.curCore := rfl
@[simp] theorem State.setCore_curCp (s : State) (t : Nat) (k : CoreK) (c : Core) : (s.setCore t k c).curCp = s.curCp := rfl
@[simp] theorem State.setCore_rowTlb (s : State) (t : Nat) (k : CoreK) (c : Core) : (s.setCore t k c).rowTlb = s.rowTlb := rfl
@[simp] theorem State.setCore_upper (s : State) (t : Nat) (k : CoreK) (c : Core) : (s.setCore t k c).upper = s.upper := rfl
@[simp] theorem State.setCore_trims (s : State) (t : Nat) (k : CoreK) (c : Core) : (s.setCore t k c).trims = s.trims := rfl
@[simp] theorem State.setCore_fresh (s : State) (t : Nat) (k : CoreK) (c : Core) : (s.setCore t k c).fresh = s.fresh := rfl
@[simp] theorem State.setCore_pci (s : State) (t : Nat) (k : CoreK) (c : Core) : (s.setCore t k c).pci = s.pci := rfl

@[simp] theorem State.updCore_mem (s : State) (t : Nat) (k : CoreK) (f : Core → Core) : (s.updCore t k f).mem = s.mem := rfl
@[simp] theorem State.updCore_keyTag (s : State) (t : Nat) (k : CoreK) (f : Core → Core) : (s.updCore t k f).keyTag = s.keyTag := rfl
@[simp] theorem State.updCore_poison (s : State) (t : Nat) (k : CoreK) (f : Core → Core) : (s.updCore t k f).poison = s.poison := rfl
@[simp] theorem State.updCore_cycle (s : State) (t : Nat) (k : CoreK) (f : Core → Core) : (s.updCore t k f).cycle = s.cycle := rfl
@[simp] theorem State.updCore_gtc0 (s : State) (t : Nat) (k : CoreK) (f : Core → Core) : (s.updCore t k f).gtc0 = s.gtc0 := rfl
@[simp] theorem State.updCore_jobs (s : State) (t : Nat) (k : CoreK) (f : Core → Core) : (s.updCore t k f).jobs = s.jobs := rfl
@[simp] theorem State.updCore_launches (s : State) (t : Nat) (k : CoreK) (f : Core → Core) : (s.updCore t k f).launches = s.launches := rfl
@[simp] theorem State.updCore_runs (s : State) (t : Nat) (k : CoreK) (f : Core → Core) : (s.updCore t k f).runs = s.runs := rfl
@[simp] theorem State.updCore_queues (s : State) (t : Nat) (k : CoreK) (f : Core → Core) : (s.updCore t k f).queues = s.queues := rfl
@[simp] theorem State.updCore_rotPos (s : State) (t : Nat) (k : CoreK) (f : Core → Core) : (s.updCore t k f).rotPos = s.rotPos := rfl
@[simp] theorem State.updCore_rotLast (s : State) (t : Nat) (k : CoreK) (f : Core → Core) : (s.updCore t k f).rotLast = s.rotLast := rfl
@[simp] theorem State.updCore_cps (s : State) (t : Nat) (k : CoreK) (f : Core → Core) : (s.updCore t k f).cps = s.cps := rfl
@[simp] theorem State.updCore_ports (s : State) (t : Nat) (k : CoreK) (f : Core → Core) : (s.updCore t k f).ports = s.ports := rfl
@[simp] theorem State.updCore_nextExch (s : State) (t : Nat) (k : CoreK) (f : Core → Core) : (s.updCore t k f).nextExch = s.nextExch := rfl
@[simp] theorem State.updCore_fabric (s : State) (t : Nat) (k : CoreK) (f : Core → Core) : (s.updCore t k f).fabric = s.fabric := rfl
@[simp] theorem State.updCore_hostOut (s : State) (t : Nat) (k : CoreK) (f : Core → Core) : (s.updCore t k f).hostOut = s.hostOut := rfl
@[simp] theorem State.updCore_hostReads (s : State) (t : Nat) (k : CoreK) (f : Core → Core) : (s.updCore t k f).hostReads = s.hostReads := rfl
@[simp] theorem State.updCore_solo (s : State) (t : Nat) (k : CoreK) (f : Core → Core) : (s.updCore t k f).solo = s.solo := rfl
@[simp] theorem State.updCore_updates (s : State) (t : Nat) (k : CoreK) (f : Core → Core) : (s.updCore t k f).updates = s.updates := rfl
@[simp] theorem State.updCore_gslip (s : State) (t : Nat) (k : CoreK) (f : Core → Core) : (s.updCore t k f).gslip = s.gslip := rfl
@[simp] theorem State.updCore_dwin (s : State) (t : Nat) (k : CoreK) (f : Core → Core) : (s.updCore t k f).dwin = s.dwin := rfl
@[simp] theorem State.updCore_mig (s : State) (t : Nat) (k : CoreK) (f : Core → Core) : (s.updCore t k f).mig = s.mig := rfl
@[simp] theorem State.updCore_tdi (s : State) (t : Nat) (k : CoreK) (f : Core → Core) : (s.updCore t k f).tdi = s.tdi := rfl
@[simp] theorem State.updCore_errlog (s : State) (t : Nat) (k : CoreK) (f : Core → Core) : (s.updCore t k f).errlog = s.errlog := rfl
@[simp] theorem State.updCore_rsc (s : State) (t : Nat) (k : CoreK) (f : Core → Core) : (s.updCore t k f).rsc = s.rsc := rfl
@[simp] theorem State.updCore_side (s : State) (t : Nat) (k : CoreK) (f : Core → Core) : (s.updCore t k f).side = s.side := rfl
@[simp] theorem State.updCore_nextId (s : State) (t : Nat) (k : CoreK) (f : Core → Core) : (s.updCore t k f).nextId = s.nextId := rfl
@[simp] theorem State.updCore_agenda (s : State) (t : Nat) (k : CoreK) (f : Core → Core) : (s.updCore t k f).agenda = s.agenda := rfl
@[simp] theorem State.updCore_rr (s : State) (t : Nat) (k : CoreK) (f : Core → Core) : (s.updCore t k f).rr = s.rr := rfl
@[simp] theorem State.updCore_choices (s : State) (t : Nat) (k : CoreK) (f : Core → Core) : (s.updCore t k f).choices = s.choices := rfl
@[simp] theorem State.updCore_free (s : State) (t : Nat) (k : CoreK) (f : Core → Core) : (s.updCore t k f).free = s.free := rfl
@[simp] theorem State.updCore_curTile (s : State) (t : Nat) (k : CoreK) (f : Core → Core) : (s.updCore t k f).curTile = s.curTile := rfl
@[simp] theorem State.updCore_curCore (s : State) (t : Nat) (k : CoreK) (f : Core → Core) : (s.updCore t k f).curCore = s.curCore := rfl
@[simp] theorem State.updCore_curCp (s : State) (t : Nat) (k : CoreK) (f : Core → Core) : (s.updCore t k f).curCp = s.curCp := rfl
@[simp] theorem State.updCore_rowTlb (s : State) (t : Nat) (k : CoreK) (f : Core → Core) : (s.updCore t k f).rowTlb = s.rowTlb := rfl
@[simp] theorem State.updCore_upper (s : State) (t : Nat) (k : CoreK) (f : Core → Core) : (s.updCore t k f).upper = s.upper := rfl
@[simp] theorem State.updCore_trims (s : State) (t : Nat) (k : CoreK) (f : Core → Core) : (s.updCore t k f).trims = s.trims := rfl
@[simp] theorem State.updCore_fresh (s : State) (t : Nat) (k : CoreK) (f : Core → Core) : (s.updCore t k f).fresh = s.fresh := rfl
@[simp] theorem State.updCore_pci (s : State) (t : Nat) (k : CoreK) (f : Core → Core) : (s.updCore t k f).pci = s.pci := rfl

@[simp] theorem State.setMe_mem (s : State) (c : Core) : (s.setMe c).mem = s.mem := rfl
@[simp] theorem State.setMe_keyTag (s : State) (c : Core) : (s.setMe c).keyTag = s.keyTag := rfl
@[simp] theorem State.setMe_poison (s : State) (c : Core) : (s.setMe c).poison = s.poison := rfl
@[simp] theorem State.setMe_cycle (s : State) (c : Core) : (s.setMe c).cycle = s.cycle := rfl
@[simp] theorem State.setMe_gtc0 (s : State) (c : Core) : (s.setMe c).gtc0 = s.gtc0 := rfl
@[simp] theorem State.setMe_jobs (s : State) (c : Core) : (s.setMe c).jobs = s.jobs := rfl
@[simp] theorem State.setMe_launches (s : State) (c : Core) : (s.setMe c).launches = s.launches := rfl
@[simp] theorem State.setMe_runs (s : State) (c : Core) : (s.setMe c).runs = s.runs := rfl
@[simp] theorem State.setMe_queues (s : State) (c : Core) : (s.setMe c).queues = s.queues := rfl
@[simp] theorem State.setMe_rotPos (s : State) (c : Core) : (s.setMe c).rotPos = s.rotPos := rfl
@[simp] theorem State.setMe_rotLast (s : State) (c : Core) : (s.setMe c).rotLast = s.rotLast := rfl
@[simp] theorem State.setMe_cps (s : State) (c : Core) : (s.setMe c).cps = s.cps := rfl
@[simp] theorem State.setMe_ports (s : State) (c : Core) : (s.setMe c).ports = s.ports := rfl
@[simp] theorem State.setMe_nextExch (s : State) (c : Core) : (s.setMe c).nextExch = s.nextExch := rfl
@[simp] theorem State.setMe_fabric (s : State) (c : Core) : (s.setMe c).fabric = s.fabric := rfl
@[simp] theorem State.setMe_hostOut (s : State) (c : Core) : (s.setMe c).hostOut = s.hostOut := rfl
@[simp] theorem State.setMe_hostReads (s : State) (c : Core) : (s.setMe c).hostReads = s.hostReads := rfl
@[simp] theorem State.setMe_solo (s : State) (c : Core) : (s.setMe c).solo = s.solo := rfl
@[simp] theorem State.setMe_updates (s : State) (c : Core) : (s.setMe c).updates = s.updates := rfl
@[simp] theorem State.setMe_gslip (s : State) (c : Core) : (s.setMe c).gslip = s.gslip := rfl
@[simp] theorem State.setMe_dwin (s : State) (c : Core) : (s.setMe c).dwin = s.dwin := rfl
@[simp] theorem State.setMe_mig (s : State) (c : Core) : (s.setMe c).mig = s.mig := rfl
@[simp] theorem State.setMe_tdi (s : State) (c : Core) : (s.setMe c).tdi = s.tdi := rfl
@[simp] theorem State.setMe_errlog (s : State) (c : Core) : (s.setMe c).errlog = s.errlog := rfl
@[simp] theorem State.setMe_rsc (s : State) (c : Core) : (s.setMe c).rsc = s.rsc := rfl
@[simp] theorem State.setMe_side (s : State) (c : Core) : (s.setMe c).side = s.side := rfl
@[simp] theorem State.setMe_nextId (s : State) (c : Core) : (s.setMe c).nextId = s.nextId := rfl
@[simp] theorem State.setMe_agenda (s : State) (c : Core) : (s.setMe c).agenda = s.agenda := rfl
@[simp] theorem State.setMe_rr (s : State) (c : Core) : (s.setMe c).rr = s.rr := rfl
@[simp] theorem State.setMe_choices (s : State) (c : Core) : (s.setMe c).choices = s.choices := rfl
@[simp] theorem State.setMe_free (s : State) (c : Core) : (s.setMe c).free = s.free := rfl
@[simp] theorem State.setMe_curTile (s : State) (c : Core) : (s.setMe c).curTile = s.curTile := rfl
@[simp] theorem State.setMe_curCore (s : State) (c : Core) : (s.setMe c).curCore = s.curCore := rfl
@[simp] theorem State.setMe_curCp (s : State) (c : Core) : (s.setMe c).curCp = s.curCp := rfl
@[simp] theorem State.setMe_rowTlb (s : State) (c : Core) : (s.setMe c).rowTlb = s.rowTlb := rfl
@[simp] theorem State.setMe_upper (s : State) (c : Core) : (s.setMe c).upper = s.upper := rfl
@[simp] theorem State.setMe_trims (s : State) (c : Core) : (s.setMe c).trims = s.trims := rfl
@[simp] theorem State.setMe_fresh (s : State) (c : Core) : (s.setMe c).fresh = s.fresh := rfl
@[simp] theorem State.setMe_pci (s : State) (c : Core) : (s.setMe c).pci = s.pci := rfl

@[simp] theorem State.setPort_mem (s : State) (p : Bool) (x : Port) : (s.setPort p x).mem = s.mem := rfl
@[simp] theorem State.setPort_keyTag (s : State) (p : Bool) (x : Port) : (s.setPort p x).keyTag = s.keyTag := rfl
@[simp] theorem State.setPort_poison (s : State) (p : Bool) (x : Port) : (s.setPort p x).poison = s.poison := rfl
@[simp] theorem State.setPort_cycle (s : State) (p : Bool) (x : Port) : (s.setPort p x).cycle = s.cycle := rfl
@[simp] theorem State.setPort_gtc0 (s : State) (p : Bool) (x : Port) : (s.setPort p x).gtc0 = s.gtc0 := rfl
@[simp] theorem State.setPort_tiles (s : State) (p : Bool) (x : Port) : (s.setPort p x).tiles = s.tiles := rfl
@[simp] theorem State.setPort_jobs (s : State) (p : Bool) (x : Port) : (s.setPort p x).jobs = s.jobs := rfl
@[simp] theorem State.setPort_launches (s : State) (p : Bool) (x : Port) : (s.setPort p x).launches = s.launches := rfl
@[simp] theorem State.setPort_runs (s : State) (p : Bool) (x : Port) : (s.setPort p x).runs = s.runs := rfl
@[simp] theorem State.setPort_queues (s : State) (p : Bool) (x : Port) : (s.setPort p x).queues = s.queues := rfl
@[simp] theorem State.setPort_rotPos (s : State) (p : Bool) (x : Port) : (s.setPort p x).rotPos = s.rotPos := rfl
@[simp] theorem State.setPort_rotLast (s : State) (p : Bool) (x : Port) : (s.setPort p x).rotLast = s.rotLast := rfl
@[simp] theorem State.setPort_cps (s : State) (p : Bool) (x : Port) : (s.setPort p x).cps = s.cps := rfl
@[simp] theorem State.setPort_nextExch (s : State) (p : Bool) (x : Port) : (s.setPort p x).nextExch = s.nextExch := rfl
@[simp] theorem State.setPort_fabric (s : State) (p : Bool) (x : Port) : (s.setPort p x).fabric = s.fabric := rfl
@[simp] theorem State.setPort_hostOut (s : State) (p : Bool) (x : Port) : (s.setPort p x).hostOut = s.hostOut := rfl
@[simp] theorem State.setPort_hostReads (s : State) (p : Bool) (x : Port) : (s.setPort p x).hostReads = s.hostReads := rfl
@[simp] theorem State.setPort_solo (s : State) (p : Bool) (x : Port) : (s.setPort p x).solo = s.solo := rfl
@[simp] theorem State.setPort_updates (s : State) (p : Bool) (x : Port) : (s.setPort p x).updates = s.updates := rfl
@[simp] theorem State.setPort_gslip (s : State) (p : Bool) (x : Port) : (s.setPort p x).gslip = s.gslip := rfl
@[simp] theorem State.setPort_dwin (s : State) (p : Bool) (x : Port) : (s.setPort p x).dwin = s.dwin := rfl
@[simp] theorem State.setPort_mig (s : State) (p : Bool) (x : Port) : (s.setPort p x).mig = s.mig := rfl
@[simp] theorem State.setPort_tdi (s : State) (p : Bool) (x : Port) : (s.setPort p x).tdi = s.tdi := rfl
@[simp] theorem State.setPort_errlog (s : State) (p : Bool) (x : Port) : (s.setPort p x).errlog = s.errlog := rfl
@[simp] theorem State.setPort_rsc (s : State) (p : Bool) (x : Port) : (s.setPort p x).rsc = s.rsc := rfl
@[simp] theorem State.setPort_side (s : State) (p : Bool) (x : Port) : (s.setPort p x).side = s.side := rfl
@[simp] theorem State.setPort_nextId (s : State) (p : Bool) (x : Port) : (s.setPort p x).nextId = s.nextId := rfl
@[simp] theorem State.setPort_agenda (s : State) (p : Bool) (x : Port) : (s.setPort p x).agenda = s.agenda := rfl
@[simp] theorem State.setPort_rr (s : State) (p : Bool) (x : Port) : (s.setPort p x).rr = s.rr := rfl
@[simp] theorem State.setPort_choices (s : State) (p : Bool) (x : Port) : (s.setPort p x).choices = s.choices := rfl
@[simp] theorem State.setPort_free (s : State) (p : Bool) (x : Port) : (s.setPort p x).free = s.free := rfl
@[simp] theorem State.setPort_curTile (s : State) (p : Bool) (x : Port) : (s.setPort p x).curTile = s.curTile := rfl
@[simp] theorem State.setPort_curCore (s : State) (p : Bool) (x : Port) : (s.setPort p x).curCore = s.curCore := rfl
@[simp] theorem State.setPort_curCp (s : State) (p : Bool) (x : Port) : (s.setPort p x).curCp = s.curCp := rfl
@[simp] theorem State.setPort_rowTlb (s : State) (p : Bool) (x : Port) : (s.setPort p x).rowTlb = s.rowTlb := rfl
@[simp] theorem State.setPort_upper (s : State) (p : Bool) (x : Port) : (s.setPort p x).upper = s.upper := rfl
@[simp] theorem State.setPort_trims (s : State) (p : Bool) (x : Port) : (s.setPort p x).trims = s.trims := rfl
@[simp] theorem State.setPort_fresh (s : State) (p : Bool) (x : Port) : (s.setPort p x).fresh = s.fresh := rfl
@[simp] theorem State.setPort_pci (s : State) (p : Bool) (x : Port) : (s.setPort p x).pci = s.pci := rfl

@[simp] theorem State.setQueue_mem (s : State) (q : Nat) (x : Queue) : (s.setQueue q x).mem = s.mem := rfl
@[simp] theorem State.setQueue_keyTag (s : State) (q : Nat) (x : Queue) : (s.setQueue q x).keyTag = s.keyTag := rfl
@[simp] theorem State.setQueue_poison (s : State) (q : Nat) (x : Queue) : (s.setQueue q x).poison = s.poison := rfl
@[simp] theorem State.setQueue_cycle (s : State) (q : Nat) (x : Queue) : (s.setQueue q x).cycle = s.cycle := rfl
@[simp] theorem State.setQueue_gtc0 (s : State) (q : Nat) (x : Queue) : (s.setQueue q x).gtc0 = s.gtc0 := rfl
@[simp] theorem State.setQueue_tiles (s : State) (q : Nat) (x : Queue) : (s.setQueue q x).tiles = s.tiles := rfl
@[simp] theorem State.setQueue_jobs (s : State) (q : Nat) (x : Queue) : (s.setQueue q x).jobs = s.jobs := rfl
@[simp] theorem State.setQueue_launches (s : State) (q : Nat) (x : Queue) : (s.setQueue q x).launches = s.launches := rfl
@[simp] theorem State.setQueue_runs (s : State) (q : Nat) (x : Queue) : (s.setQueue q x).runs = s.runs := rfl
@[simp] theorem State.setQueue_rotPos (s : State) (q : Nat) (x : Queue) : (s.setQueue q x).rotPos = s.rotPos := rfl
@[simp] theorem State.setQueue_rotLast (s : State) (q : Nat) (x : Queue) : (s.setQueue q x).rotLast = s.rotLast := rfl
@[simp] theorem State.setQueue_cps (s : State) (q : Nat) (x : Queue) : (s.setQueue q x).cps = s.cps := rfl
@[simp] theorem State.setQueue_ports (s : State) (q : Nat) (x : Queue) : (s.setQueue q x).ports = s.ports := rfl
@[simp] theorem State.setQueue_nextExch (s : State) (q : Nat) (x : Queue) : (s.setQueue q x).nextExch = s.nextExch := rfl
@[simp] theorem State.setQueue_fabric (s : State) (q : Nat) (x : Queue) : (s.setQueue q x).fabric = s.fabric := rfl
@[simp] theorem State.setQueue_hostOut (s : State) (q : Nat) (x : Queue) : (s.setQueue q x).hostOut = s.hostOut := rfl
@[simp] theorem State.setQueue_hostReads (s : State) (q : Nat) (x : Queue) : (s.setQueue q x).hostReads = s.hostReads := rfl
@[simp] theorem State.setQueue_solo (s : State) (q : Nat) (x : Queue) : (s.setQueue q x).solo = s.solo := rfl
@[simp] theorem State.setQueue_updates (s : State) (q : Nat) (x : Queue) : (s.setQueue q x).updates = s.updates := rfl
@[simp] theorem State.setQueue_gslip (s : State) (q : Nat) (x : Queue) : (s.setQueue q x).gslip = s.gslip := rfl
@[simp] theorem State.setQueue_dwin (s : State) (q : Nat) (x : Queue) : (s.setQueue q x).dwin = s.dwin := rfl
@[simp] theorem State.setQueue_mig (s : State) (q : Nat) (x : Queue) : (s.setQueue q x).mig = s.mig := rfl
@[simp] theorem State.setQueue_tdi (s : State) (q : Nat) (x : Queue) : (s.setQueue q x).tdi = s.tdi := rfl
@[simp] theorem State.setQueue_errlog (s : State) (q : Nat) (x : Queue) : (s.setQueue q x).errlog = s.errlog := rfl
@[simp] theorem State.setQueue_rsc (s : State) (q : Nat) (x : Queue) : (s.setQueue q x).rsc = s.rsc := rfl
@[simp] theorem State.setQueue_side (s : State) (q : Nat) (x : Queue) : (s.setQueue q x).side = s.side := rfl
@[simp] theorem State.setQueue_nextId (s : State) (q : Nat) (x : Queue) : (s.setQueue q x).nextId = s.nextId := rfl
@[simp] theorem State.setQueue_agenda (s : State) (q : Nat) (x : Queue) : (s.setQueue q x).agenda = s.agenda := rfl
@[simp] theorem State.setQueue_rr (s : State) (q : Nat) (x : Queue) : (s.setQueue q x).rr = s.rr := rfl
@[simp] theorem State.setQueue_choices (s : State) (q : Nat) (x : Queue) : (s.setQueue q x).choices = s.choices := rfl
@[simp] theorem State.setQueue_free (s : State) (q : Nat) (x : Queue) : (s.setQueue q x).free = s.free := rfl
@[simp] theorem State.setQueue_curTile (s : State) (q : Nat) (x : Queue) : (s.setQueue q x).curTile = s.curTile := rfl
@[simp] theorem State.setQueue_curCore (s : State) (q : Nat) (x : Queue) : (s.setQueue q x).curCore = s.curCore := rfl
@[simp] theorem State.setQueue_curCp (s : State) (q : Nat) (x : Queue) : (s.setQueue q x).curCp = s.curCp := rfl
@[simp] theorem State.setQueue_rowTlb (s : State) (q : Nat) (x : Queue) : (s.setQueue q x).rowTlb = s.rowTlb := rfl
@[simp] theorem State.setQueue_upper (s : State) (q : Nat) (x : Queue) : (s.setQueue q x).upper = s.upper := rfl
@[simp] theorem State.setQueue_trims (s : State) (q : Nat) (x : Queue) : (s.setQueue q x).trims = s.trims := rfl
@[simp] theorem State.setQueue_fresh (s : State) (q : Nat) (x : Queue) : (s.setQueue q x).fresh = s.fresh := rfl
@[simp] theorem State.setQueue_pci (s : State) (q : Nat) (x : Queue) : (s.setQueue q x).pci = s.pci := rfl

@[simp] theorem State.setJob_mem (s : State) (j : Job) : (s.setJob j).mem = s.mem := rfl
@[simp] theorem State.setJob_keyTag (s : State) (j : Job) : (s.setJob j).keyTag = s.keyTag := rfl
@[simp] theorem State.setJob_poison (s : State) (j : Job) : (s.setJob j).poison = s.poison := rfl
@[simp] theorem State.setJob_cycle (s : State) (j : Job) : (s.setJob j).cycle = s.cycle := rfl
@[simp] theorem State.setJob_gtc0 (s : State) (j : Job) : (s.setJob j).gtc0 = s.gtc0 := rfl
@[simp] theorem State.setJob_tiles (s : State) (j : Job) : (s.setJob j).tiles = s.tiles := rfl
@[simp] theorem State.setJob_launches (s : State) (j : Job) : (s.setJob j).launches = s.launches := rfl
@[simp] theorem State.setJob_runs (s : State) (j : Job) : (s.setJob j).runs = s.runs := rfl
@[simp] theorem State.setJob_queues (s : State) (j : Job) : (s.setJob j).queues = s.queues := rfl
@[simp] theorem State.setJob_rotPos (s : State) (j : Job) : (s.setJob j).rotPos = s.rotPos := rfl
@[simp] theorem State.setJob_rotLast (s : State) (j : Job) : (s.setJob j).rotLast = s.rotLast := rfl
@[simp] theorem State.setJob_cps (s : State) (j : Job) : (s.setJob j).cps = s.cps := rfl
@[simp] theorem State.setJob_ports (s : State) (j : Job) : (s.setJob j).ports = s.ports := rfl
@[simp] theorem State.setJob_nextExch (s : State) (j : Job) : (s.setJob j).nextExch = s.nextExch := rfl
@[simp] theorem State.setJob_fabric (s : State) (j : Job) : (s.setJob j).fabric = s.fabric := rfl
@[simp] theorem State.setJob_hostOut (s : State) (j : Job) : (s.setJob j).hostOut = s.hostOut := rfl
@[simp] theorem State.setJob_hostReads (s : State) (j : Job) : (s.setJob j).hostReads = s.hostReads := rfl
@[simp] theorem State.setJob_solo (s : State) (j : Job) : (s.setJob j).solo = s.solo := rfl
@[simp] theorem State.setJob_updates (s : State) (j : Job) : (s.setJob j).updates = s.updates := rfl
@[simp] theorem State.setJob_gslip (s : State) (j : Job) : (s.setJob j).gslip = s.gslip := rfl
@[simp] theorem State.setJob_dwin (s : State) (j : Job) : (s.setJob j).dwin = s.dwin := rfl
@[simp] theorem State.setJob_mig (s : State) (j : Job) : (s.setJob j).mig = s.mig := rfl
@[simp] theorem State.setJob_tdi (s : State) (j : Job) : (s.setJob j).tdi = s.tdi := rfl
@[simp] theorem State.setJob_errlog (s : State) (j : Job) : (s.setJob j).errlog = s.errlog := rfl
@[simp] theorem State.setJob_rsc (s : State) (j : Job) : (s.setJob j).rsc = s.rsc := rfl
@[simp] theorem State.setJob_side (s : State) (j : Job) : (s.setJob j).side = s.side := rfl
@[simp] theorem State.setJob_nextId (s : State) (j : Job) : (s.setJob j).nextId = s.nextId := rfl
@[simp] theorem State.setJob_agenda (s : State) (j : Job) : (s.setJob j).agenda = s.agenda := rfl
@[simp] theorem State.setJob_rr (s : State) (j : Job) : (s.setJob j).rr = s.rr := rfl
@[simp] theorem State.setJob_choices (s : State) (j : Job) : (s.setJob j).choices = s.choices := rfl
@[simp] theorem State.setJob_free (s : State) (j : Job) : (s.setJob j).free = s.free := rfl
@[simp] theorem State.setJob_curTile (s : State) (j : Job) : (s.setJob j).curTile = s.curTile := rfl
@[simp] theorem State.setJob_curCore (s : State) (j : Job) : (s.setJob j).curCore = s.curCore := rfl
@[simp] theorem State.setJob_curCp (s : State) (j : Job) : (s.setJob j).curCp = s.curCp := rfl
@[simp] theorem State.setJob_rowTlb (s : State) (j : Job) : (s.setJob j).rowTlb = s.rowTlb := rfl
@[simp] theorem State.setJob_upper (s : State) (j : Job) : (s.setJob j).upper = s.upper := rfl
@[simp] theorem State.setJob_trims (s : State) (j : Job) : (s.setJob j).trims = s.trims := rfl
@[simp] theorem State.setJob_fresh (s : State) (j : Job) : (s.setJob j).fresh = s.fresh := rfl
@[simp] theorem State.setJob_pci (s : State) (j : Job) : (s.setJob j).pci = s.pci := rfl

@[simp] theorem State.setLaunch_mem (s : State) (l : Launch) : (s.setLaunch l).mem = s.mem := rfl
@[simp] theorem State.setLaunch_keyTag (s : State) (l : Launch) : (s.setLaunch l).keyTag = s.keyTag := rfl
@[simp] theorem State.setLaunch_poison (s : State) (l : Launch) : (s.setLaunch l).poison = s.poison := rfl
@[simp] theorem State.setLaunch_cycle (s : State) (l : Launch) : (s.setLaunch l).cycle = s.cycle := rfl
@[simp] theorem State.setLaunch_gtc0 (s : State) (l : Launch) : (s.setLaunch l).gtc0 = s.gtc0 := rfl
@[simp] theorem State.setLaunch_tiles (s : State) (l : Launch) : (s.setLaunch l).tiles = s.tiles := rfl
@[simp] theorem State.setLaunch_jobs (s : State) (l : Launch) : (s.setLaunch l).jobs = s.jobs := rfl
@[simp] theorem State.setLaunch_runs (s : State) (l : Launch) : (s.setLaunch l).runs = s.runs := rfl
@[simp] theorem State.setLaunch_queues (s : State) (l : Launch) : (s.setLaunch l).queues = s.queues := rfl
@[simp] theorem State.setLaunch_rotPos (s : State) (l : Launch) : (s.setLaunch l).rotPos = s.rotPos := rfl
@[simp] theorem State.setLaunch_rotLast (s : State) (l : Launch) : (s.setLaunch l).rotLast = s.rotLast := rfl
@[simp] theorem State.setLaunch_cps (s : State) (l : Launch) : (s.setLaunch l).cps = s.cps := rfl
@[simp] theorem State.setLaunch_ports (s : State) (l : Launch) : (s.setLaunch l).ports = s.ports := rfl
@[simp] theorem State.setLaunch_nextExch (s : State) (l : Launch) : (s.setLaunch l).nextExch = s.nextExch := rfl
@[simp] theorem State.setLaunch_fabric (s : State) (l : Launch) : (s.setLaunch l).fabric = s.fabric := rfl
@[simp] theorem State.setLaunch_hostOut (s : State) (l : Launch) : (s.setLaunch l).hostOut = s.hostOut := rfl
@[simp] theorem State.setLaunch_hostReads (s : State) (l : Launch) : (s.setLaunch l).hostReads = s.hostReads := rfl
@[simp] theorem State.setLaunch_solo (s : State) (l : Launch) : (s.setLaunch l).solo = s.solo := rfl
@[simp] theorem State.setLaunch_updates (s : State) (l : Launch) : (s.setLaunch l).updates = s.updates := rfl
@[simp] theorem State.setLaunch_gslip (s : State) (l : Launch) : (s.setLaunch l).gslip = s.gslip := rfl
@[simp] theorem State.setLaunch_dwin (s : State) (l : Launch) : (s.setLaunch l).dwin = s.dwin := rfl
@[simp] theorem State.setLaunch_mig (s : State) (l : Launch) : (s.setLaunch l).mig = s.mig := rfl
@[simp] theorem State.setLaunch_tdi (s : State) (l : Launch) : (s.setLaunch l).tdi = s.tdi := rfl
@[simp] theorem State.setLaunch_errlog (s : State) (l : Launch) : (s.setLaunch l).errlog = s.errlog := rfl
@[simp] theorem State.setLaunch_rsc (s : State) (l : Launch) : (s.setLaunch l).rsc = s.rsc := rfl
@[simp] theorem State.setLaunch_side (s : State) (l : Launch) : (s.setLaunch l).side = s.side := rfl
@[simp] theorem State.setLaunch_nextId (s : State) (l : Launch) : (s.setLaunch l).nextId = s.nextId := rfl
@[simp] theorem State.setLaunch_agenda (s : State) (l : Launch) : (s.setLaunch l).agenda = s.agenda := rfl
@[simp] theorem State.setLaunch_rr (s : State) (l : Launch) : (s.setLaunch l).rr = s.rr := rfl
@[simp] theorem State.setLaunch_choices (s : State) (l : Launch) : (s.setLaunch l).choices = s.choices := rfl
@[simp] theorem State.setLaunch_free (s : State) (l : Launch) : (s.setLaunch l).free = s.free := rfl
@[simp] theorem State.setLaunch_curTile (s : State) (l : Launch) : (s.setLaunch l).curTile = s.curTile := rfl
@[simp] theorem State.setLaunch_curCore (s : State) (l : Launch) : (s.setLaunch l).curCore = s.curCore := rfl
@[simp] theorem State.setLaunch_curCp (s : State) (l : Launch) : (s.setLaunch l).curCp = s.curCp := rfl
@[simp] theorem State.setLaunch_rowTlb (s : State) (l : Launch) : (s.setLaunch l).rowTlb = s.rowTlb := rfl
@[simp] theorem State.setLaunch_upper (s : State) (l : Launch) : (s.setLaunch l).upper = s.upper := rfl
@[simp] theorem State.setLaunch_trims (s : State) (l : Launch) : (s.setLaunch l).trims = s.trims := rfl
@[simp] theorem State.setLaunch_fresh (s : State) (l : Launch) : (s.setLaunch l).fresh = s.fresh := rfl
@[simp] theorem State.setLaunch_pci (s : State) (l : Launch) : (s.setLaunch l).pci = s.pci := rfl

@[simp] theorem State.setRun_mem (s : State) (r : Run) : (s.setRun r).mem = s.mem := rfl
@[simp] theorem State.setRun_keyTag (s : State) (r : Run) : (s.setRun r).keyTag = s.keyTag := rfl
@[simp] theorem State.setRun_poison (s : State) (r : Run) : (s.setRun r).poison = s.poison := rfl
@[simp] theorem State.setRun_cycle (s : State) (r : Run) : (s.setRun r).cycle = s.cycle := rfl
@[simp] theorem State.setRun_gtc0 (s : State) (r : Run) : (s.setRun r).gtc0 = s.gtc0 := rfl
@[simp] theorem State.setRun_tiles (s : State) (r : Run) : (s.setRun r).tiles = s.tiles := rfl
@[simp] theorem State.setRun_jobs (s : State) (r : Run) : (s.setRun r).jobs = s.jobs := rfl
@[simp] theorem State.setRun_launches (s : State) (r : Run) : (s.setRun r).launches = s.launches := rfl
@[simp] theorem State.setRun_queues (s : State) (r : Run) : (s.setRun r).queues = s.queues := rfl
@[simp] theorem State.setRun_rotPos (s : State) (r : Run) : (s.setRun r).rotPos = s.rotPos := rfl
@[simp] theorem State.setRun_rotLast (s : State) (r : Run) : (s.setRun r).rotLast = s.rotLast := rfl
@[simp] theorem State.setRun_cps (s : State) (r : Run) : (s.setRun r).cps = s.cps := rfl
@[simp] theorem State.setRun_ports (s : State) (r : Run) : (s.setRun r).ports = s.ports := rfl
@[simp] theorem State.setRun_nextExch (s : State) (r : Run) : (s.setRun r).nextExch = s.nextExch := rfl
@[simp] theorem State.setRun_fabric (s : State) (r : Run) : (s.setRun r).fabric = s.fabric := rfl
@[simp] theorem State.setRun_hostOut (s : State) (r : Run) : (s.setRun r).hostOut = s.hostOut := rfl
@[simp] theorem State.setRun_hostReads (s : State) (r : Run) : (s.setRun r).hostReads = s.hostReads := rfl
@[simp] theorem State.setRun_solo (s : State) (r : Run) : (s.setRun r).solo = s.solo := rfl
@[simp] theorem State.setRun_updates (s : State) (r : Run) : (s.setRun r).updates = s.updates := rfl
@[simp] theorem State.setRun_gslip (s : State) (r : Run) : (s.setRun r).gslip = s.gslip := rfl
@[simp] theorem State.setRun_dwin (s : State) (r : Run) : (s.setRun r).dwin = s.dwin := rfl
@[simp] theorem State.setRun_mig (s : State) (r : Run) : (s.setRun r).mig = s.mig := rfl
@[simp] theorem State.setRun_tdi (s : State) (r : Run) : (s.setRun r).tdi = s.tdi := rfl
@[simp] theorem State.setRun_errlog (s : State) (r : Run) : (s.setRun r).errlog = s.errlog := rfl
@[simp] theorem State.setRun_rsc (s : State) (r : Run) : (s.setRun r).rsc = s.rsc := rfl
@[simp] theorem State.setRun_side (s : State) (r : Run) : (s.setRun r).side = s.side := rfl
@[simp] theorem State.setRun_nextId (s : State) (r : Run) : (s.setRun r).nextId = s.nextId := rfl
@[simp] theorem State.setRun_agenda (s : State) (r : Run) : (s.setRun r).agenda = s.agenda := rfl
@[simp] theorem State.setRun_rr (s : State) (r : Run) : (s.setRun r).rr = s.rr := rfl
@[simp] theorem State.setRun_choices (s : State) (r : Run) : (s.setRun r).choices = s.choices := rfl
@[simp] theorem State.setRun_free (s : State) (r : Run) : (s.setRun r).free = s.free := rfl
@[simp] theorem State.setRun_curTile (s : State) (r : Run) : (s.setRun r).curTile = s.curTile := rfl
@[simp] theorem State.setRun_curCore (s : State) (r : Run) : (s.setRun r).curCore = s.curCore := rfl
@[simp] theorem State.setRun_curCp (s : State) (r : Run) : (s.setRun r).curCp = s.curCp := rfl
@[simp] theorem State.setRun_rowTlb (s : State) (r : Run) : (s.setRun r).rowTlb = s.rowTlb := rfl
@[simp] theorem State.setRun_upper (s : State) (r : Run) : (s.setRun r).upper = s.upper := rfl
@[simp] theorem State.setRun_trims (s : State) (r : Run) : (s.setRun r).trims = s.trims := rfl
@[simp] theorem State.setRun_fresh (s : State) (r : Run) : (s.setRun r).fresh = s.fresh := rfl
@[simp] theorem State.setRun_pci (s : State) (r : Run) : (s.setRun r).pci = s.pci := rfl

@[simp] theorem State.pokeBytes_cycle (s : State) (kn key : Nat) (bs : List Byte) : (s.pokeBytes kn key bs).cycle = s.cycle := rfl
@[simp] theorem State.pokeBytes_gtc0 (s : State) (kn key : Nat) (bs : List Byte) : (s.pokeBytes kn key bs).gtc0 = s.gtc0 := rfl
@[simp] theorem State.pokeBytes_tiles (s : State) (kn key : Nat) (bs : List Byte) : (s.pokeBytes kn key bs).tiles = s.tiles := rfl
@[simp] theorem State.pokeBytes_jobs (s : State) (kn key : Nat) (bs : List Byte) : (s.pokeBytes kn key bs).jobs = s.jobs := rfl
@[simp] theorem State.pokeBytes_launches (s : State) (kn key : Nat) (bs : List Byte) : (s.pokeBytes kn key bs).launches = s.launches := rfl
@[simp] theorem State.pokeBytes_runs (s : State) (kn key : Nat) (bs : List Byte) : (s.pokeBytes kn key bs).runs = s.runs := rfl
@[simp] theorem State.pokeBytes_queues (s : State) (kn key : Nat) (bs : List Byte) : (s.pokeBytes kn key bs).queues = s.queues := rfl
@[simp] theorem State.pokeBytes_rotPos (s : State) (kn key : Nat) (bs : List Byte) : (s.pokeBytes kn key bs).rotPos = s.rotPos := rfl
@[simp] theorem State.pokeBytes_rotLast (s : State) (kn key : Nat) (bs : List Byte) : (s.pokeBytes kn key bs).rotLast = s.rotLast := rfl
@[simp] theorem State.pokeBytes_cps (s : State) (kn key : Nat) (bs : List Byte) : (s.pokeBytes kn key bs).cps = s.cps := rfl
@[simp] theorem State.pokeBytes_ports (s : State) (kn key : Nat) (bs : List Byte) : (s.pokeBytes kn key bs).ports = s.ports := rfl
@[simp] theorem State.pokeBytes_nextExch (s : State) (kn key : Nat) (bs : List Byte) : (s.pokeBytes kn key bs).nextExch = s.nextExch := rfl
@[simp] theorem State.pokeBytes_fabric (s : State) (kn key : Nat) (bs : List Byte) : (s.pokeBytes kn key bs).fabric = s.fabric := rfl
@[simp] theorem State.pokeBytes_hostOut (s : State) (kn key : Nat) (bs : List Byte) : (s.pokeBytes kn key bs).hostOut = s.hostOut := rfl
@[simp] theorem State.pokeBytes_hostReads (s : State) (kn key : Nat) (bs : List Byte) : (s.pokeBytes kn key bs).hostReads = s.hostReads := rfl
@[simp] theorem State.pokeBytes_solo (s : State) (kn key : Nat) (bs : List Byte) : (s.pokeBytes kn key bs).solo = s.solo := rfl
@[simp] theorem State.pokeBytes_updates (s : State) (kn key : Nat) (bs : List Byte) : (s.pokeBytes kn key bs).updates = s.updates := rfl
@[simp] theorem State.pokeBytes_gslip (s : State) (kn key : Nat) (bs : List Byte) : (s.pokeBytes kn key bs).gslip = s.gslip := rfl
@[simp] theorem State.pokeBytes_dwin (s : State) (kn key : Nat) (bs : List Byte) : (s.pokeBytes kn key bs).dwin = s.dwin := rfl
@[simp] theorem State.pokeBytes_mig (s : State) (kn key : Nat) (bs : List Byte) : (s.pokeBytes kn key bs).mig = s.mig := rfl
@[simp] theorem State.pokeBytes_tdi (s : State) (kn key : Nat) (bs : List Byte) : (s.pokeBytes kn key bs).tdi = s.tdi := rfl
@[simp] theorem State.pokeBytes_errlog (s : State) (kn key : Nat) (bs : List Byte) : (s.pokeBytes kn key bs).errlog = s.errlog := rfl
@[simp] theorem State.pokeBytes_rsc (s : State) (kn key : Nat) (bs : List Byte) : (s.pokeBytes kn key bs).rsc = s.rsc := rfl
@[simp] theorem State.pokeBytes_side (s : State) (kn key : Nat) (bs : List Byte) : (s.pokeBytes kn key bs).side = s.side := rfl
@[simp] theorem State.pokeBytes_nextId (s : State) (kn key : Nat) (bs : List Byte) : (s.pokeBytes kn key bs).nextId = s.nextId := rfl
@[simp] theorem State.pokeBytes_agenda (s : State) (kn key : Nat) (bs : List Byte) : (s.pokeBytes kn key bs).agenda = s.agenda := rfl
@[simp] theorem State.pokeBytes_rr (s : State) (kn key : Nat) (bs : List Byte) : (s.pokeBytes kn key bs).rr = s.rr := rfl
@[simp] theorem State.pokeBytes_choices (s : State) (kn key : Nat) (bs : List Byte) : (s.pokeBytes kn key bs).choices = s.choices := rfl
@[simp] theorem State.pokeBytes_free (s : State) (kn key : Nat) (bs : List Byte) : (s.pokeBytes kn key bs).free = s.free := rfl
@[simp] theorem State.pokeBytes_curTile (s : State) (kn key : Nat) (bs : List Byte) : (s.pokeBytes kn key bs).curTile = s.curTile := rfl
@[simp] theorem State.pokeBytes_curCore (s : State) (kn key : Nat) (bs : List Byte) : (s.pokeBytes kn key bs).curCore = s.curCore := rfl
@[simp] theorem State.pokeBytes_curCp (s : State) (kn key : Nat) (bs : List Byte) : (s.pokeBytes kn key bs).curCp = s.curCp := rfl
@[simp] theorem State.pokeBytes_rowTlb (s : State) (kn key : Nat) (bs : List Byte) : (s.pokeBytes kn key bs).rowTlb = s.rowTlb := rfl
@[simp] theorem State.pokeBytes_upper (s : State) (kn key : Nat) (bs : List Byte) : (s.pokeBytes kn key bs).upper = s.upper := rfl
@[simp] theorem State.pokeBytes_trims (s : State) (kn key : Nat) (bs : List Byte) : (s.pokeBytes kn key bs).trims = s.trims := rfl
@[simp] theorem State.pokeBytes_fresh (s : State) (kn key : Nat) (bs : List Byte) : (s.pokeBytes kn key bs).fresh = s.fresh := rfl
@[simp] theorem State.pokeBytes_pci (s : State) (kn key : Nat) (bs : List Byte) : (s.pokeBytes kn key bs).pci = s.pci := rfl

@[simp] theorem State.conflict_mem (s : State) (ls : List Nat) : (s.conflict ls).mem = s.mem := rfl
@[simp] theorem State.conflict_keyTag (s : State) (ls : List Nat) : (s.conflict ls).keyTag = s.keyTag := rfl
@[simp] theorem State.conflict_poison (s : State) (ls : List Nat) : (s.conflict ls).poison = s.poison := rfl
@[simp] theorem State.conflict_cycle (s : State) (ls : List Nat) : (s.conflict ls).cycle = s.cycle := rfl
@[simp] theorem State.conflict_gtc0 (s : State) (ls : List Nat) : (s.conflict ls).gtc0 = s.gtc0 := rfl
@[simp] theorem State.conflict_jobs (s : State) (ls : List Nat) : (s.conflict ls).jobs = s.jobs := rfl
@[simp] theorem State.conflict_launches (s : State) (ls : List Nat) : (s.conflict ls).launches = s.launches := rfl
@[simp] theorem State.conflict_runs (s : State) (ls : List Nat) : (s.conflict ls).runs = s.runs := rfl
@[simp] theorem State.conflict_queues (s : State) (ls : List Nat) : (s.conflict ls).queues = s.queues := rfl
@[simp] theorem State.conflict_rotPos (s : State) (ls : List Nat) : (s.conflict ls).rotPos = s.rotPos := rfl
@[simp] theorem State.conflict_rotLast (s : State) (ls : List Nat) : (s.conflict ls).rotLast = s.rotLast := rfl
@[simp] theorem State.conflict_cps (s : State) (ls : List Nat) : (s.conflict ls).cps = s.cps := rfl
@[simp] theorem State.conflict_ports (s : State) (ls : List Nat) : (s.conflict ls).ports = s.ports := rfl
@[simp] theorem State.conflict_nextExch (s : State) (ls : List Nat) : (s.conflict ls).nextExch = s.nextExch := rfl
@[simp] theorem State.conflict_fabric (s : State) (ls : List Nat) : (s.conflict ls).fabric = s.fabric := rfl
@[simp] theorem State.conflict_hostOut (s : State) (ls : List Nat) : (s.conflict ls).hostOut = s.hostOut := rfl
@[simp] theorem State.conflict_hostReads (s : State) (ls : List Nat) : (s.conflict ls).hostReads = s.hostReads := rfl
@[simp] theorem State.conflict_solo (s : State) (ls : List Nat) : (s.conflict ls).solo = s.solo := rfl
@[simp] theorem State.conflict_updates (s : State) (ls : List Nat) : (s.conflict ls).updates = s.updates := rfl
@[simp] theorem State.conflict_gslip (s : State) (ls : List Nat) : (s.conflict ls).gslip = s.gslip := rfl
@[simp] theorem State.conflict_dwin (s : State) (ls : List Nat) : (s.conflict ls).dwin = s.dwin := rfl
@[simp] theorem State.conflict_mig (s : State) (ls : List Nat) : (s.conflict ls).mig = s.mig := rfl
@[simp] theorem State.conflict_tdi (s : State) (ls : List Nat) : (s.conflict ls).tdi = s.tdi := rfl
@[simp] theorem State.conflict_errlog (s : State) (ls : List Nat) : (s.conflict ls).errlog = s.errlog := rfl
@[simp] theorem State.conflict_rsc (s : State) (ls : List Nat) : (s.conflict ls).rsc = s.rsc := rfl
@[simp] theorem State.conflict_side (s : State) (ls : List Nat) : (s.conflict ls).side = s.side := rfl
@[simp] theorem State.conflict_nextId (s : State) (ls : List Nat) : (s.conflict ls).nextId = s.nextId := rfl
@[simp] theorem State.conflict_agenda (s : State) (ls : List Nat) : (s.conflict ls).agenda = s.agenda := rfl
@[simp] theorem State.conflict_rr (s : State) (ls : List Nat) : (s.conflict ls).rr = s.rr := rfl
@[simp] theorem State.conflict_choices (s : State) (ls : List Nat) : (s.conflict ls).choices = s.choices := rfl
@[simp] theorem State.conflict_free (s : State) (ls : List Nat) : (s.conflict ls).free = s.free := rfl
@[simp] theorem State.conflict_curTile (s : State) (ls : List Nat) : (s.conflict ls).curTile = s.curTile := rfl
@[simp] theorem State.conflict_curCore (s : State) (ls : List Nat) : (s.conflict ls).curCore = s.curCore := rfl
@[simp] theorem State.conflict_curCp (s : State) (ls : List Nat) : (s.conflict ls).curCp = s.curCp := rfl
@[simp] theorem State.conflict_rowTlb (s : State) (ls : List Nat) : (s.conflict ls).rowTlb = s.rowTlb := rfl
@[simp] theorem State.conflict_upper (s : State) (ls : List Nat) : (s.conflict ls).upper = s.upper := rfl
@[simp] theorem State.conflict_trims (s : State) (ls : List Nat) : (s.conflict ls).trims = s.trims := rfl
@[simp] theorem State.conflict_fresh (s : State) (ls : List Nat) : (s.conflict ls).fresh = s.fresh := rfl
@[simp] theorem State.conflict_pci (s : State) (ls : List Nat) : (s.conflict ls).pci = s.pci := rfl

@[simp] theorem State.noteUpdate_mem (s : State) (t key n : Nat) : (s.noteUpdate t key n).mem = s.mem := rfl
@[simp] theorem State.noteUpdate_keyTag (s : State) (t key n : Nat) : (s.noteUpdate t key n).keyTag = s.keyTag := rfl
@[simp] theorem State.noteUpdate_poison (s : State) (t key n : Nat) : (s.noteUpdate t key n).poison = s.poison := rfl
@[simp] theorem State.noteUpdate_cycle (s : State) (t key n : Nat) : (s.noteUpdate t key n).cycle = s.cycle := rfl
@[simp] theorem State.noteUpdate_gtc0 (s : State) (t key n : Nat) : (s.noteUpdate t key n).gtc0 = s.gtc0 := rfl
@[simp] theorem State.noteUpdate_tiles (s : State) (t key n : Nat) : (s.noteUpdate t key n).tiles = s.tiles := rfl
@[simp] theorem State.noteUpdate_jobs (s : State) (t key n : Nat) : (s.noteUpdate t key n).jobs = s.jobs := rfl
@[simp] theorem State.noteUpdate_launches (s : State) (t key n : Nat) : (s.noteUpdate t key n).launches = s.launches := rfl
@[simp] theorem State.noteUpdate_runs (s : State) (t key n : Nat) : (s.noteUpdate t key n).runs = s.runs := rfl
@[simp] theorem State.noteUpdate_queues (s : State) (t key n : Nat) : (s.noteUpdate t key n).queues = s.queues := rfl
@[simp] theorem State.noteUpdate_rotPos (s : State) (t key n : Nat) : (s.noteUpdate t key n).rotPos = s.rotPos := rfl
@[simp] theorem State.noteUpdate_rotLast (s : State) (t key n : Nat) : (s.noteUpdate t key n).rotLast = s.rotLast := rfl
@[simp] theorem State.noteUpdate_cps (s : State) (t key n : Nat) : (s.noteUpdate t key n).cps = s.cps := rfl
@[simp] theorem State.noteUpdate_ports (s : State) (t key n : Nat) : (s.noteUpdate t key n).ports = s.ports := rfl
@[simp] theorem State.noteUpdate_nextExch (s : State) (t key n : Nat) : (s.noteUpdate t key n).nextExch = s.nextExch := rfl
@[simp] theorem State.noteUpdate_fabric (s : State) (t key n : Nat) : (s.noteUpdate t key n).fabric = s.fabric := rfl
@[simp] theorem State.noteUpdate_hostOut (s : State) (t key n : Nat) : (s.noteUpdate t key n).hostOut = s.hostOut := rfl
@[simp] theorem State.noteUpdate_hostReads (s : State) (t key n : Nat) : (s.noteUpdate t key n).hostReads = s.hostReads := rfl
@[simp] theorem State.noteUpdate_solo (s : State) (t key n : Nat) : (s.noteUpdate t key n).solo = s.solo := rfl
@[simp] theorem State.noteUpdate_gslip (s : State) (t key n : Nat) : (s.noteUpdate t key n).gslip = s.gslip := rfl
@[simp] theorem State.noteUpdate_dwin (s : State) (t key n : Nat) : (s.noteUpdate t key n).dwin = s.dwin := rfl
@[simp] theorem State.noteUpdate_mig (s : State) (t key n : Nat) : (s.noteUpdate t key n).mig = s.mig := rfl
@[simp] theorem State.noteUpdate_tdi (s : State) (t key n : Nat) : (s.noteUpdate t key n).tdi = s.tdi := rfl
@[simp] theorem State.noteUpdate_errlog (s : State) (t key n : Nat) : (s.noteUpdate t key n).errlog = s.errlog := rfl
@[simp] theorem State.noteUpdate_rsc (s : State) (t key n : Nat) : (s.noteUpdate t key n).rsc = s.rsc := rfl
@[simp] theorem State.noteUpdate_side (s : State) (t key n : Nat) : (s.noteUpdate t key n).side = s.side := rfl
@[simp] theorem State.noteUpdate_nextId (s : State) (t key n : Nat) : (s.noteUpdate t key n).nextId = s.nextId := rfl
@[simp] theorem State.noteUpdate_agenda (s : State) (t key n : Nat) : (s.noteUpdate t key n).agenda = s.agenda := rfl
@[simp] theorem State.noteUpdate_rr (s : State) (t key n : Nat) : (s.noteUpdate t key n).rr = s.rr := rfl
@[simp] theorem State.noteUpdate_choices (s : State) (t key n : Nat) : (s.noteUpdate t key n).choices = s.choices := rfl
@[simp] theorem State.noteUpdate_free (s : State) (t key n : Nat) : (s.noteUpdate t key n).free = s.free := rfl
@[simp] theorem State.noteUpdate_curTile (s : State) (t key n : Nat) : (s.noteUpdate t key n).curTile = s.curTile := rfl
@[simp] theorem State.noteUpdate_curCore (s : State) (t key n : Nat) : (s.noteUpdate t key n).curCore = s.curCore := rfl
@[simp] theorem State.noteUpdate_curCp (s : State) (t key n : Nat) : (s.noteUpdate t key n).curCp = s.curCp := rfl
@[simp] theorem State.noteUpdate_rowTlb (s : State) (t key n : Nat) : (s.noteUpdate t key n).rowTlb = s.rowTlb := rfl
@[simp] theorem State.noteUpdate_upper (s : State) (t key n : Nat) : (s.noteUpdate t key n).upper = s.upper := rfl
@[simp] theorem State.noteUpdate_trims (s : State) (t key n : Nat) : (s.noteUpdate t key n).trims = s.trims := rfl
@[simp] theorem State.noteUpdate_pci (s : State) (t key n : Nat) : (s.noteUpdate t key n).pci = s.pci := rfl

/-! ## Fields of a tile -/

@[simp] theorem Tile.setCore_watch (x : Tile) (k : CoreK) (c : Core) : (x.setCore k c).watch = x.watch := rfl
@[simp] theorem Tile.setCore_draining (x : Tile) (k : CoreK) (c : Core) : (x.setCore k c).draining = x.draining := rfl
@[simp] theorem Tile.setCore_drainOf (x : Tile) (k : CoreK) (c : Core) : (x.setCore k c).drainOf = x.drainOf := rfl
@[simp] theorem Tile.setCore_drain (x : Tile) (k : CoreK) (c : Core) : (x.setCore k c).drain = x.drain := rfl
@[simp] theorem Tile.setCore_csavt (x : Tile) (k : CoreK) (c : Core) : (x.setCore k c).csavt = x.csavt := rfl
@[simp] theorem Tile.setCore_owner (x : Tile) (k : CoreK) (c : Core) : (x.setCore k c).owner = x.owner := rfl
@[simp] theorem Tile.setCore_pcnt (x : Tile) (k : CoreK) (c : Core) : (x.setCore k c).pcnt = x.pcnt := rfl
@[simp] theorem Tile.setCore_wb (x : Tile) (k : CoreK) (c : Core) : (x.setCore k c).wb = x.wb := rfl
@[simp] theorem Tile.setCore_acc (x : Tile) (k : CoreK) (c : Core) : (x.setCore k c).acc = x.acc := rfl
@[simp] theorem Tile.setCore_accNote (x : Tile) (k : CoreK) (c : Core) : (x.setCore k c).accNote = x.accNote := rfl
@[simp] theorem Tile.setCore_cb (x : Tile) (k : CoreK) (c : Core) : (x.setCore k c).cb = x.cb := rfl
@[simp] theorem Tile.setCore_tags (x : Tile) (k : CoreK) (c : Core) : (x.setCore k c).tags = x.tags := rfl
@[simp] theorem Tile.setCore_sems (x : Tile) (k : CoreK) (c : Core) : (x.setCore k c).sems = x.sems := rfl
@[simp] theorem Tile.setCore_semPtr (x : Tile) (k : CoreK) (c : Core) : (x.setCore k c).semPtr = x.semPtr := rfl
@[simp] theorem Tile.setCore_semOvf (x : Tile) (k : CoreK) (c : Core) : (x.setCore k c).semOvf = x.semOvf := rfl
@[simp] theorem Tile.setCore_banks (x : Tile) (k : CoreK) (c : Core) : (x.setCore k c).banks = x.banks := rfl
@[simp] theorem Tile.setCore_mq (x : Tile) (k : CoreK) (c : Core) : (x.setCore k c).mq = x.mq := rfl
@[simp] theorem Tile.setCore_zq (x : Tile) (k : CoreK) (c : Core) : (x.setCore k c).zq = x.zq := rfl
@[simp] theorem Tile.setCore_tlb (x : Tile) (k : CoreK) (c : Core) : (x.setCore k c).tlb = x.tlb := rfl

/-! ## Reading back -/

@[simp] theorem State.tile_setTile_same (s : State) (t : Nat) (x : Tile) : (s.setTile t x).tile t = x := by
  simp [State.tile, State.setTile]

theorem State.tile_setTile_other (s : State) {t u : Nat} (x : Tile) (h : u ≠ t) : (s.setTile t x).tile u = s.tile u := by
  simp [State.tile, State.setTile, smGet_smPut, h]

@[simp] theorem State.setTile_setTile (s : State) (t : Nat) (x y : Tile) : (s.setTile t x).setTile t y = s.setTile t y := by
  simp [State.setTile]

theorem CoreK.idx_inj {k l : CoreK} (h : k.idx = l.idx) : k = l := by
  cases k <;> cases l <;> simp_all [CoreK.idx]

@[simp] theorem Tile.core_setCore_same (x : Tile) (k : CoreK) (c : Core) : (x.setCore k c).core k = c := by
  simp [Tile.core, Tile.setCore]

theorem Tile.core_setCore_other (x : Tile) {k l : CoreK} (c : Core) (h : l ≠ k) : (x.setCore k c).core l = x.core l := by
  have : l.idx ≠ k.idx := fun e => h (CoreK.idx_inj e)
  simp [Tile.core, Tile.setCore, smGet_smPut, this]

@[simp] theorem Tile.setCore_setCore (x : Tile) (k : CoreK) (c d : Core) : (x.setCore k c).setCore k d = x.setCore k d := by
  simp [Tile.setCore]

@[simp] theorem State.core_setCore_same (s : State) (t : Nat) (k : CoreK) (c : Core) : (s.setCore t k c).core t k = c := by
  simp [State.core, State.setCore, State.updTile]

theorem State.core_setCore_other (s : State) {t u : Nat} {k l : CoreK} (c : Core) (h : u ≠ t ∨ l ≠ k) :
    (s.setCore t k c).core u l = s.core u l := by
  unfold State.core State.setCore State.updTile
  by_cases e : u = t
  · subst e
    rw [State.tile_setTile_same, Tile.core_setCore_other _ _ (h.resolve_left (fun n => n rfl))]
  · rw [State.tile_setTile_other _ _ e]

@[simp] theorem State.setCore_setCore (s : State) (t : Nat) (k : CoreK) (c d : Core) :
    (s.setCore t k c).setCore t k d = s.setCore t k d := by
  simp [State.setCore, State.updTile]

@[simp] theorem State.me_setMe (s : State) (c : Core) : (s.setMe c).me = c :=
  State.core_setCore_same s s.curTile s.curCore c

@[simp] theorem State.setMe_setMe (s : State) (c d : Core) : (s.setMe c).setMe d = s.setMe d :=
  State.setCore_setCore s s.curTile s.curCore c d

@[simp] theorem State.port_setPort_same (s : State) (p : Bool) (x : Port) : (s.setPort p x).port p = x := by
  simp [State.port, State.setPort]

theorem State.port_setPort_other (s : State) {p q : Bool} (x : Port) (h : q ≠ p) : (s.setPort p x).port q = s.port q := by
  have : q.toNat ≠ p.toNat := by cases p <;> cases q <;> simp_all
  simp [State.port, State.setPort, smGet_smPut, this]

@[simp] theorem State.queue_setQueue_same (s : State) (q : Nat) (x : Queue) : (s.setQueue q x).queue q = x := by
  simp [State.queue, State.setQueue]

/-! ## The memory's canonical form -/

/-- A write of bytes keeps the memory's canonical form. -/
theorem State.pokeBytes_wf {s : State} (h : smWf 0 s.mem = true) (kn key : Nat) (bs : List Byte) :
    smWf 0 (s.pokeBytes kn key bs).mem = true := smWf_smSetList h

theorem State.conflict_wf {s : State} (h : smWf 0 s.mem = true) (ls : List Nat) : smWf 0 (s.conflict ls).mem = true := h

theorem State.noteUpdate_wf {s : State} (h : smWf 0 s.mem = true) (t key n : Nat) :
    smWf 0 (s.noteUpdate t key n).mem = true := h

/-- An interrupt touches no memory. -/
@[simp] theorem State.raiseIrq_mem (s : State) (f v : Nat) : (s.raiseIrq f v).mem = s.mem := by
  unfold State.raiseIrq
  dsimp only
  split <;> rfl

/-- The error log lies outside memory. -/
@[simp] theorem State.logCheck_mem (s : State) (t : Nat) (code : Byte) (cfad : Word) :
    (s.logCheck t code cfad).mem = s.mem := by
  simp [State.logCheck, State.count]

theorem State.track_wf {s : State} (h : smWf 0 s.mem = true) (vf : Option Nat) (key : Nat) :
    smWf 0 (s.track vf key).mem = true := by
  unfold State.track
  split
  · exact h
  · dsimp only
    split
    · split
      · simpa using h
      · split
        · exact h
        · exact State.conflict_wf (State.pokeBytes_wf h _ _ _) _
    · exact h

/-- A commit keeps the memory's canonical form. -/
theorem State.commitBytes_wf {s : State} (h : smWf 0 s.mem = true) (t : Nat) (vf : Option Nat) (kn key : Nat)
    (bs : List Byte) : smWf 0 (s.commitBytes t vf kn key bs).mem = true := by
  unfold State.commitBytes
  split
  · exact h
  · exact State.conflict_wf (State.pokeBytes_wf (State.noteUpdate_wf (State.track_wf (State.track_wf h _ _) _ _) _ _ _) _ _ _) _

/-- A commit by no virtual function writes its bytes and leaves every other byte as it was. -/
theorem State.commitBytes_byte {s : State} (h : smWf 0 s.mem = true) (t kn key : Nat) (bs : List Byte) (a : Nat) :
    memByte (s.commitBytes t none kn key bs).mem a =
      if key ≤ a ∧ a < key + bs.length then bs.getD (a - key) 0 else memByte s.mem a := by
  unfold State.commitBytes
  split
  · rename_i e
    have : bs = [] := by simpa using e
    subst this
    have : ¬ (key ≤ a ∧ a < key + ([] : List Byte).length) := by simp
    rw [if_neg this]
  · exact smGet_smSetList h key a bs

theorem State.commitWords_wf {s : State} (h : smWf 0 s.mem = true) (t key : Nat) (ws : List Word) :
    smWf 0 (s.commitWords t key ws).mem = true := by
  unfold State.commitWords
  generalize List.range _ = l
  induction l generalizing s with
  | nil => exact h
  | cons i l ih => exact ih (State.commitBytes_wf h _ _ _ _ _)

end Sys2Proof.Machine
end

