-- ==== Sys2Proof/Laws/Issue.lean ====
section
/-!
SUPPORT. What `runCore` can do, said once: an instruction that issues runs its effect and is followed; one whose effect traps
takes the precise trap; one whose effect stalls does what the stall does; one whose predicate is false is only followed.
-/
namespace Sys2Proof.Machine

/-! ## Sequencing of effects -/

theorem Exec.bind_ok {α β : Type} {m : Exec α} {f : α → Exec β} {s s1 : State} {a : α} (h : m s = .ok (a, s1)) :
    (m >>= f) s = f a s1 := by simp [bind, StateT.bind, Except.bind, h]

theorem Exec.bind_error {α β : Type} {m : Exec α} {f : α → Exec β} {s : State} {i : Exit} (h : m s = .error i) :
    (m >>= f) s = .error i := by simp [bind, StateT.bind, Except.bind, h]

/-- A sequence that succeeds has succeeded in its first part. -/
theorem Exec.bind_inv {α β : Type} {m : Exec α} {f : α → Exec β} {s s2 : State} {b : β}
    (h : (m >>= f) s = .ok (b, s2)) : ∃ a s1, m s = .ok (a, s1) ∧ f a s1 = .ok (b, s2) := by
  cases hm : m s with
  | error e => rw [Exec.bind_error hm] at h; cases h
  | ok p => exact ⟨p.1, p.2, rfl, by rw [Exec.bind_ok hm] at h; exact h⟩

@[simp] theorem bind_modRegs {β : Type} (g : Regs → Regs) (f : Unit → Exec β) (s : State) :
    (modRegs g >>= f) s = f () (s.setMe { s.me with regs := g s.me.regs }) := rfl
@[simp] theorem bind_getRegs {β : Type} (f : Regs → Exec β) (s : State) : (getRegs >>= f) s = f s.me.regs s := rfl
@[simp] theorem bind_getState {β : Type} (f : State → Exec β) (s : State) : (getState >>= f) s = f s s := rfl
@[simp] theorem bind_modState {β : Type} (g : State → State) (f : Unit → Exec β) (s : State) :
    (modState g >>= f) s = f () (g s) := rfl
@[simp] theorem bind_modChunk {β : Type} (g : Chunk → Chunk) (f : Unit → Exec β) (s : State) :
    (modChunk g >>= f) s = f () (s.setMe { s.me with chunk := s.me.chunk.map g }) := rfl
@[simp] theorem bind_pure {α β : Type} (a : α) (f : α → Exec β) : ((pure a : Exec α) >>= f) = f a := rfl
@[simp] theorem modRegs_apply (g : Regs → Regs) (s : State) :
    modRegs g s = .ok ((), s.setMe { s.me with regs := g s.me.regs }) := rfl
@[simp] theorem modState_apply (g : State → State) (s : State) : modState g s = .ok ((), g s) := rfl
@[simp] theorem modChunk_apply (g : Chunk → Chunk) (s : State) :
    modChunk g s = .ok ((), s.setMe { s.me with chunk := s.me.chunk.map g }) := rfl
@[simp] theorem atCommit_apply (a : Act) (s : State) : atCommit a s = .ok ((), s.withAct a) := rfl
@[simp] theorem addFlags_apply (f : Nat) (s : State) : addFlags f s = .ok ((), s.withFlags f) := rfl
@[simp] theorem pure_apply {α : Type} (a : α) (s : State) : (pure a : Exec α) s = .ok (a, s) := rfl

/-! ## Sources, read in order -/

theorem sources_one {x : Ops} {s0 s1 : State} {a b c : Word} (h : sources 1 x s0 = .ok ((a, b, c), s1)) :
    readA x s0 = .ok (a, s1) := by
  obtain ⟨v, s', h1, h⟩ := Exec.bind_inv h
  replace h : (.ok ((v, 0, 0), s') : Except Exit ((Word × Word × Word) × State)) = .ok ((a, b, c), s1) := h
  cases h
  exact h1
theorem sources_two {x : Ops} {s0 s1 : State} {a b c : Word} (h : sources 2 x s0 = .ok ((a, b, c), s1)) :
    ∃ s', readA x s0 = .ok (a, s') ∧ readB x s' = .ok (b, s1) := by
  obtain ⟨v, s', h1, h⟩ := Exec.bind_inv h
  obtain ⟨w, s'', h2, h⟩ := Exec.bind_inv h
  replace h : (.ok ((v, w, 0), s'') : Except Exit ((Word × Word × Word) × State)) = .ok ((a, b, c), s1) := h
  cases h
  exact ⟨s', h1, h2⟩
theorem sources_three {x : Ops} {s0 s1 : State} {a b c : Word} (h : sources 3 x s0 = .ok ((a, b, c), s1)) :
    ∃ s' s'', readA x s0 = .ok (a, s') ∧ readB x s' = .ok (b, s'') ∧ readC x s'' = .ok (c, s1) := by
  obtain ⟨v, s', h1, h⟩ := Exec.bind_inv h
  obtain ⟨w, s'', h2, h⟩ := Exec.bind_inv h
  obtain ⟨u, s3, h3, h⟩ := Exec.bind_inv h
  replace h : (.ok ((v, w, u), s3) : Except Exit ((Word × Word × Word) × State)) = .ok ((a, b, c), s1) := h
  cases h
  exact ⟨s', s'', h1, h2, h3⟩

/-! ## Flags -/

/-- Merging no flag into the registers that a write has just left changes nothing. -/
theorem setMe_withFlags_zero (s : State) (c : Core) : (s.setMe c).withFlags 0 = s.setMe c := by
  have h : c.regs.addFlags 0 = c.regs := by simp [Regs.addFlags, word]
  simp only [State.withFlags, State.me_setMe, State.setMe_setMe, h]

theorem writeOpd_withFlags_zero {o : Opd} {v : Word} {s s2 : State} (h : writeOpd o v s = .ok ((), s2)) :
    s2.withFlags 0 = s2 := by
  cases o
  case s n =>
    have tail : ∀ {s' : State}, (streamStep n >>= fun _ => modRegs (fun r => { r with prv := v })) s' = .ok ((), s2) →
        s2.withFlags 0 = s2 := by
      intro s' h
      obtain ⟨_, s1, -, h⟩ := Exec.bind_inv h
      simp only [modRegs_apply, Except.ok.injEq, Prod.mk.injEq, true_and] at h
      subst h
      exact setMe_withFlags_zero _ _
    simp only [writeOpd, bind_getRegs] at h
    split at h
    · obtain ⟨_, _, h, -⟩ := Exec.bind_inv h; cases h
    · split at h
      · obtain ⟨_, _, h, -⟩ := Exec.bind_inv h; cases h
      · split at h
        · obtain ⟨_, _, -, h⟩ := Exec.bind_inv h; exact tail h
        · exact tail h
  all_goals
    simp only [writeOpd, modRegs_apply, Except.ok.injEq, Prod.mk.injEq, true_and] at h
    subst h
    exact setMe_withFlags_zero _ _
/-! ## The end of an instruction -/

/-- The end of an instruction that is no transfer and stands in no delay slot. -/
theorem finish_follow {e : Entry} {x : Ops} {s : State} (ht : e.transfer = false) (hs : s.me.regs.slot = none) :
    finish e x true s = .ok ((), s.follow e x) := by
  unfold finish
  simp only [bind_modRegs, bind_getRegs, ht, Bool.false_eq_true, if_false, State.me_setMe, hs, State.setMe_setMe,
    modState_apply, State.follow]

/-- The end of a transfer. -/
theorem finish_jump {e : Entry} {x : Ops} {s : State} (ht : e.transfer = true) :
    finish e x true s = .ok ((), s.followJump e x) := by
  unfold finish
  simp only [bind_modRegs, bind_getRegs, ht, if_true, State.me_setMe, State.setMe_setMe, modState_apply,
    State.followJump]
  cases s.me.regs.slot <;> rfl

/-! ## An instruction that issues -/

theorem runWhole_issues {e : Entry} {x : Ops} {w : Exec Unit} {s s0 : State} (h : Issues e x s s0) :
    runWhole e x w s = .next (s0.attempt e w) := by
  simp only [runWhole, h.gate, h.ready]

/-- An instruction that is admitted runs on its own account, not as a trial. -/
theorem beginChunk_trial {e : Entry} {w : Option (Nat × Nat)} {old : Option Chunk} {s s0 : State}
    (h : s.beginChunk e w old = .inr s0) : s0.me.trial = false := by
  unfold State.beginChunk at h
  dsimp only at h
  split at h
  · split at h <;> cases h
    simp
  · cases h
    simp

theorem admission_trial {e : Entry} {x : Ops} {s s0 : State} (h : s.admission e x = .inr s0) : s0.me.trial = false := by
  unfold State.admission at h
  dsimp only at h
  generalize (if (x.h.wthr != 0 && s.me.regs.mid.isNone) = true then some (x.h.wsem.toNat, x.h.wthr.toNat) else none) = w
    at h
  split at h
  · cases h
  · split at h
    · split at h
      · cases h
      · split at h <;> cases h
        simp
    · split at h
      · cases h
      · exact beginChunk_trial h

theorem prepare_trial {e : Entry} {x : Ops} {s s0 : State} (h : s.prepare e x = .inr s0) : s0.me.trial = false := by
  unfold State.prepare at h
  dsimp only at h
  split at h
  · exact admission_trial h
  · split at h
    · cases h
    · exact admission_trial h

/-- What an admitted instruction needs to issue is there, and it goes on. -/
theorem needs_met {n : Need} {s : State} (ht : s.me.trial = false) (h : s.hasNeed s.curTile s.curCore n = true) :
    needs n s = .ok ((), s) := by
  simp [needs, ht, h]

/-- The effect runs, with what follows it, when nothing before it holds the instruction back. -/
theorem issueBody_runs {e : Entry} {x : Ops} {body : Exec Unit} {s s0 : State} (h : Issues e x s s0) :
    issueBody e x body s0 = (body >>= fun _ => finish e x true) s0 := by
  unfold issueBody
  simp only [bind_getRegs, h.holds, if_true, if_neg h.room]
  cases he : e.engine with
  | false => simp
  | true => exact Exec.bind_ok (needs_met (prepare_trial h.ready) (h.queue he))

theorem issueBody_ok {e : Entry} {x : Ops} {body : Exec Unit} {s s0 s1 : State} (h : Issues e x s s0)
    (hb : body s0 = .ok ((), s1)) : issueBody e x body s0 = finish e x true s1 := by
  rw [issueBody_runs h]
  exact Exec.bind_ok hb

theorem issueBody_error {e : Entry} {x : Ops} {body : Exec Unit} {s s0 : State} {i : Exit} (h : Issues e x s s0)
    (hb : body s0 = .error i) : issueBody e x body s0 = .error i := by
  rw [issueBody_runs h]
  exact Exec.bind_error hb

/-- The end of an instruction whose commit, if it asks for one, nothing holds back. -/
theorem conclude_done {e : Entry} {s t : State} (ho : e.own = false) (h : Commits e s t) : s.conclude t = s.done e t := by
  unfold State.conclude State.done
  cases hc : s.commitsNow t with
  | false => simp [ho]
  | true =>
    have hb := h ho hc
    have hs : s.soloBlocked s.curTile s.curCore = false := by
      simp only [State.heldBack, Bool.or_eq_false_iff] at hb
      exact hb.1
    simp [hb, hs]


/-- The first instruction of a chunk makes its own effect in the state in which it issued. -/
theorem ownStart_first {s : State} (h : s.me.chunk.any (fun h => decide (0 < h.len)) = false) : s.ownStart = s := by
  simp [State.ownStart, h]

/-- An instruction that issues and whose effect ends is done with what follows it. -/
theorem runCore_ends {e : Entry} {x : Ops} {body : Exec Unit} {s s0 s1 t : State} (h : Issues e x s s0)
    (hb : body s0 = .ok ((), s1)) (hf : Ends e x s0 s1 t) : runCore e x body s = .next (s0.done e t) := by
  have hi := (issueBody_ok h hb).trans hf.1
  cases ho : e.own with
  | false =>
    simp only [runCore, runWhole_issues h, State.attempt, hi, ho, Bool.not_false, if_true, conclude_done ho hf.2]
  | true =>
    obtain ⟨hs, hc⟩ := h.first ho
    simp only [runCore, runWhole_issues h, State.attempt, State.attemptOwn, ownStart_first hc, hi, ho, hs, Bool.not_true,
      Bool.false_eq_true, if_false, State.done, Bool.true_or, if_true]

/-- An instruction whose effect traps takes the trap in the state it issued in. -/
theorem runCore_trap {e : Entry} {x : Ops} {body : Exec Unit} {s s0 : State} {i : TrapInfo} (h : Issues e x s s0)
    (hb : body s0 = .error (.trap i)) : runCore e x body s = .next (s0.preciseTrap i) := by
  rw [runCore, runWhole_issues h, State.attempt, issueBody_error h hb]

/-- An instruction whose effect stalls is issued again later. -/
theorem runCore_stall {e : Entry} {x : Ops} {body : Exec Unit} {s s0 : State} {f : State → State} (h : Issues e x s s0)
    (hb : body s0 = .error (.stall f)) : runCore e x body s = .next (f s0) := by
  rw [runCore, runWhole_issues h, State.attempt, issueBody_error h hb]

/-- A fault of the checks that depend on the core is taken before anything else. -/
theorem runWhole_gate {e : Entry} {x : Ops} {w : Exec Unit} {s : State} {i : TrapInfo} (h : s.gate e = some i) :
    runWhole e x w s = .next (s.preciseTrap i) := by
  simp only [runWhole, h]

/-- An instruction that is not admitted does what the admission says, and learns what else it needs. -/
theorem runWhole_waits {e : Entry} {x : Ops} {w : Exec Unit} {s s1 : State} (hg : s.gate e = none)
    (h : s.prepare e x = .inl s1) : runWhole e x w s = .next (s1.noteNeeds w) := by
  simp only [runWhole, hg, h]

/-- A core instruction always answers a next state. -/
theorem runWhole_safe (e : Entry) (x : Ops) (w : Exec Unit) (s : State) : ∃ t, runWhole e x w s = .next t := ⟨_, rfl⟩

end Sys2Proof.Machine
end

