-- ==== Sys2Proof/Laws/Scalar.lean ====
section
/-!
SUPPORT. What the shapes of scalar effects do, said once for each.
-/
namespace Sys2Proof.Machine

theorem un_apply {x : Ops} {f : Word → Word} {s0 s1 s2 : State} {a b c : Word} (h : sources 1 x s0 = .ok ((a, b, c), s1))
    (hw : writeOpd x.d (f a) s1 = .ok ((), s2)) : un x f s0 = .ok ((), s2) :=
  (Exec.bind_ok (sources_one h)).trans hw

theorem bin_apply {x : Ops} {f : Word → Word → Word} {s0 s1 s2 : State} {a b c : Word}
    (h : sources 2 x s0 = .ok ((a, b, c), s1)) (hw : writeOpd x.d (f a b) s1 = .ok ((), s2)) :
    bin x f s0 = .ok ((), s2) := by
  obtain ⟨_, h1, h2⟩ := sources_two h
  exact (Exec.bind_ok h1).trans ((Exec.bind_ok h2).trans hw)

theorem tri_apply {x : Ops} {f : Word → Word → Word → Word} {s0 s1 s2 : State} {a b c : Word}
    (h : sources 3 x s0 = .ok ((a, b, c), s1)) (hw : writeOpd x.d (f a b c) s1 = .ok ((), s2)) :
    tri x f s0 = .ok ((), s2) := by
  obtain ⟨_, _, h1, h2, h3⟩ := sources_three h
  exact (Exec.bind_ok h1).trans ((Exec.bind_ok h2).trans ((Exec.bind_ok h3).trans hw))

theorem unF_apply {x : Ops} {f : Word → Word × Nat} {s0 s1 s2 : State} {a b c : Word}
    (h : sources 1 x s0 = .ok ((a, b, c), s1)) (hw : writeOpd x.d (f a).1 s1 = .ok ((), s2)) :
    unF x f s0 = .ok ((), s2.withFlags (f a).2) :=
  (Exec.bind_ok (sources_one h)).trans ((Exec.bind_ok hw).trans (addFlags_apply _ _))

theorem binF_apply {x : Ops} {f : Word → Word → Word × Nat} {s0 s1 s2 : State} {a b c : Word}
    (h : sources 2 x s0 = .ok ((a, b, c), s1)) (hw : writeOpd x.d (f a b).1 s1 = .ok ((), s2)) :
    binF x f s0 = .ok ((), s2.withFlags (f a b).2) := by
  obtain ⟨_, h1, h2⟩ := sources_two h
  exact (Exec.bind_ok h1).trans ((Exec.bind_ok h2).trans ((Exec.bind_ok hw).trans (addFlags_apply _ _)))

end Sys2Proof.Machine
end

