-- ==== Sys2Proof/Tests/Slice0.lean ====
section
/-!
SUPPORT. Tests: words written out from the encodings of spec/ and what they decode to, ill-formed terms that the check
refuses, small steps, and a state and operands that meet the hypotheses of each statement.
-/
namespace Sys2Proof.Tests
open Sys2Proof Sys2Proof.Machine Sys2Proof.Claims
set_option maxRecDepth 20000
set_option Elab.async false

/-- A word of the fields of R199, with no predicate, no wait and no signal. -/
def W (opc fmt df af bf cf imm mod : Nat) : BitVec 96 := BitVec.ofNat 96
  (opc * 2 ^ 87 + fmt * 2 ^ 84 + df * 2 ^ 76 + af * 2 ^ 68 + bf * 2 ^ 60 + cf * 2 ^ 52 + imm * 2 ^ 32 + mod)

def hdr : Hdr := { prd := 0, wsem := 0, wthr := 0, ssem := 0, sinc := 0 }

def X (fmt : BitVec 3) (d a b c : Opd) (imm : BitVec 20) (mod : BitVec 5) : Ops :=
  { h := hdr, fmt := fmt, d := d, a := a, b := b, c := c, imm := imm, mod := mod }

/-! ## Decoding: one word for every opcode of R208 -/

theorem test_decode_000_to_00F : [
    W 0x000 7 0x88 0x89 0x8B 0x00 0 0,
    W 0x001 7 0x88 0x89 0x8B 0x00 0 0,
    W 0x002 7 0x88 0x89 0x8B 0x00 0 0,
    W 0x003 7 0x88 0x89 0x8B 0x00 0 0,
    W 0x004 7 0x88 0x89 0x8B 0x00 0 0,
    W 0x005 7 0x88 0x89 0x8B 0x00 0 0,
    W 0x006 7 0x88 0x89 0x8B 0x8D 0 0,
    W 0x007 7 0x88 0x89 0x8B 0x8D 0 0,
    W 0x008 7 0x88 0x89 0x8B 0x8D 0 0,
    W 0x009 7 0x88 0x89 0x8B 0x8D 0 0,
    W 0x00A 7 0x88 0x89 0x8B 0x8D 0 0,
    W 0x00B 7 0x88 0x89 0x8B 0x8D 0 0,
    W 0x00C 7 0x88 0x89 0x00 0x00 0 0,
    W 0x00D 7 0x88 0x89 0x00 0x00 0 0,
    W 0x00E 7 0x88 0x89 0x8B 0x00 0 0,
    W 0x00F 7 0x88 0x89 0x8B 0x00 0 0].map decode = [
    .ok (.add (X 7 (.m 8) (.m 9) (.m 11) (.prv) 0 0)),
    .ok (.sub (X 7 (.m 8) (.m 9) (.m 11) (.prv) 0 0)),
    .ok (.mul (X 7 (.m 8) (.m 9) (.m 11) (.prv) 0 0)),
    .ok (.mulh (X 7 (.m 8) (.m 9) (.m 11) (.prv) 0 0)),
    .ok (.div (X 7 (.m 8) (.m 9) (.m 11) (.prv) 0 0)),
    .ok (.rem (X 7 (.m 8) (.m 9) (.m 11) (.prv) 0 0)),
    .ok (.madd (X 7 (.m 8) (.m 9) (.m 11) (.m 13) 0 0)),
    .ok (.msub (X 7 (.m 8) (.m 9) (.m 11) (.m 13) 0 0)),
    .ok (.addx (X 7 (.m 8) (.m 9) (.m 11) (.m 13) 0 0)),
    .ok (.addco (X 7 (.m 8) (.m 9) (.m 11) (.m 13) 0 0)),
    .ok (.subx (X 7 (.m 8) (.m 9) (.m 11) (.m 13) 0 0)),
    .ok (.subbo (X 7 (.m 8) (.m 9) (.m 11) (.m 13) 0 0)),
    .ok (.abs (X 7 (.m 8) (.m 9) (.prv) (.prv) 0 0)),
    .ok (.neg (X 7 (.m 8) (.m 9) (.prv) (.prv) 0 0)),
    .ok (.absd (X 7 (.m 8) (.m 9) (.m 11) (.prv) 0 0)),
    .ok (.avg (X 7 (.m 8) (.m 9) (.m 11) (.prv) 0 0))] := rfl

theorem test_decode_010_to_01F : [
    W 0x010 0 0x88 0x89 0x8B 0x00 0 0,
    W 0x011 0 0x88 0x89 0x8B 0x00 0 0,
    W 0x012 0 0x88 0x89 0x8B 0x00 0 0,
    W 0x013 0 0x88 0x89 0x8B 0x00 0 0,
    W 0x014 0 0x88 0x89 0x8B 0x00 0 0,
    W 0x015 0 0x88 0x89 0x8B 0x00 0 0,
    W 0x016 0 0x88 0x89 0x00 0x00 0 0,
    W 0x017 0 0x88 0x89 0x8B 0x8D 0 0,
    W 0x018 7 0x88 0x89 0x8B 0x00 0 0,
    W 0x019 7 0x88 0x89 0x8B 0x00 0 0,
    W 0x01A 7 0x88 0x89 0x8B 0x00 0 0,
    W 0x01B 7 0x88 0x89 0x8B 0x00 0 0,
    W 0x01C 7 0x88 0x89 0x8B 0x00 0 0,
    W 0x01D 7 0x88 0x89 0x00 0x00 0 0,
    W 0x01E 7 0x88 0x89 0x00 0x00 0 0,
    W 0x01F 7 0x88 0x89 0x00 0x00 0 0].map decode = [
    .ok (.and (X 0 (.m 8) (.m 9) (.m 11) (.prv) 0 0)),
    .ok (.or (X 0 (.m 8) (.m 9) (.m 11) (.prv) 0 0)),
    .ok (.xor (X 0 (.m 8) (.m 9) (.m 11) (.prv) 0 0)),
    .ok (.andn (X 0 (.m 8) (.m 9) (.m 11) (.prv) 0 0)),
    .ok (.orn (X 0 (.m 8) (.m 9) (.m 11) (.prv) 0 0)),
    .ok (.xnor (X 0 (.m 8) (.m 9) (.m 11) (.prv) 0 0)),
    .ok (.mov (X 0 (.m 8) (.m 9) (.prv) (.prv) 0 0)),
    .ok (.mux (X 0 (.m 8) (.m 9) (.m 11) (.m 13) 0 0)),
    .ok (.shl (X 7 (.m 8) (.m 9) (.m 11) (.prv) 0 0)),
    .ok (.shr (X 7 (.m 8) (.m 9) (.m 11) (.prv) 0 0)),
    .ok (.sar (X 7 (.m 8) (.m 9) (.m 11) (.prv) 0 0)),
    .ok (.rol (X 7 (.m 8) (.m 9) (.m 11) (.prv) 0 0)),
    .ok (.ror (X 7 (.m 8) (.m 9) (.m 11) (.prv) 0 0)),
    .ok (.popc (X 7 (.m 8) (.m 9) (.prv) (.prv) 0 0)),
    .ok (.clz (X 7 (.m 8) (.m 9) (.prv) (.prv) 0 0)),
    .ok (.ctz (X 7 (.m 8) (.m 9) (.prv) (.prv) 0 0))] := rfl

theorem test_decode_020_to_02F : [
    W 0x020 7 0x88 0x89 0x8B 0x00 0 0,
    W 0x021 7 0x88 0x89 0x8B 0x00 0 0,
    W 0x022 0 0x88 0x89 0x8B 0x8D 0 0,
    W 0x023 7 0x88 0x89 0x8B 0x00 0 0,
    W 0x024 7 0x88 0x89 0x8B 0x00 0 0,
    W 0x025 7 0x88 0x89 0x8B 0x00 0 0,
    W 0x026 7 0x88 0x89 0x8B 0x00 0 0,
    W 0x027 7 0x88 0x89 0x8B 0x00 0 0,
    W 0x028 0 0x88 0x89 0x8B 0x00 0 0,
    W 0x029 0 0x88 0x89 0x8B 0x00 0 0,
    W 0x02A 0 0x88 0x89 0x8B 0x00 0 0,
    W 0x02B 0 0x88 0x89 0x8B 0x00 0 0,
    W 0x02C 7 0x88 0x89 0x8B 0x00 0 0,
    W 0x02D 7 0x88 0x89 0x8B 0x00 0 0,
    W 0x02E 7 0x88 0x89 0x8B 0x00 0 0,
    W 0x02F 7 0x88 0x89 0x8B 0x00 0 0].map decode = [
    .ok (.min (X 7 (.m 8) (.m 9) (.m 11) (.prv) 0 0)),
    .ok (.max (X 7 (.m 8) (.m 9) (.m 11) (.prv) 0 0)),
    .ok (.sel (X 0 (.m 8) (.m 9) (.m 11) (.m 13) 0 0)),
    .ok (.cmpeq (X 7 (.m 8) (.m 9) (.m 11) (.prv) 0 0)),
    .ok (.cmpne (X 7 (.m 8) (.m 9) (.m 11) (.prv) 0 0)),
    .ok (.cmplt (X 7 (.m 8) (.m 9) (.m 11) (.prv) 0 0)),
    .ok (.cmple (X 7 (.m 8) (.m 9) (.m 11) (.prv) 0 0)),
    .ok (.tst (X 7 (.m 8) (.m 9) (.m 11) (.prv) 0 0)),
    .ok (.pand (X 0 (.m 8) (.m 9) (.m 11) (.prv) 0 0)),
    .ok (.por (X 0 (.m 8) (.m 9) (.m 11) (.prv) 0 0)),
    .ok (.pxor (X 0 (.m 8) (.m 9) (.m 11) (.prv) 0 0)),
    .ok (.pandn (X 0 (.m 8) (.m 9) (.m 11) (.prv) 0 0)),
    .ok (.sadd (X 7 (.m 8) (.m 9) (.m 11) (.prv) 0 0)),
    .ok (.ssub (X 7 (.m 8) (.m 9) (.m 11) (.prv) 0 0)),
    .ok (.smul (X 7 (.m 8) (.m 9) (.m 11) (.prv) 0 0)),
    .ok (.sshl (X 7 (.m 8) (.m 9) (.m 11) (.prv) 0 0))] := rfl

theorem test_decode_040_to_04F : [
    W 0x040 7 0x88 0x89 0x00 0x00 5 0,
    W 0x041 7 0x88 0x89 0x00 0x00 5 0,
    W 0x042 7 0x88 0x89 0x00 0x00 5 0,
    W 0x043 7 0x88 0x89 0x00 0x00 5 0,
    W 0x044 7 0x88 0x89 0x00 0x00 5 0,
    W 0x045 0 0x88 0x89 0x00 0x00 5 0,
    W 0x046 0 0x88 0x89 0x00 0x00 5 0,
    W 0x047 0 0x88 0x89 0x00 0x00 5 0,
    W 0x048 7 0x88 0x89 0x00 0x00 5 0,
    W 0x049 7 0x88 0x89 0x00 0x00 5 0,
    W 0x04A 7 0x88 0x89 0x00 0x00 5 0,
    W 0x04B 7 0x88 0x89 0x00 0x00 5 0,
    W 0x04C 7 0x88 0x89 0x00 0x00 5 0,
    W 0x04D 7 0x88 0x89 0x00 0x00 5 0,
    W 0x04E 7 0x88 0x89 0x00 0x00 5 0,
    W 0x04F 7 0x88 0x89 0x00 0x00 5 0].map decode = [
    .ok (.addi (X 7 (.m 8) (.m 9) (.prv) (.prv) 5 0)),
    .ok (.rsubi (X 7 (.m 8) (.m 9) (.prv) (.prv) 5 0)),
    .ok (.muli (X 7 (.m 8) (.m 9) (.prv) (.prv) 5 0)),
    .ok (.divi (X 7 (.m 8) (.m 9) (.prv) (.prv) 5 0)),
    .ok (.remi (X 7 (.m 8) (.m 9) (.prv) (.prv) 5 0)),
    .ok (.andi (X 0 (.m 8) (.m 9) (.prv) (.prv) 5 0)),
    .ok (.ori (X 0 (.m 8) (.m 9) (.prv) (.prv) 5 0)),
    .ok (.xori (X 0 (.m 8) (.m 9) (.prv) (.prv) 5 0)),
    .ok (.shli (X 7 (.m 8) (.m 9) (.prv) (.prv) 5 0)),
    .ok (.shri (X 7 (.m 8) (.m 9) (.prv) (.prv) 5 0)),
    .ok (.sari (X 7 (.m 8) (.m 9) (.prv) (.prv) 5 0)),
    .ok (.roli (X 7 (.m 8) (.m 9) (.prv) (.prv) 5 0)),
    .ok (.rori (X 7 (.m 8) (.m 9) (.prv) (.prv) 5 0)),
    .ok (.mini (X 7 (.m 8) (.m 9) (.prv) (.prv) 5 0)),
    .ok (.maxi (X 7 (.m 8) (.m 9) (.prv) (.prv) 5 0)),
    .ok (.saddi (X 7 (.m 8) (.m 9) (.prv) (.prv) 5 0))] := rfl

theorem test_decode_050_to_05F : [
    W 0x050 0 0x88 0x00 0x89 0x0B 5 0,
    W 0x051 0 0x88 0x89 0x89 0x0B 5 0,
    W 0x052 0 0x88 0x89 0x8B 0x00 5 3,
    W 0x053 0 0x88 0x89 0x8B 0x00 5 3,
    W 0x054 0 0x88 0x89 0x00 0x00 5 0,
    W 0x055 0 0x88 0x89 0x00 0x00 5 0,
    W 0x056 0 0x88 0x89 0x8B 0x00 5 0,
    W 0x057 0 0x88 0x89 0x8B 0x00 0 0,
    W 0x058 0 0x88 0x89 0x8B 0x8D 0 0,
    W 0x059 7 0x88 0x89 0x00 0x00 5 0,
    W 0x05A 7 0x88 0x89 0x00 0x00 5 0,
    W 0x05B 7 0x88 0x89 0x00 0x00 5 0,
    W 0x05C 7 0x88 0x89 0x00 0x00 5 0,
    W 0x05D 7 0x88 0x89 0x00 0x00 5 0,
    W 0x05E 7 0x88 0x89 0x00 0x00 5 0,
    W 0x05F 7 0x88 0x89 0x00 0x00 5 0].map decode = [
    .ok (.lil (X 0 (.m 8) (.prv) (.byte 0x89) (.byte 0x0B) 5 0)),
    .ok (.lih (X 0 (.m 8) (.m 9) (.byte 0x89) (.byte 0x0B) 5 0)),
    .ok (.scadd (X 0 (.m 8) (.m 9) (.m 11) (.prv) 5 3)),
    .ok (.scaddu (X 0 (.m 8) (.m 9) (.m 11) (.prv) 5 3)),
    .ok (.bfx (X 0 (.m 8) (.m 9) (.prv) (.prv) 5 0)),
    .ok (.bfxs (X 0 (.m 8) (.m 9) (.prv) (.prv) 5 0)),
    .ok (.bfi (X 0 (.m 8) (.m 9) (.m 11) (.prv) 5 0)),
    .ok (.bfxr (X 0 (.m 8) (.m 9) (.m 11) (.prv) 0 0)),
    .ok (.bfir (X 0 (.m 8) (.m 9) (.m 11) (.m 13) 0 0)),
    .ok (.cmpeqi (X 7 (.m 8) (.m 9) (.prv) (.prv) 5 0)),
    .ok (.cmpnei (X 7 (.m 8) (.m 9) (.prv) (.prv) 5 0)),
    .ok (.cmplti (X 7 (.m 8) (.m 9) (.prv) (.prv) 5 0)),
    .ok (.cmplei (X 7 (.m 8) (.m 9) (.prv) (.prv) 5 0)),
    .ok (.cmpgti (X 7 (.m 8) (.m 9) (.prv) (.prv) 5 0)),
    .ok (.cmpgei (X 7 (.m 8) (.m 9) (.prv) (.prv) 5 0)),
    .ok (.tsti (X 7 (.m 8) (.m 9) (.prv) (.prv) 5 0))] := rfl

theorem test_decode_080_to_08F : [
    W 0x080 0 0x00 0x00 0x00 0x00 0 0,
    W 0x081 0 0x00 0x00 0x00 0x00 0 0,
    W 0x082 0 0x00 0x00 0x00 0x00 5 0,
    W 0x083 0 0x00 0x89 0x00 0x00 5 0,
    W 0x084 0 0x00 0x89 0x00 0x00 5 0,
    W 0x085 0 0x00 0xCA 0x00 0x00 5 0,
    W 0x086 0 0x00 0xCA 0x00 0x00 5 0,
    W 0x087 0 0x88 0x89 0x00 0x00 5 0,
    W 0x088 0 0x00 0x89 0x00 0x00 0 0,
    W 0x089 0 0x00 0x89 0x00 0x00 5 0,
    W 0x08A 3 0x00 0x00 0x00 0x00 5 0,
    W 0x08B 3 0x00 0x89 0x00 0x00 0 0,
    W 0x08C 0 0x00 0x00 0x00 0x00 0 0,
    W 0x08D 0 0x00 0x00 0x00 0x00 0 0,
    W 0x08E 0 0x00 0x00 0x00 0x00 149 0,
    W 0x08F 0 0x00 0x00 0x00 0x00 0 0].map decode = [
    .ok (.nop (X 0 (.prv) (.prv) (.prv) (.prv) 0 0)),
    .ok (.endTask (X 0 (.prv) (.prv) (.prv) (.prv) 0 0)),
    .ok (.br (X 0 (.prv) (.prv) (.prv) (.prv) 5 0)),
    .ok (.bnz (X 0 (.prv) (.m 9) (.prv) (.prv) 5 0)),
    .ok (.bz (X 0 (.prv) (.m 9) (.prv) (.prv) 5 0)),
    .ok (.beod (X 0 (.prv) (.s 2) (.prv) (.prv) 5 0)),
    .ok (.bneod (X 0 (.prv) (.s 2) (.prv) (.prv) 5 0)),
    .ok (.dbnz (X 0 (.m 8) (.m 9) (.prv) (.prv) 5 0)),
    .ok (.brr (X 0 (.prv) (.m 9) (.prv) (.prv) 0 0)),
    .ok (.btab (X 0 (.prv) (.m 9) (.prv) (.prv) 5 0)),
    .ok (.call (X 3 (.prv) (.prv) (.prv) (.prv) 5 0)),
    .ok (.callr (X 3 (.prv) (.m 9) (.prv) (.prv) 0 0)),
    .ok (.ret (X 0 (.prv) (.prv) (.prv) (.prv) 0 0)),
    .ok (.yield (X 0 (.prv) (.prv) (.prv) (.prv) 0 0)),
    .ok (.trap (X 0 (.prv) (.prv) (.prv) (.prv) 149 0)),
    .ok (.tfence (X 0 (.prv) (.prv) (.prv) (.prv) 0 0))] := rfl

theorem test_decode_090_to_0C7 : [
    W 0x090 7 0xC9 0x89 0x00 0x00 0 0,
    W 0x091 7 0xC9 0x89 0x8B 0x00 0 0,
    W 0x092 0 0xC9 0x00 0x00 0x00 0 0,
    W 0x093 0 0xC9 0x00 0x00 0x00 0 0,
    W 0x094 0 0xC9 0x89 0x00 0x00 0 0,
    W 0x095 0 0x88 0xCA 0x00 0x00 0 0,
    W 0x096 0 0x88 0xCA 0x00 0x00 0 0,
    W 0x097 0 0x88 0xCA 0x00 0x00 0 0,
    W 0x0C0 7 0x88 0x89 0x8B 0x00 5 0,
    W 0x0C1 7 0x00 0x89 0x8B 0x8D 5 0,
    W 0x0C2 4 0x88 0x89 0x8B 0x00 5 0,
    W 0x0C3 4 0x00 0x89 0x8B 0x8D 5 0,
    W 0x0C4 0 0x82 0x89 0x8B 0x00 5 0,
    W 0x0C5 0 0x00 0x89 0x8B 0x8C 5 0,
    W 0x0C6 7 0x88 0x91 0x8B 0x00 5 0,
    W 0x0C7 7 0x00 0x91 0x8B 0x8D 5 0].map decode = [
    .ok (.sbind (X 7 (.s 1) (.m 9) (.prv) (.prv) 0 0)),
    .ok (.sbindc (X 7 (.s 1) (.m 9) (.m 11) (.prv) 0 0)),
    .ok (.sunb (X 0 (.s 1) (.prv) (.prv) (.prv) 0 0)),
    .ok (.srew (X 0 (.s 1) (.prv) (.prv) (.prv) 0 0)),
    .ok (.sskip (X 0 (.s 1) (.m 9) (.prv) (.prv) 0 0)),
    .ok (.spos (X 0 (.m 8) (.s 2) (.prv) (.prv) 0 0)),
    .ok (.speek (X 0 (.m 8) (.s 2) (.prv) (.prv) 0 0)),
    .ok (.sstat (X 0 (.m 8) (.s 2) (.prv) (.prv) 0 0)),
    .ok (.ld (X 7 (.m 8) (.m 9) (.m 11) (.prv) 5 0)),
    .ok (.st (X 7 (.prv) (.m 9) (.m 11) (.m 13) 5 0)),
    .ok (.ldf (X 4 (.m 8) (.m 9) (.m 11) (.prv) 5 0)),
    .ok (.stf (X 4 (.prv) (.m 9) (.m 11) (.m 13) 5 0)),
    .ok (.ldp (X 0 (.m 2) (.m 9) (.m 11) (.prv) 5 0)),
    .ok (.stp (X 0 (.prv) (.m 9) (.m 11) (.m 12) 5 0)),
    .ok (.ldi (X 7 (.m 8) (.m 17) (.m 11) (.prv) 5 0)),
    .ok (.sti (X 7 (.prv) (.m 17) (.m 11) (.m 13) 5 0))] := rfl

theorem test_decode_0C8_to_0D7 : [
    W 0x0C8 4 0x88 0x91 0x8B 0x00 5 0,
    W 0x0C9 4 0x00 0x91 0x8B 0x8D 5 0,
    W 0x0CA 0 0x00 0x89 0x8B 0x00 5 0,
    W 0x0CB 0 0x00 0x89 0x8B 0x00 5 0,
    W 0x0CC 0 0x00 0x89 0x8B 0x00 5 0,
    W 0x0CD 0 0x00 0x89 0x8B 0x00 5 0,
    W 0x0CE 0 0x82 0x91 0x8B 0x00 5 0,
    W 0x0CF 0 0x00 0x91 0x8B 0x8C 5 0,
    W 0x0D0 0 0x90 0x91 0x93 0x00 0 0,
    W 0x0D1 7 0x90 0x91 0x93 0x00 0 0,
    W 0x0D2 0 0x88 0x89 0x00 0x00 0 0,
    W 0x0D3 0 0x88 0x89 0x00 0x00 2 0,
    W 0x0D4 1 0x88 0x89 0x8B 0x00 0 0,
    W 0x0D5 1 0x88 0x89 0x8B 0x00 0 0,
    W 0x0D6 1 0x88 0x89 0x8B 0x00 0 2,
    W 0x0D7 1 0x88 0x89 0x8B 0x00 0 2].map decode = [
    .ok (.ldfi (X 4 (.m 8) (.m 17) (.m 11) (.prv) 5 0)),
    .ok (.stfi (X 4 (.prv) (.m 17) (.m 11) (.m 13) 5 0)),
    .ok (.pref (X 0 (.prv) (.m 9) (.m 11) (.prv) 5 0)),
    .ok (.zline (X 0 (.prv) (.m 9) (.m 11) (.prv) 5 0)),
    .ok (.ldo (X 0 (.prv) (.m 9) (.m 11) (.prv) 5 0)),
    .ok (.sto (X 0 (.prv) (.m 9) (.m 11) (.prv) 5 0)),
    .ok (.ldpi (X 0 (.m 2) (.m 17) (.m 11) (.prv) 5 0)),
    .ok (.stpi (X 0 (.prv) (.m 17) (.m 11) (.m 12) 5 0)),
    .ok (.bmov (X 0 (.m 16) (.m 17) (.m 19) (.prv) 0 0)),
    .ok (.bfill (X 7 (.m 16) (.m 17) (.m 19) (.prv) 0 0)),
    .ok (.sptest (X 0 (.m 8) (.m 9) (.prv) (.prv) 0 0)),
    .ok (.spcast (X 0 (.m 8) (.m 9) (.prv) (.prv) 2 0)),
    .ok (.aadd 0 (X 1 (.m 8) (.m 9) (.m 11) (.prv) 0 0)),
    .ok (.aadd 1 (X 1 (.m 8) (.m 9) (.m 11) (.prv) 0 0)),
    .ok (.aadd 2 (X 1 (.m 8) (.m 9) (.m 11) (.prv) 0 2)),
    .ok (.aadd 3 (X 1 (.m 8) (.m 9) (.m 11) (.prv) 0 2))] := rfl

theorem test_decode_0D8_to_0E7 : [
    W 0x0D8 1 0x88 0x89 0x8B 0x00 0 0,
    W 0x0D9 1 0x88 0x89 0x8B 0x00 0 0,
    W 0x0DA 1 0x88 0x89 0x8B 0x00 0 2,
    W 0x0DB 1 0x88 0x89 0x8B 0x00 0 2,
    W 0x0DC 1 0x88 0x89 0x8B 0x00 0 0,
    W 0x0DD 1 0x88 0x89 0x8B 0x00 0 0,
    W 0x0DE 1 0x88 0x89 0x8B 0x00 0 2,
    W 0x0DF 1 0x88 0x89 0x8B 0x00 0 2,
    W 0x0E0 1 0x88 0x89 0x8B 0x00 0 0,
    W 0x0E1 1 0x88 0x89 0x8B 0x00 0 0,
    W 0x0E2 1 0x88 0x89 0x8B 0x00 0 2,
    W 0x0E3 1 0x88 0x89 0x8B 0x00 0 2,
    W 0x0E4 1 0x88 0x89 0x8B 0x00 0 0,
    W 0x0E5 1 0x88 0x89 0x8B 0x00 0 0,
    W 0x0E6 1 0x88 0x89 0x8B 0x00 0 2,
    W 0x0E7 1 0x88 0x89 0x8B 0x00 0 2].map decode = [
    .ok (.aand 0 (X 1 (.m 8) (.m 9) (.m 11) (.prv) 0 0)),
    .ok (.aand 1 (X 1 (.m 8) (.m 9) (.m 11) (.prv) 0 0)),
    .ok (.aand 2 (X 1 (.m 8) (.m 9) (.m 11) (.prv) 0 2)),
    .ok (.aand 3 (X 1 (.m 8) (.m 9) (.m 11) (.prv) 0 2)),
    .ok (.aor 0 (X 1 (.m 8) (.m 9) (.m 11) (.prv) 0 0)),
    .ok (.aor 1 (X 1 (.m 8) (.m 9) (.m 11) (.prv) 0 0)),
    .ok (.aor 2 (X 1 (.m 8) (.m 9) (.m 11) (.prv) 0 2)),
    .ok (.aor 3 (X 1 (.m 8) (.m 9) (.m 11) (.prv) 0 2)),
    .ok (.axor 0 (X 1 (.m 8) (.m 9) (.m 11) (.prv) 0 0)),
    .ok (.axor 1 (X 1 (.m 8) (.m 9) (.m 11) (.prv) 0 0)),
    .ok (.axor 2 (X 1 (.m 8) (.m 9) (.m 11) (.prv) 0 2)),
    .ok (.axor 3 (X 1 (.m 8) (.m 9) (.m 11) (.prv) 0 2)),
    .ok (.amax 0 (X 1 (.m 8) (.m 9) (.m 11) (.prv) 0 0)),
    .ok (.amax 1 (X 1 (.m 8) (.m 9) (.m 11) (.prv) 0 0)),
    .ok (.amax 2 (X 1 (.m 8) (.m 9) (.m 11) (.prv) 0 2)),
    .ok (.amax 3 (X 1 (.m 8) (.m 9) (.m 11) (.prv) 0 2))] := rfl

theorem test_decode_0E8_to_0F7 : [
    W 0x0E8 1 0x88 0x89 0x8B 0x00 0 0,
    W 0x0E9 1 0x88 0x89 0x8B 0x00 0 0,
    W 0x0EA 1 0x88 0x89 0x8B 0x00 0 2,
    W 0x0EB 1 0x88 0x89 0x8B 0x00 0 2,
    W 0x0EC 1 0x88 0x89 0x8B 0x00 0 0,
    W 0x0ED 1 0x88 0x89 0x8B 0x00 0 0,
    W 0x0EE 1 0x88 0x89 0x8B 0x00 0 2,
    W 0x0EF 1 0x88 0x89 0x8B 0x00 0 2,
    W 0x0F0 1 0x88 0x89 0x8B 0x8D 0 0,
    W 0x0F1 1 0x88 0x89 0x8B 0x8D 0 0,
    W 0x0F2 1 0x88 0x89 0x8B 0x8D 0 2,
    W 0x0F3 1 0x88 0x89 0x8B 0x8D 0 2,
    W 0x0F4 0 0x00 0x00 0x00 0x00 0 0,
    W 0x0F5 0 0x00 0x00 0x00 0x00 0 0,
    W 0x0F6 0 0x00 0x00 0x00 0x00 0 0,
    W 0x0F7 0 0x00 0x00 0x00 0x00 0 0].map decode = [
    .ok (.amin 0 (X 1 (.m 8) (.m 9) (.m 11) (.prv) 0 0)),
    .ok (.amin 1 (X 1 (.m 8) (.m 9) (.m 11) (.prv) 0 0)),
    .ok (.amin 2 (X 1 (.m 8) (.m 9) (.m 11) (.prv) 0 2)),
    .ok (.amin 3 (X 1 (.m 8) (.m 9) (.m 11) (.prv) 0 2)),
    .ok (.axchg 0 (X 1 (.m 8) (.m 9) (.m 11) (.prv) 0 0)),
    .ok (.axchg 1 (X 1 (.m 8) (.m 9) (.m 11) (.prv) 0 0)),
    .ok (.axchg 2 (X 1 (.m 8) (.m 9) (.m 11) (.prv) 0 2)),
    .ok (.axchg 3 (X 1 (.m 8) (.m 9) (.m 11) (.prv) 0 2)),
    .ok (.acas 0 (X 1 (.m 8) (.m 9) (.m 11) (.m 13) 0 0)),
    .ok (.acas 1 (X 1 (.m 8) (.m 9) (.m 11) (.m 13) 0 0)),
    .ok (.acas 2 (X 1 (.m 8) (.m 9) (.m 11) (.m 13) 0 2)),
    .ok (.acas 3 (X 1 (.m 8) (.m 9) (.m 11) (.m 13) 0 2)),
    .ok (.fence (X 0 (.prv) (.prv) (.prv) (.prv) 0 0)),
    .ok (.fenceF (X 0 (.prv) (.prv) (.prv) (.prv) 0 0)),
    .ok (.fenceE (X 0 (.prv) (.prv) (.prv) (.prv) 0 0)),
    .ok (.fenceH (X 0 (.prv) (.prv) (.prv) (.prv) 0 0))] := rfl

theorem test_decode_100_to_10F : [
    W 0x100 0 0x00 0x89 0x8B 0x00 0 0,
    W 0x101 0 0x00 0x89 0x8B 0x00 0 0,
    W 0x102 0 0x88 0x89 0x8B 0x00 0 0,
    W 0x103 0 0x88 0x89 0x00 0x00 0 0,
    W 0x104 0 0x00 0x89 0x00 0x00 5 0,
    W 0x105 0 0x88 0x89 0x00 0x00 5 0,
    W 0x106 0 0x88 0x00 0x00 0x00 5 0,
    W 0x107 0 0x88 0x89 0x00 0x00 5 0,
    W 0x108 0 0x00 0x89 0x00 0x00 5 0,
    W 0x109 2 0x88 0x89 0x00 0x00 0 0,
    W 0x10A 2 0x88 0x89 0x00 0x00 0 0,
    W 0x10B 0 0x88 0x00 0x00 0x00 5 0,
    W 0x10C 0 0x88 0x89 0x8B 0x00 5 0,
    W 0x10D 0 0x88 0x89 0x88 0x00 5 0,
    W 0x10E 5 0x88 0x89 0x8B 0x8D 5 0,
    W 0x10F 0 0x88 0x89 0x8B 0x00 5 0].map decode = [
    .ok (.give (X 0 (.prv) (.m 9) (.m 11) (.prv) 0 0)),
    .ok (.take (X 0 (.prv) (.m 9) (.m 11) (.prv) 0 0)),
    .ok (.ttake (X 0 (.m 8) (.m 9) (.m 11) (.prv) 0 0)),
    .ok (.ownr (X 0 (.m 8) (.m 9) (.prv) (.prv) 0 0)),
    .ok (.semset (X 0 (.prv) (.m 9) (.prv) (.prv) 5 0)),
    .ok (.semadd (X 0 (.m 8) (.m 9) (.prv) (.prv) 5 0)),
    .ok (.semrd (X 0 (.m 8) (.prv) (.prv) (.prv) 5 0)),
    .ok (.semtry (X 0 (.m 8) (.m 9) (.prv) (.prv) 5 0)),
    .ok (.semwait (X 0 (.prv) (.m 9) (.prv) (.prv) 5 0)),
    .ok (.vote (X 2 (.m 8) (.m 9) (.prv) (.prv) 0 0)),
    .ok (.votev (X 2 (.m 8) (.m 9) (.prv) (.prv) 0 0)),
    .ok (.semz (X 0 (.m 8) (.prv) (.prv) (.prv) 5 0)),
    .ok (.copy (X 0 (.m 8) (.m 9) (.m 11) (.prv) 5 0)),
    .ok (.copy2 (X 0 (.m 8) (.m 9) (.m 8) (.prv) 5 0)),
    .ok (.redp (X 5 (.m 8) (.m 9) (.m 11) (.m 13) 5 0)),
    .ok (.apf (X 0 (.m 8) (.m 9) (.m 11) (.prv) 5 0))] := rfl

theorem test_decode_110_to_147 : [
    W 0x110 0 0x88 0x89 0x00 0x00 0 0,
    W 0x111 0 0x00 0x89 0x00 0x00 0 0,
    W 0x112 0 0x88 0x89 0x00 0x00 0 0,
    W 0x113 0 0x00 0x89 0x00 0x00 0 0,
    W 0x114 0 0x88 0x89 0x00 0x00 0 0,
    W 0x115 0 0x88 0x89 0x00 0x00 0 0,
    W 0x116 0 0x00 0x89 0x00 0x00 0 0,
    W 0x117 0 0x88 0x89 0x8B 0x00 5 0,
    W 0x140 7 0x84 0x88 0x90 0x00 0 0,
    W 0x141 7 0x84 0x88 0x90 0x00 0 0,
    W 0x142 7 0x84 0x88 0x90 0x00 0 0,
    W 0x143 7 0x84 0x88 0x90 0x98 0 0,
    W 0x144 7 0x84 0x88 0x90 0x98 0 0,
    W 0x145 7 0x84 0x88 0x90 0x98 0 0,
    W 0x146 7 0x84 0x88 0x90 0x00 0 0,
    W 0x147 7 0x84 0x88 0x90 0x00 0 0].map decode = [
    .ok (.twany (X 0 (.m 8) (.m 9) (.prv) (.prv) 0 0)),
    .ok (.twall (X 0 (.prv) (.m 9) (.prv) (.prv) 0 0)),
    .ok (.tfind (X 0 (.m 8) (.m 9) (.prv) (.prv) 0 0)),
    .ok (.cres (X 0 (.prv) (.m 9) (.prv) (.prv) 0 0)),
    .ok (.ccan (X 0 (.m 8) (.m 9) (.prv) (.prv) 0 0)),
    .ok (.tstat (X 0 (.m 8) (.m 9) (.prv) (.prv) 0 0)),
    .ok (.twait (X 0 (.prv) (.m 9) (.prv) (.prv) 0 0)),
    .ok (.cfill (X 0 (.m 8) (.m 9) (.m 11) (.prv) 5 0)),
    .ok (.vadd (X 7 (.v 4) (.v 8) (.v 16) (.prv) 0 0)),
    .ok (.vsub (X 7 (.v 4) (.v 8) (.v 16) (.prv) 0 0)),
    .ok (.vmul (X 7 (.v 4) (.v 8) (.v 16) (.prv) 0 0)),
    .ok (.vfma (X 7 (.v 4) (.v 8) (.v 16) (.v 24) 0 0)),
    .ok (.vfms (X 7 (.v 4) (.v 8) (.v 16) (.v 24) 0 0)),
    .ok (.vfnma (X 7 (.v 4) (.v 8) (.v 16) (.v 24) 0 0)),
    .ok (.vmin (X 7 (.v 4) (.v 8) (.v 16) (.prv) 0 0)),
    .ok (.vmax (X 7 (.v 4) (.v 8) (.v 16) (.prv) 0 0))] := rfl

theorem test_decode_148_to_157 : [
    W 0x148 7 0x84 0x88 0x00 0x00 0 0,
    W 0x149 7 0x84 0x88 0x00 0x00 0 0,
    W 0x14A 7 0x84 0x88 0x90 0x00 0 0,
    W 0x14B 7 0x84 0x88 0x90 0x00 0 0,
    W 0x14C 7 0x84 0x88 0x90 0x00 0 0,
    W 0x14D 7 0x84 0x88 0x90 0x00 0 0,
    W 0x14E 7 0x84 0x88 0x90 0x00 0 0,
    W 0x14F 7 0x84 0x88 0x90 0x00 0 0,
    W 0x150 7 0x84 0x88 0x90 0x00 0 0,
    W 0x151 7 0x84 0x88 0x90 0x00 0 0,
    W 0x152 7 0x84 0x88 0x90 0x00 0 0,
    W 0x153 7 0x84 0x88 0x90 0x00 0 0,
    W 0x154 2 0x84 0x88 0x90 0x00 0 0,
    W 0x155 7 0x84 0x88 0x90 0x98 0 0,
    W 0x156 0 0x88 0x88 0x00 0x00 0 0,
    W 0x157 0 0x88 0x88 0x00 0x00 0 0].map decode = [
    .ok (.vabs (X 7 (.v 4) (.v 8) (.prv) (.prv) 0 0)),
    .ok (.vneg (X 7 (.v 4) (.v 8) (.prv) (.prv) 0 0)),
    .ok (.vdiv (X 7 (.v 4) (.v 8) (.v 16) (.prv) 0 0)),
    .ok (.vand (X 7 (.v 4) (.v 8) (.v 16) (.prv) 0 0)),
    .ok (.vor (X 7 (.v 4) (.v 8) (.v 16) (.prv) 0 0)),
    .ok (.vxor (X 7 (.v 4) (.v 8) (.v 16) (.prv) 0 0)),
    .ok (.vshl (X 7 (.v 4) (.v 8) (.v 16) (.prv) 0 0)),
    .ok (.vshr (X 7 (.v 4) (.v 8) (.v 16) (.prv) 0 0)),
    .ok (.vcmpeq (X 7 (.v 4) (.v 8) (.v 16) (.prv) 0 0)),
    .ok (.vcmpne (X 7 (.v 4) (.v 8) (.v 16) (.prv) 0 0)),
    .ok (.vcmplt (X 7 (.v 4) (.v 8) (.v 16) (.prv) 0 0)),
    .ok (.vcmple (X 7 (.v 4) (.v 8) (.v 16) (.prv) 0 0)),
    .ok (.vcmpun (X 2 (.v 4) (.v 8) (.v 16) (.prv) 0 0)),
    .ok (.vsel (X 7 (.v 4) (.v 8) (.v 16) (.v 24) 0 0)),
    .ok (.vmcnt (X 0 (.m 8) (.v 8) (.prv) (.prv) 0 0)),
    .ok (.vmff (X 0 (.m 8) (.v 8) (.prv) (.prv) 0 0))] := rfl

theorem test_decode_158_to_167 : [
    W 0x158 7 0x84 0x88 0x00 0x00 0 0,
    W 0x159 7 0x84 0x88 0x00 0x00 0 0,
    W 0x15A 7 0x84 0x88 0x00 0x00 0 0,
    W 0x15B 7 0x84 0x88 0x00 0x00 0 0,
    W 0x15C 7 0x84 0x88 0x00 0x00 0 0,
    W 0x15D 7 0x84 0x88 0x00 0x00 0 0,
    W 0x15E 7 0x84 0x88 0x00 0x00 5 0,
    W 0x15F 7 0x84 0x88 0x00 0x00 5 0,
    W 0x160 7 0x84 0x88 0x90 0x00 0 0,
    W 0x161 7 0x84 0x89 0x00 0x00 0 0,
    W 0x162 7 0x88 0x88 0x8B 0x00 0 0,
    W 0x163 7 0x84 0x89 0x8B 0x00 0 0,
    W 0x164 7 0x84 0x89 0x00 0x00 0 0,
    W 0x165 7 0x84 0x89 0x90 0x00 0 0,
    W 0x166 7 0x00 0x89 0x90 0x98 0 0,
    W 0x167 4 0x84 0x89 0x8B 0x00 0 0].map decode = [
    .ok (.vrsum (X 7 (.v 4) (.v 8) (.prv) (.prv) 0 0)),
    .ok (.vrmax (X 7 (.v 4) (.v 8) (.prv) (.prv) 0 0)),
    .ok (.vrmin (X 7 (.v 4) (.v 8) (.prv) (.prv) 0 0)),
    .ok (.vramax (X 7 (.v 4) (.v 8) (.prv) (.prv) 0 0)),
    .ok (.vscan (X 7 (.v 4) (.v 8) (.prv) (.prv) 0 0)),
    .ok (.vscanx (X 7 (.v 4) (.v 8) (.prv) (.prv) 0 0)),
    .ok (.vtopk (X 7 (.v 4) (.v 8) (.prv) (.prv) 5 0)),
    .ok (.vtopki (X 7 (.v 4) (.v 8) (.prv) (.prv) 5 0)),
    .ok (.vperm (X 7 (.v 4) (.v 8) (.v 16) (.prv) 0 0)),
    .ok (.vbcast (X 7 (.v 4) (.m 9) (.prv) (.prv) 0 0)),
    .ok (.vext (X 7 (.m 8) (.v 8) (.m 11) (.prv) 0 0)),
    .ok (.vins (X 7 (.v 4) (.m 9) (.m 11) (.prv) 0 0)),
    .ok (.viota (X 7 (.v 4) (.m 9) (.prv) (.prv) 0 0)),
    .ok (.vgath (X 7 (.v 4) (.m 9) (.v 16) (.prv) 0 0)),
    .ok (.vscat (X 7 (.prv) (.m 9) (.v 16) (.v 24) 0 0)),
    .ok (.vrand (X 4 (.v 4) (.m 9) (.m 11) (.prv) 0 0))] := rfl

theorem test_decode_168_to_187 : [
    W 0x168 7 0x84 0x89 0x8B 0x00 5 0,
    W 0x169 7 0x00 0x89 0x8B 0x98 5 0,
    W 0x16A 7 0x84 0x89 0x8B 0x00 5 0,
    W 0x16B 7 0x00 0x89 0x8B 0x98 5 0,
    W 0x16C 7 0x84 0x89 0x8B 0x00 5 0,
    W 0x16D 7 0x00 0x89 0x8B 0x98 5 0,
    W 0x16E 0 0x84 0x89 0x8B 0x00 5 0,
    W 0x16F 0 0x00 0x89 0x8B 0x98 5 0,
    W 0x180 0 0x88 0x89 0x00 0x00 5 0,
    W 0x181 0 0x88 0x89 0x00 0x00 5 0,
    W 0x182 0 0x88 0x89 0x00 0x00 5 0,
    W 0x183 0 0x88 0x89 0x00 0x00 5 0,
    W 0x184 0 0x88 0x89 0x00 0x00 5 0,
    W 0x185 0 0x88 0x89 0x00 0x00 5 0,
    W 0x186 0 0x88 0x89 0x00 0x00 5 0,
    W 0x187 0 0x88 0x89 0x00 0x00 5 0].map decode = [
    .ok (.vld (X 7 (.v 4) (.m 9) (.m 11) (.prv) 5 0)),
    .ok (.vst (X 7 (.prv) (.m 9) (.m 11) (.v 24) 5 0)),
    .ok (.vlds (X 7 (.v 4) (.m 9) (.m 11) (.prv) 5 0)),
    .ok (.vsts (X 7 (.prv) (.m 9) (.m 11) (.v 24) 5 0)),
    .ok (.vldbc (X 7 (.v 4) (.m 9) (.m 11) (.prv) 5 0)),
    .ok (.vstc (X 7 (.prv) (.m 9) (.m 11) (.v 24) 5 0)),
    .ok (.vldm (X 0 (.v 4) (.m 9) (.m 11) (.prv) 5 0)),
    .ok (.vstm (X 0 (.prv) (.m 9) (.m 11) (.v 24) 5 0)),
    .ok (.cvt 0 (X 0 (.m 8) (.m 9) (.prv) (.prv) 5 0)),
    .ok (.cvt 1 (X 0 (.m 8) (.m 9) (.prv) (.prv) 5 0)),
    .ok (.cvt 2 (X 0 (.m 8) (.m 9) (.prv) (.prv) 5 0)),
    .ok (.cvt 3 (X 0 (.m 8) (.m 9) (.prv) (.prv) 5 0)),
    .ok (.cvt 4 (X 0 (.m 8) (.m 9) (.prv) (.prv) 5 0)),
    .ok (.cvt 5 (X 0 (.m 8) (.m 9) (.prv) (.prv) 5 0)),
    .ok (.cvt 6 (X 0 (.m 8) (.m 9) (.prv) (.prv) 5 0)),
    .ok (.cvt 7 (X 0 (.m 8) (.m 9) (.prv) (.prv) 5 0))] := rfl

theorem test_decode_188_to_197 : [
    W 0x188 0 0x88 0x89 0x00 0x00 5 0,
    W 0x189 0 0x88 0x89 0x00 0x00 5 0,
    W 0x18A 0 0x88 0x89 0x00 0x00 5 0,
    W 0x18B 0 0x88 0x89 0x00 0x00 5 0,
    W 0x18C 0 0x88 0x89 0x00 0x00 5 0,
    W 0x18D 0 0x88 0x89 0x00 0x00 5 0,
    W 0x18E 0 0x88 0x89 0x00 0x00 5 0,
    W 0x18F 2 0x88 0x89 0x00 0x00 0 0,
    W 0x190 0 0x84 0x88 0x00 0x00 5 0,
    W 0x191 0 0x84 0x88 0x00 0x00 5 0,
    W 0x192 0 0x84 0x88 0x00 0x00 5 0,
    W 0x193 0 0x84 0x88 0x00 0x00 5 0,
    W 0x194 0 0x84 0x88 0x00 0x00 5 0,
    W 0x195 0 0x84 0x88 0x00 0x00 5 0,
    W 0x196 0 0x84 0x88 0x00 0x00 5 0,
    W 0x197 0 0x84 0x88 0x00 0x00 5 0].map decode = [
    .ok (.cvt 8 (X 0 (.m 8) (.m 9) (.prv) (.prv) 5 0)),
    .ok (.cvt 9 (X 0 (.m 8) (.m 9) (.prv) (.prv) 5 0)),
    .ok (.cvt 10 (X 0 (.m 8) (.m 9) (.prv) (.prv) 5 0)),
    .ok (.cvt 11 (X 0 (.m 8) (.m 9) (.prv) (.prv) 5 0)),
    .ok (.cvt 12 (X 0 (.m 8) (.m 9) (.prv) (.prv) 5 0)),
    .ok (.cvt 13 (X 0 (.m 8) (.m 9) (.prv) (.prv) 5 0)),
    .ok (.cvt 14 (X 0 (.m 8) (.m 9) (.prv) (.prv) 5 0)),
    .ok (.frnd (X 2 (.m 8) (.m 9) (.prv) (.prv) 0 0)),
    .ok (.vcvt 0 (X 0 (.v 4) (.v 8) (.prv) (.prv) 5 0)),
    .ok (.vcvt 1 (X 0 (.v 4) (.v 8) (.prv) (.prv) 5 0)),
    .ok (.vcvt 2 (X 0 (.v 4) (.v 8) (.prv) (.prv) 5 0)),
    .ok (.vcvt 3 (X 0 (.v 4) (.v 8) (.prv) (.prv) 5 0)),
    .ok (.vcvt 4 (X 0 (.v 4) (.v 8) (.prv) (.prv) 5 0)),
    .ok (.vcvt 5 (X 0 (.v 4) (.v 8) (.prv) (.prv) 5 0)),
    .ok (.vcvt 6 (X 0 (.v 4) (.v 8) (.prv) (.prv) 5 0)),
    .ok (.vcvt 7 (X 0 (.v 4) (.v 8) (.prv) (.prv) 5 0))] := rfl

theorem test_decode_198_to_1A7 : [
    W 0x198 0 0x84 0x88 0x00 0x00 5 0,
    W 0x199 0 0x84 0x88 0x00 0x00 5 0,
    W 0x19A 0 0x84 0x88 0x00 0x00 5 0,
    W 0x19B 0 0x84 0x88 0x00 0x00 5 0,
    W 0x19C 0 0x84 0x88 0x00 0x00 5 0,
    W 0x19D 2 0x84 0x88 0x00 0x00 0 0,
    W 0x19E 2 0x00 0x89 0x8B 0x98 1 0,
    W 0x19F 2 0x84 0x89 0x8B 0x00 1 0,
    W 0x1A0 2 0x88 0x89 0x00 0x00 0 0,
    W 0x1A1 2 0x88 0x89 0x00 0x00 0 0,
    W 0x1A2 2 0x88 0x89 0x00 0x00 0 0,
    W 0x1A3 2 0x88 0x89 0x00 0x00 0 0,
    W 0x1A4 2 0x84 0x88 0x00 0x00 0 0,
    W 0x1A5 2 0x84 0x88 0x00 0x00 0 0,
    W 0x1A6 2 0x84 0x88 0x00 0x00 0 0,
    W 0x1A7 2 0x84 0x88 0x00 0x00 0 0].map decode = [
    .ok (.vcvt 8 (X 0 (.v 4) (.v 8) (.prv) (.prv) 5 0)),
    .ok (.vcvt 9 (X 0 (.v 4) (.v 8) (.prv) (.prv) 5 0)),
    .ok (.vcvt 10 (X 0 (.v 4) (.v 8) (.prv) (.prv) 5 0)),
    .ok (.vcvt 11 (X 0 (.v 4) (.v 8) (.prv) (.prv) 5 0)),
    .ok (.vcvt 12 (X 0 (.v 4) (.v 8) (.prv) (.prv) 5 0)),
    .ok (.vfrnd (X 2 (.v 4) (.v 8) (.prv) (.prv) 0 0)),
    .ok (.venc (X 2 (.prv) (.m 9) (.m 11) (.v 24) 1 0)),
    .ok (.vdec (X 2 (.v 4) (.m 9) (.m 11) (.prv) 1 0)),
    .ok (.exp2 (X 2 (.m 8) (.m 9) (.prv) (.prv) 0 0)),
    .ok (.log2 (X 2 (.m 8) (.m 9) (.prv) (.prv) 0 0)),
    .ok (.rcp (X 2 (.m 8) (.m 9) (.prv) (.prv) 0 0)),
    .ok (.rsq (X 2 (.m 8) (.m 9) (.prv) (.prv) 0 0)),
    .ok (.vexp2 (X 2 (.v 4) (.v 8) (.prv) (.prv) 0 0)),
    .ok (.vlog2 (X 2 (.v 4) (.v 8) (.prv) (.prv) 0 0)),
    .ok (.vrcp (X 2 (.v 4) (.v 8) (.prv) (.prv) 0 0)),
    .ok (.vrsq (X 2 (.v 4) (.v 8) (.prv) (.prv) 0 0))] := rfl

theorem test_decode_1C0_to_1CF : [
    W 0x1C0 0 0x88 0x00 0x00 0x00 5 0,
    W 0x1C1 0 0x00 0x89 0x8B 0xC0 0 0,
    W 0x1C2 0 0xE1 0x89 0x8B 0xC0 0 0,
    W 0x1C3 0 0xE1 0x89 0x8B 0x8D 0 0,
    W 0x1C4 0 0xE1 0x89 0x8B 0xC0 0 0,
    W 0x1C5 0 0xE1 0x89 0x8B 0x8D 0 0,
    W 0x1C6 0 0xE1 0x89 0x8B 0x8D 5 0,
    W 0x1C7 0 0xE1 0x00 0x00 0x00 5 0,
    W 0x1C8 7 0xE1 0x89 0x8B 0x00 0 0,
    W 0x1C9 0 0x88 0xE2 0x00 0x00 0 0,
    W 0x1CA 0 0xE1 0x89 0x8B 0x00 0 0,
    W 0x1CB 0 0xE1 0x89 0x8B 0x00 0 0,
    W 0x1CC 0 0x00 0x89 0x00 0x00 0 0,
    W 0x1CD 0 0x00 0x89 0x00 0x00 0 0,
    W 0x1CE 0 0x00 0x89 0x00 0x00 0 0,
    W 0x1CF 0 0x00 0x00 0x00 0x00 0 0].map decode = [
    .ok (.mgang (X 0 (.m 8) (.prv) (.prv) (.prv) 5 0)),
    .ok (.mldb (X 0 (.prv) (.m 9) (.m 11) (.zero) 0 0)),
    .ok (.mma (X 0 (.a 1) (.m 9) (.m 11) (.zero) 0 0)),
    .ok (.mmg (X 0 (.a 1) (.m 9) (.m 11) (.m 13) 0 0)),
    .ok (.mred (X 0 (.a 1) (.m 9) (.m 11) (.zero) 0 0)),
    .ok (.mredg (X 0 (.a 1) (.m 9) (.m 11) (.m 13) 0 0)),
    .ok (.mmv (X 0 (.a 1) (.m 9) (.m 11) (.m 13) 5 0)),
    .ok (.mclr (X 0 (.a 1) (.prv) (.prv) (.prv) 5 0)),
    .ok (.mdrain (X 7 (.a 1) (.m 9) (.m 11) (.prv) 0 0)),
    .ok (.mstat (X 0 (.m 8) (.a 2) (.prv) (.prv) 0 0)),
    .ok (.mspill (X 0 (.a 1) (.m 9) (.m 11) (.prv) 0 0)),
    .ok (.mfill (X 0 (.a 1) (.m 9) (.m 11) (.prv) 0 0)),
    .ok (.bred (X 0 (.prv) (.m 9) (.prv) (.prv) 0 0)),
    .ok (.bmax (X 0 (.prv) (.m 9) (.prv) (.prv) 0 0)),
    .ok (.bstream (X 0 (.prv) (.m 9) (.prv) (.prv) 0 0)),
    .ok (.barr (X 0 (.prv) (.prv) (.prv) (.prv) 0 0))] := rfl

theorem test_decode_1D0_to_1DF : [
    W 0x1D0 0 0x00 0x00 0x00 0x00 0 0,
    W 0x1D1 0 0x88 0x00 0x00 0x00 0 0,
    W 0x1D2 0 0x82 0x89 0x00 0x00 0 0,
    W 0x1D3 0 0x00 0x89 0x00 0x00 0 0,
    W 0x1D4 0 0x00 0x89 0x00 0x00 0 0,
    W 0x1D5 0 0x00 0x00 0x00 0x00 0 0,
    W 0x1D6 2 0xD9 0x89 0x00 0x00 5 0,
    W 0x1D7 0 0xD9 0xDA 0x00 0x00 5 0,
    W 0x1D8 0 0xD9 0xDA 0xDC 0x00 0 0,
    W 0x1D9 0 0xD9 0xDA 0xDC 0x00 0 0,
    W 0x1DA 0 0xD9 0xDA 0xDC 0xDE 0 0,
    W 0x1DB 0 0xD9 0xDA 0x00 0x00 0 0,
    W 0x1DC 0 0x88 0xDA 0x8B 0x00 0 0,
    W 0x1DD 2 0xD9 0x89 0x00 0x00 5 0,
    W 0x1DE 0 0x00 0x89 0xDC 0x00 0 0,
    W 0x1DF 0 0x88 0xDA 0x00 0x00 0 0].map decode = [
    .ok (.bwait (X 0 (.prv) (.prv) (.prv) (.prv) 0 0)),
    .ok (.bstat (X 0 (.m 8) (.prv) (.prv) (.prv) 0 0)),
    .ok (.bchk (X 0 (.m 2) (.m 9) (.prv) (.prv) 0 0)),
    .ok (.bkey (X 0 (.prv) (.m 9) (.prv) (.prv) 0 0)),
    .ok (.benrol (X 0 (.prv) (.m 9) (.prv) (.prv) 0 0)),
    .ok (.bleave (X 0 (.prv) (.prv) (.prv) (.prv) 0 0)),
    .ok (.zgen (X 2 (.z 1) (.m 9) (.prv) (.prv) 5 0)),
    .ok (.zregen (X 0 (.z 1) (.z 2) (.prv) (.prv) 5 0)),
    .ok (.zand (X 0 (.z 1) (.z 2) (.z 4) (.prv) 0 0)),
    .ok (.zxnor (X 0 (.z 1) (.z 2) (.z 4) (.prv) 0 0)),
    .ok (.zmux (X 0 (.z 1) (.z 2) (.z 4) (.z 6) 0 0)),
    .ok (.znot (X 0 (.z 1) (.z 2) (.prv) (.prv) 0 0)),
    .ok (.zcnt (X 0 (.m 8) (.z 2) (.m 11) (.prv) 0 0)),
    .ok (.zld (X 2 (.z 1) (.m 9) (.prv) (.prv) 5 0)),
    .ok (.zst (X 0 (.prv) (.m 9) (.z 4) (.prv) 0 0)),
    .ok (.zclass (X 0 (.m 8) (.z 2) (.prv) (.prv) 0 0))] := rfl

theorem test_decode_1E0_to_1EF : [
    W 0x1E0 0 0x88 0x00 0x00 0x00 5 0,
    W 0x1E1 0 0x00 0x89 0x00 0x00 5 0,
    W 0x1E2 0 0x00 0x00 0x00 0x00 0 0,
    W 0x1E3 0 0x00 0x00 0x00 0x00 0 0,
    W 0x1E4 0 0x00 0x00 0x00 0x00 0 0,
    W 0x1E5 0 0x00 0x89 0x00 0x00 0 0,
    W 0x1E6 0 0x00 0x89 0x00 0x00 0 0,
    W 0x1E7 0 0x00 0x84 0x00 0x00 5 0,
    W 0x1E8 0 0x82 0x00 0x00 0x00 5 0,
    W 0x1E9 0 0x00 0x00 0x00 0x00 0 0,
    W 0x1EA 0 0x00 0x00 0x00 0x00 0 0,
    W 0x1EB 0 0x88 0x89 0x00 0x00 0 0,
    W 0x1EC 0 0x88 0x89 0x00 0x00 0 0,
    W 0x1ED 0 0x00 0x00 0x00 0x00 0 0,
    W 0x1EE 0 0x88 0x89 0x00 0x00 0 0,
    W 0x1EF 0 0x00 0x89 0x00 0x00 5 0].map decode = [
    .ok (.rdc (X 0 (.m 8) (.prv) (.prv) (.prv) 5 0)),
    .ok (.wrc (X 0 (.prv) (.m 9) (.prv) (.prv) 5 0)),
    .ok (.trapret (X 0 (.prv) (.prv) (.prv) (.prv) 0 0)),
    .ok (.ctxsave (X 0 (.prv) (.prv) (.prv) (.prv) 0 0)),
    .ok (.ctxload (X 0 (.prv) (.prv) (.prv) (.prv) 0 0)),
    .ok (.tlbip (X 0 (.prv) (.m 9) (.prv) (.prv) 0 0)),
    .ok (.tlbic (X 0 (.prv) (.m 9) (.prv) (.prv) 0 0)),
    .ok (.aptset (X 0 (.prv) (.m 4) (.prv) (.prv) 5 0)),
    .ok (.aptrd (X 0 (.m 2) (.prv) (.prv) (.prv) 5 0)),
    .ok (.tickwait (X 0 (.prv) (.prv) (.prv) (.prv) 0 0)),
    .ok (.phaseend (X 0 (.prv) (.prv) (.prv) (.prv) 0 0)),
    .ok (.canl (X 0 (.m 8) (.m 9) (.prv) (.prv) 0 0)),
    .ok (.cang (X 0 (.m 8) (.m 9) (.prv) (.prv) 0 0)),
    .ok (.canp (X 0 (.prv) (.prv) (.prv) (.prv) 0 0)),
    .ok (.canj (X 0 (.m 8) (.m 9) (.prv) (.prv) 0 0)),
    .ok (.cbld (X 0 (.prv) (.m 9) (.prv) (.prv) 5 0))] := rfl

/-! ## Words that the specification writes out (R199 and the worked examples of 08 to 14) -/

theorem test_example_words : [
    decode 0x451000000000004000000000, decode 0x0008080CA000000000000000, decode 0x43000CA00000004000000001,
    decode 0x860828183000000500000222, decode 0xAC0828800000000000000010, decode 0xAF08A8800000000400000010,
    decode 0xE0B008182C00000000000000, decode 0xE13E08384C00000000000001, decode 0xE46E08586000000000000720,
    decode 0xE60008600000000000110000, decode 0xEB0D98200000000100000008, decode 0xEC0DAD8D9000000000000000,
    decode 0xEE08DDA87000000000000000, decode 0x400000000000000000000000] = [
    .ok (.call (X 1 .prv .prv .prv .prv 0x40 0)),
    .ok (.add (X 0 (.m 0) (.m 0) (.s 2) .prv 0 0)),
    .ok (.bneod (X 0 .prv (.s 2) .prv .prv 0x40 1)),
    .ok (.copy { X 0 (.m 2) (.m 1) (.m 3) .prv 5 2 with h := { hdr with ssem := 2, sinc := 1 } }),
    .ok (.vrsum (X 0 (.v 2) (.v 8) .prv .prv 0 0x10)),
    .ok (.vtopk (X 0 (.v 10) (.v 8) .prv .prv 4 0x10)),
    .ok (.mldb (X 3 .prv (.m 1) (.m 2) .zero 0 0)),
    .ok (.mma (X 3 (.a 0) (.m 3) (.m 4) .zero 0 1)),
    .ok (.mdrain { X 6 (.a 0) (.m 5) (.m 6) .prv 0 0 with h := { hdr with ssem := 7, sinc := 1 } }),
    .ok (.bred { X 0 .prv (.m 6) .prv .prv 0 0 with h := { hdr with wsem := 1, wthr := 1 } }),
    .ok (.zgen (X 0 (.z 1) (.m 2) .prv .prv 1 8)),
    .ok (.zand (X 0 (.z 2) (.z 0) (.z 1) .prv 0 0)),
    .ok (.zcnt (X 0 (.m 13) (.z 2) (.m 7) .prv 0 0)),
    .ok (.nop (X 0 .prv .prv .prv .prv 0 0))] := rfl

/-- R353: three rows of one opcode. -/
theorem test_wrc_words : [W 0x1E1 0 0 0x81 0 0 0x07 0, W 0x1E1 0 0 0x81 0 0 0x0C 0, W 0x1E1 0 0 0x81 0 0 0x01 0].map decode = [
    .ok (.wrcCspill (X 0 .prv (.m 1) .prv .prv 0x07 0)), .ok (.wrcCras (X 0 .prv (.m 1) .prv .prv 0x0C 0)),
    .ok (.wrc (X 0 .prv (.m 1) .prv .prv 0x01 0))] := rfl

/-- R435: the custom instructions: custom-0, funct3 0 to 3, and a SIGWAIT relation of 6, which is none. -/
theorem test_command_processor_words : [
    decodeCp 0b0000000_01100_01011_000_01010_0001011, decodeCp 0b0000000_01100_01011_001_01010_0001011,
    decodeCp 0b0000011_00111_00110_010_00101_0001011, decodeCp 0b0000000_00000_00110_011_00101_0001011,
    decodeCp 0b0000000_00001_00110_011_00101_0001011, decodeCp 0b0000110_00111_00110_010_00101_0001011] = [
    some (.rfetch ⟨10, 11, 12⟩), some (.bfex ⟨10, 11, 12⟩), some (.sigwait 3 ⟨5, 6, 7⟩), some (.disp ⟨5, 6, 0⟩), none, none] := rfl

/-- R204, R208: what decoding refuses: an unassigned opcode, a format that is not listed, the lowest bit of a field out of range,
an unused field, an idle wait and an idle signal. -/
theorem test_refused_words : [
    decode (W 0x1FF 0 0 0 0 0 0 0), decode (W 0x1D8 1 0xDA 0xD8 0xD9 0 0 0), decode (W 0x000 0 0x48 0x80 0x81 0 0 0),
    decode (W 0x000 0 0x80 0x81 0x82 0x40 0 0), decode (W 0x000 0 0x80 0x81 0x82 0 0 0 ||| 0x00100000),
    decode (W 0x000 0 0x80 0x81 0x82 0 0 0 ||| 0x00000400)] = [
    .error .illegalOpc, .error .badFmt, .error (.reserved 76), .error (.reserved 58), .error (.reserved 20),
    .error (.reserved 10)] := rfl

/-! ## Well-formedness: terms the check accepts, and an ill-formed one for each check -/

theorem test_wf_accepts : [Instr.add (X 0 (.m 0) (.m 23) .imm .prv 0xFFFFF 0), .wrc (X 0 .prv (.m 1) .prv .prv 1 0),
    .vadd (X 0 (.v 8) (.v 4) (.v 12) .prv 0 2), .cvt 14 (X 0 (.m 1) (.m 2) .prv .prv 0 0), .bfex ⟨1, 2, 3⟩, .semGrant 1023].map
      Instr.wf = [true, true, true, true, true, true] := rfl

/-- An operand that does not exist. -/
theorem test_wf_operand : [Instr.add (X 0 (.m 24) (.m 0) (.m 1) .prv 0 0), .add (X 0 (.m 0) (.o 8) (.m 1) .prv 0 0)].map
    Instr.wf = [false, false] := rfl

/-- An operand of another class; a group that is not aligned. -/
theorem test_wf_class : [Instr.add (X 0 (.v 1) (.m 0) (.m 1) .prv 0 0), .add (X 0 .imm (.m 0) (.m 1) .prv 0 0),
    .vadd (X 0 (.v 9) (.v 4) (.v 12) .prv 0 2), .ldp (X 0 (.m 3) (.m 1) (.m 4) .prv 0 0)].map Instr.wf =
    [false, false, false, false] := rfl

/-- A format that is not listed; an immediate or a modifier with no use; the immediate beside no `imm`. -/
theorem test_wf_fields : [Instr.zand (X 1 (.z 2) (.z 0) (.z 1) .prv 0 0), .add (X 0 (.m 0) (.m 1) (.m 2) .prv 0 1),
    .add (X 0 (.m 0) (.m 1) (.m 2) .prv 5 0), .add (X 0 (.m 0) (.m 1) (.m 2) (.m 3) 0 0)].map Instr.wf =
    [false, false, false, false] := rfl

/-- A wait semaphore without a threshold; a signal semaphore without an increment. -/
theorem test_wf_header : [Instr.add { X 0 (.m 0) (.m 1) (.m 2) .prv 0 0 with h := { hdr with wsem := 1 } },
    .add { X 0 (.m 0) (.m 1) (.m 2) .prv 0 0 with h := { hdr with ssem := 1 } }].map Instr.wf = [false, false] := rfl

/-- Groups that overlap in part (R203). -/
theorem test_wf_overlap : [Instr.vadd (X 0 (.v 0) (.v 0) (.v 4) .prv 0 2), .vcmpeq (X 0 (.v 1) (.v 0) (.v 4) .prv 0 2)].map
    Instr.wf = [true, false] := rfl

/-- A constructor of another row of its opcode; a source format that no opcode names; an event outside the part. -/
theorem test_wf_rows : [Instr.wrc (X 0 .prv (.m 1) .prv .prv 7 0), .cvt 15 (X 0 (.m 1) (.m 2) .prv .prv 0 0),
    .semGrant 1024, .packetNop 1040, .sigwait 6 ⟨1, 2, 3⟩, .disp ⟨1, 2, 3⟩].map Instr.wf =
    [false, false, false, false, false, false] := rfl

/-! ## States and operands that meet the hypotheses of the statements -/

/-- A core's registers with a mode, and what else is asked of them. -/
def regsOf (priv : Bool) : Regs := { Regs.init with priv := priv }

/-- The part after reset, with one core of tile 0 acting with given registers. -/
def actR (k : CoreK) (r : Regs) : State :=
  ({ State.reset with curCore := k } : State).setCore 0 k { Core.init with run := .running, regs := r }

/-- The same, with reset registers in a mode. -/
def on (k : CoreK) (priv : Bool) : State := actR k (regsOf priv)

/-- Operands that are all `zero`. -/
def Z : Ops := X 0 .zero .zero .zero .zero 0 0

/-- An instruction issues, its effect leads from s0 to s1, and what follows leads to t. -/
def Runs (e : Entry) (x : Ops) (s : State) (effect : State → State → Prop) : Prop :=
  ∃ s0 s1 t, Issues e x s s0 ∧ effect s0 s1 ∧ Ends e x s0 s1 t

/-- What follows an effect, and the commit that it asks for, if any, which nothing holds back. -/
theorem ends {e : Entry} {x : Ops} {s s1 t : State} (h : finish e x true s1 = .ok ((), t))
    (c : (e.own || !s.commitsNow t || !s.heldBack t) = true) : Ends e x s s1 t :=
  ⟨h, fun ho hn => by simpa [ho, hn] using c⟩

/-- An instruction issues, and its effect's hypotheses hold. -/
def Meets (e : Entry) (x : Ops) (s : State) (hyps : State → Prop) : Prop := ∃ s0, Issues e x s s0 ∧ hyps s0

theorem exists_ok {ε α : Type} {r : Except ε (α × State)} (h : r.toBool = true) : ∃ v s, r = .ok (v, s) := by
  cases r with
  | error e => cases h
  | ok p => exact ⟨p.1, p.2, rfl⟩

theorem exists_ok_unit {ε : Type} {r : Except ε (Unit × State)} (h : r.toBool = true) : ∃ s, r = .ok ((), s) := by
  cases r with
  | error e => cases h
  | ok p => exact ⟨p.2, rfl⟩

/-- Scalar results: three sources read, a destination written. -/
theorem witness_ScalarArithmeticAndLogicResults : ∃ s1 s2, Runs (.alu 2) Z (on .c false) (fun s0 u =>
    arithRow (.add Z) = some (Z, 2, fun a b _ => narrow Z (viewFmt Z.fmt a + viewFmt Z.fmt b)) ∧
    sources 2 Z s0 = .ok ((0, 0, 0), s1) ∧ writeOpd Z.d 0 s1 = .ok ((), s2) ∧ u = s2.withFlags 0) :=
  ⟨_, _, _, _, _, ⟨rfl, rfl, rfl, by decide, by decide, by decide⟩, ⟨rfl, rfl, rfl, rfl⟩, ends rfl rfl⟩

theorem witness_LogicAndShiftResults : ∃ s1 s2, Runs (.alu 1) Z (on .v false) (fun s0 u =>
    logicRow (.mov Z) = some (Z, 1, fun a _ _ => (a, 0)) ∧ sources 1 Z s0 = .ok ((0, 0, 0), s1) ∧
    writeOpd Z.d 0 s1 = .ok ((), s2) ∧ u = s2.withFlags 0) :=
  ⟨_, _, _, _, _, ⟨rfl, rfl, rfl, by decide, by decide, by decide⟩, ⟨rfl, rfl, rfl, rfl⟩, ends rfl rfl⟩

theorem witness_CompareAndSaturateResults : ∃ s1 s2, Runs (.alu 3) Z (on .c false) (fun s0 u =>
    compareRow (.sel Z) = some (Z, 3, fun a b c => (if c = 0 then b else a, 0)) ∧ sources 3 Z s0 = .ok ((0, 0, 0), s1) ∧
    writeOpd Z.d 0 s1 = .ok ((), s2) ∧ u = s2.withFlags 0) :=
  ⟨_, _, _, _, _, ⟨rfl, rfl, rfl, by decide, by decide, by decide⟩, ⟨rfl, rfl, rfl, rfl⟩, ends rfl rfl⟩

/-- A division by an immediate of 0. -/
theorem witness_ImmediateAndFieldResults : ∃ s1 s2, Runs (.alu 1) Z (on .c false) (fun s0 u =>
    immediateRow (.divi Z) = some (Z, 1, fun a _ _ => if kFmt Z = 0 then (narrowFmt Z.fmt (-1), fDZ)
      else narrow Z ((viewFmt Z.fmt a).tdiv (kFmt Z))) ∧ kFmt Z = 0 ∧
    sources 1 Z s0 = .ok ((0, 0, 0), s1) ∧ writeOpd Z.d (narrowFmt Z.fmt (-1)) s1 = .ok ((), s2) ∧ u = s2.withFlags fDZ) :=
  ⟨_, _, _, _, _, ⟨rfl, rfl, rfl, by decide, by decide, by decide⟩, ⟨rfl, by decide, rfl, rfl, rfl⟩, ends rfl rfl⟩

theorem witness_ConstantAndBitFieldResults : ∃ s1 s2, Runs (.alu 0) Z (on .c false) (fun s0 u =>
    fieldRow (.lil Z) = some (Z, 0, fun _ _ _ => (wordI (signedOf 32 (constOf Z)), 0)) ∧
    sources 0 Z s0 = .ok ((0, 0, 0), s1) ∧ writeOpd Z.d (wordI (signedOf 32 (constOf Z))) s1 = .ok ((), s2) ∧
    u = s2.withFlags 0) :=
  ⟨_, _, _, _, _, ⟨rfl, rfl, rfl, by decide, by decide, by decide⟩, ⟨rfl, rfl, rfl, rfl⟩, ends rfl rfl⟩
/-! ### The machine -/

/-- A turn of core C of tile 0, of command processor 0, and of an event. -/
def turnOf (w : Who) : State := { on .c false with agenda := [⟨0, w⟩] }

theorem witness_StepRunsTheDecodedInstruction_core : ∃ s1 s2, (turnOf (.core 0 .c)).nextTurn = (0, some (.core 0 .c), s1) ∧
    (s1.elapse 0).up = true ∧ (s1.elapse 0).beforeFetch 0 .c = .inr s2 ∧ (actAs s2 0 .c).fetchTrap = none ∧
    decode (slotWord (ofBytes ((actAs s2 0 .c).me.line (actAs s2 0 .c).me.regs.ip)) (actAs s2 0 .c).me.regs.ip) =
      .ok (.add (X 0 .prv .prv .prv .prv 0 0)) :=
  ⟨_, _, rfl, rfl, rfl, rfl, rfl⟩

theorem witness_StepRunsTheDecodedInstruction_cp : ∃ s1, ({ turnOf (.cp 7) with mem := [] } : State).nextTurn = (0, some (.cp 7), s1) ∧
    (s1.elapse 0).up = true ∧ ((s1.elapse 0).cp 7).interrupt = none ∧ ((s1.elapse 0).cp 7).pc.toNat % 2 = 0 ∧ ((s1.elapse 0).cp 7).pc.toNat + 4 ≤ cpScratch :=
  ⟨_, rfl, rfl, rfl, rfl, by decide⟩

theorem witness_StepRunsTheDecodedInstruction_event : ∃ s1, (turnOf (.event (.semGrant 0))).nextTurn =
    (0, some (.event (.semGrant 0)), s1) ∧ (s1.elapse 0).admits (.semGrant 0) = true := ⟨_, rfl, rfl⟩

/-- A custom instruction that stands at a command processor's pc. -/
theorem witness_StepRunsTheDecodedInstruction_custom :
    decodeCp (BitVec.ofNat 32 (({ State.reset with mem := [(cpKey 0 0, 0x0B)] } : State).readNat 0 (cpKey 0 0) 4)) =
      some (.rfetch ⟨0, 0, 0⟩) := rfl

set_option exponentiation.threshold 500 in
/-- A row's instruction as the first step after reset. -/
theorem test_first_instruction : (∃ t, step (State.reset.withFetchWord 96 0x400000000000000000000000) = .next t ∧
    t.me.regs.ip = 1) := ⟨_, rfl, rfl⟩

/-- An instruction pointer past LM. -/
theorem witness_FetchFaults_pastLm : ∃ s1 s2, ({ actR .c { regsOf false with ip := 0x80000 } with agenda := [⟨0, .core 0 .c⟩] } :
    State).nextTurn = (0, some (.core 0 .c), s1) ∧ (s1.elapse 0).up = true ∧ (s1.elapse 0).beforeFetch 0 .c = .inr s2 ∧
    (actAs s2 0 .c).fetch = .inl (mkTrap Code.badTarget 0x80000 0 15 0 3) := ⟨_, _, rfl, rfl, rfl, rfl⟩

/-- The register save tail, which begins at page 122. -/
theorem witness_FetchFaults_tail : let s := actR .c { regsOf false with ip := word (122 * 4096) }
    s.me.regs.ip.toNat < 2 ^ 19 ∧ s.me.regs.priv = false ∧ (s.tile s.curTile).inTail (lineBase s.me.regs.ip) = true :=
  ⟨by decide, rfl, by decide⟩

/-- A slab of the engines. -/
theorem witness_FetchFaults_slab : let s := (on .c true).updTile 0 (fun x => { x with owner := [(0, true)] })
    s.me.regs.ip.toNat < 2 ^ 19 ∧ s.me.regs.priv = true ∧ (s.tile s.curTile).slabEngine 0 (lineBase s.me.regs.ip / 4096) = true :=
  ⟨by decide, rfl, rfl⟩

/-- A line whose parity fails. -/
theorem witness_FetchFaults_parity : let s := (on .c false).setMe { (on .c false).me with iview := [(0, 1)] }
    s.me.regs.ip.toNat < 2 ^ 19 ∧ (s.tile s.curTile).tailMeets (lineBase s.me.regs.ip) 64 = false ∧
    (s.tile s.curTile).slabEngine 0 (lineBase s.me.regs.ip / 4096) = false ∧ s.badLine (lineBase s.me.regs.ip) = none ∧
    (parityFails (ofBytes (s.me.line s.me.regs.ip))).isSome = true :=
  ⟨by decide, by decide, by decide, by decide, by decide⟩

/-- A word that does not decode, in slot 0 with the bits of OPC 0x1FF. -/
theorem witness_DecodeFaults : findRow (Raw.ofWord (W 0x1FF 0 0 0 0 0 0 0)).opc = none ∧
    (∃ r, findRow (Raw.ofWord (W 0x1D8 1 0 0 0 0 0 0)).opc = some r ∧ r.fmts.contains 1 = false) ∧
    (∃ r, findRow (Raw.ofWord (W 0x1D8 0 0 0 0 0 0 0)).opc = some r ∧ coreMatches r.cores .s = true ∧ r.priv = false) ∧
    opcTransfer 0x082 = true ∧ opcTransfer 0x08C = true ∧ opcPf 0x1D8 = false ∧ opcGroup 0x1D8 0 = false :=
  ⟨rfl, ⟨_, rfl, rfl⟩, ⟨_, rfl, rfl, rfl⟩, rfl, rfl, rfl, rfl⟩

/-- Core C with a delay slot under way. -/
def inSlot : State := actR .c { regsOf false with slot := some { target := 0x40, act := .plain, notice := none } }

theorem witness_DecodeFaults_slot : inSlot.me.regs.slot.isSome = true ∧ (on .c false).me.regs.slot = none ∧
    (∃ e, inSlot.fetchTrap = none ∧ e = DecodeErr.illegalOpc) := ⟨rfl, rfl, _, rfl, rfl⟩

theorem witness_ChecksOnTheCore : inSlot.gate .jump = some (inSlot.ipTrap Code.delayBranch 0) ∧
    entryOf (.br Z) = some (.jump, Z) ∧ (on .c false).inGroup 0 = false ∧ coreMatches .v CoreK.c = false ∧
    coreMatches .c CoreK.c = true ∧ (on .c false).me.regs.priv = false ∧ (on .c true).me.regs.priv = true ∧
    ((on .c true).jobOn 0).any (·.pf) = false := ⟨rfl, rfl, rfl, rfl, rfl, rfl, rfl, rfl⟩

/-- A waiting instruction, before and after its grant, and behind another instruction of its chunk. -/
def Zw : Ops := { Z with h := { hdr with wsem := 255, wthr := 15 } }

theorem witness_WaitingInstructions : let s := on .c false
    let g := s.setMe { s.me with granted := true }
    entryOf (.add Zw) = some (.alu 2, Zw) ∧ s.gate (.alu 2) = none ∧ Zw.h.wthr ≠ 0 ∧ s.me.regs.mid = none ∧ s.me.atoms = [] ∧
    s.me.chunk = none ∧ s.me.granted = false ∧ g.me.granted = true ∧ (Entry.alu 2).own = false ∧ Z.h.wthr = 0 ∧
    (∀ h : Chunk, (s.setMe { s.me with chunk := some { h with len := 1, closed := false } }).gate (.alu 2) = none) :=
  ⟨rfl, rfl, by decide, rfl, rfl, rfl, rfl, rfl, rfl, rfl, fun _ => rfl⟩

/-- A predicate that is false: p0 negated. -/
def Zn : Ops := { Z with h := { hdr with prd := 8 } }

theorem witness_FalsePredicate : ∃ s0 s1, entryOf (.add Zn) = some (.alu 2, Zn) ∧ (on .c false).gate (.alu 2) = none ∧
    (on .c false).prepare (.alu 2) Zn = .inr s0 ∧ s0.me.regs.holds Zn.h = false ∧ s0.me.regs.slot = none ∧
    entryOf (.br Zn) = some (.jump, Zn) ∧ (on .c false).gate .jump = none ∧
    (on .c false).prepare .jump Zn = .inr s1 ∧ s1.me.regs.holds Zn.h = false ∧ s1.me.regs.slot = none :=
  ⟨_, _, rfl, rfl, rfl, rfl, rfl, rfl, rfl, rfl, rfl, rfl⟩

/-- An empty chunk of a core, from its registers. -/
def chunkOf (s : State) : Chunk := s.newChunk 0 s.me.regs none 0

/-- Core C with a chunk of a given length. -/
def withChunk (s : State) (n : Nat) : State := s.setMe { s.me with chunk := some { chunkOf s with len := n } }

theorem witness_WhatFollows : Entry.base.transfer = false ∧ Entry.jump.transfer = true ∧ (on .c false).me.regs.slot = none ∧
    inSlot.me.regs.slot = some { target := 0x40, act := .plain, notice := none } ∧ (withChunk inSlot 511).me.chunk.isSome = true :=
  ⟨rfl, rfl, rfl, rfl, rfl⟩

/-- The last line of LM. -/
theorem witness_SequentialPointers : ipOk 0x7FFC4 = true ∧ ipOk 0x7FFC3 = true ∧ ipNext 0x7FFC3 = 0x7FFC4 ∧ ipOk 0x80000 = false ∧
    ipOk 5 = false := by decide

theorem witness_PreciseTraps : (withChunk inSlot 1).me.chunk.any (fun h => h.len == 1) = true ∧
    (withChunk inSlot 0).me.chunk.all (fun h => h.len == 0) = true ∧ (on .c false).me.chunk.all (fun h => h.len == 0) = true ∧
    (inSlot.ipTrap Code.protection 7).code.toNat < 0xF0 ∧ (on .c false).me.regs.slot = none ∧ inSlot.me.regs.slot.isSome = true :=
  ⟨rfl, rfl, rfl, by decide, rfl, rfl⟩

/-- A core in user mode with a handler. -/
def handled : State := actR .x { regsOf false with hen := true, hvec := 8191 }

theorem witness_TrapEntry : handled.Form ∧ (handled.core 0 .x).regs.priv = false ∧ (handled.core 0 .x).regs.hen = true ∧
    (handled.core 0 .x).join = none := ⟨rfl, rfl, rfl, rfl⟩

/-- A launch and the watch it runs on tile 0. -/
def launch1 : Launch :=
  { id := 1, jid := 2, d := [], state := 1, cause := 0, ended := 0, cancelledN := 0, queuedAt := 0, placedAt := 0, tiles := [0],
    aged := false, cancelled := false, saved := [], run := none, grp := none, slice := [], grp0 := none }

def watch1 : Watch := { launch := 1, jid := 2, vtn := 0, grid := 0, gang := 0, gpos := 0, gsize := 1, st := .running, placed := 0, now := false }

/-- The state with that launch, its watch on tile 0. -/
def launched (s : State) (l : Launch) : State := { s with launches := [l] }.updTile 0 (fun x => { x with watch := some watch1 })

theorem witness_UnhandledTraps : (launched (on .c true) launch1).Form ∧ ((on .c true).core 0 .c).regs.priv = true ∧
    ((on .c false).core 0 .c).regs.hen = false ∧ isNotice Code.windowSpill = true ∧ isNotice Code.badTarget = false ∧
    (launched (on .c true) launch1).launchOn 0 = some 1 ∧ (launched (on .c true) launch1).launch? 1 = some launch1 ∧
    launch1.state ≤ 1 ∧ launch1.cancelled = false ∧ ((launched (on .c true) launch1).core 0 .c).regs.priv = true :=
  ⟨rfl, rfl, rfl, rfl, rfl, rfl, rfl, by decide, rfl, rfl⟩

theorem witness_TrapReturn : ∃ bs s2, readPlace { kind := 0, write := false, addr := 0, space := 2 }
    (.mem (((on .c true).setMe { (on .c true).me with regs := { (on .c true).me.regs with ip := 0x40, slot := none } }).areaKey 0 .c +
      0x30) 0 false) 112 ((on .c true).setMe { (on .c true).me with regs := { (on .c true).me.regs with ip := 0x40, slot := none } }) =
    .ok (bs, s2) ∧ s2.me.regs.bd = false := ⟨_, _, rfl, rfl⟩

theorem witness_EveryStepKeepsTheMemoryForm : State.reset.Form ∧ ∃ t, step State.reset = .next t := ⟨rfl, _, rfl⟩

/-! ### Operands, transfers, streams -/

theorem witness_OperandsAreReadAndWritten : Opd.exists_ (.m 23) = true ∧ Opd.isScalar (.m 23) = true ∧ (∀ n, Opd.m 23 ≠ .s n) ∧
    Opd.exists_ .prv = true ∧ Opd.isScalar .zero = true ∧ Opd.exists_ (.p 0) = true ∧ Opd.isScalar (.p 7) = true :=
  ⟨rfl, rfl, fun _ h => (nomatch h), rfl, rfl, rfl, rfl⟩

/-- The first byte of the tile's own LM. -/
def lm0 : Word := 0xF100000000000000

/-- Stream registers: read and write streams of 64-bit elements at the start of LM, an empty one, and unbound ones. -/
def stream1 (write empty : Bool) : Stream :=
  { bound := true, write := write, ty := 0, empty := empty, base := lm0, ndim := 0, dims := [⟨2, 8, 1⟩, ⟨0, 0, 0⟩, ⟨0, 0, 0⟩, ⟨0, 0, 0⟩] }

def streams (write empty : Bool) : State := withChunk (actR .c { regsOf false with streams := [(7, stream1 write empty)] }) 0

theorem witness_StreamReads : ((streams false false).me.regs.stream 7).bound = true ∧
    ((streams false false).me.regs.stream 7).write = false ∧ ((streams false false).me.regs.stream 7).empty = false ∧
    ∃ bs s1, loadAt 0 (widthOf ((streams false false).me.regs.stream 7).ty / 8) false
      (addrAdd ((streams false false).me.regs.stream 7).base
        ((((streams false false).me.regs.stream 7).dims.take (((streams false false).me.regs.stream 7).ndim.toNat + 1)).foldl
          (fun a d => a + (d.i.toNat : Int) * d.d.toInt) 0))
      (widthOf ((streams false false).me.regs.stream 7).ty / 8) (streams false false) = .ok (bs, s1) :=
  ⟨rfl, rfl, rfl, exists_ok (by decide +kernel)⟩

theorem witness_StreamWrites : ∃ s1, ((streams true false).me.regs.stream 7).bound = true ∧
    ((streams true false).me.regs.stream 7).write = true ∧ ((streams true false).me.regs.stream 7).empty = false ∧
    storeAt 1 (widthOf ((streams true false).me.regs.stream 7).ty / 8) false ((streams true false).me.regs.stream 7).ea
      (toBytes (widthOf ((streams true false).me.regs.stream 7).ty / 8) (1 : Word).toNat) (streams true false) = .ok ((), s1) :=
  ⟨_, rfl, rfl, rfl, rfl⟩

theorem witness_StreamsEmptyUnboundOther : ((streams false true).me.regs.stream 7).empty = true ∧
    ((streams true true).me.regs.stream 7).empty = true ∧ ((streams true true).me.regs.stream 7).write = true ∧
    ((streams true true).me.regs.stream 7).bound = true ∧ ((streams true true).me.regs.stream 0).bound = false := by decide

theorem witness_StreamsWalk : (stream1 false false).dims.length = 4 ∧ (stream1 false false).empty = false ∧
    (∀ d ∈ (stream1 false false).dims.take ((stream1 false false).ndim.toNat + 1), 0 < d.n.toNat ∧ d.i.toNat < d.n.toNat) ∧
    (∀ d ∈ (stream1 false false).dims.drop ((stream1 false false).ndim.toNat + 1), d.n = 0 ∧ d.i = 0) := by decide

/-- R247, R248: the last of two elements: the index starts again and the dimension is complete. -/
theorem test_stream_wraps : (stream1 false false).advance.2 = 1 ∧
    (stream1 false false).advance.1.dims.map (·.i) = [0, 0, 0, 0] := by decide

/-- Core C with one TGT bit of its first line set: the target 0 may be reached. -/
def withTgt : State := (on .c false).setMe { (on .c false).me with iview := [(60, 0xFF), (61, 0xFF), (62, 0xFF), (63, 0xFF)] }

theorem witness_Branches_taken : ∃ s1, Runs .jump Z withTgt (fun s0 u =>
    branchRow (.br Z) = some (Z, pure (true, direct Z)) ∧ (pure (true, direct Z) : Exec (Bool × Word)) s0 = .ok ((true, direct Z), s1) ∧
    ipOk (direct Z) = true ∧ s1.me.tgtBit (direct Z) = true ∧ u = goTo s1 (direct Z) .plain none) :=
  ⟨_, _, _, _, ⟨rfl, rfl, rfl, by decide, by decide, by decide⟩, ⟨rfl, rfl, rfl, rfl, rfl⟩, ends rfl rfl⟩

theorem witness_Branches_notTaken : ∃ s1, Runs .jump Z (on .c false) (fun s0 u => u = s1 ∧
    (branchRow (.bnz Z)).isSome = true ∧ ((do let a ← readA Z; pure (a != 0, direct Z)) : Exec (Bool × Word)) s0 =
      .ok ((false, direct Z), s1)) :=
  ⟨_, _, _, _, ⟨rfl, rfl, rfl, by decide, by decide, by decide⟩, ⟨rfl, rfl, rfl⟩, ends rfl rfl⟩

/-- A malformed target, and a slot that TGT does not allow. -/
theorem witness_Branches_bad : ∃ s1, Meets .jump { Z with imm := 5 } (on .c false) (fun s0 =>
    (pure (true, direct { Z with imm := 5 }) : Exec (Bool × Word)) s0 = .ok ((true, 5), s1) ∧ ipOk 5 = false) ∧
    Meets .jump Z (on .c false) (fun s0 => ipOk 0 = true ∧ s0.me.tgtBit 0 = false) :=
  ⟨_, ⟨_, ⟨rfl, rfl, rfl, by decide, by decide, by decide⟩, rfl, rfl⟩, _, ⟨rfl, rfl, rfl, by decide, by decide, by decide⟩, rfl, rfl⟩

/-- A call with room in the window and in the return store. -/
theorem witness_Calls : ∃ s2 s3, Runs .jump Z withTgt (fun s0 u => callRow (.call Z) = some (Z, pure (direct Z)) ∧
    (pure (direct Z) : Exec Word) s0 = .ok (0, s0) ∧ Reaches 0 s0 ∧
    ¬ (s0.me.regs.ras.length = 16 ∧ Nat.min s0.me.regs.sbase.toNat s0.me.privEnd < 8 * (s0.me.regs.rcnt + 1)) ∧
    PushesEntry (word (Z.fmt.toNat % 4 * 2 ^ 62 + (ipNext (ipNext s0.me.regs.ip)).toNat % 2 ^ 19)) s0 s2 ∧ SpillsOldest 0 s2 s3 ∧
    s0.me.regs.live + 4 + 24 - 192 = 0 ∧ u = goTo s3 0 (.slideUp 4) (noticeOf s3 0 (s0.me.regs.ras.length == 16) false)) :=
  ⟨_, _, _, _, _, ⟨rfl, rfl, rfl, by decide, by decide, by decide⟩, ⟨rfl, rfl, ⟨rfl, rfl⟩, fun h => (by cases h.1), .inl ⟨by decide, rfl⟩, .inl ⟨rfl, rfl⟩, rfl, rfl⟩, ends rfl rfl⟩

/-- A full window whose callers spill into LM, a full return store with no room, and no room for the spill. -/
def fullWindow (cpriv : Word) (rcnt : Nat) : State :=
  let s := withTgt
  withChunk (s.setMe { s.me with cpriv := cpriv, regs := { s.me.regs with
    live := 168, sptr := 0x400, rcnt := rcnt, ras := if rcnt = 0 then [] else List.replicate 16 0 } }) 0

theorem witness_Calls_spill : let s := fullWindow 2 0
    ∃ s1 s2, s.me.regs.live + 4 + 24 - 192 = 4 ∧ s.me.privEnd = 0x2000 ∧ s.me.regs.park = false ∧
    storeRange 5 (privAddr s.me.regs.sptr.toNat) (bytesOfWords ((List.range 4).map (fun i =>
      smGet 0 s.me.regs.phys ((s.me.regs.base + 192 - s.me.regs.live + i) % 192)))) s = .ok ((), s1) ∧ SpillsOldest 4 s s2 :=
  ⟨_, _, rfl, rfl, rfl, rfl, .inr (.inl ⟨by decide, rfl, _, rfl, rfl⟩)⟩

theorem witness_Calls_exhausted : ((fullWindow 0 1).me.regs.ras.length = 16 ∧
    Nat.min (fullWindow 0 1).me.regs.sbase.toNat (fullWindow 0 1).me.privEnd < 8 * ((fullWindow 0 1).me.regs.rcnt + 1)) ∧
    (fullWindow 0 0).me.privEnd < (fullWindow 0 0).me.regs.sptr.toNat + 8 * 4 := by decide

/-- A return with an entry in the store; one with a malformed entry; the outermost. -/
def withEntry (ent : Word) : State := actR .c { regsOf false with ras := [ent], live := 4 }

theorem witness_Returns : ∃ s2 s3, Runs .jump Z (withEntry 0x40) (fun s0 u => PopsEntry 0x40 false s0 s2 ∧
    ipOk (word ((0x40 : Word).toNat % 2 ^ 19)) = true ∧
    fillWindow (4 * (Word.bits (0x40 : Word) 62 2 + 1) - s2.me.regs.live) s2 = .ok ((), s3) ∧
    u = goTo s3 (word ((0x40 : Word).toNat % 2 ^ 19)) (.slideDown 4) (noticeOf s3 0 false true)) :=
  ⟨_, _, _, _, _, ⟨rfl, rfl, rfl, by decide, by decide, by decide⟩, ⟨.inl ⟨rfl, rfl, rfl⟩, rfl, rfl, rfl⟩, ends rfl rfl⟩

theorem witness_Returns_badAndOutermost : (∃ s2, PopsEntry 5 false (withEntry 5) s2) ∧ ipOk (word ((5 : Word).toNat % 2 ^ 19)) = false ∧
    Meets .jump Z (on .c false) (fun s0 => s0.me.regs.ras = [] ∧ s0.me.regs.rcnt = 0) :=
  ⟨⟨_, .inl ⟨rfl, rfl, rfl⟩⟩, rfl, _, ⟨rfl, rfl, rfl, by decide, by decide, by decide⟩, rfl, rfl⟩

/-- A register of a caller filled from the spill area. -/
theorem witness_Returns_fill : let s := withChunk ((on .c false).setMe { (on .c false).me with cpriv := 1 }) 0
    ∃ bs s1, s.me.regs.park = false ∧ loadRange 5 (privAddr (s.me.regs.sptr.toNat - 8)) 8 s = .ok (bs, s1) :=
  ⟨_, _, rfl, rfl⟩

theorem witness_TaskControl : Meets .base Z (on .c false) (fun _ => True) ∧
    Meets .ends Z (on .c false) (fun s0 => s0.me.yields = false ∧ s0.mergesDue 0 .c = false ∧ s0.me.regs.arithTrap = false) ∧
    Meets .ends Z ((on .c false).setMe { (on .c false).me with prq := true }) (fun s0 => s0.me.yields = true) ∧
    Meets .ends Z (actR .c { regsOf false with cflag := 0x0101 }) (fun s0 => s0.mergesDue 0 .c = false ∧ s0.me.regs.arithTrap = true) :=
  ⟨⟨_, ⟨rfl, rfl, rfl, by decide, by decide, by decide⟩, trivial⟩, ⟨_, ⟨rfl, rfl, rfl, by decide, by decide, by decide⟩, rfl, rfl, rfl⟩,
    ⟨_, ⟨rfl, rfl, rfl, by decide, by decide, by decide⟩, rfl⟩, _, ⟨rfl, rfl, rfl, by decide, by decide, by decide⟩, rfl, rfl⟩

/-- An operand that holds an address of LM. -/
def atLm : Regs := { regsOf false with o := [(0, lm0)] }

def Za : Ops := X 0 (.s 0) (.o 0) (.o 0) .zero 0 0

theorem witness_StreamInstructions_bind : ∃ s1, Meets .base Za (actR .c atLm) (fun s0 => readA Za s0 = .ok (lm0, s1) ∧
    ∃ bs s2, loadAt 0 64 false lm0 64 s1 = .ok (bs, s2)) :=
  ⟨_, _, ⟨rfl, rfl, rfl, by decide, by decide, by decide⟩, rfl, exists_ok (by decide +kernel)⟩

theorem witness_StreamInstructions_patterns : patternBad (List.replicate 8 0) = false ∧
    patternBad [0, 0xF, 0xFFFFFFFFFFFFFFFF, 0xFFFFFFFFFFFFFFFF, 0, 0, 0, 1] = true := by decide

theorem witness_StreamInstructions_move : Meets .base (X 0 (.s 7) .zero .zero .zero 0 0)
    (actR .c { regsOf false with streams := [(7, stream1 false false)] }) (fun s0 => (s0.me.regs.stream 7).bound = true ∧
      (s0.me.regs.stream 7).empty = false) ∧ ((on .c false).me.regs.stream 7).bound = false ∧
    ∃ v s1, streamPeek 7 (streams false false) = .ok (v, s1) :=
  ⟨⟨_, ⟨rfl, rfl, rfl, by decide, by decide, by decide⟩, rfl, rfl⟩, rfl, _, _, rfl⟩

/-! ### Addresses, loads, stores, chunks -/

/-- The edges of the spaces. -/
theorem witness_AddressesNameTheirSpace : ([0x00FFFFFFFFFFFFFF, 0xF000000000000000, 0xF1FFFFFFFFFFFFFF, 0xF200000000000000,
    0xF800000000000000, 0xFEFFFFFFFFFFFFFF, 0x0100000000000000, 0xEFFFFFFFFFFFFFFF, 0xF300000000000000, 0xF7FFFFFFFFFFFFFF,
    0xFF00000000000000] : List Word).map spaceCode = [0, 1, 2, 3, 4, 5, 15, 15, 15, 15, 15] := by decide

/-- A core with one page of private memory in LM and one overflow page. -/
def withPrivate : State := (on .c false).setMe { (on .c false).me with cpriv := 0x0701, covf := 0x20001 }

/-- The last private byte in LM, the first and last of the overflow area, and the first behind it. -/
theorem test_private_edges : ([0xF000000000000FFF, 0xF000000000001000, 0xF000000000010FFF, 0xF000000000011000] : List Word).map
    (withPrivate.spotOf false) =
    [.ok (.tile 0 0 0x7FFF), .ok (.glob 0x20000), .ok (.glob 0x2FFFF), .error (Code.protection, 6)] := by decide

theorem witness_AddressesLead : Word.bits (0xF000000100000000 : Word) 32 24 ≠ 0 ∧ Word.bits (0xF000000000000FFF : Word) 32 24 = 0 ∧
    Word.bits (0xF10000000007FFFF : Word) 40 16 = 0 ∧ Word.bits (0xF10000000007FFFF : Word) 19 11 = 0 ∧
    ((on .c false).tile 0).inTail ((0xF10000000007FFFF : Word).toNat % 2 ^ 19) = true ∧
    ((on .c false).tile 0).inTail ((0xF100000000000000 : Word).toNat % 2 ^ 19) = false ∧
    Word.bits (0xF100000040000000 : Word) 30 10 = 1 ∧ Word.bits (0xF100000000080000 : Word) 19 11 ≠ 0 ∧
    Word.bits (0xF200000000F00000 : Word) 24 32 = 0 ∧ (0xF200000000F00000 : Word).getLsbD 19 = false ∧
    (on .c false).spotOf false (accOf 0 false 0xF100000000000004).addr = .ok (.tile 0 0 4) ∧
    (accOf 0 false 0xF100000000000004).addr.toNat % 4 = 0 ∧ (accOf 0 false 0xF100000000000004).addr.toNat % 8 ≠ 0 := by decide

/-- Entries of a table at 0: not valid, a table, a leaf; at levels 0, 1 and 3. -/
def withEntry8 (b : Byte) : State := { State.reset with mem := [(7, b)] }

theorem witness_Walks : let bit := fun (b : Byte) n => (word ((withEntry8 b).readNat 0 0 8)).getLsbD n
    (0 : Nat) % (8 * 2 ^ 13) = 0 ∧ State.reset.poison = [] ∧ bit 0 63 = false ∧ bit 0x80 63 = true ∧ bit 0x80 62 = false ∧
    bit 0xC0 63 = true ∧ bit 0xC0 62 = true ∧ leafTgt (word ((withEntry8 0xC0).readNat 0 0 8)) ≠ 3 ∧
    leafFrame (word ((withEntry8 0xC0).readNat 0 0 8)) % 2 ^ (30 - 16) = 0 := by decide

theorem witness_LoadsSeeStores : (withChunk (on .c false) 0).me.atomOverlap (tileKey 0 0 0) 64 = false ∧
    (withChunk (on .c false) 0).poison = [] ∧ isHbm (tileKey 0 0 0) = false := by decide

theorem witness_StoresWait : (withChunk (on .c false) 0).me.atomOverlap (tileKey 0 0 0) [(1 : Byte)].length = false ∧
    (withChunk (on .c false) 0).me.chunk = some { chunkOf (on .c false) with len := 0 } := ⟨rfl, rfl⟩

/-- A chunk that has stored one byte, read a line, and met a conflict. -/
def storedChunk (conflict : Bool) : Chunk :=
  { chunkOf (on .c false) with
    len := 1, stores := [(tileKey 0 0 0, 1)], rset := linesOf 0 1, closed := true, hit := if conflict then linesOf 0 1 else [] }

def stored (conflict : Bool) : State := (on .c false).setMe { (on .c false).me with chunk := some (storedChunk conflict) }

theorem witness_ChunksCommitOrReturn : (stored false).Form ∧ ((stored false).core 0 .c).chunk = some (storedChunk false) ∧
    (storedChunk false).acts = [] ∧ (storedChunk false).late = [] ∧ (storedChunk false).vf = none ∧
    (storedChunk false).stores.Pairwise (fun p q => p.1 < q.1) ∧
    ((stored true).core 0 .c).chunk = some (storedChunk true) ∧ (storedChunk true).met = true ∧
    (storedChunk true).single = false ∧ (linesOf 0 [(1 : Byte)].length).any (fun l => (storedChunk false).rset.contains l) = true :=
  ⟨rfl, rfl, rfl, rfl, rfl, List.pairwise_singleton _ _, rfl, rfl, rfl, rfl⟩

/-- R79: a chunk's byte reaches memory as it commits, and not when it returns. -/
theorem test_chunk_commit : ((stored false).tryCommit 0 .c).mem = [(tileKey 0 0 0, 1)] ∧
    (stored true).tryCommit 0 .c = (stored true).squash 0 .c true :=
  ⟨rfl, rfl⟩

/-- Operands of a load and a store at the start of LM. -/
def Zl : Ops := X 0 (.m 0) (.o 0) .zero (.o 0) 0 0

theorem witness_Loads : ∃ s1 s2, Meets (.alu 3) Zl (actR .c atLm) (fun s0 => loadRow (.ld Zl) = some (.alu 3, Zl, loadInt Zl, false) ∧
    readA Zl s0 = .ok (lm0, s1) ∧ readB Zl s1 = .ok (0, s2)) ∧ ∃ v s3, loadInt Zl (accessed false Zl lm0 0) s2 = .ok (v, s3) :=
  ⟨_, _, ⟨_, ⟨rfl, rfl, rfl, by decide, by decide, by decide⟩, rfl, rfl, rfl⟩, exists_ok (by decide +kernel)⟩

theorem witness_Stores : ∃ s1 s2 s3, Meets .base Zl (actR .c atLm) (fun s0 => storeRow (.sti Zl) = some (Zl, storeInt Zl, true) ∧
    readA Zl s0 = .ok (lm0, s1) ∧ readB Zl s1 = .ok (0, s2) ∧ readC Zl s2 = .ok (lm0, s3)) ∧
    ∃ s4, storeInt Zl (accessed true Zl lm0 0) lm0 s3 = .ok ((), s4) :=
  ⟨_, _, _, ⟨_, ⟨rfl, rfl, rfl, by decide, by decide, by decide⟩, rfl, rfl, rfl, rfl⟩, exists_ok_unit (by decide +kernel)⟩

/-- Operands of a pair. -/
def Zp : Ops := X 0 (.m 22) (.o 0) .zero (.m 22) 0 0

theorem witness_LoadPair : ∃ s1 s2, Meets .base Zp (actR .c atLm) (fun s0 => pairRow (.ldp Zp) = some (Zp, true, false) ∧
    readA Zp s0 = .ok (lm0, s1) ∧ readB Zp s1 = .ok (0, s2)) ∧ ∃ bs s3, loadAt 0 16 false (accessed false Zp lm0 0) 16 s2 = .ok (bs, s3) :=
  ⟨_, _, ⟨_, ⟨rfl, rfl, rfl, by decide, by decide, by decide⟩, rfl, rfl, rfl⟩, exists_ok (by decide +kernel)⟩

theorem witness_StorePair : ∃ s1 s2 s3 s4, Meets .base Zp (actR .c atLm) (fun s0 => pairRow (.stpi Zp) = some (Zp, false, true) ∧
    readA Zp s0 = .ok (lm0, s1) ∧ readB Zp s1 = .ok (0, s2) ∧ readC Zp s2 = .ok (0, s3) ∧ readOpd Zp (pairNext Zp.c) s3 = .ok (0, s4)) ∧
    ∃ s5, storeAt 1 16 false (accessed true Zp lm0 0) (toBytes 8 (0 : Word).toNat ++ toBytes 8 (0 : Word).toNat) s4 = .ok ((), s5) :=
  ⟨_, _, _, _, ⟨_, ⟨rfl, rfl, rfl, by decide, by decide, by decide⟩, rfl, rfl, rfl, rfl, rfl⟩, exists_ok_unit (by decide +kernel)⟩

/-- The places of a load, of a store, and of a window. -/
theorem witness_LoadAndStoreValues : (∀ w, Spot.tile 0 0 0 ≠ .win w) ∧
    (∃ s1, locate (accOf 0 false lm0) (elemAlign lm0 (widthOf Zl.fmt / 8)) false (withChunk (on .c false) 0) = .ok (.tile 0 0 0, s1) ∧
      ∃ bs s2, readSpot (accOf 0 false lm0) (.tile 0 0 0) (widthOf Zl.fmt / 8) s1 = .ok (bs, s2)) ∧
    (∃ s1, locate (accOf 1 true lm0) (elemAlign lm0 (ldfFmt Zl.fmt).2) false (withChunk (on .c false) 0) = .ok (.tile 0 0 0, s1) ∧
      ∃ s2, writeSpot (accOf 1 true lm0) (.tile 0 0 0) (toBytes (ldfFmt Zl.fmt).2 0) s1 = .ok ((), s2)) ∧
    ∃ s1, locate (accOf 0 false 0xF800000000000000) (elemAlign 0xF800000000000000 (widthOf Zl.fmt / 8)) false (withChunk (on .c false) 0) = .ok (.win 0xF800000000000000, s1) ∧
      ∃ v s2, winRead (accOf 0 false 0xF800000000000000) 0xF800000000000000 s1 = .ok (v, s2) :=
  ⟨fun _ h => (nomatch h), ⟨_, rfl, exists_ok (by decide +kernel)⟩, ⟨_, rfl, exists_ok_unit (by decide +kernel)⟩, _, rfl, exists_ok (by decide +kernel)⟩

theorem witness_BlockInstructions_lines : ∃ s1 s2, Meets .base Zl (actR .c atLm) (fun s0 => readA Zl s0 = .ok (lm0, s1) ∧ readB Zl s1 = .ok (0, s2)) ∧
    (∃ s3, storeAt 1 64 false (effective Zl lm0 0) (List.replicate 64 0) s2 = .ok ((), s3)) ∧
    ∃ bs s3, loadAt 0 64 false (effective Zl lm0 0) 64 s2 = .ok (bs, s3) :=
  ⟨_, _, ⟨_, ⟨rfl, rfl, rfl, by decide, by decide, by decide⟩, rfl, rfl⟩, exists_ok_unit (by decide +kernel), exists_ok (by decide +kernel)⟩

/-- A move of n bytes from LM offset 0x40 to offset 0x3C, and the operands that name it. -/
def moving (n : Word) : Regs := { regsOf false with phys := [(0, lm0 + 0x3C), (1, lm0 + 0x40), (2, n)] }

def Zm : Ops := X 0 (.m 0) (.m 1) (.m 2) .zero 0 0

theorem witness_BlockMoves_none : ∃ s1, Meets .base Zm (actR .c (moving 0)) (fun s0 => moveForward Zm s0 = .ok (false, s1) ∧
    moveBackward Zm s0 = .ok (false, s1) ∧ fillPiece Zm s0 = .ok (false, s1)) :=
  ⟨_, _, ⟨rfl, rfl, rfl, by decide, by decide, by decide⟩, rfl, rfl, rfl⟩

/-- R260: a forward piece ends at the next 64-byte line of the destination. -/
theorem witness_BlockMoves_piece : let s := withChunk (actR .c (moving 64)) 0
    0 < (s.me.regs.m 2).toNat ∧ min 64 (64 - (s.me.regs.m 0).toNat % 64) = 4 ∧
    (∃ bs s1, loadRange 6 (s.me.regs.m 1) 4 s = .ok (bs, s1)) ∧ (∃ s2, storeRange 6 (s.me.regs.m 0) [1, 2, 3, 4] s = .ok ((), s2)) ∧
    ∃ s1, storeAt 6 4 false (s.me.regs.m 0) [1, 2, 3, 4] s = .ok ((), s1) :=
  ⟨by decide, by decide, exists_ok (by decide +kernel), exists_ok_unit (by decide +kernel), exists_ok_unit (by decide +kernel)⟩

theorem witness_SpaceCasts : ∃ s1, Meets (.alu 1) Zl (actR .c atLm) (fun s0 => readA Zl s0 = .ok (lm0, s1) ∧
    s1.spotOf false lm0 = .ok (.tile 0 0 0)) ∧ castSame (castOf { Zl with imm := 2 }) lm0 = true ∧
    castSame (castOf { Zl with imm := 3 }) lm0 = false ∧ (castRow (castOf { Zl with imm := 3 }) 0 lm0 (.tile 0 0 0)).isSome = true ∧
    castSame (castOf Zl) lm0 = false ∧ castRow (castOf Zl) 0 lm0 (.tile 0 0 0) = none :=
  ⟨_, ⟨_, ⟨rfl, rfl, rfl, by decide, by decide, by decide⟩, rfl, rfl⟩, rfl, rfl, rfl, rfl, rfl⟩

/-! ### Atomics, fences, owner flips, semaphores, votes -/

/-- Operands of an atomic at the start of LM. -/
def Zt (d : Opd) (fmt : BitVec 3) (use : BitVec 5) : Ops := X fmt d (.o 0) .zero .zero 0 use

theorem witness_Atomics_ordered : ∃ s1 s2 s3, Meets .base (Zt (.m 0) 0 0) (actR .c atLm) (fun s0 =>
    atomRow (.aadd 0 (Zt (.m 0) 0 0)) = some (.add, 0, Zt (.m 0) 0 0) ∧ readA (Zt (.m 0) 0 0) s0 = .ok (lm0, s1) ∧
    readB (Zt (.m 0) 0 0) s1 = .ok (0, s2) ∧ (pure 0 : Exec Word) s2 = .ok (0, s3)) ∧
    (∃ p s4, atomPlace (accOf 2 true lm0) (atomWidth 0 / 8) s3 = .ok (p, s4)) ∧
    (atomPlace (accOf 2 true lm0) (atomWidth 0 / 8) (withChunk (on .c false) 0)).toOption.map (·.1) =
      some (some (.mem (tileKey 0 0 0) 0 false)) ∧ (withChunk (on .c false) 0).me.atoms.any (fun b => b.puts 0 4) = false ∧
    atomAfterStores (tileKey 0 0 0) (withChunk (on .c false) 0) = .ok ((), withChunk (on .c false) 0) ∧
    checkPoison (accOf 2 true lm0) (tileKey 0 0 0) 4 (withChunk (on .c false) 0) = .ok ((), withChunk (on .c false) 0) ∧
    fresh (withChunk (on .c false) 0) :=
  ⟨_, _, _, ⟨_, ⟨rfl, rfl, rfl, by decide, by decide, by decide⟩, rfl, rfl, rfl, rfl⟩, exists_ok (by decide +kernel), rfl, rfl, rfl, rfl, rfl⟩

/-- The form that its chunk makes (.SPC), with a swap that stores. -/
theorem witness_Atomics_special : (2 : BitVec 2).getLsbD 1 = true ∧ (Zt (.m 0) 0 4).mod.toNat % 8 = 4 ∧
    (∃ bs s6, readPlace (accOf 2 true lm0) (.mem (tileKey 0 0 0) 0 false) 4 (withChunk (on .c false) 0) = .ok (bs, s6)) ∧
    (∃ s7, writePlace (.mem (tileKey 0 0 0) 0 false) (toBytes 4 1) (withChunk (on .c false) 0) = .ok ((), s7)) ∧
    atomicNew .cas 32 false 0 1 2 = none ∧ atomicNew .cas 32 false 0 0 2 = some 2 ∧
    (Place.mem (tileKey 0 0 0) 0 true).uncached = true ∧ isStream (.s 7) = true ∧ isStream (.m 0) = false :=
  ⟨rfl, rfl, exists_ok (by decide +kernel), exists_ok_unit (by decide +kernel), rfl, rfl, rfl, rfl, rfl⟩

/-- The answer of another package has come. -/
theorem witness_Atomics_remote : let p := Place.remote 3 64
    let s := (withChunk (on .c false) 0).setMe { (withChunk (on .c false) 0).me with
      ext := some { id := 1, place := 0, waiting := false, got := [(p.num, [1, 0, 0, 0])], refused := [], bad := [] } }
    fresh s ∧ s.me.ext.bind (fun e => smFind e.got p.num) = some [1, 0, 0, 0] := ⟨rfl, rfl⟩

/-- An atomic of the last byte that a 32-bit word may begin at, of each class. -/
def atom1 (use : Nat) : RAtom :=
  { key := tileKey 0 0 0x7FFFC, pkg := none, op := .add, wide := false, uns := true, v := 1, nv := 0, dst := some (.m 0), latch := true,
    use := use, at_ := 0, keyNo := 0, vf := none, put := [] }

theorem witness_AtomicsUpdate : (on .c false).Form ∧ (atom1 5).use ≠ 3 ∧ (atom1 5).vf = none ∧ (atom1 5).put = [] ∧ ((on .c false).core 0 .c).chunk = none ∧
    (atom1 5).use = 5 ∧ (atom1 1).use ≠ 5 ∧ atomicNew .add 32 true (2 ^ 32 - 1) 1 0 = some 0 :=
  ⟨rfl, by decide, rfl, rfl, rfl, rfl, by decide, rfl⟩

/-- R265: an addition wraps in its width, and the destination takes the value before it. -/
theorem test_atomic_add : let s := { on .c false with mem := [(tileKey 0 0 0x7FFFC, 0xFF), (tileKey 0 0 0x7FFFD, 0xFF),
      (tileKey 0 0 0x7FFFE, 0xFF), (tileKey 0 0 0x7FFFF, 0xFF)] }
    (s.performAtom 0 .c (atom1 5)).mem = [] ∧ ((s.performAtom 0 .c (atom1 5)).me.regs.m 0) = 0xFFFFFFFF := ⟨rfl, rfl⟩

theorem witness_Fences : Meets .ends Z (withChunk (on .c false) 1) (fun s0 => ∃ h, s0.me.chunk = some h ∧ 0 < h.len) ∧
    Meets .ends Z (on .c false) (fun s0 => fresh s0 ∧ s0.me.fabRefused = false ∧ s0.fabricBroken s0.me = false) ∧
    Meets .ends Z ((on .c false).setMe { (on .c false).me with fabRefused := true }) (fun s0 => fresh s0 ∧ s0.me.fabRefused = true) ∧
    Meets .ends Z ({ (on .c false).setMe { (on .c false).me with fab := [4] } with fabric := { Fabric.init with
      peers := [(7, { Peer.init with broken := true })], pending := [{ id := 4, pkg := 7, seq := 0, gen := 1, what := .store 0 .c }] } } : State)
      (fun s0 => s0.me.fabRefused = false ∧ s0.fabricBroken s0.me = true) :=
  ⟨⟨_, ⟨rfl, rfl, rfl, by decide, by decide, by decide⟩, _, rfl, by decide⟩, ⟨_, ⟨rfl, rfl, rfl, by decide, by decide, by decide⟩, rfl, rfl, rfl⟩,
    ⟨_, ⟨rfl, rfl, rfl, by decide, by decide, by decide⟩, rfl, rfl⟩, _, ⟨rfl, rfl, rfl, by decide, by decide, by decide⟩, rfl, rfl⟩

/-- R206: 255 semaphores: the last one, and a signal that saturates. -/
theorem test_signal_saturates : ((((on .c false).updTile 0 (fun x => x.setSem 255 65535)).signal 0 255 7 0).tile 0).sem 255 = 65535 := rfl

theorem witness_Semaphores : ∃ s1 s2, Runs .alone Z (on .c false) (fun s0 u => readA Z s0 = .ok (0, s1) ∧
    writeOpd Z.d (word 0) (semBecomes s0 0 0 false) = .ok ((), s2) ∧ u = s2) :=
  ⟨_, _, _, _, _, ⟨rfl, rfl, rfl, by decide, by decide, by decide⟩, ⟨rfl, rfl, rfl⟩, ends rfl rfl⟩

/-- An operand of 1, below and above the count; with the grant, and without. -/
def one : Regs := { regsOf false with o := [(0, 1)] }

theorem witness_Semaphores_one : ∃ s1, Meets .alone Zl (actR .c one) (fun s0 => readA Zl s0 = .ok (1, s1) ∧ (1 : Word) ≠ 0 ∧
    s1.me.granted = false ∧ (s1.tile 0).sem 0 < (1 : Word).toNat) ∧
    ∃ s2, Meets .alone Zl ((actR .c one).setMe { (actR .c one).me with granted := true } |>.updTile 0 (fun x => x.setSem 0 1)) (fun s0 =>
      readA Zl s0 = .ok (1, s2) ∧ s2.me.granted = true ∧ (1 : Word).toNat ≤ (s2.tile 0).sem 0) :=
  ⟨_, ⟨_, ⟨rfl, rfl, rfl, by decide, by decide, by decide⟩, rfl, by decide, rfl, by decide⟩, _, _, ⟨rfl, rfl, rfl, by decide, by decide, by decide⟩, rfl, rfl, by decide⟩

theorem witness_Signals : let s := (on .c false).updTile 0 (fun x => x.setSem 255 65535)
    0 < 7 ∧ 65535 < (s.tile 0).sem 255 + 1 ∧ (s.tile 0).semOvf = none ∧ (s.tile 0).sem 0 + 7 ≤ 65535 ∧
    (s.tile 0).cores.any (fun (_, c) => c.pend.any (fun p => p.item == 6)) = false := ⟨by decide, by decide, rfl, by decide, rfl⟩

/-- The input of a VOTE that core C has entered, with a result or without. -/
def vote0 (res : Option Word) : VoteIn :=
  { ip := 0, priv := false, scope := 0, k := 0, isV := false, kind := 0, val := 0, res := res }

def voting (vs : List VoteIn) : State := (on .c false).setMe { (on .c false).me with votes := vs }

theorem witness_Votes_result : ∃ s1 s2, Runs (voteEntry Z) Z (voting [vote0 (some 3)]) (fun s0 u =>
    readA Z s0 = .ok (0, s1) ∧ s1.me.votes = [vote0 (some 3)] ∧ s1.me.regs.ip = 0 ∧ s1.me.regs.priv = false ∧
    writeOpd Z.d 3 (s1.setMe { s1.me with votes := s1.me.votes.erase (vote0 (some 3)) }) = .ok ((), s2) ∧ u = s2) :=
  ⟨_, _, _, _, _, ⟨rfl, rfl, rfl, by decide, by decide, by decide⟩, ⟨rfl, rfl, rfl, rfl, rfl, rfl⟩, ends rfl rfl⟩

theorem witness_Votes_waiting : ∃ s1, Meets (voteEntry Z) Z (on .c false) (fun s0 => readA Z s0 = .ok (0, s1) ∧ s1.me.votes = []) ∧
    ∃ s2, Meets (voteEntry Z) Z (voting [vote0 none]) (fun s0 => readA Z s0 = .ok (0, s2) ∧ s2.me.votes = [vote0 none]) :=
  ⟨_, ⟨_, ⟨rfl, rfl, rfl, by decide, by decide, by decide⟩, rfl, rfl⟩, _, _, ⟨rfl, rfl, rfl, by decide, by decide, by decide⟩, rfl, rfl⟩

theorem witness_Votes_missing : let c := (voting [vote0 none]).me
    c.votes[0]? = some (vote0 none) ∧ (vote0 none).res = none ∧
    (voteScope [(0, 0, c), (0, 1, (on .c false).me)] 0 0 0).any (fun d => d.run != .off && decide (smGet 0 d.vcount 0 ≤ 0)) = true :=
  ⟨rfl, rfl, rfl⟩

/-- Whole slabs of LM: the last one below the tail, and the ranges that are none. -/
theorem witness_OwnerFlips : let a : Word := word (121 * 4096)
    bufBad a = false ∧ bufNo a = 0 ∧ bufOfs a % 4096 = 0 ∧ bufOfs a + (1 : Word).toNat * 4096 ≤ bufSize (bufNo a) ∧
    ((on .c false).tile 0).tailMeets (bufOfs a) ((1 : Word).toNat * 4096) = false ∧
    bufNo (word (3 * 2 ^ 28)) = 3 ∧ bufOfs 1 % 4096 ≠ 0 ∧ bufSize (bufNo a) < bufOfs a + (8 : Word).toNat * 4096 := by decide

theorem witness_OwnerFlips_give : ∃ s1 s2, Meets .ends (X 0 .zero .zero (.o 0) .zero 0 0) (actR .c one) (fun s0 =>
    readA (X 0 .zero .zero (.o 0) .zero 0 0) s0 = .ok (0, s1) ∧ readB (X 0 .zero .zero (.o 0) .zero 0 0) s1 = .ok (1, s2) ∧
    flipRange 0 1 s2 = .ok (slabsOf 0 0 4096, s2) ∧ ((s2.flipIdle (slabsOf 0 0 4096)).tile 0).allCore (slabsOf 0 0 4096) = true) :=
  ⟨_, _, _, ⟨rfl, rfl, rfl, by decide, by decide, by decide⟩, rfl, rfl, rfl, rfl⟩

/-- A slab that an engine instruction holds; a range that is refused. -/
theorem witness_OwnerFlips_held : let s := (on .c false).updTile 0 (fun x => { x with owner := [(0, true)], pcnt := [(0, 1)] })
    ((s.flipIdle [(0, 0)]).tile 0).allCore [(0, 0)] = false ∧ (∃ tr, flipRange 1 1 s = .error (.trap tr)) ∧
    (∀ p ∈ ([(2, 127)] : List SlabId), p.1 < 3 ∧ p.2 < 256) := ⟨rfl, ⟨_, rfl⟩, by decide⟩

theorem witness_OwnerRead : ∃ s1, Meets .base Z (on .c false) (fun s0 => readA Z s0 = .ok (0, s1) ∧ bufBad 0 = false ∧ bufNo 0 ≠ 3 ∧
    bufOfs 0 < bufSize (bufNo 0)) := ⟨_, _, ⟨rfl, rfl, rfl, by decide, by decide, by decide⟩, rfl, rfl, by decide, by decide⟩

/-! ### Copies and tags -/

/-- Operands of a copy of 64 bytes of AB, and of one of none. -/
def Zc : Ops := X 0 (.o 0) (.o 1) (.o 2) .zero 63 3

def copying (n : Word) : State := actR .x { regsOf false with o := [(0, 0x20000040), (1, 0x20000000), (2, n)] }
  |>.updTile 0 (fun x => { x with owner := [(512, true), (513, true)] })

theorem witness_Copy : ∃ s1 s2 s3, Meets .copies Zc (copying 64) (fun s0 => readOpd Zc Zc.d s0 = .ok (0x20000040, s1) ∧
    readA Zc s1 = .ok (0x20000000, s2) ∧ readB Zc s2 = .ok (64, s3)) ∧
    ∃ s4, issueCopy Zc [copyOpd 0x20000000 true false 1 64 0, copyOpd 0x20000040 true true 1 64 0] (copyOpd 0x20000040 true true 1 64 0)
      false true [] { TagRec.init with kind := 0, rows := 1, rowlen := 64, src := 0x20000000, dst := 0x20000040, sbuf := true, dbuf := true } s3 =
      .ok ((), s4) :=
  ⟨_, _, _, ⟨_, ⟨rfl, rfl, rfl, by decide, by decide, by decide⟩, rfl, rfl, rfl⟩, exists_ok_unit (by decide +kernel)⟩

/-- The other copies, with operands that their checks let through, on a core that has begun its chunk. -/
def atCopy : State := withChunk (copying 64) 0

def cd (rows len pitch : Nat) : CopyOpd := copyOpd 0x20001000 true true rows len pitch
def ca (rows len pitch : Nat) : CopyOpd := copyOpd 0x20000000 true false rows len pitch

def tag2 : TagRec := { TagRec.init with
  kind := 1, rows := 2, rowlen := 64, src := 0x20000000, dst := 0x20001000, spitch := 64, dpitch := 64, sbuf := true, dbuf := true }
def tagR : TagRec := { TagRec.init with
  kind := 2, rows := 1, rowlen := 4, src := 0x20000000, dst := 0x20001000, sbuf := true, dbuf := true, kk := 2 }
def tagF : TagRec := { TagRec.init with kind := 0, rows := 1, rowlen := 64, dst := 0x20001000, dbuf := true, fill := true }

theorem witness_Copies_others :
    (∃ s, issueCopy Zc [ca 2 64 64, cd 2 64 64] (cd 2 64 64) false true [] tag2 atCopy = .ok ((), s)) ∧
    (∃ s, issueCopy Zc [ca 1 8 0, cd 1 4 0] (cd 1 4 0) false true [(ca 1 8 0, 0, 4), (cd 1 4 0, 0, 4)] tagR atCopy = .ok ((), s)) ∧
    ∃ s, issueCopy Zc [cd 1 64 0] (cd 1 64 0) false true [(cd 1 64 0, 0, 8)] tagF atCopy = .ok ((), s) :=
  ⟨exists_ok_unit (by decide +kernel), exists_ok_unit (by decide +kernel), exists_ok_unit (by decide +kernel)⟩

/-- A tile with tag 63 in a state. -/
def tagged (st : TagSt) (r : Regs) : State :=
  (actR .x r).updTile 0 (fun x => { x with tags := [(63, { TagRec.init with st := st })] })

/-- A mask of tag 63. -/
def mask63 : Regs := { regsOf false with o := [(0, 0x8000000000000000)] }

theorem witness_Tags : ∃ s1 s2 s3, Meets .tagWait Zl (tagged .faulted mask63) (fun s0 => readA Zl s0 = .ok (0x8000000000000000, s1) ∧
    (s1.tile 0).tagsIn 0x8000000000000000 .faulted = [63]) ∧
    Meets .tagWait Zl (tagged .done mask63) (fun s0 => readA Zl s0 = .ok (0x8000000000000000, s2) ∧
      (s2.tile 0).tagsIn 0x8000000000000000 .faulted = [] ∧ (s2.tile 0).tagsIn 0x8000000000000000 .done = [63] ∧
      tagsSettled s2 0x8000000000000000 = true) ∧
    Meets .tagWait Zl (tagged .busy mask63) (fun s0 => readA Zl s0 = .ok (0x8000000000000000, s3) ∧
      (s3.tile 0).tagsIn 0x8000000000000000 .faulted = [] ∧ (s3.tile 0).tagsIn 0x8000000000000000 .done = [] ∧
      (s3.tile 0).tagsIn 0x8000000000000000 .busy ≠ [] ∧ tagsSettled s3 0x8000000000000000 = false) :=
  ⟨_, _, _, ⟨_, ⟨rfl, rfl, rfl, by decide, by decide, by decide⟩, rfl, rfl⟩, ⟨_, ⟨rfl, rfl, rfl, by decide, by decide, by decide⟩, rfl, rfl, rfl, rfl⟩,
    _, ⟨rfl, rfl, rfl, by decide, by decide, by decide⟩, rfl, rfl, rfl, by decide, rfl⟩

/-- An empty mask; the tag entries; a faulted tag as CRES and CCAN act. -/
theorem witness_Tags_others : ∃ s1 s2 s3, Runs .tagWait Z (on .x false) (fun s0 u => readA Z s0 = .ok (0, s1) ∧
    (s1.tile 0).tagsIn 0 .busy = [] ∧ writeOpd Z.d 64 s1 = .ok ((), s2) ∧ u = s2) ∧
    Runs .tagOps Z (on .x false) (fun s0 u => readA Z s0 = .ok (0, s3) ∧ u = s3.withAct (.tagOp false 0)) ∧
    Meets { Entry.alu 1 with cores := .x } Z (on .x false) (fun _ => True) ∧
    ((tagged .faulted mask63).tile 0).tag 63 = { TagRec.init with st := .faulted } :=
  ⟨_, _, _, ⟨_, _, _, ⟨rfl, rfl, rfl, by decide, by decide, by decide⟩, ⟨rfl, rfl, rfl, rfl⟩, ends rfl rfl⟩, ⟨_, _, _, ⟨rfl, rfl, rfl, by decide, by decide, by decide⟩, ⟨rfl, rfl⟩, ends rfl rfl⟩,
    ⟨_, ⟨rfl, rfl, rfl, by decide, by decide, by decide⟩, trivial⟩, rfl⟩

/-- A copy of 64 bytes between the last lines of AB that its statement admits. -/
def pieceTag : TagRec := { TagRec.init with
  st := .busy, kind := 0, rows := 1, rowlen := 64, src := word (2 * 2 ^ 28 + 0x7FF80), dst := word (2 * 2 ^ 28 + 0x7FFC0), sbuf := true, dbuf := true,
  ssem := 255, sinc := 7 }

def piece : State := (on .x false).updTile 0 (fun x => { x with tags := [(63, pieceTag)] })

theorem witness_CopyPieces : piece.Form ∧ piece.poison = [] ∧ piece.solo = [] ∧ (0x7FF80 : Nat) % 64 = 0 ∧ (0x7FFC0 : Nat) % 64 = 0 ∧
    0x7FFC0 + 64 ≤ 0x80000 ∧ (piece.tile 0).draining = false ∧ (piece.tile 0).tailOfs + 24576 ≤ 0x80000 ∧ piece.jobs = [] ∧
    (piece.tile 0).tag 63 = pieceTag ∧ ((piece.tile 0).tag 0).st ≠ .busy ∧ (piece.tile 0).watch.any (fun w => w.st == .saving) = false ∧
    ((piece.updTile 0 (fun x => x.setTag 63 { pieceTag with front := 64 })).tile 0).tag 63 = { pieceTag with front := 64 } :=
  ⟨rfl, rfl, rfl, rfl, rfl, by decide, rfl, by decide, rfl, rfl, by decide, rfl, rfl⟩

/-! ### Vectors -/

/-- Vector operands: groups of one register. -/
def Zv : Ops := X 0 (.v 0) (.v 8) (.v 16) (.v 31) 0 0

/-- A vector operand and scalar addresses. -/
def Zs : Ops := X 0 (.v 0) (.o 0) .zero (.v 31) 0 0

theorem witness_LaneOperations : ∃ f s1, Runs .vector Zv (on .v false) (fun s0 u => laneRow (.vadd Zv) = some (Zv, true, true, f) ∧
    laneB Zv true s0 s1 (laneAt s0 Zv Zv.b) ∧ u = s1) :=
  ⟨_, _, _, _, _, ⟨rfl, rfl, rfl, by decide, by decide, by decide⟩, ⟨rfl, ⟨rfl, rfl⟩, rfl⟩, ends rfl rfl⟩

/-- SB: a scalar read once. -/
theorem witness_LaneOperations_scalar : ∃ s1, Meets .vector { Zv with b := .zero, mod := 8 } (on .v false) (fun s0 =>
    laneB { Zv with b := .zero, mod := 8 } true s0 s1 (fun i => if i < laneCount { Zv with b := .zero, mod := 8 } then (0 : Word).truncate 32 else 0)) :=
  ⟨_, _, ⟨rfl, rfl, rfl, by decide, by decide, by decide⟩, _, rfl, rfl⟩

theorem witness_LaneOperations_convert : ∃ cb s1, Meets .vector Zv (on .v false) (fun s0 => cvtTarget Zv s0 = .ok ((0, cb), s1)) :=
  ⟨_, _, _, ⟨rfl, rfl, rfl, by decide, by decide, by decide⟩, rfl⟩

theorem witness_ScalarConversions : ∃ cb s1 s2 s3, Meets (.alu 1) Z (on .v false) (fun s0 => cvtTarget Z s0 = .ok ((0, cb), s1) ∧
    readA Z s1 = .ok (0, s2)) ∧ Meets (.alu 1) Z (on .c false) (fun s0 => readA Z s0 = .ok (0, s3)) ∧
    (∃ s4, writeOpd Z.d 0 s3 = .ok ((), s4)) ∧ (0 < 1 ∧ 1 % 1 = 0) :=
  ⟨_, _, _, _, ⟨_, ⟨rfl, rfl, rfl, by decide, by decide, by decide⟩, rfl, rfl⟩, ⟨_, ⟨rfl, rfl, rfl, by decide, by decide, by decide⟩, rfl⟩, ⟨_, rfl⟩, by decide⟩

theorem witness_ComparesAndMasks : ∃ s1 s2, Runs .vector Zv (on .v false) (fun s0 u =>
    vcmpRow (.vcmplt Zv) = some (Zv, true, fun a b => !a.isNan && !b.isNan && fvLt a b) ∧ laneB Zv true s0 s1 (laneAt s0 Zv Zv.b) ∧ u = s1) ∧
    Meets .vector { Zv with d := .m 0 } (on .v false) (fun s0 => writeOpd (.m 0) (word 64) s0 = .ok ((), s2)) :=
  ⟨_, _, ⟨_, _, _, ⟨rfl, rfl, rfl, by decide, by decide, by decide⟩, ⟨rfl, ⟨rfl, rfl⟩, rfl⟩, ends rfl rfl⟩, _, ⟨rfl, rfl, rfl, by decide, by decide, by decide⟩, rfl⟩

/-- A mask of zeros: VMFF finds none below L. -/
theorem witness_MaskFirst : (∀ i, i < laneCount Zv → maskBit ((on .v false).me.regs.readGroup (.v 8) 1) i = false) ∧ laneCount Zv ≤ laneCount Zv := by
  decide

theorem witness_Reductions : Meets .vector Zv (on .v false) (fun _ => vfloat Zv.fmt = true ∧ vfloat { Zv with fmt := 4 }.fmt = false) ∧
    2 * 0 + 1 < [(0 : BitVec 32), 1].length := ⟨⟨_, ⟨rfl, rfl, rfl, by decide, by decide, by decide⟩, rfl, rfl⟩, by decide⟩

/-- One active lane: a mask whose last bit alone is set; and none. -/
def Zk : Ops := X 4 (.v 0) (.v 8) .prv .prv 1 16

def masked (w : BitVec 32) : State := actR .v { regsOf false with vregs := if w = 0 then [] else [(64 * 31 + 1, w)] }

theorem witness_Ranking : (activeList (masked 0x80000000) Zk).map (·.1) = [63] ∧
    (activeList (masked 0x80000000) Zk).all (fun w => !w.2.isNan) = true ∧ activeList (masked 0) Zk = [] ∧
    (([] : List (Nat × FV)).Perm (activeList (masked 0) Zk)) ∧ ([] : List (Nat × FV)).Pairwise ranksBefore := by
  refine ⟨by decide +kernel, by decide +kernel, by decide +kernel, ?_, List.Pairwise.nil⟩
  rw [show activeList (masked 0) Zk = [] from by decide +kernel]

theorem witness_Permutes : ∃ s1 s2, Runs .vector Zs (on .v false) (fun s0 u => readA Zs s0 = .ok (0, s1) ∧ readB Zs s1 = .ok (0, s2) ∧ u = s2) ∧
    ∃ s3 s4, Meets .vector { Zs with d := .m 0, a := .v 0 } (on .v false) (fun s0 => readB { Zs with d := .m 0, a := .v 0 } s0 = .ok (0, s3) ∧
      writeOpd (.m 0) 0 s3 = .ok ((), s4)) :=
  ⟨_, _, ⟨_, _, _, ⟨rfl, rfl, rfl, by decide, by decide, by decide⟩, ⟨rfl, rfl, rfl⟩, ends rfl rfl⟩, _, _, _, ⟨rfl, rfl, rfl, by decide, by decide, by decide⟩, rfl, rfl⟩

/-- No active lane, and one lane of the tile's LM. -/
def Zg : Ops := { Zs with mod := 16 }

theorem witness_VectorLoads : ∃ s1 s2, Meets .vector Zg (actR .v atLm) (fun s0 => readA Zg s0 = .ok (lm0, s1) ∧ readB Zg s1 = .ok (0, s2)) ∧
    onLanes s2 Zg = [] ∧ vecWin Zg lm0 = false ∧ vecWin Zg 0xF800000000000000 = true ∧
    (∃ p u, loadLane Zg lm0 rne 0 s2 = .ok (p, u)) ∧ (∃ f u, storeLane Zg lm0 rne 0 0 s2 = .ok (f, u)) ∧
    (∃ bs u, vecBytes Zg lm0 0 8 s2 = .ok (bs, u)) ∧ ∃ u, vecPut Zg lm0 0 (List.replicate 8 0) s2 = .ok ((), u) :=
  ⟨_, _, ⟨_, ⟨rfl, rfl, rfl, by decide, by decide, by decide⟩, rfl, rfl⟩, by decide +kernel, rfl, rfl, exists_ok (by decide +kernel), exists_ok (by decide +kernel),
    exists_ok (by decide +kernel), exists_ok_unit (by decide +kernel)⟩

/-- The last element of AB. -/
theorem witness_VectorElements : bufBad 0x2007FFFC = false ∧ bufNo 0x2007FFFC = 2 ∧ (bufOfs 0x2007FFFC : Int) + 0 = (0x7FFFC : Nat) ∧
    0x7FFFC + 4 ≤ bufSize 2 ∧ 4 ∣ 2 ^ 20 ∧ 0x7FFFC % 4 = 0 ∧ (∀ sl ∈ slabsOf 2 0x7FFFC 4, ((on .v false).tile 0).slabEngine sl.1 sl.2 = false) ∧
    Zv.mod.getLsbD 3 = false ∧ { Zv with mod := 8 }.mod.getLsbD 3 = true := by decide

theorem witness_Blocks : ∃ s1 s2 cb s3, Meets .vector Zs (actR .v atLm) (fun s0 => readA Zs s0 = .ok (lm0, s1) ∧ readB Zs s1 = .ok (0, s2) ∧
    blockBook Zs s2 = .ok (cb, s3)) ∧ Zs.imm.toNat % 8 < 4 ∧ 4 ≤ { Zs with imm := 5 }.imm.toNat % 8 ∧ Zs.fmt.toNat < 3 :=
  ⟨_, _, _, _, ⟨_, ⟨rfl, rfl, rfl, by decide, by decide, by decide⟩, rfl, rfl, rfl⟩, by decide, by decide, by decide⟩

/-- A block written and read at the start of LM. -/
theorem witness_Blocks_memory : let s := withChunk (on .v false) 0
    (∃ u, BytesStore Zs (blockPuts 5 lm0 lm0 0 [0] 0) s u) ∧ ∃ v u, readBlock Zs [] lm0 lm0 0 s = .ok (v, u) :=
  ⟨⟨_, _, rfl, _, rfl, rfl⟩, exists_ok (by decide +kernel)⟩

/-! ### The matrix array -/

/-- A job whose table at 0 maps the first GiB of its addresses to the first GiB of HBM, under key slot 0. -/
def job2 : Job :=
  { jid := 2, ctx := 0, pri := 0, vf := 0, pf := true, root := 0, saveb := 0, ksbase := 0, kscnt := 1, domain := 0, jrec := 0, plan := none,
    planAt := 0, planDue := [], cancelled := false, closing := false, state := 1, cause := 0, apt := [] }

def slot0 : KeySlot := { ctx := 0, load := 1, closing := false, session := 0 }

/-- A core of that job's watch. -/
def mapped (k : CoreK) (priv : Bool) : State :=
  let s := launched (on k priv) launch1
  { s with
    jobs := [job2]
    mem := [(1, 1), (7, 0x80), (0x10003, 0x30), (0x10004, 3), (0x10007, 0xC0)]
    rsc := { s.rsc with slots := [(0, slot0)] } }

/-- The same, with the translation of its table in the tile's cache. -/
def cached (k : CoreK) : State := (withChunk (mapped k true) 0).updTile 0 (fun x => { x with
  tlb := [{ ctx := 0, page := 0, log := 30, leaf := 0xC000000330000000 }] })

/-- Operands of a matrix instruction on block 15. -/
def Za15 : Ops := X 3 (.a 15) .zero .zero .zero 0 0

theorem witness_Matrix_load : ∃ s1 s2 s3 s4, Runs .array Z (on .m false) (fun s0 u => readA Z s0 = .ok (0, s1) ∧ readB Z s1 = .ok (0, s2) ∧
    readC Z s2 = .ok (0, s3) ∧ shapeClean 0 0xFFFF01FF007F = true ∧ pitchOk 0 0 = true ∧
    checkRanges [{ a := 0, n := 0, kind := 3, buf := 1 }] s3 = .ok ((), s4) ∧ u = s4) :=
  ⟨_, _, _, _, _, _, _, ⟨rfl, rfl, rfl, by decide, by decide, by decide⟩, ⟨rfl, rfl, rfl, rfl, rfl, rfl, rfl⟩, ends rfl rfl⟩

/-- A gang instruction of a gang of one, of a larger gang, and of a join in each state. -/
def ganged (j : Option Nat) (size : Nat) : State :=
  let s := on .m false
  s.setMe { s.me with gsize := size, join := j.map (fun v => { key := [], since := 0, op := matOp s .gang Z 0 0 0, verdict := v }) }

theorem witness_Gang_one : ∃ s0, Issues (gangEntry .mma) Za15 (ganged none 1) s0 ∧ gangRow (.mma Za15) = some (.mma, Za15, prepMma Za15 false) ∧
    s0.me.join = none ∧ s0.me.gsize ≤ 1 ∧ ∃ p u, prepMma Za15 false s0 = .ok (p, u) :=
  ⟨_, ⟨rfl, rfl, rfl, by decide, by decide, by decide⟩, rfl, rfl, by decide, exists_ok (by decide +kernel)⟩

/-- An adapter-pointer table at the start of AB, in a slab of the engines. -/
def Zt0 : Ops := { Za15 with c := .o 0 }

def tabled : State :=
  let s := (ganged none 16).updTile 0 (fun x => { x with owner := [(512, true)] })
  s.setMe { s.me with regs := { s.me.regs with o := [(0, 0x20000000)] } }

theorem witness_Gang_more : ∃ s0, Issues (gangEntry .mmg) Zt0 tabled s0 ∧ gangRow (.mmg Zt0) = some (.mmg, Zt0, prepMmg Zt0 false) ∧
    1 < s0.me.gsize ∧ s0.me.join = none ∧ ∃ p u, prepMmg Zt0 false s0 = .ok (p, u) :=
  ⟨_, ⟨rfl, rfl, rfl, by decide, by decide, by decide⟩, rfl, by decide, rfl, exists_ok (by decide +kernel)⟩

theorem witness_Gang_join : ∃ s1 s2 s3, ∀ v, v ∈ [0, 2, 3] → (∃ j, (ganged (some v) 2).me.join = some j ∧ j.verdict = v) ∧
    Meets (gangEntry .mma) Za15 (ganged (some 1) 2) (fun s0 => (∃ j, s0.me.join = some j ∧ j.verdict = 1) ∧
      readA Za15 s0 = .ok (0, s1) ∧ readB Za15 s1 = .ok (0, s2) ∧ readC Za15 s2 = .ok (0, s3)) :=
  ⟨_, _, _, fun _ _ => ⟨⟨_, rfl, rfl⟩, _, ⟨rfl, rfl, rfl, by decide, by decide, by decide⟩, ⟨_, rfl, rfl⟩, rfl, rfl, rfl⟩⟩

theorem witness_Mgang : ∃ u, Meets (gangEntry .gang) Z (ganged none 1) (fun s0 => s0.me.join = none ∧
    s0.me.gsize ≤ 1 ∧ writeOpd Z.d (s0.setMe { s0.me with tmo := 0 }).me.cgang (s0.setMe { s0.me with tmo := 0 }) = .ok ((), u)) :=
  ⟨_, _, ⟨rfl, rfl, rfl, by decide, by decide, by decide⟩, rfl, by decide, rfl⟩

theorem witness_Matrix_clear : Meets .array Za15 (on .m false) (fun s0 => BlocksPass s0 [15] true true ∧
    (∀ k, k ∈ [15] → accSh ((s0.tile s0.curTile).block k) = false)) :=
  ⟨_, ⟨rfl, rfl, rfl, by decide, by decide, by decide⟩, by unfold BlocksPass; intro k hk; cases List.mem_singleton.mp hk; exact ⟨by decide, rfl, fun _ => rfl, fun _ => .inl rfl⟩,
    fun k hk => by cases List.mem_singleton.mp hk; rfl⟩

theorem witness_Matrix_drain : ∃ s1 s2 u, Meets .array Za15 (on .m false) (fun s0 => readA Za15 s0 = .ok (0, s1) ∧ readB Za15 s1 = .ok (0, s2) ∧
    BlocksPass s2 (regionOf 15 0) true true ∧ shapeClean 0 0xFFFF007F01FF = true ∧ pitchOk 0 0 = true ∧
    checkRanges [{ a := 0, n := 0, kind := 4, buf := 2 }] s2 = .ok ((), u)) :=
  ⟨_, _, _, _, ⟨rfl, rfl, rfl, by decide, by decide, by decide⟩, rfl, rfl, fun k hk => by
    rw [show regionOf 15 0 = [15] from by decide] at hk; cases List.mem_singleton.mp hk
    exact ⟨by decide, rfl, fun _ => rfl, fun _ => .inl rfl⟩, rfl, rfl, rfl⟩

theorem witness_Matrix_vector : ∃ s1 s2 s3 u, Meets .array { Za15 with mod := 3 } (on .m false) (fun s0 =>
    readA { Za15 with mod := 3 } s0 = .ok (0, s1) ∧ readB { Za15 with mod := 3 } s1 = .ok (0, s2) ∧ readC { Za15 with mod := 3 } s2 = .ok (0, s3) ∧
    productRules (s3.tile 0) false (regionOf 15 0) [] 2 = false ∧ checkRanges [{ a := 0, n := 0, kind := 3, buf := 2 }] s3 = .ok ((), u)) ∧
    ∃ p v, mapGlobal (accOf 3 false 0) { (on .m false).myXReq false with mmv := true } none 0 0 (on .m false) = .ok (p, v) :=
  ⟨_, _, _, _, ⟨_, ⟨rfl, rfl, rfl, by decide, by decide, by decide⟩, rfl, rfl, rfl, rfl, rfl⟩, exists_ok (by decide +kernel)⟩

theorem witness_Matrix_state : ∃ s1, Meets { Entry.array with engine := false } (X 0 (.m 0) (.a 15) .prv .prv 0 0) (on .m false) (fun s0 =>
    (s0.tile 0).mq.all (fun m => !m.touches.contains 15) = true ∧ writeOpd (.m 0) 0 s0 = .ok ((), s1)) :=
  ⟨_, _, ⟨rfl, rfl, rfl, by decide, by decide, by decide⟩, rfl, rfl⟩

/-- MSPILL and MFILL: records in the job's memory, at 0x20000 and 0x24000. -/
theorem witness_Matrix_spill : (∃ s1, Meets { Entry.array with priv := true } Za15 (mapped .m true) (fun s0 => readA Za15 s0 = .ok (0, s1))) ∧
    (∃ v u, recordAddr 4 true [(0x20000, 16384, 256), (0x24000, 8, 8)] (withChunk (mapped .m true) 0) = .ok (v, u)) ∧
    (∃ p u, mapGlobal (accOf 4 true 0x20000) ((mapped .m true).myXReq true) none 0x20000 16384 (withChunk (mapped .m true) 0) = .ok (p, u)) ∧
    (∃ bs u, readGlob (accOf 3 false 0x24000) 0x24000 8 (cached .m) = .ok (bs, u)) :=
  ⟨⟨_, _, ⟨rfl, rfl, rfl, by decide, by decide, by decide⟩, rfl⟩, exists_ok (by decide +kernel), exists_ok (by decide +kernel), exists_ok (by decide +kernel)⟩

theorem witness_Matrix_blocks : ([16] : List Nat).find? (fun k => decide (15 < k)) = some 16 ∧ (∀ j, j ∈ [15] → j ≤ 15) ∧
    [15].find? (fun k => ((on .m false).setMe { (on .m false).me with regs := { regsOf false with pblk := 0x8000 } } |>.tile 0).parked.testBit k) =
      some 15 := ⟨rfl, by decide, by decide +kernel⟩

/-- An operation of the array on block 15. -/
def op1 (kind : MKind) : MOp := { matOp (on .m false) kind Za15 0 0 0 with blocks := [15], writes := [15], sts := [0] }

theorem witness_Matrix_claims : (op1 .mma).red = false ∧ (op1 .mma).blocks = [15] ∧ (op1 .fill).sts = [0] ∧ (op1 .clr).kind = .clr ∧
    (op1 .spill).kind = .spill ∧ accR 0 = false := ⟨rfl, rfl, rfl, rfl, rfl, rfl⟩

/-- A product of depth 32 on the last block. -/
def opA : MOp := { op1 .mma with b := word (32 * 2 ^ 16 + 64), nb := 64 }

theorem witness_Matrix_work : [((1 : Int), (2 : Int))].length < 2 ∧ (List.replicate 32 (MVal.fin 0 0, MVal.fin 0 0)).length = 32 ∧
    (on .m false).Form ∧ opA.kind = .mma ∧ opA.red = false ∧ (shapeK opA.b ≠ 0 ∨ opA.x.mod.getLsbD 0 = true) ∧ opA.nb ≤ 64 ∧
    (op1 .ldb).kind = .ldb ∧ (op1 .clr).blocks = [15] ∧ (op1 .drain).kind = .drain ∧
    drainCols (op1 .drain) * (drainType 3).2 ≤ 0 ∧ bufOfs 0 + drainRows (op1 .drain) * 0 ≤ 0x80000 ∧ drainCols (op1 .drain) ≤ 64 ∧
    (op1 .drain).blocks.headD 0 + drainRows (op1 .drain) / 64 < 16 :=
  ⟨by decide, rfl, rfl, rfl, rfl, .inl (by decide), by decide, rfl, rfl, rfl, by decide, by decide, by decide, by decide⟩

/-- A product's region, and that it reads no accumulator for A. -/
theorem witness_Matrix_product : let m := { op1 .mma with blocks := [14], writes := [14], b := word 64 }
    m.blocks = regionOf (m.blocks.headD 0) (shapeRows m.b) ∧ m.blocks.headD 0 + shapeRows m.b / 64 < 16 := by decide

theorem witness_Matrix_aRow : let m := { op1 .mma with b := 0, x := { Za15 with mod := 1 } }
    ∀ i u, AgreeOffAs 0 (on .m false) u → u.aRow m m.c.toNat i = (on .m false).aRow m m.c.toNat i := by
  intro m i u _
  have h : shapeK m.b = 0 := by change shapeK (0 : Word) = 0; decide
  simp only [State.aRow, h, List.range_zero, List.map_nil]

/-- An operation in the array's queue, to be completed. -/
def queued (m : MOp) : State := (on .m false).updTile 0 (fun x => { x with mq := [m] })

theorem witness_MatrixEvents : ((queued { op1 .mma with rd := true }).tile 0).mq = [{ op1 .mma with rd := true }] ∧
    ((op1 .mma).kind ≠ .drain ∧ (op1 .mma).kind ≠ .spill ∧ (op1 .mma).kind ≠ .fill) ∧
    ((queued (op1 .drain)).tile 0).mq = [op1 .drain] ∧ (op1 .drain).rd = false ∧ (queued (op1 .drain)).badRead (op1 .drain) = none ∧
    (queued (op1 .drain)).mismatch 0 (op1 .drain) = none ∧ ((on .m false).tile 0).mq = [] ∧ (on .m false).rsc.slots = [] :=
  ⟨rfl, by decide, rfl, rfl, rfl, rfl, rfl, rfl⟩

/-- A redundant block that differs from its shadow. -/
def opR : MOp := { op1 .drain with blocks := [0], writes := [0], sts := [0x0800], b := word 0x00010001 }

theorem witness_Matrix_mismatch : let s := { queued opR with mem := [(asKey 0 0 0 0, 1)] }
    (s.tile 0).mq = [opR] ∧ opR.kind = .drain ∧ s.mismatch 0 opR = some 0x30000000 := ⟨rfl, rfl, by decide +kernel⟩

theorem witness_Gang_timeout : let s := { (ganged (some 0) 2) with cycle := 1024 }
    let t := s.setMe { s.me with tmo := 1 }
    ∃ j, (t.core 0 .m).join = some j ∧ j.verdict = 0 ∧ (t.core 0 .m).tmo ≠ 0 ∧ j.since + (t.core 0 .m).tmo * 1024 ≤ t.cycle :=
  ⟨_, rfl, rfl, by decide, by decide⟩

/-! ### The medium and the stochastic engine -/

/-- A descriptor of INT mode of one writer and no element, whose record lies at the start of AB (MODE 0, W 8, RT 3, WSET 1), as it stands
at the start of LM. -/
def desc0 : List Word := [word (8 * 2 ^ 50 + 3 * 2 ^ 47 + 1), 0, word 0x2000000020000000, word 0x20000000]

/-- A port of two members. -/
def port1 (sec : Bool) (q : List Exch) : Port := { Port.init with en := true, sec := sec, nros := 2, limit := 2, epoch := 1, queue := q }

/-- Core C with AB slab 0 of the engines, that port, and operand o0 at the start of LM. -/
def seg (sec priv : Bool) (q : List Exch) : State :=
  let s := (mapped .c priv).updTile 0 (fun x => { x with owner := [(512, true)] })
  let s := s.setMe { s.me with regs := { s.me.regs with o := [(0, lm0)] } }
  { s with ports := [(0, port1 sec q)] }

def Ze : Ops := X 0 (.m 0) (.o 0) .prv .prv 0 0

theorem witness_Exchange_faults : ∃ s1, Meets { Entry.medium with engine := true } Ze (seg false false []) (fun s0 => readA Ze s0 = .ok (lm0, s1)) ∧
    (∃ bs s2, readLocal lm0 32 s1 = .ok (bs, s2)) ∧ (∃ f, descFaults 0x1CC [word (3 * 2 ^ 47 + 1), 0, 0, 0] = [f]) ∧
    descFaults 0x1CC desc0 = [] ∧ ((on .c false).port false).en = false :=
  ⟨_, ⟨_, ⟨rfl, rfl, rfl, by decide, by decide, by decide⟩, rfl⟩, exists_ok (by decide +kernel), ⟨_, rfl⟩, rfl, rfl⟩

theorem witness_Exchange_passes : let p := port1 false []
    p.en = true ∧ popCount 32 (dWset desc0) ≤ p.limit ∧ dWset desc0 < 2 ^ p.nros ∧ (dTrk desc0 = true → False) ∧ p.sec = false ∧
    (port1 true []).sec = true ∧ dMode desc0 ≠ 5 ∧ p.queue.length < 32 ∧ rangesClash (descRanges desc0 ((dWset desc0).testBit p.myix)) = false ∧
    ∃ u, checkRanges (descRanges desc0 ((dWset desc0).testBit p.myix)) (withChunk (seg false false []) 0) = .ok ((), u) :=
  ⟨rfl, by decide, by decide, by decide, rfl, rfl, by decide, by decide, by decide +kernel, exists_ok_unit (by decide +kernel)⟩

/-- Keys of the current epoch. -/
def keyed : State :=
  let s := seg true true []
  { s with ports := [(0, { port1 true [] with key := some { gen := 0, mask := 0, check := 0, epoch := 1 } })] }

theorem witness_Exchange_secured : ∃ k, (keyed.port false).key = some k ∧ k.epoch = (keyed.port false).epoch ∧ keyed.keyLapsed k = false :=
  ⟨_, rfl, rfl, rfl⟩

/-- An exchange and a barrier in the port's queue. -/
def exch1 (barr : Bool) : Exch :=
  { id := 0, t := 0, barr := barr, noPeriod := false, desc := desc0, sem := 0, sinc := 0, held := [], hist := [], next := 0, passed := 0, fails := [],
    replays := 0, lastP := 0, armed := false, nums := [], al := [], trunkOf := none, trunkSt := 0, trunk := [] }

theorem witness_Barrier : ∃ s1, Meets { Entry.medium with engine := true } Ze (seg false false []) (fun s0 => (s0.port false).en = true ∧
    (s0.port false).queue.length < 32) ∧ Meets { Entry.medium with before := true } Ze (seg false false []) (fun s0 =>
      (s0.port false).ofTile 0 = []) ∧ Meets { Entry.medium with before := true } Ze (seg false false [exch1 false]) (fun s0 =>
      (s0.port false).ofTile 0 ≠ []) ∧ Meets .medium Ze (seg false false []) (fun s0 => writeOpd Ze.d 0 s0 = .ok ((), s1)) :=
  ⟨_, ⟨_, ⟨rfl, rfl, rfl, by decide, by decide, by decide⟩, rfl, by decide⟩, ⟨_, ⟨rfl, rfl, rfl, by decide, by decide, by decide⟩, rfl⟩,
    ⟨_, ⟨rfl, rfl, rfl, by decide, by decide, by decide⟩, fun h => (nomatch h)⟩, _, ⟨rfl, rfl, rfl, by decide, by decide, by decide⟩, rfl⟩

theorem witness_BeginCheck : let s := withChunk (seg false false []) 0
    (0x20000000 : Word).toNat % 16 = 0 ∧ s.poison = [] ∧
    ∃ u, checkRanges [{ a := 0x20000000, n := 16, kind := 3, buf := 2 }] (withChunk (seg false false []) 0) = .ok ((), u) :=
  ⟨rfl, rfl, exists_ok_unit (by decide +kernel)⟩

theorem witness_PortKeys : ∃ s1, Meets .portKey Ze (seg true true []) (fun s0 => readA Ze s0 = .ok (lm0, s1) ∧ (s1.port false).en = true ∧
    (s1.port false).sec = true ∧ (s1.port false).pkey = none ∧ s1.handleKey (lm0.toNat % 2 ^ 32) false 2 = none ∧
    (s1.port false).enrol = none ∧ (s0.port false).queue.any (fun e => decide (e.id < s0.nextExch)) = false) ∧
    (seg false true []).port false = port1 false [] ∧
    ({ port1 true [] with pkey := some { gen := 0, mask := 0, check := 0, epoch := 2 } } : Port).pkey.isSome = true ∧
    (∃ bs u, readLocal lm0 64 (withChunk (seg true true []) 0) = .ok (bs, u)) ∧ enrolBad false (List.replicate 8 0) = true :=
  ⟨_, ⟨_, ⟨rfl, rfl, rfl, by decide, by decide, by decide⟩, rfl, rfl, rfl, rfl, rfl, rfl, rfl⟩, rfl, rfl, exists_ok (by decide +kernel), rfl⟩

/-- Three writers of a 4-bit value, as a sum and as bits. -/
def pass4 (kind : PassKind) : Pass := { kind := kind, w := 4, sgn := true, e := 256, n := 1, cl := 0, down := false, writers := 3 }

/-- An exchange that has read the light of values −8, 7 and 7 in its first period. -/
def lit (k : Nat → Nat) : Exch := { exch1 false with hist := [(0, (List.range 4).map (fun j => (k j, lightAt 4 [-8, 7, 7] j)))] }

theorem witness_MediumAdds : (pass4 .sum).kind = .sum ∧ (pass4 .sum).cl = 0 ∧ 0 < (pass4 .sum).w ∧
    (∀ j, j < 4 → (lit id).plane (pass4 .sum) 0 0 j = lightAt 4 [-8, 7, 7] j) ∧
    (∀ v, v ∈ [(-8 : Int), 7, 7] → -(2 ^ (4 - 1)) ≤ v ∧ v < 2 ^ (4 - 1)) ∧ (pass4 .bits).kind = .bits ∧ (pass4 .bits).down = false ∧
    (pass4 .bits).writers = [(-8 : Int), 7, 7].length ∧ (∀ j, j < 4 → (lit id).plane (pass4 .bits) 0 0 j = lightAt 4 [-8, 7, 7] j) := by
  decide +kernel

/-- R154: their sum. -/
theorem test_medium_sum : (lit id).valueOf (pass4 .sum) 0 0 false = 6 := by decide +kernel

/-- A frame of no light, and a port that enrols. -/
def frame0 : Frame :=
  { p := 0, sig := 0, epoch := 1, abortMiscount := false, abortRoster := false, armed1 := 0, armed2 := 0, rekey1 := 0, rekey2 := 0, reject := 0,
    overlit := false, armedOver := false, marksOk := true, counts := [] }

def enrolling : State := { seg false false [] with ports := [(0, { Port.init with enrol := some (0, List.replicate 8 0, none) })] }

theorem witness_MediumFrames : (State.reset.port false).enrol = none ∧ (State.reset.port false).en = false ∧
    State.reset.gtc % 65 = 0 ∧ (State.reset.port false).frameAt ≠ some State.reset.gtc ∧
    ({ State.reset with gtc0 := 1 } : State).gtc % 65 ≠ 0 ∧ (seg false false []).gtc % 65 = 0 ∧ ((seg false false []).port false).frameAt = none ∧
    enrolling.gtc % 65 = 0 ∧ (enrolling.port false).frameAt = none ∧
    (enrolling.port false).enrol = some (0, List.replicate 8 0, none) ∧ ((seg false false []).port false).st ≠ 4 := by
  decide +kernel

/-- An enrolled port with nothing to send, in a frame of no light: it is not ready to rekey, and it does not stop. -/
theorem witness_MediumFrames_enrolled : let s := seg false false []
    let v := (s.setPort false { s.port false with frameAt := some s.gtc, lit := Lit.dark }).rearm false
    let p := (v.port false).makeReady
    p.ready = false ∧ (((v.setPort false { p with lit := p.light (v.trunkLim false) }).judge false frame0).port false).st ≠ 4 := by
  decide +kernel

/-- A port of two members without a launch, its one exchange armed, and a frame in which both members' armed slots are lit. -/
def sending : State := { State.reset with ports := [(0, port1 false [{ exch1 false with armed := true }])] }

theorem witness_MediumFrames_sends : let f := { frame0 with armed1 := 3, armed2 := 3 }
    let e := { exch1 false with armed := true }
    (sending.port false).cur (sending.trunkLim false) = some e ∧
    (e.armed && e.sendable (sending.port false) && (sending.port false).pilotFull f) = true ∧ smFind e.nums e.next = none ∧
    (sending.port false).sec = false ∧ sending.badBytes (e.reads (sending.port false)) = none ∧ sending.launchOn e.t = none ∧
    (sending.port false).myix < 32 := by decide +kernel

theorem witness_MediumCompletes : ((seg false false [exch1 true]).port false).queue = [exch1 true] ∧ (exch1 true).noPeriod = false ∧
    (exch1 true).trunkOf = none ∧ ((seg false false [exch1 false]).port false).queue = [exch1 false] ∧ dMode (exch1 false).desc ≠ 1 ∧
    ((on .c false).port false).queue = [] := by decide +kernel

/-- Its one period has passed. -/
theorem witness_MediumCompletes_passed : let s := seg false false [{ exch1 false with passed := 1 }]
    ({ exch1 false with passed := 1 } : Exch).total (s.port false) (s.trunkLim false) ≤ 1 := by decide +kernel

theorem witness_Stochastic_generate : ∃ s1, Meets .stoch { Z with d := .z 7, mod := 8 } (on .s false) (fun s0 =>
    readA { Z with d := .z 7, mod := 8 } s0 = .ok (0, s1) ∧ ({ Z with mod := 8 } : Ops).mod.getLsbD 3 = true) ∧
    ∃ p u, zBuf 0x20000000 2 2 false (withChunk (on .s false) 0) = .ok (p, u) ∧
      ∃ bs v, readPlace p.1 p.2 128 (withChunk (on .s false) 0) = .ok (bs, v) := by
  obtain ⟨p, u, h⟩ := exists_ok (r := zBuf 0x20000000 2 2 false (withChunk (on .s false) 0)) (by decide +kernel)
  refine ⟨_, ⟨_, ⟨rfl, rfl, rfl, by decide, by decide, by decide⟩, rfl, rfl⟩, p, u, h, ?_⟩
  have : (zBuf 0x20000000 2 2 false (withChunk (on .s false) 0)).toOption.map (·.1) =
      some ({ kind := 3, write := false, addr := 0x20000000, space := 15 }, .mem (tileKey 0 2 0) 0 false) := by decide +kernel
  rw [h] at this
  cases this
  exact exists_ok (by decide +kernel)

/-- Streams of two classes and of one, of equal and of unlike lengths. -/
def zs (czst : Word) : State := actR .s { regsOf false with czst := czst }

def Zz : Ops := X 0 (.z 0) (.z 1) (.z 2) .prv 0 0

theorem witness_Stochastic_combine : Meets .stoch Zz (zs 0) (fun s0 => ∀ n, n < 2 → s0.me.regs.zLc ((zNos Zz.a ++ zNos Zz.b).getD n 0) = s0.me.regs.zLc 1) ∧
    zNos Zz.a ++ zNos Zz.b ++ zNos Zz.c = [1, 2] ∧ (zs 0).me.regs.zClass 1 = (zs 0).me.regs.zClass 2 :=
  ⟨⟨_, ⟨rfl, rfl, rfl, by decide, by decide, by decide⟩, by intro n h; match n, h with | 0, _ => rfl | 1, _ => rfl⟩, rfl, rfl⟩

/-- Unlike classes: CZST as WRC cannot set it, but ZGEN can. -/
theorem witness_Stochastic_classes : (((zs 0).me.regs.setZ 2 5 0).zClass 1 ≠ ((zs 0).me.regs.setZ 2 5 0).zClass 2) ∧
    (((zs 0).me.regs.setZ 2 5 1).zLc 1 ≠ ((zs 0).me.regs.setZ 2 5 1).zLc 2) := by decide

theorem witness_Stochastic_core : ∃ s1 s2, Runs .stochCore { Zz with b := .zero, d := .m 0 } (zs 0) (fun s0 u => (s0.tile 0).zq = [] ∧
    readB { Zz with b := .zero, d := .m 0 } s0 = .ok (0, s1) ∧ writeOpd (.m 0) 0 s1 = .ok ((), s2) ∧ u = s2) ∧
    Meets .stochCore Zz ((zs 0).updTile 0 (fun x => { x with zq := [{ kind := .not, x := Zz, qs := [], lc := 0, cls := 0 }] })) (fun s0 =>
      (s0.tile 0).zq.any (fun z => z.regs.contains 1) = true) :=
  ⟨_, _, ⟨_, _, _, ⟨rfl, rfl, rfl, by decide, by decide, by decide⟩, ⟨rfl, rfl, rfl, rfl⟩, ends rfl rfl⟩, _, ⟨rfl, rfl, rfl, by decide, by decide, by decide⟩, rfl⟩

/-- R350: 16 of 64 in class 1, as the worked example of 13 gives it. -/
theorem test_stream_of_class_one : zStream 16 1 64 = 0xC060301C0E030180 := by decide +kernel

/-! ### The system instructions, events of cores and tiles -/

theorem witness_ControlRegisters : ∃ s1 s2, Runs (.alu 0) Z (on .c true) (fun s0 u => s0.me.regs.priv = true ∧
    writeOpd Z.d (s0.readCr s0.curTile s0.curCore 0) s0 = .ok ((), s1) ∧ u = s1) ∧
    Meets (.alu 0) { Z with imm := 0x10 } (on .c false) (fun s0 => s0.me.regs.priv = false ∧ hiddenCr 0x10 = true ∧ hiddenCr 0x0C = false ∧
      hiddenCr 0x11 = false) ∧
    Meets .ends Z (on .m true) (fun s0 => readA Z s0 = .ok (0, s2) ∧ (crWritten 0x00 0 s2.me.regs).isSome = true ∧
      (privWritten 0x17 s2.curCore 0 s2.me.regs).isSome = true ∧ (privWritten 0x0A s2.curCore 1024 s2.me.regs).isSome = true ∧
      (privWritten 0x0A s2.curCore 0x100000 s2.me.regs).isSome = true ∧ privWritten 0x0A s2.curCore 0x100001 s2.me.regs = none) ∧
    5 < Word.bits (6 : Word) 0 3 ∧ Word.bits (5 : Word) 0 3 ≤ 5 :=
  ⟨_, _, ⟨_, _, _, ⟨rfl, rfl, rfl, by decide, by decide, by decide⟩, ⟨rfl, rfl, rfl⟩, ends rfl rfl⟩, ⟨_, ⟨rfl, rfl, rfl, by decide, by decide, by decide⟩, rfl, rfl, rfl, rfl⟩,
    ⟨_, ⟨rfl, rfl, rfl, by decide, by decide, by decide⟩, rfl, rfl, rfl, rfl, rfl, rfl⟩, by decide, by decide⟩

/-- The parked block field and the return area: writes that pass and that do not. -/
theorem witness_ControlRegisters_spill : (∀ k, k ≠ CoreK.c → (((on .c true).tile 0).core k).regs.pblk.toNat &&& 0x8000 = 0) ∧
    (∀ k, k < 16 → (0x8000 : Nat).testBit k = true → accTag (((on .c true).tile 0).block k) = 0) ∧ (on .c true).me.regs.depth = 0 ∧
    ({ (on .c true).me.regs with depth := 1 } : Regs).depth ≠ 0 ∧ (on .c true).me.regs.rcnt = 0 ∧
    (on .c true).me.regs.sptr = (on .c true).me.regs.sbase ∧ Word.bits (word (0x7FFFFF8 * 2 ^ 32)) 32 32 = 0x7FFFFF8 ∧
    0x7FFFFF8 % 8 = 0 ∧ 0x7FFFFF8 < Word.bits (word (0x7FFFFF9 * 2 ^ 32)) 32 32 :=
  ⟨fun k _ => by cases k <;> decide +kernel, by decide +kernel⟩

theorem witness_TrapretAndContext : Meets { Entry.jump with priv := true, after := true } Z (on .c true) (fun s0 =>
      ipOk (word s0.me.regs.ctpc.toNat) = true) ∧
    Meets { Entry.jump with priv := true, after := true } Z (actR .c { regsOf true with ctpc := 5 }) (fun s0 =>
      ipOk (word s0.me.regs.ctpc.toNat) = false) ∧ Meets .context Z (on .c true) (fun s0 => s0.poison = []) :=
  ⟨⟨_, ⟨rfl, rfl, rfl, by decide, by decide, by decide⟩, rfl⟩, ⟨_, ⟨rfl, rfl, rfl, by decide, by decide, by decide⟩, rfl⟩, _, ⟨rfl, rfl, rfl, by decide, by decide, by decide⟩, rfl⟩

theorem witness_Translations : ∃ s1 s2, Meets { Entry.ends with cores := .c, priv := true } Z (on .c true) (fun s0 => readA Z s0 = .ok (0, s1) ∧ topByte 0 = 0) ∧
    Meets { Entry.ends with cores := .c, priv := true } Ze (actR .c { atLm with priv := true }) (fun s0 => readA Ze s0 = .ok (lm0, s2) ∧ topByte lm0 ≠ 0) ∧
    Meets { Entry.ends with cores := .c, priv := true, pf := true } Z (mapped .c true) (fun _ => True) :=
  ⟨_, _, ⟨_, ⟨rfl, rfl, rfl, by decide, by decide, by decide⟩, rfl, rfl⟩, ⟨_, ⟨rfl, rfl, rfl, by decide, by decide, by decide⟩, rfl, by decide⟩, _, ⟨rfl, rfl, rfl, by decide, by decide, by decide⟩, trivial⟩

theorem witness_Apertures : ∃ s1 s2 s3, Meets { Entry.ends with priv := true } Zm (on .c true) (fun s0 => readA Zm s0 = .ok (0, s1) ∧
    readOpd Zm (pairNext Zm.a) s1 = .ok (0, s2) ∧ (apertureBad 0 = false ∨ apertureBad 0 = true)) ∧
    Meets .base Zm (on .c false) (fun s0 => writeOpd Zm.d 0 (s0.withRegs (fun r => r.put (pairNext Zm.d) 0)) = .ok ((), s3)) :=
  ⟨_, _, _, ⟨_, ⟨rfl, rfl, rfl, by decide, by decide, by decide⟩, rfl, rfl, by decide⟩, _, ⟨rfl, rfl, rfl, by decide, by decide, by decide⟩, rfl⟩

/-- A watch of a phase group, released and not. -/
def grouped (released : Bool) : State :=
  let g : Group := { st := .running, phase := 0, tick := 0, sel := 0, qlast := 0, relAt := 0, start := none, come := false, lastVtn := 0, cancelledPhase := false, slipping := false,
                     sel0 := 0, s0 := none, started := false, gone := [] }
  let s := launched (on .c false) { launch1 with grp := some g }
  s.setMe { s.me with released := released }

theorem witness_Phases : Meets { Entry.ends with own := true, group := true } Z (grouped true) (fun s0 => s0.me.released = true) ∧
    Meets { Entry.ends with own := true, group := true } Z (grouped false) (fun s0 => s0.me.released = false) ∧
    Meets { Entry.ends with group := true } Z (grouped false) (fun _ => True) ∧
    Meets { Entry.cancels with group := true } Z (grouped false) (fun s0 => s0.launchOn s0.curTile = some 1) :=
  ⟨⟨_, ⟨rfl, rfl, rfl, by decide, by decide, by decide⟩, rfl⟩, ⟨_, ⟨rfl, rfl, rfl, by decide, by decide, by decide⟩, rfl⟩, ⟨_, ⟨rfl, rfl, rfl, by decide, by decide, by decide⟩, trivial⟩,
    _, ⟨rfl, rfl, rfl, by decide, by decide, by decide⟩, rfl⟩

theorem witness_Cancels : ∃ s1 s2, Runs .cancels Z (on .c false) (fun s0 u => readA Z s0 = .ok (0, s1) ∧ writeOpd Z.d (wordB false) s1 = .ok ((), s2) ∧ u = s2) ∧
    Meets { Entry.cancels with priv := true, pf := true } Z (mapped .c true) (fun _ => True) :=
  ⟨_, _, ⟨_, _, _, ⟨rfl, rfl, rfl, by decide, by decide, by decide⟩, ⟨rfl, rfl, rfl⟩, ends rfl rfl⟩, _, ⟨rfl, rfl, rfl, by decide, by decide, by decide⟩, trivial⟩

theorem witness_Codebook : ∃ s1, Meets .ends Ze (actR .c atLm) (fun s0 => readA Ze s0 = .ok (lm0, s1) ∧ s1.slotBusy s1.curTile 0 = false) ∧
    ∃ bs s2, loadAt 0 32 false lm0 32 s1 = .ok (bs, s2) :=
  ⟨_, ⟨_, ⟨rfl, rfl, rfl, by decide, by decide, by decide⟩, rfl, rfl⟩, exists_ok (by decide +kernel)⟩

/-- A core with an event pending at a boundary. -/
def pended (n : Nat) : State := (on .c false).pendCore 0 .c n (mkTrap Code.semOverflow 0 0 15 0 0)

theorem witness_CoreEvents : itemRow (.busFaultTaken 0) = some (0, .c, 4) ∧ (pended 4).nextItem 0 .c = some 4 ∧ AtBoundary (pended 4) 0 .c ∧
    (on .c false).nextItem 0 .c ≠ some 4 ∧ ((pended 4).core 0 .c).pend.find? (fun p => p.item == 4) =
      some { item := 4, info := mkTrap Code.semOverflow 0 0 15 0 0 } :=
  ⟨rfl, rfl, ⟨rfl, rfl, rfl, rfl⟩, by decide, rfl⟩

theorem witness_CoreEvents_others : let s := (on .c false).setMe { (on .c false).me with cancelled := true, run := .halted }
    (s.core 0 .c).cancelled = true ∧ (s.core 0 .c).run = .halted ∧ ((stored false).core 0 .c).chunk.any (fun h => h.closed) = true ∧
    ((on .c false).core 0 .c).atoms = [] ∧ (∃ a rest, (((on .c false).setMe { (on .c false).me with atoms := [atom1 1] }).core 0 .c).atoms = a :: rest) ∧
    (on .c false).soloPackage = false := ⟨rfl, rfl, rfl, rfl, ⟨_, _, rfl⟩, rfl⟩

/-- Core C waits for two units of the last semaphore, which holds two. -/
theorem witness_SemGrant : let s := ((on .c false).setMe { (on .c false).me with waiting := some (255, 2) }).updTile 0 (fun x => x.setSem 255 2)
    (s.core 0 .c).run = .running ∧ (s.core 0 .c).granted = false ∧ (s.core 0 .c).waiting = some (255, 2) ∧ 2 ≤ (s.tile 0).sem 255 ∧
    (∀ j, j ∈ CoreK.all → j ≠ .c → (s.core 0 j).waiting = none) := by decide +kernel

theorem witness_Overflow : let s := (on .c false).updTile 0 (fun x => { x with semOvf := some { sem := 255, by_ := 0, again := 2 } })
    (s.tile 0).semOvf = some { sem := 255, by_ := 0, again := 2 } ∧ (s.core 0 .c).run ≠ .off := ⟨rfl, by decide⟩

/-- A walk that passes, of a write and at the last page that is mapped. -/
theorem witness_Walk : (mapped .c false).jobs.find? (fun j => j.ctx == 0) = some job2 ∧ (on .c false).jobs.find? (fun j => j.ctx == 0) = none ∧
    ∃ p u, (mapped .c false).translate 0 job2.vfn { root := 0, ctx := 0, priv := false, write := true, mmv := false } 0x3FFFFFFF = .ok (p, u) :=
  ⟨rfl, rfl, exists_ok (by decide +kernel)⟩

/-- R37: the walk sets A and D of a leaf. -/
theorem test_walk_sets_bits : let s := { mapped .c false with mem := [(1, 1), (7, 0x80), (0x10004, 3), (0x10007, 0xC0)] }
    (s.translate 0 none { root := 0, ctx := 0, priv := false, write := true, mmv := false } 0).toOption.map (fun p => p.2.mem) =
      some (mapped .c false).mem := by decide +kernel

/-- A watch that is being saved, and one whose record is written. -/
def saving (st : WatchSt) : State := (mapped .c false).updTile 0 (fun x => { x with watch := some { watch1 with st := st } })

theorem witness_Saves : ((saving .saving).tile 0).watch = some { watch1 with st := .saving } ∧ ((saving .saving).tile 0).draining = false ∧
    ((saving .saving).suspendCopies 0).enginesIdle 0 = true ∧ ((saving .saving).suspendCopies 0).job? 2 = some job2 ∧
    ((saving .written).tile 0).watch = some { watch1 with st := .written } ∧ (saving .written).job? 2 = some job2 ∧
    (saving .written).launch? 1 = some launch1 ∧ ((on .c false).tile 0).watch = none ∧ launch1.cancelled = false :=
  ⟨rfl, rfl, rfl, rfl, rfl, rfl, rfl, rfl, rfl⟩

theorem witness_Restores : State.reset.waits.all (fun w => w.id != 0 || w.gang.isNone) = true ∧ State.reset.launch? 0 = none ∧
    (mapped .c false).launch? 1 = some launch1 ∧ launch1.grp.all (fun g => g.started) = true ∧ (State.reset.tile 0).draining = false :=
  ⟨rfl, rfl, rfl, rfl, rfl⟩

/-! ### Launches, queues, the host, the fabric, trust, command processors -/

/-- A descriptor of one tile, and of 1,024 tiles in gangs of 16 at tile 0. -/
def launchD (gang tiles : Nat) (fixed : Bool) : List Word := word (2 ^ 56 + gang * 2 ^ 46 + fixed.toNat * 2 ^ 45 + tiles * 2 ^ 24) :: List.replicate 15 0

theorem witness_Launches : (mapped .c false).job? 2 = some job2 ∧ (mapped .c false).job? 3 = none ∧ dGang (launchD 16 1024 true) = 16 ∧
    dTiles (launchD 16 1024 true) = 1024 ∧ dTiles (launchD 16 1024 true) % dGang (launchD 16 1024 true) = 0 ∧
    (fitTiles (fun _ => true) (launchD 1 1 false)).isSome = true ∧ State.reset.waits = [] ∧
    (∃ f, State.gBytes { mapped .c false with nextId := 1 } job2 0x40000000 128 = .error f) :=
  ⟨rfl, rfl, by decide, by decide, by decide, by decide +kernel, rfl, _, rfl⟩

/-- A launch that waits for 2 ms, and one more cycle. -/
theorem witness_Aging : let s := { mapped .c false with launches := [{ launch1 with state := 0 }], gtc0 := 2000001 }
    s.launch? 1 = some { launch1 with state := 0 } ∧ ({ launch1 with state := 0 } : Launch).queuedAt + 2000000 < s.gtc := by decide +kernel

/-- A graph run at its first node. -/
def run1 : Run :=
  { id := 5, jid := 2, addr := 0x20000, grec := 0, nnodes := 4096, node := 0, nodesRun := 0, dispatched := 0, launches := [], loops := [], waitL := none,
    state := 1, cause := 0, cancelled := false, plan := false, atLoop := false }

def running : State := { mapped .c false with runs := [run1] }

theorem witness_Graphs : running.run? 5 = some run1 ∧ running.job? 2 = some job2 ∧ run1.state = 1 ∧ run1.cancelled = false ∧ running.vfHeld job2 = false ∧
    running.run? 6 = none ∧ run1.waitL = none ∧ run1.loops = [] ∧ run1.launches.any running.launchRefused = false ∧
    run1.launches.all running.launchOver = true ∧ nodeBad (List.replicate 4 0) = false ∧
    (∃ bs u, running.gBytes job2 ((run1.addr.toNat + 32 + 32 * run1.node) % 2 ^ 56) 32 = .ok (bs, u)) ∧
    ∃ cs v, running.gRead job2 0x20000 64 = .ok (cs, v) :=
  ⟨rfl, rfl, rfl, rfl, rfl, rfl, rfl, rfl, rfl, rfl, by decide, exists_ok (by decide +kernel), exists_ok (by decide +kernel)⟩

/-- A loop, at its last body node with two passes left, and before it. -/
theorem witness_Loops : let f : LoopFr := { node := 0, bend := 4095, left := 2 }
    (4094 ≠ f.bend ∧ 4095 = f.bend ∧ 1 < f.left) := by decide

theorem witness_Ticks : (grouped false).launch? 1 = some ((grouped false).launches.headD launch1) ∧
    ((grouped false).launches.headD launch1).grp.isSome = true ∧ ∀ g, ((grouped false).launches.headD launch1).grp = some g →
      g.start = none ∧ g.st ≠ .late ∧ g.come = false := by
  refine ⟨rfl, rfl, fun g h => ?_⟩
  cases h
  decide

/-- An enabled queue, the last there is, with one packet to fetch, and with it fetched. -/
def queue1 (f : SMap (List Word)) : Queue := { Queue.init with en := true, tail := 1, fetched := f }

def queueing (x : Queue) : State := (mapped .c false).setQueue 1039 x

/-- A NOP packet. -/
def nop8 : List Word := List.replicate 8 0

theorem witness_Queues_registers : (queue1 []).halt = false ∧ (queue1 []).head < 2 ^ 32 ∧ (queue1 []).tail < 2 ^ 32 ∧ (queue1 []).en = true ∧
    Queue.init.en = false ∧ State.reset.frozen 64 = false ∧ (word (2 ^ 63)).getLsbD 63 = true ∧ ({ queue1 [] with halt := true } : Queue).halt = true := by
  decide

theorem witness_Queues_fetch : ((queueing (queue1 [])).queue 1039).en = true ∧ ((queueing (queue1 [])).queue 1039).halt = false ∧
    ((queueing (queue1 [])).queue 1039).inWindow 0 = true ∧ smFind ((queueing (queue1 [])).queue 1039).fetched 0 = none ∧
    ((queueing (queue1 [])).queue 1039).inWindow 1 = false ∧ nop8.length = 8 := by decide +kernel

theorem witness_Queues_start : let s := queueing (queue1 [(0, nop8)])
    s.pickQueue = some 1039 ∧ smFind (s.queue 1039).fetched (s.queue 1039).head = some nop8 ∧ readTwice nop8 0 (some nop8) nop8 ∧ pkBad nop8 = false ∧
    s.startCause 1039 nop8 = none ∧ (s.queue 1039).passed = false ∧ s.mayStart (s.queue 1039) nop8 = true ∧ pkKind nop8 ≠ 1 ∧ State.reset.pickQueue = none :=
  ⟨by decide +kernel, by decide +kernel, .inl ⟨rfl, rfl⟩, by decide +kernel, by decide +kernel, by decide +kernel, by decide +kernel, by decide,
    by decide +kernel⟩

/-- Packets that cannot start: a reserved kind, and a job that is not resident. -/
theorem witness_Queues_refused : pkBad (word (7 * 2 ^ 56) :: List.replicate 7 0) = true ∧
    (let w := word (3 * 2 ^ 56 + 9 * 2 ^ 32) :: List.replicate 7 0
     pkBad w = false ∧ 2 ≤ pkKind w ∧ State.reset.job? (pkJid w) = none) := by decide +kernel

/-- A started packet of each kind, and one whose work is done. -/
def started (kind st : Nat) : Started := { idx := 0, w := [word (kind * 2 ^ 56 + 2 * 2 ^ 32), 0, 2, 0, 0, 0, 0, 0], st := st, run := none }

def working (kind st : Nat) : State := queueing { queue1 [] with active := [started kind st] }

theorem witness_Packets : packetRow (.packetNop 1039) = some (1039, 0) ∧ workOn (working 1 0) 1039 0 = none := by decide +kernel

theorem witness_Packets_started : ∀ k, k < 7 → workOn (working k 0) 1039 k = some (started k 0) := by decide +kernel

theorem witness_Packets_job : (jobOf (working 3 0) (started 3 0)) = some job2 ∧ jobOf (working 6 0) (started 6 0) = some job2 ∧ job2.state = 1 ∧
    ((working 0 2).queue 1039).active.find? (fun e => e.st == 2) = some (started 0 2) ∧
    ((working 0 0).queue 1039).active.find? (fun e => e.st == 2) = none := by decide +kernel

theorem witness_Packets_memory : ∃ bs u, (working 5 0).gRead job2 0 8 = .ok (bs, u) := exists_ok (by decide +kernel)

/-- R368, R371: a NOP completes: DONE counts it. -/
theorem test_packet_done : ∃ u, exec (.packetComplete 1039 true) (working 0 2) = .next u ∧ (u.queue 1039).done = 1 ∧ (u.queue 1039).active = [] :=
  ⟨_, rfl, by decide +kernel, by decide +kernel⟩

/-- A window of the physical function onto job 2. -/
theorem witness_HostWindow : let s := { mapped .c false with dwin := [(0, word (2 ^ 63 + 2))] }
    (smGet 0 s.dwin 0).getLsbD 63 = true ∧ s.job? (Word.bits (smGet 0 s.dwin 0) 0 16) = some job2 ∧ job2.vfn = fnVf 0 ∧
    s.window 0 0x30000 = some (job2, 0x30000) ∧ (∃ p u, s.windowPlaces job2 true 0x30000 8 = .ok ([(p, 8)], u)) ∧
    State.reset.window 0 0 = none :=
  ⟨by decide, by decide +kernel, rfl, by decide +kernel, ⟨_, _, rfl⟩, rfl⟩

theorem witness_HostRegisters : State.reset.frozen 64 = false ∧ (State.reset.queue 1039).en = false ∧ isCounter 0 = true ∧ isCounter 0xF8 = false ∧
    Word.bits (word (200 * 2 ^ 16)) 16 16 ≠ 0 ∧ (State.reset.migOf 63).state = 0 ∧ State.reset.tiles = [] ∧ State.reset.Form ∧
    State.reset.side.rails = true := ⟨rfl, rfl, rfl, rfl, by decide, rfl, rfl, rfl, rfl⟩

/-- A host read outstanding, and one that is not. -/
theorem witness_HostReads : let s := { on .c false with hostReads := [{ id := 3, t := 0, k := .c, addr := 0, len := 2 }] }
    s.hostReads.find? (fun r => r.id == 3) = some { id := 3, t := 0, k := .c, addr := 0, len := 2 } ∧ s.hostReads.find? (fun r => r.id == 4) = none ∧
    [(1 : Byte), 2].length = 2 := ⟨rfl, rfl, rfl⟩

/-- A request in its turn, one already applied, one ahead, and one of another generation. -/
def req1 (seq : Nat) (gen : BitVec 32) : FabReq := { src := 7, gen := gen, seq := seq, tagOk := true, pa := 0, op := .store [1], vf := none }

/-- A part whose domain has generation 1. -/
def domain1 : Domain :=
  { domain := 0, leader := 0, members := [7], digests := [], cur := some (1, 0), prev := none, pending := some (2, 0), sentTo := [7], acked := [], failed := [] }

def inDomain : State := { State.reset with rsc := { State.reset.rsc with dom := some domain1 } }

theorem witness_Fabric : InTurn (req1 0 1) inDomain ∧ inDomain.Form ∧ (req1 0 1).op = .store [1] ∧ inDomain.soloPackage = false ∧
    smGet 0 (inDomain.peer 7).recv (1 : BitVec 32).toNat < 1 ∧ inDomain.acceptsGen 3 = false :=
  ⟨⟨rfl, rfl, rfl, by decide +kernel, rfl⟩, rfl, rfl, rfl, by decide, by decide +kernel⟩

/-- R93: the request is applied, and answered. -/
theorem test_fabric_store : ∃ u, exec (.fabricRequestApply (req1 0 1)) inDomain = .next u ∧ u.mem = [(0, 1)] ∧ u.fabric.answers.length = 1 :=
  ⟨_, rfl, by decide +kernel, by decide +kernel⟩

theorem witness_Fabric_pairs : let s := inDomain.setPeer 7 { Peer.init with tagFails := [(9, 7)], recv := [(1, 5)] }
    (s.peer 7).broken = false ∧ smGet 0 (s.peer 7).tagFails 9 + 1 = 8 ∧ 4 < smGet 0 (s.peer 7).recv 1 ∧ smGet 0 (inDomain.peer 7).tagFails 9 + 1 ≠ 8 ∧
    ((s.setPeer 7 { Peer.init with broken := true }).peer 7).broken = true := by decide +kernel

/-- A request sent, and a copy refused. -/
theorem witness_Fabric_ack : let m : FabMsg := { pkg := 7, id := 4, seq := 0, gen := 1, pa := 0, op := .load 8, transfer := none }
    let o : FabOut := { id := 4, pkg := 7, seq := 0, gen := 1, what := .core 0 .c }
    let s := { on .c false with fabric := { Fabric.init with pending := [o], out := [m] } }
    s.fabric.pending.find? (fun o => o.id == 4) = some o ∧ s.fabric.out.find? (fun m => m.id == 4) = some m ∧
    (List.replicate 8 (0 : Byte)).length = answerLen m.op ∧ s.fabric.pending.find? (fun o => o.id == 5) = none ∧
    ((piece.tile 0).tag 63).transfer = 0 ∧ ((piece.tile 0).tag 63).st = .busy ∧ (0xE1 : Byte) ≠ 0xF0 := by decide +kernel

theorem witness_Trust : State.reset.rsc.signed = true ∧ State.reset.rsc.dom = none ∧ inDomain.rsc.dom = some domain1 ∧ domain1.pending = some (2, 0) ∧
    domain1.cur = some (1, 0) ∧ inDomain.rsc.ticket < 2 ^ 24 ∧ domain1.sentTo.contains 7 = true ∧ rscOnly .leave = true ∧
    ({ State.reset.rsc with signed := false } : Rsc).signed = false := by decide +kernel

/-- Sessions at their phases. -/
def session (ph : Nat) : State :=
  { mapped .c false with rsc := { (mapped .c false).rsc with sessions := [(1, { phase := ph, betweenPackages := false, updates := 0 })] } }

theorem witness_Sessions : isOpen (session 5) 1 ∧ ¬ isOpen (session 4) 1 ∧ ((session 2).session 1).phase = 2 ∧ ((session 4).session 1).phase = 4 ∧
    (session 5).job? 2 = some job2 ∧ smFind (session 5).rsc.slots 2047 = none ∧ smFind (session 5).rsc.slots 0 = some slot0 ∧ slot0.session ≠ 1 ∧
    (spdmRow (.heartbeat 1)).isSome = true ∧ smGet 0 ({ State.reset with tdi := [(63, 1)] } : State).tdi 63 = 1 ∧ smGet 0 State.reset.tdi 63 = 0 :=
  ⟨by unfold isOpen; decide +kernel, by unfold isOpen; decide +kernel, by decide +kernel⟩

/-- A command processor of job 2, whose registers a2 and a1 name the last line of its scratch and packet 0 of the last queue. -/
def cpAt : State :=
  let s := queueing (queue1 [])
  { s with cps := [(0, { Cp.init with cpjid := 2, x := [(11, 1039), (12, 0x3FFC0)] })] }

theorem witness_CommandProcessor_fetch : let c := cpAt.myCp
    (c.reg 12).toNat % 64 = 0 ∧ (c.reg 12).toNat + 64 ≤ 0x40000 ∧ Word.bits (c.reg 11) 0 11 = 1039 ∧ (cpAt.queue 1039).en = true ∧
    (cpAt.queue 1039).halt = false ∧ (cpAt.queue 1039).inWindow (Word.bits (c.reg 11) 32 32) = true ∧ cpAt.choices.headD 0 ≠ 1 ∧
    ({ cpAt with choices := [1] } : State).choices.headD 0 = 1 ∧ smWf 0 cpAt.mem = true := by decide +kernel

theorem witness_CommandProcessor_others : cpAt.job? cpAt.myCp.cpjid.toNat = some job2 ∧ (cpAt.myCp.reg 0).toNat % 8 = 0 ∧ (cpAt.myCp.reg 0).toNat < 2 ^ 56 ∧
    (∃ bs u, cpAt.gRead job2 0 8 = .ok (bs, u)) ∧ (∃ f, cpAt.gRead job2 0x40000000 8 = .error f) ∧ (3 : BitVec 7).toNat ≤ 5 ∧
    relHolds 0 64 0 0 = true ∧ relHolds 1 64 0 0 = false ∧ 63 + 1 ≤ 64 ∧ State.reset.job? 0 = none :=
  ⟨rfl, rfl, by decide, exists_ok (by decide +kernel), ⟨_, rfl⟩, by decide, by decide, by decide, by decide, rfl⟩

/-! ### Encodings, and what register instructions leave -/

/-- Well-formed instructions that encode. -/
theorem witness_DecodeReadsWhatEncodeWrote : (Instr.add (X 7 (.m 23) (.g 7) .imm .prv 0xFFFFF 0)).wf = true ∧
    (encodeCore (.add (X 7 (.m 23) (.g 7) .imm .prv 0xFFFFF 0))).isSome = true ∧ (Instr.bfex ⟨31, 31, 31⟩).wf = true ∧
    (Instr.bfex ⟨31, 31, 31⟩).opOps = none ∧ (∃ w, encode (.bfex ⟨31, 31, 31⟩) = [w]) := ⟨rfl, rfl, rfl, rfl, _, rfl⟩

theorem witness_RegisterInstructionsKeepTheRest : (∃ f, scalarRow (.add Z) = some (Z, 2, f)) ∧ (on .c false).me.atoms = [] ∧
    (on .c false).me.regs.slot = none ∧ noStream Z ∧ Z.d.exists_ = true ∧ Z.d.isScalar = true ∧ (∃ t, exec (.add Z) (on .c false) = .next t) ∧
    noStream Zv ∧ noStream Zl ∧ (∃ t, exec (.vadd Zv) (on .v false) = .next t) ∧ ∃ t, exec (.ld Zl) (actR .c atLm) = .next t :=
  ⟨⟨_, rfl⟩, rfl, rfl, fun _ => ⟨nofun, nofun, nofun, nofun⟩, rfl, rfl, ⟨_, rfl⟩, fun _ => ⟨nofun, nofun, nofun, nofun⟩,
    fun _ => ⟨nofun, nofun, nofun, nofun⟩, ⟨_, rfl⟩, _, rfl⟩

/-! ## Values -/

/-- R221: MULH of the most negative value by itself; R220: a division by 0 sets DZ and gives −1; the most negative by −1 wraps. -/
theorem test_products_and_quotients : mulhVal 0 0x8000000000000000 0x8000000000000000 = 2 ^ 62 ∧
    narrowFmt 0 ((viewFmt 0 0x8000000000000000).tdiv (viewFmt 0 0xFFFFFFFFFFFFFFFF)) = 0x8000000000000000 := by decide +kernel

/-- R226: a saturating addition at the top of a signed type. -/
theorem test_saturates : (clampFmt 0 (2 ^ 63)) = (0x7FFFFFFFFFFFFFFF, fSAT) := by decide +kernel

/-! ### Further clauses of the statements -/

theorem witness_OwnInstructions : ∃ s0 s1 u, (on .c false).gate .alone = none ∧ (on .c false).prepare .alone Z = .inr s0 ∧ Entry.alone.own = true ∧
    s0.soloBlocked s0.curTile s0.curCore = false ∧ (pure () : Exec Unit) s0 = .ok u ∧ (pure () : Exec Unit) s0.ownStart = .ok ((), s1) ∧
    (withChunk (on .c false) 1).me.chunk.any (fun h => decide (0 < h.len)) = true :=
  ⟨_, _, _, rfl, rfl, rfl, rfl, rfl, rfl, rfl⟩

theorem witness_FalsePredicate_own : ∃ s0 s1, entryOf (.semset Zn) = some (.alone, Zn) ∧ (on .c false).gate .alone = none ∧
    (on .c false).prepare .alone Zn = .inr s0 ∧ s0.me.regs.holds Zn.h = false ∧ s0.me.regs.slot = none ∧
    s0.soloBlocked s0.curTile s0.curCore = false ∧ s0.me.chunk.any (fun h => decide (0 < h.len)) = false ∧
    (let s := actR .c { regsOf false with ip := 0x7FFC4 }
     entryOf (.br Zn) = some (.jump, Zn) ∧ s.gate .jump = none ∧ s.prepare .jump Zn = .inr s1 ∧ s1.me.regs.ip = 0x7FFC4) :=
  ⟨_, _, rfl, rfl, rfl, rfl, rfl, rfl, rfl, rfl, rfl, rfl, rfl⟩

/-- A binding chunk that has read its block at the start of LM, and that the block's line has met, or nothing. -/
def binding (hit : List Nat) : State := (actR .c atLm).setMe { (actR .c atLm).me with
  chunk := some { chunkOf (actR .c atLm) with binds := true, hit := hit } }

theorem witness_StreamInstructions_block : ∃ bk ours s3, linesRead (loadAt 0 64 false lm0 64) (binding (linesOf (tileKey 0 0 0) 64)) =
      .ok ((bk, ours), s3) ∧ s3.me.chunk.any (fun h => h.binds && h.met && !h.single) = true ∧ (wd (wordsOf bk) 0).getLsbD 63 = false :=
  ⟨_, _, _, rfl, by decide +kernel, by decide +kernel⟩

theorem witness_StreamInstructions_ready : let s := { binding [] with mem := [(tileKey 0 0 7, 0x80)] }
    ∃ bk ours s3, linesRead (loadAt 0 64 false lm0 64) s = .ok ((bk, ours), s3) ∧
      s3.me.chunk.any (fun h => h.binds && h.met && !h.single) = false ∧ (wd (wordsOf bk) 0).getLsbD 63 = true :=
  ⟨_, _, _, rfl, by decide +kernel, by decide +kernel⟩

/-- An entry that a walker keeps. -/
theorem witness_Walks_kept : ({ ctx := 3, page := 5, log := 43, leaf := 0 } : Tlb).serves 3 (5 * 2 ^ 43) = true := by decide +kernel

/-- An atomic that its chunk leaves to its commit, whose old value goes to a stream; one that is misaligned. -/
theorem witness_Atomics_stream : (∃ ps u, streamSlot 7 (streams true false) = .ok (ps, u)) ∧
    (∃ tr, atomPlace (accOf 2 true (lm0 + 2)) 4 (withChunk (on .c false) 0) = .error (.trap tr)) ∧
    ((on .c false).setMe { (on .c false).me with atoms := [atom1 1] }).me.atoms ≠ [] :=
  ⟨exists_ok (by decide +kernel), ⟨_, rfl⟩, by decide⟩

/-- A leaf whose target is host memory, to a .SPC atomic. -/
theorem witness_Atomics_home : let e : Word := 0xD000000330000000
    (leafTgt e ≠ 0 ∨ leafUc e = true) ∧ ∃ u, (mapped .c true).leafCheck
      { root := 0, ctx := 0, priv := true, write := false, mmv := false, home := true } e 30 0 = .error (Code.protection, u) := by
  refine ⟨by decide +kernel, 0x11, by decide +kernel⟩

/-- The view of a transposing aperture of 16-bit elements over the first 2 MiB. -/
def swapped : State :=
  let s := (cached .c)
  { s with jobs := [{ job2 with apt := [(0, (0x8000000000200001, 0x3000000000042A00))] }] }

theorem witness_Atomics_swap : (atomPlace (accOf 2 true 0x200000) 4 swapped).toOption.map (·.1) = some none ∧
    ∃ bs u, readGlob (accOf 2 true 0x200000) (Word.bits (0x200000 : Word) 0 56) 4 swapped = .ok (bs, u) ∧
      ∃ v, writeGlob (accOf 2 true 0x200000) (Word.bits (0x200000 : Word) 0 56) (toBytes 4 7) u = .ok ((), v) := by
  refine ⟨by decide +kernel, ?_⟩
  obtain ⟨v, s, h⟩ := exists_ok (r := readGlob (accOf 2 true 0x200000) (Word.bits (0x200000 : Word) 0 56) 4 swapped) (by decide +kernel)
  refine ⟨v, s, h, ?_⟩
  have : (match readGlob (accOf 2 true 0x200000) (Word.bits (0x200000 : Word) 0 56) 4 swapped with
    | .ok (_, t) => (writeGlob (accOf 2 true 0x200000) (Word.bits (0x200000 : Word) 0 56) (toBytes 4 7) t).toBool
    | .error _ => false) = true := by decide +kernel
  rw [h] at this
  exact exists_ok_unit this

theorem witness_AtomicsUpdate_put : let a := { atom1 6 with put := [.mem (tileKey 0 1 0) 0 false] }
    a.use = 6 ∧ a.use ≠ 3 ∧ (∀ p ∈ a.put, ∃ key kn uc, p = .mem key kn uc) ∧ (atom1 1).use ≠ 6 :=
  ⟨rfl, by decide, fun p h => by cases List.mem_singleton.mp h; exact ⟨_, _, _, rfl⟩, by decide⟩

/-- A core that stands behind a fence of each kind, with what it waits for and without. -/
def standing (kind : Nat) (due : Bool) : State :=
  let s := (on .x false).setMe { (on .x false).me with
    fence := some ⟨kind, 7, false, []⟩, fab := if due then [4] else [], hostAt := if due then some 1 else none }
  let s := { s with fabric := { s.fabric with pending := [{ id := 4, pkg := 7, seq := 0, gen := 1, what := .store 0 .x }] } }
  s.updTile 0 (fun x => { x with tags := if due then [(63, { TagRec.init with st := .busy })] else [] })

theorem witness_Fences_stand : ∀ kind, kind ∈ [1, 2, 3] → ∀ due,
    let s := standing kind due
    (s.core 0 .x).run = .running ∧ (s.core 0 .x).fence = some ⟨kind, 7, false, []⟩ ∧
    (s.core 0 .x).chunk.any (fun h => h.closed) = false ∧ (s.tile 0).semOvf = none ∧
    (s.tile 0).watch.any (fun w => w.st == .requested) = false ∧
    (kind = 1 → s.fabricDue 0 .x ⟨kind, 7, false, []⟩ = due) ∧ (kind = 2 → s.engineDue 0 .x = due) ∧
    (kind = 3 → ((s.core 0 .x).hostAt ≠ none ↔ due = true)) ∧
    (due = false → (s.setCore 0 .x { s.core 0 .x with fence := none, stalled := false }).nextItem 0 .x = none ∧
      (s.core 0 .x).yields = false ∧ (s.core 0 .x).fabRefused = false ∧ s.fabricBroken (s.core 0 .x) = false) := by
  decide +kernel

theorem witness_Fences_broken : let s := ({ (on .c false) with fabric := { Fabric.init with
      pending := [{ id := 4, pkg := 7, seq := 0, gen := 1, what := .store 0 .c }] } } : State).setPeer 7 { Peer.init with broken := true }
    s.fabricBroken { s.me with fab := [4] } = true := by decide +kernel

theorem witness_Votes_given : let c := (voting [vote0 none]).me
    (voteScope [(0, 0, c)] 0 0 0).any (fun d => d.run != .off && decide (smGet 0 d.vcount 0 ≤ 0)) = true ∧
    (voteScope [(0, 0, { c with vcount := [(0, 1)] })] 0 0 0).any (fun d => d.run != .off && decide (smGet 0 d.vcount 0 ≤ 0)) = false :=
  ⟨rfl, rfl⟩

/-- A forced copy cancel reads the tag's word. -/
theorem witness_Tags_cancel : ∃ s1 s2, Meets .tagOps Zl (tagged .busy mask63) (fun s0 => readA Zl s0 = .ok (0x8000000000000000, s1) ∧
    writeOpd Zl.d (word ((s1.tile s1.curTile).tag 0).st.num) (s1.setMe { s1.me with
      chunk := s1.me.chunk.map (fun h => { h with rset := setAdd h.rset (tagLine s1.curTile 0) }) }) = .ok ((), s2)) :=
  ⟨_, _, _, ⟨rfl, rfl, rfl, by decide, by decide, by decide⟩, rfl, rfl⟩

/-- Two lanes whose accesses fault; the codes of a block that is read. -/
theorem witness_Blocks_faults : ∃ t u, (faultIp Code.protection 3 : Exec (List Byte)) (on .v false) = .error (.trap t) ∧
    laneAcc [faultIp Code.misaligned 0] (on .v false) = .error (.trap u) ∧ u.rank < t.rank :=
  ⟨_, _, rfl, rfl, by decide⟩

/-- Reads bytes one after another. -/
def loadAll (x : Ops) : List (Word × Int) → State → Option (List Byte × State)
  | [], s => some ([], s)
  | (a, o) :: ps, s => match byteGet x a 1 o s with
    | .ok ([b], u) => (loadAll x ps u).map (fun r => (b :: r.1, r.2))
    | _ => none

theorem loadAll_loads (x : Ops) : ∀ (ps : List (Word × Int)) (s u : State) (bs : List Byte), loadAll x ps s = some (bs, u) → BytesLoad x ps bs s u
  | [], s, u, bs, h => by
    simp only [loadAll, Option.some.injEq, Prod.mk.injEq] at h
    exact ⟨h.1.symm, h.2.symm⟩
  | (a, o) :: ps, s, u, bs, h => by
    unfold loadAll at h
    split at h
    · rename_i b v hb
      cases hr : loadAll x ps v with
      | none => rw [hr] at h; cases h
      | some r =>
        simp only [hr, Option.map_some, Option.some.injEq, Prod.mk.injEq] at h
        exact ⟨b, r.1, v, h.1.symm, hb, h.2 ▸ loadAll_loads x ps v r.2 r.1 hr⟩
    · cases h

theorem witness_Blocks_read : ∃ bs u, BytesLoad { Zs with imm := 5 } (blockGets 5 lm0 lm0 0) bs (withChunk (on .v false) 0) u := by
  have h0 : (loadAll { Zs with imm := 5 } (blockGets 5 lm0 lm0 0) (withChunk (on .v false) 0)).isSome = true := by decide +kernel
  obtain ⟨r, hr⟩ := Option.isSome_iff_exists.mp h0
  exact ⟨r.1, r.2, loadAll_loads _ _ _ _ _ hr⟩

/-- MGANG in a gang of two, before it has joined, and in a join of each outcome. -/
theorem witness_Mgang_more : Meets (gangEntry .gang) Z (ganged none 2) (fun s0 => s0.me.join = none ∧ 1 < s0.me.gsize) ∧
    Meets (gangEntry .gang) Z (ganged (some 0) 2) (fun s0 => ∃ j, s0.me.join = some j ∧ j.verdict = 0) ∧
    Meets (gangEntry .gang) Z (ganged (some 3) 2) (fun s0 => ∃ j, s0.me.join = some j ∧ j.verdict = 3) :=
  ⟨⟨_, ⟨rfl, rfl, rfl, by decide, by decide, by decide⟩, rfl, by decide⟩, ⟨_, ⟨rfl, rfl, rfl, by decide, by decide, by decide⟩, _, rfl, rfl⟩,
    _, ⟨rfl, rfl, rfl, by decide, by decide, by decide⟩, _, rfl, rfl⟩

theorem witness_Matrix_pairs : let m := { op1 .mma with blocks := [7], pairs := [7], red := true }
    m.blocks = [7] ∧ m.pairs = [7] ∧ (m.kind = .mma ∨ m.kind = .mmg) ∧ (op1 .mma).pairs = [] ∧ topByte lm0 ≠ 0 := by decide

/-- A redundant block that MFILL restores, with its shadow's block free. -/
theorem witness_Matrix_fillPair : let w : Word := word (2 ^ 8 * 8)
    accR w = true ∧ (7 : Nat) ≤ 7 ∧ BlocksPass (on .m true) [7 + 8] true false := by
  refine ⟨by decide, by decide, ?_⟩
  unfold BlocksPass
  intro k hk
  cases List.mem_singleton.mp hk
  exact ⟨by decide, rfl, fun _ => rfl, fun _ => .inl rfl⟩

theorem witness_Matrix_asked : [op1 .drain].all (fun n => n.asked.isEmpty) = true ∧ (∀ w ∈ (op1 .mma).sts, accR w = false) :=
  ⟨rfl, fun w h => by cases List.mem_singleton.mp h; rfl⟩

/-- User mode at a register that only privileged mode writes. -/
theorem witness_ControlRegisters_user : ∃ s1, Meets .ends { Z with imm := 0x0A } (on .c false) (fun s0 =>
    readA { Z with imm := 0x0A } s0 = .ok (0, s1) ∧ s1.me.regs.priv = false) :=
  ⟨_, _, ⟨rfl, rfl, rfl, by decide, by decide, by decide⟩, rfl, rfl⟩

/-- A chunk that loads slot 7 of the codebook, while the array reads it. -/
def slotUser : MOp := { op1 .ldb with bty := 7, x := { Za15 with imm := 7 } }

def loading : State :=
  (queued slotUser).setMe { (queued slotUser).me with chunk := some { chunkOf (on .m false) with closed := true, acts := [.cbld 7 []] } }

theorem witness_Codebook_waits : ∃ h, (loading.core 0 .m).chunk = some h ∧ h.met = false ∧ .cbld 7 [] ∈ h.acts ∧ loading.slotBusy 0 7 = true ∧
    ¬((spaceCode lm0 = 4 ∨ spaceCode lm0 = 5) ∧ lm0.toNat % 32 ≠ 0) :=
  ⟨_, rfl, rfl, List.mem_singleton.mpr rfl, by decide +kernel, by decide⟩

theorem witness_CoreEvents_unmeasured : (grouped false).launchOn 0 = some 1 ∧ ((grouped false).launch? 1).isSome = true ∧
    ((pended 8).core 0 .c).pend.find? (fun p => p.item == 8) = some { item := 8, info := mkTrap Code.semOverflow 0 0 15 0 0 } ∧
    ((pended 1).core 0 .c).pend.find? (fun p => p.item == 1) = some { item := 1, info := mkTrap Code.semOverflow 0 0 15 0 0 } := ⟨rfl, rfl, rfl, rfl⟩

/-- Relaxed atomics of one word, and the choice of the second. -/
def atomics : State := ({ on .c false with choices := [1] } : State).setMe { (on .c false).me with atoms := [atom1 1, atom1 2] }

theorem witness_CoreEvents_atomics : let as := (atomics.core 0 .c).atoms.filter (fun a => a.use == 3 || !atomics.soloBlocked 0 .c)
    as[atomics.choices.headD 0 % as.length]? = some (atom1 2) ∧ (atomics.core 0 .c).atoms = [atom1 1, atom1 2] ∧
    (atom1 1).key / 8 = (atom1 2).key / 8 := ⟨rfl, rfl, rfl⟩

theorem witness_SemGrant_issues : let s := ((on .c false).setMe { (on .c false).me with waiting := some (255, 2) }).updTile 0 (fun x => x.setSem 255 2)
    s.canIssue 0 .c = true := by decide +kernel

/-- An overflow that X takes; one that no core takes. -/
theorem witness_Overflow_others : let s := fun k : CoreK => (on k false).updTile 0 (fun x => { x with semOvf := some { sem := 255, by_ := 0, again := 2 } })
    ((s .x).tile 0).ovfCore = some .x ∧ (({ s .x with tiles := [(0, { Tile.init with semOvf := some { sem := 1, by_ := 0, again := 0 } })] } :
      State).tile 0).ovfCore = none := ⟨by decide +kernel, by decide +kernel⟩

/-- A miss that waits, its walk, and one that faults. -/
def miss1 (va : Nat) : Miss := { va := va, write := true, vec := false, atom := false, home := false, ans := none }

def missing (va : Nat) : State := (mapped .c true).setMe { (mapped .c true).me with walks := [miss1 va] }

theorem witness_Walk_answers : let q : XReq := { root := 0, ctx := 0, priv := true, write := true, mmv := false }
    miss1 0 ∈ ((missing 0).core 0 .c).walks ∧ (miss1 0).ans = none ∧ (((missing 0).jobOn 0).map (·.root)).getD (2 ^ 40) = 0 ∧
    (∃ r u, (missing 0).walkFor 0 ((missing 0).vfOn 0) q 0 = .ok (r, u)) ∧ ∃ f, (missing (2 ^ 43)).walkFor 0 none q (2 ^ 43) = .error f := by
  refine ⟨List.mem_singleton.mpr rfl, rfl, rfl, exists_ok (by decide +kernel), ?_⟩
  have h : (match (missing (2 ^ 43)).walkFor 0 none { root := 0, ctx := 0, priv := true, write := true, mmv := false } (2 ^ 43) with
    | .ok _ => false
    | .error _ => true) = true := by decide +kernel
  generalize (missing (2 ^ 43)).walkFor 0 none { root := 0, ctx := 0, priv := true, write := true, mmv := false } (2 ^ 43) = r at h ⊢
  cases r with
  | ok _ => cases h
  | error f => exact ⟨f, rfl⟩

theorem witness_Reread : let e : ExtReq := { id := 4, place := 0, waiting := true, got := [], refused := [], bad := [] }
    let s := (binding []).setMe { (binding []).me with stalled := true, ext := some e }
    (s.core 0 .c).stalled = true ∧ (∃ h, (s.core 0 .c).chunk = some h ∧ h.binds = true) ∧ (s.core 0 .c).ext = some e ∧
    ((on .c false).core 0 .c).stalled = false :=
  ⟨rfl, ⟨_, rfl, rfl⟩, rfl, rfl⟩

/-- The walker of an address, and another one. -/
theorem witness_Walk_walker : walkerOf (256 * 1) (word (3 * 2 ^ 21)).toNat = 64 * 1 + 3 ∧ walkerOf (256 * 1) (word (3 * 2 ^ 21)).toNat ≠ 64 * 1 + 2 := by
  decide +kernel

theorem witness_Ticks_late : let g : Group := { st := .running, phase := 0, tick := 0, sel := 0, qlast := 0, relAt := 0, start := some 0, come := false, lastVtn := 0, cancelledPhase := false, slipping := false, sel0 := 0, s0 := none, started := false, gone := [] }
    let s := launched (on .c false) { launch1 with grp := some g }
    s.launch? 1 = some { launch1 with grp := some g } ∧ g.start = some 0 ∧ 0 ≤ s.gtc ∧ g.come = false ∧ launch1.jid = 2 ∧
    ({ g with come := true } : Group).come = true := ⟨rfl, rfl, by decide, rfl, rfl, rfl⟩

/-- A queue's registers, and its packet read again, unchanged and changed. -/
theorem witness_Queues_read : (queue1 []).done < 2 ^ 32 ∧ (queue1 []).log2n < 32 ∧ smFind ((queueing (queue1 [(0, nop8)])).queue 1039).fetched
      ((queueing (queue1 [(0, nop8)])).queue 1039).head = some nop8 ∧ (64 : Nat) ≤ 64 ∧ 16 * 64 + 15 = 1039 := by decide +kernel

/-- An OPEN_JOB packet whose descriptor lies at a bad word. -/
theorem witness_Queues_badDescriptor : let w := word (2 ^ 56) :: List.replicate 7 0
    let s := ({ queueing (queue1 [(0, w)]) with poison := [0] } : State)
    let r := s.reread 1039 (some (wd w 0, none))
    r.startCause 1039 w = some 4 ∧ (s.queue 1039).passed = false ∧ r.badWord (hbmKey (wd w 1).toNat) 128 = some 0 ∧ s.pickQueue = some 1039 := by
  decide +kernel

/-- A CLOSE_JOB packet behind a RUN_GRAPH of its job that has not begun, and alone. -/
theorem witness_Packets_close : (working 2 0).jobDue 2 = false ∧ (started 2 0).st = 0 ∧ (queueing { queue1 [] with active := [started 2 0, { started 3 0 with idx := 1 }] }).jobDue 2 = true := by
  decide +kernel

/-- A window read that meets a bad word. -/
theorem witness_HostWindow_bad : let s := { mapped .c false with dwin := [(0, word (2 ^ 63 + 2))], poison := [0x30000] }
    s.window 0 0x30000 = some (job2, 0x30000) ∧ ∃ p u, s.windowPlaces job2 false 0x30000 8 = .ok ([(p, 8)], u) ∧ (u.badPlace p 8).isSome = true := by
  refine ⟨rfl, _, _, rfl, ?_⟩
  decide +kernel

/-- A read of another package, a reduce-put, an atomic, and no bad word; packets of a store. -/
theorem witness_Fabric_reads : inDomain.badWord (hbmKey 0) 8 = none ∧ ({ inDomain with poison := [0] } : State).badWord (hbmKey 0) 8 ≠ none ∧
    ({ req1 0 1 with op := .reduce 0 0 [List.replicate 4 0] } : FabReq).op = .reduce 0 0 [List.replicate 4 0] ∧
    inDomain.badWord (hbmKey 0) (([List.replicate 4 (0 : Byte)]).headD []).length = none ∧ inDomain.acceptsGen 1 = true ∧ fabSize (.store [1]) = 1 := by
  decide +kernel

/-- What a request that was sent is for: a store of a core, the array, a copy; the answer bad or good. -/
theorem witness_Fabric_answers : let m : FabMsg := { pkg := 7, id := 4, seq := 0, gen := 1, pa := 0, op := .load 8, transfer := none }
    let s := fun w : FabFor => ({ on .x false with
      fabric := { Fabric.init with pending := [{ id := 4, pkg := 7, seq := 0, gen := 1, what := w }], out := [m] } } : State)
    (∀ w, (s w).fabric.pending.find? (fun o => o.id == 4) = some { id := 4, pkg := 7, seq := 0, gen := 1, what := w }) ∧
    (∀ w, (s w).fabric.out.find? (fun m => m.id == 4) = some m) ∧ ([] : List Byte).length ≠ answerLen m.op ∧
    (((s (.store 0 .x)).setMe { (s (.store 0 .x)).me with fab := [4] }).core 0 .x).fab.contains 4 = true ∧
    0 < ((piece.tile 0).tag 63).total := by
  refine ⟨fun _ => rfl, fun _ => rfl, by decide, rfl, by decide⟩

/-- A session between packages that is open, and a member's manifest; an acknowledged key; another request code. -/
theorem witness_Trust_keys : let s := { session 5 with rsc := { (session 5).rsc with
      dom := some domain1, sessions := [(1, { phase := 5, betweenPackages := true, updates := 0 })] } }
    isOpen s 1 ∧ (s.session 1).betweenPackages = true ∧ s.rsc.dom = some domain1 ∧ ((session 5).session 1).betweenPackages = false ∧
    domain1.acked.contains 7 = false ∧ spdmCodes.contains 0x85 = false ∧ ({ domain1 with acked := [7] } : Domain).acked.contains 7 = true := by
  refine ⟨by unfold isOpen; decide +kernel, by decide +kernel, rfl, by decide +kernel, by decide, by decide, by decide⟩

/-! ### Clauses on commits, tokens and what an instruction needs -/

/-- Core C with another core's token held, on the whole package. -/
def tokened : State := { on .c false with solo := [{ t := 5, k := .v, row := none }] }

/-- What a false predicate leaves can commit; a solo token of another core holds a trap's frame back. -/
theorem witness_Commits : ∃ s0, (on .c false).prepare (.alu 2) Zn = .inr s0 ∧
    Commits (.alu 2) s0 ((s0.setMe { s0.me with regs := { s0.me.regs with mid := none, ip := ipNext s0.me.regs.ip } }).grow (.alu 2) Zn false) ∧
    tokened.soloBlocked 0 .c = true ∧ (on .c false).soloBlocked 0 .c = false ∧ tokened.me.chunk.all (fun h => h.len == 0) = true :=
  ⟨_, rfl, fun _ h => absurd h (by decide +kernel), rfl, rfl, rfl⟩

theorem witness_TrapReturn_tail : let s1 := (on .c true).setMe { (on .c true).me with regs := { (on .c true).me.regs with ip := 0x40, slot := none } }
    let key := s1.areaKey 0 .c + 0x30
    checkTail key 112 s1 = .ok ((), s1) ∧ ∃ bs s2,
      readPlace { kind := 0, write := false, addr := localAddr s1.curTile key, space := 2 } (.mem key 0 false) 112 s1 = .ok (bs, s2) :=
  ⟨rfl, _, _, rfl⟩

/-- YIELD in the slot of a CALL that slides the window past what a save can hold. -/
def yieldInCall : State := (actR .c { regsOf false with slot := some { target := 0x40, act := .slideUp 180, notice := none } }).setMe
  { (actR .c { regsOf false with slot := some { target := 0x40, act := .slideUp 180, notice := none } }).me with prq := true }

theorem witness_Yield : Meets .ends Z yieldInCall (fun s0 => s0.me.yields = true ∧
      Core.saveRoom { s0.me with regs := s0.me.regs.slide ((s0.me.regs.slot.map (fun (sl : Slot) => sl.act)).getD .plain) } = false) ∧
    Meets .ends Z ((on .c false).setMe { (on .c false).me with prq := true }) (fun s0 => s0.me.yields = true ∧
      Core.saveRoom { s0.me with regs := s0.me.regs.slide .plain } = true) :=
  ⟨⟨_, ⟨rfl, rfl, rfl, by decide, by decide, by decide⟩, rfl, by decide +kernel⟩,
    _, ⟨rfl, rfl, rfl, by decide, by decide, by decide⟩, rfl, by decide +kernel⟩

/-- A bind that its own block has met. -/
theorem witness_Binds : let h := { chunkOf (on .c false) with binds := true, hit := [5], rset := [5], block := [5] }
    h.met = true ∧ h.single = false ∧ h.hit.any (fun l => h.block.contains l) = true := by decide +kernel

/-- A piece that is not the last, in a chunk with nothing that commits with it. -/
theorem witness_BlockMoves_stay : ∃ s1 t, Meets .base Zm (actR .c (moving 64)) (fun s0 => moveForward Zm s0 = .ok (true, s1) ∧
    stay Zm s1 = .ok ((), t) ∧ Commits .base s0 t) :=
  ⟨_, _, _, ⟨rfl, rfl, rfl, by decide, by decide, by decide⟩, rfl, rfl, fun _ h => absurd h (by decide +kernel)⟩

/-- An atomic's page: host memory, and another package's. -/
theorem witness_Atomics_pages : leafTgt 0xD000000000000000 = 1 ∧ leafTgt 0xE000000000000000 ≠ 1 ∧ leafTgt 0xE000000000000000 ≠ 0 := by
  decide +kernel

/-- What an instruction needs is there, is not there, and is noted by a trial. -/
theorem witness_Needs : (on .x false).me.trial = false ∧ (on .x false).hasNeed 0 .x .engine = true ∧
    (tagged .busy mask63).hasNeed 0 .x (.tag 63) = false ∧
    ((on .x false).setMe { (on .x false).me with trial := true }).me.trial = true := by decide +kernel

/-- CRES of a FAULTED tag, with room in the copy engine's queue. -/
theorem witness_Resume : ∃ s1 s2, Meets .tagOps Zl (tagged .faulted mask63) (fun s0 => readA Zl s0 = .ok (0x8000000000000000, s1)) ∧
    (needs .engine : Exec Unit) s1 = .ok ((), s2) ∧ ((tagged .faulted mask63).tile 0).tag 63 = { TagRec.init with st := .faulted } :=
  ⟨_, _, ⟨_, ⟨rfl, rfl, rfl, by decide, by decide, by decide⟩, rfl⟩, rfl, rfl⟩

/-- Both choices of the copy engine, and a piece whose source is read. -/
theorem witness_CopyPieces_read : let s := fun (c : Nat) (r : TagRec) => ({ piece.updTile 0 (fun x => x.setTag 63 r) with choices := [c] } : State)
    let r := { pieceTag with front := 64 }
    (s 1 r).choose.1 % 2 = 1 ∧ (s 2 r).choose.1 % 2 = 0 ∧ ((s 0 { r with got := [(0, List.replicate 64 1)] }).tile 0).tag 63 =
      { r with got := [(0, List.replicate 64 1)] } ∧ (piece.job? 0).bind Job.vfn = none ∧ piece.transferDue 0 = false ∧
    (0 < pieceTag.sinc ∨ (piece.tile 0).sem 255 ≤ 65535) := by decide +kernel

/-- The frame of a load and of a store at the start of LM, of a float, of a window, and of what is not admitted yet. -/
theorem witness_Frames_load : ∃ s0 v s1 s2 u, Issues (.alu 3) Zl (actR .c atLm) s0 ∧ tidy s0 ∧ s0.me.regs.slot = none ∧ noStream Zl ∧
    readA Zl s0 = .ok (lm0, s0) ∧ readB Zl s0 = .ok (0, s0) ∧ loadInt Zl (accessed false Zl lm0 0) s0 = .ok (v, s1) ∧
    writeOpd Zl.d v s1 = .ok ((), s2) ∧ Ends (.alu 3) Zl s0 (updated false Zl (effective Zl lm0 0) s2) u :=
  ⟨_, _, _, _, _, ⟨rfl, rfl, rfl, by decide, by decide, by decide⟩, ⟨rfl, fun h e => by cases e; exact ⟨rfl, fun _ => ⟨rfl, rfl, rfl⟩⟩⟩, rfl,
    fun _ => ⟨nofun, nofun, nofun, nofun⟩, rfl, rfl, rfl, rfl, ends rfl rfl⟩

theorem witness_Frames_store : ∃ s0 s1 u, Issues .base Zl (actR .c atLm) s0 ∧ tidy s0 ∧ s0.me.regs.slot = none ∧
    storeRow (.sti Zl) = some (Zl, storeInt Zl, true) ∧
    readA Zl s0 = .ok (lm0, s0) ∧ readB Zl s0 = .ok (0, s0) ∧ readC Zl s0 = .ok (lm0, s0) ∧
    storeInt Zl (accessed true Zl lm0 0) lm0 s0 = .ok ((), s1) ∧ Ends .base Zl s0 (updated true Zl (effective Zl lm0 0) s1) u ∧
    s0.spotOf false (accessed true Zl lm0 0) = .ok (.tile 0 0 0) ∧ storeWidth (.sti Zl) = 8 ∧
    storedAt (accOf 1 true (accessed true Zl lm0 0)) (.tile 0 0 0) (storeWidth (.sti Zl)) s0
      ((Place.mem (tileKey 0 0 0) 0 false).bytes (storeWidth (.sti Zl))) ∧ isHbm (tileKey 0 0 0 + 7) = isHbm (tileKey 0 0 0) :=
  ⟨_, _, _, ⟨rfl, rfl, rfl, by decide, by decide, by decide⟩, ⟨rfl, fun h e => by cases e; exact ⟨rfl, fun _ => ⟨rfl, rfl, rfl⟩⟩⟩, rfl, rfl, rfl, rfl, rfl,
    rfl, ends rfl rfl, rfl, rfl, ⟨_, rfl⟩, by decide +kernel⟩

theorem witness_Frames_admission : ∃ s0, (on .c false).prepare .base Z = .inr s0 ∧ (on .c false).me.atoms = [] ∧ (on .c false).hasToken 0 .c = false ∧
    tidy s0 := ⟨_, rfl, rfl, rfl, rfl, fun h e => by cases e; exact ⟨rfl, fun _ => ⟨rfl, rfl, rfl⟩⟩⟩

/-! ### Joins, the medium, contexts and events -/

/-- A watch of a gang of two on tiles 0 and 1, whose M-cores have joined with MGANG, with the keys given. -/
def joining (keys : List Nat) : State :=
  let s := { on .m false with launches := [{ launch1 with tiles := [0, 1] }] }
  let m := fun (n : Nat) => { Core.init with
    run := .running, regs := regsOf false, gsize := 2, gpos := n, stalled := true
    chunk := some { chunkOf (on .m false) with len := 0 }
    join := some { key := [keys.getD n 0], since := 0, op := { matOp (on .m false) .gang Z 0 0 0 with gang := 1 }, verdict := 0 } }
  (((s.updTile 0 (fun x => { x with watch := some { watch1 with gsize := 2 } })).setCore 0 .m (m 0)).updTile 1
    (fun x => { x with watch := some { watch1 with gsize := 2, gpos := 1, grid := 1, vtn := 1 } })).setCore 1 .m (m 1)

/-- Two members that agree: each runs in its turn. -/
theorem witness_Joins : ∃ joins s1 s2, Joined (joining [7, 7]) 0 joins ∧ joins.length = ((joining [7, 7]).core 0 .m).gsize ∧
    joins.map (·.1) = [0, 1] ∧ (∀ p ∈ joins, ∀ q ∈ joins, p.2.key = q.2.key) ∧
    ((joins.find? (fun p => ((joining [7, 7]).core p.1 .m).gpos == 0)).map (·.1)).getD 0 = 0 ∧
    ((joining [7, 7]).core 0 .m).chunk.any (fun h => h.met && !h.single) = false ∧ (joining [7, 7]).soloBlocked 0 .m = false ∧
    (joining [7, 7]).runMember 0 (joins.getD 0 (0, { key := [], since := 0, op := matOp (on .m false) .gang Z 0 0 0, verdict := 0 })).2 0 = .ok s1 ∧
    s1.soloBlocked 1 .m = false ∧
    s1.runMember 1 (joins.getD 1 (0, { key := [], since := 0, op := matOp (on .m false) .gang Z 0 0 0, verdict := 0 })).2 0 = .ok s2 :=
  ⟨_, _, _, rfl, by decide +kernel, by decide +kernel, by decide +kernel, by decide +kernel, by decide +kernel, rfl, rfl, rfl, rfl⟩

/-- One of two; two that do not agree; a member that another commit has met; a token; one that would fault, and one that waits. -/
theorem witness_Joins_others : (∃ joins, Joined ((joining [7, 7]).updCore 1 .m (fun c => { c with join := none })) 0 joins ∧ joins.length = 1 ∧ (1 : Nat) ≠ 2) ∧
    (∃ joins, Joined (joining [7, 8]) 0 joins ∧ joins.length = 2 ∧ ∃ u j, joins.head? = some (u, j) ∧ ∃ p ∈ joins, p.2.key ≠ j.key) ∧
    ((joining [7, 7]).updCore 0 .m (fun c => { c with chunk := c.chunk.map (fun h => { h with rset := [1], hit := [1] }) }) |>.core 0 .m).chunk.any
      (fun h => h.met && !h.single) = true ∧
    ({ joining [7, 7] with solo := [{ t := 5, k := .v, row := none }] } : State).soloBlocked 0 .m = true ∧
    (joining [7, 7]).runMember 0 { key := [], since := 0, op := matOp (on .m false) .mma { Za15 with a := .imm, b := .imm, c := .imm, imm := 0xFFFFF } 0 0 0, verdict := 0 } 0
      = .error true := by
  refine ⟨⟨_, rfl, by decide +kernel, by decide⟩, ⟨_, rfl, by decide +kernel, _, _, rfl, ?_⟩, by decide +kernel, rfl, rfl⟩
  exact ⟨_, List.mem_cons_of_mem _ (List.mem_singleton.mpr rfl), by decide +kernel⟩

/-- BCHK of a record that is misaligned, and of one with a bad word and none. -/
theorem witness_BeginCheck_words : let r : MRange := { a := 0x20000000, n := 16, kind := 3, buf := 2 }
    let s := withChunk (seg false false []) 0
    ((0x20000008 : Word).toNat % 16 ≠ 0) ∧ (∃ u, checkRanges [r] s = .ok ((), u) ∧ u.badWord (tileKey 0 2 0) 16 = none) ∧
    ∃ u, checkRanges [r] { s with poison := [tileKey 0 2 8] } = .ok ((), u) ∧ u.badWord (tileKey 0 2 0) 16 = some (tileKey 0 2 8) :=
  ⟨by decide, ⟨_, rfl, by decide +kernel⟩, _, rfl, by decide +kernel⟩

/-- A BENROL block of a secured segment: SEC is bit 62 of its first word; a handle that stands, and none. -/
def handleful : State := { seg true true [] with rsc := { (seg true true []).rsc with
  dom := some { domain := 0, leader := 0, members := [], digests := [], cur := some (1, 0), prev := none, pending := none, sentTo := [], acked := [], failed := [] }
  ticket := 1, handles := [] } }

theorem witness_Enrol_secured : (word (2 ^ 62)).getLsbD 62 = true ∧ handleful.handleKey 5 false 1 = none ∧
    ({ seg true true [] with ports := [] } : State).port false = Port.init ∧ Port.init.enrol = none ∧ Port.init.en = false := by decide +kernel

/-- A frame that no event brings, on one port and on both. -/
theorem witness_OwnFrames : (on .c false).frameOwed false = false ∧ (seg false false []).frameOwed false = true ∧
    (let s := seg false false []
     let u : State := { s.mediumFrame false (openFrame s.free) with free := s.free + 1 }
     u.frameOwed true = false) ∧
    (let s := { seg false false [] with ports := [(0, port1 false []), (1, port1 false [])] }
     let u : State := { s.mediumFrame false (openFrame s.free) with free := s.free + 1 }
     u.frameOwed true = true) := by
  refine ⟨by decide +kernel, by decide +kernel, ?_, ?_⟩
  · rfl
  · rfl

/-- CTXLOAD: a bad word of the V-core's registers behind its area, and none. -/
theorem witness_ContextLoad : let bad := fun (s : State) => (s.badWord (s.areaKey 0 .v) 2048).orElse (fun _ =>
      s.badWord (tileKey 0 0 ((s.tile 0).tailOfs + 0x2800)) 8192)
    bad (on .v true) = none ∧
    bad { on .v true with poison := [tileKey 0 0 (122 * 4096 + 0x2800 + 8184)] } = some (tileKey 0 0 (122 * 4096 + 0x2800 + 8184)) := by decide +kernel

/-- A chunk that has used a translation of the page invalidated. -/
theorem witness_Invalidations : let s := (on .c false).setMe { (on .c false).me with chunk := some { chunkOf (on .c false) with rset := [pageLine 3 30 5] } }
    0 ∈ s.tiles.map (·.1) ∧ pageLine 3 30 (5 * 2 ^ 30 / 2 ^ 30) ∈ ((s.me.chunk.map (·.rset)).getD []) ∧ s.me.atoms = [] := by decide +kernel

/-- An event that a solo token holds back, at a boundary and due. -/
theorem witness_CoreEvents_held : let s := { pended 4 with solo := [{ t := 5, k := .v, row := none }] }
    s.nextItem 0 .c = some 4 ∧ s.soloBlocked 0 .c = true ∧ (pended 4).soloBlocked 0 .c = false := by decide +kernel

/-- Two relaxed atomics whose words overlap, and two that do not. -/
theorem witness_CoreEvents_overlap : (atom1 1).overlaps { atom1 2 with wide := true, key := (atom1 1).key - 4 } = true ∧
    (atom1 1).overlaps { atom1 2 with key := (atom1 1).key - 4 } = false := by decide +kernel

/-- A slice whose launch slips: its allowance has run out, or it has been stopped already; its engines are idle, or a copy stands. -/
def slicing (slips : Bool) : State :=
  let g : Group := { st := .running, phase := 0, tick := 0, sel := 0, qlast := 0, relAt := 0, start := none, come := false, lastVtn := 0,
                     cancelledPhase := false, slipping := slips, sel0 := 0, s0 := some 0, started := false, gone := [] }
  { launched (mapped .c false) { launch1 with grp := some g } with gtc0 := if slips then 0 else 1000000000000 }

theorem witness_GangSlip : (slicing false).slipDeadline 0 < (slicing false).gtc ∧ (slicing false).job? 2 = some job2 ∧
    (∃ l', ([0].foldl (fun s t => s.slipStop t) (slicing false)).launch? 1 = some l' ∧
      l'.tiles.all ([0].foldl (fun s t => s.slipStop t) (slicing false)).enginesIdle = true) ∧
    (let s := { slicing true with ports := [(0, port1 false [exch1 false])] }
     ∃ l', ([0].foldl (fun s t => s.slipStop t) s).launch? 1 = some l') ∧
    ((slicing true).launches.headD launch1).grp.any (·.slipping) = true ∧ ((slicing false).tile 0).watch = some watch1 ∧
    launch1.slice.find? (fun v => v.vtn == watch1.vtn) = none := by
  refine ⟨by decide +kernel, rfl, ⟨_, rfl, by decide +kernel⟩, ⟨_, rfl⟩, by decide +kernel, rfl, rfl⟩

/-- A tile that has drained, of a launch. -/
theorem witness_Drained : let s := (mapped .c false).updTile 0 (fun x => { x with draining := true, drainOf := some 1, drain := 2 })
    s.drained 0 = true ∧ (s.tile 0).drainOf = some 1 ∧ s.launch? 1 = some launch1 ∧ (mapped .c false).drained 0 = false := by decide +kernel

/-- A computation that fails. -/
theorem exists_error {ε α : Type} {r : Except ε α} (h : r.toBool = false) : ∃ e, r = .error e := by
  cases r with
  | error e => exact ⟨e, rfl⟩
  | ok p => cases h

/-! ### Dispatch, queues, the host and the command processors: further clauses -/

/-- A descriptor of zeros at 0x20000 reads, and the lowest cause is 1; one of a single tile with a cause of its own; one with none. -/
theorem witness_Launches_dispatch : ∃ bs u, State.gBytes { mapped .c false with nextId := 2 } job2 0x20000 128 = .ok (bs, u) ∧
    (∀ x ∈ (mapped .c false).launches, x.id ≠ 1 + 1) ∧ 1 ∈ u.launchCauses job2 (wordsOf bs) ∧ 2 ∈ u.launchCauses job2 (wordsOf bs) :=
  ⟨_, _, rfl, by decide +kernel, by decide +kernel, by decide +kernel⟩

/-- A launch that waits for tiles of which one holds a watch; it is aged, or not. -/
def awaiting (aged : Bool) (d : List Word) : State := { mapped .c false with
  launches := [{ launch1 with state := 0, d := d, aged := aged }] }

def wait1 : Wait := { pri := 0, at_ := 0, id := 1, gang := none }

theorem witness_Launches_aged : ∀ aged, let s := awaiting aged (launchD 1 1 true)
    s.waits = [wait1] ∧ s.placeOne wait1 = none ∧ s.isAged wait1 = aged := by decide +kernel

/-- A launch that fits: its image cannot be read, or can, and has a task. -/
theorem witness_Launches_placed : let l := { launch1 with state := 0, d := (launchD 1 1 false).set 3 0x40000000 }
    (∃ ts, fitTiles (awaiting false l.d).tileFree l.d = some ts) ∧ (awaiting false l.d).launch? 1 = some l ∧
    fitTiles (awaiting false (launchD 1 1 true)).tileFree (launchD 1 1 true) = none ∧
    (CoreK.all.any (fun k => dTask (List.replicate 16 0xFFFFFFFFFFFFFFFF) k)) = true ∧
    ∃ bs u, (awaiting false l.d).gBytes job2 0x20000 4096 = .ok (bs, u) := by
  refine ⟨Option.isSome_iff_exists.mp (by decide +kernel), by decide +kernel, by decide +kernel, by decide +kernel, exists_ok (by decide +kernel)⟩

/-- A run goes off its last node, and to it; a LOOP's word that is there, and that is not yet. -/
theorem witness_Graphs_ends : run1.nnodes ≤ 4096 ∧ 4095 < run1.nnodes ∧ (word (2 ^ 63)).getLsbD 63 = true ∧ (0 : Word).getLsbD 63 = false ∧
    nodeBad [word (4 * 2 ^ 60 + 4095 * 2 ^ 8), 0x20000, 0, 0] = false := by decide +kernel

/-- A packet that has changed since it was fetched, or has HEAD passed it; one that waits for the queue's others. -/
theorem witness_Queues_again : let s := queueing (queue1 [(0, nop8)])
    let w : List Word := 0x8000000000 :: List.replicate 7 0
    readTwice nop8 0x8000000000 (some w) w ∧ (queueing { queue1 [(0, nop8)] with tail := 17 }).pickQueue = some 1039 ∧
    (∀ b, b ∈ [true, false] → ∃ x v, s.mayStart { queue1 [] with active := x } v = b) :=
  ⟨.inr ⟨by decide, rfl, rfl⟩, by decide +kernel, fun b h => by
    rcases List.mem_cons.mp h with rfl | h
    · exact ⟨[], nop8, by decide +kernel⟩
    · cases List.mem_singleton.mp h
      exact ⟨[{ idx := 0, st := 0, run := none, w := word (5 * 2 ^ 56) :: List.replicate 7 0 }], nop8, by decide +kernel⟩⟩

/-- Packets that halt their queue: an OPEN_JOB of zeros; another function's; one whose word is misaligned, and one whose walk fails. -/
theorem witness_Queues_causes : let w := fun (k : Nat) (a : Word) => [word (k * 2 ^ 56), a, 2, 0, 0, 0, 0, 0]
    let s := mapped .c false
    pkBad (w 1 0) = false ∧ s.openRefused 1039 (s.jobDesc 0) = true ∧ pkBad (w 6 1) = false ∧ s.job? (pkJid (w 6 1)) = some job2 ∧
    16 ≤ 1039 ∧ job2.vfn ≠ some (1039 / 16 - 1) ∧ (1 : Word).toNat % 8 ≠ 0 ∧
    ∃ f, s.xlateJob job2 (pkKind (w 6 0x40000000) == 6) (wd (w 6 0x40000000) 1).toNat = .error f :=
  ⟨by decide, by decide +kernel, by decide, rfl, by decide, by decide, by decide, exists_error (by decide +kernel)⟩

/-- No job closes; the word that a WAIT_MEM reads cannot be read; a CLOSE_JOB with work of its job due, and without. -/
theorem witness_Packets_others : (∀ j ∈ (working 6 0).jobs, j.closing = false) ∧
    (∃ f, (working 5 0).gRead job2 0x40000000 8 = .error f) ∧ (working 3 0).jobDue 2 = true ∧ (working 2 0).jobDue 2 = false ∧
    (working 2 0).jobIdle job2 = false ∧ ({ working 2 0 with launches := [], tiles := [] } : State).jobIdle job2 = true :=
  ⟨by decide, exists_error (by decide +kernel), by decide +kernel, by decide +kernel, by decide +kernel, by decide +kernel⟩

/-- The mailbox with a request and without, and its codes. -/
theorem witness_Host_mailbox : Word.bits (word (2 ^ 56)) 56 8 = 1 ∧ State.reset.side.req = none ∧ Word.bits (5 : Word) 0 8 = 5 ∧ (0x403F : Nat) % 8 ≠ 0 ∧
    ({ State.reset with side := { State.reset.side with req := some 1 } } : State).side.req.isSome = true := by decide

/-- A vector that is unmasked, and one that is not. -/
theorem witness_Host_vectors : let p : PciFn := { State.reset.pciFn 64 with msixOn := true, fmask := false, table := [(16, { addr := 0, data := 0, masked := false })] }
    ((State.reset.setPciFn 64 p).pciFn 64).unmasked 16 = true ∧ (State.reset.pciFn 64).unmasked 16 = false := by decide +kernel

/-- A window access whose walk fails, and one that meets a bad word. -/
theorem witness_Host_windows : let s := { mapped .c false with dwin := [(0, word (2 ^ 63 + 2))] }
    s.window 0 0x40000000 = some (job2, 0x40000000) ∧ (∃ e, s.windowPlaces job2 false 0x40000000 8 = .error e) ∧
    ∃ p u, s.windowPlaces job2 false 0x30000 8 = .ok ([(p, 8)], u) ∧ u.badPlace p 8 = none ∧
      (State.badPlace { u with poison := [hbmKey 0x30000] } p 8).isSome = true :=
  ⟨by decide +kernel, exists_error (by decide +kernel), _, _, rfl, by decide +kernel, by decide +kernel⟩

/-- The page of the dirty bitmap that a WVAL_READ reads, bad and not; a virtual function that migrates. -/
theorem witness_Host_migration : State.reset.badWord (hbmKey ((State.reset.migOf 63).dbase.toNat * 2 ^ 21 + 8 * (State.reset.migOf 63).widx.toNat)) 8 = none ∧
    (State.badWord { State.reset with poison := [hbmKey 0] } (hbmKey ((State.reset.migOf 63).dbase.toNat * 2 ^ 21 + 8 * (State.reset.migOf 63).widx.toNat)) 8).isSome = true ∧
    ((State.reset.setMig 63 { State.reset.migOf 63 with state := 1 }).migOf 63).state = 1 := by decide +kernel

/-- A transfer that stands under a tag, and none. -/
theorem witness_Fabric_transfers : let s := (on .x false).updTile 0 (fun x => { x with tags := [(63, { pieceTag with transfer := 9 })] })
    s.transferAt 9 = some (0, 63) ∧ s.transferAt 8 = none ∧ (0 : Nat) < pieceTag.total ∧ pieceTag.total ≤ 64 := by decide +kernel

/-- A mailbox request that the RSC has taken; an object in the DOE mailbox, and none; a member that is asked. -/
theorem witness_Trust_requests : (∀ c, c ∈ [1, 2, 3, 4, 5] →
      ({ State.reset with side := { State.reset.side with req := some c } } : State).side.req = some c) ∧
    boxRow .leave = some 2 ∧ (State.reset.pciFn 0).doeBusy = false ∧
    ((State.reset.setPciFn 0 { State.reset.pciFn 0 with doeBusy := true }).pciFn 0).doeBusy = true ∧
    (smFind ({ inDomain.rsc with asking := [(7, { phase := 0, betweenPackages := false, updates := 0 })] } : Rsc).asking 7).isSome = true ∧ domain1.acked.contains 7 = false := by decide +kernel

/-- The interrupts of a command processor, by priority, and none while MIE is 0. -/
theorem witness_CommandProcessor_interrupts : let c := fun (on : Word) (mie : Word) =>
      ({ Cp.init with mstatus := mie, mie := on, mip := on } : Cp).interrupt
    c 0x888 8 = some 11 ∧ c 0x88 8 = some 3 ∧ c 0x80 8 = some 7 ∧ c 0 8 = none ∧ c 0x888 0 = none := by decide

/-! ## Published values of the ciphers and hashes -/

/-- FIPS 197, C.3: AES-256 of 00112233…FF under the key 000102…1F. -/
theorem test_aes256 : aes256 (List.range 32) ((List.range 16).map (17 * ·)) =
    [0x8E, 0xA2, 0xB7, 0xCA, 0x51, 0x67, 0x45, 0xBF, 0xEA, 0xFC, 0x49, 0x90, 0x4B, 0x49, 0x60, 0x89] := by decide +kernel

/-- FIPS 180-4's example: SHA-512 of "abc" begins with DDAF35A193617ABA. -/
theorem test_sha512 : (sha512 [0x61, 0x62, 0x63]).take 8 = [0xDD, 0xAF, 0x35, 0xA1, 0x93, 0x61, 0x7A, 0xBA] := by decide +kernel

/-- R219, R232, R264: an immediate as AF of a compare by a constant, and as CF of a compare-and-swap beside BF. -/
theorem test_decode_immediates : [decode (W 0x059 0 0x80 0xC1 0 0 5 0), decode (W 0x0F0 0 0x80 0x81 0xC1 0xC1 5 0)] =
    [.ok (.cmpeqi (X 0 (.m 0) .imm .prv .prv 5 0)), .ok (.acas 0 (X 0 (.m 0) (.m 1) .imm .imm 5 0))] := rfl

end Sys2Proof.Tests
end

section
/-!
SUPPORT. O59 asks for no canonical form of the memory (`State.Form`) in the state that an instruction issues from. Where the
form holds, a commit by no virtual function leaves every byte outside its own as it was (`State.commitBytes_byte`); where it
does not, one need not. The state here has one uncached page under a key, and a memory whose two entries stand out of order: address 1 is listed
before address 0, so address 0 reads as unwritten. An uncached store of the byte 0 at address 1 commits with its instruction
(R80, log entry 14); it takes the entry of address 1 off the list, and the entry of address 0 comes to be read.
-/
namespace Sys2Proof.UnsortedMemory
open Sys2Proof Sys2Proof.Machine Sys2Proof.Claims

/-- ST of the low byte of the constant zero at address 1: no predicate, no wait and no signal (R253, R255). -/
def storeZeroByte : Ops :=
  { h := { prd := 0, wsem := 0, wthr := 0, ssem := 0, sinc := 0 }
    fmt := 6, d := .prv, a := .zero, b := .zero, c := .zero, imm := 1, mod := 0 }

/-- The cached leaf of the page at 0: valid, HBM, writable, uncached, with A and D set, under key slot 0 (R34, R37). -/
def uncachedPage : Tlb := { ctx := 0, page := 0, log := 16, leaf := 0xC000000270000000 }

/-- The part after a start, but for the loaded key slot, the cached page and the two entries of the memory. -/
def start : State :=
  { State.reset with
    mem := [(1, 1), (0, 7)]
    tiles := [(0, { Tile.init with tlb := [uncachedPage] })]
    rsc := { State.reset.rsc with slots := [(0, { ctx := 0, load := 0, closing := false, session := 0 })] } }

/-- The chunk that the store begins. -/
def begun : Chunk := start.newChunk 0 Regs.init none 0

/-- The state that the store issues in. -/
def issued : State := start.setMe { Core.init with chunk := some begun }

/-- The state once the page has been translated: its line stands in the chunk's read set (R39). -/
def translated : State := issued.setMe { Core.init with chunk := some { begun with rset := [pageLine 0 16 0] } }

/-- The state that its effect leaves: one byte in the chunk, under the number of the page's key, and the chunk closed for its
single-access commit (R80). -/
def buffered : State := issued.setMe { Core.init with chunk := some { begun with
  rset := [pageLine 0 16 0], stores := [(1, 0)], skey := [(1, 2)], bytes := 1, pkg := true, closed := true, single := true } }

/-- What follows the effect. -/
def followed : State := buffered.follow .base storeZeroByte

theorem issues : Issues .base storeZeroByte start issued where
  gate := rfl
  ready := rfl
  holds := rfl
  room := nofun
  queue := nofun
  first := nofun

theorem issued_tidy : tidy issued := by
  refine ⟨rfl, fun h hc => ?_⟩
  obtain rfl : begun = h := Option.some.inj hc
  exact ⟨rfl, fun _ => ⟨rfl, rfl, rfl⟩⟩

theorem storeZeroByte_noStream : noStream storeZeroByte := fun _ => ⟨nofun, nofun, nofun, nofun⟩

/-- The access that the store makes. -/
def access : Acc := accOf 1 true (accessed false storeZeroByte 0 0)

/-- The page is found in the tile's cache, and its line enters the chunk's read set (R37, R39). -/
theorem page_found : xlate access 1 issued = .ok (.mem 1 2 true, translated) := rfl

theorem byte_buffered : writePlace (.mem 1 2 true) [0] translated = .ok ((), buffered) := rfl

theorem write_buffers : writeGlob access 1 [0] issued = .ok ((), buffered) := by
  have noApertures : useApts 1 issued = .ok ([], issued) := rfl
  exact (Exec.bind_ok noApertures).trans ((Exec.bind_ok page_found).trans byte_buffered)

theorem store_buffers : storeInt storeZeroByte (accessed false storeZeroByte 0 0) 0 issued = .ok ((), buffered) := by
  have located : locate access 1 false issued = .ok (.glob 1, issued) := rfl
  exact (Exec.bind_ok located).trans write_buffers

/-- No token holds the commit back, and no other commit has met the chunk. -/
theorem store_ends : Ends .base storeZeroByte issued (updated false storeZeroByte (effective storeZeroByte 0 0) buffered) followed :=
  ⟨finish_follow rfl rfl, fun _ _ => rfl⟩

theorem store_leads : issued.spotOf false (accessed false storeZeroByte 0 0) = .ok (.glob 1) := rfl

/-- The store names the byte at address 1 alone. -/
theorem stored_at : storedAt (accOf 1 true (accessed false storeZeroByte 0 0)) (.glob 1) (storeWidth (.st storeZeroByte)) issued
    [.mem 1 2 true] := ⟨_, rfl⟩

/-- Address 0 reads as 0 before the store commits, and as 7 after it. -/
theorem commit_uncovers : memByte issued.mem 0 = 0 ∧ memByte (issued.done .base followed).mem 0 = 7 := ⟨rfl, rfl⟩

end Sys2Proof.UnsortedMemory

namespace Sys2Proof.Claims
open Sys2Proof Sys2Proof.Machine Sys2Proof.UnsortedMemory

/-- Refutes O59 in its clause on stores, which lacks the hypothesis `s0.Form`: in a state whose memory is not in the canonical
form, an uncached store of the byte 0 at address 1 changes what address 0 reads as. -/
theorem not_registerInstructionsKeepTheRest : ¬ Obligations.RegisterInstructionsKeepTheRest := by
  unfold Obligations.RegisterInstructionsKeepTheRest
  rintro ⟨-, -, -, -, -, -, stores⟩
  obtain ⟨-, outside, -⟩ := stores (.st storeZeroByte) storeZeroByte _ false start issued buffered followed 0 0 0 (.glob 1)
    [.mem 1 2 true] rfl issues issued_tidy rfl storeZeroByte_noStream rfl rfl rfl store_buffers store_ends store_leads stored_at
  obtain ⟨before, after⟩ := commit_uncovers
  have kept : memByte (issued.done .base followed).mem 0 = memByte issued.mem 0 := (outside 0 (by simp)).1
  rw [before, after] at kept
  exact absurd kept (by decide)

end Sys2Proof.Claims
end

section
/-!
SUPPORT. The state after reset: who owns a tile's slabs. R50 gives every WB slab of a tile to the engines and every LM and AB slab to
the cores, and so does the model's reset; O10 asks for O = 0 on the slabs of every buffer.
-/
namespace Sys2Proof.Machine

/-- At reset the engines own the slabs of WB, and of no other buffer (R50). -/
theorem slabEngine_reset (t b n : Nat) : (State.reset.tile t).slabEngine b n = decide (b = 1) := by
  by_cases h : b = 1
  · subst h
    rfl
  · rw [decide_eq_false h]
    exact if_neg h

end Sys2Proof.Machine

namespace Sys2Proof.Claims
open Sys2Proof Sys2Proof.Machine

/-- Refutes O10 in its clause on slabs: slab 0 of WB (buffer 1) of tile 0 is the engines' after reset, as R50 has it, while the
clause gives the slabs of every buffer to the cores. -/
theorem not_resetState : ¬ Obligations.ResetState := by
  unfold Obligations.ResetState
  rintro ⟨-, -, -, -, -, -, -, -, tiles, -⟩
  obtain ⟨-, -, -, -, -, -, -, slabs⟩ := tiles 0
  have core : (State.reset.tile 0).slabEngine 1 0 = false := (slabs 1 0).1
  rw [slabEngine_reset] at core
  exact absurd core (by decide)

end Sys2Proof.Claims
end

section
/-!
SUPPORT. Addresses: the space that a top byte names, and what `spotOf` and `locate` answer for each space (R10, R16, R40).
-/
namespace Sys2Proof.Machine

/-- The top byte that R10 reads is what a shift by 56 leaves. -/
theorem topByte_eq_shift (a : Word) : topByte a = (a >>> 56).toNat := by
  have := a.isLt
  simp only [topByte, Word.bits, bitsAt, BitVec.toNat_ushiftRight, Nat.shiftRight_eq_div_pow]
  omega

/-- The low bits of an address. -/
theorem bits_low (a : Word) (n : Nat) : Word.bits a 0 n = a.toNat % 2 ^ n := by
  simp [Word.bits, bitsAt]

theorem spotOf_global {s : State} {v : Bool} {a : Word} (h : spaceCode a = 0) :
    s.spotOf v a = .ok (.glob (a.toNat % 2 ^ 56)) := by
  simp only [State.spotOf, h, bits_low]

theorem spotOf_private_mbz {s : State} {v : Bool} {a : Word} (h : spaceCode a = 1) (hz : Word.bits a 32 24 ≠ 0) :
    s.spotOf v a = .error (Code.protection, 5) := by
  simp only [State.spotOf, h, if_pos hz]

/-- A private address leads where its offset does, or nowhere. -/
theorem spotOf_private {s : State} {v : Bool} {a : Word} (h : spaceCode a = 1) (hz : Word.bits a 32 24 = 0) :
    s.spotOf v a = (s.me.privSpot s.curTile (a.toNat % 2 ^ 32)).elim (.error (Code.protection, 6)) .ok := by
  simp only [State.spotOf, h, hz, bits_low, ne_eq, not_true_eq_false, if_false]
  cases s.me.privSpot s.curTile (a.toNat % 2 ^ 32) <;> rfl

theorem spotOf_local {s : State} {v : Bool} {a : Word} (h : spaceCode a = 2) :
    s.spotOf v a =
      if Word.bits a 40 16 ≠ 0 ∨ Word.bits a 19 11 ≠ 0 then .error (Code.protection, 5)
      else if s.me.regs.priv = false ∧ (s.tile s.curTile).inTail (a.toNat % 2 ^ 19) = true then .error (Code.protection, 7)
      else if Word.bits a 30 10 = s.curTile then .ok (.tile s.curTile 0 (a.toNat % 2 ^ 19))
      else .error (Code.foreignLocal, 1) := by
  simp only [State.spotOf, h, bits_low, Bool.not_eq_true', ne_eq, ite_not]

theorem spotOf_row {s : State} {v : Bool} {a : Word} (h : spaceCode a = 3) (hz : Word.bits a 24 32 = 0)
    (hb : a.getLsbD 19 = false) :
    let t := s.curTile / 16 * 16 + Word.bits a 20 4
    s.spotOf v a = if s.me.regs.priv = false ∧ (s.tile t).inTail (a.toNat % 2 ^ 19) = true
      then .error (Code.protection, 7) else .ok (.tile t 0 (a.toNat % 2 ^ 19)) := by
  simp only [State.spotOf, h, hz, hb, bits_low, ne_eq, not_true_eq_false, Bool.false_eq_true, or_self, if_false,
    Bool.not_eq_true']

theorem spotOf_nowhere {s : State} {v : Bool} {a : Word} (h : spaceCode a = 15) :
    s.spotOf v a = .error (Code.spaceClosed, 1) := by
  simp only [State.spotOf, h]

/-- A private offset in the carve-out lies in LM, one behind it in the overflow area, and one past both nowhere (R16). -/
theorem privSpot_cases (c : Core) (t o : Nat) :
    let carve := Word.bits c.cpriv 0 8 * 4096
    (o < carve → c.privSpot t o = some (.tile t 0 (Word.bits c.cpriv 8 8 * 4096 + o))) ∧
    (carve ≤ o → o < carve + Word.bits c.covf 0 16 * 65536 →
      c.privSpot t o = some (.glob (Word.bits c.covf 16 40 * 65536 + (o - carve)))) ∧
    (carve + Word.bits c.covf 0 16 * 65536 ≤ o → c.privSpot t o = none) := by
  refine ⟨fun h => if_pos h, fun h1 h2 => ?_, fun h => ?_⟩
  · exact (if_neg (by omega)).trans (if_pos (by omega))
  · exact (if_neg (by omega)).trans (if_neg (by omega))

/-- Where an address leads, an access of the right alignment is located; another is misaligned. -/
theorem locate_cases {s : State} {c : Acc} {p : Spot} {v : Bool} (al : Nat) (h : s.spotOf v c.addr = .ok p) :
    (c.addr.toNat % al = 0 → locate c al v s = .ok (p, s)) ∧
    (c.addr.toNat % al ≠ 0 → ∃ cause, locate c al v s = .error (.trap (s.accTrap c Code.misaligned cause))) := by
  simp only [locate, h]
  exact ⟨fun h0 => if_neg (not_not_intro h0), fun h0 => ⟨_, if_pos h0⟩⟩

end Sys2Proof.Machine

namespace Sys2Proof.Claims
open Sys2Proof Sys2Proof.Machine

theorem topByteNamesTheSpace : TopByteNamesTheSpace := by
  intro a
  rw [← topByte_eq_shift]
  simp only [spaceCode]
  refine ⟨fun h => ?_, fun h => ?_, fun h => ?_, fun h => ?_, fun h1 h2 => ?_, fun h => ?_⟩
  · simp [h]
  · simp [h]
  · simp [h]
  · simp [h]
  · rw [if_neg (by omega), if_neg (by omega), if_neg (by omega), if_neg (by omega), if_pos ⟨h1, h2⟩]
  · rw [if_neg (by omega), if_neg (by omega), if_neg (by omega), if_neg (by omega), if_neg (by omega)]

theorem addressesLeadToTheirSpace : AddressesLeadToTheirSpace := by
  refine ⟨fun s a => spotOf_global, fun s a => spotOf_private_mbz, fun s a h hz => ?_, fun s a h h1 h2 => ?_,
    fun s a h hz => ?_, fun s a => spotOf_row, fun s a => spotOf_nowhere, fun s c al t b o => locate_cases al⟩
  · obtain ⟨lm, ovf, past⟩ := privSpot_cases s.me s.curTile (a.toNat % 2 ^ 32)
    rw [spotOf_private h hz]
    exact ⟨fun ho => by rw [lm ho]; rfl, fun h1 h2 => by rw [ovf h1 h2]; rfl, fun ho => by rw [past ho]; rfl⟩
  · rw [spotOf_local h, if_neg (by simp [h1, h2])]
    refine ⟨fun ht => if_pos ht, fun ht => if_neg ?_⟩
    rintro ⟨user, tail⟩
    exact ht.elim (fun priv => by simp [user] at priv) (fun out => by rw [tail] at out; cases out)
  · rw [spotOf_local h, if_pos hz]

/-- Settles O23: `spaceCode` by the ranges of the top byte, and `spotOf` space by space. -/
theorem addressesNameAndReachTheirSpace : Obligations.AddressesNameAndReachTheirSpace :=
  ⟨topByteNamesTheSpace, addressesLeadToTheirSpace⟩

end Sys2Proof.Claims
end

section
/-!
SUPPORT. One level of a page walk, by the entry found there (R33, R34, R37).
-/
namespace Sys2Proof.Machine

/-- The lowest index bit at a level, which is also log2 of the page of a leaf there (R33). -/
def levelLow (l : Nat) : Nat := [43, 30, 21, 16].getD l 0

/-- The number of index bits at a level (R33). -/
def levelBits (l : Nat) : Nat := [13, 13, 9, 5].getD l 0

theorem levelOf_eq {l : Nat} (h : l < 4) : levelOf l = (levelLow l, levelBits l, if l = 0 then 0 else levelLow l) := by
  match l, h with
  | 0, _ | 1, _ | 2, _ | 3, _ => rfl

/-- Where no word is marked bad, none is found. -/
theorem badWord_of_unmarked {s : State} (h : s.poison = []) (key n : Nat) : s.badWord key n = none := by
  simp [State.badWord, h]

/-- The place of the entry that a walk reads at a level. -/
def entryAt (l table va : Nat) : Nat := table + 8 * (va / 2 ^ levelLow l % 2 ^ levelBits l)

/-- The entry that a walk finds at a level: the one that the walker keeps, or else memory's (R37). -/
def entryOn (s : State) (ctx : Byte) (old : List Tlb) (l table va : Nat) : Word :=
  ((old.find? (fun u => u.serves ctx va && u.log == levelLow l)).map (·.leaf)).getD (word (s.readNat 0 (entryAt l table va) 8))

/-- One level of a walk in an aligned table of an unmarked memory, by the entry found there. -/
theorem walkFrom_level {s : State} {ctx : Byte} {old : List Tlb} {l table va : Nat} {e : Word} (hl : l < 4)
    (ht : table < 2 ^ 40) (ha : table % (8 * 2 ^ levelBits l) = 0) (hp : s.poison = [])
    (he : entryOn s ctx old l table va = e) :
    s.walkFrom ctx old (4 - l) l table va =
      if e.getLsbD 63 = false then (.fault (1 + l), [])
      else if e.getLsbD 62 = true ∧ leafTgt e = 3 then (.fault 8, [])
      else if (e.getLsbD 62 = true ∧ l = 0) ∨ (e.getLsbD 62 = false ∧ l = 3) then (.fault 9, [])
      else if e.getLsbD 62 = true then
        if leafFrame e % 2 ^ ((if l = 0 then 0 else levelLow l) - 16) ≠ 0 then (.fault 0x0A, [])
        else (.leaf e (entryAt l table va) (if l = 0 then 0 else levelLow l), [])
      else
        let r := s.walkFrom ctx old (4 - (l + 1)) (l + 1) (Word.bits e 0 36 * 256) va
        (r.1, { ctx := ctx, page := va / 2 ^ levelLow l, log := levelLow l, leaf := e } :: r.2) := by
  obtain ⟨fuel, hf⟩ : ∃ fuel, 4 - l = fuel + 1 := ⟨3 - l, by omega⟩
  have hn : 4 - (l + 1) = fuel := by omega
  subst he
  rw [hf, hn, State.walkFrom, levelOf_eq hl]
  simp only [if_neg (Nat.not_le.mpr ht), if_neg (not_not_intro ha), badWord_of_unmarked hp, Option.isSome_none,
    Bool.false_eq_true, and_false, if_false, bitsAt, Bool.not_eq_true']
  cases h : old.find? (fun u => u.serves ctx va && u.log == levelLow l) <;> simp only [entryOn, h] <;> rfl

end Sys2Proof.Machine

namespace Sys2Proof.Claims
open Sys2Proof Sys2Proof.Machine

/-- Settles O21: what one level of the walk does, with the entry found there taken case by case. -/
theorem walksFollowTheTable : Obligations.WalksFollowTheTable := by
  intro s ctx old l table va hl ht lo n ha at_ e w hp
  have level : w = _ := walkFrom_level (e := e) hl ht ha hp rfl
  rw [level]
  refine ⟨fun invalid => if_pos invalid, fun valid below h3 => ?_, fun valid leaf tgt h0 frame => ?_, fun valid below h3 => ?_⟩
  · have notLast : l ≠ 3 := by omega
    simp only [valid, below, notLast, Bool.true_eq_false, Bool.false_eq_true, false_and, and_false, or_self, if_false]
    rfl
  · have notFirst : l ≠ 0 := by omega
    have frame : leafFrame e % 2 ^ (levelLow l - 16) = 0 := frame
    simp only [valid, leaf, tgt, notFirst, frame, Bool.true_eq_false, false_and, and_false, or_self, if_false, if_true,
      ne_eq, not_true_eq_false]
    rfl
  · simp only [valid, below, h3, Bool.true_eq_false, Bool.false_eq_true, false_and, and_self, or_true, if_false, if_true]

end Sys2Proof.Claims
end

section
/-!
SUPPORT. A claim on an instruction, by its effect: what `runCore` makes of an effect that ends, that traps, that stalls.
-/
namespace Sys2Proof.Claims
open Sys2Proof Sys2Proof.Machine

theorem does_of_body {e : Entry} {x : Ops} {i : Instr} {body : Exec Unit} {s s0 s1 : State} (hx : exec i s = runCore e x body s)
    (hb : body s0 = .ok ((), s1)) : Does e x i s s0 s1 :=
  fun hi _ ht => hx.trans (runCore_ends hi hb ht)

theorem traps_of_body {e : Entry} {x : Ops} {i : Instr} {body : Exec Unit} {s s0 : State} {tr : TrapInfo}
    (hx : exec i s = runCore e x body s) (hb : body s0 = .error (.trap tr)) : Traps e x i s s0 tr :=
  fun hi => hx.trans (runCore_trap hi hb)

theorem waits_of_body {e : Entry} {x : Ops} {i : Instr} {body : Exec Unit} {s s0 : State} {f : State → State}
    (hx : exec i s = runCore e x body s) (hb : body s0 = .error (.stall f)) : Waits e x i s s0 f :=
  fun hi => hx.trans (runCore_stall hi hb)

end Sys2Proof.Claims
end

section
/-!
SUPPORT. Invalidations of translations: what dropping cached entries and meeting chunks with a commit's lines leave of a tile and of a
core, and what an invalidation makes of both (R39, R74, R358).
-/
namespace Sys2Proof.Machine

/-- A map's read of a key after the same change of every listed value, one that leaves the unlisted value as it is. -/
theorem smGet_map {α : Type} {d : α} {f : α → α} (hd : f d = d) (m : SMap α) (i : Nat) :
    smGet d (m.map (fun (k, v) => (k, f v))) i = f (smGet d m i) := by
  induction m with
  | nil => exact hd.symm
  | cons e m ih =>
    simp only [List.map_cons, smGet, ih]
    split
    · rfl
    · split
      · exact hd.symm
      · rfl

/-- A value that is not the unlisted one is listed at its key. -/
theorem mem_of_smGet {α : Type} {d : α} {m : SMap α} {i : Nat} (h : smGet d m i ≠ d) : (i, smGet d m i) ∈ m := by
  induction m with
  | nil => exact absurd rfl h
  | cons e m ih =>
    simp only [smGet] at h ⊢
    split
    · next hi => simp [hi]
    · next hi =>
      rw [if_neg hi] at h
      split at h
      · exact absurd rfl h
      · next hlt =>
        rw [if_neg hlt]
        exact List.mem_cons_of_mem _ (ih h)

/-- What a set holds after a number has been added. -/
theorem mem_setAdd {a i : Nat} {l : List Nat} : a ∈ setAdd l i ↔ a = i ∨ a ∈ l := by
  induction l with
  | nil => simp [setAdd]
  | cons k t ih =>
    simp only [setAdd]
    split
    · next h => simp [h]
    · split
      · simp
      · simp only [List.mem_cons, ih]
        tauto

theorem mem_foldl_setAdd {a : Nat} {ls l : List Nat} : a ∈ ls.foldl setAdd l ↔ a ∈ ls ∨ a ∈ l := by
  induction ls generalizing l with
  | nil => simp
  | cons i ls ih =>
    simp only [List.foldl_cons, ih, mem_setAdd, List.mem_cons]
    tauto

/-- A core has no chunk unless its tile is listed, and the core in it. -/
theorem tile_listed {s : State} {t : Nat} {k : CoreK} (h : (s.core t k).chunk ≠ none) : (t, s.tile t) ∈ s.tiles := by
  refine mem_of_smGet fun e => h ?_
  rw [State.core, State.tile, e]
  rfl

/-- A core whose answered walks have lost the translations that go. -/
def Core.without (c : Core) (gone : Tlb → Bool) : Core :=
  { c with walks := c.walks.filter (fun m => match m.ans with
    | some (.leaf e log) => !gone { ctx := c.cctx, page := m.va / 2 ^ log, log := log, leaf := e }
    | _ => true) }

/-- A tile whose cache and cores have lost the translations that go. -/
def Tile.without (x : Tile) (gone : Tlb → Bool) : Tile :=
  { x with tlb := x.tlb.filter (fun l => !gone l), cores := x.cores.map (fun (k, c) => (k, c.without gone)) }

/-- A chunk that lines of a commit have reached (R79). -/
def Chunk.hitBy (h : Chunk) (lines : List Nat) : Chunk := { h with hit := lines.foldl setAdd h.hit }

/-- A core whose chunk lines of a commit have reached. -/
def Core.hitBy (c : Core) (lines : List Nat) : Core := { c with chunk := c.chunk.map (fun h => h.hitBy lines) }

/-- A tile whose chunks lines of a commit have reached. -/
def Tile.hitBy (x : Tile) (lines : List Nat) : Tile := { x with cores := x.cores.map (fun (k, c) => (k, c.hitBy lines)) }

theorem State.tile_dropTlb (s : State) (gone : Tlb → Bool) (n : Nat) : (s.dropTlb gone).tile n = (s.tile n).without gone :=
  smGet_map (d := Tile.init) (f := fun x => x.without gone) rfl s.tiles n

theorem State.rowTlb_dropTlb (s : State) (gone : Tlb → Bool) (n : Nat) :
    smGet [] (s.dropTlb gone).rowTlb n = (smGet [] s.rowTlb n).filter (fun l => !gone l) :=
  smGet_map (f := List.filter (fun l => !gone l)) rfl s.rowTlb n

theorem State.upper_dropTlb (s : State) (gone : Tlb → Bool) (n : Nat) :
    smGet [] (s.dropTlb gone).upper n = (smGet [] s.upper n).filter (fun l => !gone l) :=
  smGet_map (f := List.filter (fun l => !gone l)) rfl s.upper n

theorem State.tile_conflict (s : State) (lines : List Nat) (n : Nat) : (s.conflict lines).tile n = (s.tile n).hitBy lines :=
  smGet_map (d := Tile.init) (f := fun x => x.hitBy lines) rfl s.tiles n

theorem State.chunk_dropTlb (s : State) (gone : Tlb → Bool) (t : Nat) (k : CoreK) :
    ((s.dropTlb gone).core t k).chunk = (s.core t k).chunk := by
  rw [State.core, State.tile_dropTlb]
  have core := smGet_map (d := Core.init) (f := fun c => c.without gone) rfl (s.tile t).cores k.idx
  exact (congrArg Core.chunk core :)

theorem State.chunk_conflict (s : State) (lines : List Nat) (t : Nat) (k : CoreK) :
    ((s.conflict lines).core t k).chunk = (s.core t k).chunk.map (fun h => h.hitBy lines) := by
  rw [State.core, State.tile_conflict]
  have core := smGet_map (d := Core.init) (f := fun c => c.hitBy lines) rfl (s.tile t).cores k.idx
  exact (congrArg Core.chunk core :)

/-- A line that a commit has written and that the chunk has read meets the chunk. -/
theorem Chunk.met_hitBy {h : Chunk} {lines : List Nat} {a : Nat} (ha : a ∈ lines) (hr : a ∈ h.rset) :
    (h.hitBy lines).met = true := by
  have hit : (h.hitBy lines).hit.any (fun l => (h.hitBy lines).rset.contains l) = true :=
    List.any_eq_true.mpr ⟨a, mem_foldl_setAdd.mpr (.inl ha), List.contains_iff_mem.mpr hr⟩
  rw [Chunk.met, hit, Bool.true_or]

/-- No cache keeps an entry that is dropped. -/
theorem State.kept_dropTlb {s : State} {gone : Tlb → Bool} {n : Nat} {l : Tlb} (h : l ∈ ((s.dropTlb gone).tile n).tlb ∨
    l ∈ smGet [] (s.dropTlb gone).rowTlb n ∨ l ∈ smGet [] (s.dropTlb gone).upper n) : gone l = false := by
  rw [State.tile_dropTlb, State.rowTlb_dropTlb, State.upper_dropTlb] at h
  obtain h | h | h := h
  all_goals simpa using (List.mem_filter.mp h).2

/-- Performing a core's atomics when it has none changes no core. -/
theorem State.core_performSome_nil {s : State} {t : Nat} {k : CoreK} (which : RAtom → Bool) (h : (s.core t k).atoms = [])
    (u : Nat) (j : CoreK) : (s.performSome t k which).core u j = s.core u j := by
  have same : s.performSome t k which = s.setCore t k (s.core t k) := by
    simp only [State.performSome, State.updCore, h, dueAtoms, List.filter_nil, List.map_nil, List.foldl_nil]
    rw [← h]
  rw [same]
  by_cases e : u = t ∧ j = k
  · obtain ⟨rfl, rfl⟩ := e
    exact State.core_setCore_same ..
  · exact State.core_setCore_other _ _ (by tauto)

/-- The state once the atomics that an invalidation under a context waits for have been performed (R39). -/
def State.atomsUnder (s : State) (ctx : Byte) : State :=
  s.tiles.foldl (fun s (t, x) => CoreK.all.foldl (fun s k =>
    if (x.core k).cctx = ctx then s.performSome t k (fun a => isHbm a.key) else s) s) s

/-- The lines that an invalidation names: those of the translations that go. -/
def lineGone (ctx : Byte) (va : Option Nat) (l : Nat) : Bool :=
  [16, 21, 30].any (fun log => match va with
    | some v => l == pageLine ctx log (v / 2 ^ log)
    | none => decide (pageLine ctx log 0 ≤ l) && decide (l < pageLine ctx log (2 ^ 48)))

/-- Those of the lines that a chunk in flight has read. -/
def State.linesUsed (s : State) (gone : Nat → Bool) : List Nat :=
  s.tiles.flatMap (fun (_, x) => CoreK.all.flatMap (fun k => (((x.core k).chunk.map (·.rset)).getD []).filter gone))

/-- The cached entries that an invalidation drops (R358). -/
def tlbGone (ctx : Byte) (va : Option Nat) (l : Tlb) : Bool := l.ctx == ctx && va.all (fun v => l.page == v / 2 ^ l.log)

/-- An invalidation: the atomics, then the caches, then the chunks that have used one of the translations. -/
theorem State.invalidate_eq (s : State) (ctx : Byte) (va : Option Nat) : s.invalidate ctx va =
    ((s.atomsUnder ctx).dropTlb (tlbGone ctx va)).conflict ((s.atomsUnder ctx).linesUsed (lineGone ctx va)) := rfl

theorem State.core_atomsUnder {s : State} (ctx : Byte) (h : ∀ u j, (s.core u j).atoms = []) (u : Nat) (j : CoreK) :
    (s.atomsUnder ctx).core u j = s.core u j := by
  refine List.foldlRecOn (motive := fun (v : State) => ∀ u j, v.core u j = s.core u j) s.tiles _ (fun _ _ => rfl) ?_ u j
  intro v hv ⟨t, x⟩ _
  refine List.foldlRecOn (motive := fun (v : State) => ∀ u j, v.core u j = s.core u j) CoreK.all _ hv ?_
  intro w hw k _ u j
  split
  · rw [State.core_performSome_nil _ (by rw [hw, h]), hw]
  · exact hw u j

/-- A line that a chunk has read is used. -/
theorem State.mem_linesUsed {s : State} {gone : Nat → Bool} {t a : Nat} {k : CoreK} {h : Chunk}
    (hc : (s.core t k).chunk = some h) (hr : a ∈ h.rset) (hg : gone a = true) : a ∈ s.linesUsed gone := by
  refine List.mem_flatMap.mpr ⟨(t, s.tile t), tile_listed (by rw [hc]; exact Option.some_ne_none h), ?_⟩
  refine List.mem_flatMap.mpr ⟨k, by cases k <;> decide, List.mem_filter.mpr ⟨?_, hg⟩⟩
  have hc : ((s.tile t).core k).chunk = some h := hc
  rw [hc]
  exact hr

/-- An invalidation of an address meets the chunk that has used its translation. -/
theorem State.met_invalidate {s : State} {ctx : Byte} {v t log : Nat} {k : CoreK} {h g : Chunk}
    (hl : log = 16 ∨ log = 21 ∨ log = 30) (hc : (s.core t k).chunk = some h) (hr : pageLine ctx log (v / 2 ^ log) ∈ h.rset)
    (ha : ∀ u j, (s.core u j).atoms = []) (hg : ((s.invalidate ctx (some v)).core t k).chunk = some g) : g.met = true := by
  have hc' : ((s.atomsUnder ctx).core t k).chunk = some h := by rw [State.core_atomsUnder ctx ha, hc]
  rw [State.invalidate_eq, State.chunk_conflict, State.chunk_dropTlb, hc', Option.map_some, Option.some.injEq] at hg
  subst hg
  refine Chunk.met_hitBy (State.mem_linesUsed hc' hr ?_) hr
  obtain rfl | rfl | rfl := hl <;> simp [lineGone]

/-- After an invalidation of an address no cache holds an entry for it. -/
theorem State.kept_invalidate {s : State} {ctx : Byte} {v n : Nat} {l : Tlb} (h : l ∈ ((s.invalidate ctx (some v)).tile n).tlb ∨
    l ∈ smGet [] (s.invalidate ctx (some v)).rowTlb n ∨ l ∈ smGet [] (s.invalidate ctx (some v)).upper n) :
    l.ctx ≠ ctx ∨ l.page ≠ v / 2 ^ l.log := by
  rw [State.invalidate_eq, State.tile_conflict] at h
  have kept := State.kept_dropTlb h
  simp only [tlbGone, Option.all_some, Bool.and_eq_false_iff, beq_eq_false_iff_ne] at kept
  exact kept

end Sys2Proof.Machine
end

section
/-!
SUPPORT. The system instructions of R356 to R362, one lemma for each way that an instruction's effect can end.
-/
namespace Sys2Proof.Machine

theorem checkTail_good {key n : Nat} {s : State} (h : s.badWord key n = none) : checkTail key n s = .ok ((), s) := by
  simp only [checkTail, h]

theorem checkTail_bad {key n p : Nat} {s : State} (h : s.badWord key n = some p) :
    checkTail key n s = .error (.trap (mkTrap 0xF0 (localAddr s.curTile p) 0 2 s.curTile 0)) := by
  simp only [checkTail, h]

/-- The first word with an uncorrectable error that CTXLOAD meets. -/
def State.contextBad (s : State) : Option Nat :=
  (s.badWord (s.areaKey s.curTile s.curCore) 2048).orElse (fun _ =>
    if s.curCore = .v then s.badWord (tileKey s.curTile 0 ((s.tile s.curTile).tailOfs + 0x2800)) 8192 else none)

/-- What a cancel of something by name leaves: an action for its commit when something has the name (R361). -/
theorem cancelNamed_apply {x : Ops} {lvl : Nat} {found : Option Nat} {s1 s2 : State}
    (h : writeOpd x.d (wordB found.isSome) s1 = .ok ((), s2)) :
    cancelNamed x lvl found s1 = .ok ((), found.elim s2 (fun n => s2.withAct (.cancel lvl n))) := by
  refine (Exec.bind_ok h).trans ?_
  cases found <;> rfl

/-- A chunk that loads a codebook slot which something in flight reads waits with its commit (R63). -/
theorem tryCommit_slotBusy {s : State} {t slot : Nat} {k : CoreK} {h : Chunk} {es : List (BitVec 16)}
    (hc : (s.core t k).chunk = some h) (hm : h.met = false ∨ h.single = true) (ha : .cbld slot es ∈ h.acts)
    (hb : s.slotBusy t slot = true) : s.tryCommit t k = s := by
  have waits : s.commitWaits t h = true := List.any_eq_true.mpr ⟨_, ha, hb⟩
  have stays : ¬ (h.met = true ∧ (!h.single) = true) := by
    rintro ⟨met, single⟩
    obtain hm | hm := hm <;> simp [hm] at met single
  simp only [State.tryCommit, hc, if_neg stays, waits, or_true, if_true]

end Sys2Proof.Machine

namespace Sys2Proof.Claims
open Sys2Proof Sys2Proof.Machine

theorem trapret_taken {x : Ops} {s s0 : State} (h : ipOk (word s0.me.regs.ctpc.toNat) = true) :
    Does { Entry.jump with priv := true, after := true } x (.trapret x) s s0 (s0.withRegs (fun r =>
      { r with slot := some { target := word s0.me.regs.ctpc.toNat, act := .trapret, notice := none } })) := by
  refine does_of_body rfl ?_
  simp only [bind_getState, h, Bool.not_true, Bool.false_eq_true, if_false]
  rfl

theorem trapret_traps {x : Ops} {s s0 : State} (h : ipOk (word s0.me.regs.ctpc.toNat) = false) :
    Traps { Entry.jump with priv := true, after := true } x (.trapret x) s s0
      (mkTrap Code.badTarget (word s0.me.regs.ctpc.toNat) 0 15 s0.curTile 2) := by
  refine traps_of_body rfl ?_
  simp only [bind_getState, h, Bool.not_false, if_true]
  exact Exec.bind_error rfl

theorem ctxsave_does (x : Ops) (s s0 : State) : Does .context x (.ctxsave x) s s0 (s0.saveArea s0.curTile s0.curCore
    (word (s0.readNat 0 (s0.areaKey s0.curTile s0.curCore + 0x28) 8))) :=
  does_of_body rfl rfl

theorem ctxload_loads {x : Ops} {s s0 : State} (h : State.contextBad s0 = none) :
    Does .context x (.ctxload x) s s0 (s0.loadArea s0.curTile s0.curCore) := by
  obtain ⟨area, vectors⟩ : _ ∧ _ := (Option.orElse_eq_none _ _).mp h
  refine does_of_body rfl ?_
  rw [bind_getState, Exec.bind_ok (checkTail_good area)]
  split
  · next hv =>
    rw [if_pos hv] at vectors
    rw [Exec.bind_ok (checkTail_good vectors)]
    rfl
  · rfl

theorem ctxload_traps {x : Ops} {s s0 : State} {p : Nat} (h : State.contextBad s0 = some p) :
    Traps .context x (.ctxload x) s s0 (mkTrap 0xF0 (localAddr s0.curTile p) 0 2 s0.curTile 0) := by
  refine traps_of_body rfl ?_
  rw [bind_getState]
  obtain area | ⟨area, vectors⟩ := (Option.orElse_eq_some _ _ _).mp h
  · exact Exec.bind_error (checkTail_bad area)
  · rw [Exec.bind_ok (checkTail_good area)]
    split at vectors
    · next hv =>
      rw [if_pos hv]
      exact Exec.bind_error (checkTail_bad vectors)
    · cases vectors

theorem tlbip_does {x : Ops} {s s0 s1 : State} {a : Word} (ha : readA x s0 = .ok (a, s1)) (h : topByte a = 0) :
    Does { Entry.ends with cores := .c, priv := true } x (.tlbip x) s s0
      (s1.withAct (.tlbi s1.me.cctx (some (Word.bits a 0 56)))) := by
  refine does_of_body rfl ?_
  rw [Exec.bind_ok ha, if_neg (not_not_intro h)]
  rfl

theorem tlbip_traps {x : Ops} {s s0 s1 : State} {a : Word} (ha : readA x s0 = .ok (a, s1)) (h : topByte a ≠ 0) :
    Traps { Entry.ends with cores := .c, priv := true } x (.tlbip x) s s0 (s1.accTrap (accOf 0 false a) Code.protection 0x16) := by
  refine traps_of_body rfl ?_
  rw [Exec.bind_ok ha, if_pos h]
  exact Exec.bind_error rfl

theorem tlbic_does {x : Ops} {s s0 s1 : State} {a : Word} (ha : readA x s0 = .ok (a, s1)) :
    Does { Entry.ends with cores := .c, priv := true, pf := true } x (.tlbic x) s s0
      (s1.withAct (.tlbi (a.truncate 8) none)) :=
  does_of_body rfl (Exec.bind_ok ha)

theorem aptset_does {x : Ops} {s s0 s1 s2 : State} {w0 w1 : Word} (h0 : readA x s0 = .ok (w0, s1))
    (h1 : readOpd x (pairNext x.a) s1 = .ok (w1, s2)) (h : apertureBad w1 = false) :
    Does { Entry.ends with priv := true } x (.aptset x) s s0
      (s2.withAct (.aptset (x.imm.toNat % 16) (w0 &&& 0x80FFFFFFFFFFFFFF) (w1 &&& 0xFFFFFFFFFFFFFE00))) := by
  refine does_of_body rfl ?_
  rw [Exec.bind_ok h0, Exec.bind_ok h1, if_neg (by rw [h]; exact Bool.false_ne_true)]
  rfl

theorem aptset_traps {x : Ops} {s s0 s1 s2 : State} {w0 w1 : Word} (h0 : readA x s0 = .ok (w0, s1))
    (h1 : readOpd x (pairNext x.a) s1 = .ok (w1, s2)) (h : apertureBad w1 = true) :
    Traps { Entry.ends with priv := true } x (.aptset x) s s0 (s2.reservedTrap 32) := by
  refine traps_of_body rfl ?_
  rw [Exec.bind_ok h0, Exec.bind_ok h1, if_pos h]
  exact Exec.bind_error rfl

theorem aptrd_does {x : Ops} {s s0 s1 : State} :
    let w := smGet (0, 0) (((s0.jobOn s0.curTile).map (·.apt)).getD []) (x.imm.toNat % 16)
    writeOpd x.d w.1 (s0.withRegs (fun r => r.put (pairNext x.d) w.2)) = .ok ((), s1) → Does .base x (.aptrd x) s s0 s1 :=
  fun h => does_of_body rfl h

theorem tickwait_released {x : Ops} {s s0 : State} (h : s0.me.released = true) :
    Does { Entry.ends with own := true, group := true } x (.tickwait x) s s0
      (s0.setMe { s0.me with released := false, ready := false }) := by
  refine does_of_body rfl ?_
  rw [bind_getState, if_pos h]
  rfl

theorem tickwait_waits {x : Ops} {s s0 : State} (h : s0.me.released = false) :
    Waits { Entry.ends with own := true, group := true } x (.tickwait x) s s0 (fun u =>
      let v := if u.me.ready then u else u.noteReady u.curTile
      let w := v.setMe { v.me with stalled := true, ready := true }
      match w.launchOn w.curTile with
      | some l => w.groupCheck l
      | none => w) := by
  refine waits_of_body rfl ?_
  rw [bind_getState, if_neg (by rw [h]; exact Bool.false_ne_true)]
  rfl

theorem phaseend_does (x : Ops) (s s0 : State) :
    Does { Entry.ends with group := true } x (.phaseend x) s s0 (s0.withAct .phaseEnd) :=
  does_of_body rfl rfl

theorem cbld_does {x : Ops} {s s0 s1 s2 : State} {a : Word} {bs : List Byte} (ha : readA x s0 = .ok (a, s1))
    (hl : loadAt 0 32 false a 32 s1 = .ok (bs, s2)) :
    Does .ends x (.cbld x) s s0 (s2.withAct
      (.cbld (x.imm.toNat % 8) ((chunksOf 17 2 bs).map (fun e => BitVec.ofNat 16 (ofBytes e))))) :=
  does_of_body rfl ((Exec.bind_ok ha).trans (Exec.bind_ok hl))

theorem canp_does {x : Ops} {s s0 : State} {l : Nat} (h : s0.launchOn s0.curTile = some l) :
    Does { Entry.cancels with group := true } x (.canp x) s s0 (s0.withAct (.cancel 2 l)) := by
  refine does_of_body rfl ?_
  simp only [bind_getState, h]
  rfl

/-- Settles O46: the body of each instruction run by hand, and the invalidation of translations. -/
theorem systemInstructions : Obligations.SystemInstructions := by
  unfold Obligations.SystemInstructions
  refine ⟨fun x s s0 => ⟨trapret_taken, trapret_traps⟩, fun x s s0 => ⟨ctxsave_does x s s0, ctxload_loads, fun p => ctxload_traps⟩,
    fun x s s0 s1 a ha => ⟨tlbip_does ha, tlbip_traps ha, tlbic_does ha⟩, fun _ _ _ _ _ _ => rfl,
    fun s ctx v t log k h _ hl hc hr ha g => State.met_invalidate hl hc hr ha, fun s ctx v n l => State.kept_invalidate,
    fun s p n l => State.kept_dropTlb, fun x s s0 s1 s2 w0 w1 h0 h1 => ⟨aptset_does h0 h1, aptset_traps h0 h1⟩,
    fun x s s0 s1 => aptrd_does, fun x s s0 => ⟨tickwait_released, tickwait_waits, phaseend_does x s s0⟩,
    fun i e x lvl s s0 s1 s2 a found ha row hw => ?_, fun x s s0 l => canp_does, fun x s s0 s1 s2 a bs => cbld_does,
    fun _ _ _ _ _ _ => rfl, fun s t slot k h es => tryCommit_slotBusy⟩
  have does : Does e x i s s0 (found.elim s2 (fun n => s2.withAct (.cancel lvl n))) := by
    obtain ⟨rfl, rfl, rfl, rfl⟩ | ⟨rfl, rfl, rfl, rfl⟩ | ⟨rfl, rfl, rfl, rfl⟩ := row
    all_goals exact does_of_body rfl ((Exec.bind_ok ha).trans (cancelNamed_apply hw))
  cases found <;> exact does

end Sys2Proof.Claims
end

section
/-!
SUPPORT. Lanes: the active ones, their flags, a write of them, and the loops of the model that load or store them one after another
(R282, R285, R294, R296).
-/
namespace Sys2Proof.Machine
open Sys2Proof.Claims

/-- The values of a function on an initial range, with their places. -/
theorem zipIdx_map_range {α : Type} (n : Nat) (f : Nat → α) :
    ((List.range n).map f).zipIdx = (List.range n).map (fun i => (f i, i)) := by
  apply List.ext_getElem <;> simp

theorem readGroup_length (r : Regs) (o : Opd) (g : Nat) : (r.readGroup o g).length = 64 * g := by
  cases o <;> simp [Regs.readGroup, smGetList]

/-- The active lanes, lane by lane (R282). -/
theorem active_eq (s : State) (x : Ops) (n : Nat) : s.me.regs.active x n = (List.range n).map (laneOn s x) := by
  have on : laneOn s x = fun i => !x.mod.getLsbD 4 || maskBit (s.me.regs.readGroup (.v 31) 1) i := rfl
  cases h : x.mod.getLsbD 4 with
  | true => simp only [Regs.active, on, h, if_true, Bool.not_true, Bool.false_or]
  | false => simp only [Regs.active, on, h, Bool.false_eq_true, if_false, Bool.not_false, Bool.true_or, List.map_const',
      List.length_range]

theorem getD_active (s : State) (x : Ops) {n i : Nat} (h : i < n) : (s.me.regs.active x n).getD i false = laneOn s x i := by
  simp [active_eq, h]

/-- The flags that the model merges are those of the active lanes (R285). -/
theorem laneFlags_eq (s : State) (x : Ops) (f : Nat → Nat) :
    laneFlags ((List.range (laneCount x)).map (laneOn s x)) ((List.range (laneCount x)).map f) = orFlags s x f := by
  rw [laneFlags, List.zip_map', List.foldl_map]
  rfl

/-- New values where lanes are active, the old ones elsewhere. -/
theorem merged_lanes {n : Nat} {old : List (BitVec 32)} (h : old.length = n) (on : Nat → Bool) (v : Nat → BitVec 32) :
    (((List.range n).map on).zip (((List.range n).map v).zip old)).map (fun (b, w, o) => if b then w else o) =
      (List.range n).map (fun i => if on i then v i else old.getD i 0) := by
  apply List.ext_getElem <;> simp +contextual [h]

/-- A write of the active lanes of DF. -/
theorem writeLanes_apply (x : Ops) (on : Nat → Bool) (v : Nat → BitVec 32) (s : State) :
    writeLanes x ((List.range (laneCount x)).map on) ((List.range (laneCount x)).map v) s =
      .ok ((), s.withRegs (fun g => g.writeGroup x.d ((List.range (laneCount x)).map (fun i =>
        if on i then v i else laneAt s x x.d i)))) :=
  congrArg (fun ls => Except.ok ((), s.withRegs (fun g => g.writeGroup x.d ls)))
    (merged_lanes (readGroup_length s.me.regs x.d (groupSize x.mod)) on v)

/-- Lanes of a list, of which the active ones load one after another. -/
theorem mapM_lanes {x : Ops} {a : Word} {rd : Nat → Rnd} {off : Nat → Int} {v : Nat → BitVec 32} {f : Nat → Nat} (on : Nat → Bool) :
    ∀ (ns : List Nat) (s t : State), LanesLoad x a rd off v f (ns.filter on) s t →
      ns.mapM (fun i => if on i then loadLane x a (rd i) (off i) else pure (0, 0)) s =
        .ok (ns.map (fun i => if on i then (v i, f i) else (0, 0)), t)
  | [], s, t, h => by
    rw [show t = s from h]
    rfl
  | n :: ns, s, t, h => by
    rw [List.mapM_cons]
    cases hn : on n with
    | true =>
      rw [List.filter_cons_of_pos hn] at h
      obtain ⟨u, load, rest⟩ := h
      simp only [if_true]
      rw [Exec.bind_ok load, Exec.bind_ok (mapM_lanes on ns u t rest)]
      simp [hn]
    | false =>
      rw [List.filter_cons_of_neg (by simp [hn])] at h
      simp only [Bool.false_eq_true, if_false]
      rw [bind_pure, Exec.bind_ok (mapM_lanes on ns s t h)]
      simp [hn]

/-- The flags of inactive lanes do not count. -/
theorem orFlags_congr {s : State} {x : Ops} {f g : Nat → Nat} (h : ∀ i, laneOn s x i = true → f i = g i) :
    orFlags s x f = orFlags s x g := by
  unfold orFlags
  congr 1
  funext a i
  split
  · next on => rw [h i on]
  · rfl

theorem mergedLanes_congr {n : Nat} {on : Nat → Bool} {w v o p : Nat → BitVec 32} (h : ∀ i, i < n → on i = true → w i = v i)
    (ho : ∀ i, o i = p i) : (List.range n).map (fun i => if on i then w i else o i) =
      (List.range n).map (fun i => if on i then v i else p i) := by
  refine List.map_congr_left fun i hn => ?_
  split
  · next hi => exact h i (List.mem_range.mp hn) hi
  · exact ho i

/-- The draws of a load or a store (R129). -/
theorem vecDraws_apply (x : Ops) (a : Word) (s : State) :
    vecDraws x a s = .ok (fun n => if vecWin x a then s.me.regs.rnd n else rne, drawn (vecWin x a) x s) := by
  cases h : vecWin x a <;> simp only [vecDraws, drawn, h, Bool.false_eq_true, if_false, if_true] <;> rfl

@[simp] theorem withFlags_regs (s : State) (f : Nat) : (s.withFlags f).me.regs = s.me.regs.addFlags f := by
  simp [State.withFlags]

theorem readGroup_addFlags (r : Regs) (f : Nat) (o : Opd) (g : Nat) : (r.addFlags f).readGroup o g = r.readGroup o g := by
  cases o <;> rfl

theorem laneAt_withFlags (s : State) (f : Nat) (x : Ops) (o : Opd) (i : Nat) : laneAt (s.withFlags f) x o i = laneAt s x o i := by
  rw [laneAt, withFlags_regs, readGroup_addFlags, laneAt]

/-- The active lanes load in order, then DF takes them (R294, R296). -/
theorem loadLanes_apply {x : Ops} {a : Word} {off : Nat → Int} {v : Nat → BitVec 32} {f : Nat → Nat} {s1 s2 : State}
    (h : LanesLoad x a (fun n => if vecWin x a then s1.me.regs.rnd n else rne) off v f (onLanes s1 x) (drawn (vecWin x a) x s1) s2) :
    loadLanes x a off s1 =
      .ok ((), (s2.withFlags (orFlags s1 x f)).withRegs (fun g => g.writeGroup x.d (mergedLanes s1 s2 x v))) := by
  have loads := mapM_lanes (laneOn s1 x) _ _ _ h
  rw [loadLanes, bind_getRegs, active_eq, Exec.bind_ok (vecDraws_apply x a s1), zipIdx_map_range, List.mapM_map]
  refine (Exec.bind_ok loads).trans ?_
  rw [List.map_map, List.map_map, laneFlags_eq, Exec.bind_ok (addFlags_apply _ _), writeLanes_apply]
  rw [orFlags_congr (g := f) (fun i on => by simp only [Function.comp, on, if_true]), mergedLanes_congr (on := laneOn s1 x) (v := v)
    (fun i _ on => by simp only [Function.comp, on, if_true]) (laneAt_withFlags s2 _ x x.d)]
  rfl

/-- A loop over lanes whose body stores a lane and merges its flags. -/
theorem forIn_of_lanesStore {x : Ops} {a : Word} {rd : Nat → Rnd} {v : Nat → BitVec 32}
    {body : Nat × Int → PUnit → Exec (ForInStep PUnit)}
    (hb : ∀ n o f s u, storeLane x a (rd n) o (v n) s = .ok (f, u) →
      body (n, o) ⟨⟩ s = .ok (.yield ⟨⟩, u.withFlags f)) :
    ∀ (ps : List (Nat × Int)) (s t : State), LanesStore x a rd v ps s t → forIn ps PUnit.unit body s = .ok (⟨⟩, t)
  | [], s, t, h => by
    rw [show t = s from h]
    rfl
  | (n, o) :: ps, s, t, h => by
    obtain ⟨f, u, store, rest⟩ := h
    rw [List.forIn_cons, Exec.bind_ok (hb n o f s u store)]
    exact forIn_of_lanesStore hb ps _ t rest

/-- Lanes of CF store in the order of a list (R294, R296). -/
theorem storeLanes_apply {x : Ops} {a : Word} {ps : List (Nat × Int)} {s1 s2 : State}
    (h : LanesStore x a (fun n => if vecWin x a then s1.me.regs.rnd n else rne) (laneAt s1 x x.c) ps (drawn (vecWin x a) x s1) s2) :
    storeLanes x a ps s1 = .ok ((), s2) := by
  rw [storeLanes, bind_getRegs, Exec.bind_ok (vecDraws_apply x a s1)]
  refine Exec.bind_ok (forIn_of_lanesStore (fun n o f s u store => ?_) ps _ _ h)
  exact Exec.bind_ok store

/-- The numbers of the active lanes. -/
theorem activeIdx_apply (x : Ops) (s : State) : activeIdx x s = .ok (onLanes s x, s) := by
  rw [activeIdx, bind_getRegs, pure_apply, onLanes]
  congr 2
  exact List.filter_congr fun i hi => getD_active s x (List.mem_range.mp hi)

theorem readBase_apply {x : Ops} {s0 s1 s2 : State} {a b : Word} (ha : readA x s0 = .ok (a, s1)) (hb : readB x s1 = .ok (b, s2)) :
    readBase x s0 = .ok ((a, (b.toNat : Int) + x.imm.toInt), s2) :=
  (Exec.bind_ok ha).trans (Exec.bind_ok hb)

theorem readStride_apply {x : Ops} {s0 s1 s2 : State} {a b : Word} (ha : readA x s0 = .ok (a, s1)) (hb : readB x s1 = .ok (b, s2)) :
    readStride x s0 = .ok ((a, b.toInt), s2) :=
  (Exec.bind_ok ha).trans (Exec.bind_ok hb)

end Sys2Proof.Machine
end

section
/-!
SUPPORT. The bits of a number's bytes and of a mask register's lanes (R7, R282).
-/
namespace Sys2Proof.Machine
open Sys2Proof.Claims

/-- The bits of a little-endian number are those of its bytes (R7). -/
theorem testBit_ofBytes (bs : List Byte) (i : Nat) : (ofBytes bs).testBit i = (bs.getD (i / 8) 0).getLsbD (i % 8) := by
  induction bs generalizing i with
  | nil => simp [ofBytes]
  | cons b bs ih =>
    rw [ofBytes, show b.toNat + 256 * ofBytes bs = 2 ^ 8 * ofBytes bs + b.toNat by omega, Nat.testBit_two_pow_mul_add _ b.isLt]
    split
    · next h => rw [Nat.div_eq_of_lt h, Nat.mod_eq_of_lt h]; rfl
    · next h =>
      rw [ih, show i / 8 = (i - 8) / 8 + 1 by omega, show (i - 8) % 8 = i % 8 by omega]
      rfl

/-- A sum of powers of two, one for each number of a set. -/
theorem testBit_bitSum (p : Nat → Bool) (n : Nat) :
    ((List.range n).filter p).foldl (fun a i => a + 2 ^ i) 0 < 2 ^ n ∧
      ∀ i, (((List.range n).filter p).foldl (fun a i => a + 2 ^ i) 0).testBit i = (decide (i < n) && p i) := by
  induction n with
  | zero => simp
  | succ n ih =>
    obtain ⟨lt, bit⟩ := ih
    rw [List.range_succ, List.filter_append, List.foldl_append]
    generalize ((List.range n).filter p).foldl (fun a i => a + 2 ^ i) 0 = m at lt bit
    have pow : 2 ^ (n + 1) = 2 ^ n + 2 ^ n := by omega
    cases hp : p n with
    | false =>
      simp only [List.filter_cons, hp, Bool.false_eq_true, if_false, List.filter_nil, List.foldl_nil]
      refine ⟨by omega, fun i => ?_⟩
      rw [bit]
      by_cases e : i = n
      · simp [e, hp]
      · rw [show decide (i < n + 1) = decide (i < n) by simp; omega]
    | true =>
      simp only [List.filter_cons, hp, if_true, List.filter_nil, List.foldl_cons, List.foldl_nil]
      refine ⟨by omega, fun i => ?_⟩
      rw [Nat.add_comm]
      obtain h | rfl | h := Nat.lt_trichotomy i n
      · rw [Nat.testBit_two_pow_add_gt h, bit]
        simp [h, show i < n + 1 by omega]
      · rw [Nat.testBit_two_pow_add_eq, bit]
        simp [hp]
      · rw [Nat.testBit_lt_two_pow (by
          have := Nat.pow_le_pow_right (n := 2) (by omega) (show n + 1 ≤ i by omega)
          omega)]
        simp [show ¬ i < n + 1 by omega]

/-- The lanes of a mask register hold the mask. -/
theorem isMask_maskLanes (bs : List Bool) : isMask (maskLanes bs) (fun i => bs.getD i false) := by
  refine ⟨by simp [maskLanes], fun i hi => ?_⟩
  have hj : i / 32 < 64 := by omega
  have hr : i % 32 < 32 := by omega
  simp only [maskBit, maskLanes, List.getD_eq_getElem?_getD, List.getElem?_map, List.getElem?_range hj, Option.map_some, Option.getD_some,
    BitVec.getLsbD_ofNat, (testBit_bitSum _ 32).2, hr, decide_true, Bool.true_and, Nat.div_add_mod]

theorem length_toBytes (n x : Nat) : (toBytes n x).length = n := by
  induction n generalizing x with
  | zero => rfl
  | succ n ih => rw [toBytes, List.length_cons, ih]

/-- Byte `k` of a number. -/
theorem getD_toBytes {n k : Nat} (h : k < n) (x : Nat) : (toBytes n x).getD k 0 = BitVec.ofNat 8 (x / 256 ^ k) := by
  induction n generalizing x k with
  | zero => omega
  | succ n ih =>
    cases k with
    | zero => simp [toBytes]
    | succ k =>
      rw [toBytes, List.getD_cons_succ, ih (by omega), Nat.div_div_eq_div_mul, ← Nat.pow_succ']

/-- A piece of pieces of one length put behind each other. -/
theorem getD_flatMap {α β : Type} {f : α → List β} {n : Nat} (hf : ∀ a, (f a).length = n) (d : β) (a : α) :
    ∀ (l : List α) (q r : Nat), q < l.length → r < n → (l.flatMap f).getD (n * q + r) d = (f (l.getD q a)).getD r d
  | [], q, _, h, _ => absurd h (by simp)
  | b :: l, 0, r, _, hr => by
    rw [List.flatMap_cons, Nat.mul_zero, Nat.zero_add, List.getD_append _ _ _ _ (by rw [hf]; exact hr)]
    rfl
  | b :: l, q + 1, r, hq, hr => by
    rw [List.flatMap_cons, List.getD_append_right _ _ _ _ (by rw [hf, Nat.mul_succ]; omega), hf,
      show n * (q + 1) + r - n = n * q + r by rw [Nat.mul_succ]; omega,
      getD_flatMap hf d a l q r (by simpa using hq) hr]
    rfl

/-- The bits of a mask register's bytes are its mask. -/
theorem maskBit_bytes {m : List (BitVec 32)} {n : Nat} (h : n < 32 * m.length) :
    ((m.flatMap (fun l => toBytes 4 l.toNat)).getD (n / 8) 0).getLsbD (n % 8) = maskBit m n := by
  have byte : n / 8 = 4 * (n / 32) + n / 8 % 4 := by omega
  have inWord : n % 8 + 8 * (n / 8 % 4) = n % 32 := by omega
  rw [byte, getD_flatMap (fun l => length_toBytes 4 _) 0 0 m (n / 32) (n / 8 % 4) (by omega) (by omega),
    getD_toBytes (by omega), maskBit, BitVec.getLsbD_ofNat, show (256 : Nat) = 2 ^ 8 from rfl, ← Nat.pow_mul,
    Nat.testBit_div_two_pow, inWord]
  simp [show n % 8 < 8 by omega, BitVec.getLsbD]

theorem laneCount_le (x : Ops) : laneCount x ≤ 256 := by
  unfold laneCount groupSize
  split <;> omega

end Sys2Proof.Machine
end

section
/-!
SUPPORT. The vector loads and stores of R294 and R296, one lemma for each.
-/
namespace Sys2Proof.Claims
open Sys2Proof Sys2Proof.Machine

theorem vgath_does {x : Ops} {s s0 s1 t : State} {a : Word} (ha : readA x s0 = .ok (a, s1))
    (h : loadLanes x a (fun n => (((laneAt s1 x x.b n).toNat * vecStep x a : Nat) : Int)) s1 = .ok ((), t)) :
    Does .vector x (.vgath x) s s0 t := by
  refine does_of_body rfl ((Exec.bind_ok ha).trans ?_)
  rw [bind_getRegs]
  exact h

theorem vld_does {x : Ops} {s s0 s1 u t : State} {a b : Word} (ha : readA x s0 = .ok (a, u)) (hb : readB x u = .ok (b, s1))
    (h : loadLanes x a (fun n => (b.toNat : Int) + x.imm.toInt + ((n * vecStep x a : Nat) : Int)) s1 = .ok ((), t)) :
    Does .vector x (.vld x) s s0 t :=
  does_of_body rfl ((Exec.bind_ok (readBase_apply ha hb)).trans h)

theorem vlds_does {x : Ops} {s s0 s1 u t : State} {a b : Word} (ha : readA x s0 = .ok (a, u)) (hb : readB x u = .ok (b, s1))
    (h : loadLanes x a (fun n => x.imm.toInt + (n : Int) * b.toInt) s1 = .ok ((), t)) :
    Does .vector x (.vlds x) s s0 t :=
  does_of_body rfl ((Exec.bind_ok (readStride_apply ha hb)).trans h)

theorem vscat_does {x : Ops} {s s0 s1 t : State} {a : Word} (ha : readA x s0 = .ok (a, s1))
    (h : storeLanes x a ((onLanes s1 x).map (fun n => (n, (((laneAt s1 x x.b n).toNat * vecStep x a : Nat) : Int)))) s1 = .ok ((), t)) :
    Does .vector x (.vscat x) s s0 t := by
  refine does_of_body rfl ((Exec.bind_ok ha).trans ?_)
  rw [bind_getRegs]
  exact (Exec.bind_ok (activeIdx_apply x s1)).trans h

theorem vst_does {x : Ops} {s s0 s1 u t : State} {a b : Word} (ha : readA x s0 = .ok (a, u)) (hb : readB x u = .ok (b, s1))
    (h : storeLanes x a ((onLanes s1 x).map (fun n => (n, (b.toNat : Int) + x.imm.toInt + ((n * vecStep x a : Nat) : Int)))) s1 =
      .ok ((), t)) : Does .vector x (.vst x) s s0 t :=
  does_of_body rfl ((Exec.bind_ok (readBase_apply ha hb)).trans ((Exec.bind_ok (activeIdx_apply x s1)).trans h))

theorem vstc_does {x : Ops} {s s0 s1 u t : State} {a b : Word} (ha : readA x s0 = .ok (a, u)) (hb : readB x u = .ok (b, s1))
    (h : storeLanes x a ((onLanes s1 x).zipIdx.map (fun p =>
      (p.1, (b.toNat : Int) + x.imm.toInt + ((p.2 * vecStep x a : Nat) : Int)))) s1 = .ok ((), t)) :
    Does .vector x (.vstc x) s s0 t :=
  does_of_body rfl ((Exec.bind_ok (readBase_apply ha hb)).trans ((Exec.bind_ok (activeIdx_apply x s1)).trans h))

theorem vsts_does {x : Ops} {s s0 s1 u t : State} {a b : Word} (ha : readA x s0 = .ok (a, u)) (hb : readB x u = .ok (b, s1))
    (h : storeLanes x a ((onLanes s1 x).map (fun n => (n, x.imm.toInt + (n : Int) * b.toInt))) s1 = .ok ((), t)) :
    Does .vector x (.vsts x) s s0 t :=
  does_of_body rfl ((Exec.bind_ok (readStride_apply ha hb)).trans ((Exec.bind_ok (activeIdx_apply x s1)).trans h))

theorem vectorLoads {i : Instr} {x : Ops} {s s0 s1 s2 : State} {a : Word} {off : Nat → Int} {v : Nat → BitVec 32} {f : Nat → Nat}
    (hi : i = .vgath x ∨ i = .vld x ∨ i = .vlds x) (h : vecAddr i x s0 s1 a off)
    (loads : LanesLoad x a (fun n => if vecWin x a then s1.me.regs.rnd n else rne) off v f (onLanes s1 x)
      (drawn (vecWin x a) x s1) s2) :
    Does .vector x i s s0 ((s2.withFlags (orFlags s1 x f)).withRegs (fun g => g.writeGroup x.d (mergedLanes s1 s2 x v))) := by
  replace loads := loadLanes_apply loads
  obtain rfl | rfl | rfl := hi <;> simp only [vecAddr, reduceCtorEq, or_false, false_or, true_and, false_and,
    exists_false] at h
  · obtain ⟨ha, rfl⟩ := h
    exact vgath_does ha loads
  · obtain ⟨b, u, ha, hb, rfl⟩ := h
    exact vld_does ha hb loads
  · obtain ⟨b, u, ha, hb, rfl⟩ := h
    exact vlds_does ha hb loads

theorem vectorStores {i : Instr} {x : Ops} {s s0 s1 s2 : State} {a : Word} {off : Nat → Int}
    (hi : i = .vscat x ∨ i = .vst x ∨ i = .vsts x ∨ i = .vstc x) (h : vecAddr i x s0 s1 a off)
    (stores : LanesStore x a (fun n => if vecWin x a then s1.me.regs.rnd n else rne) (laneAt s1 x x.c)
      (if i = .vstc x then (onLanes s1 x).zipIdx.map (fun p => (p.1, off p.2)) else (onLanes s1 x).map (fun n => (n, off n)))
      (drawn (vecWin x a) x s1) s2) : Does .vector x i s s0 s2 := by
  replace stores := storeLanes_apply stores
  obtain rfl | rfl | rfl | rfl := hi <;> simp only [vecAddr, reduceCtorEq, or_true, or_false, false_or, true_and, false_and,
    exists_false, if_false, if_true] at h stores
  · obtain ⟨ha, rfl⟩ := h
    exact vscat_does ha stores
  · obtain ⟨b, u, ha, hb, rfl⟩ := h
    exact vst_does ha hb stores
  · obtain ⟨b, u, ha, hb, rfl⟩ := h
    exact vsts_does ha hb stores
  · obtain ⟨b, u, ha, hb, rfl⟩ := h
    exact vstc_does ha hb stores

/-- One lane written to every active lane, with its flags; any lane where none is active. -/
theorem broadcast_apply {x : Ops} {s u : State} {k l : BitVec 32} (f : Nat) (hk : onLanes s x ≠ [] → k = l) :
    (addFlags f >>= fun _ => writeLanes x (s.me.regs.active x (laneCount x)) (List.replicate (laneCount x) k)) u =
      .ok ((), (u.withFlags f).withRegs (fun g => g.writeGroup x.d (mergedLanes s u x (fun _ => l)))) := by
  have all : List.replicate (laneCount x) k = (List.range (laneCount x)).map (fun _ => k) := by simp
  rw [Exec.bind_ok (addFlags_apply f u), active_eq, all, writeLanes_apply,
    mergedLanes_congr (on := laneOn s x) (v := fun _ => l) (fun i hi on => ?_) (laneAt_withFlags u f x x.d)]
  · rfl
  · exact hk (List.ne_nil_of_mem (List.mem_filter.mpr ⟨List.mem_range.mpr hi, on⟩))

theorem any_active (s : State) (x : Ops) : (s.me.regs.active x (laneCount x)).any (fun b => b) = true ↔ onLanes s x ≠ [] := by
  simp [active_eq, onLanes]

theorem vldbc_does {x : Ops} {s s0 s1 s2 s3 : State} {a b : Word} {l : BitVec 32} {f : Nat} (ha : readA x s0 = .ok (a, s1))
    (hb : readB x s1 = .ok (b, s2))
    (h : if onLanes s2 x = [] then s3 = drawn (vecWin x a) x s2 ∧ f = 0
     else loadLane x a (if vecWin x a then s2.me.regs.rnd 0 else rne) ((b.toNat : Int) + x.imm.toInt)
       (drawn (vecWin x a) x s2) = .ok ((l, f), s3)) :
    Does .vector x (.vldbc x) s s0 ((s3.withFlags f).withRegs (fun g =>
      g.writeGroup x.d (mergedLanes s2 s3 x (fun _ => l)))) := by
  refine does_of_body rfl ((Exec.bind_ok (readBase_apply ha hb)).trans ?_)
  dsimp only
  rw [bind_getRegs, Exec.bind_ok (vecDraws_apply x a s2)]
  by_cases idle : onLanes s2 x = []
  · rw [if_pos idle] at h
    obtain ⟨rfl, rfl⟩ := h
    rw [if_neg (fun any => (any_active s2 x).mp any idle)]
    exact broadcast_apply 0 (fun any => absurd idle any)
  · rw [if_neg idle] at h
    rw [if_pos ((any_active s2 x).mpr idle)]
    exact (Exec.bind_ok h).trans (broadcast_apply f (fun _ => rfl))

theorem vldm_does {x : Ops} {s s0 s1 s2 s3 : State} {a b : Word} {bs : List Byte} (ha : readA x s0 = .ok (a, s1))
    (hb : readB x s1 = .ok (b, s2)) (h : vecBytes x a ((b.toNat : Int) + x.imm.toInt) (laneCount x / 8) s2 = .ok (bs, s3)) :
    ∃ ls, isMask ls (fun n => decide (n < laneCount x) && (bs.getD (n / 8) 0).getLsbD (n % 8)) ∧
      Does .vector x (.vldm x) s s0 (s3.withRegs (fun g => g.writeGroup x.d ls)) := by
  refine ⟨_, ?_, does_of_body rfl ((Exec.bind_ok (readBase_apply ha hb)).trans ((Exec.bind_ok h).trans rfl))⟩
  convert isMask_maskLanes _ using 2 with n
  by_cases hn : n < laneCount x
  · simp [hn, testBit_ofBytes]
  · simp [hn]

theorem vstm_does {x : Ops} {s s0 s1 s2 s3 : State} {a b : Word} {bs : List Byte} (ha : readA x s0 = .ok (a, s1))
    (hb : readB x s1 = .ok (b, s2)) (hl : bs.length = laneCount x / 8)
    (hm : ∀ n, n < laneCount x → (bs.getD (n / 8) 0).getLsbD (n % 8) = maskBit (s2.me.regs.readGroup x.c 1) n)
    (h : vecPut x a ((b.toNat : Int) + x.imm.toInt) bs s2 = .ok ((), s3)) : Does .vector x (.vstm x) s s0 s3 := by
  have lanes : (s2.me.regs.readGroup x.c 1).length = 64 := readGroup_length ..
  have bytes : ((s2.me.regs.readGroup x.c 1).flatMap (fun l => toBytes 4 l.toNat)).take (laneCount x / 8) = bs := by
    have le := laneCount_le x
    refine List.ext_getElem ?_ fun k h1 h2 => ?_
    · simp [length_toBytes, lanes, hl]
      omega
    · refine BitVec.eq_of_getLsbD_eq fun i hi => ?_
      have byte := hm (8 * k + i) (by omega)
      rw [← maskBit_bytes (by omega), show (8 * k + i) / 8 = k by omega, show (8 * k + i) % 8 = i by omega,
        List.getD_eq_getElem _ _ h2, List.getD_eq_getElem _ _ (by rw [List.length_take] at h1; omega)] at byte
      rw [List.getElem_take, byte]
  refine does_of_body rfl ((Exec.bind_ok (readBase_apply ha hb)).trans ?_)
  dsimp only
  rw [bind_getRegs, bytes]
  exact h

end Sys2Proof.Claims
end

section
/-!
SUPPORT. Where the element of a lane lies, and how it moves (R39, R48, R257, R296).
-/
namespace Sys2Proof.Machine

/-- Adding lines to the read set changes neither memory nor registers. -/
theorem addReads_apply (ls : List Nat) (s : State) : ∃ u, addReads ls s = .ok ((), u) ∧ u.mem = s.mem ∧ u.me.regs = s.me.regs :=
  ⟨_, rfl, rfl, by rw [State.me_setMe]⟩

/-- An operand in AB that lies inside the buffer passes the checks of R49. -/
theorem checkBuf_ab {a : Word} {n kind : Nat} {s : State} (hb : bufBad a = false) (h2 : bufNo a = 2)
    (hn : bufOfs a + n ≤ bufSize 2) : checkBuf a n kind (fun b => b == 2) s = .ok ((), s) := by
  have inside : ¬ bufSize 2 < bufOfs a + n := by omega
  simp [checkBuf, hb, h2, inside]

/-- A core access to slabs that the cores hold passes the owner check (R51). -/
theorem checkSide_core {slabs : List SlabId} {kind : Nat} {s : State}
    (h : ∀ sl ∈ slabs, (s.tile s.curTile).slabEngine sl.1 sl.2 = false) :
    ∃ u, checkSide slabs false kind s = .ok ((), u) ∧ u.mem = s.mem ∧ u.me.regs = s.me.regs := by
  have held : slabs.find? (fun (b, n) => (s.tile s.curTile).slabEngine b n != false) = none :=
    List.find?_eq_none.mpr fun sl hs => by simp [h sl hs]
  obtain ⟨u, reads, mem, regs⟩ := addReads_apply (slabs.map (fun (b, n) => ownerLine s.curTile b n)) s
  refine ⟨u, ?_, mem, regs⟩
  rw [checkSide, bind_getState, Exec.bind_ok reads, held]
  rfl

/-- The buffer address of an offset in AB (R48). -/
def abAddr (o : Nat) : Word := word (2 * 2 ^ 28 + o)

theorem toNat_abAddr {o : Nat} (h : o < 2 ^ 20) : (abAddr o).toNat = 2 * 2 ^ 28 + o := by
  rw [abAddr, word, BitVec.toNat_ofNat, Nat.mod_eq_of_lt (by omega)]

theorem abAddr_fields {o : Nat} (h : o < 2 ^ 20) :
    bufOfs (abAddr o) = o ∧ bufNo (abAddr o) = 2 ∧ bufBad (abAddr o) = false := by
  have no : bufNo (abAddr o) = 2 := by simp only [bufNo, Word.bits, bitsAt, toNat_abAddr h]; omega
  have mbz : Word.bits (abAddr o) 20 8 = 0 := by simp only [Word.bits, bitsAt, toNat_abAddr h]; omega
  exact ⟨by simp only [bufOfs, Word.bits, bitsAt, toNat_abAddr h]; omega, no, by simp [bufBad, no, mbz]⟩

/-- The address of an element in AB: the base's buffer with its offset moved on (R296). -/
theorem vecBuf_addr {a : Word} {o : Nat} (hb : bufBad a = false) (h2 : bufNo a = 2) (hl : o < 2 ^ 20) :
    word (bufNo a * 2 ^ 28 + Word.bits a 20 8 * 2 ^ 20 + ((o : Int) % 2 ^ 20).toNat) = abAddr o := by
  have mbz : Word.bits a 20 8 = 0 := by
    simp only [bufBad, Bool.or_eq_false_iff, bne_eq_false_iff_eq] at hb
    obtain ⟨⟨-, mbz⟩, -⟩ := hb
    exact mbz
  rw [h2, mbz, abAddr]
  congr 1
  omega

/-- An element of AB that lies inside the buffer, aligned, on slabs that the cores hold (R48, R49, R51, R296). -/
theorem vecBuf_inside {a : Word} {off : Int} {n al o : Nat} {wr : Bool} {s : State} (hb : bufBad a = false) (h2 : bufNo a = 2)
    (ho : (bufOfs a : Int) + off = o) (hn : o + n ≤ bufSize 2) (hd : al ∣ 2 ^ 20) (ha : o % al = 0)
    (hs : ∀ sl ∈ slabsOf 2 o n, (s.tile s.curTile).slabEngine sl.1 sl.2 = false) :
    ∃ c u, vecBuf a off n al wr s = .ok ((c, .tile s.curTile 2 o), u) ∧ (c.kind = if wr then 4 else 3) ∧ u.mem = s.mem ∧
      u.me.regs = s.me.regs := by
  have hl : o < 2 ^ 20 := by
    have : bufSize 2 = 0x80000 := rfl
    omega
  obtain ⟨ofs, no, good⟩ := abAddr_fields hl
  have aligned : ¬ (abAddr o).toNat % al ≠ 0 := by
    rw [toNat_abAddr hl, not_not, ← Nat.dvd_iff_mod_eq_zero]
    exact Nat.dvd_add (hd.trans ⟨2 ^ 9, rfl⟩) (Nat.dvd_of_mod_eq_zero ha)
  have range : ¬ ((o : Int) < 0 ∨ 2 ^ 20 ≤ (o : Int)) := by omega
  obtain ⟨u, side, mem, regs⟩ := checkSide_core (kind := if wr then 4 else 3) hs
  refine ⟨{ kind := if wr then 4 else 3, write := wr, addr := abAddr o, space := 15 }, u, ?_, rfl, mem, regs⟩
  simp only [vecBuf, ho, vecBuf_addr hb h2 hl, if_neg aligned, if_neg range, ofs]
  rw [Exec.bind_ok (checkBuf_ab good no (by rw [ofs]; exact hn)), bind_getState, Exec.bind_ok side]
  rfl

theorem vecSpot_generic {x : Ops} {wr : Bool} {a : Word} {off : Int} {n al : Nat} {s : State} (h : x.mod.getLsbD 3 = false) :
    let c := { accOf (if wr then 1 else 0) wr (addrAdd a off) with vec := true }
    (∀ p, locate c (elemAlign c.addr al) true s = .ok (p, s) → vecSpot x wr a off n al s = .ok ((c, p), s)) ∧
    (∀ e, locate c (elemAlign c.addr al) true s = .error e → vecSpot x wr a off n al s = .error e) := by
  refine ⟨fun p hp => ?_, fun e he => ?_⟩
  · simp only [vecSpot, h, Bool.false_eq_true, if_false]
    exact Exec.bind_ok hp
  · simp only [vecSpot, h, Bool.false_eq_true, if_false]
    exact Exec.bind_error he

theorem vecSpot_buffer {x : Ops} (h : x.mod.getLsbD 3 = true) (wr : Bool) (a : Word) (off : Int) (n al : Nat) :
    vecSpot x wr a off n al = vecBuf a off n al wr := by
  simp only [vecSpot, h, if_true]

/-- A lane's element outside a window is its bytes as they are. -/
theorem loadLane_bytes {x : Ops} {a : Word} {rd : Rnd} {off : Int} {c : Acc} {p : Spot} {s s1 s2 : State} {bs : List Byte}
    (h : vecSpot x false a off (vwidth x.fmt / 8) (vwidth x.fmt / 8) s = .ok ((c, p), s1)) (hp : ∀ w, p ≠ .win w)
    (hr : readSpot c p (vwidth x.fmt / 8) s1 = .ok (bs, s2)) :
    loadLane x a rd off s = .ok ((laneOf x.fmt (ofBytes bs), 0), s2) := by
  rw [loadLane, Exec.bind_ok h]
  cases p with
  | tile t b o => exact Exec.bind_ok hr
  | glob va => exact Exec.bind_ok hr
  | win w => exact absurd rfl (hp w)

/-- A lane's element behind a window is converted. -/
theorem loadLane_window {x : Ops} {a w : Word} {rd : Rnd} {off : Int} {c : Acc} {s s1 s2 : State} {v : FV} {near : Bool}
    (h : vecSpot x false a off (vwidth x.fmt / 8) (vwidth x.fmt / 8) s = .ok ((c, .win w), s1))
    (hr : winRead c w s1 = .ok ((v, near), s2)) :
    let r := convertTo (laneCode x.fmt) (if near then rne else rd) (x.mod.getLsbD 2) false [] v
    loadLane x a rd off s = .ok ((laneOf x.fmt r.1, r.2), s2) := by
  rw [loadLane, Exec.bind_ok h]
  refine (Exec.bind_ok hr).trans ?_
  dsimp only [vecSat]
  generalize convertTo (laneCode x.fmt) (if near then rne else rd) (x.mod.getLsbD 2) false [] v = r
  rfl

/-- A lane is stored outside a window as its bits. -/
theorem storeLane_bytes {x : Ops} {a : Word} {rd : Rnd} {off : Int} {l : BitVec 32} {c : Acc} {p : Spot} {s s1 s2 : State}
    (h : vecSpot x true a off (vwidth x.fmt / 8) (vwidth x.fmt / 8) s = .ok ((c, p), s1)) (hp : ∀ w, p ≠ .win w)
    (hw : writeSpot c p (toBytes (vwidth x.fmt / 8) (laneBits x.fmt l)) s1 = .ok ((), s2)) :
    storeLane x a rd off l s = .ok (0, s2) := by
  rw [storeLane, Exec.bind_ok h]
  cases p with
  | tile t b o => exact Exec.bind_ok hw
  | glob va => exact Exec.bind_ok hw
  | win w => exact absurd rfl (hp w)

end Sys2Proof.Machine

namespace Sys2Proof.Claims
open Sys2Proof Sys2Proof.Machine

theorem vectorLoadsAndStores : VectorLoadsAndStores :=
  ⟨fun _ _ _ _ _ _ _ _ _ _ => vectorLoads, fun _ _ _ _ _ _ _ _ => vectorStores, fun _ _ _ _ _ _ _ _ _ _ => vldbc_does,
    fun _ _ _ _ _ _ _ _ _ => vldm_does, fun _ _ _ _ _ _ _ _ _ => vstm_does⟩

theorem vectorElementsLieAtTheirAddress : VectorElementsLieAtTheirAddress := by
  refine ⟨fun x wr a off n al s => vecSpot_generic, fun x wr a off n al s o hm hb h2 ho hn hd ha hs => ?_,
    fun x a rd off c p s s1 s2 bs => loadLane_bytes, fun x a w rd off c s s1 s2 v near => loadLane_window,
    fun x a rd off l c p s s1 s2 => storeLane_bytes⟩
  rw [vecSpot_buffer hm]
  exact vecBuf_inside hb h2 ho hn hd ha hs

/-- Settles O38: the loops over lanes by induction on the lanes, and where one element lies by the branches of `vecSpot`. -/
theorem vectorMemoryEntries : Obligations.VectorMemoryEntries :=
  ⟨vectorLoadsAndStores, vectorElementsLieAtTheirAddress⟩

end Sys2Proof.Claims
end

section
/-!
SUPPORT, of O60. What it means that a result keeps the canonical form of the memory, and the rules by which a result made of
parts keeps it when its parts do. A result is a state, a pair or an option or a sum that holds one, or an effect (`Exec`).
-/
namespace Sys2Proof.Machine

variable {α β γ ε : Type}

/-! ### Results that hold a state -/

/-- An early end of an effect keeps the form: what a stall does to a state does so. -/
def Exit.Form : Exit → Prop
  | .trap _ => True
  | .stall f => ∀ s : State, s.Form → (f s).Form

/-- What an effect has left keeps the form: its state, or what its stall does. -/
def Leaves : Except Exit (α × State) → Prop
  | .ok (_, t) => t.Form
  | .error i => i.Form

/-- However an effect ends that is begun in a memory of the form, it leaves one. -/
def Exec.Keeps (m : Exec α) : Prop := ∀ s : State, s.Form → Leaves (m s)

/-- The state in a pair has the form. -/
def PairForm (r : α × State) : Prop := ∀ a t, r = (a, t) → t.Form

/-- The state in a pair has the form. -/
def FstForm (r : State × α) : Prop := ∀ t a, r = (t, a) → t.Form

/-- The state beside the value of a result that is no failure has the form. -/
def OkForm (r : Except ε (α × State)) : Prop := ∀ a t, r = .ok (a, t) → t.Form

/-- The state of a result that is no failure has the form. -/
def OkStateForm (r : Except ε State) : Prop := ∀ t, r = .ok t → t.Form

/-- The state of an answer, if there is one, has the form. -/
def SomeForm (r : Option State) : Prop := ∀ t, r = some t → t.Form

/-- The state beside the value of an answer, if there is one, has the form. -/
def SomePairForm (r : Option (α × State)) : Prop := ∀ a t, r = some (a, t) → t.Form

/-- Either state of an alternative has the form. -/
def SumForm (r : State ⊕ State) : Prop := (∀ t, r = .inl t → t.Form) ∧ ∀ t, r = .inr t → t.Form

/-- The next state of an outcome has the form. -/
def OutForm (o : Out) : Prop := ∀ t, o = .next t → t.Form

theorem pairForm_mk {a : α} {s : State} (h : s.Form) : PairForm (a, s) := by rintro _ _ ⟨⟩; exact h
theorem fstForm_mk {a : α} {s : State} (h : s.Form) : FstForm (s, a) := by rintro _ _ ⟨⟩; exact h
theorem okForm_error {e : ε} : OkForm (.error e : Except ε (α × State)) := by rintro _ _ ⟨⟩
theorem okStateForm_ok {s : State} (h : s.Form) : OkStateForm (.ok s : Except ε State) := by rintro _ ⟨⟩; exact h
theorem okStateForm_error {e : ε} : OkStateForm (.error e : Except ε State) := by rintro _ ⟨⟩
theorem someForm_some {s : State} (h : s.Form) : SomeForm (some s) := by rintro _ ⟨⟩; exact h
theorem someForm_none : SomeForm none := by rintro _ ⟨⟩
theorem somePairForm_none : SomePairForm (none : Option (α × State)) := by rintro _ _ ⟨⟩
theorem sumForm_inl {s : State} (h : s.Form) : SumForm (.inl s) := ⟨by rintro _ ⟨⟩; exact h, by rintro _ ⟨⟩⟩
theorem sumForm_inr {s : State} (h : s.Form) : SumForm (.inr s) := ⟨by rintro _ ⟨⟩, by rintro _ ⟨⟩; exact h⟩
theorem outForm_next {s : State} (h : s.Form) : OutForm (.next s) := by rintro _ ⟨⟩; exact h

theorem okForm_ok {a : α} {s : State} (h : s.Form) : OkForm (.ok (a, s) : Except ε (α × State)) := by
  rintro _ _ ⟨⟩
  exact h

theorem okForm_ok_of {r : α × State} (h : PairForm r) : OkForm (.ok r : Except ε (α × State)) :=
  fun a t e => h a t (Except.ok.inj e)

theorem PairForm.snd {r : α × State} (h : PairForm r) : r.2.Form := h _ _ rfl
theorem FstForm.fst {r : State × α} (h : FstForm r) : r.1.Form := h _ _ rfl

/-! The state of a result that is known to be a certain one. -/

theorem PairForm.of_eq {r : α × State} {a : α} {t : State} (e : r = (a, t)) (h : PairForm r) : t.Form := h a t e
theorem OkStateForm.of_eq {r : Except ε State} {t : State} (e : r = .ok t) (h : OkStateForm r) : t.Form := h t e
theorem SomeForm.of_eq {r : Option State} {t : State} (e : r = some t) (h : SomeForm r) : t.Form := h t e
theorem OkForm.of_eq {r : Except ε (α × State)} {a : α} {t : State} (e : r = .ok (a, t)) (h : OkForm r) : t.Form :=
  h a t e

/-! ### Results made of parts -/

theorem form_ite {p : Prop} [Decidable p] {s t : State} (hs : p → s.Form) (ht : ¬ p → t.Form) :
    (if p then s else t).Form := by
  split
  · exact hs ‹_›
  · exact ht ‹_›

theorem pred_ite {P : α → Prop} {p : Prop} [Decidable p] {a b : α} (ha : p → P a) (hb : ¬ p → P b) :
    P (if p then a else b) := by
  split
  · exact ha ‹_›
  · exact hb ‹_›

theorem form_foldl {f : State → α → State} {l : List α} {s : State} (h : s.Form)
    (hf : ∀ s a, s.Form → (f s a).Form) : (l.foldl f s).Form :=
  List.foldlRecOn l f h fun s hs a _ => hf s a hs

theorem fstForm_foldl {f : State × α → γ → State × α} {l : List γ} {p : State × α} (h : p.1.Form)
    (hf : ∀ p a, p.1.Form → (f p a).1.Form) : (l.foldl f p).1.Form :=
  List.foldlRecOn l f h fun p hp a _ => hf p a hp

theorem sndForm_foldl {f : α × State → γ → α × State} {l : List γ} {p : α × State} (h : p.2.Form)
    (hf : ∀ p a, p.2.Form → (f p a).2.Form) : (l.foldl f p).2.Form :=
  List.foldlRecOn l f h fun p hp a _ => hf p a hp

theorem form_getD_map {f : α → State} {o : Option α} {s : State} (h : s.Form) (hf : ∀ a, (f a).Form) :
    ((o.map f).getD s).Form := by
  cases o with
  | none => exact h
  | some a => exact hf a

theorem form_getD {o : Option State} {s : State} (ho : SomeForm o) (h : s.Form) : (o.getD s).Form := by
  cases o with
  | none => exact h
  | some a => exact ho a rfl

theorem form_elim {o : Option α} {s : State} {f : α → State} (h : s.Form) (hf : ∀ a, (f a).Form) :
    (o.elim s f).Form := by
  cases o with
  | none => exact h
  | some a => exact hf a

theorem okForm_map {r : Except ε (α × State)} {f : α × State → γ × State} (h : ∀ p, (f p).2.Form) :
    OkForm (r.map f) := by
  intro a t e
  cases r with
  | error i => cases e
  | ok p =>
    have := h p
    rwa [Except.ok.inj e] at this

theorem okForm_bind {m : Except ε (α × State)} {f : α × State → Except ε (β × State)} (hm : OkForm m)
    (hf : ∀ a s, s.Form → OkForm (f (a, s))) : OkForm (m >>= f) := by
  cases m with
  | error e => exact okForm_error
  | ok p => exact hf p.1 p.2 (hm _ _ rfl)

theorem okForm_foldlM {f : α × State → γ → Except ε (α × State)} {l : List γ} {p : α × State} (h : p.2.Form)
    (hf : ∀ a s b, s.Form → OkForm (f (a, s) b)) : OkForm (l.foldlM f p) := by
  induction l generalizing p with
  | nil => exact okForm_ok h
  | cons b l ih => exact okForm_bind (hf p.1 p.2 b h) fun _ _ hs => ih hs

theorem someForm_bind {o : Option α} {f : α → Option State} (hf : ∀ a, SomeForm (f a)) : SomeForm (o >>= f) := by
  cases o with
  | none => exact someForm_none
  | some a => exact hf a

theorem someForm_bind_pair {o : Option (α × State)} {f : α × State → Option State} (ho : SomePairForm o)
    (hf : ∀ a s, s.Form → SomeForm (f (a, s))) : SomeForm (o >>= f) := by
  cases o with
  | none => exact someForm_none
  | some p => exact hf p.1 p.2 (ho _ _ rfl)

theorem someForm_bind_state {o : Option State} {f : State → Option State} (ho : SomeForm o)
    (hf : ∀ s, s.Form → SomeForm (f s)) : SomeForm (o >>= f) := by
  cases o with
  | none => exact someForm_none
  | some s => exact hf s (ho _ rfl)

/-! ### Effects made of parts -/

theorem leaves_ok {a : α} {s : State} (h : s.Form) : Leaves (.ok (a, s)) := h
theorem leaves_trap {i : TrapInfo} : Leaves (.error (.trap i) : Except Exit (α × State)) := trivial
theorem leaves_stall {f : State → State} (hf : ∀ s, s.Form → (f s).Form) :
    Leaves (.error (.stall f) : Except Exit (α × State)) := hf

theorem Exec.Keeps.ok {m : Exec α} {s t : State} {a : α} (hm : m.Keeps) (h : s.Form) (e : m s = .ok (a, t)) :
    t.Form := by
  have := hm s h
  rwa [e] at this

theorem Exec.Keeps.stall {m : Exec α} {s : State} {f : State → State} (hm : m.Keeps) (h : s.Form)
    (e : m s = .error (.stall f)) : ∀ u : State, u.Form → (f u).Form := by
  have := hm s h
  rwa [e] at this

theorem Exec.Keeps.bind {m : Exec α} {f : α → Exec β} (hm : m.Keeps) (hf : ∀ a, (f a).Keeps) : (m >>= f).Keeps := by
  intro s hs
  have h := hm s hs
  cases e : m s with
  | error i =>
    rw [e] at h
    rwa [Exec.bind_error e]
  | ok p =>
    rw [e] at h
    rw [Exec.bind_ok e]
    exact hf p.1 p.2 h

theorem pure_keeps {a : α} : (pure a : Exec α).Keeps := fun _ h => h
theorem getState_keeps : getState.Keeps := fun _ h => h
theorem getRegs_keeps : getRegs.Keeps := fun _ h => h
theorem modRegs_keeps {f : Regs → Regs} : (modRegs f).Keeps := fun _ h => h
theorem modChunk_keeps {f : Chunk → Chunk} : (modChunk f).Keeps := fun _ h => h
theorem modState_keeps {f : State → State} (hf : ∀ s, s.Form → (f s).Form) : (modState f).Keeps := hf
theorem throwTrap_keeps {i : TrapInfo} : (throwTrap i : Exec α).Keeps := fun _ _ => trivial
theorem faultIp_keeps {code : Byte} {cause : Nat} : (faultIp code cause : Exec α).Keeps := fun _ _ => trivial
theorem stallWith_keeps {f : State → State} (hf : ∀ s, s.Form → (f s).Form) : (stallWith f : Exec α).Keeps :=
  fun _ _ => hf

theorem keeps_ite {p : Prop} [Decidable p] {m n : Exec α} (hm : p → m.Keeps) (hn : ¬ p → n.Keeps) :
    (if p then m else n).Keeps := by
  split
  · exact hm ‹_›
  · exact hn ‹_›

/-- A step that is taken on a condition, and what follows it either way. -/
theorem keeps_when {p : Prop} [Decidable p] {m : Exec Unit} {k : Unit → Exec α} (hm : m.Keeps)
    (hk : ∀ b, (k b).Keeps) : (if p then m >>= k else k ()).Keeps :=
  keeps_ite (fun _ => hm.bind hk) fun _ => hk ()

/-- One of two steps, and what follows either. -/
theorem keeps_either {p : Prop} [Decidable p] {m n : Exec β} {k : β → Exec α} (hm : m.Keeps) (hn : n.Keeps)
    (hk : ∀ b, (k b).Keeps) : (if p then m >>= k else n >>= k).Keeps :=
  keeps_ite (fun _ => hm.bind hk) fun _ => hn.bind hk

theorem forIn_keeps {l : List γ} {b : β} {f : γ → β → Exec (ForInStep β)} (hf : ∀ a b, (f a b).Keeps) :
    (forIn l b f : Exec β).Keeps := by
  induction l generalizing b with
  | nil => exact pure_keeps
  | cons a l ih =>
    rw [List.forIn_cons]
    refine (hf a b).bind fun r => ?_
    cases r with
    | done b => exact pure_keeps
    | yield b => exact ih

theorem mapM_keeps {l : List γ} {f : γ → Exec β} (hf : ∀ a, (f a).Keeps) :
    (l.mapM f : Exec (List β)).Keeps := by
  induction l with
  | nil => exact pure_keeps
  | cons a l ih =>
    rw [List.mapM_cons]
    exact (hf a).bind fun _ => ih.bind fun _ => pure_keeps

/-! ### Writes of memory -/

theorem State.pokeBytes_form {s : State} {kn key bs} (h : s.Form) : (s.pokeBytes kn key bs).Form :=
  State.pokeBytes_wf h kn key bs

theorem State.commitBytes_form {s : State} {t vf kn key bs} (h : s.Form) : (s.commitBytes t vf kn key bs).Form :=
  State.commitBytes_wf h t vf kn key bs

theorem State.commitWords_form {s : State} {t key ws} (h : s.Form) : (s.commitWords t key ws).Form :=
  State.commitWords_wf h t key ws

end Sys2Proof.Machine
end

section
/-!
SUPPORT, of O60. What `Machine/State.lean` does keeps the canonical form of the memory: the state of reset.
-/
namespace Sys2Proof.Machine

theorem State.reset_form : State.reset.Form := rfl

end Sys2Proof.Machine
end

section
/-!
SUPPORT, of O60. What `Machine/Ops.lean` does keeps the canonical form of the memory: the named operations of a state.
-/
namespace Sys2Proof.Machine

theorem State.setTile_form {s : State} {t x} (h : s.Form) : (s.setTile t x).Form := h
theorem State.updTile_form {s : State} {t f} (h : s.Form) : (s.updTile t f).Form := State.setTile_form h
theorem State.setCore_form {s : State} {t k c} (h : s.Form) : (s.setCore t k c).Form := State.updTile_form h
theorem State.updCore_form {s : State} {t k f} (h : s.Form) : (s.updCore t k f).Form := State.setCore_form h
theorem State.setMe_form {s : State} {c} (h : s.Form) : (s.setMe c).Form := State.setCore_form h
theorem State.setPort_form {s : State} {p x} (h : s.Form) : (s.setPort p x).Form := h
theorem State.setQueue_form {s : State} {q x} (h : s.Form) : (s.setQueue q x).Form := h
theorem State.setJob_form {s : State} {j} (h : s.Form) : (s.setJob j).Form := h
theorem State.setLaunch_form {s : State} {l} (h : s.Form) : (s.setLaunch l).Form := h
theorem State.setRun_form {s : State} {r} (h : s.Form) : (s.setRun r).Form := h
theorem State.choose_form {s : State} (h : s.Form) : PairForm (s.choose) := pairForm_mk h
theorem State.count_form {s : State} {ofs n} (h : s.Form) : (s.count ofs n).Form := h
theorem State.setPciFn_form {s : State} {f p} (h : s.Form) : (s.setPciFn f p).Form := h
theorem State.sendIrq_form {s : State} {f v} (h : s.Form) : (s.sendIrq f v).Form := h

theorem State.raiseIrq_form {s : State} {f v} (h : s.Form) : (s.raiseIrq f v).Form :=
  form_ite (fun _ => State.sendIrq_form h) fun _ => State.setPciFn_form h

theorem State.logCheck_form {s : State} {t code cfad} (h : s.Form) : (s.logCheck t code cfad).Form := by
  unfold State.logCheck
  extract_lets s1 s2
  have hs1 : s1.Form := State.count_form h
  have hs2 : s2.Form := hs1
  exact State.raiseIrq_form hs2

theorem State.conflict_form {s : State} {lines} (h : s.Form) : (s.conflict lines).Form := h

theorem State.flip_form {s : State} {t slabs e} (h : s.Form) : (s.flip t slabs e).Form :=
  State.conflict_form (State.updTile_form h)

theorem State.takeFlips_form {s : State} {t} (h : s.Form) : (s.takeFlips t).Form := State.flip_form h

theorem State.letGo_form {s : State} {t slabs} (h : s.Form) : (s.letGo t slabs).Form :=
  State.takeFlips_form (State.updTile_form h)

theorem stallWait_keeps {α : Type} : (stallWait : Exec α).Keeps := stallWith_keeps (fun u hu => State.setMe_form hu)
theorem State.closeChunk_form {s : State} (h : s.Form) : s.closeChunk.Form := State.setMe_form h

theorem needEmpty_keeps : needEmpty.Keeps := by
  unfold needEmpty
  refine fun u hu => ?_
  beta_reduce
  split
  · rename_i h _
    exact pred_ite (P := Leaves) (fun _ => leaves_stall (fun _ h => State.closeChunk_form h)) fun _ => leaves_ok hu
  · exact leaves_ok hu

theorem atCommit_keeps {a} : (atCommit a).Keeps := modChunk_keeps

theorem State.cancelLaunch_form {s : State} {l cause} (h : s.Form) : (s.cancelLaunch l cause).Form := by
  unfold State.cancelLaunch
  split
  · exact h
  · exact form_ite (fun _ => h) fun _ => form_foldl (State.setLaunch_form h) fun u a2 hu => form_ite (fun _ =>
      State.updTile_form hu) fun _ => hu

theorem State.leavePorts_form {s : State} {t} (h : s.Form) : (s.leavePorts t).Form :=
  form_foldl h fun u a hu => State.setPort_form hu

theorem State.leaveJoin_form {s : State} {t k} (h : s.Form) : (s.leaveJoin t k).Form :=
  State.updCore_form (form_ite (fun _ => State.leavePorts_form h) fun _ => h)

theorem State.takeTrap_form {s : State} {t k i ctpc ctnpc bd held} (h : s.Form) :
    (s.takeTrap t k i ctpc ctnpc bd held).Form := by
  unfold State.takeTrap
  refine form_ite (fun _ => h) fun _ => ?_
  extract_lets s1 c r1 s11 s2 s3
  have hs1 : s1.Form := State.leaveJoin_form h
  have hs11 : s11.Form := State.setCore_form hs1
  have hs2 : s2.Form := State.commitWords_form hs11
  have hs3 : s3.Form := State.updCore_form hs2
  refine form_ite (fun _ => ?_) fun _ => State.updCore_form hs2
  split
  · exact State.cancelLaunch_form hs3
  · exact hs3

end Sys2Proof.Machine
end

section
/-!
SUPPORT, of O60. What `Machine/Flags.lean` does keeps the canonical form of the memory: the flags.
-/
namespace Sys2Proof.Machine

theorem addFlags_keeps {f} : (addFlags f).Keeps := modRegs_keeps

end Sys2Proof.Machine
end

section
/-!
SUPPORT, of O60. What `Machine/Space.lean` does keeps the canonical form of the memory: translation, which writes the
A and D bits of page tables.
-/
namespace Sys2Proof.Machine

theorem faultAcc_keeps {α : Type} {c code cause} : (faultAcc c code cause : Exec α).Keeps := fun u hu => leaves_trap

theorem State.cacheWalk_form {s : State} {t va l ups} (h : s.Form) : (s.cacheWalk t va l ups).Form := by
  unfold State.cacheWalk
  extract_lets k w k3
  have hk3 : k3.Form := State.updTile_form h
  exact hk3

theorem State.dropTlb_form {s : State} {gone} (h : s.Form) : (s.dropTlb gone).Form := h

theorem State.slotsSettle_form {s : State} (h : s.Form) : s.slotsSettle.Form := by
  unfold State.slotsSettle
  refine form_foldl h fun u a hu => form_ite (fun _ => ?_) fun _ => hu
  extract_lets s1 k2
  have hs1 : s1.Form := State.dropTlb_form hu
  exact hs1

theorem State.setAD_form {s : State} {t vf e at_ write} (h : s.Form) : FstForm (s.setAD t vf e at_ write) :=
  pred_ite (P := FstForm) (fun _ => fstForm_mk h) fun _ => fstForm_mk (State.commitBytes_form h)

theorem State.walkFor_form {s : State} {t vf q va} (h : s.Form) :
    OkForm (s.walkFor t vf q va) := by
  unfold State.walkFor
  split
  · exact okForm_error
  · exact okForm_error
  · split
    · exact okForm_error
    · exact okForm_ok (State.cacheWalk_form (State.setAD_form h).fst)

theorem State.translate_form {s : State} {t vf q va} (h : s.Form) : OkForm (s.translate t vf q va) := by
  unfold State.translate
  split
  · split
    · exact okForm_error
    · exact okForm_ok h
  · split
    · exact okForm_error
    · rename_i e1
      exact okForm_ok (OkForm.of_eq e1 (State.walkFor_form h))

theorem xlateBy_keeps {c e log va} : (xlateBy c e log va).Keeps := by
  unfold xlateBy
  refine fun u hu => ?_
  beta_reduce
  split
  · exact leaves_ok (State.setMe_form hu)
  · exact leaves_trap

theorem xlate_keeps {c va} :
    (xlate c va).Keeps := by
  unfold xlate
  intro u hu
  beta_reduce
  split
  · split
    · exact xlateBy_keeps u hu
    · exact leaves_trap
    · exact leaves_stall fun _ h => h
  · split
    · exact xlateBy_keeps u hu
    · exact leaves_stall fun _ h => State.setMe_form h

theorem locate_keeps {c align vec} : (locate c align vec).Keeps := by
  unfold locate
  refine fun u hu => ?_
  beta_reduce
  split
  · exact leaves_trap
  · exact pred_ite (P := Leaves) (fun _ => leaves_trap) fun _ => leaves_ok hu

theorem rowTarget_keeps {c t} : (rowTarget c t).Keeps := by
  unfold rowTarget
  refine fun u hu => pred_ite (P := Leaves) (fun _ => leaves_ok hu) fun _ => ?_
  split
  · exact leaves_trap
  · exact pred_ite (P := Leaves) (fun _ => leaves_stall (fun u1 hu1 => hu1)) fun _ => pred_ite (P := Leaves) (fun _ =>
      leaves_ok hu) fun _ => leaves_trap

end Sys2Proof.Machine
end

section
/-!
SUPPORT, of O60. What `Machine/Access.lean` does keeps the canonical form of the memory: a core's loads and stores
inside its chunk, and its accesses outside the package.
-/
namespace Sys2Proof.Machine

theorem State.sendFab_form {s : State} {pkg pa op what transfer} (h : s.Form) : PairForm
    (s.sendFab pkg pa op what transfer) :=
  pairForm_mk h

theorem State.sendHostRead_form {s : State} {t k addr len} (h : s.Form) : PairForm (s.sendHostRead t k addr len) :=
  pairForm_mk h

theorem State.squash_form {s : State} {t k counts} (h : s.Form) : (s.squash t k counts).Form := by
  unfold State.squash
  extract_lets c
  split
  · exact h
  · extract_lets n s1
    have hs1 : s1.Form := State.setCore_form h
    exact form_ite (fun _ => hs1) fun _ => hs1

theorem extAsk_keeps {c p op len} :
    (extAsk c p op len).Keeps := by
  unfold extAsk
  intro u hu
  beta_reduce
  extract_lets e0 e
  split
  · exact hu
  · refine pred_ite (P := Leaves) (fun _ => leaves_trap) fun _ => pred_ite (P := Leaves) (fun _ => leaves_trap) fun _ =>
      pred_ite (P := Leaves) (fun _ => leaves_trap) fun _ => pred_ite (P := Leaves) (fun _ => leaves_stall fun _ h => h)
        fun _ =>
      leaves_stall fun v hv => form_ite (fun _ => State.squash_form hv) fun _ => ?_
    extract_lets rd s e2
    have hs : s.Form := State.setMe_form hv
    refine State.setMe_form (PairForm.snd ?_)
    split
    · exact State.sendFab_form hs
    · exact State.sendHostRead_form hs
    · exact pairForm_mk hs

theorem checkPoison_keeps {c key n} : (checkPoison c key n).Keeps :=
  fun u hu => pred_ite (P := Leaves) (fun _ => leaves_trap) fun _ => leaves_ok hu

theorem checkTail_keeps {key n} : (checkTail key n).Keeps := by
  unfold checkTail
  refine fun u hu => ?_
  beta_reduce
  split
  · exact leaves_trap
  · exact leaves_ok hu

theorem addReads_keeps {ls} : (addReads ls).Keeps := modChunk_keeps
theorem pkgScope_keeps : pkgScope.Keeps := modChunk_keeps
theorem closeAfter_keeps : closeAfter.Keeps := modChunk_keeps
theorem alone_keeps : alone.Keeps := modChunk_keeps

theorem readPlace_keeps {c p n} : (readPlace c p n).Keeps := by
  unfold readPlace
  split
  · exact getState_keeps.bind fun s => keeps_when (stallWith_keeps (fun u hu => hu)) fun _ => checkPoison_keeps.bind
      fun _ => keeps_when needEmpty_keeps fun _ => keeps_when pkgScope_keeps fun _ =>
      keeps_either alone_keeps addReads_keeps fun _ => getState_keeps.bind fun _ => pure_keeps
  · exact needEmpty_keeps.bind fun _ => pkgScope_keeps.bind fun _ => closeAfter_keeps.bind fun _ => extAsk_keeps

theorem writePlace_keeps {p bs} : (writePlace p bs).Keeps := by
  unfold writePlace
  split
  · refine getState_keeps.bind fun s => keeps_when (stallWith_keeps (fun u hu => hu)) fun a4 => ?_
    extract_lets k1 k2
    have hk1 : ∀ b, (k1 b).Keeps := fun _ => modChunk_keeps
    have hk2 : ∀ b, (k2 b).Keeps := fun _ => keeps_ite (fun _ => needEmpty_keeps.bind fun _ => alone_keeps.bind hk1)
      fun _ => hk1 ()
    split
    · rename_i h _
      exact keeps_ite (fun _ => .bind (stallWith_keeps (fun _ h => State.closeChunk_form h)) hk2) fun _ => hk2 ()
    · exact hk2 ()
  · exact needEmpty_keeps.bind fun _ => pkgScope_keeps.bind fun _ => atCommit_keeps.bind fun _ => alone_keeps
  · exact needEmpty_keeps.bind fun _ => pkgScope_keeps.bind fun _ => atCommit_keeps.bind fun _ => alone_keeps

theorem checkOwner_keeps {c t buf ofs} : (checkOwner c t buf ofs).Keeps :=
  getState_keeps.bind fun s => addReads_keeps.bind fun a => keeps_ite (fun _ => faultAcc_keeps) fun _ => pure_keeps

theorem useApts_keeps {va} : (useApts va).Keeps := by
  unfold useApts
  refine getState_keeps.bind fun s => ?_
  split
  · exact pure_keeps
  · exact addReads_keeps.bind fun _ => pure_keeps

theorem readGlob_keeps {c va n} : (readGlob c va n).Keeps := by
  unfold readGlob
  refine useApts_keeps.bind fun aps => ?_
  split
  · exact xlate_keeps.bind fun _ => readPlace_keeps
  · extract_lets v e1 first w first1
    split
    · exact xlate_keeps.bind fun _ => readPlace_keeps
    · refine .bind (mapM_keeps ?_) fun _ => pure_keeps
      intro a2
      exact xlate_keeps.bind fun _ => readPlace_keeps
    · refine .bind (mapM_keeps ?_) fun _ => pure_keeps
      intro a4
      split
      · exact xlate_keeps.bind fun _ => readPlace_keeps.bind fun _ => pure_keeps

theorem writeGlob_keeps {c va bs} : (writeGlob c va bs).Keeps := by
  unfold writeGlob
  refine useApts_keeps.bind fun aps => ?_
  split
  · exact xlate_keeps.bind fun _ => writePlace_keeps
  · extract_lets v
    split
    · exact xlate_keeps.bind fun _ => writePlace_keeps
    · refine .bind (forIn_keeps fun a2 a3 => ?_) fun _ => pure_keeps
      split
      · exact xlate_keeps.bind fun _ => writePlace_keeps.bind fun r => pure_keeps
    · exact faultAcc_keeps

theorem readSpot_keeps {c p n} : (readSpot c p n).Keeps := by
  unfold readSpot
  split
  · exact rowTarget_keeps.bind fun _ => checkOwner_keeps.bind fun _ => readPlace_keeps
  · exact readGlob_keeps
  · exact faultAcc_keeps

theorem storePlaces_keeps {c p n} : (storePlaces c p n).Keeps := by
  unfold storePlaces
  split
  · exact rowTarget_keeps.bind fun _ => checkOwner_keeps.bind fun _ => pure_keeps
  · refine useApts_keeps.bind fun aps => ?_
    split
    · exact xlate_keeps.bind fun _ => pure_keeps
    · extract_lets v
      split
      · exact xlate_keeps.bind fun _ => pure_keeps
      · refine mapM_keeps ?_
        intro a4
        exact xlate_keeps
      · exact faultAcc_keeps
  · exact faultAcc_keeps

theorem writeSpot_keeps {c p bs} : (writeSpot c p bs).Keeps := by
  unfold writeSpot
  split
  · exact rowTarget_keeps.bind fun _ => checkOwner_keeps.bind fun _ => writePlace_keeps
  · exact writeGlob_keeps
  · exact faultAcc_keeps

theorem loadAt_keeps {kind align vec a n} : (loadAt kind align vec a n).Keeps := locate_keeps.bind fun _ => readSpot_keeps

theorem storeAt_keeps {kind align vec a bs} : (storeAt kind align vec a bs).Keeps :=
  locate_keeps.bind fun _ => writeSpot_keeps

theorem winRead_keeps {c a} : (winRead c a).Keeps := by
  unfold winRead
  refine getState_keeps.bind fun s => ?_
  extract_lets t buf e cb scaled
  split
  · refine checkOwner_keeps.bind fun a2 => readPlace_keeps.bind fun bs => ?_
    extract_lets raw nib k3
    have hk3 : ∀ b, (k3 b).Keeps := fun _ => keeps_when addReads_keeps fun _ => pure_keeps
    split
    · exact checkOwner_keeps.bind fun _ => readPlace_keeps.bind fun _ => pure_keeps.bind hk3
    · exact pure_keeps.bind hk3

theorem winWrite_keeps {c a rd sat fromInt v} : (winWrite c a rd sat fromInt v).Keeps := by
  unfold winWrite
  refine getState_keeps.bind fun s => ?_
  extract_lets t buf w
  split
  · refine keeps_ite (fun _ => checkOwner_keeps.bind fun a2 => ?_) fun _ => keeps_ite (fun _ => checkOwner_keeps.bind
      fun a2 => readPlace_keeps.bind fun a3 => ?_) fun _ => faultAcc_keeps
    · split
      · exact writePlace_keeps.bind fun _ => pure_keeps
    · extract_lets old
      split
      · exact writePlace_keeps.bind fun _ => pure_keeps

theorem drawScalar_keeps : drawScalar.Keeps := getRegs_keeps.bind fun r => modRegs_keeps.bind fun _ => pure_keeps

theorem loadRange_keeps {kind a n} : (loadRange kind a n).Keeps := by
  unfold loadRange
  refine .bind (mapM_keeps ?_) fun _ => pure_keeps
  intro a1
  split
  · exact loadAt_keeps

theorem storeRange_keeps {kind a bs} : (storeRange kind a bs).Keeps := by
  unfold storeRange
  split
  · exact pure_keeps
  · refine storeAt_keeps.bind fun a2 => ?_
    split
    · exact storeAt_keeps
    · exact pure_keeps

theorem bufFault_keeps {α : Type} {a kind cause} : (bufFault a kind cause : Exec α).Keeps := fun u hu => leaves_trap

theorem checkBuf_keeps {a n kind ok} : (checkBuf a n kind ok).Keeps :=
  getState_keeps.bind fun s => keeps_when bufFault_keeps fun _ => keeps_ite (fun _ => keeps_when bufFault_keeps fun _ =>
    keeps_when bufFault_keeps fun _ => keeps_when bufFault_keeps fun _ => keeps_ite (fun _ => bufFault_keeps) fun _ =>
    pure_keeps) fun _ => pure_keeps

theorem checkSide_keeps {slabs engine kind} : (checkSide slabs engine kind).Keeps := by
  unfold checkSide
  refine getState_keeps.bind fun s => addReads_keeps.bind fun a => ?_
  split
  · exact throwTrap_keeps
  · exact pure_keeps

end Sys2Proof.Machine
end

section
/-!
SUPPORT, of O60. What `Machine/Operands.lean` does keeps the canonical form of the memory: operands, streams and
vector groups.
-/
namespace Sys2Proof.Machine

theorem streamPeek_keeps {n} : (streamPeek n).Keeps :=
  getRegs_keeps.bind fun r => keeps_when faultIp_keeps fun a => keeps_when faultIp_keeps fun _ => keeps_ite (fun _ =>
    pure_keeps) fun _ => loadAt_keeps.bind fun _ => pure_keeps

theorem streamStep_keeps {n} : (streamStep n).Keeps := modRegs_keeps

theorem readOpd_keeps {x o} : (readOpd x o).Keeps := by
  unfold readOpd
  split
  · exact getRegs_keeps.bind fun _ => pure_keeps
  · exact getRegs_keeps.bind fun _ => pure_keeps
  · exact getRegs_keeps.bind fun _ => pure_keeps
  · exact getRegs_keeps.bind fun _ => pure_keeps
  · exact pure_keeps
  · exact getRegs_keeps.bind fun _ => pure_keeps
  · exact streamPeek_keeps.bind fun _ => streamStep_keeps.bind fun _ => pure_keeps
  · exact pure_keeps

theorem writeOpd_keeps {o v} : (writeOpd o v).Keeps := by
  unfold writeOpd
  split
  · refine getRegs_keeps.bind fun a => keeps_when faultIp_keeps fun a1 => keeps_when faultIp_keeps fun a2 => ?_
    extract_lets k1 w
    have hk1 : ∀ b, (k1 b).Keeps := fun _ => streamStep_keeps.bind fun _ => modRegs_keeps
    exact keeps_ite (fun _ => storeAt_keeps.bind hk1) fun _ => hk1 ()
  · exact modRegs_keeps

theorem readA_keeps {x} : (readA x).Keeps := readOpd_keeps
theorem readB_keeps {x} : (readB x).Keeps := readOpd_keeps
theorem readC_keeps {x} : (readC x).Keeps := readOpd_keeps
theorem writeLanes_keeps {x act vals} : (writeLanes x act vals).Keeps := getRegs_keeps.bind fun _ => modRegs_keeps
theorem drawVector_keeps {g} : (drawVector g).Keeps := getRegs_keeps.bind fun r => modRegs_keeps.bind fun _ => pure_keeps

end Sys2Proof.Machine
end

section
/-!
SUPPORT, of O60. What `Machine/Sched.lean` does keeps the canonical form of the memory: launch, graph and job records,
tasks and cancels.
-/
namespace Sys2Proof.Machine

theorem State.xlateJob_form {s : State} {j write va} (h : s.Form) : OkForm (s.xlateJob j write va) := by
  unfold State.xlateJob
  extract_lets q
  split
  · exact okForm_error
  · exact okForm_error
  · split
    · exact okForm_error
    · exact okForm_ok ((State.setAD_form h).fst)

theorem State.placeBytes_form {s : State} {p n} (h : s.Form) : PairForm (s.placeBytes p n) := by
  unfold State.placeBytes
  split
  · exact pairForm_mk h
  · exact pairForm_mk h

theorem State.gRead_form {s : State} {j va n} (h : s.Form) : OkForm (s.gRead j va n) := by
  unfold State.gRead
  split
  · exact okForm_error
  · rename_i e
    split
    · exact okForm_error
    · exact okForm_ok_of (State.placeBytes_form (OkForm.of_eq e (State.xlateJob_form h)))

theorem State.noteBad_form {s : State} {f} (h : s.Form) : (s.noteBad f).Form :=
  form_ite (fun _ => State.logCheck_form h) fun _ => h

theorem State.placeWrite_form {s : State} {t vf p bs} (h : s.Form) : (s.placeWrite t vf p bs).Form := by
  unfold State.placeWrite
  split
  · exact State.commitBytes_form h
  · exact h
  · exact (State.sendFab_form h).snd

theorem State.gWrite_form {s : State} {j va bs} (h : s.Form) : OkStateForm (s.gWrite j va bs) := by
  unfold State.gWrite
  split
  · exact okStateForm_error
  · rename_i e
    exact okStateForm_ok (State.placeWrite_form (OkForm.of_eq e (State.xlateJob_form h)))

theorem State.gPut_form {s : State} {j va bs} (h : s.Form) : (s.gPut j va bs).Form := by
  unfold State.gPut
  split
  · rename_i e
    exact OkStateForm.of_eq e (State.gWrite_form h)
  · exact State.noteBad_form h

theorem State.launchCounts_form {s : State} {l} (h : s.Form) : (s.launchCounts l).Form := by
  unfold State.launchCounts
  split
  · exact State.gPut_form h
  · exact h

theorem State.launchState_form {s : State} {l} (h : s.Form) : (s.launchState l).Form := by
  unfold State.launchState
  split
  · exact State.gPut_form h
  · exact h

theorem State.jobState_form {s : State} {j} (h : s.Form) : (s.jobState j).Form := State.gPut_form h

theorem State.jobCount_form {s : State} {j graphs launches} (h : s.Form) : (s.jobCount j graphs launches).Form := by
  unfold State.jobCount
  extract_lets va
  split
  · rename_i e
    exact State.gPut_form (OkForm.of_eq e (State.gRead_form h))
  · exact State.noteBad_form h

theorem State.runRecord_form {s : State} {r} (h : s.Form) : (s.runRecord r).Form := by
  unfold State.runRecord
  split
  · exact State.gPut_form (State.gPut_form h)
  · exact h

theorem State.freeJob_form {s : State} {j} (h : s.Form) : (s.freeJob j).Form := by
  unfold State.freeJob
  extract_lets s1 k2 s2 s3
  have hs1 : s1.Form := State.dropTlb_form h
  have hs2 : s2.Form := hs1
  have hs3 : s3.Form := State.slotsSettle_form hs2
  exact hs3

theorem State.jobSettle_form {s : State} {jid} (h : s.Form) : (s.jobSettle jid).Form := by
  unfold State.jobSettle
  split
  · exact h
  · extract_lets busy ended j1 s1
    have hs1 : s1.Form := form_ite (fun _ => State.jobState_form (State.setJob_form h)) fun _ => h
    exact form_ite (fun _ => State.freeJob_form hs1) fun _ => hs1

theorem State.runFault_form {s : State} {r cause} (h : s.Form) : (s.runFault r cause).Form :=
  State.jobSettle_form (State.runRecord_form (State.setRun_form h))

theorem State.refuseRun_form {s : State} {l} (h : s.Form) : (s.refuseRun l).Form := by
  unfold State.refuseRun
  split
  · exact form_ite (fun _ => State.runFault_form h) fun _ => h
  · exact h

theorem State.runSettle_form {s : State} {r} (h : s.Form) : (s.runSettle r).Form := by
  unfold State.runSettle
  split
  · exact form_ite (fun _ => State.jobSettle_form (State.runRecord_form (State.setRun_form h))) fun _ => h
  · exact h

theorem State.launchSettle_form {s : State} {id} (h : s.Form) : (s.launchSettle id).Form := by
  unfold State.launchSettle
  split
  · exact h
  · refine form_ite (fun _ => ?_) fun _ => h
    extract_lets l s1 s2
    have hs1 : s1.Form := State.launchState_form (State.setLaunch_form h)
    have hs2 : s2.Form := by
      unfold s2
      split
      · exact State.jobCount_form hs1
      · exact hs1
    exact State.jobSettle_form (form_getD_map hs2 fun a2 => State.runSettle_form hs2)

theorem State.countEnd_form {s : State} {id n cancelled} (h : s.Form) : (s.countEnd id n cancelled).Form := by
  unfold State.countEnd
  split
  · exact h
  · exact State.launchCounts_form (State.setLaunch_form h)

theorem State.dropNotes_form {s : State} {jid vtn} (h : s.Form) : (s.dropNotes jid vtn).Form :=
  form_foldl h fun u a hu => form_foldl hu fun u1 a1 hu1 => form_ite (fun _ => hu1) fun _ =>
    State.updTile_form (form_ite (fun _ => smWf_smClear (smWf_smClear hu1)) fun _ => smWf_smClear hu1)

theorem State.endCancelled_form {s : State} {id} (h : s.Form) : (s.endCancelled id).Form := by
  unfold State.endCancelled
  split
  · exact h
  · refine form_ite (fun _ => h) fun _ => form_ite (fun _ => ?_) fun _ => form_ite (fun _ => ?_) fun _ => h
    · extract_lets l s1
      have hs1 : s1.Form := State.launchState_form (State.setLaunch_form h)
      exact State.jobSettle_form (form_getD_map hs1 fun a2 => State.runSettle_form hs1)
    · extract_lets n s1
      have hs1 : s1.Form := form_foldl (State.setLaunch_form h) fun u a2 hu => State.dropNotes_form hu
      exact State.launchSettle_form (form_ite (fun _ => hs1) fun _ => State.countEnd_form hs1)

theorem State.cancelAll_form {s : State} {id cause} (h : s.Form) : (s.cancelAll id cause).Form := by
  unfold State.cancelAll
  split
  · exact h
  · exact form_ite (fun _ => State.endCancelled_form (State.setLaunch_form h)) fun _ =>
      State.endCancelled_form (State.cancelLaunch_form h)

theorem State.enterTrap_form {s : State} {t k i ctpc ctnpc bd held} (h : s.Form) :
    (s.enterTrap t k i ctpc ctnpc bd held).Form := by
  unfold State.enterTrap
  extract_lets s1
  have hs1 : s1.Form := State.takeTrap_form h
  exact form_ite (fun _ => form_getD_map hs1 fun a => State.endCancelled_form hs1) fun _ => hs1

theorem State.mapLaunchCores_form {s : State} {l f} (h : s.Form) : (s.mapLaunchCores l f).Form := by
  unfold State.mapLaunchCores
  extract_lets g s1
  have hs1 : s1.Form := form_foldl h fun u a hu => State.updTile_form hu
  split
  · exact State.setLaunch_form hs1
  · exact hs1

theorem State.slipLog_form {s : State} {j p tick phase late w3} (h : s.Form) :
    (s.slipLog j p tick phase late w3).Form := by
  unfold State.slipLog
  refine State.gPut_form (State.gPut_form (State.gPut_form (State.gPut_form (PairForm.snd ?_))))
  split
  · rename_i e
    exact pairForm_mk (OkForm.of_eq e (State.gRead_form h))
  · exact pairForm_mk (State.noteBad_form h)

theorem State.pendGroup_form {s : State} {l item code} (h : s.Form) : (s.pendGroup l item code).Form := by
  unfold State.pendGroup
  extract_lets add s1
  have hs1 : s1.Form := form_foldl h fun u a hu => State.updTile_form hu
  split
  · exact State.setLaunch_form hs1
  · exact hs1

theorem State.release_form {s : State} {l g slip} (h : s.Form) : (s.release l g slip).Form := by
  unfold State.release
  extract_lets s1 s2
  have hs1 : s1.Form := by
    unfold s1
    split
    · split
      · extract_lets s3
        have hs3 : s3.Form := State.slipLog_form h
        exact form_ite (fun _ => State.pendGroup_form hs3) fun _ => hs3
      · exact h
    · exact h
  have hs2 : s2.Form := State.mapLaunchCores_form hs1
  split
  · exact State.setLaunch_form hs2
  · exact hs2

theorem State.noteReady_form {s : State} {t} (h : s.Form) : (s.noteReady t).Form := by
  unfold State.noteReady
  split
  · split
    · exact State.setLaunch_form h
    · exact h
  · exact h

theorem State.groupCheck_form {s : State} {id} (h : s.Form) : (s.groupCheck id).Form := by
  unfold State.groupCheck
  split
  · exact h
  · split
    · exact h
    · extract_lets cores live last k4 s1 ready k7
      have hs1 : s1.Form := form_ite (fun _ => State.setLaunch_form (State.mapLaunchCores_form h)) fun _ => h
      split
      · exact hs1
      · split
        · exact hs1
        · exact form_ite (fun _ => form_ite (fun _ => State.release_form hs1) fun _ => hs1) fun _ => form_ite (fun _ =>
            form_ite (fun _ => State.release_form hs1) fun _ => State.setLaunch_form hs1) fun _ => hs1
        · exact form_ite (fun _ => State.release_form hs1) fun _ => hs1

theorem State.voteSettle_form {s : State} {id} (h : s.Form) : (s.voteSettle id).Form := by
  unfold State.voteSettle
  split
  · exact h
  · exact State.setLaunch_form (form_foldl h fun u a2 hu => State.updTile_form hu)

theorem State.watchExit_form {s : State} {t} (h : s.Form) : (s.watchExit t).Form := by
  unfold State.watchExit
  extract_lets s1 s2 at_
  have hs1 : s1.Form := by
    unfold s1
    split
    · exact State.count_form h
    · exact h
  have hs2 : s2.Form := State.updTile_form hs1
  split
  · exact hs2
  · split
    · split
      · exact State.setLaunch_form hs2
      · exact hs2
    · exact hs2

theorem State.taskEnd_form {s : State} {t k cancelled} (h : s.Form) : (s.taskEnd t k cancelled).Form := by
  unfold State.taskEnd
  refine form_ite (fun _ => h) fun _ => ?_
  extract_lets s1 c s2 s3
  have hs1 : s1.Form := State.leaveJoin_form h
  have hs2 : s2.Form := by
    unfold s2
    split
    · exact State.updTile_form hs1
    · exact hs1
  have hs3 : s3.Form := State.setCore_form hs2
  split
  · exact hs3
  · extract_lets s4 s5
    have hs4 : s4.Form := State.voteSettle_form (State.countEnd_form (State.noteReady_form hs3))
    have hs5 : s5.Form := form_ite (fun _ => State.watchExit_form hs4) fun _ => hs4
    exact State.groupCheck_form hs5

theorem State.migSettle_form {s : State} (h : s.Form) : s.migSettle.Form := h

theorem State.drainDone_form {s : State} {t} (h : s.Form) : (s.drainDone t).Form := by
  unfold State.drainDone
  refine form_ite (fun _ => h) fun _ => ?_
  extract_lets x s1 s2
  have hs1 : s1.Form := State.count_form (State.setTile_form h)
  have hs2 : s2.Form := by
    unfold s2
    split
    · exact hs1
    · split
      · exact hs1
      · exact State.launchSettle_form (State.setLaunch_form hs1)
  exact State.migSettle_form hs2

end Sys2Proof.Machine
end

section
/-!
SUPPORT, of O60. What `Machine/Array.lean` does keeps the canonical form of the memory: the work of the matrix array.
-/
namespace Sys2Proof.Machine

theorem State.asPut_form {s : State} {t k row col v} (h : s.Form) : (s.asPut t k row col v).Form := State.pokeBytes_form h
theorem State.asFill_form {s : State} {t k bs} (h : s.Form) : (s.asFill t k bs).Form := State.pokeBytes_form h
theorem State.asClear_form {s : State} {t k} (h : s.Form) : (s.asClear t k).Form := smWf_smClear h
theorem State.matrixIssue_form {s : State} {t m} (h : s.Form) : (s.matrixIssue t m).Form := State.updTile_form h

theorem State.macc_form {s : State} {t m clear k row col a b} (h : s.Form) : (s.macc t m clear k row col a b).Form :=
  State.updTile_form (State.asPut_form h)

theorem State.mmaRun_form {s : State} {t m} (h : s.Form) : (s.mmaRun t m).Form :=
  form_ite (fun _ => h) fun _ => form_foldl h fun u a hu => form_foldl hu fun u1 a1 hu1 => State.macc_form hu1

theorem State.mmgRun_form {s : State} {t m xa} (h : s.Form) : (s.mmgRun t m xa).Form := by
  unfold State.mmgRun
  refine form_foldl h fun u a hu => ?_
  extract_lets w w1 ty blk s1 a1 cb base row
  have hs1 : s1.Form := form_ite (fun _ => form_foldl hu fun u1 a2 hu1 => State.asPut_form hu1) fun _ => hu
  exact form_ite (fun _ => hs1) fun _ => form_foldl hs1 fun u1 a2 hu1 => State.macc_form hu1

theorem State.mapPages_form {xl : State → Nat → Except (Byte × Nat) (Place × State)} {x} {s : State}
    (hxl : ∀ u a1, u.Form → OkForm (xl u a1)) (h : s.Form) :
    OkForm (State.mapPages xl x s) := by
  induction x generalizing s with
  | nil => exact okForm_ok h
  | cons va rest ih =>
    unfold State.mapPages
    split
    · exact okForm_error
    · rename_i e
      extract_lets kn
      split
      · exact okForm_error
      · rename_i e1
        exact okForm_ok ((ih ((hxl _ _ h).of_eq e)).of_eq e1)

theorem State.mmvRun_form {s : State} {t m} (h : s.Form) : (s.mmvRun t m).Form :=
  form_ite (fun _ => h) fun _ => form_foldl h fun u a hu => form_foldl hu fun u1 a1 hu1 => State.macc_form hu1

theorem State.shadowCopy_form {s : State} {t m} (h : s.Form) : (s.shadowCopy t m).Form :=
  form_foldl h fun u a hu => form_ite (fun _ => hu) fun _ => State.updTile_form (State.asFill_form hu)

theorem State.freshBlocks_form {s : State} {t m} (h : s.Form) : (s.freshBlocks t m).Form :=
  form_foldl h fun u a hu => form_ite (fun _ => hu) fun _ => form_ite (fun _ =>
    State.asClear_form (State.asClear_form hu)) fun _ => State.asClear_form hu

theorem State.drainRun_form {s : State} {t m} (h : s.Form) :
    (s.drainRun t m).1.Form := by
  unfold State.drainRun
  split
  extract_lets sat k0 pd step touched
  have hstep : ∀ acc i n, acc.1.Form → (step acc i n).1.Form := by
    intro acc i n hacc
    exact form_ite (fun _ => form_ite (fun _ => State.asPut_form (State.asPut_form (State.commitBytes_form hacc)))
      fun _ => State.asPut_form (State.commitBytes_form hacc)) fun _ => State.commitBytes_form hacc
  clear_value step
  exact fstForm_foldl (fstForm_foldl h fun _ _ hp => fstForm_foldl hp fun _ _ hp => hstep _ _ _ hp)
    fun _ _ hp => State.updTile_form hp

theorem State.spillRun_form {s : State} {t k w} {put : State → Place → List Byte → State} {dataAt wordAt} (h : s.Form)
    (hput : ∀ u a1 a2, u.Form → (put u a1 a2).Form) : (s.spillRun t k w put dataAt wordAt).Form := by
  unfold State.spillRun
  extract_lets bs st s1 s2 clear s3
  have hs1 : s1.Form := form_foldl h fun u a hu => hput _ _ _ hu
  have hs2 : s2.Form := hput _ _ _ hs1
  have hs3 : s3.Form := State.updTile_form (State.asClear_form hs2)
  exact form_ite (fun _ => State.updTile_form (State.asClear_form hs3)) fun _ => hs3

theorem State.fillRun_form {s : State} {t k w bs} (h : s.Form) : (s.fillRun t k w bs).Form := by
  unfold State.fillRun
  extract_lets put s1
  have hs1 : s1.Form := State.updTile_form (State.asFill_form h)
  exact form_ite (fun _ => State.updTile_form (State.asFill_form hs1)) fun _ => hs1

theorem State.recordWalk_form {s : State} {j base k write} (h : s.Form) : OkForm (s.recordWalk j base k write) :=
  State.mapPages_form (fun u va hu => State.xlateJob_form hu) h

/-- The definition as an equation of functions, so that the kernel compares the two without evaluating a walk. -/
theorem State.recordPages_def : State.recordPages = fun (s : State) j base k write =>
    (match s.recordWalk j base k write with
  | .ok r => some r
  | .error _ => none) := rfl

theorem State.recordPages_form {s : State} {j base k write} (h : s.Form) :
    SomePairForm (s.recordPages j base k write) := by
  have hw : OkForm (s.recordWalk j base k write) := State.recordWalk_form h
  rw [State.recordPages_def]
  beta_reduce
  generalize s.recordWalk j base k write = r at hw ⊢
  cases r with
  | ok p => exact fun a t e => hw a t (congrArg Except.ok (Option.some.inj e))
  | error f => exact somePairForm_none

theorem State.lazySpill_form {s : State} {t k} (h : s.Form) :
    SomeForm (s.lazySpill t k) := by
  unfold State.lazySpill
  refine someForm_bind fun _ => someForm_bind fun _ => someForm_bind_pair (State.recordPages_form h) fun _ u hu => ?_
  exact someForm_some (State.updTile_form (State.spillRun_form hu fun _ _ _ h => State.placeWrite_form h))

theorem State.lazyFill_form {s : State} {t k} (h : s.Form) :
    SomeForm (s.lazyFill t k) := by
  -- a name for `pagePlace`, so that the kernel does not evaluate the pages' places
  obtain ⟨place, hplace⟩ : ∃ f, f = pagePlace := ⟨_, rfl⟩
  unfold State.lazyFill
  rw [← hplace]
  refine someForm_bind fun w => someForm_bind fun j => ?_
  extract_lets base
  refine someForm_bind_pair (State.recordPages_form h) fun pages u hu => ?_
  have hv : ∀ p n, (u.placeBytes p n).2.Form := fun _ _ => (State.placeBytes_form hu).snd
  dsimp -zeta only
  extract_lets word tag under fill
  have hfill : ∀ v : State, v.Form → SomeForm (fill v) := fun v hv => someForm_some (State.updCore_form
    (State.updTile_form (State.fillRun_form (sndForm_foldl hv fun _ _ hp => (State.placeBytes_form hp).snd))))
  clear_value fill
  refine pred_ite (P := SomeForm) (fun _ => someForm_none) fun _ => ?_
  split
  · exact someForm_bind_state (State.lazySpill_form (hv _ _)) hfill
  · exact hfill _ (hv _ _)

theorem State.setOp_form {s : State} {t i m} (h : s.Form) : (s.setOp t i m).Form := State.updTile_form h

theorem State.slice_form {s : State} {t m xa} (h : s.Form) :
    (s.slice t m xa).Form := by
  unfold State.slice
  extract_lets half n vals s1
  have hs1 : s1.Form := State.freshBlocks_form h
  have hhalf : ∀ u m, u.Form → (half u m).Form := by
    intro u m hu
    unfold half
    split
    · exact State.mmaRun_form hu
    · exact State.mmgRun_form hu
    · exact State.mmvRun_form hu
    · exact hu
  split
  · exact State.updTile_form h
  · refine form_foldl h fun u a1 hu => ?_
    have hs := State.updTile_form (t := t) (f := fun x => x.setStatus a1.1 0) (State.asClear_form (t := t) (k := a1.1) hu)
    exact form_ite (fun _ => State.updTile_form (State.asClear_form hs)) fun _ => hs
  · exact form_ite (fun _ => hhalf _ _ (hhalf _ _ (State.shadowCopy_form hs1))) fun _ => hhalf _ _ hs1

theorem State.pendCore_form {s : State} {t k item i} (h : s.Form) : (s.pendCore t k item i).Form := State.updCore_form h

theorem State.engineSpill_form {s : State} {t k} (h : s.Form) :
    (s.engineSpill t k).Form := by
  unfold State.engineSpill
  split
  · exact State.logCheck_form h
  · exact form_getD (State.lazySpill_form h) (form_elim h fun _ => State.noteBad_form h)

theorem State.serveAcc_form {s : State} {t k cause} (h : s.Form) :
    SomeForm (s.serveAcc t k cause) := by
  unfold State.serveAcc
  extract_lets w spills
  split
  · exact someForm_some (State.pendCore_form (State.logCheck_form h))
  · exact pred_ite (P := SomeForm) (fun _ => State.lazySpill_form h) fun _ => pred_ite (P := SomeForm)
      (fun _ => someForm_bind_state (State.lazySpill_form h) fun _ hs => State.lazyFill_form hs) fun _ =>
        State.lazyFill_form h

theorem State.stopOp_form {s : State} {t n p} (h : s.Form) : (s.stopOp t n p).Form := by
  unfold State.stopOp
  split
  · exact h
  · exact State.pendCore_form (State.logCheck_form (State.letGo_form (State.updTile_form h)))

theorem State.perform_form {s : State} {t} (h : s.Form) : (s.perform t).Form := by
  unfold State.perform
  split
  · exact h
  · refine form_ite (fun _ => h) fun _ => form_ite (fun _ => h) fun _ => form_foldl (form_foldl h fun u a1 hu =>
      form_ite (fun _ => State.slice_form hu) fun _ => hu) fun u a1 hu => ?_
    split
    · split
      · exact State.stopOp_form hu
      · exact State.setOp_form (State.letGo_form hu)

theorem State.popOp_form {s : State} {t} (h : s.Form) : (s.popOp t).Form := by
  unfold State.popOp
  split
  · exact h
  · exact State.letGo_form (State.updTile_form h)

end Sys2Proof.Machine
end

section
/-!
SUPPORT, of O60. What `Machine/Period.lean` does keeps the canonical form of the memory: exchanges.
-/
namespace Sys2Proof.Machine

theorem State.rearm_form {s : State} {p} (h : s.Form) : (s.rearm p).Form := State.setPort_form h

theorem State.dropExch_form {s : State} {p e} (h : s.Form) : (s.dropExch p e).Form :=
  State.letGo_form (State.setPort_form h)

theorem State.trunkFails_form {s : State} {e} (h : s.Form) : (s.trunkFails e).Form := by
  unfold State.trunkFails
  split
  · exact h
  · exact State.setPort_form h

theorem State.exchFail_form {s : State} {p e code cause} (h : s.Form) : (s.exchFail p e code cause).Form := by
  unfold State.exchFail
  extract_lets s1 s2
  have hs1 : s1.Form := State.dropExch_form h
  have hs2 : s2.Form := form_ite (fun _ => hs1) fun _ => State.commitBytes_form hs1
  exact form_ite (fun _ => State.trunkFails_form hs1) fun _ => State.pendCore_form hs2

theorem State.failFrom_form {s : State} {p id code cause} (h : s.Form) : (s.failFrom p id code cause).Form := by
  unfold State.failFrom
  extract_lets q s1 x
  have hs1 : s1.Form := form_foldl h fun u a hu => form_ite (fun _ => State.exchFail_form hu) fun _ =>
    State.exchFail_form hu
  exact State.rearm_form (State.setPort_form hs1)

theorem State.queueExch_form {s : State} {p e} (h : s.Form) : (s.queueExch p e).Form := by
  unfold State.queueExch
  extract_lets x k2 s1
  have hk2 : k2.Form := State.setPort_form h
  have hs1 : s1.Form := hk2
  exact form_ite (fun _ => State.exchFail_form hs1) fun _ => State.rearm_form hs1

end Sys2Proof.Machine
end

section
/-!
SUPPORT, of O60. What `Machine/Commit.lean` does keeps the canonical form of the memory: chunks from their begin to
their commit, and signals.
-/
namespace Sys2Proof.Machine

theorem State.signal_form {s : State} {t sem n by_} (h : s.Form) : (s.signal t sem n by_).Form :=
  form_ite (fun _ => h) fun _ => State.updTile_form h

theorem State.engineSignal_form {s : State} {t sem n by_} (h : s.Form) : (s.engineSignal t sem n by_).Form :=
  form_ite (fun _ => form_ite (fun _ => h) fun _ => State.updTile_form h) fun _ => State.signal_form h

theorem State.dropToken_form {s : State} {t k} (h : s.Form) : (s.dropToken t k).Form := h

theorem State.shield_form {s : State} {was : State} {a} (h : s.Form) (h1 : was.Form) : (s.shield was a).Form :=
  form_foldl h fun u a1 hu => State.updCore_form hu

theorem State.updateWord_form {s : State} {t a} (h : s.Form) : (s.updateWord t a).Form := by
  unfold State.updateWord
  extract_lets w
  split
  · exact State.commitBytes_form h
  · exact h

theorem State.hostStored_form {s : State} {t k addr bs} (h : s.Form) : (s.hostStored t k addr bs).Form := by
  unfold State.hostStored
  extract_lets k1
  have hk1 : k1.Form := State.updCore_form h
  exact hk1

theorem State.putPlaces_form {s : State} {t k vf ps v} (h : s.Form) : (s.putPlaces t k vf ps v).Form := by
  unfold State.putPlaces
  extract_lets bs
  split
  · exact State.hostStored_form h
  · exact State.updCore_form h
  · refine form_foldl h fun u a2 hu => ?_
    split
    · split
      · exact State.commitBytes_form hu
      · exact hu

theorem State.performAtom_form {s : State} {t k a} (h : s.Form) :
    (s.performAtom t k a).Form := by
  unfold State.performAtom
  extract_lets w n old
  split
  rename_i seen u e
  have hu : u.Form := by
    refine PairForm.of_eq e ?_
    split
    · exact pairForm_mk (State.choose_form h).snd
    · exact pairForm_mk h
  exact State.updCore_form (State.putPlaces_form
    (form_ite (fun _ => State.shield_form (State.updateWord_form hu) hu) fun _ => State.updateWord_form hu))

theorem State.performAll_form {s : State} {t k} (h : s.Form) : (s.performAll t k).Form :=
  form_foldl (State.updCore_form h) fun u a hu => State.performAtom_form hu

theorem State.performSome_form {s : State} {t k which} (h : s.Form) : (s.performSome t k which).Form :=
  form_foldl (State.updCore_form h) fun u a hu => State.performAtom_form hu

theorem State.qntNow_form {s : State} {t} (h : s.Form) : (s.qntNow t).Form :=
  form_foldl h fun u a hu => State.performSome_form hu

theorem State.noteTag_form {s : State} {t tag} (h : s.Form) : (s.noteTag t tag).Form := State.commitWords_form h

theorem State.turnTag_form {s : State} {t tag} (h : s.Form) : (s.turnTag t tag).Form :=
  State.conflict_form (State.noteTag_form h)

theorem State.saveCheck_form {s : State} {t} (h : s.Form) : (s.saveCheck t).Form := by
  unfold State.saveCheck
  split
  · exact form_ite (fun _ => State.updTile_form h) fun _ => h
  · exact h

theorem State.restoreWait_form {s : State} {t k} (h : s.Form) : (s.restoreWait t k).Form :=
  form_foldl h fun u a hu => State.signal_form hu

theorem State.stopCore_form {s : State} {t k forced} (h : s.Form) : (s.stopCore t k forced).Form :=
  State.saveCheck_form (State.updCore_form (State.leaveJoin_form (State.restoreWait_form h)))

theorem State.cancelRun_form {s : State} {r cause} (h : s.Form) : (s.cancelRun r cause).Form := by
  unfold State.cancelRun
  split
  · exact form_ite (fun _ => h) fun _ => State.runSettle_form (form_foldl (State.setRun_form h) fun u a2 hu =>
      State.cancelAll_form hu)
  · exact h

theorem State.cancelJob_form {s : State} {jid cause} (h : s.Form) : (s.cancelJob jid cause).Form := by
  unfold State.cancelJob
  split
  · refine form_ite (fun _ => h) fun _ => ?_
    extract_lets s1 s2 s3
    have hs1 : s1.Form := State.setJob_form h
    have hs2 : s2.Form := form_foldl hs1 fun u a1 hu => State.cancelRun_form hu
    have hs3 : s3.Form := form_foldl hs2 fun u a1 hu => State.cancelAll_form hu
    exact State.jobSettle_form hs3
  · exact h

theorem State.cancelPhase_form {s : State} {l} (h : s.Form) : (s.cancelPhase l).Form := by
  unfold State.cancelPhase
  split
  · exact form_ite (fun _ => State.pendGroup_form h) fun _ => h
  · exact h

theorem State.invalidate_form {s : State} {ctx va} (h : s.Form) : (s.invalidate ctx va).Form := by
  unfold State.invalidate
  extract_lets gone s1 used
  have hs1 : s1.Form := form_foldl h fun u a hu => form_foldl hu fun u1 a1 hu1 => form_ite (fun _ =>
    State.performSome_form hu1) fun _ => hu1
  exact State.conflict_form (State.dropTlb_form hs1)

theorem State.numberTags_form {s : State} {t} (h : s.Form) : (s.numberTags t).Form := by
  unfold State.numberTags
  refine form_foldl h fun u a hu => form_ite (fun _ => ?_) fun _ => hu
  extract_lets k1 k2
  have hk1 : k1.Form := State.updTile_form hu
  exact hk1

theorem State.fenceBegun_form {s : State} {t k kind ip inSlot} (h : s.Form) : (s.fenceBegun t k kind ip inSlot).Form := by
  unfold State.fenceBegun
  extract_lets s1 x nums
  have hs1 : s1.Form := form_ite (fun _ => State.numberTags_form h) fun _ => h
  exact State.updCore_form hs1

theorem State.doAct_form {s : State} {t k lm0 a} (h : s.Form) : (s.doAct t k lm0 a).Form := by
  unfold State.doAct
  split
  · exact State.signal_form h
  · exact State.flip_form (State.performAll_form h)
  · exact State.performAll_form h
  · exact form_ite (fun _ => State.performAtom_form (State.performAll_form h)) fun _ => form_ite (fun _ =>
      State.performAtom_form (State.performSome_form h)) fun _ => State.updCore_form h
  · exact State.matrixIssue_form h
  · exact State.updTile_form h
  · exact form_ite (fun _ => State.engineSignal_form (State.turnTag_form (State.updTile_form h))) fun _ =>
      State.turnTag_form (State.updTile_form h)
  · exact State.queueExch_form (State.updTile_form h)
  · exact State.queueExch_form (State.updTile_form h)
  · exact form_ite (fun _ => h) fun _ => form_ite (fun _ => State.turnTag_form (State.letGo_form (State.updTile_form
      (State.updCore_form h)))) fun _ => State.turnTag_form (State.updTile_form h)
  · exact State.conflict_form (State.updTile_form h)
  · split
    · exact State.conflict_form (State.setJob_form h)
    · exact h
  · exact State.invalidate_form h
  · exact State.pendCore_form (State.logCheck_form h)
  · exact State.saveCheck_form (State.taskEnd_form h)
  · exact form_ite (fun _ => State.stopCore_form h) fun _ => h
  · exact State.updCore_form h
  · exact State.fenceBegun_form h
  · exact State.updCore_form h
  · extract_lets s1
    have hs1 : s1.Form := State.updCore_form h
    split
    · exact State.groupCheck_form hs1
    · exact hs1
  · exact State.hostStored_form h
  · exact State.updCore_form h
  · split
    · exact State.cancelAll_form h
    · exact State.cancelRun_form h
    · exact State.cancelPhase_form h
    · exact State.cancelJob_form h

theorem State.commitStores_form {s : State} {t b} (h : s.Form) : (s.commitStores t b).Form :=
  form_foldl (form_foldl (form_foldl h fun u a hu => State.pokeBytes_form hu) fun u a hu => State.commitBytes_form hu)
    fun u a hu => State.updateWord_form hu

theorem State.commitChunk_form {s : State} {t k} (h : s.Form) : (s.commitChunk t k).Form := by
  unfold State.commitChunk
  extract_lets c
  split
  · exact h
  · exact State.dropToken_form (form_foldl (State.commitStores_form (State.setCore_form h)) fun u a1 hu =>
      State.doAct_form hu)

theorem State.tryCommit_form {s : State} {t k} (h : s.Form) : (s.tryCommit t k).Form := by
  unfold State.tryCommit
  split
  · exact h
  · exact form_ite (fun _ => State.squash_form h) fun _ => form_ite (fun _ => h) fun _ => State.commitChunk_form h

end Sys2Proof.Machine
end

section
/-!
SUPPORT, of O60. What `Machine/Issue.lean` does keeps the canonical form of the memory: what every instruction of a
core shares.
-/
namespace Sys2Proof.Machine

theorem State.ungrant_form {s : State} (h : s.Form) : s.ungrant.Form :=
  form_ite (fun _ => form_foldl (State.setMe_form h) fun u a hu => State.signal_form hu) fun _ => h

theorem State.unwait_form {s : State} (h : s.Form) : s.unwait.Form := by
  unfold State.unwait
  split
  · split
    · exact form_ite (fun _ => h) fun _ => State.signal_form (State.setMe_form h)
    · exact h
  · exact h

theorem holdIssue_keeps {α : Type} : (holdIssue : Exec α).Keeps := stallWith_keeps (fun _ h => State.unwait_form h)

theorem needs_keeps {n} : (needs n).Keeps :=
  getState_keeps.bind fun s => keeps_ite (fun _ => modState_keeps (fun u hu => State.setMe_form hu)) fun _ =>
    keeps_ite (fun _ => holdIssue_keeps) fun _ => pure_keeps

theorem roomForP_keeps {slabs} : (roomForP slabs).Keeps := needs_keeps

theorem State.beginChunk_form {s : State} {e wait old} (h : s.Form) : SumForm (s.beginChunk e wait old) := by
  unfold State.beginChunk
  extract_lets t c fresh
  split
  · exact pred_ite (P := SumForm) (fun _ => sumForm_inr (State.setMe_form h)) fun _ => sumForm_inl (State.setMe_form h)
  · exact sumForm_inr (State.setMe_form h)

theorem State.admission_form {s : State} {e x} (h : s.Form) : SumForm (s.admission e x) :=
  pred_ite (P := SumForm) (fun _ => sumForm_inl (State.tryCommit_form h)) fun _ => pred_ite (P := SumForm) (fun _ =>
    pred_ite (P := SumForm) (fun _ => sumForm_inl (State.closeChunk_form h)) fun _ => pred_ite (P := SumForm) (fun _ =>
    sumForm_inl (State.squash_form h)) fun _ => sumForm_inr (State.setMe_form h)) fun _ =>
    pred_ite (P := SumForm) (fun _ => sumForm_inl (State.ungrant_form h)) fun _ =>
    State.beginChunk_form (form_ite (fun _ => State.qntNow_form h) fun _ => h)

theorem State.prepare_form {s : State} {e x} (h : s.Form) : SumForm (s.prepare e x) := by
  unfold State.prepare
  extract_lets k1 s1
  have hs1 : s1.Form := State.setMe_form h
  exact pred_ite (P := SumForm) (fun _ => State.admission_form hs1) fun _ => pred_ite (P := SumForm) (fun _ =>
    sumForm_inl (State.ungrant_form hs1)) fun _ => State.admission_form (State.performAll_form hs1)

theorem State.preciseTrap_form {s : State} {i} (h : s.Form) : (s.preciseTrap i).Form :=
  form_ite (fun _ => State.closeChunk_form h) fun _ => form_ite (fun _ => h) fun _ =>
    State.enterTrap_form (State.dropToken_form (State.restoreWait_form (form_ite (fun _ => State.logCheck_form h) fun _ =>
    h)))

theorem completeSlot_keeps {sl} : (completeSlot sl).Keeps := by
  unfold completeSlot
  refine modRegs_keeps.bind fun a => ?_
  extract_lets k1
  have hk1 : ∀ b, (k1 b).Keeps := by
    refine fun a1 => ?_
    unfold k1
    split
    · exact atCommit_keeps.bind fun _ => closeAfter_keeps
    · exact pure_keeps
  split
  · exact atCommit_keeps.bind fun _ => closeAfter_keeps.bind hk1
  · exact getState_keeps.bind fun s => checkTail_keeps.bind fun _ => readPlace_keeps.bind fun _ => modRegs_keeps.bind hk1
  · exact hk1 ()

theorem State.grow_form {s : State} {e x ran} (h : s.Form) : (s.grow e x ran).Form := State.setMe_form h

theorem finish_keeps {e x ran} : (finish e x ran).Keeps := by
  unfold finish
  refine modRegs_keeps.bind fun a => getRegs_keeps.bind fun r => ?_
  extract_lets k1 next
  have hk1 : ∀ b, (k1 b).Keeps := fun _ => modState_keeps (fun u hu => State.grow_form hu)
  refine keeps_ite (fun _ => modRegs_keeps.bind hk1) fun _ => ?_
  split
  · exact modRegs_keeps.bind hk1
  · exact completeSlot_keeps.bind hk1

theorem issueBody_keeps {e x} {body : Exec Unit} (hbody : body.Keeps) : (issueBody e x body).Keeps := by
  unfold issueBody
  refine getRegs_keeps.bind fun r => ?_
  extract_lets k1 k2
  have hk1 : ∀ b, (k1 b).Keeps := fun _ => hbody.bind fun _ => finish_keeps
  have hk2 : ∀ b, (k2 b).Keeps := fun _ => keeps_ite (fun _ => keeps_ite (fun _ => needs_keeps.bind hk1) fun _ => hk1 ())
    fun _ => finish_keeps
  exact keeps_ite (fun _ => getState_keeps.bind fun s => throwTrap_keeps.bind hk2) fun _ => hk2 ()

theorem stay_keeps {x} : (stay x).Keeps := getRegs_keeps.bind fun _ => modRegs_keeps.bind fun _ => modChunk_keeps

theorem pieceBody_keeps {e x} {piece : Exec Bool} (hpiece : piece.Keeps) : (pieceBody e x piece).Keeps :=
  getRegs_keeps.bind fun _ => keeps_ite (fun _ => hpiece.bind fun a => keeps_ite (fun _ => stay_keeps) fun _ =>
    finish_keeps) fun _ => finish_keeps

theorem State.ownStart_form {s : State} (h : s.Form) : s.ownStart.Form :=
  form_ite (fun _ => State.updCore_form (State.commitChunk_form h)) fun _ => h

theorem State.attemptOwn_form {s : State} {whole : Exec Unit} (h : s.Form) (hwhole : whole.Keeps) :
    (s.attemptOwn whole).Form := by
  unfold State.attemptOwn
  extract_lets s1
  have hs1 : s1.Form := State.ownStart_form h
  split
  · rename_i e
    exact State.commitChunk_form (Exec.Keeps.ok hwhole hs1 e)
  · exact State.preciseTrap_form hs1
  · rename_i e
    exact Exec.Keeps.stall hwhole hs1 e _ hs1

theorem State.conclude_form {s : State} {s' : State} (h : s.Form) (h1 : s'.Form) : (s.conclude s').Form :=
  form_ite (fun _ => h1) fun _ => form_ite (fun _ => State.unwait_form (State.ungrant_form h)) fun _ => form_ite (fun _ =>
    State.squash_form h) fun _ => State.commitChunk_form h1

theorem State.attempt_form {s : State} {e} {whole : Exec Unit} (h : s.Form) (hwhole : whole.Keeps) :
    (s.attempt e whole).Form := by
  unfold State.attempt
  split
  · rename_i e1
    exact form_ite (fun _ => State.conclude_form h (Exec.Keeps.ok hwhole h e1)) fun _ => form_ite (fun _ =>
      State.unwait_form (State.ungrant_form h)) fun _ => State.attemptOwn_form h hwhole
  · exact State.preciseTrap_form h
  · rename_i e1
    exact Exec.Keeps.stall hwhole h e1 _ h

theorem State.noteNeeds_form {s : State} {whole : Exec Unit} (h : s.Form) (hwhole : whole.Keeps) :
    (s.noteNeeds whole).Form :=
  form_ite (fun _ => State.setMe_form h) fun _ => h

theorem runWhole_form {e x} {whole : Exec Unit} {s : State} (hwhole : whole.Keeps) (h : s.Form) : OutForm
    (runWhole e x whole s) := by
  unfold runWhole
  refine outForm_next ?_
  split
  · exact State.preciseTrap_form h
  · split
    · rename_i e2
      exact State.noteNeeds_form ((State.prepare_form h).1 _ e2) hwhole
    · rename_i e2
      exact State.attempt_form ((State.prepare_form h).2 _ e2) hwhole

theorem runCore_form {e x} {body : Exec Unit} {s : State} (hbody : body.Keeps) (h : s.Form) : OutForm
    (runCore e x body s) :=
  runWhole_form (issueBody_keeps hbody) h

theorem runPieces_form {e x} {piece : Exec Bool} {s : State} (hpiece : piece.Keeps) (h : s.Form) : OutForm
    (runPieces e x piece s) :=
  runWhole_form (pieceBody_keeps hpiece) h

end Sys2Proof.Machine
end

section
/-!
SUPPORT, of O60. What `Machine/Atomic.lean` does keeps the canonical form of the memory: atomics.
-/
namespace Sys2Proof.Machine

theorem atomGlob_keeps {c va n} : (atomGlob c va n).Keeps := by
  unfold atomGlob
  refine useApts_keeps.bind fun a => ?_
  split
  · exact xlate_keeps.bind fun _ => pure_keeps
  · exact keeps_ite (fun _ => pure_keeps) fun _ => keeps_ite (fun _ => xlate_keeps.bind fun _ => pure_keeps) fun _ =>
      faultAcc_keeps

theorem atomPlace_keeps {c n} : (atomPlace c n).Keeps := by
  unfold atomPlace
  refine locate_keeps.bind fun a => ?_
  split
  · exact faultAcc_keeps
  · exact rowTarget_keeps.bind fun _ => checkOwner_keeps.bind fun _ => pure_keeps
  · exact atomGlob_keeps

theorem atomAfterStores_keeps {key} : (atomAfterStores key).Keeps := by
  unfold atomAfterStores
  refine fun u hu => ?_
  beta_reduce
  split
  · rename_i h _
    exact pred_ite (P := Leaves) (fun _ => leaves_stall (fun _ h => State.closeChunk_form h)) fun _ => leaves_ok hu
  · exact leaves_ok hu

theorem atomInChunk_keeps {dst op w uns v nv} {read : Exec (List Byte)} {write : List Byte → Exec Unit}
    (hread : read.Keeps) (hwrite : ∀ a0, (write a0).Keeps) : (atomInChunk dst op w uns v nv read write).Keeps := by
  unfold atomInChunk
  refine hread.bind fun a => ?_
  extract_lets old k2
  have hk2 : ∀ b, (k2 b).Keeps := by
    refine fun a1 => ?_
    unfold k2
    split
    · exact writeOpd_keeps
    · exact pure_keeps
  split
  · rename_i l _
    exact .bind (hwrite (toBytes (w / 8) l)) hk2
  · exact hk2 ()

theorem streamSlot_keeps {n} : (streamSlot n).Keeps := by
  unfold streamSlot
  refine getRegs_keeps.bind fun a => keeps_when faultIp_keeps fun a1 => keeps_when faultIp_keeps fun a2 => ?_
  extract_lets w c k3
  have hk3 : ∀ b, (k3 b).Keeps := fun ps => getState_keeps.bind fun _ => keeps_when (stallWith_keeps (fun u hu => hu))
    fun _ => streamStep_keeps.bind fun _ => pure_keeps
  exact keeps_ite (fun _ => pure_keeps.bind hk3) fun _ => locate_keeps.bind fun _ => storePlaces_keeps.bind hk3

theorem atomFirst_keeps {orders} : (atomFirst orders).Keeps :=
  getState_keeps.bind fun s => keeps_ite (fun _ => stallWith_keeps (fun u hu => form_ite (fun _ => hu) fun _ =>
    State.performAll_form hu)) fun _ => pure_keeps

theorem atomAway_keeps {c va n} : (atomAway c va n).Keeps := by
  unfold atomAway
  refine useApts_keeps.bind fun a => ?_
  split
  · exact pure_keeps
  · refine .bind (mapM_keeps ?_) fun ps => ?_
    · intro a2
      exact xlate_keeps
    · extract_lets at_
      clear_value at_
      split
      · exact pure_keeps
      · exact pure_keeps

theorem atomRemote_keeps {c p op w uns orders dst} : (atomRemote c p op w uns orders dst).Keeps := by
  unfold atomRemote
  refine needEmpty_keeps.bind fun a => pkgScope_keeps.bind fun a1 => closeAfter_keeps.bind fun a2 => atomFirst_keeps.bind
    fun a3 => extAsk_keeps.bind fun bs => ?_
  split
  · exact writeOpd_keeps
  · exact pure_keeps

theorem atomApart_keeps {c va op w uns orders near v nv dst} : (atomApart c va op w uns orders near v nv dst).Keeps := by
  unfold atomApart
  refine atomAway_keeps.bind fun a => ?_
  split
  · exact atomRemote_keeps
  · exact atomFirst_keeps.bind fun _ => .bind (atomInChunk_keeps readGlob_keeps (fun bs => writeGlob_keeps)) fun _ =>
      keeps_ite (fun _ => closeAfter_keeps) fun _ => pure_keeps

theorem atomBody_keeps {op j x} : (atomBody op j x).Keeps := by
  unfold atomBody
  refine readA_keeps.bind fun a => readB_keeps.bind fun v => keeps_either readC_keeps pure_keeps fun nv =>
    atomPlace_keeps.bind fun a1 => ?_
  split
  · exact atomApart_keeps
  · split
    · refine keeps_ite (fun _ => atomInChunk_keeps readPlace_keeps (fun bs => writePlace_keeps)) fun _ =>
        keeps_when atomAfterStores_keeps fun a3 => checkPoison_keeps.bind fun a4 => getState_keeps.bind fun a5 =>
        keeps_when (stallWith_keeps (fun u hu => hu)) fun a6 => ?_
      extract_lets k1 k2 k3
      have hk1 : ∀ b, (k1 b).Keeps := fun _ => getState_keeps.bind fun s => atCommit_keeps.bind fun _ => closeAfter_keeps
      have hk2 : ∀ b, (k2 b).Keeps := by
        refine fun a7 => ?_
        unfold k2
        split
        · exact streamSlot_keeps.bind hk1
        · exact pure_keeps.bind hk1
      have hk3 : ∀ b, (k3 b).Keeps := fun _ => keeps_ite (fun _ => pkgScope_keeps.bind hk2) fun _ => hk2 ()
      exact keeps_ite (fun _ => needEmpty_keeps.bind fun _ => alone_keeps.bind hk3) fun _ => hk3 ()
    · exact atomRemote_keeps

theorem runAtom_form {op j x} {s : State} (h : s.Form) : OutForm (runAtom op j x s) := runCore_form atomBody_keeps h
theorem execAadd_form {j x} {s : State} (h : s.Form) : OutForm (execAadd j x s) := runAtom_form h
theorem execAand_form {j x} {s : State} (h : s.Form) : OutForm (execAand j x s) := runAtom_form h
theorem execAor_form {j x} {s : State} (h : s.Form) : OutForm (execAor j x s) := runAtom_form h
theorem execAxor_form {j x} {s : State} (h : s.Form) : OutForm (execAxor j x s) := runAtom_form h
theorem execAmax_form {j x} {s : State} (h : s.Form) : OutForm (execAmax j x s) := runAtom_form h
theorem execAmin_form {j x} {s : State} (h : s.Form) : OutForm (execAmin j x s) := runAtom_form h
theorem execAxchg_form {j x} {s : State} (h : s.Form) : OutForm (execAxchg j x s) := runAtom_form h
theorem execAcas_form {j x} {s : State} (h : s.Form) : OutForm (execAcas j x s) := runAtom_form h

end Sys2Proof.Machine
end

section
/-!
SUPPORT, of O60. What `Machine/Control.lean` does keeps the canonical form of the memory: branches, calls, the
register window, task and trap control.
-/
namespace Sys2Proof.Machine

theorem checkTarget_keeps {t} : (checkTarget t).Keeps :=
  fun u hu => pred_ite (P := Leaves) (fun _ => leaves_trap) fun _ => pred_ite (P := Leaves) (fun _ => leaves_trap)
    fun _ => leaves_ok hu

theorem takeTo_keeps {t act notice} : (takeTo t act notice).Keeps := modRegs_keeps

theorem branchIf_keeps {b t} : (branchIf b t).Keeps :=
  keeps_ite (fun _ => checkTarget_keeps.bind fun a => takeTo_keeps) fun _ => pure_keeps

theorem exhausted_keeps {cause} : (exhausted cause).Keeps := faultIp_keeps

theorem parkPut_keeps {n v} : (parkPut n v).Keeps :=
  getRegs_keeps.bind fun r => getState_keeps.bind fun s => writePlace_keeps.bind fun a => writePlace_keeps

theorem parkGet_keeps {n} : (parkGet n).Keeps :=
  getRegs_keeps.bind fun r => getState_keeps.bind fun s => readPlace_keeps.bind fun _ => readPlace_keeps.bind fun _ =>
    pure_keeps

theorem spillWindow_keeps {k} : (spillWindow k).Keeps := by
  unfold spillWindow
  refine getRegs_keeps.bind fun r => keeps_ite (fun _ => keeps_when exhausted_keeps fun a => .bind (forIn_keeps
    fun a1 a2 => ?_) fun _ => modRegs_keeps) fun _ => storeRange_keeps.bind fun _ => modRegs_keeps
  split
  · exact parkPut_keeps.bind fun _ => pure_keeps

theorem fillWindow_keeps {n} :
    (fillWindow n).Keeps := by
  induction n with
  | zero => exact pure_keeps
  | succ n ih =>
    unfold fillWindow
    exact getRegs_keeps.bind fun r => keeps_ite
      (fun _ => parkGet_keeps.bind fun _ => modRegs_keeps.bind fun _ => ih)
      (fun _ => loadRange_keeps.bind fun _ => modRegs_keeps.bind fun _ => ih)

theorem moveNotice_keeps {k ret fill} : (moveNotice k ret fill).Keeps :=
  getRegs_keeps.bind fun r => getState_keeps.bind fun s => keeps_ite (fun _ => pure_keeps) fun _ => keeps_ite (fun _ =>
    pure_keeps) fun _ => keeps_ite (fun _ => pure_keeps) fun _ => pure_keeps

theorem callTo_keeps {x t} :
    (callTo x t).Keeps := by
  unfold callTo
  refine checkTarget_keeps.bind fun _ => getRegs_keeps.bind fun _ => getState_keeps.bind fun _ => ?_
  extract_lets c n ent k full leave push spill check
  clear_value k
  have hleave : ∀ b, (leave b).Keeps := fun _ => moveNotice_keeps.bind fun _ => takeTo_keeps
  have hpush : ∀ b, (push b).Keeps := fun _ => modRegs_keeps.bind fun _ => keeps_when spillWindow_keeps hleave
  have hspill : ∀ b, (spill b).Keeps := fun _ =>
    keeps_ite (fun _ => storeRange_keeps.bind fun _ => modRegs_keeps.bind hpush) fun _ => hpush ()
  have hcheck : ∀ b, (check b).Keeps := fun _ => keeps_when exhausted_keeps hspill
  exact keeps_when exhausted_keeps hcheck

theorem popEntry_keeps : popEntry.Keeps := by
  unfold popEntry
  refine getRegs_keeps.bind fun r => ?_
  split
  · exact modRegs_keeps.bind fun _ => pure_keeps
  · exact keeps_ite (fun _ => pure_keeps) fun _ => loadRange_keeps.bind fun _ => modRegs_keeps.bind fun _ => pure_keeps

theorem execRet_form {x} {s : State} (h : s.Form) : OutForm (execRet x s) := by
  unfold execRet
  refine runCore_form (popEntry_keeps.bind fun a => ?_) h
  split
  · exact getRegs_keeps.bind fun _ => takeTo_keeps
  · extract_lets t n k3
    have hk3 : ∀ b, (k3 b).Keeps := fun _ => getRegs_keeps.bind fun _ => fillWindow_keeps.bind fun _ =>
      moveNotice_keeps.bind fun _ => takeTo_keeps
    exact keeps_ite (fun _ => getState_keeps.bind fun _ => throwTrap_keeps.bind hk3) fun _ => hk3 ()

theorem execTfence_form {x} {s : State} (h : s.Form) : OutForm (execTfence x s) :=
  runCore_form (getState_keeps.bind fun _ => keeps_when (stallWith_keeps (fun u hu => hu)) fun a =>
    keeps_when faultIp_keeps fun _ => atCommit_keeps) h

theorem needBound_keeps {n} : (needBound n).Keeps :=
  getRegs_keeps.bind fun a => keeps_when faultIp_keeps fun _ => pure_keeps

theorem bindTo_keeps {x a block} : (bindTo x a block).Keeps :=
  loadAt_keeps.bind fun _ => keeps_when faultIp_keeps fun _ => modRegs_keeps

theorem waitBlock_keeps {own} : (waitBlock own).Keeps := fun u hu => leaves_stall (fun u1 hu1 => State.setMe_form hu1)

theorem linesRead_keeps {α : Type} {m : Exec α} (hm : m.Keeps) : (linesRead m : Exec (α × List Nat)).Keeps :=
  getState_keeps.bind fun a => modChunk_keeps.bind fun _ => hm.bind fun _ => getState_keeps.bind fun _ =>
    modChunk_keeps.bind fun _ => pure_keeps

theorem execSbindc_form {x} {s : State} (h : s.Form) : OutForm (execSbindc x s) := by
  unfold execSbindc
  refine runCore_form (readA_keeps.bind fun a => readB_keeps.bind fun b => .bind (linesRead_keeps loadAt_keeps) fun a1 =>
    ?_) h
  split
  · exact getState_keeps.bind fun _ => keeps_when (stallWith_keeps (fun u hu => State.squash_form hu)) fun _ =>
      keeps_when waitBlock_keeps fun _ => modChunk_keeps.bind fun _ => bindTo_keeps

theorem execSskip_form {x} {s : State} (h : s.Form) : OutForm (execSskip x s) := by
  unfold execSskip
  refine runCore_form (readA_keeps.bind fun a => needBound_keeps.bind fun st => keeps_ite (fun _ => modRegs_keeps)
    fun _ => ?_) h
  extract_lets nd
  split
  · exact modRegs_keeps

end Sys2Proof.Machine
end

section
/-!
SUPPORT, of O60. What `Machine/Vector.lean` does keeps the canonical form of the memory: vector instructions.
-/
namespace Sys2Proof.Machine

variable {α β : Type}

theorem readLanes_keeps {x sb} : (readLanes x sb).Keeps := by
  unfold readLanes
  refine getRegs_keeps.bind fun r => ?_
  extract_lets k1
  have hk1 : ∀ b, (k1 b).Keeps := fun _ => pure_keeps
  exact keeps_ite (fun _ => readB_keeps.bind fun _ => pure_keeps.bind hk1) fun _ => pure_keeps.bind hk1

theorem laneOp_keeps {x sb draws f} : (laneOp x sb draws f).Keeps :=
  getRegs_keeps.bind fun a => readLanes_keeps.bind fun _ => keeps_either drawVector_keeps pure_keeps fun _ =>
    addFlags_keeps.bind fun _ => writeLanes_keeps

theorem arithOp_keeps {x ff fi} : (arithOp x ff fi).Keeps := laneOp_keeps
theorem logicOp_keeps {x f} : (logicOp x f).Keeps := laneOp_keeps

theorem compareOp_keeps {x ordered rel} : (compareOp x ordered rel).Keeps :=
  getRegs_keeps.bind fun a => readLanes_keeps.bind fun _ => addFlags_keeps.bind fun _ => modRegs_keeps

theorem execVsel_form {x} {s : State} (h : s.Form) : OutForm (execVsel x s) :=
  runCore_form (getRegs_keeps.bind fun a => readLanes_keeps.bind fun _ => getRegs_keeps.bind fun _ => writeLanes_keeps) h

theorem maskBits_keeps {x} : (maskBits x).Keeps := getRegs_keeps.bind fun _ => pure_keeps
theorem writeAll_keeps {x l} : (writeAll x l).Keeps := modRegs_keeps
theorem activeLanes_keeps {x ident} : (activeLanes x ident).Keeps := getRegs_keeps.bind fun r => pure_keeps

theorem execVrsum_form {x} {s : State} (h : s.Form) : OutForm (execVrsum x s) := by
  unfold execVrsum
  refine runCore_form (activeLanes_keeps.bind fun ls => keeps_ite (fun _ => drawVector_keeps.bind fun rd => ?_) fun _ =>
    ?_) h
  · split
    · exact addFlags_keeps.bind fun _ => writeAll_keeps
  · split
    · exact addFlags_keeps.bind fun _ => writeAll_keeps

theorem extremeOp_keeps {x greater} : (extremeOp x greater).Keeps := by
  unfold extremeOp
  refine activeLanes_keeps.bind fun ls => ?_
  split
  · exact addFlags_keeps.bind fun _ => writeAll_keeps

theorem activeVals_keeps {x} : (activeVals x).Keeps := getRegs_keeps.bind fun r => pure_keeps

theorem scanOp_keeps {x split} : (scanOp x split).Keeps := by
  unfold scanOp
  refine getRegs_keeps.bind fun a => activeLanes_keeps.bind fun a1 => ?_
  split
  · exact keeps_ite (fun _ => drawVector_keeps.bind fun _ => addFlags_keeps.bind fun _ => writeLanes_keeps) fun _ =>
      addFlags_keeps.bind fun _ => writeLanes_keeps

theorem topkOp_keeps {x fill out} : (topkOp x fill out).Keeps :=
  activeVals_keeps.bind fun _ => getRegs_keeps.bind fun _ => modRegs_keeps

theorem execVins_form {x} {s : State} (h : s.Form) : OutForm (execVins x s) :=
  runCore_form (readA_keeps.bind fun _ => readB_keeps.bind fun _ => getRegs_keeps.bind fun _ => modRegs_keeps) h

theorem execVrand_form {x} {s : State} (h : s.Form) : OutForm (execVrand x s) :=
  runCore_form (getRegs_keeps.bind fun a => readA_keeps.bind fun _ => readB_keeps.bind fun _ => writeLanes_keeps) h

theorem vecBuf_keeps {a off n align wr} : (vecBuf a off n align wr).Keeps := by
  unfold vecBuf
  exact keeps_when faultAcc_keeps fun _ => keeps_when bufFault_keeps fun _ => checkBuf_keeps.bind fun _ =>
    getState_keeps.bind fun s => checkSide_keeps.bind fun _ => pure_keeps

theorem vecSpot_keeps {x wr a off n align} : (vecSpot x wr a off n align).Keeps :=
  keeps_ite (fun _ => vecBuf_keeps) fun _ => locate_keeps.bind fun _ => pure_keeps

theorem vecDraws_keeps {x a} : (vecDraws x a).Keeps := keeps_ite (fun _ => drawVector_keeps) fun _ => pure_keeps

theorem loadLane_keeps {x a rd off} : (loadLane x a rd off).Keeps := by
  unfold loadLane
  refine vecSpot_keeps.bind fun a1 => ?_
  split
  · refine winRead_keeps.bind fun a2 => ?_
    split
    · split
      · exact pure_keeps
  · exact readSpot_keeps.bind fun _ => pure_keeps

theorem storeLane_keeps {x a rd off l} : (storeLane x a rd off l).Keeps := by
  unfold storeLane
  refine vecSpot_keeps.bind fun a1 => ?_
  split
  · exact winWrite_keeps
  · exact writeSpot_keeps.bind fun _ => pure_keeps

theorem loadLanes_keeps {x a off} : (loadLanes x a off).Keeps := by
  unfold loadLanes
  refine getRegs_keeps.bind fun a1 => vecDraws_keeps.bind fun rd => .bind (mapM_keeps ?_) fun _ => addFlags_keeps.bind
    fun _ => writeLanes_keeps
  intro a2
  split
  · exact keeps_ite (fun _ => loadLane_keeps) fun _ => pure_keeps

theorem storeLanes_keeps {x a places} : (storeLanes x a places).Keeps := by
  unfold storeLanes
  refine getRegs_keeps.bind fun a1 => vecDraws_keeps.bind fun rd => .bind (forIn_keeps fun a2 a3 => ?_) fun _ =>
    pure_keeps
  split
  · exact storeLane_keeps.bind fun _ => addFlags_keeps.bind fun r => pure_keeps

theorem activeIdx_keeps {x} : (activeIdx x).Keeps := getRegs_keeps.bind fun _ => pure_keeps

theorem execVscat_form {x} {s : State} (h : s.Form) : OutForm (execVscat x s) :=
  runCore_form (readA_keeps.bind fun a => getRegs_keeps.bind fun _ => activeIdx_keeps.bind fun _ => storeLanes_keeps) h

theorem readBase_keeps {x} : (readBase x).Keeps := readA_keeps.bind fun a => readB_keeps.bind fun _ => pure_keeps
theorem readStride_keeps {x} : (readStride x).Keeps := readA_keeps.bind fun a => readB_keeps.bind fun _ => pure_keeps

theorem execVld_form {x} {s : State} (h : s.Form) : OutForm (execVld x s) := by
  unfold execVld
  refine runCore_form (readBase_keeps.bind fun a => ?_) h
  split
  · exact loadLanes_keeps

theorem execVst_form {x} {s : State} (h : s.Form) : OutForm (execVst x s) := by
  unfold execVst
  refine runCore_form (readBase_keeps.bind fun a => ?_) h
  split
  · exact activeIdx_keeps.bind fun _ => storeLanes_keeps

theorem execVlds_form {x} {s : State} (h : s.Form) : OutForm (execVlds x s) := by
  unfold execVlds
  refine runCore_form (readStride_keeps.bind fun a => ?_) h
  split
  · exact loadLanes_keeps

theorem execVsts_form {x} {s : State} (h : s.Form) : OutForm (execVsts x s) := by
  unfold execVsts
  refine runCore_form (readStride_keeps.bind fun a => ?_) h
  split
  · exact activeIdx_keeps.bind fun _ => storeLanes_keeps

theorem execVldbc_form {x} {s : State} (h : s.Form) : OutForm (execVldbc x s) := by
  unfold execVldbc
  refine runCore_form (readBase_keeps.bind fun a => ?_) h
  split
  · refine getRegs_keeps.bind fun a2 => vecDraws_keeps.bind fun rd => keeps_either loadLane_keeps pure_keeps fun a3 => ?_
    beta_reduce
    split
    · exact addFlags_keeps.bind fun _ => writeLanes_keeps

theorem execVstc_form {x} {s : State} (h : s.Form) : OutForm (execVstc x s) := by
  unfold execVstc
  refine runCore_form (readBase_keeps.bind fun a => ?_) h
  split
  · exact activeIdx_keeps.bind fun _ => storeLanes_keeps

theorem byteSpot_keeps {x wr a off align} : (byteSpot x wr a off align).Keeps :=
  keeps_ite (fun _ => vecBuf_keeps) fun _ => locate_keeps.bind fun _ => pure_keeps

theorem byteGet_keeps {x a align off} : (byteGet x a align off).Keeps := by
  unfold byteGet
  refine byteSpot_keeps.bind fun a1 => ?_
  split
  · exact readSpot_keeps

theorem bytePut_keeps {x a align off b} : (bytePut x a align off b).Keeps := by
  unfold bytePut
  refine byteSpot_keeps.bind fun a1 => ?_
  split
  · exact writeSpot_keeps.bind fun _ => pure_keeps

/-- Every effect of the list keeps the form. -/
def AllKeep (l : List (Exec α)) : Prop := ∀ m ∈ l, m.Keeps

theorem allKeep_nil : AllKeep ([] : List (Exec α)) := fun _ h => nomatch h
theorem allKeep_one {m : Exec α} (hm : m.Keeps) : AllKeep [m] := fun n hn => by
  rw [List.mem_singleton.mp hn]
  exact hm
theorem allKeep_map {γ : Type} {f : γ → Exec α} {l : List γ} (hf : ∀ a, (f a).Keeps) : AllKeep (l.map f) := fun m hm => by
  obtain ⟨a, -, rfl⟩ := List.mem_map.mp hm
  exact hf a
theorem AllKeep.append {l k : List (Exec α)} (hl : AllKeep l) (hk : AllKeep k) : AllKeep (l ++ k) := fun m hm =>
  (List.mem_append.mp hm).elim (hl m) (hk m)
theorem AllKeep.take {l : List (Exec α)} {n} (hl : AllKeep l) : AllKeep (l.take n) := fun m hm =>
    hl m (List.mem_of_mem_take hm)
theorem AllKeep.tail {l : List (Exec α)} (hl : AllKeep l) : AllKeep l.tail := fun m hm => hl m (List.mem_of_mem_tail hm)

theorem AllKeep.mapM {l : List (Exec α)} (hl : AllKeep l) : (l.mapM id : Exec (List α)).Keeps := by
  induction l with
  | nil => exact pure_keeps
  | cons m l ih =>
    rw [List.mapM_cons]
    exact (hl m List.mem_cons_self).bind fun _ => (ih fun n hn => hl n (List.mem_cons_of_mem _ hn)).bind fun _ => pure_keeps

theorem laneAcc_keeps {l : List (Exec (List Byte))} (hl : AllKeep l) : (laneAcc l).Keeps := by
  induction l with
  | nil => exact pure_keeps
  | cons m ms ih =>
    have hms := ih fun m h => hl m (List.mem_cons_of_mem _ h)
    unfold laneAcc
    intro u hu
    have hmu := hl m List.mem_cons_self u hu
    have hmsu := hms u hu
    beta_reduce
    generalize m u = r at hmu
    generalize laneAcc ms u = q at hmsu
    match r, q with
    | .ok (b, v), _ => exact hms.bind (fun _ => pure_keeps) v hmu
    | .error (.trap i), .ok _ => trivial
    | .error (.trap i), .error (.trap _) => trivial
    | .error (.trap i), .error (.stall f) => exact hmsu
    | .error (.stall f), _ => exact hmu

theorem blockAcc_keeps {head rest : List (Exec (List Byte))} (hh : AllKeep head) (hr : AllKeep rest) :
    (blockAcc head rest).Keeps := by
  unfold blockAcc
  exact (laneAcc_keeps hh).bind fun _ => hr.mapM.bind fun _ => pure_keeps

theorem vecBytes_keeps {x a off n} :
    (vecBytes x a off n).Keeps := by
  unfold vecBytes
  exact blockAcc_keeps allKeep_nil (allKeep_map fun _ => byteGet_keeps)

theorem vecPut_keeps {x a off bs} :
    (vecPut x a off bs).Keeps := by
  unfold vecPut
  exact (blockAcc_keeps allKeep_nil (allKeep_map fun _ => bytePut_keeps)).bind fun _ => pure_keeps

theorem execVldm_form {x} {s : State} (h : s.Form) : OutForm (execVldm x s) := by
  unfold execVldm
  refine runCore_form (readBase_keeps.bind fun a => ?_) h
  split
  · exact vecBytes_keeps.bind fun _ => modRegs_keeps

theorem execVstm_form {x} {s : State} (h : s.Form) : OutForm (execVstm x s) := by
  unfold execVstm
  refine runCore_form (readBase_keeps.bind fun a => ?_) h
  split
  · exact getRegs_keeps.bind fun _ => vecPut_keeps

end Sys2Proof.Machine
end

section
/-!
SUPPORT, of O60. What `Machine/Convert.lean` does keeps the canonical form of the memory: conversions and block codes.
-/
namespace Sys2Proof.Machine

theorem cvtTarget_keeps {x} : (cvtTarget x).Keeps := getState_keeps.bind fun s => addReads_keeps.bind fun _ => pure_keeps

theorem execCvt_form {src x} {s : State} (h : s.Form) : OutForm (execCvt src x s) := by
  unfold execCvt
  refine runCore_form (cvtTarget_keeps.bind fun a => ?_) h
  split
  · refine readA_keeps.bind fun a1 => keeps_either drawScalar_keeps pure_keeps fun rd => ?_
    beta_reduce
    split
    · exact addFlags_keeps.bind fun _ => writeOpd_keeps

theorem execVcvt_form {src x} {s : State} (h : s.Form) : OutForm (execVcvt src x s) := by
  unfold execVcvt
  refine runCore_form (cvtTarget_keeps.bind fun a => ?_) h
  split
  · exact laneOp_keeps

theorem scalarFn_keeps {x f} : (scalarFn x f).Keeps := by
  unfold scalarFn
  refine readA_keeps.bind fun a => drawScalar_keeps.bind fun rd => ?_
  split
  · exact addFlags_keeps.bind fun _ => writeOpd_keeps

theorem vectorFn_keeps {x f} : (vectorFn x f).Keeps := laneOp_keeps
theorem blockBook_keeps {x} : (blockBook x).Keeps := getState_keeps.bind fun s => addReads_keeps.bind fun _ => pure_keeps

theorem execVenc_form {x} {s : State} (h : s.Form) :
    OutForm (execVenc x s) := by
  have hputs : ∀ (l : List (Byte × Nat)) (a : Word) (al : Nat → Nat) (o : Nat → Int),
      AllKeep (l.map fun p => bytePut x a (al p.2) (o p.2) p.1) := fun _ _ _ _ => allKeep_map fun _ => bytePut_keeps
  unfold execVenc
  refine runCore_form (readA_keeps.bind fun a => readB_keeps.bind fun side => blockBook_keeps.bind fun cb =>
    getRegs_keeps.bind fun r => keeps_ite
      (fun _ => keeps_either drawVector_keeps pure_keeps fun rd => .bind (forIn_keeps fun b _ => ?_) fun _ => pure_keeps)
      fun _ => .bind (forIn_keeps fun b _ => ?_) fun _ => pure_keeps) h
  · exact (blockAcc_keeps ((allKeep_map fun _ => bytePut_keeps).take.append (allKeep_one bytePut_keeps))
      (allKeep_map fun _ => bytePut_keeps).tail).bind fun _ => addFlags_keeps.bind fun _ => pure_keeps
  · exact (blockAcc_keeps ((allKeep_map fun _ => bytePut_keeps).append (allKeep_one bytePut_keeps)) allKeep_nil).bind
      fun _ => pure_keeps

theorem readBlock_keeps {x cb a side b} :
    (readBlock x cb a side b).Keeps := by
  have hgets : ∀ n, AllKeep ((List.range n).map fun i => byteGet x a 1 ((b * n + i : Nat) : Int)) :=
    fun _ => allKeep_map fun _ => byteGet_keeps
  unfold readBlock
  exact keeps_ite
    (fun _ => (blockAcc_keeps ((hgets _).take.append (allKeep_one byteGet_keeps)) (hgets _).tail).bind fun _ => pure_keeps)
    fun _ => (blockAcc_keeps (hgets _) allKeep_nil).bind fun _ => pure_keeps

theorem execVdec_form {x} {s : State} (h : s.Form) : OutForm (execVdec x s) := by
  unfold execVdec
  refine runCore_form (readA_keeps.bind fun a => readB_keeps.bind fun side => blockBook_keeps.bind fun cb =>
    getRegs_keeps.bind fun a1 => drawVector_keeps.bind fun rd => .bind (mapM_keeps ?_) fun _ => addFlags_keeps.bind
    fun _ => writeLanes_keeps) h
  intro a2
  exact readBlock_keeps

end Sys2Proof.Machine
end

section
/-!
SUPPORT, of O60. What `Machine/Copy.lean` does keeps the canonical form of the memory: tags, the copy instructions and
the pieces that the copy engine moves.
-/
namespace Sys2Proof.Machine

variable {α β : Type}

theorem copyCheck1_keeps {o} : (copyCheck1 o).Keeps := by
  unfold copyCheck1
  refine getState_keeps.bind fun s => ?_
  extract_lets c acc n ofs carve k6 p t k9 k10
  have hk6 : ∀ b, (k6 b).Keeps := fun a => keeps_ite (fun _ => faultAcc_keeps) fun _ => pure_keeps
  have hk9 : ∀ b, (k9 b).Keeps := fun a => keeps_ite (fun _ => faultAcc_keeps) fun _ => pure_keeps
  have hk10 : ∀ b, (k10 b).Keeps := fun a => keeps_ite (fun _ => faultAcc_keeps.bind hk9) fun _ => hk9 ()
  split
  · exact pure_keeps
  · exact keeps_ite (fun _ => faultAcc_keeps.bind hk6) fun _ => hk6 ()
  · exact keeps_ite (fun _ => faultAcc_keeps.bind hk10) fun _ => hk10 ()
  · exact faultAcc_keeps
  · exact faultAcc_keeps
  · exact faultAcc_keeps
  · exact faultAcc_keeps

theorem copyCheck2_keeps {o wbOnly} : (copyCheck2 o wbOnly).Keeps :=
  getState_keeps.bind fun s => keeps_when bufFault_keeps fun a => keeps_ite (fun _ => keeps_when bufFault_keeps fun _ =>
    keeps_when bufFault_keeps fun _ => keeps_ite (fun _ => bufFault_keeps) fun _ => pure_keeps) fun _ => pure_keeps

theorem copyFault_keeps {o code cause} : (copyFault o code cause).Keeps :=
  keeps_ite (fun _ => fun u hu => leaves_trap) fun _ => faultAcc_keeps

theorem issueCopy_keeps {x os dst wbOnly limits aligns r} : (issueCopy x os dst wbOnly limits aligns r).Keeps := by
  unfold issueCopy
  refine getState_keeps.bind fun s => .bind (forIn_keeps fun o _ => keeps_ite (fun _ => copyCheck1_keeps.bind fun _ =>
    pure_keeps) fun _ => pure_keeps) fun a => .bind (forIn_keeps fun o _ => keeps_ite (fun _ => copyCheck2_keeps.bind
    fun _ => pure_keeps) fun _ => pure_keeps) fun a1 => keeps_when copyFault_keeps fun a2 => .bind (forIn_keeps
    fun o a3 => ?_) fun a3 => .bind (forIn_keeps fun a4 a5 => ?_) fun a4 => .bind (forIn_keeps fun a5 a6 => ?_) fun a5 =>
    .bind (forIn_keeps fun a6 a7 => ?_) fun _ => keeps_when throwTrap_keeps fun _ => needs_keeps.bind fun _ =>
    roomForP_keeps.bind fun _ => atCommit_keeps
  · split
    · exact keeps_ite (fun _ => copyFault_keeps.bind fun _ => pure_keeps) fun _ => pure_keeps
    · exact pure_keeps
  · split
    · exact keeps_ite (fun _ => copyFault_keeps.bind fun _ => pure_keeps) fun _ => pure_keeps
  · split
    · exact keeps_ite (fun _ => faultIp_keeps.bind fun _ => pure_keeps) fun _ => pure_keeps
  · split
    · exact checkSide_keeps.bind fun _ => pure_keeps

theorem execCopy_form {x} {s : State} (h : s.Form) : OutForm (execCopy x s) :=
  runCore_form (readOpd_keeps.bind fun d => readA_keeps.bind fun a => readB_keeps.bind fun _ => issueCopy_keeps) h

theorem execCopy2_form {x} {s : State} (h : s.Form) : OutForm (execCopy2 x s) :=
  runCore_form (readOpd_keeps.bind fun d => readA_keeps.bind fun a => readB_keeps.bind fun _ => readOpd_keeps.bind
    fun _ => issueCopy_keeps) h

theorem execRedp_form {x} {s : State} (h : s.Form) : OutForm (execRedp x s) :=
  runCore_form (readOpd_keeps.bind fun d => readA_keeps.bind fun a => readB_keeps.bind fun n => readC_keeps.bind fun _ =>
    issueCopy_keeps) h

theorem execApf_form {x} {s : State} (h : s.Form) : OutForm (execApf x s) :=
  runCore_form (readOpd_keeps.bind fun d => readA_keeps.bind fun a => readB_keeps.bind fun _ => issueCopy_keeps) h

theorem execCfill_form {x} {s : State} (h : s.Form) : OutForm (execCfill x s) :=
  runCore_form (readOpd_keeps.bind fun d => readA_keeps.bind fun _ => readB_keeps.bind fun _ => issueCopy_keeps) h

theorem tagFaults_keeps {mask} : (tagFaults mask).Keeps := by
  unfold tagFaults
  refine getState_keeps.bind fun s => ?_
  extract_lets x
  split
  · exact throwTrap_keeps
  · exact pure_keeps

theorem execTwany_form {x} {s : State} (h : s.Form) : OutForm (execTwany x s) := by
  unfold execTwany
  refine runCore_form (readA_keeps.bind fun m => tagFaults_keeps.bind fun t => ?_) h
  split
  · exact writeOpd_keeps
  · exact keeps_ite (fun _ => writeOpd_keeps) fun _ => stallWait_keeps

theorem execTwall_form {x} {s : State} (h : s.Form) : OutForm (execTwall x s) :=
  runCore_form (readA_keeps.bind fun _ => tagFaults_keeps.bind fun t => keeps_ite (fun _ => stallWait_keeps) fun _ =>
    pure_keeps) h

theorem execTwait_form {x} {s : State} (h : s.Form) : OutForm (execTwait x s) :=
  runCore_form (readA_keeps.bind fun a => tagFaults_keeps.bind fun t => keeps_ite (fun _ => stallWait_keeps) fun _ =>
    pure_keeps) h

theorem execCres_form {x} {s : State} (h : s.Form) : OutForm (execCres x s) :=
  runCore_form (readA_keeps.bind fun a => getState_keeps.bind fun _ => keeps_when needs_keeps fun _ => atCommit_keeps) h

theorem execCcan_form {x} {s : State} (h : s.Form) : OutForm (execCcan x s) :=
  runCore_form (readA_keeps.bind fun a => getState_keeps.bind fun _ => addReads_keeps.bind fun _ => writeOpd_keeps.bind
    fun _ => atCommit_keeps) h

theorem TagRec.number_form {r} {s : State} (h : s.Form) : PairForm (TagRec.number r s) :=
  pred_ite (P := PairForm) (fun _ => pairForm_mk h) fun _ => pairForm_mk h

theorem Side.ask_form {d pkg pa n} {s : State} (h : s.Form) :
    (Side.ask d pkg pa n s).Form := by
  unfold Side.ask
  exact form_ite (fun _ => h) fun _ => State.updTile_form (State.sendFab_form (TagRec.number_form h).snd).snd

/-! ### The copy engine's steps -/

/-- What a step of the copy engine has left keeps the canonical form: its state, or what its request does. -/
def CopyLeaves (r : Except CopyStop (α × State × List Byte)) : Prop := match r with
  | .ok (_, q) => q.1.Form
  | .error (.fault _) => True
  | .error (.short f) => ∀ u : State, u.Form → (f u).Form

/-- Every way in which a step of the copy engine ends, begun in a memory of the canonical form, leaves one. -/
def CopyM.Keeps (m : CopyM α) : Prop := ∀ p : State × List Byte, p.1.Form → CopyLeaves (m p)

theorem CopyM.Keeps.ok {m : CopyM α} {p q : State × List Byte} {a : α} (hm : CopyM.Keeps m) (h : p.1.Form)
    (e : m p = .ok (a, q)) : q.1.Form := by
  have := hm p h
  rwa [e] at this

theorem CopyM.Keeps.short {m : CopyM α} {p : State × List Byte} {f : State → State} (hm : CopyM.Keeps m) (h : p.1.Form)
    (e : m p = .error (.short f)) : ∀ u : State, u.Form → (f u).Form := by
  have := hm p h
  rwa [e] at this

theorem CopyM.Keeps.bind {m : CopyM α} {f : α → CopyM β} (hm : CopyM.Keeps m) (hf : ∀ a, CopyM.Keeps (f a)) :
    CopyM.Keeps (m >>= f) := by
  intro p hp
  have h := hm p hp
  change CopyLeaves (m p >>= fun r => f r.1 r.2)
  generalize m p = r at h
  match r with
  | .error (.fault _) => trivial
  | .error (.short _) => exact h
  | .ok (a, q) => exact hf a q h

theorem copyPure_keeps {a : α} : CopyM.Keeps (pure a) := fun _ h => h
theorem copyGet_keeps : CopyM.Keeps get := fun _ h => h
theorem copyModify_keeps {f : State × List Byte → State × List Byte} (hf : ∀ p, p.1.Form → (f p).1.Form) :
    CopyM.Keeps (modify f) := hf

theorem copyIte_keeps {p : Prop} [Decidable p] {m n : CopyM α} (hm : CopyM.Keeps m) (hn : CopyM.Keeps n) :
    CopyM.Keeps (if p then m else n) := by
  split
  · exact hm
  · exact hn

theorem copyMapM_keeps {γ : Type} {l : List γ} {f : γ → CopyM β} (hf : ∀ a, CopyM.Keeps (f a)) : CopyM.Keeps
    (l.mapM f) := by
  induction l with
  | nil => exact copyPure_keeps
  | cons a l ih =>
    rw [List.mapM_cons]
    exact (hf a).bind fun _ => ih.bind fun _ => copyPure_keeps

theorem copyForIn_keeps {γ : Type} {l : List γ} {b : β} {f : γ → β → CopyM (ForInStep β)} (hf : ∀ a b, CopyM.Keeps
    (f a b)) :
    CopyM.Keeps (forIn l b f) := by
  induction l generalizing b with
  | nil => exact copyPure_keeps
  | cons a l ih =>
    rw [List.forIn_cons]
    refine (hf a b).bind fun r => ?_
    cases r with
    | done b => exact copyPure_keeps
    | yield b => exact ih

theorem Side.fail_keeps {d : Side} {code cause} : CopyM.Keeps (d.fail code cause : CopyM α) := fun _ _ => trivial

theorem Side.xlate_keeps {d : Side} {va} : CopyM.Keeps (d.xlate va) := by
  unfold Side.xlate
  rintro ⟨s, e⟩ h
  beta_reduce
  split
  rename_i s' e' hp
  cases hp
  extract_lets j q
  split
  · rename_i ht
    exact (State.translate_form h).of_eq ht
  · exact pred_ite (P := CopyLeaves) (fun _ => trivial) fun _ => trivial

theorem Side.get_keeps {d : Side} {p n} : CopyM.Keeps (d.get p n) := by
  rintro ⟨s, e⟩ h
  cases p with
  | mem key kn uc => exact pred_ite (P := CopyLeaves) (fun _ => trivial) fun _ => h
  | remote pkg pa =>
    refine pred_ite (P := CopyLeaves) (fun _ => trivial) fun _ => ?_
    split
    · exact h
    · exact fun _ hu => Side.ask_form hu
  | host a => exact pred_ite (P := CopyLeaves) (fun _ _ hu => hu) fun _ => h

theorem Side.read_keeps {d : Side} {n} : CopyM.Keeps (d.read n) := by
  unfold Side.read
  have hx : ∀ va n, CopyM.Keeps (d.xlate va >>= fun p => d.get p n) := fun _ _ => Side.xlate_keeps.bind fun _ =>
    Side.get_keeps
  split
  · exact Side.get_keeps
  · exact copyPure_keeps
  · split
    · exact hx _ _
    · extract_lets v w first
      split
      · exact hx _ _
      · exact (copyMapM_keeps fun _ => hx _ _).bind fun _ => copyPure_keeps
      · exact (copyMapM_keeps fun _ => Side.xlate_keeps.bind fun _ => Side.get_keeps.bind fun _ => copyPure_keeps).bind
          fun _ => copyPure_keeps

theorem Side.send_keeps {d : Side} {tag p flag pkg pa n op} : CopyM.Keeps (d.send tag p flag pkg pa n op) := by
  rintro ⟨s, e⟩ h
  exact pred_ite (P := CopyLeaves) (fun _ => trivial) fun _ =>
    State.updTile_form (State.sendFab_form (TagRec.number_form h).snd).snd

theorem Side.put_keeps {d : Side} {tag p flag pl bs} : CopyM.Keeps (d.put tag p flag pl bs) := by
  unfold Side.put
  extract_lets here
  have hhere : CopyM.Keeps here := copyModify_keeps fun _ h => State.updTile_form h
  split
  · exact hhere.bind fun _ => copyModify_keeps fun _ h => State.commitBytes_form h
  · exact hhere.bind fun _ => copyModify_keeps fun _ h => h
  · exact Side.send_keeps

theorem Side.store_keeps {d : Side} {tag p flag bs} : CopyM.Keeps (d.store tag p flag bs) := by
  unfold Side.store
  have hx : ∀ va flag bs, CopyM.Keeps (d.xlate va >>= fun pl => d.put tag p flag pl bs) :=
    fun _ _ _ => Side.xlate_keeps.bind fun _ => Side.put_keeps
  split
  · exact Side.put_keeps
  · exact copyPure_keeps
  · split
    · exact hx _ _ _
    · extract_lets v four blocks
      split
      · exact hx _ _ _
      · refine CopyM.Keeps.bind (copyForIn_keeps fun a _ => ?_) fun _ => copyPure_keeps
        obtain ⟨b, j⟩ := a
        exact Side.xlate_keeps.bind fun _ => Side.put_keeps.bind fun _ => copyPure_keeps
      · have hblocks : ∀ b, CopyM.Keeps (blocks b) := fun _ => CopyM.Keeps.bind (copyForIn_keeps fun a _ =>
          Side.xlate_keeps.bind fun _ => Side.put_keeps.bind fun _ => copyPure_keeps) fun _ => copyPure_keeps
        exact copyIte_keeps (Side.fail_keeps.bind hblocks) (hblocks ())
      · exact Side.fail_keeps

theorem Side.place_keeps {d : Side} : CopyM.Keeps d.place := by
  unfold Side.place
  split
  · exact copyIte_keeps (Side.xlate_keeps.bind fun _ => copyPure_keeps) copyPure_keeps
  · exact copyPure_keeps

theorem Side.away_keeps {d : Side} {n} : CopyM.Keeps (d.away n) := by
  unfold Side.away
  split
  · refine (copyMapM_keeps fun _ => Side.place_keeps).bind fun ps => ?_
    extract_lets at_
    clear_value at_
    split
    · exact copyIte_keeps copyPure_keeps copyPure_keeps
    · exact copyPure_keeps
  · exact copyPure_keeps

theorem Side.readAt_keeps {d : Side} {o n} : CopyM.Keeps (d.readAt o n) := by
  unfold Side.readAt
  exact (copyMapM_keeps fun _ => Side.read_keeps).bind fun _ => copyPure_keeps

theorem State.wbAfter_form {s : State} {t tag slab} (h : s.Form) : (s.wbAfter t tag slab).Form := State.updTile_form h

theorem flagPlace_keeps {r dst} : CopyM.Keeps (flagPlace r dst) := by
  intro p h
  unfold flagPlace
  extract_lets f
  split
  · refine pred_ite (P := CopyLeaves) (fun _ => ?_) fun _ => h
    split
    · exact h
    · exact h
  · exact h

theorem sourceBytes_keeps {t tag p n} : CopyM.Keeps (sourceBytes t tag p n) := by
  unfold sourceBytes
  refine copyGet_keeps.bind fun s => copyIte_keeps copyPure_keeps (copyIte_keeps ?_ (copyIte_keeps ?_ Side.readAt_keeps))
  · exact (copyMapM_keeps fun _ => Side.readAt_keeps).bind fun _ => copyPure_keeps
  · exact Side.readAt_keeps.bind fun _ => Side.readAt_keeps.bind fun _ => copyPure_keeps

theorem pieceBytes_keeps {t tag p n} : CopyM.Keeps (pieceBytes t tag p n) := by
  unfold pieceBytes
  refine copyGet_keeps.bind fun s => ?_
  dsimp only
  split
  · exact copyPure_keeps
  · exact sourceBytes_keeps

theorem keepBytes_keeps {t tag p bs} : CopyM.Keeps (keepBytes t tag p bs) := copyModify_keeps fun _ h =>
    State.updTile_form h

theorem putNibble_keeps {t tag q h b low} : CopyM.Keeps (putNibble t tag q h b low) := by
  unfold putNibble
  refine copyGet_keeps.bind fun s => ?_
  extract_lets nib
  split
  extract_lets r row d dirty
  have hdirty : ∀ b, CopyM.Keeps (dirty b) := by
    intro _
    unfold dirty
    split
    · exact copyModify_keeps fun _ h => State.updTile_form h
    · exact copyPure_keeps
  refine copyIte_keeps (Side.store_keeps.bind hdirty) (Side.place_keeps.bind fun _ => copyIte_keeps ?_ (hdirty ()))
  exact Side.read_keeps.bind fun _ => Side.store_keeps.bind hdirty

theorem movePiece_keeps {t tag p n} : CopyM.Keeps (movePiece t tag p n) := by
  unfold movePiece
  refine pieceBytes_keeps.bind fun bs => copyGet_keeps.bind fun s => copyIte_keeps ?_ ?_
  · exact (copyForIn_keeps fun _ _ => (copyForIn_keeps fun _ _ => putNibble_keeps.bind fun _ => copyPure_keeps).bind
      fun _ => copyPure_keeps).bind fun _ => copyPure_keeps
  · exact flagPlace_keeps.bind fun _ => Side.store_keeps

theorem reducePiece_keeps {t tag p n} : CopyM.Keeps (reducePiece t tag p n) := by
  unfold reducePiece
  refine pieceBytes_keeps.bind fun bs => copyGet_keeps.bind fun s => Side.away_keeps.bind fun a => ?_
  cases a with
  | some a => exact Side.send_keeps
  | none => exact Side.read_keeps.bind fun _ => Side.store_keeps.bind fun _ => copyModify_keeps fun _ h =>
    State.updTile_form h

theorem fetchUnit_keeps {t tag p} : CopyM.Keeps (fetchUnit t tag p) := by
  unfold fetchUnit
  exact copyGet_keeps.bind fun s => pieceBytes_keeps.bind fun _ => keepBytes_keeps

theorem moveUnit_keeps {t tag p} : CopyM.Keeps (moveUnit t tag p) := by
  unfold moveUnit
  refine copyGet_keeps.bind fun s => ?_
  split
  extract_lets r n out note
  have hnote : ∀ b, CopyM.Keeps (note b) := by
    refine fun _ => keepBytes_keeps.bind fun _ => copyModify_keeps fun p hp => ?_
    obtain ⟨u, e⟩ := p
    have hu : ∀ f, (u.updTile t f).Form := fun _ => State.updTile_form hp
    dsimp only
    split
    · exact State.wbAfter_form (hu _)
    · exact hu _
  exact copyIte_keeps (reducePiece_keeps.bind hnote) (movePiece_keeps.bind hnote)

theorem countAt_keeps {t tag r a} : CopyM.Keeps (countAt t tag r a) := by
  unfold countAt
  refine Side.away_keeps.bind fun a => ?_
  cases a with
  | some a => exact Side.send_keeps
  | none => exact Side.read_keeps.bind fun _ => Side.store_keeps

theorem endWrites_keeps {t tag} : CopyM.Keeps (endWrites t tag) := by
  unfold endWrites
  refine copyGet_keeps.bind fun s => ?_
  extract_lets ended
  have hended : ∀ b, CopyM.Keeps (ended b) := fun _ => copyModify_keeps fun _ h => State.updTile_form h
  split
  extract_lets r count
  have hcount : ∀ b, CopyM.Keeps (count b) := by
    intro _
    unfold count
    split
    · exact countAt_keeps.bind hended
    · exact hended ()
  exact copyIte_keeps (Side.store_keeps.bind hcount) (hcount ())

theorem State.copyFaulted_form {s : State} {t tag i} (h : s.Form) : (s.copyFaulted t tag i).Form := by
  unfold State.copyFaulted
  extract_lets s1 s2 s3
  have hs1 : s1.Form := State.updTile_form h
  have hs2 : s2.Form := State.turnTag_form hs1
  have hs3 : s3.Form := form_ite (fun _ => State.logCheck_form hs2) fun _ => hs2
  exact form_ite (fun _ => State.updCore_form hs3) fun _ => hs3

theorem State.copyDone_form {s : State} {t tag} (h : s.Form) : (s.copyDone t tag).Form := by
  unfold State.copyDone
  extract_lets x r gone y s1 s2
  have hs1 : s1.Form := State.turnTag_form (State.letGo_form (State.setTile_form h))
  have hs2 : s2.Form := State.updCore_form hs1
  exact form_ite (fun _ => hs2) fun _ => State.signal_form hs2

theorem State.copyEnd_form {s : State} {t tag ext} (h : s.Form) :
    (s.copyEnd t tag ext).Form := by
  unfold State.copyEnd
  refine form_ite (fun _ => h) fun _ => form_ite (fun _ => State.copyDone_form h) fun _ => ?_
  have hp : ((s, ext) : State × List Byte).1.Form := h
  split
  · exact State.copyFaulted_form h
  · rename_i e
    exact endWrites_keeps.short hp e s h
  · rename_i e
    have hu := endWrites_keeps.ok hp e
    exact form_ite (fun _ => hu) fun _ => State.copyDone_form hu

theorem State.openPiece_form {s : State} {t tag ext} (h : s.Form) : SomeForm (s.openPiece t tag ext) := by
  unfold State.openPiece
  extract_lets r n r' begun dry
  have hbegun : begun.Form := State.updTile_form h
  refine pred_ite (P := SomeForm) (fun _ => someForm_some (State.copyEnd_form (State.noteTag_form
    (State.updTile_form h)))) fun _ => ?_
  split
  · exact pred_ite (P := SomeForm) (fun _ => someForm_some (State.copyFaulted_form h)) fun _ => someForm_none
  · exact someForm_some hbegun

theorem State.copyPiece.go_form {t tag ext} {s : State} {p early} (h : s.Form) :
    (State.copyPiece.go t tag ext s p early).Form := by
  have hm : CopyM.Keeps (if early then fetchUnit t tag p else moveUnit t tag p) := copyIte_keeps fetchUnit_keeps
    moveUnit_keeps
  have hp : ((s, ext) : State × List Byte).1.Form := h
  unfold State.copyPiece.go
  split
  · exact State.copyFaulted_form h
  · rename_i e
    exact hm.short hp e s h
  · rename_i e
    have hu := hm.ok hp e
    exact form_ite (fun _ => hu) fun _ => State.copyEnd_form (State.noteTag_form hu)

theorem State.copyPiece_form {s : State} {t tag ext} (h : s.Form) :
    (s.copyPiece t tag ext).Form := by
  unfold State.copyPiece
  refine form_ite (fun _ => h) fun _ => form_ite (fun _ => State.copyEnd_form h) fun _ => ?_
  have hc : (s.choose).2.Form := (State.choose_form h).snd
  split
  rename_i n u e
  rw [e] at hc
  extract_lets c more next
  have hnext : SomeForm next := pred_ite (P := SomeForm) (fun _ => State.openPiece_form hc) fun _ => someForm_none
  clear_value next
  split
  · exact hnext _ rfl
  · exact State.copyPiece.go_form hc
  · exact State.copyPiece.go_form hc
  · exact hc

theorem execCopyPiece_form {t tag ext} {s : State} (h : s.Form) : OutForm (execCopyPiece t tag ext s) :=
  outForm_next (State.copyPiece_form h)

end Sys2Proof.Machine
end

section
/-!
SUPPORT, of O60. What `Machine/Matrix.lean` does keeps the canonical form of the memory: the matrix instructions and
the events of the array.
-/
namespace Sys2Proof.Machine

theorem State.accService_form {s : State} {k cause} (h : s.Form) : (s.accService k cause).Form := by
  unfold State.accService
  refine form_ite (fun _ => State.closeChunk_form h) fun _ => ?_
  extract_lets s1
  have hs1 : s1.Form := State.updCore_form (State.dropToken_form (State.restoreWait_form h))
  exact form_getD (State.serveAcc_form hs1) hs1

theorem accOwner_keeps {k kind cause} : (accOwner k kind cause).Keeps :=
  fun u hu => pred_ite (P := Leaves) (fun _ => leaves_trap) fun _ => leaves_stall (fun u1 hu1 =>
    State.accService_form hu1)

theorem checkBlocks_keeps {kind ks tagTest absTest} : (checkBlocks kind ks tagTest absTest).Keeps := by
  unfold checkBlocks
  refine getState_keeps.bind fun s => ?_
  extract_lets x k2 k3
  have hk2 : ∀ b, (k2 b).Keeps := fun a => .bind (forIn_keeps fun k _ => keeps_when accOwner_keeps fun _ =>
    keeps_ite (fun _ => accOwner_keeps.bind fun r => pure_keeps) fun _ => pure_keeps) fun _ => pure_keeps
  have hk3 : ∀ b, (k3 b).Keeps := by
    refine fun a => ?_
    unfold k3
    split
    · exact throwTrap_keeps.bind hk2
    · exact hk2 ()
  split
  · exact throwTrap_keeps.bind hk3
  · exact hk3 ()

theorem checkFour_keeps {broken kind} : (checkFour broken kind).Keeps :=
  keeps_ite (fun _ => getState_keeps.bind fun s => throwTrap_keeps) fun _ => pure_keeps

theorem checkRanges_keeps {rs} : (checkRanges rs).Keeps :=
  .bind (forIn_keeps fun r _ => checkBuf_keeps.bind fun _ => pure_keeps) fun _ => .bind (forIn_keeps fun r _ =>
    checkSide_keeps.bind fun _ => pure_keeps) fun _ => roomForP_keeps

theorem mapGlobal_keeps {c q vf va n} :
    (mapGlobal c q vf va n).Keeps := by
  unfold mapGlobal
  intro u hu
  beta_reduce
  split
  · rename_i r e
    exact (State.mapPages_form (fun _ _ h => State.translate_form h) hu).of_eq e
  · exact pred_ite (P := Leaves) (fun _ => leaves_trap) fun _ => leaves_trap

theorem execMldb_form {x} {s : State} (h : s.Form) : OutForm (execMldb x s) :=
  runCore_form (readA_keeps.bind fun _ => readB_keeps.bind fun _ => readC_keeps.bind fun _ => getState_keeps.bind fun _ =>
    checkFour_keeps.bind fun a => checkRanges_keeps.bind fun _ => atCommit_keeps) h

theorem prepMma_keeps {x red} : (prepMma x red).Keeps :=
  readA_keeps.bind fun a => readB_keeps.bind fun _ => readC_keeps.bind fun _ => getState_keeps.bind fun s =>
    checkBlocks_keeps.bind fun _ => checkFour_keeps.bind fun _ => keeps_when checkRanges_keeps fun _ => pure_keeps

theorem prepMmg_keeps {x red} : (prepMmg x red).Keeps :=
  readA_keeps.bind fun a => readB_keeps.bind fun _ => readC_keeps.bind fun _ => getState_keeps.bind fun s =>
    checkBlocks_keeps.bind fun _ => checkFour_keeps.bind fun _ => checkRanges_keeps.bind fun _ => pure_keeps

theorem gangPrep_keeps {kind red x} : (gangPrep kind red x).Keeps := by
  unfold gangPrep
  split
  · exact getState_keeps.bind fun _ => pure_keeps
  · exact prepMmg_keeps
  · exact prepMma_keeps

theorem gangStart_keeps {op} : (gangStart op).Keeps :=
  keeps_ite (fun _ => getState_keeps.bind fun _ => writeOpd_keeps) fun _ => atCommit_keeps

theorem joinWhole_keeps {j lead} : (joinWhole j lead).Keeps := by
  unfold joinWhole
  refine .bind (modState_keeps (fun u hu => State.setMe_form hu)) fun a => gangPrep_keeps.bind fun a1 => ?_
  split
  · exact keeps_when needs_keeps fun _ => gangStart_keeps.bind fun _ => finish_keeps

theorem State.runMember_form {s : State} {u j lead} (h : s.Form) :
    OkStateForm (s.runMember u j lead) := by
  unfold State.runMember
  have h' : ({ s with curTile := u, curCore := .m } : State).Form := h
  split
  · rename_i e
    have hv := State.commitChunk_form (t := u) (k := .m) (Exec.Keeps.ok joinWhole_keeps h' e)
    exact okStateForm_ok hv
  · exact okStateForm_error
  · exact okStateForm_error

/-- The state of a result, whichever way it went, has the form. -/
def EitherForm (r : Except State State) : Prop := (∀ t, r = .ok t → t.Form) ∧ ∀ t, r = .error t → t.Form

theorem eitherForm_ok {s : State} (h : s.Form) : EitherForm (.ok s) := ⟨by rintro _ ⟨⟩; exact h, by rintro _ ⟨⟩⟩
theorem eitherForm_error {s : State} (h : s.Form) : EitherForm (.error s) := ⟨by rintro _ ⟨⟩, by rintro _ ⟨⟩; exact h⟩

theorem State.settleJoin_form {s : State} {t} (h : s.Form) :
    (s.settleJoin t).Form := by
  unfold State.settleJoin
  extract_lets joins lead done
  have hdone : EitherForm done := by
    refine List.foldlRecOn (motive := EitherForm) joins _ (eitherForm_ok h) fun r hr a _ => ?_
    obtain ⟨u, j⟩ := a
    cases r with
    | error v => exact hr
    | ok v =>
      have hv := hr.1 v rfl
      refine pred_ite (P := EitherForm) (fun _ => eitherForm_error (State.squash_form h)) fun _ =>
        pred_ite (P := EitherForm) (fun _ => eitherForm_error h) fun _ => ?_
      split
      · rename_i e
        exact eitherForm_ok ((State.runMember_form hv).of_eq e)
      · exact eitherForm_error (State.updCore_form h)
      · exact eitherForm_error h
  clear_value done
  refine form_ite (fun _ => h) fun _ => form_ite (fun _ => form_foldl h fun u a hu => State.updCore_form hu) fun _ => ?_
  cases done with
  | ok v => exact hdone.1 v rfl
  | error v => exact hdone.2 v rfl

theorem State.enterJoin_form {s : State} {key op} (h : s.Form) : (s.enterJoin key op).Form := by
  unfold State.enterJoin
  extract_lets k1 s1 k3
  have hs1 : s1.Form := form_ite (fun _ => State.setMe_form h) fun _ => h
  exact State.settleJoin_form (State.setMe_form hs1)

theorem State.awaitJoin_form {s : State} (h : s.Form) : s.awaitJoin.Form := State.settleJoin_form (State.setMe_form h)

theorem gangBody_keeps {kind red x} : (gangBody kind red x).Keeps := by
  unfold gangBody
  refine getState_keeps.bind fun s => ?_
  split
  · refine gangPrep_keeps.bind fun a1 => ?_
    split
    · exact keeps_ite (fun _ => gangStart_keeps) fun _ => keeps_ite (fun _ => stallWith_keeps (fun u hu =>
        State.enterJoin_form hu)) fun _ => pure_keeps
  · split
    · exact stallWith_keeps (fun _ h => State.awaitJoin_form h)
    · exact faultIp_keeps
    · exact faultIp_keeps

theorem execMmv_form {x} {s : State} (h : s.Form) : OutForm (execMmv x s) :=
  runCore_form (readA_keeps.bind fun a => readB_keeps.bind fun b => readC_keeps.bind fun _ => getState_keeps.bind fun _ =>
    checkBlocks_keeps.bind fun _ => checkFour_keeps.bind fun _ => checkRanges_keeps.bind fun _ =>
    keeps_when faultAcc_keeps fun _ => mapGlobal_keeps.bind fun _ => atCommit_keeps) h

theorem execMclr_form {x} {s : State} (h : s.Form) : OutForm (execMclr x s) :=
  runCore_form (getState_keeps.bind fun _ => checkBlocks_keeps.bind fun a => checkFour_keeps.bind fun _ =>
    atCommit_keeps) h

theorem execMdrain_form {x} {s : State} (h : s.Form) : OutForm (execMdrain x s) := by
  unfold execMdrain
  refine runCore_form (readA_keeps.bind fun d => readB_keeps.bind fun shp => getState_keeps.bind fun s1 => ?_) h
  extract_lets t rows cols ks k5
  split
  · exact checkBlocks_keeps.bind fun _ => checkFour_keeps.bind fun _ => checkRanges_keeps.bind fun _ => atCommit_keeps

theorem execMstat_form {x} {s : State} (h : s.Form) : OutForm (execMstat x s) :=
  runCore_form (getState_keeps.bind fun _ => keeps_when (stallWith_keeps (fun u hu => hu)) fun _ => writeOpd_keeps) h

theorem recordAddr_keeps {kind write gf} : (recordAddr kind write gf).Keeps := by
  unfold recordAddr
  refine getState_keeps.bind fun s => .bind (forIn_keeps fun a a1 => ?_) fun a => .bind (mapM_keeps ?_) fun vas =>
    .bind (forIn_keeps fun a1 a2 => ?_) fun _ => pure_keeps
  · split
    · exact keeps_ite (fun _ => faultAcc_keeps.bind fun _ => pure_keeps) fun _ => pure_keeps
  · intro a1
    split
    · split
      · exact pure_keeps
      · exact faultAcc_keeps
      · exact faultAcc_keeps
      · exact faultAcc_keeps
  · split
    · exact keeps_ite (fun _ => faultAcc_keeps.bind fun _ => pure_keeps) fun _ => pure_keeps

theorem execMspill_form {x} {s : State} (h : s.Form) : OutForm (execMspill x s) := by
  unfold execMspill
  refine runCore_form (readA_keeps.bind fun g => readB_keeps.bind fun f => getState_keeps.bind fun s1 =>
    checkBlocks_keeps.bind fun a => checkFour_keeps.bind fun a1 => recordAddr_keeps.bind fun vas => ?_) h
  extract_lets other owner job q vf k6 k7 aux
  have hk7 : ∀ b, (k7 b).Keeps := fun _ => mapGlobal_keeps.bind fun _ => mapGlobal_keeps.bind fun _ => atCommit_keeps
  exact keeps_ite (fun _ => keeps_ite (fun _ => faultAcc_keeps.bind hk7) fun _ => hk7 ()) fun _ => hk7 ()

theorem probe_keeps {α : Type} {m : Exec α} (hm : m.Keeps) :
    (probe m : Exec (Option α)).Keeps := by
  unfold probe
  intro u hu
  have hmu := hm u hu
  beta_reduce
  split
  · exact leaves_ok hu
  · exact leaves_ok hu
  · rename_i e
    rw [e] at hmu
    exact hmu

theorem execMfill_form {x} {s : State} (h : s.Form) : OutForm (execMfill x s) := by
  unfold execMfill
  refine runCore_form (readA_keeps.bind fun g => readB_keeps.bind fun f => getState_keeps.bind fun s1 =>
    checkBlocks_keeps.bind fun a => checkFour_keeps.bind fun a1 => .bind (probe_keeps (recordAddr_keeps.bind fun _ =>
    readGlob_keeps.bind fun _ => pure_keeps)) fun a2 => ?_) h
  extract_lets k1
  have hk1 : ∀ b, (k1 b).Keeps := fun _ => recordAddr_keeps.bind fun _ => .bind (recordAddr_keeps.bind fun _ =>
    readGlob_keeps.bind fun _ => pure_keeps) fun _ => mapGlobal_keeps.bind fun _ => modRegs_keeps.bind fun _ =>
    atCommit_keeps
  split
  · exact checkFour_keeps.bind fun _ => keeps_ite (fun _ => checkBlocks_keeps.bind hk1) fun _ => hk1 ()
  · exact hk1 ()

theorem State.updHead_form {s : State} {t f} (h : s.Form) : (s.updHead t f).Form := by
  unfold State.updHead
  split
  · exact h
  · exact State.setOp_form h

theorem State.spillPut_form {s : State} {t vf p bs} (h : s.Form) : (s.spillPut t vf p bs).Form := by
  unfold State.spillPut
  split
  · exact State.updHead_form h
  · exact State.placeWrite_form h

theorem State.askPieces_form {s : State} {t m} (h : s.Form) : (s.askPieces t m).Form := by
  unfold State.askPieces
  refine form_foldl h fun u a hu => State.updHead_form (PairForm.snd ?_)
  split
  · exact State.sendHostRead_form hu
  · exact State.sendFab_form hu
  · exact pairForm_mk hu

theorem State.lateWork_form {s : State} {t m} (h : s.Form) :
    (s.lateWork t m).Form := by
  unfold State.lateWork
  split
  · exact State.updCore_form (State.drainRun_form h)
  · exact State.updHead_form (State.spillRun_form h fun _ _ _ hu => State.spillPut_form hu)
  · exact State.fillRun_form h
  · exact h

theorem State.matrixDone_form {s : State} {t} (h : s.Form) : (s.matrixDone t).Form := by
  unfold State.matrixDone
  extract_lets s'
  have hs' : s'.Form := form_ite (fun _ => h) fun _ => State.perform_form h
  split
  · exact hs'
  · refine form_ite (fun _ => hs') fun _ => form_ite (fun _ => hs') fun _ => form_ite (fun _ => hs') fun _ =>
      form_ite (fun _ => State.askPieces_form hs') fun _ => ?_
    split
    · exact State.stopOp_form hs'
    · extract_lets s'1
      have hs'1 : s'1.Form := form_ite (fun _ => State.lateWork_form hs') fun _ => hs'
      exact form_ite (fun _ => hs'1) fun _ => State.engineSignal_form (State.popOp_form hs'1)

theorem execMatrixMismatch_form {t} {s : State} (h : s.Form) : OutForm (execMatrixMismatch t s) := by
  unfold execMatrixMismatch
  refine outForm_next ?_
  split
  · exact h
  · refine form_ite (fun _ => h) fun _ => ?_
    split
    · exact h
    · exact State.slotsSettle_form (State.pendCore_form (State.popOp_form h))

theorem execGangTimeout_form {t} {s : State} (h : s.Form) : OutForm (execGangTimeout t s) := by
  unfold execGangTimeout
  refine outForm_next ?_
  extract_lets c
  split
  · exact form_ite (fun _ => State.updCore_form h) fun _ => h
  · exact h

end Sys2Proof.Machine
end

section
/-!
SUPPORT, of O60. What `Machine/Memory.lean` does keeps the canonical form of the memory: loads, stores, block moves
and the space instructions.
-/
namespace Sys2Proof.Machine

theorem readEa_keeps {x} : (readEa x).Keeps := readA_keeps.bind fun a => readB_keeps.bind fun _ => pure_keeps

theorem loadInt_keeps {x a} : (loadInt x a).Keeps := by
  unfold loadInt
  refine locate_keeps.bind fun a1 => ?_
  split
  · refine winRead_keeps.bind fun a2 => ?_
    split
    · refine drawScalar_keeps.bind fun rd => ?_
      split
      · exact addFlags_keeps.bind fun _ => pure_keeps
  · exact readSpot_keeps.bind fun _ => pure_keeps

theorem loadFloat_keeps {x a} : (loadFloat x a).Keeps := by
  unfold loadFloat
  extract_lets c
  split
  · refine locate_keeps.bind fun a2 => ?_
    split
    · refine winRead_keeps.bind fun a3 => ?_
      split
      · refine drawScalar_keeps.bind fun rd => ?_
        split
        · exact addFlags_keeps.bind fun _ => pure_keeps
    · exact readSpot_keeps.bind fun _ => pure_keeps

theorem storeValue_keeps {x a n v fromInt fv} : (storeValue x a n v fromInt fv).Keeps := by
  unfold storeValue
  refine locate_keeps.bind fun a1 => ?_
  split
  · exact drawScalar_keeps.bind fun _ => winWrite_keeps.bind fun _ => addFlags_keeps
  · exact writeSpot_keeps

theorem storeInt_keeps {x a v} : (storeInt x a v).Keeps := storeValue_keeps

theorem storeFloat_keeps {x a v} : (storeFloat x a v).Keeps := by
  unfold storeFloat
  split
  · exact storeValue_keeps

theorem loadPair_keeps {x a} : (loadPair x a).Keeps :=
  loadAt_keeps.bind fun _ => modRegs_keeps.bind fun _ => writeOpd_keeps

theorem storePair_keeps {x a} : (storePair x a).Keeps :=
  readC_keeps.bind fun _ => readOpd_keeps.bind fun _ => storeAt_keeps

theorem writeBack_keeps {x ea} : (writeBack x ea).Keeps := modRegs_keeps

theorem execSt_form {x} {s : State} (h : s.Form) : OutForm (execSt x s) := by
  unfold execSt
  refine runCore_form (readEa_keeps.bind fun a => ?_) h
  split
  · exact readC_keeps.bind fun _ => storeInt_keeps

theorem execStf_form {x} {s : State} (h : s.Form) : OutForm (execStf x s) := by
  unfold execStf
  refine runCore_form (readEa_keeps.bind fun a => ?_) h
  split
  · exact readC_keeps.bind fun _ => storeFloat_keeps

theorem execLdi_form {x} {s : State} (h : s.Form) : OutForm (execLdi x s) := by
  unfold execLdi
  refine runCore_form (readEa_keeps.bind fun a => ?_) h
  split
  · exact loadInt_keeps.bind fun _ => writeOpd_keeps.bind fun _ => writeBack_keeps

theorem execSti_form {x} {s : State} (h : s.Form) : OutForm (execSti x s) := by
  unfold execSti
  refine runCore_form (readEa_keeps.bind fun a => ?_) h
  split
  · exact readC_keeps.bind fun _ => storeInt_keeps.bind fun _ => writeBack_keeps

theorem execLdfi_form {x} {s : State} (h : s.Form) : OutForm (execLdfi x s) := by
  unfold execLdfi
  refine runCore_form (readEa_keeps.bind fun a => ?_) h
  split
  · exact loadFloat_keeps.bind fun _ => writeOpd_keeps.bind fun _ => writeBack_keeps

theorem execStfi_form {x} {s : State} (h : s.Form) : OutForm (execStfi x s) := by
  unfold execStfi
  refine runCore_form (readEa_keeps.bind fun a => ?_) h
  split
  · exact readC_keeps.bind fun _ => storeFloat_keeps.bind fun _ => writeBack_keeps

theorem execZline_form {x} {s : State} (h : s.Form) : OutForm (execZline x s) := by
  unfold execZline
  refine runCore_form (readEa_keeps.bind fun a => ?_) h
  split
  · exact storeAt_keeps

theorem execLdo_form {x} {s : State} (h : s.Form) : OutForm (execLdo x s) := by
  unfold execLdo
  refine runCore_form (readEa_keeps.bind fun a => ?_) h
  split
  · exact loadAt_keeps.bind fun _ => modRegs_keeps

theorem execSto_form {x} {s : State} (h : s.Form) : OutForm (execSto x s) := by
  unfold execSto
  refine runCore_form (readEa_keeps.bind fun a => ?_) h
  split
  · exact getRegs_keeps.bind fun r => storeAt_keeps

theorem execLdpi_form {x} {s : State} (h : s.Form) : OutForm (execLdpi x s) := by
  unfold execLdpi
  refine runCore_form (readEa_keeps.bind fun a => ?_) h
  split
  · exact loadPair_keeps.bind fun _ => writeBack_keeps

theorem execStpi_form {x} {s : State} (h : s.Form) : OutForm (execStpi x s) := by
  unfold execStpi
  refine runCore_form (readEa_keeps.bind fun a => ?_) h
  split
  · exact storePair_keeps.bind fun _ => writeBack_keeps

theorem moveForward_keeps {x} : (moveForward x).Keeps :=
  readOpd_keeps.bind fun d => readA_keeps.bind fun s => readB_keeps.bind fun n => keeps_ite (fun _ => pure_keeps) fun _ =>
    loadRange_keeps.bind fun t => storeRange_keeps.bind fun _ => modRegs_keeps.bind fun _ => pure_keeps

theorem moveBackward_keeps {x} : (moveBackward x).Keeps :=
  readOpd_keeps.bind fun d => readA_keeps.bind fun s => readB_keeps.bind fun n => keeps_ite (fun _ => pure_keeps) fun _ =>
    loadRange_keeps.bind fun t => storeRange_keeps.bind fun _ => modRegs_keeps.bind fun _ => pure_keeps

theorem fillPiece_keeps {x} : (fillPiece x).Keeps :=
  readOpd_keeps.bind fun d => readA_keeps.bind fun _ => readB_keeps.bind fun n => keeps_ite (fun _ => pure_keeps) fun _ =>
    storeAt_keeps.bind fun _ => modRegs_keeps.bind fun _ => pure_keeps

theorem execSpcast_form {x} {s : State} (h : s.Form) : OutForm (execSpcast x s) := by
  unfold execSpcast
  refine runCore_form (readA_keeps.bind fun a => getState_keeps.bind fun s1 => ?_) h
  extract_lets q c acc
  split
  · exact keeps_ite (fun _ => writeOpd_keeps) fun _ => faultAcc_keeps
  · refine keeps_ite (fun _ => writeOpd_keeps) fun _ => ?_
    split
    · exact writeOpd_keeps
    · exact keeps_ite (fun _ => writeOpd_keeps) fun _ => faultAcc_keeps

end Sys2Proof.Machine
end

section
/-!
SUPPORT, of O60. What `Machine/Medium.lean` does keeps the canonical form of the memory: the medium instructions and
the frames of a port.
-/
namespace Sys2Proof.Machine

theorem readLocal_keeps {a n} : (readLocal a n).Keeps :=
  getState_keeps.bind fun s => keeps_when faultAcc_keeps fun _ => keeps_when faultAcc_keeps fun _ => loadAt_keeps

theorem queueRoom_keeps {port} : (queueRoom port).Keeps := by
  unfold queueRoom
  refine getState_keeps.bind fun s => keeps_ite (fun _ => needs_keeps) fun _ => keeps_ite (fun _ =>
    stallWith_keeps (fun u hu => ?_)) fun _ => pure_keeps
  extract_lets s1 k2
  have hs1 : s1.Form := State.unwait_form hu
  exact State.setMe_form hs1

theorem exchangeBody_keeps {opc x} :
    (exchangeBody opc x).Keeps := by
  unfold exchangeBody
  refine readA_keeps.bind fun a => readLocal_keeps.bind fun bs => getState_keeps.bind fun s => ?_
  extract_lets p rs held leave ranges lapsed epoch secure trunk limit enabled
  have hleave : ∀ b, (leave b).Keeps := fun _ => roomForP_keeps.bind fun _ => queueRoom_keeps.bind fun _ => atCommit_keeps
  have hranges : ∀ b, (ranges b).Keeps := fun _ =>
    (forIn_keeps fun _ _ => checkBuf_keeps.bind fun _ => pure_keeps).bind fun _ =>
    (forIn_keeps fun _ _ => checkSide_keeps.bind fun _ => pure_keeps).bind fun _ => keeps_when faultIp_keeps hleave
  have hlapsed : ∀ b, (lapsed b).Keeps := fun _ => keeps_when faultIp_keeps hranges
  have hepoch : ∀ b, (epoch b).Keeps := fun _ => keeps_when faultIp_keeps hlapsed
  have hsecure : ∀ b, (secure b).Keeps := fun _ => keeps_when faultIp_keeps hepoch
  have htrunk : ∀ b, (trunk b).Keeps := fun _ => keeps_when faultIp_keeps hsecure
  have hlimit : ∀ b, (limit b).Keeps := by
    intro b
    unfold limit
    clear_value trunk
    split
    · exact faultIp_keeps.bind htrunk
    · exact htrunk ()
  clear_value limit
  have henabled : ∀ b, (enabled b).Keeps := fun _ => keeps_when faultIp_keeps hlimit
  clear_value enabled
  split
  · exact henabled ()
  · exact throwTrap_keeps.bind henabled

theorem execBarr_form {x} {s : State} (h : s.Form) : OutForm (execBarr x s) :=
  runCore_form (getState_keeps.bind fun _ => keeps_when faultIp_keeps fun a => queueRoom_keeps.bind fun _ =>
    atCommit_keeps) h

theorem execBchk_form {x} {s : State} (h : s.Form) : OutForm (execBchk x s) := by
  unfold execBchk
  refine runCore_form (readA_keeps.bind fun k => getState_keeps.bind fun s1 => keeps_when throwTrap_keeps fun a =>
    checkBuf_keeps.bind fun a1 => checkSide_keeps.bind fun a2 => roomForP_keeps.bind fun a3 => keeps_when stallWait_keeps
    fun a4 => ?_) h
  extract_lets key ws
  split
  · exact atCommit_keeps
  · exact modRegs_keeps.bind fun _ => writeOpd_keeps

theorem State.useHandle_form {s : State} {b} (h : s.Form) : (s.useHandle b).Form := h

theorem execBkey_form {x} {s : State} (h : s.Form) : OutForm (execBkey x s) := by
  unfold execBkey
  refine runCore_form (readA_keeps.bind fun a => getState_keeps.bind fun s1 => keeps_when faultIp_keeps fun a1 =>
    keeps_when faultIp_keeps fun a2 => keeps_when faultIp_keeps fun a3 => ?_) h
  beta_reduce
  split
  · exact faultIp_keeps
  · exact modState_keeps (fun u hu => State.useHandle_form (State.setPort_form hu))

theorem execBenrol_form {x} {s : State} (h : s.Form) : OutForm (execBenrol x s) := by
  unfold execBenrol
  refine runCore_form (readA_keeps.bind fun a => getState_keeps.bind fun s1 => ?_) h
  extract_lets port p
  split
  · exact modState_keeps (fun u hu => State.setPort_form hu)
  · exact faultIp_keeps
  · exact stallWait_keeps
  · refine readLocal_keeps.bind fun a2 => keeps_when faultIp_keeps fun a3 => keeps_when faultIp_keeps fun a4 =>
      keeps_when faultIp_keeps fun a5 => stallWith_keeps (fun u hu => ?_)
    extract_lets k1 s2 s3 k4
    have hs2 : s2.Form := State.setPort_form hu
    have hs3 : s3.Form := form_ite (fun _ => State.useHandle_form hs2) fun _ => hs2
    exact State.setMe_form hs3

theorem State.leaveSegment_form {s : State} {port} (h : s.Form) : (s.leaveSegment port).Form :=
  form_foldl (State.setPort_form h) fun u a hu => State.exchFail_form hu

theorem execBleave_form {x} {s : State} (h : s.Form) : OutForm (execBleave x s) := by
  unfold execBleave
  refine runCore_form (getState_keeps.bind fun s1 => keeps_when (stallWith_keeps (fun u hu => ?_)) fun a =>
    modState_keeps (fun u hu => State.leaveSegment_form hu)) h
  extract_lets q s2 k3
  have hs2 : s2.Form := State.setPort_form hu
  exact State.setMe_form hs2

theorem State.enrolFrame_form {s : State} {port t w key f} (h : s.Form) : (s.enrolFrame port t w key f).Form :=
  form_ite (fun _ => State.setPort_form h) fun _ => form_ite (fun _ => State.setPort_form h) fun _ => h

theorem State.exchSignal_form {s : State} {e flags} (h : s.Form) : (s.exchSignal e flags).Form :=
  State.engineSignal_form (State.updCore_form h)

theorem State.rekey_form {s : State} {port} (h : s.Form) : (s.rekey port).Form :=
  form_foldl (State.setPort_form h) fun u a hu => State.exchSignal_form (State.dropExch_form hu)

theorem State.portStop_form {s : State} {port} (h : s.Form) : (s.portStop port).Form := by
  unfold State.portStop
  extract_lets q ts s1 k4 s2
  have hs1 : s1.Form := form_foldl h fun u a hu => State.exchFail_form hu
  have hs2 : s2.Form := State.setPort_form hs1
  exact form_foldl (State.logCheck_form hs2) fun u a hu => State.pendCore_form hu

theorem State.startTrunk_form {s : State} {e} (h : s.Form) : (s.startTrunk e).Form := by
  unfold State.startTrunk
  refine form_ite (fun _ => h) fun _ => ?_
  extract_lets s1 up
  have hs1 : s1.Form := State.setPort_form h
  exact State.queueExch_form hs1

theorem State.judge_form {s : State} {port f} (h : s.Form) : (s.judge port f).Form := by
  unfold State.judge
  extract_lets p fl s1 p1 rej
  have hs1 : s1.Form := State.setPort_form h
  split
  · exact hs1
  · split
    · exact hs1
    · refine form_ite (fun _ => State.portStop_form hs1) fun _ => form_ite (fun _ => ?_) fun _ => ?_
      · extract_lets e3 s2
        have hs2 : s2.Form := State.setPort_form hs1
        exact form_ite (fun _ => hs2) fun _ => State.startTrunk_form hs2
      · extract_lets n e3 s2 p2 back
        have hs2 : s2.Form := State.setPort_form hs1
        exact form_ite (fun _ => State.failFrom_form hs2) fun _ => State.setPort_form hs2

theorem State.aborts_form {s : State} {port f} (h : s.Form) : (s.aborts port f).Form := by
  unfold State.aborts
  extract_lets p
  split
  · exact State.setPort_form h
  · exact form_ite (fun _ => State.failFrom_form h) fun _ => form_ite (fun _ => State.failFrom_form h) fun _ => h

theorem State.rekeyClash_form {s : State} {port f} (h : s.Form) : (s.rekeyClash port f).Form := by
  unfold State.rekeyClash
  extract_lets p others
  split
  · exact form_ite (fun _ => State.failFrom_form h) fun _ => h
  · exact h

theorem State.sliceStarted_form {s : State} {t} (h : s.Form) : (s.sliceStarted t).Form := by
  unfold State.sliceStarted
  split
  · exact State.setLaunch_form h
  · exact h

theorem State.sigClash_form {s : State} {port f} (h : s.Form) : (s.sigClash port f).Form := by
  unfold State.sigClash
  extract_lets p
  split
  · exact form_ite (fun _ => State.setPort_form h) fun _ => h
  · exact h

theorem State.sendPeriod_form {s : State} {port f} (h : s.Form) : (s.sendPeriod port f).Form := by
  unfold State.sendPeriod
  extract_lets p tl k3
  split
  · exact h
  · refine form_ite (fun _ => h) fun _ => form_ite (fun _ => State.failFrom_form h) fun _ => ?_
    split
    · exact State.pendCore_form (State.logCheck_form (State.setPort_form h))
    · exact State.setPort_form (State.sliceStarted_form h)

theorem State.keeperLight_form {s : State} {port} (h : s.Form) : (s.keeperLight port).Form := State.setPort_form h

theorem State.enrolledFrame_form {s : State} {port f} (h : s.Form) : (s.enrolledFrame port f).Form := by
  unfold State.enrolledFrame
  extract_lets s1 p s2 s3 s4
  have hs1 : s1.Form := State.rearm_form h
  have hs2 : s2.Form := State.setPort_form hs1
  have hs3 : s3.Form := form_ite (fun _ => State.rekey_form hs2) fun _ => hs2
  have hs4 : s4.Form := State.judge_form hs3
  exact form_ite (fun _ => hs4) fun _ => State.rearm_form (State.sendPeriod_form (State.sigClash_form
    (State.rekeyClash_form (State.aborts_form (State.keeperLight_form hs4)))))

theorem State.mediumFrame_form {s : State} {port f} (h : s.Form) : (s.mediumFrame port f).Form := by
  unfold State.mediumFrame
  refine form_ite (fun _ => h) fun _ => ?_
  extract_lets p s1 k3
  have hs1 : s1.Form := State.setPort_form h
  split
  · exact State.enrolFrame_form (State.setPort_form hs1)
  · exact form_ite (fun _ => hs1) fun _ => State.enrolledFrame_form hs1

theorem State.ownFrames_form {s : State} (h : s.Form) : s.ownFrames.Form := by
  unfold State.ownFrames
  refine form_foldl h fun u a hu => form_ite (fun _ => ?_) fun _ => hu
  extract_lets k1
  have hk1 : k1.Form := State.mediumFrame_form hu
  exact hk1

theorem execMediumFrame_form {port f} {s : State} (h : s.Form) : OutForm (execMediumFrame port f s) :=
  outForm_next (State.mediumFrame_form h)

theorem State.exchangeDone_form {s : State} {port other} (h : s.Form) : (s.exchangeDone port other).Form := by
  unfold State.exchangeDone
  extract_lets p tl
  split
  · exact h
  · refine form_ite (fun _ => h) fun _ => ?_
    split
    · extract_lets s1 q
      have hs1 : s1.Form := State.rearm_form (State.dropExch_form h)
      split
      · exact State.rearm_form (State.setPort_form hs1)
      · exact hs1
    · exact form_ite (fun _ => State.rearm_form (State.exchSignal_form (State.dropExch_form h))) fun _ =>
        State.rearm_form (State.exchSignal_form (State.dropExch_form (State.commitBytes_form (State.commitBytes_form
        (State.commitBytes_form h)))))

end Sys2Proof.Machine
end

section
/-!
SUPPORT, of O60. What `Machine/Stoch.lean` does keeps the canonical form of the memory: stochastic streams.
-/
namespace Sys2Proof.Machine

theorem zBuf_keeps {a m align wr} : (zBuf a m align wr).Keeps :=
  .bind (forIn_keeps fun i _ => keeps_when bufFault_keeps fun _ => checkBuf_keeps.bind fun _ => keeps_when faultAcc_keeps
    fun _ => checkSide_keeps.bind fun _ => pure_keeps) fun _ => getState_keeps.bind fun s => pure_keeps

theorem zIssue_keeps {x kind qs cls lc} : (zIssue x kind qs cls lc).Keeps := modRegs_keeps.bind fun a => atCommit_keeps

theorem execZgen_form {x} {s : State} (h : s.Form) : OutForm (execZgen x s) := by
  unfold execZgen
  refine runCore_form (readA_keeps.bind fun a => ?_) h
  extract_lets lc g k3
  have hk3 : ∀ b, (k3 b).Keeps := fun _ => keeps_when addFlags_keeps fun _ => zIssue_keeps
  refine keeps_ite (fun _ => pure_keeps.bind hk3) fun _ => zBuf_keeps.bind fun a1 => ?_
  split
  · exact readPlace_keeps.bind fun _ => pure_keeps.bind hk3

theorem zChecks_keeps {kind srcs} : (zChecks kind srcs).Keeps :=
  getRegs_keeps.bind fun r => keeps_when faultIp_keeps fun a => keeps_when faultIp_keeps fun _ => keeps_ite (fun _ =>
    faultIp_keeps) fun _ => pure_keeps

theorem zBits_keeps {kind x} : (zBits kind x).Keeps :=
  zChecks_keeps.bind fun _ => getRegs_keeps.bind fun _ => zIssue_keeps

theorem zWait_keeps {k} : (zWait k).Keeps :=
  getState_keeps.bind fun s => keeps_ite (fun _ => stallWith_keeps (fun u hu => hu)) fun _ => pure_keeps

theorem execZcnt_form {x} {s : State} (h : s.Form) : OutForm (execZcnt x s) := by
  unfold execZcnt
  refine runCore_form (readB_keeps.bind fun b => zWait_keeps.bind fun a => getRegs_keeps.bind fun r => keeps_ite (fun _ =>
    zBuf_keeps.bind fun a1 => ?_) fun _ => writeOpd_keeps) h
  split
  · exact writePlace_keeps

theorem execZld_form {x} {s : State} (h : s.Form) : OutForm (execZld x s) := by
  unfold execZld
  refine runCore_form (readA_keeps.bind fun a => zWait_keeps.bind fun a1 => zBuf_keeps.bind fun a2 => ?_) h
  split
  · exact readPlace_keeps.bind fun _ => modRegs_keeps

theorem execZst_form {x} {s : State} (h : s.Form) : OutForm (execZst x s) := by
  unfold execZst
  refine runCore_form (readA_keeps.bind fun a => zWait_keeps.bind fun a1 => getRegs_keeps.bind fun r => zBuf_keeps.bind
    fun a2 => ?_) h
  split
  · exact writePlace_keeps

theorem State.stochDone_form {s : State} {t} (h : s.Form) : (s.stochDone t).Form := by
  unfold State.stochDone
  split
  · exact h
  · exact State.engineSignal_form (State.updCore_form (State.updTile_form h))

end Sys2Proof.Machine
end

section
/-!
SUPPORT, of O60. What `Machine/Sync.lean` does keeps the canonical form of the memory: fences, owner flips, semaphores
and votes.
-/
namespace Sys2Proof.Machine

theorem fenceBody_keeps {kind} : (fenceBody kind).Keeps := getRegs_keeps.bind fun _ => atCommit_keeps

theorem execFenceF_form {x} {s : State} (h : s.Form) : OutForm (execFenceF x s) := by
  unfold execFenceF
  refine runCore_form (getState_keeps.bind fun s1 => ?_) h
  extract_lets k1 k2
  have hk1 : ∀ b, (k1 b).Keeps := fun a => atCommit_keeps.bind fun _ => fenceBody_keeps
  have hk2 : ∀ b, (k2 b).Keeps := fun a => keeps_ite (fun _ => faultIp_keeps.bind hk1) fun _ => hk1 ()
  exact keeps_ite (fun _ => needEmpty_keeps.bind fun a => .bind (stallWith_keeps (fun u hu =>
    State.preciseTrap_form (State.setMe_form hu))) hk2) fun _ => hk2 ()

theorem flipRange_keeps {a n} : (flipRange a n).Keeps :=
  getState_keeps.bind fun s => keeps_ite (fun _ => keeps_when bufFault_keeps fun _ => pure_keeps) fun _ =>
    keeps_when bufFault_keeps fun _ => keeps_when bufFault_keeps fun _ => pure_keeps

theorem execGive_form {x} {s : State} (h : s.Form) : OutForm (execGive x s) :=
  runCore_form (readA_keeps.bind fun a => readB_keeps.bind fun n => flipRange_keeps.bind fun _ => atCommit_keeps) h

theorem State.flipIdle_form {s : State} {slabs} (h : s.Form) : (s.flipIdle slabs).Form := State.flip_form h

theorem execTake_form {x} {s : State} (h : s.Form) : OutForm (execTake x s) := by
  unfold execTake
  refine runCore_form (readA_keeps.bind fun a => readB_keeps.bind fun n => flipRange_keeps.bind fun slabs =>
    .bind (modState_keeps (fun u hu => State.flipIdle_form hu)) fun a1 => getState_keeps.bind fun s1 =>
    keeps_ite (fun _ => stallWith_keeps (fun u hu => ?_)) fun _ => pure_keeps) h
  extract_lets s2 k2
  have hs2 : s2.Form := State.flipIdle_form hu
  exact State.setMe_form hs2

theorem execTtake_form {x} {s : State} (h : s.Form) : OutForm (execTtake x s) :=
  runCore_form (readA_keeps.bind fun a => readB_keeps.bind fun n => flipRange_keeps.bind fun _ =>
    .bind (modState_keeps (fun u hu => State.flipIdle_form hu)) fun _ => getState_keeps.bind fun _ => writeOpd_keeps) h

theorem execOwnr_form {x} {s : State} (h : s.Form) : OutForm (execOwnr x s) :=
  runCore_form (readA_keeps.bind fun a => keeps_when bufFault_keeps fun _ => getState_keeps.bind fun _ =>
    addReads_keeps.bind fun _ => writeOpd_keeps) h

theorem semNow_keeps {x} : (semNow x).Keeps := getState_keeps.bind fun s => pure_keeps
theorem semPut_keeps {x v ovf} : (semPut x v ovf).Keeps := modState_keeps (fun u hu => State.updTile_form hu)

theorem execSemadd_form {x} {s : State} (h : s.Form) : OutForm (execSemadd x s) :=
  runCore_form (readA_keeps.bind fun _ => semNow_keeps.bind fun _ => semPut_keeps.bind fun _ => writeOpd_keeps) h

theorem execSemtry_form {x} {s : State} (h : s.Form) : OutForm (execSemtry x s) :=
  runCore_form (readA_keeps.bind fun k => semNow_keeps.bind fun _ => keeps_ite (fun _ => semPut_keeps.bind fun _ =>
    writeOpd_keeps) fun _ => writeOpd_keeps) h

theorem execSemwait_form {x} {s : State} (h : s.Form) : OutForm (execSemwait x s) :=
  runCore_form (readA_keeps.bind fun k => keeps_ite (fun _ => getState_keeps.bind fun a => keeps_ite (fun _ =>
    modState_keeps (fun u hu => State.setMe_form hu)) fun _ => stallWith_keeps (fun u hu => State.setMe_form hu)) fun _ =>
    pure_keeps) h

theorem voteBody_keeps {isV x} : (voteBody isV x).Keeps := by
  unfold voteBody
  refine readA_keeps.bind fun a => getState_keeps.bind fun a1 => ?_
  extract_lets c scope kind
  split
  · split
    · exact .bind (modState_keeps (fun u hu => State.setMe_form hu)) fun _ => writeOpd_keeps
    · exact stallWith_keeps (fun u hu => hu)
  · refine stallWith_keeps (fun u hu => ?_)
    extract_lets c1 k s
    have hs : s.Form := State.setMe_form hu
    split
    · exact State.voteSettle_form hs
    · exact hs

end Sys2Proof.Machine
end

section
/-!
SUPPORT, of O60. What `Machine/Context.lean` does keeps the canonical form of the memory: control registers and a
core's save area.
-/
namespace Sys2Proof.Machine

theorem State.saveArea_form {s : State} {t k aux} (h : s.Form) : (s.saveArea t k aux).Form := by
  unfold State.saveArea
  extract_lets s1
  have hs1 : s1.Form := State.commitWords_form h
  exact form_ite (fun _ => State.commitWords_form hs1) fun _ => hs1

theorem State.loadArea_form {s : State} {t k} (h : s.Form) : (s.loadArea t k).Form := by
  unfold State.loadArea
  extract_lets w g vs s1
  have hs1 : s1.Form := h
  exact State.updCore_form hs1

end Sys2Proof.Machine
end

section
/-!
SUPPORT, of O60. What `Machine/System.lean` does keeps the canonical form of the memory: the system instructions.
-/
namespace Sys2Proof.Machine

theorem refuseValue_keeps : refuseValue.Keeps := fun u hu => leaves_trap
theorem needPriv_keeps {priv} : (needPriv priv).Keeps := keeps_ite (fun _ => pure_keeps) fun _ => faultIp_keeps

theorem wrcBody_keeps {x} : (wrcBody x).Keeps := by
  unfold wrcBody
  refine readA_keeps.bind fun v => getState_keeps.bind fun s => ?_
  extract_lets priv k2 n k4
  have hk2 : ∀ b, (k2 b).Keeps := fun _ => modRegs_keeps
  have hk4 : ∀ b, (k4 b).Keeps := fun _ => modRegs_keeps
  split
  · exact modRegs_keeps
  · exact keeps_ite (fun _ => refuseValue_keeps.bind hk2) fun _ => hk2 ()
  · exact modRegs_keeps
  · exact modRegs_keeps
  · exact needPriv_keeps.bind fun _ => keeps_ite (fun _ => refuseValue_keeps.bind hk4) fun _ => hk4 ()
  · exact modRegs_keeps
  · exact modRegs_keeps
  · exact needPriv_keeps.bind fun _ => modRegs_keeps
  · exact needPriv_keeps.bind fun _ => modRegs_keeps
  · exact modRegs_keeps
  · exact needPriv_keeps.bind fun _ => modRegs_keeps
  · exact needPriv_keeps.bind fun _ => keeps_ite (fun _ => modRegs_keeps) fun _ => pure_keeps
  · exact pure_keeps

theorem execWrcCspill_form {x} {s : State} (h : s.Form) : OutForm (execWrcCspill x s) :=
  runCore_form (readA_keeps.bind fun _ => getState_keeps.bind fun _ => keeps_when faultIp_keeps fun a =>
    keeps_when faultIp_keeps fun _ => modRegs_keeps) h

theorem execWrcCras_form {x} {s : State} (h : s.Form) : OutForm (execWrcCras x s) :=
  runCore_form (readA_keeps.bind fun _ => getRegs_keeps.bind fun _ => keeps_when faultIp_keeps fun _ => modRegs_keeps) h

theorem execCtxload_form {x} {s : State} (h : s.Form) : OutForm (execCtxload x s) :=
  runCore_form (getState_keeps.bind fun _ => checkTail_keeps.bind fun a => keeps_when checkTail_keeps fun _ =>
    modState_keeps (fun u hu => State.loadArea_form hu)) h

theorem execTlbip_form {x} {s : State} (h : s.Form) : OutForm (execTlbip x s) :=
  runCore_form (readA_keeps.bind fun a => keeps_when faultAcc_keeps fun _ => getState_keeps.bind fun _ =>
    atCommit_keeps) h

theorem execAptset_form {x} {s : State} (h : s.Form) : OutForm (execAptset x s) :=
  runCore_form (readA_keeps.bind fun _ => readOpd_keeps.bind fun _ => keeps_when refuseValue_keeps fun a =>
    atCommit_keeps) h

theorem execAptrd_form {x} {s : State} (h : s.Form) : OutForm (execAptrd x s) := by
  unfold execAptrd
  refine runCore_form (getState_keeps.bind fun s1 => ?_) h
  split
  · exact modRegs_keeps.bind fun _ => writeOpd_keeps

theorem execTickwait_form {x} {s : State} (h : s.Form) : OutForm (execTickwait x s) := by
  unfold execTickwait
  refine runCore_form (getState_keeps.bind fun s1 => keeps_ite (fun _ => modState_keeps (fun u hu => State.setMe_form hu))
    fun _ => stallWith_keeps (fun u hu => ?_)) h
  extract_lets s2 k2 s3
  have hs2 : s2.Form := form_ite (fun _ => hu) fun _ => State.noteReady_form hu
  have hs3 : s3.Form := State.setMe_form hs2
  split
  · exact State.groupCheck_form hs3
  · exact hs3

theorem cancelNamed_keeps {x level found} : (cancelNamed x level found).Keeps := by
  unfold cancelNamed
  refine writeOpd_keeps.bind fun a => ?_
  split
  · exact atCommit_keeps
  · exact pure_keeps

theorem execCanp_form {x} {s : State} (h : s.Form) : OutForm (execCanp x s) := by
  unfold execCanp
  refine runCore_form (getState_keeps.bind fun s1 => ?_) h
  split
  · exact atCommit_keeps
  · exact pure_keeps

end Sys2Proof.Machine
end

section
/-!
SUPPORT, of O60. What `Machine/Event.lean` does keeps the canonical form of the memory: asynchronous events of a core.
-/
namespace Sys2Proof.Machine

theorem State.boundary_form {s : State} {t k} (h : s.Form) : SumForm (s.boundary t k) := by
  unfold State.boundary
  refine pred_ite (P := SumForm) (fun _ => sumForm_inl h) fun _ => ?_
  split
  · refine pred_ite (P := SumForm) (fun _ => sumForm_inr h) fun _ => ?_
    extract_lets s1
    have hs1 : s1.Form := State.tryCommit_form (State.setCore_form h)
    exact pred_ite (P := SumForm) (fun _ => sumForm_inr hs1) fun _ => sumForm_inl hs1
  · exact sumForm_inr h

theorem State.takeAsync_form {s : State} {t k i} (h : s.Form) : (s.takeAsync t k i).Form := by
  unfold State.takeAsync
  extract_lets s1 r
  have hs1 : s1.Form := State.dropToken_form (State.restoreWait_form h)
  exact State.enterTrap_form hs1

theorem State.forceSave_form {s : State} {t k} (h : s.Form) : (s.forceSave t k).Form := by
  unfold State.forceSave
  refine form_ite (fun _ => State.stopCore_form (State.dropToken_form h)) fun _ => ?_
  split
  · exact State.cancelAll_form h
  · exact h

theorem State.unmeasured_form {s : State} {t} (h : s.Form) : (s.unmeasured t).Form := by
  unfold State.unmeasured
  split
  · exact State.setLaunch_form h
  · exact h

theorem State.takeItem_form {s : State} {t k n} (h : s.Form) : (s.takeItem t k n).Form := by
  unfold State.takeItem
  extract_lets c
  split
  · split
    · exact h
    · exact State.takeAsync_form (State.setCore_form h)
  · exact State.taskEnd_form (State.dropToken_form (State.restoreWait_form h))
  · exact State.forceSave_form h
  · split
    · exact State.takeAsync_form (State.setCore_form (form_ite (fun _ => State.unmeasured_form h) fun _ => h))
    · exact h

theorem State.event_form {s : State} {t k n} (h : s.Form) : (s.event t k n).Form := by
  unfold State.event
  refine form_ite (fun _ => h) fun _ => ?_
  split
  · rename_i e
    exact (State.boundary_form h).1 _ e
  · rename_i e
    exact form_ite (fun _ => State.takeItem_form ((State.boundary_form h).2 _ e)) fun _ => (State.boundary_form h).2 _ e

theorem execTickSlip_form {t k} {s : State} (h : s.Form) : OutForm (execTickSlip t k s) :=
  outForm_next (State.event_form h)

theorem execCancel_form {t k} {s : State} (h : s.Form) : OutForm (execCancel t k s) := outForm_next (State.event_form h)

theorem State.cancelStop_form {s : State} {t k} (h : s.Form) : (s.cancelStop t k).Form := by
  unfold State.cancelStop
  refine form_ite (fun _ => h) fun _ => ?_
  split
  · exact State.event_form h
  · exact State.taskEnd_form h
  · exact form_ite (fun _ => h) fun _ => State.taskEnd_form h
  · exact h

theorem execCancelStop_form {t k} {s : State} (h : s.Form) : OutForm (execCancelStop t k s) :=
  outForm_next (State.cancelStop_form h)

theorem execPreemptForced_form {t k} {s : State} (h : s.Form) : OutForm (execPreemptForced t k s) :=
  outForm_next (State.event_form h)

theorem execChunkCommit_form {t k} {s : State} (h : s.Form) : OutForm (execChunkCommit t k s) :=
  outForm_next (form_ite (fun _ => State.tryCommit_form h) fun _ => h)

theorem State.atomicPerform_form {s : State} {t k} (h : s.Form) : (s.atomicPerform t k).Form := by
  unfold State.atomicPerform
  split
  · rename_i e
    extract_lets as
    split
    · exact PairForm.of_eq e (State.choose_form h)
    · exact State.performSome_form (PairForm.of_eq e (State.choose_form h))

theorem execAtomicPerform_form {t k} {s : State} (h : s.Form) : OutForm (execAtomicPerform t k s) :=
  outForm_next (State.atomicPerform_form h)

theorem State.semGrant_form {s : State} {t} (h : s.Form) : (s.semGrant t).Form := by
  unfold State.semGrant
  extract_lets x meets
  split
  · exact h
  · extract_lets c
    split
    · extract_lets k11 k2
      have hk2 : k2.Form := State.setTile_form h
      exact hk2
    · exact h

theorem State.semOverflow_form {s : State} {t} (h : s.Form) : (s.semOverflow t).Form := by
  unfold State.semOverflow
  extract_lets x s1
  have hs1 : s1.Form := State.setTile_form h
  split
  · exact h
  · split
    · exact State.updCore_form hs1
    · exact State.count_form hs1

theorem State.walkAnswer_form {s : State} {t k m} (h : s.Form) : (s.walkAnswer t k m).Form := by
  unfold State.walkAnswer
  refine State.updCore_form (PairForm.snd ?_)
  split
  · rename_i e1
    exact pairForm_mk (OkForm.of_eq e1 (State.walkFor_form h))
  · exact pairForm_mk h

theorem State.walkSolo_form {s : State} {t k m} (h : s.Form) : (s.walkSolo t k m).Form := by
  unfold State.walkSolo
  extract_lets c q
  split
  · exact State.shield_form (State.walkAnswer_form h) h
  · exact State.walkAnswer_form h

theorem State.walkDone_form {s : State} {t ctx va write} (h : s.Form) : (s.walkDone t ctx va write).Form :=
  form_foldl h fun u a hu => form_foldl hu fun u1 a1 hu1 => form_ite (fun _ => form_foldl hu1 fun u2 a2 hu2 =>
    form_ite (fun _ => State.walkSolo_form hu2) fun _ => State.walkAnswer_form hu2) fun _ => hu1

theorem execTranslationWalk_form {die n ctx va write} {s : State} (h : s.Form) : OutForm
    (execTranslationWalk die n ctx va write s) :=
  outForm_next (form_ite (fun _ => State.walkDone_form h) fun _ => h)

theorem State.arbiterCheck_form {s : State} {row c} (h : s.Form) : (s.arbiterCheck row c).Form :=
  form_foldl h fun u a hu => form_foldl hu fun u1 a1 hu1 => State.pendCore_form (State.squash_form hu1)

theorem State.linkCheck_form {s : State} {c} (h : s.Form) : (s.linkCheck c).Form := by
  unfold State.linkCheck
  extract_lets s1 k2
  have hs1 : s1.Form := form_foldl h fun u a hu => State.pendCore_form hu
  exact hs1

theorem State.machineCheck_form {s : State} {c} (h : s.Form) : (s.machineCheck c).Form :=
  form_ite (fun _ => form_ite (fun _ => State.portStop_form h) fun _ => h) fun _ => form_ite (fun _ =>
    State.linkCheck_form (State.logCheck_form h)) fun _ => form_ite (fun _ =>
    State.arbiterCheck_form (State.logCheck_form h)) fun _ => h

end Sys2Proof.Machine
end

section
/-!
SUPPORT, of O60. What `Machine/Launch.lean` does keeps the canonical form of the memory: launches and the placing of a
watch.
-/
namespace Sys2Proof.Machine

theorem State.gBytes_form {s : State} {j va n} (h : s.Form) :
    OkForm (s.gBytes j va n) := by
  unfold State.gBytes
  refine okForm_foldlM h fun a u b hu => ?_
  obtain ⟨a, m⟩ := b
  dsimp only
  split
  · exact okForm_error
  · rename_i e
    exact okForm_ok ((State.gRead_form hu).of_eq e)

theorem State.gStore_form {s : State} {j va bs} (h : s.Form) : (s.gStore j va bs).Form :=
  form_foldl h fun u a hu => State.gPut_form hu

theorem State.dispatch_form {s : State} {j addr run} (h : s.Form) :
    PairForm (s.dispatch j addr run) := by
  unfold State.dispatch
  extract_lets l0 s1
  have hs1 : s1.Form := h
  split
  · have hn : ∀ f, (s1.noteBad f).Form := fun _ => State.noteBad_form hs1
    exact pairForm_mk (hn _)
  · rename_i bs u e
    have hu : u.Form := OkForm.of_eq e (State.gBytes_form hs1)
    extract_lets l bad faults causes s2 s3
    have hs2 : s2.Form := form_foldl hu fun _ _ hu => State.noteBad_form hu
    have hs3 : s3.Form := State.launchState_form (State.launchCounts_form hs2)
    clear_value causes
    split
    · exact pairForm_mk hs3
    · exact pairForm_mk (State.launchState_form (State.setLaunch_form hs3))

theorem State.wipeTile_form {s : State} {t} (h : s.Form) :
    (s.wipeTile t).Form := by
  unfold State.wipeTile
  extract_lets x kept mem gone mem1 lo s1 s2 k9
  have hmem : smWf 0 mem1 = true :=
    List.foldlRecOn (motive := fun m => smWf 0 m = true) gone _ (smWf_smClear h) fun m hm _ _ => smWf_smClear hm
  have hs1 : s1.Form := hmem
  exact State.setTile_form (State.conflict_form hs1)

theorem State.spillOwn_form {s : State} {t jid vtn} (h : s.Form) : (s.spillOwn t jid vtn).Form :=
  form_foldl h fun u a hu => form_ite (fun _ => State.engineSpill_form hu) fun _ => hu

theorem State.placeWatch_form {s : State} {l j grid t sel img} (h : s.Form) : (s.placeWatch l j grid t sel img).Form := by
  unfold State.placeWatch
  extract_lets d vtn gang s1 lm
  have hs1 : s1.Form := State.commitBytes_form (State.wipeTile_form (State.spillOwn_form h))
  exact State.updTile_form hs1

theorem State.slipLate_form {s : State} {id} (h : s.Form) : (s.slipLate id).Form := by
  unfold State.slipLate
  split
  · split
    · exact form_ite (fun _ => State.pendGroup_form (State.setLaunch_form h)) fun _ => h
    · exact h
  · exact h

theorem State.placeLaunch_form {s : State} {l} (h : s.Form) :
    SomeForm (s.placeLaunch l) := by
  unfold State.placeLaunch
  refine someForm_bind fun j => someForm_bind fun ts => ?_
  split
  · exact someForm_some (State.refuseRun_form (State.launchState_form (State.setLaunch_form (State.noteBad_form h))))
  · rename_i e
    have hi := (State.gBytes_form h).of_eq e
    split
    rename_i e1
    have hs : State.Form _ := PairForm.of_eq e1 (by
      split
      · exact pairForm_mk hi
      · exact pairForm_mk (State.noteBad_form hi))
    extract_lets s0 grp l1 s1 s2
    have hs2 : s2.Form := State.slipLate_form
      (form_foldl (State.launchState_form (State.setLaunch_form hs)) fun u2 a4 hu => State.placeWatch_form hu)
    refine someForm_some (form_ite (fun _ => ?_) fun _ => hs2)
    exact form_foldl hs2 fun _ _ hu => State.watchExit_form hu

theorem execLaunchDispatch_form {jid addr} {s : State} (h : s.Form) : OutForm (execLaunchDispatch jid addr s) := by
  unfold execLaunchDispatch
  refine outForm_next ?_
  split
  · exact (State.dispatch_form h).snd
  · exact h

end Sys2Proof.Machine
end

section
/-!
SUPPORT, of O60. What `Machine/Save.lean` does keeps the canonical form of the memory: saving and restoring a watch.
-/
namespace Sys2Proof.Machine

theorem spillAll_keeps : spillAll.Keeps :=
  getRegs_keeps.bind fun r => .bind (forIn_keeps fun e a => getRegs_keeps.bind fun _ => storeRange_keeps.bind fun _ =>
    modRegs_keeps.bind fun _ => pure_keeps) fun _ => keeps_ite (fun _ => spillWindow_keeps) fun _ => pure_keeps

theorem State.spillCore_form {s : State} {t k} (h : s.Form) : (s.spillCore t k).Form := by
  unfold State.spillCore
  extract_lets s1 k2 s11
  have hs1 : s1.Form := h
  have hs11 : s11.Form := State.setMe_form hs1
  split
  · rename_i e
    extract_lets k1
    have hk1 : k1.Form := State.commitChunk_form (Exec.Keeps.ok spillAll_keeps hs11 e)
    exact hk1
  · split
    · exact State.cancelAll_form h
    · exact h
  · exact h

theorem State.saveCore_form {s : State} {t k} (h : s.Form) : (s.saveCore t k).Form := by
  unfold State.saveCore
  refine form_ite (fun _ => h) fun _ => ?_
  extract_lets s1
  have hs1 : s1.Form := State.spillCore_form h
  exact State.saveArea_form hs1

theorem State.saveTail_form {s : State} {t} (h : s.Form) : (s.saveTail t).Form :=
  State.commitWords_form (State.commitWords_form (State.commitWords_form h))

theorem State.streamOut_form {s : State} {j t buf ofs n va} (h : s.Form) : (s.streamOut j t buf ofs n va).Form := by
  unfold State.streamOut
  refine form_foldl h fun u a hu => ?_
  extract_lets key
  split
  · extract_lets s1
    have hs1 : s1.Form := State.logCheck_form hu
    exact form_getD_map hs1 fun a2 => State.cancelAll_form hs1
  · exact State.gStore_form hu

theorem State.saveRecord_form {s : State} {j t vtn} (h : s.Form) : (s.saveRecord j t vtn).Form := by
  unfold State.saveRecord
  extract_lets base x put src abs s1 s2 s3 s4 s5 s6 s7 s8
  have hs1 : s1.Form := State.gStore_form h
  have hs2 : s2.Form := State.gStore_form hs1
  have hs3 : s3.Form := State.streamOut_form hs2
  have hs4 : s4.Form := State.streamOut_form hs3
  have hs5 : s5.Form := form_foldl hs4 fun u a hu => form_ite (fun _ => State.streamOut_form hu) fun _ => hu
  have hs6 : s6.Form := State.gStore_form hs5
  have hs7 : s7.Form := form_foldl hs6 fun u a hu => form_ite (fun _ => hu) fun _ => State.gStore_form hu
  have hs8 : s8.Form := State.gStore_form hs7
  exact State.gStore_form hs8

theorem State.suspendCopies_form {s : State} {t} (h : s.Form) : (s.suspendCopies t).Form :=
  form_foldl h fun u a hu => form_ite (fun _ => State.noteTag_form (State.updTile_form hu)) fun _ => hu

theorem State.watchSave_form {s : State} {t} (h : s.Form) :
    (s.watchSave t).Form := by
  unfold State.watchSave
  cases (s.tile t).watch with
  | none => exact h
  | some w =>
    refine form_ite (fun _ => h) fun _ => form_ite (fun _ => State.suspendCopies_form h) fun _ => ?_
    cases (s.suspendCopies t).job? w.jid with
    | none => exact State.suspendCopies_form h
    | some j =>
      exact State.updTile_form (State.saveRecord_form (State.saveTail_form
        (form_foldl (State.suspendCopies_form h) fun _ _ hu => State.saveCore_form hu)))

theorem State.savePend_form {s : State} {j t vtn} (h : s.Form) : (s.savePend j t vtn).Form := by
  unfold State.savePend
  refine State.gStore_form (form_foldl h fun u a hu => ?_)
  split
  · exact hu
  · split
    · exact State.gStore_form hu
    · exact hu

theorem State.saveComplete_form {s : State} {t} (h : s.Form) : (s.saveComplete t).Form := by
  unfold State.saveComplete
  split
  · exact h
  · refine form_ite (fun _ => h) fun _ => ?_
    split
    · extract_lets s1 x sv y k5 s2 l1
      have hs1 : s1.Form := State.savePend_form (State.semOverflow_form h)
      have hs2 : s2.Form := State.setTile_form hs1
      exact State.migSettle_form (State.endCancelled_form (State.setLaunch_form hs2))
    · exact h

theorem State.restoreTags_form {s : State} {t tags} (h : s.Form) : (s.restoreTags t tags).Form :=
  form_foldl h fun u a hu => form_ite (fun _ => State.noteTag_form (State.updTile_form hu)) fun _ => State.updTile_form hu

theorem State.restoreCore_form {s : State} {t k old head pend abs z} (h : s.Form) :
    (s.restoreCore t k old head pend abs z).Form := by
  unfold State.restoreCore
  extract_lets ran k2 s1 s2
  have hs1 : s1.Form := State.setCore_form h
  have hs2 : s2.Form := form_ite (fun _ => State.loadArea_form hs1) fun _ => hs1
  exact State.updCore_form hs2

theorem State.readRecord_form {s : State} {j base} (h : s.Form) :
    OkForm (s.readRecord j base) := by
  unfold State.readRecord
  refine okForm_bind (State.gBytes_form h) fun _ _ h => okForm_bind (State.gBytes_form h) fun _ _ h =>
    okForm_bind (State.gBytes_form h) fun _ _ h => okForm_bind (State.gBytes_form h) fun _ _ h =>
    okForm_bind (State.gBytes_form h) fun _ _ h => okForm_bind (okForm_foldlM h fun _ _ _ hs => ?_) fun _ _ h => okForm_ok h
  exact pred_ite (P := OkForm) (fun _ => okForm_ok hs) fun _ => okForm_bind (State.gBytes_form hs) fun _ _ h => okForm_ok h

theorem State.loadRecord_form {s : State} {l j w t r} (h : s.Form) : (s.loadRecord l j w t r).Form := by
  unfold State.loadRecord
  extract_lets csavt put s1 s2 owner tail s3 abs s4
  have hs1 : s1.Form := State.commitBytes_form (State.commitBytes_form h)
  have hs2 : s2.Form := by
    unfold s2
    refine form_foldl hs1 fun u a hu => ?_
    split
    · exact State.commitBytes_form hu
    · exact State.commitBytes_form hu
  have hs3 : s3.Form := State.updTile_form hs2
  have hs4 : s4.Form := form_foldl hs3 fun u a hu => State.restoreCore_form hu
  exact State.restoreTags_form hs4

theorem State.spillFor_form {s : State} {jid vtn t} (h : s.Form) : (s.spillFor jid vtn t).Form := by
  unfold State.spillFor
  extract_lets s1
  have hs1 : s1.Form := State.spillOwn_form h
  exact form_foldl hs1 fun u a hu => form_foldl hu fun u1 a1 hu1 => form_ite (fun _ => State.engineSpill_form hu1)
    fun _ => hu1

theorem State.placeAnew_form {s : State} {l j grid t} (h : s.Form) : (s.placeAnew l j grid t).Form := by
  unfold State.placeAnew
  split
  · rename_i e
    exact State.placeWatch_form (OkForm.of_eq e (State.gBytes_form h))
  · exact State.cancelAll_form (State.noteBad_form h)

theorem State.pendSlip_form {s : State} {t} (h : s.Form) : (s.pendSlip t).Form :=
  form_foldl h fun u a hu => State.pendCore_form hu

theorem State.restoreOn_form {s : State} {l j w t} (h : s.Form) : (s.restoreOn l j w t).Form := by
  unfold State.restoreOn
  refine form_ite (fun _ => State.pendSlip_form (State.placeAnew_form h)) fun _ => ?_
  extract_lets s1
  have hs1 : s1.Form := State.spillFor_form h
  split
  · exact State.cancelAll_form (State.noteBad_form hs1)
  · rename_i e
    exact State.loadRecord_form (State.wipeTile_form (OkForm.of_eq e (State.readRecord_form hs1)))

theorem State.putKept_form {s : State} {t bs} (h : s.Form) :
    (s.putKept t bs).Form := by
  unfold State.putKept
  refine form_foldl h fun u a hu => ?_
  have hs : (((u.asClear t a.1).updTile t (fun x => x.setBlock a.1 a.2.1))).Form := State.updTile_form
    (State.asClear_form hu)
  exact List.foldlRecOn (motive := fun m => smWf 0 m = true) a.2.2 _ hs fun m hm _ _ => smWf_smSet hm

theorem State.restoreGang_form {s : State} {id gang} (h : s.Form) :
    SomeForm (s.restoreGang id gang) := by
  unfold State.restoreGang
  refine someForm_bind fun a => someForm_bind fun a1 => pred_ite (P := SomeForm) (fun _ => someForm_none) fun _ =>
    someForm_bind fun a2 => ?_
  extract_lets l1
  exact someForm_some (State.slipLate_form (form_foldl (State.setLaunch_form h) fun _ _ hu => State.restoreOn_form hu))

theorem State.runEngines_form {s : State} {t} (h : s.Form) : (s.runEngines t).Form := by
  unfold State.runEngines
  extract_lets s1
  have hs1 : s1.Form := form_foldl h fun u a hu => State.matrixDone_form hu
  exact form_foldl hs1 fun u a hu => State.stochDone_form hu

theorem State.withdraw_form {s : State} {t} (h : s.Form) : (s.withdraw t).Form :=
  form_foldl h fun u a hu => State.rearm_form (form_foldl hu fun u1 a1 hu1 => State.dropExch_form hu1)

theorem State.settleChunk_form {s : State} {t k} (h : s.Form) : (s.settleChunk t k).Form := by
  unfold State.settleChunk
  split
  · rename_i e
    exact (State.boundary_form h).1 _ e
  · rename_i e
    exact (State.boundary_form h).2 _ e

theorem State.slipStop_form {s : State} {t} (h : s.Form) : (s.slipStop t).Form :=
  State.suspendCopies_form (State.updTile_form (State.withdraw_form (State.runEngines_form (form_foldl h fun u a hu =>
    State.settleChunk_form hu))))

theorem State.countBack_form {s : State} {id n} (h : s.Form) : (s.countBack id n).Form := by
  unfold State.countBack
  split
  · exact form_ite (fun _ => h) fun _ => State.launchCounts_form (State.setLaunch_form h)
  · exact h

theorem State.slipWatch_form {s : State} {l j t} (h : s.Form) : (s.slipWatch l j t).Form := by
  unfold State.slipWatch
  split
  · exact h
  · extract_lets off s1
    have hs1 : s1.Form := by
      unfold s1
      split
      · exact State.putKept_form (State.restoreOn_form h)
      · exact State.placeAnew_form h
    exact State.pendSlip_form (State.countBack_form hs1)

theorem State.slipAway_form {s : State} {l s0} (h : s.Form) : (s.slipAway l s0).Form := by
  unfold State.slipAway
  extract_lets here gone back saved n s1
  have hs1 : s1.Form := form_foldl h fun u a hu => State.dropNotes_form hu
  split
  · exact State.countBack_form (State.setLaunch_form hs1)
  · exact hs1

theorem State.slipBack_form {s : State} {l j s0} (h : s.Form) : (s.slipBack l j s0).Form := by
  unfold State.slipBack
  extract_lets s1
  have hs1 : s1.Form := form_foldl (State.slipAway_form h) fun u a hu => State.slipWatch_form hu
  split
  · exact State.setLaunch_form hs1
  · exact hs1

theorem State.gangSlip_form {s : State} {id} (h : s.Form) : (s.gangSlip id).Form := by
  unfold State.gangSlip
  split
  · exact h
  · split
    · split
      · refine form_ite (fun _ => h) fun _ => ?_
        extract_lets s1
        have hs1 : s1.Form := form_foldl h fun u a5 hu => State.slipStop_form hu
        split
        · exact hs1
        · exact form_ite (fun _ => State.slipBack_form hs1) fun _ => State.setLaunch_form hs1
      · exact h
    · exact h

end Sys2Proof.Machine
end

section
/-!
SUPPORT, of O60. What `Machine/Graph.lean` does keeps the canonical form of the memory: the placer, graph runs and
tick plans.
-/
namespace Sys2Proof.Machine

theorem State.placeOne_form {s : State} {w} (h : s.Form) :
    SomeForm (s.placeOne w) := by
  unfold State.placeOne
  split
  · exact someForm_bind fun _ => State.placeLaunch_form h
  · exact State.restoreGang_form h

theorem State.request_form {s : State} {t} (h : s.Form) : (s.request t).Form := by
  unfold State.request
  split
  · exact h
  · exact form_ite (fun _ => h) fun _ => State.updTile_form h

theorem State.requestFor_form {s : State} {id} (h : s.Form) : (s.requestFor id).Form := by
  unfold State.requestFor
  split
  · exact h
  · exact form_ite (fun _ => h) fun _ => form_foldl h fun u a2 hu => State.request_form hu

theorem State.placePass_form {s : State} (h : s.Form) :
    (s.placePass).Form := by
  unfold State.placePass
  refine fstForm_foldl h fun p w hp => ?_
  obtain ⟨u, stop⟩ := p
  refine pred_ite (P := fun p : State × Bool => p.1.Form) (fun _ => hp) fun _ => ?_
  split
  · rename_i e
    exact (State.placeOne_form hp).of_eq e
  · exact pred_ite (P := fun p : State × Bool => p.1.Form) (fun _ => State.requestFor_form hp) fun _ => hp

theorem execLaunchPlace_form {s : State} (h : s.Form) : OutForm (execLaunchPlace s) :=
  outForm_next (State.placePass_form h)

theorem execLaunchAged_form {l} {s : State} (h : s.Form) : OutForm (execLaunchAged l s) := by
  unfold execLaunchAged
  refine outForm_next ?_
  split
  · exact form_ite (fun _ => State.placePass_form (State.setLaunch_form h)) fun _ => h
  · exact h

theorem State.runCounts_form {s : State} {r} (h : s.Form) : (s.runCounts r).Form := by
  unfold State.runCounts
  split
  · exact State.gPut_form h
  · exact h

theorem State.startRun_form {s : State} {j addr plan} (h : s.Form) :
    PairForm (s.startRun j addr plan) := by
  unfold State.startRun
  extract_lets r s1
  have hs1 : s1.Form := h
  split
  · have hn : ∀ f, (s1.noteBad f).Form := fun _ => State.noteBad_form hs1
    exact pairForm_mk (hn _)
  · rename_i bs u e
    have hu : u.Form := OkForm.of_eq e (State.gBytes_form hs1)
    extract_lets c n r1 s2 s3
    have hs2 : s2.Form := hu
    have hs3 : s3.Form := State.runRecord_form hs2
    exact pred_ite (P := PairForm) (fun _ => pairForm_mk (State.runFault_form hs3)) fun _ =>
      pred_ite (P := PairForm) (fun _ => pairForm_mk (State.runFault_form hs3)) fun _ => pairForm_mk hs3

theorem State.goOn_form {s : State} {r next} (h : s.Form) : (s.goOn r next).Form := by
  unfold State.goOn
  extract_lets r1 r' s1
  have hs1 : s1.Form := State.runCounts_form (State.setRun_form h)
  exact form_ite (fun _ => State.runFault_form hs1) fun _ => hs1

theorem State.onNode_form {s : State} {r kind} {f : State → Run → Job → List Word → State} (h : s.Form)
    (hf : ∀ u a1 a2 a3, u.Form → (f u a1 a2 a3).Form) : (s.onNode r kind f).Form := by
  unfold State.onNode
  split
  · exact h
  · split
    · exact h
    · refine form_ite (fun _ => h) fun _ => ?_
      split
      · exact State.runFault_form (State.noteBad_form h)
      · rename_i e2
        exact form_ite (fun _ => State.runFault_form (OkForm.of_eq e2 (State.gBytes_form h))) fun _ => form_ite (fun _ =>
          OkForm.of_eq e2 (State.gBytes_form h)) fun _ => hf _ _ _ _ (OkForm.of_eq e2 (State.gBytes_form h))

theorem execGraphNodeEnd_form {r} {s : State} (h : s.Form) : OutForm (execGraphNodeEnd r s) :=
  outForm_next (State.onNode_form h (fun u x j a hu => form_ite (fun _ => State.runFault_form hu) fun _ =>
    form_ite (fun _ => State.jobSettle_form (State.jobCount_form (State.runRecord_form (State.setRun_form hu)))) fun _ =>
    hu))

theorem execGraphNodeLaunch_form {r} {s : State} (h : s.Form) : OutForm (execGraphNodeLaunch r s) := by
  unfold execGraphNodeLaunch
  refine outForm_next (State.onNode_form h (fun u x j n hu => ?_))
  split
  · exact form_ite (fun _ => State.runFault_form hu) fun _ => form_ite (fun _ => State.goOn_form hu) fun _ => hu
  · split
    · rename_i e1
      extract_lets x1 s1
      have hs1 : s1.Form := State.runCounts_form (State.setRun_form (PairForm.of_eq e1 (State.dispatch_form hu)))
      exact form_ite (fun _ => State.runFault_form hs1) fun _ => form_ite (fun _ => State.setRun_form hs1) fun _ =>
        State.goOn_form hs1

theorem execGraphNodeJoin_form {r} {s : State} (h : s.Form) : OutForm (execGraphNodeJoin r s) :=
  outForm_next (State.onNode_form h (fun u x a a1 hu => form_ite (fun _ => State.runFault_form hu) fun _ =>
    form_ite (fun _ => State.goOn_form hu) fun _ => hu))

theorem execGraphNodeCond_form {r} {s : State} (h : s.Form) : OutForm (execGraphNodeCond r s) := by
  unfold execGraphNodeCond
  refine outForm_next (State.onNode_form h (fun u x j n hu => form_ite (fun _ => State.runFault_form hu) fun _ => ?_))
  split
  · exact State.runFault_form (State.noteBad_form hu)
  · rename_i e
    exact form_ite (fun _ => State.goOn_form (OkForm.of_eq e (State.gRead_form hu))) fun _ =>
      State.goOn_form (OkForm.of_eq e (State.gRead_form hu))

theorem State.loopNodeBy_form {s : State} {look : Look} {r} (h : s.Form) (hlook : ∀ u a1 a2 a3, u.Form → OkForm
    (look u a1 a2 a3)) : (s.loopNodeBy look r).Form := by
  unfold State.loopNodeBy
  refine State.onNode_form h (fun u x j n hu => form_ite (fun _ => State.runFault_form hu) fun _ => ?_)
  split
  · exact State.runFault_form (State.noteBad_form hu)
  · rename_i e
    exact form_ite (fun _ => State.setRun_form (OkForm.of_eq e (hlook _ _ _ _ hu))) fun _ => form_ite (fun _ =>
      State.goOn_form (OkForm.of_eq e (hlook _ _ _ _ hu))) fun _ => State.goOn_form (OkForm.of_eq e (hlook _ _ _ _ hu))

theorem State.loopNode_form {s : State} {r} (h : s.Form) : (s.loopNode r).Form :=
  State.loopNodeBy_form h (fun u j va n hu => State.gRead_form hu)

theorem State.startCome_form {s : State} {l g late} (h : s.Form) : (s.startCome l g late).Form := by
  unfold State.startCome
  extract_lets g1 s1 l1
  have hs1 : s1.Form := State.setLaunch_form h
  exact form_ite (fun _ => hs1) fun _ => form_ite (fun _ => State.release_form hs1) fun _ => State.setLaunch_form hs1

theorem State.tickArm_form {s : State} {id} (h : s.Form) : (s.tickArm id).Form := by
  unfold State.tickArm
  split
  · exact h
  · split
    · exact form_ite (fun _ => h) fun _ => form_ite (fun _ => State.startCome_form h) fun _ => State.setLaunch_form h
    · exact h

theorem State.planLate_form {s : State} {j p} (h : s.Form) : (s.planLate j p).Form := by
  unfold State.planLate
  split
  · exact h
  · exact (State.startRun_form (State.slipLog_form (State.setJob_form h))).snd

theorem State.planStartEvent_form {s : State} {j p} (h : s.Form) : (s.planStartEvent j p).Form := by
  unfold State.planStartEvent
  extract_lets s1 j1 n j2 a
  have hs1 : s1.Form := State.planLate_form h
  exact form_ite (fun _ => hs1) fun _ => form_ite (fun _ => State.setJob_form hs1) fun _ => form_ite (fun _ =>
    State.setJob_form hs1) fun _ => (State.startRun_form (State.setJob_form hs1)).snd

theorem State.startAt_form {s : State} {at_ id} (h : s.Form) : (s.startAt at_ id).Form := by
  unfold State.startAt
  extract_lets s1
  have hs1 : s1.Form := h
  split
  · split
    · exact form_ite (fun _ => State.startCome_form hs1) fun _ => hs1
    · exact hs1
  · exact hs1

theorem execTickStartEvent_form {jid l} {s : State} (h : s.Form) : OutForm (execTickStartEvent jid l s) := by
  unfold execTickStartEvent
  refine outForm_next ?_
  split
  · split
    · split
      · split
        · exact form_ite (fun _ => State.startCome_form h) fun _ => h
        · exact h
      · exact h
    · exact h
  · split
    · split
      · exact form_ite (fun _ => State.planStartEvent_form h) fun _ => h
      · exact h
    · exact h

end Sys2Proof.Machine
end

section
/-!
SUPPORT, of O60. What `Machine/Queue.lean` does keeps the canonical form of the memory: host queues and their packets.
-/
namespace Sys2Proof.Machine

theorem State.readRing_form {s : State} {q i len} (h : s.Form) : (s.readRing q i len).Form := h

theorem State.updQueue_form {s : State} {q f} (h : s.Form) : (s.updQueue q f).Form :=
  form_ite (fun _ => State.setQueue_form h) fun _ => h

theorem State.haltQueue_form {s : State} {q cause} (h : s.Form) : (s.haltQueue q cause).Form :=
  State.count_form (State.updQueue_form h)

theorem execQueueTailWrite_form {q v} {s : State} (h : s.Form) : OutForm (execQueueTailWrite q v s) :=
  outForm_next (State.updQueue_form h)

theorem execQueueHaltClear_form {q v} {s : State} (h : s.Form) : OutForm (execQueueHaltClear q v s) :=
  outForm_next (form_ite (fun _ => State.updQueue_form h) fun _ => h)

theorem execQueueHeadWrite_form {q v} {s : State} (h : s.Form) : OutForm (execQueueHeadWrite q v s) :=
  outForm_next (State.updQueue_form h)

theorem State.enableWrite_form {s : State} {q v} (h : s.Form) : (s.enableWrite q v).Form := State.updQueue_form h

theorem execQueueEnableWrite_form {q v} {s : State} (h : s.Form) : OutForm (execQueueEnableWrite q v s) :=
  outForm_next (State.enableWrite_form h)

theorem State.qbaseWrite_form {s : State} {q v} (h : s.Form) : (s.qbaseWrite q v).Form := State.updQueue_form h

theorem State.packetFetch_form {s : State} {q idx data} (h : s.Form) : (s.packetFetch q idx data).Form := by
  unfold State.packetFetch
  refine form_ite (fun _ => h) fun _ => ?_
  extract_lets s1
  have hs1 : s1.Form := State.readRing_form h
  split
  · exact State.haltQueue_form hs1
  · exact form_ite (fun _ => State.setQueue_form hs1) fun _ => hs1

theorem execPacketFetch_form {q idx data} {s : State} (h : s.Form) : OutForm (execPacketFetch q idx data s) :=
  outForm_next (State.packetFetch_form h)

theorem State.readPlan_form {s : State} {j va} (h : s.Form) : PairForm (s.readPlan j va) := by
  unfold State.readPlan
  refine pred_ite (P := PairForm) (fun _ => pairForm_mk h) fun _ => ?_
  split
  · exact pairForm_mk (State.noteBad_form h)
  · rename_i e
    split
    · exact pairForm_mk (State.noteBad_form (OkForm.of_eq e (State.gBytes_form h)))
    · rename_i e1
      exact pairForm_mk (OkForm.of_eq e1 (State.gBytes_form (OkForm.of_eq e (State.gBytes_form h))))

theorem State.openJob_form {s : State} {d} (h : s.Form) :
    (s.openJob d).Form := by
  unfold State.openJob
  split
  extract_lets j va
  split
  rename_i j' u e
  have hu : u.Form := by
    refine PairForm.of_eq e (pred_ite (P := PairForm) (fun _ => pairForm_mk h) fun _ => ?_)
    split
    · rename_i e
      exact pairForm_mk ((State.readPlan_form h).of_eq e)
    · rename_i e
      exact pairForm_mk ((State.readPlan_form h).of_eq e)
  extract_lets s2
  have hs2 : s2.Form := hu
  exact State.jobState_form (State.gPut_form hs2)

theorem State.reread_form {s : State} {q again} (h : s.Form) : (s.reread q again).Form := by
  unfold State.reread
  extract_lets x s1
  have hs1 : s1.Form := State.readRing_form h
  split
  · exact h
  · exact form_ite (fun _ => State.readRing_form hs1) fun _ => hs1

theorem State.startOn_form {s : State} {q again} (h : s.Form) :
    (s.startOn q again).Form := by
  unfold State.startOn
  extract_lets s1 x take
  have hs1 : s1.Form := State.reread_form h
  have htake : ∀ u, u.Form → (take u).Form := fun _ hu => hu
  clear_value take
  split
  · split
    · exact htake _ (State.haltQueue_form hs1)
    · refine form_ite (fun _ => htake _ (State.haltQueue_form hs1)) fun _ => ?_
      split
      · exact htake _ (State.haltQueue_form (form_elim hs1 fun _ => State.noteBad_form hs1))
      · exact form_ite (fun _ => State.setQueue_form hs1) fun _ => htake _ (State.setQueue_form hs1)
  · exact htake _ (State.haltQueue_form hs1)
  · exact htake _ (State.haltQueue_form hs1)

theorem execPacketStart_form {again} {s : State} (h : s.Form) : OutForm (execPacketStart again s) := by
  unfold execPacketStart
  refine outForm_next ?_
  split
  · exact State.startOn_form h
  · exact h

theorem State.onPacket_form {s : State} {q kind} {f : State → Started → Nat × Option Nat × State} (h : s.Form)
    (hf : ∀ u e, u.Form → (f u e).2.2.Form) : (s.onPacket q kind f).Form := by
  unfold State.onPacket
  split
  · exact h
  · exact State.setQueue_form (hf _ _ h)

theorem execPacketNop_form {q} {s : State} (h : s.Form) :
    OutForm (execPacketNop q s) := outForm_next (State.onPacket_form h fun _ _ hu => hu)

theorem execOpenJob_form {q} {s : State} (h : s.Form) :
    OutForm (execOpenJob q s) := outForm_next (State.onPacket_form h fun _ _ hu => State.openJob_form hu)

theorem State.spillJob_form {s : State} {jid} (h : s.Form) : (s.spillJob jid).Form := by
  unfold State.spillJob
  refine form_foldl h fun u a hu => form_foldl hu fun u1 a1 hu1 => form_ite (fun _ => ?_) fun _ => hu1
  extract_lets s1
  have hs1 : s1.Form := State.engineSpill_form hu1
  exact form_ite (fun _ => State.dropNotes_form hs1) fun _ => hs1

theorem State.closeJob_form {s : State} {jid cause} (h : s.Form) : (s.closeJob jid cause).Form := by
  unfold State.closeJob
  split
  · exact h
  · refine form_ite (fun _ => State.freeJob_form h) fun _ => form_ite (fun _ =>
      State.freeJob_form (State.spillJob_form (State.jobState_form (State.setJob_form h)))) fun _ => ?_
    extract_lets s1
    have hs1 : s1.Form := State.setJob_form h
    exact form_ite (fun _ => hs1) fun _ => State.cancelJob_form hs1

theorem execCloseJob_form {q} {s : State} (h : s.Form) :
    OutForm (execCloseJob q s) := by
  refine outForm_next (State.onPacket_form h fun u e hu => ?_)
  extract_lets jid
  split
  · exact hu
  · exact form_ite (fun _ => State.closeJob_form hu) fun _ => hu

theorem State.deadRun_form {s : State} {j addr} (h : s.Form) : (s.deadRun j addr).Form := by
  unfold State.deadRun
  split
  · exact State.noteBad_form h
  · rename_i e
    exact State.runRecord_form (OkForm.of_eq e (State.gBytes_form h))

theorem State.closeSettle_form {s : State} (h : s.Form) : s.closeSettle.Form :=
  form_foldl h fun u a hu => form_ite (fun _ => State.jobSettle_form hu) fun _ => hu

theorem execRunGraph_form {q} {s : State} (h : s.Form) :
    OutForm (execRunGraph q s) := by
  refine outForm_next (State.closeSettle_form (State.onPacket_form h fun u e hu => ?_))
  split
  · exact hu
  · split
    · exact hu
    · rename_i j _
      exact pred_ite (P := fun r : Nat × Option Nat × State => r.2.2.Form) (fun _ => State.deadRun_form hu)
        fun _ => (State.startRun_form hu).snd

theorem State.beginCancel_form {s : State} {w} (h : s.Form) : PairForm (s.beginCancel w) := by
  unfold State.beginCancel
  extract_lets jid
  split
  · split
    · exact pairForm_mk (State.cancelAll_form h)
    · exact pairForm_mk h
  · split
    · exact pairForm_mk (State.cancelRun_form h)
    · exact pairForm_mk h
  · exact pairForm_mk (State.cancelJob_form h)

theorem execPacketCancel_form {q} {s : State} (h : s.Form) :
    OutForm (execPacketCancel q s) := by
  refine outForm_next (State.onPacket_form h fun u e hu => ?_)
  exact (pred_ite (P := PairForm) (fun _ => State.beginCancel_form hu) fun _ => pairForm_mk hu).snd

theorem State.waitMemBy_form {s : State} {look : Look} {q} (h : s.Form) (hlook : ∀ u j va n, u.Form → OkForm
    (look u j va n)) :
    (s.waitMemBy look q).Form := by
  unfold State.waitMemBy
  refine State.onPacket_form h fun u e hu => ?_
  split
  · exact hu
  · split
    · exact State.noteBad_form hu
    · rename_i e
      exact (hlook _ _ _ _ hu).of_eq e

theorem State.waitMem_form {s : State} {q} (h : s.Form) : (s.waitMem q).Form :=
  State.waitMemBy_form h (fun u j va n hu => State.gRead_form hu)

theorem execWriteMem_form {q} {s : State} (h : s.Form) :
    OutForm (execWriteMem q s) := by
  refine outForm_next (State.closeSettle_form (State.onPacket_form h fun u e hu => ?_))
  split
  · exact hu
  · exact State.gPut_form hu

theorem State.packetComplete_form {s : State} {q ok} (h : s.Form) : (s.packetComplete q ok).Form := by
  unfold State.packetComplete
  extract_lets x
  split
  · exact h
  · extract_lets s1 writes s2 s3
    have hs1 : s1.Form := State.setQueue_form h
    have hs2 : s2.Form := form_ite (fun _ => hs1) fun _ => hs1
    have hs3 : s3.Form := State.updQueue_form hs2
    exact form_ite (fun _ => State.haltQueue_form hs1) fun _ => form_ite (fun _ => State.raiseIrq_form hs3) fun _ => hs3

theorem execPacketComplete_form {q ok} {s : State} (h : s.Form) : OutForm (execPacketComplete q ok s) :=
  outForm_next (State.packetComplete_form h)

end Sys2Proof.Machine
end

section
/-!
SUPPORT, of O60. What `Machine/Host.lean` does keeps the canonical form of the memory: the host's registers and
windows, starts, resets and the scrub.
-/
namespace Sys2Proof.Machine

theorem State.setMig_form {s : State} {v m} (h : s.Form) : (s.setMig v m).Form := h

theorem State.requestNow_form {s : State} {t} (h : s.Form) : (s.requestNow t).Form :=
  State.updTile_form (State.request_form h)

theorem State.migStop_form {s : State} {v stop} (h : s.Form) : (s.migStop v stop).Form := by
  unfold State.migStop
  refine form_ite (fun _ => h) fun _ => form_ite (fun _ => State.setMig_form h) fun _ => form_ite (fun _ =>
    State.setMig_form h) fun _ => ?_
  extract_lets s1
  have hs1 : s1.Form := State.setMig_form h
  exact State.migSettle_form (form_foldl hs1 fun u a hu => form_ite (fun _ => State.requestNow_form hu) fun _ => hu)

theorem execMigrationStop_form {vf stop} {s : State} (h : s.Form) : OutForm (execMigrationStop vf stop s) :=
  outForm_next (State.migStop_form h)

theorem State.migWrite_form {s : State} {v w} (h : s.Form) : (s.migWrite v w).Form :=
  State.migStop_form (form_ite (fun _ => State.setMig_form h) fun _ => h)

theorem State.wvalRead_form {s : State} {v} (h : s.Form) : (s.wvalRead v).Form := by
  unfold State.wvalRead
  extract_lets m key bs s1
  have hs1 : s1.Form := State.commitBytes_form h
  split
  · extract_lets s2
    have hs2 : s2.Form := State.logCheck_form h
    exact hs2
  · exact hs1

theorem State.clearCounter_form {s : State} {ofs} (h : s.Form) : (s.clearCounter ofs).Form :=
  form_ite (fun _ => h) fun _ => h

theorem State.mboxAnswer_form {s : State} {status ws} (h : s.Form) : (s.mboxAnswer status ws).Form :=
  State.raiseIrq_form h

theorem State.boxGo_form {s : State} (h : s.Form) : s.boxGo.Form :=
  form_ite (fun _ => State.mboxAnswer_form h) fun _ => form_ite (fun _ => h) fun _ => State.mboxAnswer_form h

theorem State.boxWrite_form {s : State} {i v} (h : s.Form) : (s.boxWrite i v).Form := by
  unfold State.boxWrite
  extract_lets k1 s1
  have hs1 : s1.Form := h
  exact form_ite (fun _ => State.boxGo_form hs1) fun _ => hs1

theorem State.boxByte_form {s : State} {v} (h : s.Form) : (s.boxByte v).Form := State.boxWrite_form h

theorem State.irqSettle_form {s : State} {f} (h : s.Form) : (s.irqSettle f).Form :=
  form_foldl h fun u a hu => State.setPciFn_form (State.sendIrq_form hu)

theorem State.vectorWrite_form {s : State} {f v high w} (h : s.Form) : (s.vectorWrite f v high w).Form :=
  State.irqSettle_form (State.setPciFn_form h)

theorem State.configWrite_form {s : State} {f ofs w} (h : s.Form) : (s.configWrite f ofs w).Form :=
  form_ite (fun _ => State.vectorWrite_form h) fun _ => State.irqSettle_form (State.setPciFn_form h)

theorem State.queueRegWrite_form {s : State} {q ofs v} (h : s.Form) : (s.queueRegWrite q ofs v).Form := by
  unfold State.queueRegWrite
  split
  · exact State.qbaseWrite_form h
  · exact State.enableWrite_form h
  · exact State.updQueue_form h
  · exact State.updQueue_form h
  · exact form_ite (fun _ => State.updQueue_form h) fun _ => h
  · exact h

theorem State.regWrite_form {s : State} {f ofs v} (h : s.Form) : (s.regWrite f ofs v).Form := by
  unfold State.regWrite
  refine form_ite (fun _ => State.boxByte_form h) fun _ => form_ite (fun _ => h) fun _ => form_ite (fun _ =>
    State.configWrite_form h) fun _ => form_ite (fun _ => State.queueRegWrite_form h) fun _ => form_ite (fun _ =>
    form_ite (fun _ => h) fun _ => h) fun _ => form_ite (fun _ => h) fun _ => form_ite (fun _ => form_ite (fun _ => h)
    fun _ => h) fun _ => form_ite (fun _ => State.clearCounter_form h) fun _ => form_ite (fun _ => State.boxWrite_form h)
    fun _ => form_ite (fun _ => ?_) fun _ => h
  extract_lets vf k2
  split
  · exact State.migWrite_form h
  · exact State.setMig_form h
  · exact h

theorem execHostRegisterWrite_form {f ofs v} {s : State} (h : s.Form) : OutForm (execHostRegisterWrite f ofs v s) :=
  outForm_next (State.regWrite_form h)

theorem State.windowPlaces_form {s : State} {j write va n} (h : s.Form) :
    OkForm (s.windowPlaces j write va n) := by
  unfold State.windowPlaces
  refine okForm_foldlM h fun a u b hu => ?_
  obtain ⟨a, m⟩ := b
  dsimp only
  split
  · rename_i e
    exact okForm_ok ((State.xlateJob_form hu).of_eq e)
  · exact okForm_error

/-- The state of a window's access, made or refused, has the form. -/
def AccessForm {α : Type} (r : Except State (α × State)) : Prop := OkForm r ∧ ∀ t, r = .error t → t.Form

theorem State.windowAccess_form {s : State} {f ofs write n} (h : s.Form) :
    AccessForm (s.windowAccess f ofs write n) := by
  unfold State.windowAccess
  split
  · exact ⟨okForm_error, by rintro _ ⟨⟩; exact State.count_form h⟩
  · split
    · exact ⟨okForm_error, by rintro _ ⟨⟩; exact State.count_form (State.noteBad_form h)⟩
    · rename_i r e
      refine ⟨?_, by rintro _ ⟨⟩⟩
      rintro a t ⟨⟩
      exact (State.windowPlaces_form h).of_eq e

theorem State.windowWrite_form {s : State} {f ofs bytes} (h : s.Form) :
    (s.windowWrite f ofs bytes).Form := by
  obtain ⟨hok, herr⟩ := State.windowAccess_form (f := f) (ofs := ofs) (write := true) (n := bytes.length) h
  unfold State.windowWrite
  split
  · rename_i e
    exact herr _ e
  · rename_i e
    exact fstForm_foldl (hok.of_eq e) fun _ _ hp => State.placeWrite_form hp

theorem execHostWindowWrite_form {f ofs bytes} {s : State} (h : s.Form) : OutForm (execHostWindowWrite f ofs bytes s) :=
  outForm_next (State.windowWrite_form h)

theorem State.windowRead_form {s : State} {f ofs len} (h : s.Form) :
    (s.windowRead f ofs len).Form := by
  obtain ⟨hok, herr⟩ := State.windowAccess_form (f := f) (ofs := ofs) (write := false) (n := len) h
  unfold State.windowRead
  split
  · rename_i u e
    have hu := herr _ e
    exact hu
  · rename_i ps u e
    have hu := hok.of_eq e
    split
    · rename_i q _
      have := State.noteBad_form (f := (0xF1, q)) hu
      exact this
    · have := sndForm_foldl (p := (([] : List Byte), u)) (l := ps) (f := fun (acc, s) (p, m) =>
        let (b, s) := State.placeBytes s p m; (acc ++ b, s))
        hu fun _ _ hp => (State.placeBytes_form hp).snd
      exact this

theorem execHostWindowRead_form {f ofs len} {s : State} (h : s.Form) : OutForm (execHostWindowRead f ofs len s) :=
  outForm_next (State.windowRead_form h)

theorem State.started_form {s : State} {n} (h : s.Form) : (s.started n).Form := by
  unfold State.started
  extract_lets k1 k2 k3 k4
  have hk1 : k1.Form := State.reset_form
  exact hk1

theorem State.coldStart_form {s : State} (h : s.Form) : s.coldStart.Form := by
  unfold State.coldStart
  extract_lets n k2
  have hk2 : k2.Form := State.started_form h
  exact hk2

theorem State.warmStart_form {s : State} (h : s.Form) : s.warmStart.Form := by
  unfold State.warmStart
  refine form_ite (fun _ => ?_) fun _ => State.coldStart_form h
  extract_lets k1
  have hk1 : k1.Form := State.started_form h
  exact smWf_smRange h

theorem execPowerOn_form {s : State} (h : s.Form) : OutForm (execPowerOn s) := by
  unfold execPowerOn
  refine outForm_next ?_
  extract_lets s1 k2
  have hs1 : s1.Form := State.coldStart_form h
  exact hs1

theorem execColdStart_form {s : State} (h : s.Form) : OutForm (execColdStart s) := outForm_next (State.coldStart_form h)
theorem execWarmStart_form {s : State} (h : s.Form) : OutForm (execWarmStart s) := outForm_next (State.warmStart_form h)

theorem State.vfReset_form {s : State} {v} (h : s.Form) : (s.vfReset v).Form := by
  unfold State.vfReset
  extract_lets s1
  have hs1 : s1.Form := form_foldl h fun u a hu => State.closeJob_form hu
  exact hs1

theorem State.scrub_form {s : State} {key found} (h : s.Form) : (s.scrub key found).Form := by
  unfold State.scrub
  refine form_ite (fun _ => h) fun _ => ?_
  split
  · exact h
  · exact State.count_form (State.count_form h)
  · extract_lets k1
    have hk1 : k1.Form := State.count_form h
    exact hk1

theorem execScrubPass_form {key found} {s : State} (h : s.Form) : OutForm (execScrubPass key found s) :=
  outForm_next (State.scrub_form h)

theorem State.sideAnswer_form {s : State} {ws} (h : s.Form) : (s.sideAnswer ws).Form := h

theorem State.openAnswer_form {s : State} {kind w} (h : s.Form) : (s.openAnswer kind w).Form := by
  unfold State.openAnswer
  extract_lets k1
  have hk1 : k1.Form := State.sideAnswer_form h
  exact hk1

theorem execSensorRead_form {which} {s : State} (h : s.Form) : OutForm (execSensorRead which s) := by
  unfold execSensorRead
  refine outForm_next (form_ite (fun _ => ?_) fun _ => State.sideAnswer_form h)
  extract_lets k1
  have hk1 : k1.Form := State.sideAnswer_form h
  exact hk1

theorem execRailSwitch_form {on} {s : State} (h : s.Form) : OutForm (execRailSwitch on s) := by
  unfold execRailSwitch
  refine outForm_next (form_ite (fun _ => h) fun _ => form_ite (fun _ => State.coldStart_form h) fun _ => ?_)
  extract_lets x k2
  have hx : x.Form := State.started_form h
  exact hx

end Sys2Proof.Machine
end

section
/-!
SUPPORT, of O60. What `Machine/Trust.lean` does keeps the canonical form of the memory: the Root Security Core.
-/
namespace Sys2Proof.Machine

theorem State.rscDo_form {s : State} {f : State → State} (h : s.Form) (hf : ∀ u, u.Form → (f u).Form) :
    (s.rscDo f).Form :=
  form_ite (fun _ => hf _ h) fun _ => h

theorem State.spdmAnswer_form {s : State} {ws} (h : s.Form) : (s.spdmAnswer ws).Form := by
  unfold State.spdmAnswer
  extract_lets s1 p
  have hs1 : s1.Form := State.sideAnswer_form h
  exact form_ite (fun _ => hs1) fun _ => State.setPciFn_form hs1

theorem State.spdmOpen_form {s : State} {kind w} (h : s.Form) : (s.spdmOpen kind w).Form := by
  unfold State.spdmOpen
  extract_lets k1
  have hk1 : k1.Form := State.spdmAnswer_form h
  exact hk1

theorem State.mboxDo_form {s : State} {code} {f : State → State} (h : s.Form) (hf : ∀ u, u.Form → (f u).Form) :
    (s.mboxDo code f).Form :=
  State.rscDo_form h (fun u hu => form_ite (fun _ => hf _ hu) fun _ => hu)

theorem State.setDom_form {s : State} {d} (h : s.Form) : (s.setDom d).Form := h

theorem State.manifest_form {s : State} {m} (h : s.Form) : (s.manifest m).Form := by
  unfold State.manifest
  extract_lets k1 s1
  have hs1 : s1.Form := form_ite (fun _ => h) fun _ => h
  split
  · exact State.mboxAnswer_form (State.setDom_form hs1)
  · exact form_ite (fun _ => State.mboxAnswer_form (State.setDom_form hs1)) fun _ => State.mboxAnswer_form hs1

theorem State.leaveDomain_form {s : State} (h : s.Form) : s.leaveDomain.Form := by
  unfold State.leaveDomain
  extract_lets k1 k2
  have hk1 : k1.Form := State.setDom_form h
  exact hk1

theorem execLeave_form {s : State} (h : s.Form) : OutForm (execLeave s) :=
  outForm_next (State.mboxDo_form h (fun u hu => State.mboxAnswer_form (State.leaveDomain_form hu)))

theorem State.switchGen_form {s : State} {d g} (h : s.Form) : (s.switchGen d g).Form := by
  unfold State.switchGen
  extract_lets old s1 k3 k4
  have hs1 : s1.Form := State.setDom_form h
  exact hs1

theorem execSwitch_form {s : State} (h : s.Form) : OutForm (execSwitch s) := by
  unfold execSwitch
  refine outForm_next (State.mboxDo_form h (fun u hu => ?_))
  split
  · exact State.mboxAnswer_form hu
  · split
    · exact State.mboxAnswer_form hu
    · exact State.mboxAnswer_form (State.switchGen_form hu)

theorem State.issueHandle_form {s : State} {port keeper keeperPort epoch} (h : s.Form) :
    (s.issueHandle port keeper keeperPort epoch).Form := by
  unfold State.issueHandle
  split
  · exact State.mboxAnswer_form h
  · split
    · exact State.mboxAnswer_form h
    · exact form_ite (fun _ => State.mboxAnswer_form h) fun _ => State.mboxAnswer_form h

theorem execHandle_form {port keeper keeperPort epoch} {s : State} (h : s.Form) : OutForm
    (execHandle port keeper keeperPort epoch s) :=
  outForm_next (State.mboxDo_form h (fun u hu => State.issueHandle_form hu))

theorem execMlog_form {piece} {s : State} (h : s.Form) : OutForm (execMlog piece s) :=
  outForm_next (State.mboxDo_form h (fun u hu => form_ite (fun _ => State.mboxAnswer_form hu) fun _ =>
    State.mboxAnswer_form hu))

theorem State.rscSend_form {s : State} {pkg code ws} (h : s.Form) : (s.rscSend pkg code ws).Form := h

theorem State.callMember_form {s : State} {d g passed m} (h : s.Form) : (s.callMember d g passed m).Form := by
  unfold State.callMember
  extract_lets s1 k2 s2 k4
  have hs1 : s1.Form := form_foldl h fun u a hu => State.rscSend_form hu
  have hs2 : s2.Form := hs1
  have hk4 : k4.Form := State.rscSend_form hs1
  exact form_ite (fun _ => State.rscSend_form hs2) fun _ => hk4

theorem State.formDomain_form {s : State} {proofs} (h : s.Form) : (s.formDomain proofs).Form := by
  unfold State.formDomain
  split
  · exact h
  · exact form_ite (fun _ => h) fun _ => form_foldl (State.setDom_form h) fun u a1 hu => State.callMember_form hu

theorem State.spdmError_form {s : State} {why} (h : s.Form) : (s.spdmError why).Form := State.spdmAnswer_form h

theorem State.takeKey_form {s : State} {domain gen list m} (h : s.Form) : (s.takeKey domain gen list m).Form := by
  unfold State.takeKey
  split
  · exact State.spdmError_form h
  · extract_lets k1 s1
    have hs1 : s1.Form := h
    exact form_ite (fun _ => State.spdmAnswer_form (State.setDom_form hs1)) fun _ => State.spdmError_form hs1

theorem State.setSession_form {s : State} {n x} (h : s.Form) : (s.setSession n x).Form := h

theorem execDomainKey_form {session domain gen list m} {s : State} (h : s.Form) : OutForm
    (execDomainKey session domain gen list m s) :=
  outForm_next (State.rscDo_form h (fun u hu => form_ite (fun _ => State.takeKey_form hu) fun _ =>
    State.spdmError_form hu))

theorem execDomainAck_form {member} {s : State} (h : s.Form) : OutForm (execDomainAck member s) := by
  unfold execDomainAck
  refine outForm_next (State.rscDo_form h (fun u hu => ?_))
  split
  · exact hu
  · exact form_ite (fun _ => State.rscSend_form (State.setDom_form hu)) fun _ => hu

theorem State.loadSlot_form {s : State} {session slot jid wrapped} (h : s.Form) :
    (s.loadSlot session slot jid wrapped).Form := by
  unfold State.loadSlot
  refine form_ite (fun _ => State.spdmError_form h) fun _ => ?_
  split
  · exact form_ite (fun _ => State.spdmAnswer_form h) fun _ => State.spdmAnswer_form h
  · exact State.spdmAnswer_form h

theorem execLoadSlot_form {session slot jid wrapped} {s : State} (h : s.Form) : OutForm
    (execLoadSlot session slot jid wrapped s) :=
  outForm_next (State.rscDo_form h (fun u hu => State.loadSlot_form hu))

theorem State.unloadSlot_form {s : State} {session slot} (h : s.Form) : (s.unloadSlot session slot).Form := by
  unfold State.unloadSlot
  refine form_ite (fun _ => State.spdmError_form h) fun _ => ?_
  split
  · exact form_ite (fun _ => State.spdmAnswer_form h) fun _ => State.spdmAnswer_form (State.slotsSettle_form h)
  · exact State.spdmAnswer_form h

theorem execUnloadSlot_form {session slot} {s : State} (h : s.Form) : OutForm (execUnloadSlot session slot s) :=
  outForm_next (State.rscDo_form h (fun u hu => State.unloadSlot_form hu))

theorem State.spdm_form {s : State} {n phase code w f} (h : s.Form) : (s.spdm n phase code w f).Form :=
  form_ite (fun _ => State.spdmError_form h) fun _ => State.spdmOpen_form (State.setSession_form h)

theorem execGetVersion_form {session w} {s : State} (h : s.Form) : OutForm (execGetVersion session w s) :=
  outForm_next (State.spdm_form h)

theorem execGetCapabilities_form {session w} {s : State} (h : s.Form) : OutForm (execGetCapabilities session w s) :=
  outForm_next (State.rscDo_form h (fun u hu => State.spdm_form hu))

theorem execNegotiateAlgorithms_form {session a} {s : State} (h : s.Form) : OutForm
    (execNegotiateAlgorithms session a s) := by
  unfold execNegotiateAlgorithms
  refine outForm_next (State.rscDo_form h (fun u hu => form_ite (fun _ => State.spdmError_form hu) fun _ =>
    form_ite (fun _ => State.spdm_form hu) fun _ => ?_))
  extract_lets k1 k2
  have hk1 : k1.Form := State.spdmError_form hu
  exact hk1

theorem execGetDigests_form {session w} {s : State} (h : s.Form) : OutForm (execGetDigests session w s) :=
  outForm_next (State.rscDo_form h (fun u hu => State.spdm_form hu))

theorem execGetCertificate_form {session slot w} {s : State} (h : s.Form) : OutForm
    (execGetCertificate session slot w s) :=
  outForm_next (State.rscDo_form h (fun u hu => form_ite (fun _ => State.spdm_form hu) fun _ => State.spdmError_form hu))

theorem execChallenge_form {session w} {s : State} (h : s.Form) : OutForm (execChallenge session w s) :=
  outForm_next (State.rscDo_form h (fun u hu => State.spdm_form hu))

theorem execGetMeasurements_form {x index x1} {s : State} (h : s.Form) : OutForm (execGetMeasurements x index x1 s) :=
  outForm_next (form_ite (fun _ => State.spdmAnswer_form h) fun _ => State.spdmError_form h)

theorem execKeyExchange_form {session betweenPackages w} {s : State} (h : s.Form) : OutForm
    (execKeyExchange session betweenPackages w s) :=
  outForm_next (State.rscDo_form h (fun u hu => State.spdm_form hu))

theorem execFinish_form {session proof} {s : State} (h : s.Form) : OutForm (execFinish session proof s) := by
  unfold execFinish
  refine outForm_next (State.rscDo_form h (fun u hu => form_ite (fun _ => State.spdmError_form hu) fun _ => ?_))
  extract_lets n k2 s1 known k5 k6
  have hs1 : s1.Form := hu
  have hk5 : k5.Form := State.spdmError_form hs1
  exact form_ite (fun _ => State.spdm_form hs1) fun _ => hk5

theorem execEndSession_form {session} {s : State} (h : s.Form) : OutForm (execEndSession session s) := by
  unfold execEndSession
  refine outForm_next (State.rscDo_form h (fun u hu => form_ite (fun _ => State.spdmError_form hu) fun _ => ?_))
  extract_lets s1 k2
  have hs1 : s1.Form := State.spdmOpen_form hu
  exact hs1

theorem State.otherRequest_form {s : State} {code} (h : s.Form) : (s.otherRequest code).Form :=
  form_ite (fun _ => h) fun _ => State.rscDo_form h (fun u hu => State.spdmError_form hu)

theorem execIdeKm_form {session stream key} {s : State} (h : s.Form) : OutForm (execIdeKm session stream key s) :=
  outForm_next (State.rscDo_form h (fun u hu => form_ite (fun _ => State.spdmError_form hu) fun _ => form_ite (fun _ =>
    State.spdmAnswer_form hu) fun _ => State.spdmAnswer_form hu))

theorem execLockInterface_form {session vf} {s : State} (h : s.Form) : OutForm (execLockInterface session vf s) :=
  outForm_next (State.rscDo_form h (fun u hu => form_ite (fun _ => State.spdmError_form hu) fun _ =>
    State.spdmAnswer_form hu))

theorem execStopInterface_form {session vf} {s : State} (h : s.Form) : OutForm (execStopInterface session vf s) :=
  outForm_next (State.rscDo_form h (fun u hu => form_ite (fun _ => State.spdmError_form hu) fun _ =>
    State.spdmAnswer_form hu))

theorem State.tdiError_form {s : State} {v} (h : s.Form) : (s.tdiError v).Form := by
  unfold State.tdiError
  refine form_ite (fun _ => h) fun _ => ?_
  extract_lets s1 s2
  have hs1 : s1.Form := h
  have hs2 : s2.Form := form_foldl hs1 fun u a hu => State.cancelJob_form hu
  exact form_foldl hs2 fun u a hu => State.haltQueue_form hu

end Sys2Proof.Machine
end

section
/-!
SUPPORT, of O60. What `Machine/Cp.lean` does keeps the canonical form of the memory: the command processors' custom
instructions.
-/
namespace Sys2Proof.Machine

theorem State.setCp_form {s : State} {n c} (h : s.Form) : (s.setCp n c).Form := h
theorem State.cpTrap_form {s : State} {cause tval} (h : s.Form) : (s.cpTrap cause tval).Form := State.setCp_form h
theorem State.cpDone_form {s : State} {rd v} (h : s.Form) : (s.cpDone rd v).Form := State.setCp_form h

theorem execRfetch_form {x} {s : State} (h : s.Form) :
    OutForm (execRfetch x s) := by
  unfold execRfetch
  extract_lets c a at_ q y i
  refine outForm_next (form_ite (fun _ => State.cpTrap_form h) fun _ => form_ite (fun _ => State.cpTrap_form h) fun _ =>
    form_ite (fun _ => State.cpTrap_form h) fun _ => form_ite (fun _ => State.cpTrap_form h) fun _ => ?_)
  have hr := (State.choose_form (State.readRing_form (q := q) (i := i) (len := 64) h)).snd
  refine form_ite (fun _ => State.cpTrap_form (State.haltQueue_form hr)) fun _ => ?_
  have hp : ∀ bs, (((s.readRing q i 64).choose).2.pokeBytes 0 (cpKey s.curCp at_) bs).Form := fun _ =>
    State.pokeBytes_form hr
  exact State.cpDone_form (hp _)

theorem State.sigwaitBy_form {s : State} {look : Look} {rel x} (h : s.Form) (hlook : ∀ u a1 a2 a3, u.Form → OkForm
    (look u a1 a2 a3)) : (s.sigwaitBy look rel x).Form := by
  unfold State.sigwaitBy
  refine form_ite (fun _ => State.cpTrap_form h) fun _ => ?_
  split
  · exact State.cpTrap_form h
  · refine form_ite (fun _ => State.cpTrap_form h) fun _ => form_ite (fun _ => State.cpTrap_form h) fun _ => ?_
    split
    · exact State.cpTrap_form (State.noteBad_form h)
    · rename_i e1
      exact form_ite (fun _ => State.cpDone_form (OkForm.of_eq e1 (hlook _ _ _ _ h))) fun _ =>
        State.setCp_form (OkForm.of_eq e1 (hlook _ _ _ _ h))

theorem State.sigwait_form {s : State} {rel x} (h : s.Form) : (s.sigwait rel x).Form :=
  State.sigwaitBy_form h (fun u j va n hu => State.gRead_form hu)

theorem execSigwait_form {rel x} {s : State} (h : s.Form) : OutForm (execSigwait rel x s) :=
  outForm_next (State.sigwait_form h)

theorem lookAt_form {v s : State} {j va n} (h : s.Form) : OkForm (lookAt v s j va n) := okForm_map fun _ => h

theorem State.seeQueue_form {o s : State} {q x} (h : s.Form) : (o.seeQueue s q x).Form := by
  unfold State.seeQueue
  split
  · exact h
  · exact form_foldl h fun u v hu =>
      form_ite (fun _ => State.waitMemBy_form hu fun _ _ _ _ hs => lookAt_form hs) fun _ => hu

theorem State.seeRun_form {o s : State} {r} (h : s.Form) : (o.seeRun s r).Form := by
  unfold State.seeRun
  extract_lets block
  clear_value block
  split
  · exact h
  · exact form_foldl h fun u v hu =>
      form_ite (fun _ => State.loopNodeBy_form hu fun _ _ _ _ hs => lookAt_form hs) fun _ => hu

theorem State.seeCp_form {o s : State} {n c} (h : s.Form) : (o.seeCp s n c).Form := by
  unfold State.seeCp
  split
  · refine form_foldl h fun u v hu => form_ite (fun _ => ?_) fun _ => hu
    have hv : ({ u with curCp := n } : State).Form := hu
    exact State.sigwaitBy_form hv fun _ _ _ _ hs => lookAt_form hs
  · exact h

theorem State.seen_form {s : State} (h : s.Form) : (s.seen).Form := by
  unfold State.seen
  exact form_foldl (form_foldl (form_foldl h fun _ _ hu => State.seeQueue_form hu) fun _ _ hu => State.seeRun_form hu)
    fun _ _ hu => State.seeCp_form hu

theorem execDisp_form {x} {s : State} (h : s.Form) :
    OutForm (execDisp x s) := by
  unfold execDisp
  extract_lets c va
  refine outForm_next ?_
  split
  · exact State.cpTrap_form h
  · exact form_ite (fun _ => State.cpTrap_form h) fun _ => State.cpDone_form (State.dispatch_form h).snd

end Sys2Proof.Machine
end

section
/-!
SUPPORT, of O60. What `Machine/Fabric.lean` does keeps the canonical form of the memory: requests, packets and answers
of the fabric and of the host.
-/
namespace Sys2Proof.Machine

theorem State.setPeer_form {s : State} {pkg p} (h : s.Form) : (s.setPeer pkg p).Form := h
theorem State.onTransfer_form {s : State} {num f} (h : s.Form) : (s.onTransfer num f).Form := h

theorem State.transferFaulted_form {s : State} {num write code cause} (h : s.Form) :
    (s.transferFaulted num write code cause).Form := by
  unfold State.transferFaulted
  split
  · exact State.copyFaulted_form h
  · exact h

theorem State.copyRefused_form {s : State} {bytes ofs num code cause} (h : s.Form) :
    (s.copyRefused bytes ofs num code cause).Form :=
  State.transferFaulted_form (State.onTransfer_form h)

theorem State.breakPair_form {s : State} {pkg} (h : s.Form) : (s.breakPair pkg).Form := by
  unfold State.breakPair
  extract_lets k1 s1 ended
  have hs1 : s1.Form := State.setPeer_form h
  refine form_foldl hs1 fun u a hu => ?_
  split
  · exact State.copyRefused_form hu
  · exact State.transferFaulted_form hu
  · exact hu

theorem State.tagFailed_form {s : State} {pkg name} (h : s.Form) : (s.tagFailed pkg name).Form := by
  unfold State.tagFailed
  extract_lets n k2 s1
  have hs1 : s1.Form := State.setPeer_form h
  exact form_ite (fun _ => State.breakPair_form hs1) fun _ => hs1

theorem State.tagHolds_form {s : State} {pkg name} (h : s.Form) : (s.tagHolds pkg name).Form := State.setPeer_form h
theorem State.answerFab_form {s : State} {pkg seq a} (h : s.Form) : (s.answerFab pkg seq a).Form := h

theorem State.applyOp_form {s : State} {src pa op vf} (h : s.Form) :
    PairForm (s.applyOp src pa op vf) := by
  unfold State.applyOp
  split
  rename_i pas op _
  extract_lets key read write
  have hread : ∀ n f, (∀ bs, PairForm (f bs)) → PairForm (read n f) := by
    intro n f hf
    unfold read
    split
    · split
      · exact pairForm_mk (State.logCheck_form h)
      · exact hf _
    · split
      · exact pairForm_mk (State.logCheck_form h)
      · exact hf _
  have hwrite : ∀ bs, (write bs).Form := by
    intro bs
    unfold write
    split
    · exact State.commitBytes_form h
    · exact form_foldl h fun u a hu => State.commitBytes_form hu
  clear_value read write
  split
  · exact hread _ _ fun _ => pairForm_mk h
  · exact pairForm_mk (hwrite _)
  · extract_lets w
    refine hread _ _ fun _ => pairForm_mk ?_
    split
    · exact hwrite _
    · exact h
  · refine hread _ _ fun _ => ?_
    split
    exact pairForm_mk (hwrite _)
  · exact pairForm_mk h

theorem State.applyFab_form {s : State} {src seq pa op vf} (h : s.Form) : (s.applyFab src seq pa op vf).Form := by
  unfold State.applyFab
  refine State.answerFab_form (PairForm.snd ?_)
  split
  · beta_reduce
    split
    · split
      · exact pairForm_mk (State.logCheck_form h)
      · exact pairForm_mk h
    · split
      · exact pairForm_mk (State.logCheck_form h)
      · exact pairForm_mk h
  · refine pairForm_mk ?_
    beta_reduce
    split
    · exact State.commitBytes_form h
    · exact form_foldl h fun u a2 hu => State.commitBytes_form hu
  · extract_lets w
    beta_reduce
    split
    · split
      · exact pairForm_mk (State.logCheck_form h)
      · refine pairForm_mk ?_
        split
        · exact State.commitBytes_form h
        · exact h
    · split
      · exact pairForm_mk (State.logCheck_form h)
      · refine pairForm_mk ?_
        split
        · exact form_foldl h fun u a8 hu => State.commitBytes_form hu
        · exact h
  · beta_reduce
    split
    · split
      · exact pairForm_mk (State.logCheck_form h)
      · exact pairForm_mk (State.commitBytes_form h)
    · split
      · exact pairForm_mk (State.logCheck_form h)
      · exact pairForm_mk (form_foldl h fun u a5 hu => State.commitBytes_form hu)
  · exact pairForm_mk h

theorem State.fabricApply_form {s : State} {r} (h : s.Form) : (s.fabricApply r).Form := by
  unfold State.fabricApply
  refine form_ite (fun _ => h) fun _ => form_ite (fun _ => State.tagFailed_form h) fun _ => ?_
  extract_lets s1 k2
  have hs1 : s1.Form := State.tagHolds_form h
  exact form_ite (fun _ => hs1) fun _ => form_ite (fun _ => State.answerFab_form hs1) fun _ => form_ite (fun _ => hs1)
    fun _ => State.applyFab_form (State.setPeer_form hs1)

theorem State.packetApply_form {s : State} {p} (h : s.Form) :
    (s.packetApply p).Form := by
  unfold State.packetApply
  refine form_ite (fun _ => h) fun _ => form_ite (fun _ => State.tagFailed_form h) fun _ => ?_
  extract_lets s1 key done n
  have hs1 : s1.Form := State.tagHolds_form h
  refine form_ite (fun _ => State.answerFab_form hs1) fun _ => form_ite (fun _ => State.answerFab_form hs1) fun _ => ?_
  split
  rename_i bs u e
  extract_lets k1 s2 s3
  have hu := (State.applyOp_form hs1).of_eq e
  have hs2 : s2.Form := hu
  have hs3 : s3.Form := by
    unfold s3
    split
    · exact form_ite (fun _ => State.commitBytes_form hs2) fun _ => hs2
    · exact hs2
  exact State.answerFab_form hs3

theorem State.storeAcked_form {s : State} {id refused} (h : s.Form) : (s.storeAcked id refused).Form := h

theorem State.pieceAnswered_form {s : State} {t id bs} (h : s.Form) : (s.pieceAnswered t id bs).Form :=
  State.updTile_form h

theorem State.pieceAgain_form {s : State} {t id m} (h : s.Form) : (s.pieceAgain t id m).Form := State.updTile_form h

theorem State.pieceBad_form {s : State} {t id} (h : s.Form) : (s.pieceBad t id).Form := by
  unfold State.pieceBad
  split
  · exact h
  · exact State.pendCore_form (State.logCheck_form (State.letGo_form (State.updTile_form h)))

theorem State.fabricAck_form {s : State} {id data st} (h : s.Form) : (s.fabricAck id data st).Form := by
  unfold State.fabricAck
  split
  · refine form_ite (fun _ => State.tagFailed_form h) fun _ => form_ite (fun _ => State.breakPair_form h) fun _ =>
      form_ite (fun _ => h) fun _ => ?_
    extract_lets s1 k2 s2
    have hs1 : s1.Form := State.tagHolds_form h
    have hs2 : s2.Form := hs1
    split
    · exact State.updCore_form hs2
    · exact State.storeAcked_form hs2
    · exact form_ite (fun _ => State.pieceAgain_form hs2) fun _ => form_ite (fun _ => State.pieceBad_form hs2) fun _ =>
        State.pieceAnswered_form hs2
    · refine form_ite (fun _ => State.copyRefused_form hs2) fun _ => form_ite (fun _ => State.copyRefused_form hs2)
        fun _ => ?_
      extract_lets s3
      have hs3 : s3.Form := form_ite (fun _ => State.onTransfer_form hs2) fun _ => hs2
      split
      · exact State.copyEnd_form hs3
      · exact hs3
    · exact form_ite (fun _ => State.transferFaulted_form hs2) fun _ => form_ite (fun _ => State.transferFaulted_form hs2)
        fun _ => State.onTransfer_form hs2
  · exact h

theorem State.standFence_form {s : State} {t k f} (h : s.Form) : (s.standFence t k f).Form := by
  unfold State.standFence
  extract_lets c fault
  split
  · exact form_ite (fun _ => form_ite (fun _ => h) fun _ => State.enterTrap_form (State.setCore_form h)) fun _ =>
      form_ite (fun _ => form_ite (fun _ => h) fun _ => State.enterTrap_form (State.setCore_form h)) fun _ => h
  · exact State.setCore_form h
  · split
    · exact form_ite (fun _ => h) fun _ => (State.sendHostRead_form h).snd
    · exact h

theorem execFabricAck_form {id data st} {s : State} (h : s.Form) : OutForm (execFabricAck id data st s) :=
  outForm_next (State.fabricAck_form h)

theorem State.hostReadDone_form {s : State} {id data} (h : s.Form) : (s.hostReadDone id data).Form := by
  unfold State.hostReadDone
  split
  · exact h
  · refine form_ite (fun _ => h) fun _ => ?_
    extract_lets s1
    have hs1 : s1.Form := h
    refine form_ite (fun _ => State.updCore_form hs1) fun _ =>
      State.pieceAnswered_form (State.updCore_form (PairForm.snd ?_))
    split
    · exact pairForm_mk hs1
    · exact pairForm_mk hs1

theorem execHostReadCompletion_form {id data} {s : State} (h : s.Form) : OutForm (execHostReadCompletion id data s) :=
  outForm_next (State.hostReadDone_form h)

theorem State.blockReread_form {s : State} {t k id} (h : s.Form) : (s.blockReread t k id).Form :=
  form_ite (fun _ => State.setCore_form h) fun _ => h

theorem execRemoteBlockReread_form {t k id} {s : State} (h : s.Form) : OutForm (execRemoteBlockReread t k id s) :=
  outForm_next (State.blockReread_form h)

end Sys2Proof.Machine
end

section
/-!
SUPPORT, of O60. What `Machine/Scalar.lean` does keeps the canonical form of the memory: the scalar instructions.
-/
namespace Sys2Proof.Machine

theorem un_keeps {x f} : (un x f).Keeps := readA_keeps.bind fun _ => writeOpd_keeps
theorem bin_keeps {x f} : (bin x f).Keeps := readA_keeps.bind fun a => readB_keeps.bind fun _ => writeOpd_keeps

theorem tri_keeps {x f} : (tri x f).Keeps :=
  readA_keeps.bind fun a => readB_keeps.bind fun b => readC_keeps.bind fun _ => writeOpd_keeps

theorem unF_keeps {x f} : (unF x f).Keeps := readA_keeps.bind fun a => writeOpd_keeps.bind fun _ => addFlags_keeps

theorem binF_keeps {x f} : (binF x f).Keeps :=
  readA_keeps.bind fun a => readB_keeps.bind fun b => writeOpd_keeps.bind fun _ => addFlags_keeps

theorem viewBin_keeps {x f} : (viewBin x f).Keeps := bin_keeps
theorem viewCmp_keeps {x f} : (viewCmp x f).Keeps := bin_keeps

end Sys2Proof.Machine
end

section
/-!
SUPPORT, of O60. What `Machine/Dispatch.lean` does keeps the canonical form of the memory: every instruction.
-/
namespace Sys2Proof.Machine

theorem exec_form {i} {s : State} (h : s.Form) : OutForm (exec i s) := by
  unfold exec
  cases i with
  | add _ => exact runCore_form viewBin_keeps h
  | sub _ => exact runCore_form viewBin_keeps h
  | mul _ => exact runCore_form viewBin_keeps h
  | mulh _ => exact runCore_form bin_keeps h
  | div _ => exact runCore_form binF_keeps h
  | rem _ => exact runCore_form binF_keeps h
  | madd _ => exact runCore_form tri_keeps h
  | msub _ => exact runCore_form tri_keeps h
  | addx _ => exact runCore_form tri_keeps h
  | addco _ => exact runCore_form tri_keeps h
  | subx _ => exact runCore_form tri_keeps h
  | subbo _ => exact runCore_form tri_keeps h
  | abs _ => exact runCore_form un_keeps h
  | neg _ => exact runCore_form un_keeps h
  | absd _ => exact runCore_form viewBin_keeps h
  | avg _ => exact runCore_form viewBin_keeps h
  | and _ => exact runCore_form bin_keeps h
  | or _ => exact runCore_form bin_keeps h
  | xor _ => exact runCore_form bin_keeps h
  | andn _ => exact runCore_form bin_keeps h
  | orn _ => exact runCore_form bin_keeps h
  | xnor _ => exact runCore_form bin_keeps h
  | mov _ => exact runCore_form un_keeps h
  | mux _ => exact runCore_form tri_keeps h
  | shl _ => exact runCore_form bin_keeps h
  | shr _ => exact runCore_form bin_keeps h
  | sar _ => exact runCore_form bin_keeps h
  | rol _ => exact runCore_form bin_keeps h
  | ror _ => exact runCore_form bin_keeps h
  | popc _ => exact runCore_form un_keeps h
  | clz _ => exact runCore_form un_keeps h
  | ctz _ => exact runCore_form un_keeps h
  | min _ => exact runCore_form viewBin_keeps h
  | max _ => exact runCore_form viewBin_keeps h
  | sel _ => exact runCore_form tri_keeps h
  | cmpeq _ => exact runCore_form viewCmp_keeps h
  | cmpne _ => exact runCore_form viewCmp_keeps h
  | cmplt _ => exact runCore_form viewCmp_keeps h
  | cmple _ => exact runCore_form viewCmp_keeps h
  | tst _ => exact runCore_form bin_keeps h
  | pand _ => exact runCore_form bin_keeps h
  | por _ => exact runCore_form bin_keeps h
  | pxor _ => exact runCore_form bin_keeps h
  | pandn _ => exact runCore_form bin_keeps h
  | sadd _ => exact runCore_form binF_keeps h
  | ssub _ => exact runCore_form binF_keeps h
  | smul _ => exact runCore_form binF_keeps h
  | sshl _ => exact runCore_form binF_keeps h
  | addi _ => exact runCore_form un_keeps h
  | rsubi _ => exact runCore_form un_keeps h
  | muli _ => exact runCore_form un_keeps h
  | divi _ => exact runCore_form unF_keeps h
  | remi _ => exact runCore_form unF_keeps h
  | andi _ => exact runCore_form un_keeps h
  | ori _ => exact runCore_form un_keeps h
  | xori _ => exact runCore_form un_keeps h
  | shli _ => exact runCore_form un_keeps h
  | shri _ => exact runCore_form un_keeps h
  | sari _ => exact runCore_form un_keeps h
  | roli _ => exact runCore_form un_keeps h
  | rori _ => exact runCore_form un_keeps h
  | mini _ => exact runCore_form un_keeps h
  | maxi _ => exact runCore_form un_keeps h
  | saddi _ => exact runCore_form unF_keeps h
  | lil _ => exact runCore_form writeOpd_keeps h
  | lih _ => exact runCore_form un_keeps h
  | scadd _ => exact runCore_form bin_keeps h
  | scaddu _ => exact runCore_form bin_keeps h
  | bfx _ => exact runCore_form un_keeps h
  | bfxs _ => exact runCore_form un_keeps h
  | bfi _ => exact runCore_form bin_keeps h
  | bfxr _ => exact runCore_form bin_keeps h
  | bfir _ => exact runCore_form tri_keeps h
  | cmpeqi _ => exact runCore_form un_keeps h
  | cmpnei _ => exact runCore_form un_keeps h
  | cmplti _ => exact runCore_form un_keeps h
  | cmplei _ => exact runCore_form un_keeps h
  | cmpgti _ => exact runCore_form un_keeps h
  | cmpgei _ => exact runCore_form un_keeps h
  | tsti _ => exact runCore_form un_keeps h
  | nop _ => exact runCore_form pure_keeps h
  | endTask _ => exact runCore_form (modRegs_keeps.bind fun a => atCommit_keeps) h
  | br _ => exact runCore_form branchIf_keeps h
  | bnz _ => exact runCore_form (readA_keeps.bind fun a => branchIf_keeps) h
  | bz _ => exact runCore_form (readA_keeps.bind fun a => branchIf_keeps) h
  | beod _ => exact runCore_form (getRegs_keeps.bind fun a => branchIf_keeps) h
  | bneod _ => exact runCore_form (getRegs_keeps.bind fun a => branchIf_keeps) h
  | dbnz _ => exact runCore_form (readA_keeps.bind fun a => writeOpd_keeps.bind fun _ => branchIf_keeps) h
  | brr _ => exact runCore_form (readA_keeps.bind fun a => branchIf_keeps) h
  | btab _ => exact runCore_form (readA_keeps.bind fun a => branchIf_keeps) h
  | call _ => exact runCore_form callTo_keeps h
  | callr _ => exact runCore_form (readA_keeps.bind fun a => callTo_keeps) h
  | ret _ => exact execRet_form h
  | yield _ => exact runCore_form (getState_keeps.bind fun a => keeps_when exhausted_keeps fun _ => atCommit_keeps) h
  | trap _ => exact runCore_form (getState_keeps.bind fun _ => atCommit_keeps) h
  | tfence _ => exact execTfence_form h
  | sbind _ => exact runCore_form (readA_keeps.bind fun _ => bindTo_keeps) h
  | sbindc _ => exact execSbindc_form h
  | sunb _ => exact runCore_form (getRegs_keeps.bind fun _ => keeps_ite (fun _ => modRegs_keeps) fun _ => pure_keeps) h
  | srew _ => exact runCore_form (needBound_keeps.bind fun _ => modRegs_keeps) h
  | sskip _ => exact execSskip_form h
  | spos _ => exact runCore_form (needBound_keeps.bind fun _ => writeOpd_keeps) h
  | speek _ => exact runCore_form (streamPeek_keeps.bind fun _ => writeOpd_keeps) h
  | sstat _ => exact runCore_form (getRegs_keeps.bind fun r => writeOpd_keeps) h
  | ld _ => exact runCore_form (readEa_keeps.bind fun a => loadInt_keeps.bind fun _ => writeOpd_keeps) h
  | st _ => exact execSt_form h
  | ldf _ => exact runCore_form (readEa_keeps.bind fun a => loadFloat_keeps.bind fun _ => writeOpd_keeps) h
  | stf _ => exact execStf_form h
  | ldp _ => exact runCore_form (readEa_keeps.bind fun a => loadPair_keeps) h
  | stp _ => exact runCore_form (readEa_keeps.bind fun a => storePair_keeps) h
  | ldi _ => exact execLdi_form h
  | sti _ => exact execSti_form h
  | ldfi _ => exact execLdfi_form h
  | stfi _ => exact execStfi_form h
  | pref _ => exact runCore_form pure_keeps h
  | zline _ => exact execZline_form h
  | ldo _ => exact execLdo_form h
  | sto _ => exact execSto_form h
  | ldpi _ => exact execLdpi_form h
  | stpi _ => exact execStpi_form h
  | bmov _ => exact runPieces_form (keeps_ite (fun _ => moveBackward_keeps) fun _ => moveForward_keeps) h
  | bfill _ => exact runPieces_form fillPiece_keeps h
  | sptest _ => exact runCore_form (readA_keeps.bind fun a => getState_keeps.bind fun _ => writeOpd_keeps) h
  | spcast _ => exact execSpcast_form h
  | aadd _ _ => exact execAadd_form h
  | aand _ _ => exact execAand_form h
  | aor _ _ => exact execAor_form h
  | axor _ _ => exact execAxor_form h
  | amax _ _ => exact execAmax_form h
  | amin _ _ => exact execAmin_form h
  | axchg _ _ => exact execAxchg_form h
  | acas _ _ => exact execAcas_form h
  | fence _ => exact runCore_form atCommit_keeps h
  | fenceF _ => exact execFenceF_form h
  | fenceE _ => exact runCore_form fenceBody_keeps h
  | fenceH _ => exact runCore_form fenceBody_keeps h
  | give _ => exact execGive_form h
  | take _ => exact execTake_form h
  | ttake _ => exact execTtake_form h
  | ownr _ => exact execOwnr_form h
  | semset _ => exact runCore_form (readA_keeps.bind fun _ => semPut_keeps) h
  | semadd _ => exact execSemadd_form h
  | semrd _ => exact runCore_form (semNow_keeps.bind fun _ => writeOpd_keeps) h
  | semtry _ => exact execSemtry_form h
  | semwait _ => exact execSemwait_form h
  | semz _ => exact runCore_form (semNow_keeps.bind fun _ => semPut_keeps.bind fun _ => writeOpd_keeps) h
  | vote _ => exact runCore_form voteBody_keeps h
  | votev _ => exact runCore_form voteBody_keeps h
  | copy _ => exact execCopy_form h
  | copy2 _ => exact execCopy2_form h
  | redp _ => exact execRedp_form h
  | apf _ => exact execApf_form h
  | cfill _ => exact execCfill_form h
  | twany _ => exact execTwany_form h
  | twall _ => exact execTwall_form h
  | tfind _ => exact runCore_form (readA_keeps.bind fun _ => getState_keeps.bind fun _ => writeOpd_keeps) h
  | cres _ => exact execCres_form h
  | ccan _ => exact execCcan_form h
  | tstat _ => exact runCore_form (readA_keeps.bind fun a => getState_keeps.bind fun _ => writeOpd_keeps) h
  | twait _ => exact execTwait_form h
  | vadd _ => exact runCore_form arithOp_keeps h
  | vsub _ => exact runCore_form arithOp_keeps h
  | vmul _ => exact runCore_form arithOp_keeps h
  | vfma _ => exact runCore_form arithOp_keeps h
  | vfms _ => exact runCore_form arithOp_keeps h
  | vfnma _ => exact runCore_form arithOp_keeps h
  | vmin _ => exact runCore_form laneOp_keeps h
  | vmax _ => exact runCore_form laneOp_keeps h
  | vabs _ => exact runCore_form laneOp_keeps h
  | vneg _ => exact runCore_form laneOp_keeps h
  | vdiv _ => exact runCore_form laneOp_keeps h
  | vand _ => exact runCore_form logicOp_keeps h
  | vor _ => exact runCore_form logicOp_keeps h
  | vxor _ => exact runCore_form logicOp_keeps h
  | vshl _ => exact runCore_form laneOp_keeps h
  | vshr _ => exact runCore_form laneOp_keeps h
  | vcmpeq _ => exact runCore_form compareOp_keeps h
  | vcmpne _ => exact runCore_form compareOp_keeps h
  | vcmplt _ => exact runCore_form compareOp_keeps h
  | vcmple _ => exact runCore_form compareOp_keeps h
  | vcmpun _ => exact runCore_form compareOp_keeps h
  | vsel _ => exact execVsel_form h
  | vmcnt _ => exact runCore_form (maskBits_keeps.bind fun _ => writeOpd_keeps) h
  | vmff _ => exact runCore_form (maskBits_keeps.bind fun _ => writeOpd_keeps) h
  | vrsum _ => exact execVrsum_form h
  | vrmax _ => exact runCore_form extremeOp_keeps h
  | vrmin _ => exact runCore_form extremeOp_keeps h
  | vramax _ => exact runCore_form (activeVals_keeps.bind fun _ => addFlags_keeps.bind fun _ => writeAll_keeps) h
  | vscan _ => exact runCore_form scanOp_keeps h
  | vscanx _ => exact runCore_form scanOp_keeps h
  | vtopk _ => exact runCore_form topkOp_keeps h
  | vtopki _ => exact runCore_form topkOp_keeps h
  | vperm _ => exact runCore_form (getRegs_keeps.bind fun a => readLanes_keeps.bind fun _ => writeLanes_keeps) h
  | vbcast _ => exact runCore_form (getRegs_keeps.bind fun a => readA_keeps.bind fun _ => writeLanes_keeps) h
  | vext _ => exact runCore_form (readB_keeps.bind fun _ => getRegs_keeps.bind fun _ => writeOpd_keeps) h
  | vins _ => exact execVins_form h
  | viota _ => exact runCore_form (getRegs_keeps.bind fun a => readA_keeps.bind fun _ => writeLanes_keeps) h
  | vgath _ => exact runCore_form (readA_keeps.bind fun a => getRegs_keeps.bind fun _ => loadLanes_keeps) h
  | vscat _ => exact execVscat_form h
  | vrand _ => exact execVrand_form h
  | vld _ => exact execVld_form h
  | vst _ => exact execVst_form h
  | vlds _ => exact execVlds_form h
  | vsts _ => exact execVsts_form h
  | vldbc _ => exact execVldbc_form h
  | vstc _ => exact execVstc_form h
  | vldm _ => exact execVldm_form h
  | vstm _ => exact execVstm_form h
  | cvt _ _ => exact execCvt_form h
  | frnd _ => exact runCore_form scalarFn_keeps h
  | vcvt _ _ => exact execVcvt_form h
  | vfrnd _ => exact runCore_form vectorFn_keeps h
  | venc _ => exact execVenc_form h
  | vdec _ => exact execVdec_form h
  | exp2 _ => exact runCore_form scalarFn_keeps h
  | log2 _ => exact runCore_form scalarFn_keeps h
  | rcp _ => exact runCore_form scalarFn_keeps h
  | rsq _ => exact runCore_form scalarFn_keeps h
  | vexp2 _ => exact runCore_form vectorFn_keeps h
  | vlog2 _ => exact runCore_form vectorFn_keeps h
  | vrcp _ => exact runCore_form vectorFn_keeps h
  | vrsq _ => exact runCore_form vectorFn_keeps h
  | mgang _ => exact runCore_form (.bind (modState_keeps (fun u hu => State.setMe_form hu)) fun a => gangBody_keeps) h
  | mldb _ => exact execMldb_form h
  | mma _ => exact runCore_form gangBody_keeps h
  | mmg _ => exact runCore_form gangBody_keeps h
  | mred _ => exact runCore_form gangBody_keeps h
  | mredg _ => exact runCore_form gangBody_keeps h
  | mmv _ => exact execMmv_form h
  | mclr _ => exact execMclr_form h
  | mdrain _ => exact execMdrain_form h
  | mstat _ => exact execMstat_form h
  | mspill _ => exact execMspill_form h
  | mfill _ => exact execMfill_form h
  | bred _ => exact runCore_form exchangeBody_keeps h
  | bmax _ => exact runCore_form exchangeBody_keeps h
  | bstream _ => exact runCore_form exchangeBody_keeps h
  | barr _ => exact execBarr_form h
  | bwait _ => exact runCore_form (getState_keeps.bind fun _ => keeps_ite (fun _ => stallWait_keeps) fun _ =>
    pure_keeps) h
  | bstat _ => exact runCore_form (getState_keeps.bind fun _ => writeOpd_keeps) h
  | bchk _ => exact execBchk_form h
  | bkey _ => exact execBkey_form h
  | benrol _ => exact execBenrol_form h
  | bleave _ => exact execBleave_form h
  | zgen _ => exact execZgen_form h
  | zregen _ => exact runCore_form (getRegs_keeps.bind fun _ => zIssue_keeps) h
  | zand _ => exact runCore_form zBits_keeps h
  | zxnor _ => exact runCore_form zBits_keeps h
  | zmux _ => exact runCore_form zBits_keeps h
  | znot _ => exact runCore_form zBits_keeps h
  | zcnt _ => exact execZcnt_form h
  | zld _ => exact execZld_form h
  | zst _ => exact execZst_form h
  | zclass _ => exact runCore_form (zWait_keeps.bind fun _ => getRegs_keeps.bind fun r => writeOpd_keeps) h
  | rdc _ => exact runCore_form (getState_keeps.bind fun _ => keeps_when faultIp_keeps fun _ => writeOpd_keeps) h
  | wrc _ => exact runCore_form wrcBody_keeps h
  | wrcCspill _ => exact execWrcCspill_form h
  | wrcCras _ => exact execWrcCras_form h
  | trapret _ => exact runCore_form (getState_keeps.bind fun _ => keeps_when throwTrap_keeps fun a => takeTo_keeps) h
  | ctxsave _ => exact runCore_form (modState_keeps (fun u hu => State.saveArea_form hu)) h
  | ctxload _ => exact execCtxload_form h
  | tlbip _ => exact execTlbip_form h
  | tlbic _ => exact runCore_form (readA_keeps.bind fun a => atCommit_keeps) h
  | aptset _ => exact execAptset_form h
  | aptrd _ => exact execAptrd_form h
  | tickwait _ => exact execTickwait_form h
  | phaseend _ => exact runCore_form atCommit_keeps h
  | canl _ => exact runCore_form (readA_keeps.bind fun a => getState_keeps.bind fun _ => cancelNamed_keeps) h
  | cang _ => exact runCore_form (readA_keeps.bind fun a => getState_keeps.bind fun _ => cancelNamed_keeps) h
  | canp _ => exact execCanp_form h
  | canj _ => exact runCore_form (readA_keeps.bind fun a => getState_keeps.bind fun _ => cancelNamed_keeps) h
  | cbld _ => exact runCore_form (readA_keeps.bind fun a => loadAt_keeps.bind fun _ => atCommit_keeps) h
  | atomicPerform _ _ => exact execAtomicPerform_form h
  | semGrant _ => exact outForm_next (State.semGrant_form h)
  | semOverflow _ => exact outForm_next (State.semOverflow_form h)
  | copyPiece _ _ _ => exact execCopyPiece_form h
  | gangTimeout _ => exact execGangTimeout_form h
  | matrixComplete _ => exact outForm_next (State.slotsSettle_form (State.matrixDone_form h))
  | matrixMismatch _ => exact execMatrixMismatch_form h
  | mediumFrame _ _ => exact execMediumFrame_form h
  | exchangeComplete _ => exact outForm_next (State.exchangeDone_form h)
  | busFaultTaken _ => exact outForm_next (State.event_form h)
  | stochEngineComplete _ => exact outForm_next (State.stochDone_form h)
  | chunkCommit _ _ => exact execChunkCommit_form h
  | translationWalk _ _ _ _ _ => exact execTranslationWalk_form h
  | fabricRequestApply _ => exact outForm_next (State.fabricApply_form h)
  | fabricAck _ _ _ => exact execFabricAck_form h
  | fabricDataPacket _ => exact outForm_next (State.packetApply_form h)
  | tickSlip _ _ => exact execTickSlip_form h
  | cancel _ _ => exact execCancel_form h
  | cancelStop _ _ => exact execCancelStop_form h
  | machineCheck _ => exact outForm_next (State.machineCheck_form h)
  | preemptForced _ _ => exact execPreemptForced_form h
  | watchSave _ => exact outForm_next (State.watchSave_form h)
  | saveComplete _ => exact outForm_next (State.saveComplete_form h)
  | watchRestore _ => exact outForm_next (form_ite (fun _ => State.placePass_form h) fun _ => h)
  | gangSlip _ => exact outForm_next (State.gangSlip_form h)
  | launchDispatch _ _ => exact execLaunchDispatch_form h
  | launchPlace => exact execLaunchPlace_form h
  | launchAged _ => exact execLaunchAged_form h
  | tileDrainDone _ => exact outForm_next (State.drainDone_form h)
  | graphNodeEnd _ => exact execGraphNodeEnd_form h
  | graphNodeLaunch _ => exact execGraphNodeLaunch_form h
  | graphNodeJoin _ => exact execGraphNodeJoin_form h
  | graphNodeCond _ => exact execGraphNodeCond_form h
  | graphNodeLoop _ => exact outForm_next (State.loopNode_form h)
  | tickArm _ => exact outForm_next (State.tickArm_form h)
  | tickStartEvent _ _ => exact execTickStartEvent_form h
  | packetFetch _ _ _ => exact execPacketFetch_form h
  | packetStart _ => exact execPacketStart_form h
  | packetNop _ => exact execPacketNop_form h
  | openJob _ => exact execOpenJob_form h
  | closeJob _ => exact execCloseJob_form h
  | runGraph _ => exact execRunGraph_form h
  | packetCancel _ => exact execPacketCancel_form h
  | waitMem _ => exact outForm_next (State.waitMem_form h)
  | writeMem _ => exact execWriteMem_form h
  | packetComplete _ _ => exact execPacketComplete_form h
  | queueTailWrite _ _ => exact execQueueTailWrite_form h
  | queueHaltClear _ _ => exact execQueueHaltClear_form h
  | queueHeadWrite _ _ => exact execQueueHeadWrite_form h
  | queueEnableWrite _ _ => exact execQueueEnableWrite_form h
  | hostRegisterWrite _ _ _ => exact execHostRegisterWrite_form h
  | hostWindowWrite _ _ _ => exact execHostWindowWrite_form h
  | hostWindowRead _ _ _ => exact execHostWindowRead_form h
  | wvalRead _ => exact outForm_next (form_ite (fun _ => h) fun _ => State.wvalRead_form h)
  | migrationStop _ _ => exact execMigrationStop_form h
  | errorCounterClear _ => exact outForm_next (State.clearCounter_form h)
  | manifest _ => exact outForm_next (State.mboxDo_form h (fun u hu => State.manifest_form hu))
  | leave => exact execLeave_form h
  | switch => exact execSwitch_form h
  | handle _ _ _ _ => exact execHandle_form h
  | mlog _ => exact execMlog_form h
  | domainForm _ => exact outForm_next (State.rscDo_form h (fun u hu => State.formDomain_form hu))
  | domainKey _ _ _ _ _ => exact execDomainKey_form h
  | domainAck _ => exact execDomainAck_form h
  | loadSlot _ _ _ _ => exact execLoadSlot_form h
  | unloadSlot _ _ => exact execUnloadSlot_form h
  | getVersion _ _ => exact execGetVersion_form h
  | getCapabilities _ _ => exact execGetCapabilities_form h
  | negotiateAlgorithms _ _ => exact execNegotiateAlgorithms_form h
  | getDigests _ _ => exact execGetDigests_form h
  | getCertificate _ _ _ => exact execGetCertificate_form h
  | challenge _ _ => exact execChallenge_form h
  | getMeasurements _ _ _ => exact execGetMeasurements_form h
  | keyExchange _ _ _ => exact execKeyExchange_form h
  | finish _ _ => exact execFinish_form h
  | keyUpdate _ => exact outForm_next (State.rscDo_form h (fun u hu => State.spdm_form hu))
  | heartbeat _ => exact outForm_next (State.rscDo_form h (fun u hu => State.spdm_form hu))
  | endSession _ => exact execEndSession_form h
  | ideKm _ _ _ => exact execIdeKm_form h
  | lockInterface _ _ => exact execLockInterface_form h
  | stopInterface _ _ => exact execStopInterface_form h
  | tdispViolation _ => exact outForm_next (State.tdiError_form h)
  | mctpControl _ => exact outForm_next (State.openAnswer_form (form_ite (fun _ => h) fun _ => h))
  | entdaa _ => exact outForm_next h
  | sensorRead _ => exact execSensorRead_form h
  | powerCapSet _ => exact outForm_next (form_ite (fun _ => h) fun _ => h)
  | railSwitch _ => exact execRailSwitch_form h
  | errorLogRead _ => exact outForm_next (State.sideAnswer_form h)
  | pldmFirmwareUpdate _ => exact outForm_next (State.openAnswer_form h)
  | powerOn => exact execPowerOn_form h
  | coldStart => exact execColdStart_form h
  | warmStart => exact execWarmStart_form h
  | vfFlr _ => exact outForm_next (form_ite (fun _ => h) fun _ => State.vfReset_form h)
  | scrubPass _ _ => exact execScrubPass_form h
  | rfetch _ => exact execRfetch_form h
  | bfex _ => exact outForm_next (form_ite (fun _ => State.cpTrap_form h) fun _ => State.cpDone_form h)
  | sigwait _ _ => exact execSigwait_form h
  | disp _ => exact execDisp_form h
  | matrixReadDone _ => exact outForm_next (State.slotsSettle_form (State.perform_form h))
  | remoteBlockReread _ _ _ => exact execRemoteBlockReread_form h
  | hostReadCompletion _ _ => exact execHostReadCompletion_form h
  | pldmType0 _ => exact outForm_next (State.openAnswer_form h)

end Sys2Proof.Machine
end

section
/-!
SUPPORT, of O60. What `Machine/Riscv.lean` does keeps the canonical form of the memory: the base instructions of a
command processor.
-/
namespace Sys2Proof.Machine

theorem State.rvGo_form {s : State} {rd v pc} (h : s.Form) : (s.rvGo rd v pc).Form := State.setCp_form h

theorem State.rvLoad_form {s : State} {f3 rd va next} (h : s.Form) : (s.rvLoad f3 rd va next).Form :=
  form_ite (fun _ => State.cpTrap_form h) fun _ => form_ite (fun _ => State.cpTrap_form h) fun _ => State.rvGo_form h

theorem State.rvStore_form {s : State} {f3 va v next} (h : s.Form) : (s.rvStore f3 va v next).Form :=
  form_ite (fun _ => State.cpTrap_form h) fun _ => form_ite (fun _ => State.cpTrap_form h) fun _ =>
    State.rvGo_form (State.pokeBytes_form h)

theorem State.rvSystem_form {s : State} {w next} (h : s.Form) : (s.rvSystem w next).Form := by
  unfold State.rvSystem
  refine form_ite (fun _ => form_ite (fun _ => State.cpTrap_form h) fun _ => form_ite (fun _ => State.cpTrap_form h)
    fun _ => form_ite (fun _ => State.setCp_form h) fun _ => form_ite (fun _ => State.rvGo_form h) fun _ =>
    State.cpTrap_form h) fun _ => form_ite (fun _ => State.cpTrap_form h) fun _ => ?_
  split
  · exact State.cpTrap_form h
  · exact form_ite (fun _ => State.cpTrap_form h) fun _ => State.rvGo_form (State.setCp_form h)

theorem State.rvBase_form {s : State} {w next} (h : s.Form) :
    (s.rvBase w next).Form := by
  unfold State.rvBase
  extract_lets c rd f3 f7 a b immI immS immB immU immJ put f6
  have hput : ∀ v, (put v).Form := by
    intro v
    unfold put
    split
    · exact State.rvGo_form h
    · exact State.cpTrap_form h
  clear_value put
  split
  · exact State.rvGo_form h
  · exact State.rvGo_form h
  · exact State.rvGo_form h
  · exact form_ite (fun _ => State.rvGo_form h) fun _ => State.cpTrap_form h
  · split
    · exact State.rvGo_form h
    · exact State.cpTrap_form h
  · exact State.rvLoad_form h
  · exact State.rvStore_form h
  · exact form_ite (fun _ => State.cpTrap_form h) fun _ => hput _
  · exact form_ite (fun _ => State.cpTrap_form h) fun _ => hput _
  · exact form_ite (fun _ => hput _) fun _ => form_ite (fun _ => hput _) fun _ => State.cpTrap_form h
  · exact form_ite (fun _ => hput _) fun _ => form_ite (fun _ => hput _) fun _ => State.cpTrap_form h
  · exact form_ite (fun _ => State.rvGo_form h) fun _ => State.cpTrap_form h
  · exact State.rvSystem_form h
  · exact State.cpTrap_form h

end Sys2Proof.Machine
end

section
/-!
SUPPORT, of O60. What `Machine/Turn.lean` does keeps the canonical form of the memory: one turn.
-/
namespace Sys2Proof.Machine

theorem State.qntDue_form {s : State} {dt} (h : s.Form) : (s.qntDue dt).Form :=
  form_foldl h fun u a hu => form_foldl hu fun u1 a1 hu1 => State.performSome_form hu1

theorem State.pass_form {s : State} {dt} (h : s.Form) : (s.pass dt).Form := by
  unfold State.pass
  refine form_ite (fun _ => h) fun _ => ?_
  extract_lets s1 c s2
  have hs1 : s1.Form := State.qntDue_form h
  have hs2 : s2.Form := form_foldl hs1 fun u a hu => State.startAt_form hu
  exact hs2

theorem State.elapse_form {s : State} {dt} (h : s.Form) : (s.elapse dt).Form := by
  unfold State.elapse
  extract_lets s1 end_ live s2
  have hs1 : s1.Form := State.slotsSettle_form (State.seen_form h)
  have hs2 : s2.Form := form_ite (fun _ => form_foldl hs1 fun u a hu => State.ownFrames_form (State.pass_form hu))
    fun _ => hs1
  exact State.pass_form hs2

theorem State.tellRequest_form {s : State} {t k} (h : s.Form) : (s.tellRequest t k).Form :=
  form_ite (fun _ => State.setCore_form h) fun _ => h

theorem State.stopWaiting_form {s : State} {t k} (h : s.Form) : (s.stopWaiting t k).Form := by
  unfold State.stopWaiting
  split
  · rename_i e
    exact (State.boundary_form h).1 _ e
  · rename_i e
    exact form_ite (fun _ => State.stopCore_form ((State.boundary_form h).2 _ e)) fun _ => (State.boundary_form h).2 _ e

theorem State.behindFence_form {s : State} {t k} (h : s.Form) : (s.behindFence t k).Form := by
  unfold State.behindFence
  refine form_ite (fun _ => State.event_form h) fun _ => ?_
  split
  · exact h
  · exact form_ite (fun _ => State.stopWaiting_form h) fun _ => State.standFence_form h

theorem State.beforeFetch_form {s : State} {t k} (h : s.Form) : SumForm (s.beforeFetch t k) := by
  unfold State.beforeFetch
  extract_lets s1 s2 c open_ s3
  have hs1 : s1.Form := form_ite (fun _ => State.semOverflow_form h) fun _ => h
  have hs2 : s2.Form := State.tellRequest_form hs1
  have hs3 : s3.Form := form_ite (fun _ => State.setCore_form hs2) fun _ => hs2
  refine pred_ite (P := SumForm) (fun _ => sumForm_inl hs2) fun _ => pred_ite (P := SumForm) (fun _ =>
    sumForm_inl (State.tryCommit_form hs2)) fun _ => pred_ite (P := SumForm) (fun _ =>
    sumForm_inl (State.behindFence_form hs2)) fun _ => ?_
  split
  · exact sumForm_inl (State.event_form hs3)
  · exact pred_ite (P := SumForm) (fun _ => sumForm_inl (State.stopWaiting_form hs3)) fun _ => sumForm_inr hs3

theorem State.coreTurn_form {s : State} {t k} (h : s.Form) :
    OutForm (s.coreTurn t k) := by
  unfold State.coreTurn
  split
  · rename_i e
    exact outForm_next ((State.beforeFetch_form h).1 _ e)
  · rename_i u e
    have hu := (State.beforeFetch_form h).2 _ e
    extract_lets s1
    have hs1 : s1.Form := hu
    split
    · exact outForm_next (State.preciseTrap_form hs1)
    · exact exec_form hs1

theorem State.cpTurn_form {s : State} {n} (h : s.Form) : OutForm (s.cpTurn n) := by
  unfold State.cpTurn
  extract_lets s1 pc c w
  have hs1 : s1.Form := h
  refine pred_ite (P := OutForm) (fun _ => outForm_next hs1) fun _ => ?_
  split
  · exact outForm_next (State.setCp_form hs1)
  · refine pred_ite (P := OutForm) (fun _ => outForm_next (State.cpTrap_form hs1)) fun _ =>
      pred_ite (P := OutForm) (fun _ => ?_) fun _ => pred_ite (P := OutForm) (fun _ =>
      outForm_next (State.cpTrap_form hs1)) fun _ => pred_ite (P := OutForm) (fun _ => ?_) fun _ =>
      outForm_next (State.rvBase_form hs1)
    · split
      · exact outForm_next (State.rvBase_form hs1)
      · exact outForm_next (State.cpTrap_form hs1)
    · split
      · exact exec_form hs1
      · exact outForm_next (State.cpTrap_form hs1)

theorem State.act_form {s : State} {w} (h : s.Form) : OutForm (s.act w) := by
  unfold State.act
  split
  · exact pred_ite (P := OutForm) (fun _ => State.coreTurn_form h) fun _ => outForm_next h
  · exact pred_ite (P := OutForm) (fun _ => State.cpTurn_form h) fun _ => outForm_next h
  · exact pred_ite (P := OutForm) (fun _ => exec_form h) fun _ => outForm_next h
  · exact outForm_next (State.otherRequest_form h)
  · exact outForm_next (form_ite (fun _ => State.setCp_form h) fun _ => h)

theorem State.nextTurn_form {s : State} (h : s.Form) : (s.nextTurn).2.2.Form := by
  unfold State.nextTurn
  split
  · exact h
  · exact h

theorem State.turn_form {s : State} (h : s.Form) :
    OutForm (s.turn) := by
  unfold State.turn
  have hs := State.elapse_form (dt := s.nextTurn.1) (State.nextTurn_form h)
  split
  rename_i e
  rw [e] at hs
  extract_lets s1
  split
  · exact State.act_form hs
  · exact outForm_next hs

end Sys2Proof.Machine
end

section
namespace Sys2Proof.Claims
open Sys2Proof Sys2Proof.Machine

/-- Settles O60: memory is written only by setting and clearing entries of the canonical list, which keeps its form (log entry
1), and everything else that a turn does leaves memory as it is. -/
theorem everyStepKeepsTheMemoryForm : Obligations.EveryStepKeepsTheMemoryForm := by
  unfold Obligations.EveryStepKeepsTheMemoryForm
  intro s t h e
  exact State.turn_form h t e

end Sys2Proof.Claims
end

section
/-!
SUPPORT, of O30 and the obligations behind it. What an effect that ends may have made of the state: a reach, and the rules by which an
effect made of parts stays within one when its parts do. The reads of operands, with the loads that a stream makes, change nothing but
the acting core.
-/
namespace Sys2Proof.Machine

variable {α β γ : Type}

/-- A reach of effects: what a state may become, by steps one after another. -/
structure Reach where
  rel : State → State → Prop
  refl : ∀ s, rel s s
  trans : ∀ {s t u}, rel s t → rel t u → rel s u

/-- Where an effect ends, it has stayed within a reach. -/
def Exec.Within (R : Reach) (m : Exec α) : Prop := ∀ s a t, m s = .ok (a, t) → R.rel s t

variable {R : Reach}

theorem Exec.Within.bind {m : Exec α} {f : α → Exec β} (hm : m.Within R) (hf : ∀ a, (f a).Within R) : (m >>= f).Within R := by
  intro s b t h
  obtain ⟨a, u, h1, h2⟩ := Exec.bind_inv h
  exact R.trans (hm _ _ _ h1) (hf a _ _ _ h2)

theorem within_ite {p : Prop} [Decidable p] {m n : Exec α} (hm : m.Within R) (hn : n.Within R) :
    (if p then m else n).Within R := by
  split
  · exact hm
  · exact hn

/-- A step that is taken on a condition, and what follows it either way. -/
theorem within_when {p : Prop} [Decidable p] {m : Exec Unit} {k : Unit → Exec α} (hm : m.Within R)
    (hk : ∀ b, (k b).Within R) : (if p then m >>= k else k ()).Within R :=
  within_ite (hm.bind hk) (hk ())

theorem within_either {p : Prop} [Decidable p] {m n : Exec β} {k : β → Exec α} (hm : m.Within R) (hn : n.Within R)
    (hk : ∀ b, (k b).Within R) : (if p then m >>= k else n >>= k).Within R :=
  within_ite (hm.bind hk) (hn.bind hk)

/-- An effect that answers from the state without a change of it. -/
theorem Exec.Within.of_same {m : Exec α} (h : ∀ s a t, m s = .ok (a, t) → t = s) : m.Within R := by
  intro s a t e
  rw [h s a t e]
  exact R.refl s

/-- An effect that never ends. -/
theorem Exec.Within.of_error {m : Exec α} (h : ∀ s, ∃ i, m s = .error i) : m.Within R := by
  intro s a t e
  obtain ⟨i, hi⟩ := h s
  rw [hi] at e
  cases e

theorem pure_within {a : α} : (pure a : Exec α).Within R := .of_same (by rintro s a t ⟨⟩; rfl)
theorem getState_within : getState.Within R := .of_same (by rintro s a t ⟨⟩; rfl)
theorem getRegs_within : getRegs.Within R := .of_same (by rintro s a t ⟨⟩; rfl)
theorem throwTrap_within {i : TrapInfo} : (throwTrap i : Exec α).Within R := .of_error fun _ => ⟨_, rfl⟩
theorem faultIp_within {code : Byte} {cause : Nat} : (faultIp code cause : Exec α).Within R := .of_error fun _ => ⟨_, rfl⟩
theorem faultAcc_within {c : Acc} {code : Byte} {cause : Nat} : (faultAcc c code cause : Exec α).Within R :=
  .of_error fun _ => ⟨_, rfl⟩
theorem stallWith_within {f : State → State} : (stallWith f : Exec α).Within R := .of_error fun _ => ⟨_, rfl⟩

theorem mapM_within {l : List γ} {f : γ → Exec β} (hf : ∀ a, (f a).Within R) : (l.mapM f : Exec (List β)).Within R := by
  induction l with
  | nil => exact pure_within
  | cons a l ih =>
    rw [List.mapM_cons]
    exact (hf a).bind fun _ => ih.bind fun _ => pure_within

theorem forIn_within {l : List γ} {b : β} {f : γ → β → Exec (ForInStep β)} (hf : ∀ a b, (f a b).Within R) :
    (forIn l b f : Exec β).Within R := by
  induction l generalizing b with
  | nil => exact pure_within
  | cons a l ih =>
    rw [List.forIn_cons]
    refine (hf a b).bind fun r => ?_
    cases r with
    | done b => exact pure_within
    | yield b => exact ih

/-- Nothing has changed but the acting core. -/
def State.OwnCore (s t : State) : Prop := t = s ∨ ∃ c, t = s.setMe c

theorem State.ownCore_setMe (s : State) (c : Core) : s.OwnCore (s.setMe c) := .inr ⟨c, .refl _⟩

theorem State.OwnCore.trans {s t u : State} (h : s.OwnCore t) (h' : t.OwnCore u) : s.OwnCore u := by
  obtain rfl | ⟨c, rfl⟩ := h
  · exact h'
  · obtain rfl | ⟨d, rfl⟩ := h'
    · exact s.ownCore_setMe c
    · exact .inr ⟨d, State.setMe_setMe s c d⟩

theorem State.OwnCore.curTile {s t : State} (h : s.OwnCore t) : t.curTile = s.curTile := by
  obtain rfl | ⟨c, rfl⟩ := h <;> simp

/-- The effects that change nothing but the acting core. -/
def ownCore : Reach := { rel := State.OwnCore, refl := fun s => .inl (.refl s), trans := State.OwnCore.trans }

theorem modRegs_ownCore {f : Regs → Regs} : (modRegs f).Within ownCore := by
  rintro s a t ⟨⟩
  exact s.ownCore_setMe _

theorem modChunk_ownCore {f : Chunk → Chunk} : (modChunk f).Within ownCore := by
  rintro s a t ⟨⟩
  exact s.ownCore_setMe _

theorem needEmpty_within : needEmpty.Within R := .of_same (by
  intro s a t h
  unfold needEmpty at h
  split at h
  · split at h <;> cases h
    rfl
  · cases h
    rfl)

theorem checkPoison_within {c : Acc} {key n : Nat} : (checkPoison c key n).Within R := .of_same (by
  intro s a t h
  unfold checkPoison at h
  split at h <;> cases h
  rfl)

theorem locate_within {c : Acc} {align : Nat} {vec : Bool} : (locate c align vec).Within R := .of_same (by
  intro s a t h
  unfold locate at h
  split at h
  · cases h
  · split at h <;> cases h
    rfl)

theorem rowTarget_within {c : Acc} {n : Nat} : (rowTarget c n).Within R := .of_same (by
  intro s a t h
  unfold rowTarget at h
  split at h
  · cases h
    rfl
  · split at h
    · cases h
    · split at h
      · cases h
      · dsimp only at h
        split at h <;> cases h
        rfl)

theorem extAsk_within {c : Acc} {p : Place} {op : FabOp} {len : Nat} : (extAsk c p op len).Within R := .of_same (by
  intro s a t h
  unfold extAsk at h
  dsimp only at h
  split at h
  · cases h
    rfl
  · split at h
    · cases h
    · split at h
      · cases h
      · split at h
        · cases h
        · split at h <;> cases h)

theorem xlateBy_ownCore {c : Acc} {e : Word} {log va : Nat} : (xlateBy c e log va).Within ownCore := by
  intro s a t h
  unfold xlateBy at h
  split at h
  · cases h
    exact s.ownCore_setMe _
  · cases h

theorem xlate_ownCore {c : Acc} {va : Nat} : (xlate c va).Within ownCore := by
  intro s a t h
  unfold xlate at h
  split at h
  · split at h
    · exact xlateBy_ownCore _ _ _ h
    · cases h
    · cases h
  · split at h
    · exact xlateBy_ownCore _ _ _ h
    · cases h

theorem addReads_ownCore {ls : List Nat} : (addReads ls).Within ownCore := modChunk_ownCore

theorem readPlace_ownCore {c : Acc} {p : Place} {n : Nat} : (readPlace c p n).Within ownCore := by
  unfold readPlace
  split
  · exact getState_within.bind fun _ => within_when stallWith_within fun _ => checkPoison_within.bind fun _ =>
      within_when needEmpty_within fun _ => within_when modChunk_ownCore fun _ =>
      within_either modChunk_ownCore addReads_ownCore fun _ => getState_within.bind fun _ => pure_within
  · exact needEmpty_within.bind fun _ => modChunk_ownCore.bind fun _ => modChunk_ownCore.bind fun _ => extAsk_within

theorem checkOwner_ownCore {c : Acc} {t buf ofs : Nat} : (checkOwner c t buf ofs).Within ownCore :=
  getState_within.bind fun _ => addReads_ownCore.bind fun _ => within_ite faultAcc_within pure_within

theorem useApts_ownCore {va : Nat} : (useApts va).Within ownCore := by
  unfold useApts
  refine getState_within.bind fun s => ?_
  split
  · exact pure_within
  · exact addReads_ownCore.bind fun _ => pure_within

theorem readGlob_ownCore {c : Acc} {va n : Nat} : (readGlob c va n).Within ownCore := by
  have piece : ∀ b k, (xlate c b >>= fun p => readPlace c p k).Within ownCore := fun _ _ => xlate_ownCore.bind fun _ => readPlace_ownCore
  unfold readGlob
  refine useApts_ownCore.bind fun aps => ?_
  split
  · exact piece _ _
  · extract_lets
    split
    · exact piece _ _
    · exact (mapM_within fun _ => piece _ _).bind fun _ => pure_within
    · refine (mapM_within fun j => ?_).bind fun _ => pure_within
      split
      exact xlate_ownCore.bind fun _ => readPlace_ownCore.bind fun _ => pure_within

theorem readSpot_ownCore {c : Acc} {p : Spot} {n : Nat} : (readSpot c p n).Within ownCore := by
  unfold readSpot
  split
  · exact rowTarget_within.bind fun _ => checkOwner_ownCore.bind fun _ => readPlace_ownCore
  · exact readGlob_ownCore
  · exact faultAcc_within

theorem loadAt_ownCore {kind align : Nat} {vec : Bool} {a : Word} {n : Nat} : (loadAt kind align vec a n).Within ownCore :=
  locate_within.bind fun _ => readSpot_ownCore

theorem streamPeek_ownCore {n : Nat} : (streamPeek n).Within ownCore :=
  getRegs_within.bind fun _ => within_when faultIp_within fun _ => within_when faultIp_within fun _ =>
    within_ite pure_within (loadAt_ownCore.bind fun _ => pure_within)

theorem readOpd_ownCore {x : Ops} {o : Opd} : (readOpd x o).Within ownCore := by
  cases o with
  | s n => exact streamPeek_ownCore.bind fun _ => modRegs_ownCore.bind fun _ => pure_within
  | prv | o | m | g | p => exact getRegs_within.bind fun _ => pure_within
  | _ => exact pure_within

theorem readA_ownCore {x : Ops} : (readA x).Within ownCore := readOpd_ownCore

end Sys2Proof.Machine
end

section
/-!
SUPPORT, of O30 and the obligations behind it. An instruction issues on the tile it has been given (R204): what comes before its
effect, the atomics among it, makes no other tile the acting one.
-/
namespace Sys2Proof.Machine

@[simp] theorem State.raiseIrq_curTile (s : State) (f v : Nat) : (s.raiseIrq f v).curTile = s.curTile := by
  unfold State.raiseIrq
  dsimp only
  split <;> rfl

@[simp] theorem State.logCheck_curTile (s : State) (t : Nat) (code : Byte) (cfad : Word) :
    (s.logCheck t code cfad).curTile = s.curTile := by
  simp [State.logCheck, State.count]

@[simp] theorem State.track_curTile (s : State) (vf : Option Nat) (key : Nat) : (s.track vf key).curTile = s.curTile := by
  unfold State.track
  split
  · rfl
  · dsimp only
    split
    · split
      · simp
      · split
        · rfl
        · exact (State.conflict_curTile ..).trans (State.pokeBytes_curTile ..)
    · rfl

@[simp] theorem State.commitBytes_curTile (s : State) (t : Nat) (vf : Option Nat) (kn key : Nat) (bs : List Byte) :
    (s.commitBytes t vf kn key bs).curTile = s.curTile := by
  unfold State.commitBytes
  split <;> simp

theorem curTile_foldl {α : Type} {f : State → α → State} (hf : ∀ s a, (f s a).curTile = s.curTile) (l : List α) (s : State) :
    (l.foldl f s).curTile = s.curTile :=
  List.foldlRecOn (motive := fun (u : State) => u.curTile = s.curTile) l f rfl fun u h a _ => (hf u a).trans h

@[simp] theorem State.putPlaces_curTile (s : State) (t : Nat) (k : CoreK) (vf : Option Nat) (ps : List Place) (v : Word) :
    (s.putPlaces t k vf ps v).curTile = s.curTile := by
  unfold State.putPlaces
  dsimp only
  split
  · rfl
  · rfl
  · refine curTile_foldl (fun u e => ?_) _ _
    split
    · exact u.commitBytes_curTile ..
    · rfl

@[simp] theorem State.updateWord_curTile (s : State) (t : Nat) (a : RAtom) : (s.updateWord t a).curTile = s.curTile := by
  unfold State.updateWord
  dsimp only
  split <;> simp

@[simp] theorem State.shield_curTile (s was : State) (a : RAtom) : (s.shield was a).curTile = s.curTile := by
  unfold State.shield
  refine curTile_foldl (fun u q => ?_) _ _
  rfl

@[simp] theorem State.performAtom_curTile (s : State) (t : Nat) (k : CoreK) (a : RAtom) :
    (s.performAtom t k a).curTile = s.curTile := by
  unfold State.performAtom
  dsimp only [State.choose]
  by_cases h : a.use = 3 <;> simp [h]

@[simp] theorem State.performAll_curTile (s : State) (t : Nat) (k : CoreK) : (s.performAll t k).curTile = s.curTile :=
  curTile_foldl (fun u a => u.performAtom_curTile t k a) _ _

@[simp] theorem State.performSome_curTile (s : State) (t : Nat) (k : CoreK) (which : RAtom → Bool) :
    (s.performSome t k which).curTile = s.curTile :=
  curTile_foldl (fun u _ => u.performAtom_curTile t k _) _ _

@[simp] theorem State.qntNow_curTile (s : State) (t : Nat) : (s.qntNow t).curTile = s.curTile :=
  curTile_foldl (fun u k => u.performSome_curTile t k _) _ _

theorem beginChunk_curTile {e : Entry} {w : Option (Nat × Nat)} {old : Option Chunk} {s s0 : State}
    (h : s.beginChunk e w old = .inr s0) : s0.curTile = s.curTile := by
  unfold State.beginChunk at h
  dsimp only at h
  split at h
  · split at h <;> cases h
    simp
  · cases h
    simp

theorem admission_curTile {e : Entry} {x : Ops} {s s0 : State} (h : s.admission e x = .inr s0) : s0.curTile = s.curTile := by
  unfold State.admission at h
  dsimp only at h
  generalize (if (x.h.wthr != 0 && s.me.regs.mid.isNone) = true then some (x.h.wsem.toNat, x.h.wthr.toNat) else none) = w
    at h
  split at h
  · cases h
  · split at h
    · split at h
      · cases h
      · split at h <;> cases h
        simp
    · split at h
      · cases h
      · rw [beginChunk_curTile h]
        split
        · exact s.qntNow_curTile _
        · rfl

theorem prepare_curTile {e : Entry} {x : Ops} {s s0 : State} (h : s.prepare e x = .inr s0) : s0.curTile = s.curTile := by
  unfold State.prepare at h
  dsimp only at h
  split at h
  · exact (admission_curTile h).trans (State.setMe_curTile ..)
  · split at h
    · cases h
    · rw [admission_curTile h, State.performAll_curTile]
      rfl

end Sys2Proof.Machine
end

section
/-!
SUPPORT, of O30 and the obligations behind it. What commits of words, conflicts, flips and lost claims of slabs leave of a tile: all
but what is kept of its cores, its slabs' owners and their pending counts.
-/
namespace Sys2Proof.Machine

/-- Two tiles that differ in nothing but the state of their cores. -/
def Tile.SameOffCores (x y : Tile) : Prop := y = { x with cores := y.cores }

theorem Tile.SameOffCores.trans {x y z : Tile} (h : x.SameOffCores y) (h' : y.SameOffCores z) : x.SameOffCores z := by
  rw [Tile.SameOffCores] at h h' ⊢
  rw [h', h]

theorem State.conflict_sameOffCores (s : State) (ls : List Nat) (n : Nat) : (s.tile n).SameOffCores ((s.conflict ls).tile n) := by
  rw [State.tile_conflict]
  rfl

theorem State.commitBytes_sameOffCores (s : State) (t kn key : Nat) (bs : List Byte) (n : Nat) :
    (s.tile n).SameOffCores ((s.commitBytes t none kn key bs).tile n) := by
  unfold State.commitBytes
  split
  · rfl
  · exact State.conflict_sameOffCores _ _ n

theorem State.commitWords_sameOffCores (s : State) (t key : Nat) (ws : List Word) (n : Nat) :
    (s.tile n).SameOffCores ((s.commitWords t key ws).tile n) :=
  List.foldlRecOn (motive := fun (v : State) => (s.tile n).SameOffCores (v.tile n)) _ _ rfl
    fun v hv _ _ => hv.trans (v.commitBytes_sameOffCores _ _ _ _ n)

theorem State.turnTag_sameOffCores (s : State) (t tag n : Nat) : (s.tile n).SameOffCores ((s.turnTag t tag).tile n) :=
  (s.commitWords_sameOffCores _ _ _ n).trans (State.conflict_sameOffCores _ _ n)

theorem Tile.SameOffCores.tags {x y : Tile} (h : x.SameOffCores y) : y.tags = x.tags := by
  rw [h]

@[simp] theorem State.tags_conflict (s : State) (ls : List Nat) (n : Nat) : ((s.conflict ls).tile n).tags = (s.tile n).tags :=
  (s.conflict_sameOffCores ls n).tags

@[simp] theorem State.tags_turnTag (s : State) (t tag n : Nat) : ((s.turnTag t tag).tile n).tags = (s.tile n).tags :=
  (s.turnTag_sameOffCores t tag n).tags

@[simp] theorem State.tile_updTile_same (s : State) (t : Nat) (f : Tile → Tile) : (s.updTile t f).tile t = f (s.tile t) :=
  State.tile_setTile_same ..

theorem State.tile_updTile_other (s : State) {t u : Nat} (f : Tile → Tile) (h : u ≠ t) : (s.updTile t f).tile u = s.tile u :=
  State.tile_setTile_other _ _ h

/-- A change of a tile that leaves its tags leaves every tile's. -/
theorem State.tags_updTile {s : State} {t : Nat} {f : Tile → Tile} (h : (f (s.tile t)).tags = (s.tile t).tags) (n : Nat) :
    ((s.updTile t f).tile n).tags = (s.tile n).tags := by
  by_cases e : n = t
  · subst e
    rw [State.tile_updTile_same, h]
  · rw [State.tile_updTile_other _ _ e]

@[simp] theorem State.tags_updCore (s : State) (t : Nat) (k : CoreK) (f : Core → Core) (n : Nat) :
    ((s.updCore t k f).tile n).tags = (s.tile n).tags := State.tags_updTile rfl n

/-- A flip changes the owners of slabs alone. -/
theorem Tile.tags_setSlabEngines (ls : List SlabId) (e : Bool) (x : Tile) :
    (ls.foldl (fun x (b, n) => x.setSlabEngine b n e) x).tags = x.tags :=
  List.foldlRecOn (motive := fun (y : Tile) => y.tags = x.tags) ls _ rfl fun _ h _ _ => h

@[simp] theorem State.tags_flip (s : State) (t : Nat) (ls : List SlabId) (e : Bool) (n : Nat) :
    ((s.flip t ls e).tile n).tags = (s.tile n).tags :=
  (State.tags_conflict _ _ n).trans (State.tags_updTile (Tile.tags_setSlabEngines _ e _) n)

@[simp] theorem State.tags_letGo (s : State) (t : Nat) (ls : List SlabId) (n : Nat) :
    ((s.letGo t ls).tile n).tags = (s.tile n).tags :=
  (State.tags_flip ..).trans (State.tags_updTile rfl n)

end Sys2Proof.Machine
end

section
/-!
SUPPORT, of O30. Tags: what the entries of R278 read of them, and what CRES and CCAN do to one as their chunk commits.
-/
namespace Sys2Proof.Machine
open Sys2Proof.Claims

theorem tagFaults_first {m : Word} {s : State} {n : Nat} {ns : List Nat} (h : (s.tile s.curTile).tagsIn m .faulted = n :: ns) :
    tagFaults m s = .error (.trap (tagTrap ((s.tile s.curTile).tag n) n)) := by
  simp only [tagFaults, bind_getState, h]
  rfl

theorem tagFaults_none {m : Word} {s : State} (h : (s.tile s.curTile).tagsIn m .faulted = []) :
    tagFaults m s = .ok (s.tile s.curTile, s) := by
  simp only [tagFaults, bind_getState, h]
  rfl

/-- The tag that CRES and CCAN name, as their chunk commits: nothing comes of one that is not FAULTED. -/
theorem doAct_tagOp_idle {s : State} {t tag : Nat} (k : CoreK) (m : SMap Byte) (drop : Bool)
    (h : ((s.tile t).tag tag).st ≠ .faulted) : s.doAct t k m (.tagOp drop tag) = s :=
  if_pos h

theorem tag_doAct_drop {s : State} {t tag : Nat} (k : CoreK) (m : SMap Byte) (h : ((s.tile t).tag tag).st = .faulted) :
    ((s.doAct t k m (.tagOp true tag)).tile t).tag tag = { (s.tile t).tag tag with st := .free, held := [] } := by
  have act : s.doAct t k m (.tagOp true tag) = _ := if_neg (not_not_intro h)
  rw [act, Tile.tag]
  simp [Tile.tag]

theorem tag_doAct_resume {s : State} {t tag : Nat} (k : CoreK) (m : SMap Byte) (h : ((s.tile t).tag tag).st = .faulted) :
    ((s.doAct t k m (.tagOp false tag)).tile t).tag tag = { (s.tile t).tag tag with st := .busy } := by
  have act : s.doAct t k m (.tagOp false tag) = _ := if_neg (not_not_intro h)
  rw [act, Tile.tag]
  simp [Tile.tag]

end Sys2Proof.Machine

namespace Sys2Proof.Claims
open Sys2Proof Sys2Proof.Machine

theorem tagWaits_trap {i : Instr} {x : Ops} {s s0 s1 : State} {a m : Word} {n : Nat} {ns : List Nat}
    (hi : ((i = .twany x ∨ i = .twall x) ∧ m = a) ∨ (i = .twait x ∧ m = word (2 ^ (a.toNat % 64))))
    (ha : readA x s0 = .ok (a, s1)) (h : (s1.tile s1.curTile).tagsIn m .faulted = n :: ns) :
    Traps .tagWait x i s s0 (tagTrap ((s1.tile s1.curTile).tag n) n) := by
  obtain ⟨rfl | rfl, rfl⟩ | ⟨rfl, rfl⟩ := hi
  all_goals exact traps_of_body rfl ((Exec.bind_ok ha).trans (Exec.bind_error (tagFaults_first h)))

theorem twany_does {x : Ops} {s s0 s1 s2 : State} {m : Word} {n : Nat} {ns : List Nat} (ha : readA x s0 = .ok (m, s1))
    (hf : (s1.tile s1.curTile).tagsIn m .faulted = []) (hd : (s1.tile s1.curTile).tagsIn m .done = n :: ns)
    (hw : writeOpd x.d (word n) s1 = .ok ((), s2)) : Does .tagWait x (.twany x) s s0 s2 := by
  refine does_of_body rfl ((Exec.bind_ok ha).trans ((Exec.bind_ok (tagFaults_none hf)).trans ?_))
  rw [hd]
  exact hw

theorem twany_none {x : Ops} {s s0 s1 s2 : State} {m : Word} (ha : readA x s0 = .ok (m, s1))
    (hf : (s1.tile s1.curTile).tagsIn m .faulted = []) (hd : (s1.tile s1.curTile).tagsIn m .done = [])
    (hb : (s1.tile s1.curTile).tagsIn m .busy = []) (hw : writeOpd x.d 64 s1 = .ok ((), s2)) :
    Does .tagWait x (.twany x) s s0 s2 := by
  refine does_of_body rfl ((Exec.bind_ok ha).trans ((Exec.bind_ok (tagFaults_none hf)).trans ?_))
  rw [hd, hb]
  exact hw

theorem twany_waits {x : Ops} {s s0 s1 : State} {m : Word} (ha : readA x s0 = .ok (m, s1))
    (hf : (s1.tile s1.curTile).tagsIn m .faulted = []) (hd : (s1.tile s1.curTile).tagsIn m .done = [])
    (hb : (s1.tile s1.curTile).tagsIn m .busy ≠ []) :
    Waits .tagWait x (.twany x) s s0 (fun u => u.setMe { u.me with stalled := true }) := by
  refine waits_of_body rfl ((Exec.bind_ok ha).trans ((Exec.bind_ok (tagFaults_none hf)).trans ?_))
  simp only [hd, List.isEmpty_iff, if_neg hb]
  rfl

theorem tagWait_does {i : Instr} {x : Ops} {s s0 s1 : State} {a m : Word}
    (hi : (i = .twall x ∧ m = a) ∨ (i = .twait x ∧ m = word (2 ^ (a.toNat % 64)))) (ha : readA x s0 = .ok (a, s1))
    (hf : (s1.tile s1.curTile).tagsIn m .faulted = []) (h : tagsSettled s1 m = true) : Does .tagWait x i s s0 s1 := by
  obtain ⟨rfl, rfl⟩ | ⟨rfl, rfl⟩ := hi
  all_goals
    refine does_of_body rfl ((Exec.bind_ok ha).trans ((Exec.bind_ok (tagFaults_none hf)).trans ?_))
    rw [tagsSettled] at h
    rw [h]
    rfl

theorem tagWait_waits {i : Instr} {x : Ops} {s s0 s1 : State} {a m : Word}
    (hi : (i = .twall x ∧ m = a) ∨ (i = .twait x ∧ m = word (2 ^ (a.toNat % 64)))) (ha : readA x s0 = .ok (a, s1))
    (hf : (s1.tile s1.curTile).tagsIn m .faulted = []) (h : tagsSettled s1 m = false) :
    Waits .tagWait x i s s0 (fun u => u.setMe { u.me with stalled := true }) := by
  obtain ⟨rfl, rfl⟩ | ⟨rfl, rfl⟩ := hi
  all_goals
    refine waits_of_body rfl ((Exec.bind_ok ha).trans ((Exec.bind_ok (tagFaults_none hf)).trans ?_))
    rw [tagsSettled] at h
    rw [h]
    rfl

/-- CRES names the tile that it has been issued on, which is the one that acts still once its operand is read. -/
theorem cres_does {x : Ops} {s s0 s1 s2 : State} {a : Word} (ha : readA x s0 = .ok (a, s1))
    (hn : (if ((s1.tile s1.curTile).tag (a.toNat % 64)).st = .faulted then needs .engine else pure () : Exec Unit) s1 = .ok ((), s2)) :
    Does .tagOps x (.cres x) s s0 (s2.withAct (.tagOp false (a.toNat % 64))) := by
  intro issues t ends
  have same : s1.curTile = s.curTile := (State.OwnCore.curTile (readA_ownCore _ _ _ ha)).trans (prepare_curTile issues.ready)
  refine does_of_body rfl ((Exec.bind_ok ha).trans ?_) issues t ends
  rw [bind_getState, ← same]
  split at hn
  · next h =>
    rw [if_pos h]
    exact Exec.bind_ok hn
  · next h =>
    rw [if_neg h]
    cases hn
    rfl

theorem ccan_does {x : Ops} {s s0 s1 s2 : State} {a : Word} (ha : readA x s0 = .ok (a, s1))
    (hw : writeOpd x.d (word ((s1.tile s1.curTile).tag (a.toNat % 64)).st.num) (s1.setMe { s1.me with
      chunk := s1.me.chunk.map (fun h => { h with rset := setAdd h.rset (tagLine s1.curTile (a.toNat % 64)) }) }) =
      .ok ((), s2)) : Does .tagOps x (.ccan x) s s0 (s2.withAct (.tagOp true (a.toNat % 64))) := by
  refine does_of_body rfl ((Exec.bind_ok ha).trans ?_)
  rw [bind_getState]
  exact (Exec.bind_ok (m := addReads _) rfl).trans (Exec.bind_ok hw)

/-- Settles O30: the body of each entry by what it reads of the tags, and the commit's action by the state of the tag. -/
theorem tagInstructionsFollowTheTags : Obligations.TagInstructionsFollowTheTags := by
  unfold Obligations.TagInstructionsFollowTheTags
  refine ⟨fun i x s s0 s1 a m n ns => tagWaits_trap, fun x s s0 s1 s2 m n ns => twany_does,
    fun x s s0 s1 s2 m ha hf hd => ⟨twany_none ha hf hd, twany_waits ha hf hd⟩,
    fun i x s s0 s1 a m hi ha hf => ⟨tagWait_does hi ha hf, tagWait_waits hi ha hf⟩,
    fun x s s0 s1 s2 m ha hw => does_of_body rfl ((Exec.bind_ok ha).trans hw), fun x s s0 s1 s2 a => cres_does,
    fun x s s0 s1 s2 a => ccan_does,
    fun x s s0 s1 s2 a ha hw => does_of_body rfl ((Exec.bind_ok ha).trans hw), fun s t tag k m => ?_⟩
  refine ⟨fun h => ⟨doAct_tagOp_idle k m true h, doAct_tagOp_idle k m false h⟩, fun h => ?_⟩
  rw [tag_doAct_drop k m h, tag_doAct_resume k m h]
  exact ⟨rfl, rfl, rfl⟩

end Sys2Proof.Claims
end

section
/-!
SUPPORT, of O29. The owners of slabs: what a flip makes of each (R51), and the checks of a range to flip (R268).
-/
namespace Sys2Proof.Machine

theorem slabEngine_setSlabEngine {x : Tile} {b n c m : Nat} {e : Bool} (hn : n < 256) (hm : m < 256) :
    (x.setSlabEngine c m e).slabEngine b n = if (b, n) = (c, m) then e else x.slabEngine b n := by
  by_cases same : (b, n) = (c, m)
  · obtain ⟨rfl, rfl⟩ := Prod.mk.inj same
    by_cases one : b = 1 <;> simp [Tile.slabEngine, Tile.setSlabEngine, one]
  · have key : b * 256 + n ≠ c * 256 + m := by
      rw [Prod.mk.injEq] at same
      omega
    by_cases one : b = 1
    · subst one
      rw [if_neg same]
      simp only [Tile.slabEngine, Tile.setSlabEngine, if_true]
      rw [smGet_smPut_other _ _ _ (by omega)]
    · rw [if_neg same]
      simp only [Tile.slabEngine, Tile.setSlabEngine, if_neg one]
      rw [smGet_smPut_other _ _ _ key]

/-- Flips one after another of slabs that a buffer can have. -/
theorem slabEngine_flips {b n : Nat} {e : Bool} (hn : n < 256) (ls : List SlabId) (hl : ∀ p ∈ ls, p.2 < 256) (x : Tile) :
    (ls.foldl (fun x (b, n) => x.setSlabEngine b n e) x).slabEngine b n = if (b, n) ∈ ls then e else x.slabEngine b n := by
  induction ls generalizing x with
  | nil => simp
  | cons p ls ih =>
    rw [List.foldl_cons, ih (fun q hq => hl q (List.mem_cons_of_mem _ hq)),
      slabEngine_setSlabEngine hn (hl p List.mem_cons_self)]
    by_cases h : (b, n) = p <;> by_cases h' : (b, n) ∈ ls <;> simp [h, h']

theorem Tile.SameOffCores.slabEngine {x y : Tile} (h : x.SameOffCores y) (b n : Nat) : y.slabEngine b n = x.slabEngine b n := by
  rw [h]
  rfl

/-- A flip gives the slabs that it names their new owner, and no others. -/
theorem State.slabEngine_flip {s : State} {t b n : Nat} {slabs : List SlabId} {e : Bool} (hn : n < 256)
    (hl : ∀ p ∈ slabs, p.2 < 256) :
    ((s.flip t slabs e).tile t).slabEngine b n = if (b, n) ∈ slabs then e else (s.tile t).slabEngine b n := by
  unfold State.flip
  extract_lets changed
  have named : ∀ p ∈ changed, p.2 < 256 := fun p hp => hl p (List.mem_filter.mp hp).1
  have isChanged : (b, n) ∈ changed ↔ (b, n) ∈ slabs ∧ (s.tile t).slabEngine b n ≠ e := by simp [changed]
  rw [(State.conflict_sameOffCores ..).slabEngine, State.tile_updTile_same, slabEngine_flips hn changed named]
  by_cases h : (b, n) ∈ slabs <;> by_cases h' : (s.tile t).slabEngine b n = e <;> simp [isChanged, h, h']

theorem flipRange_bad {a n : Word} {s : State} (hn : n ≠ 0)
    (h : bufBad a = true ∨ bufNo a = 3 ∨ bufOfs a % 4096 ≠ 0 ∨ bufSize (bufNo a) < bufOfs a + n.toNat * 4096) :
    flipRange a n s = .error (.trap (mkTrap Code.protection (word (a.toNat % 2 ^ 32)) 4 15 s.curTile 0x0C)) := by
  rw [flipRange, bind_getState, if_neg hn, if_pos h]
  rfl

theorem flipRange_good {a n : Word} {s : State} (hn : n ≠ 0) (bad : bufBad a = false) (regs : bufNo a ≠ 3)
    (whole : bufOfs a % 4096 = 0) (inside : bufOfs a + n.toNat * 4096 ≤ bufSize (bufNo a))
    (tail : bufNo a = 0 → (s.tile s.curTile).tailMeets (bufOfs a) (n.toNat * 4096) = false) :
    flipRange a n s = .ok (slabsOf (bufNo a) (bufOfs a) (n.toNat * 4096), s) := by
  have good : ¬ (bufBad a = true ∨ bufNo a = 3 ∨ bufOfs a % 4096 ≠ 0 ∨ bufSize (bufNo a) < bufOfs a + n.toNat * 4096) := by
    simp [bad, regs, whole]
    omega
  have clear : ¬ (bufNo a = 0 ∧ (s.tile s.curTile).tailMeets (bufOfs a) (n.toNat * 4096) = true) := by
    rintro ⟨zero, meets⟩
    rw [tail zero] at meets
    cases meets
  rw [flipRange, bind_getState, if_neg hn, if_neg good, if_neg clear]
  rfl

end Sys2Proof.Machine

namespace Sys2Proof.Claims
open Sys2Proof Sys2Proof.Machine

section Range
variable {x : Ops} {s s0 s1 s2 s3 : State} {a n : Word} {slabs : List SlabId}
  (ha : readA x s0 = .ok (a, s1)) (hb : readB x s1 = .ok (n, s2)) (hr : flipRange a n s2 = .ok (slabs, s3))
include ha hb hr

theorem give_does : Does .ends x (.give x) s s0 (s3.withAct (.give slabs)) :=
  does_of_body rfl ((Exec.bind_ok ha).trans ((Exec.bind_ok hb).trans (Exec.bind_ok hr)))

theorem take_does (h : ((s3.flipIdle slabs).tile (s3.flipIdle slabs).curTile).allCore slabs = true) :
    Does .ends x (.take x) s s0 (s3.flipIdle slabs) := by
  refine does_of_body rfl ((Exec.bind_ok ha).trans ((Exec.bind_ok hb).trans ((Exec.bind_ok hr).trans ?_)))
  rw [bind_modState, bind_getState, h]
  rfl

theorem take_waits (h : ((s3.flipIdle slabs).tile (s3.flipIdle slabs).curTile).allCore slabs = false) :
    Waits .ends x (.take x) s s0 (fun u =>
      (u.flipIdle slabs).setMe { (u.flipIdle slabs).me with stalled := true, taking := slabs }) := by
  refine waits_of_body rfl ((Exec.bind_ok ha).trans ((Exec.bind_ok hb).trans ((Exec.bind_ok hr).trans ?_)))
  rw [bind_modState, bind_getState, h]
  rfl

theorem ttake_does {s5 : State} (hw : writeOpd x.d
    (wordB (((s3.flipIdle slabs).tile (s3.flipIdle slabs).curTile).allCore slabs)) (s3.flipIdle slabs) = .ok ((), s5)) :
    Does .ends x (.ttake x) s s0 s5 :=
  does_of_body rfl ((Exec.bind_ok ha).trans ((Exec.bind_ok hb).trans ((Exec.bind_ok hr).trans hw)))

end Range

theorem flips_trap {i : Instr} {x : Ops} {s s0 s1 s2 : State} {a n : Word} {tr : TrapInfo}
    (hi : i = .give x ∨ i = .take x ∨ i = .ttake x) (ha : readA x s0 = .ok (a, s1)) (hb : readB x s1 = .ok (n, s2))
    (hr : flipRange a n s2 = .error (.trap tr)) : Traps .ends x i s s0 tr := by
  obtain rfl | rfl | rfl := hi
  all_goals exact traps_of_body rfl ((Exec.bind_ok ha).trans ((Exec.bind_ok hb).trans (Exec.bind_error hr)))

theorem ownr_does {x : Ops} {s s0 s1 s2 : State} {a : Word} (ha : readA x s0 = .ok (a, s1)) (bad : bufBad a = false)
    (regs : bufNo a ≠ 3) (inside : bufOfs a < bufSize (bufNo a))
    (hw : writeOpd x.d ((s1.tile s1.curTile).ownrWord (bufNo a) (bufOfs a / 4096)) (s1.setMe { s1.me with
      chunk := s1.me.chunk.map (fun h => { h with rset := setAdd h.rset (ownerLine s1.curTile (bufNo a) (bufOfs a / 4096)) }) }) =
      .ok ((), s2)) : Does .base x (.ownr x) s s0 s2 := by
  have good : ¬ (bufBad a = true ∨ bufNo a = 3 ∨ bufSize (bufNo a) ≤ bufOfs a) := by
    simp [bad, regs]
    omega
  refine does_of_body rfl ((Exec.bind_ok ha).trans ?_)
  rw [if_neg good]
  exact (Exec.bind_ok (m := getState) rfl).trans ((Exec.bind_ok (m := addReads _) rfl).trans hw)

theorem ownerFlipsMoveTheirSlabs : OwnerFlipsMoveTheirSlabs :=
  ⟨fun _ _ _ _ _ _ _ _ _ ha hb hr => ⟨give_does ha hb hr, take_does ha hb hr, take_waits ha hb hr, fun _ => ttake_does ha hb hr⟩,
    fun _ _ _ _ _ _ _ _ _ => flips_trap, fun _ _ _ hn => ⟨flipRange_bad hn, flipRange_good hn⟩,
    fun _ _ _ _ _ _ _ hn hl => State.slabEngine_flip hn fun p hp => (hl p hp).2,
    fun _ _ _ _ _ _ ha bad regs inside => ownr_does ha bad regs inside⟩

end Sys2Proof.Claims
end

section
/-!
SUPPORT, of O29. Fences: what a fence leaves to its chunk's commit, and where its core stands behind it (R94, R267).
-/
namespace Sys2Proof.Machine

theorem tellRequest_none {s : State} {t : Nat} (k : CoreK) (h : (s.tile t).watch.any (fun w => w.st == .requested) = false) :
    s.tellRequest t k = s := by
  simp [State.tellRequest, h]

/-- What a fence of each kind waits for. -/
theorem fenceDue_iff {s : State} {t : Nat} {k : CoreK} {f : Fence} (lo : 1 ≤ f.kind) (hi : f.kind ≤ 3) :
    s.fenceDue t k f = true ↔
      (f.kind = 1 ∧ ((s.core t k).fabRefused = true ∨ s.fabricBroken (s.core t k) = true ∨ s.fabricDue t k f = true)) ∨
      (f.kind = 2 ∧ s.engineDue t k = true) ∨ (f.kind = 3 ∧ (s.core t k).hostAt ≠ none) := by
  obtain h | h | h : f.kind = 1 ∨ f.kind = 2 ∨ f.kind = 3 := by omega
  · simp [State.fenceDue, h, or_assoc]
  · simp [State.fenceDue, h]
  · simp [State.fenceDue, h, Option.isSome_iff_ne_none]

section Behind
variable {s : State} {t : Nat} {k : CoreK} {f : Fence} (run : (s.core t k).run = .running) (fence : (s.core t k).fence = some f)
  (opened : (s.core t k).chunk.any (fun h => h.closed) = false) (sem : (s.tile t).semOvf = none)
  (request : (s.tile t).watch.any (fun w => w.st == .requested) = false)
include run fence opened sem request

theorem beforeFetch_fenceDue (due : s.fenceDue t k f = true) : s.beforeFetch t k = .inl (s.behindFence t k) := by
  simp only [State.beforeFetch, sem, Option.isSome_none, Bool.false_eq_true, if_false, tellRequest_none k request, run, ne_eq,
    not_true_eq_false, opened, fence, Option.any_some, due, if_true]

theorem beforeFetch_fenceEnds (due : s.fenceDue t k f = false)
    (items : (s.setCore t k { s.core t k with fence := none, stalled := false }).nextItem t k = none)
    (yields : (s.core t k).yields = false) :
    s.beforeFetch t k = .inr (s.setCore t k { s.core t k with fence := none, stalled := false }) := by
  simp only [State.beforeFetch, sem, Option.isSome_none, Bool.false_eq_true, if_false, tellRequest_none k request]
  rw [if_neg (not_not_intro run)]
  simp only [opened, Bool.false_eq_true, if_false, fence, Option.any_some, due, Option.isSome_some, if_true, items, ite_self,
    yields, false_and, and_false]

end Behind

end Sys2Proof.Machine

namespace Sys2Proof.Claims
open Sys2Proof Sys2Proof.Machine

section FenceF
variable {x : Ops} {s s0 : State}

theorem fenceF_does (refused : s0.me.fabRefused = false) (broken : s0.fabricBroken s0.me = false) :
    Does .ends x (.fenceF x) s s0
      ((s0.withAct .fence).withAct (.fenceWait 1 (s0.withAct .fence).me.regs.ip (s0.withAct .fence).me.regs.slot.isSome)) := by
  refine does_of_body rfl ?_
  rw [bind_getState, refused, broken]
  rfl

theorem fenceF_traps (refused : s0.me.fabRefused = false) (broken : s0.fabricBroken s0.me = true) :
    Traps .ends x (.fenceF x) s s0 (s0.ipTrap Code.protection 0x18) := by
  refine traps_of_body rfl ?_
  rw [bind_getState, refused, broken]
  rfl

theorem needEmpty_fresh {s : State} (h : fresh s) : needEmpty s = .ok ((), s) := by
  unfold fresh at h
  unfold needEmpty
  cases hc : s.me.chunk with
  | none => rfl
  | some c =>
    have len : c.len = 0 := by simpa [hc] using h
    simp [len]

theorem needEmpty_closes {s : State} (h : ¬ fresh s) : needEmpty s = .error (.stall State.closeChunk) := by
  unfold fresh at h
  unfold needEmpty
  cases hc : s.me.chunk with
  | none => simp [hc] at h
  | some c =>
    have len : 0 < c.len := by
      have : c.len ≠ 0 := by simpa [hc] using h
      omega
    simp [len]

theorem fenceF_refused (refused : s0.me.fabRefused = true) (h : fresh s0) : Waits .ends x (.fenceF x) s s0 (fun u =>
    (u.setMe { u.me with fabRefused := false }).preciseTrap (u.ipTrap Code.busEpoch 6)) := by
  refine waits_of_body rfl ?_
  rw [bind_getState, refused]
  exact (Exec.bind_ok (needEmpty_fresh h)).trans (Exec.bind_error rfl)

theorem fenceF_closes (refused : s0.me.fabRefused = true) (h : ¬ fresh s0) :
    Waits .ends x (.fenceF x) s s0 State.closeChunk := by
  refine waits_of_body rfl ?_
  rw [bind_getState, refused]
  exact Exec.bind_error (needEmpty_closes h)

end FenceF

theorem fencesWaitForTheirWork : FencesWaitForTheirWork := by
  unfold FencesWaitForTheirWork
  refine ⟨fun x s s0 => ⟨does_of_body rfl rfl, fenceF_does, fenceF_traps, fenceF_refused, fenceF_closes, does_of_body rfl rfl,
    does_of_body rfl rfl⟩, fun s t k m => rfl, fun s t kind k m ip inSlot other => ?_, fun s t k m ip inSlot => rfl,
    fun s t k f run fence opened sem request => ⟨fun due => ?_, fun lo hi idle items yields => ?_⟩, fun s t k f => ?_⟩
  · have act : s.doAct t k m (.fenceWait kind ip inSlot) = s.fenceBegun t k kind ip inSlot := rfl
    rw [act]
    simp only [State.fenceBegun, if_neg other]
  · have kind : 1 ≤ f.kind ∧ f.kind ≤ 3 := by omega
    exact beforeFetch_fenceDue run fence opened sem request ((fenceDue_iff kind.1 kind.2).mpr due)
  · have notDue : s.fenceDue t k f = false := by
      rw [← Bool.not_eq_true, fenceDue_iff lo hi]
      exact idle
    exact beforeFetch_fenceEnds run fence opened sem request notDue items yields
  · refine ⟨fun kind refused => ?_, fun kind refused broken => ?_, fun kind refused broken => ?_, fun kind => ?_,
      fun n kind host => ?_⟩
    · simp only [State.standFence, kind, refused, if_true]
    · simp only [State.standFence, kind, refused, broken, Bool.false_eq_true, if_false, if_true]
    · simp only [State.standFence, kind, refused, broken, Bool.false_eq_true, if_false]
    · simp only [State.standFence, kind]
    · simp only [State.standFence, kind, host]

/-- Settles O29: the fences by what they leave to the commit and what they wait for behind it, the flips slab by slab. -/
theorem fencesAndOwnerFlips : Obligations.FencesAndOwnerFlips :=
  ⟨fencesWaitForTheirWork, ownerFlipsMoveTheirSlabs⟩

end Sys2Proof.Claims
end

section
/-!
SUPPORT, of O45. RDC and WRC, register by register (R354), and the writes of CSPILL and CRAS.
-/
namespace Sys2Proof.Claims
open Sys2Proof Sys2Proof.Machine

theorem hiddenCr_iff (n : Nat) : hiddenCr n = true ↔ n = 0x0D ∨ n = 0x0E ∨ n = 0x0F ∨ n = 0x10 := by
  simp [hiddenCr, or_assoc]

theorem rdc_does {x : Ops} {s s0 s1 : State} (h : s0.me.regs.priv = true ∨ hiddenCr (crNo x) = false)
    (hw : writeOpd x.d (s0.readCr s0.curTile s0.curCore (crNo x)) s0 = .ok ((), s1)) : Does (.alu 0) x (.rdc x) s s0 s1 := by
  have may : ¬ ((!s0.me.regs.priv) = true ∧ (crNo x = 0x0D ∨ crNo x = 0x0E ∨ crNo x = 0x0F ∨ crNo x = 0x10)) := by
    rw [← hiddenCr_iff]
    rintro ⟨user, hidden⟩
    obtain h | h := h <;> simp [h] at user hidden
  refine does_of_body rfl ?_
  rw [bind_getState, if_neg may]
  exact hw

theorem rdc_traps {x : Ops} {s s0 : State} (user : s0.me.regs.priv = false) (h : hiddenCr (crNo x) = true) :
    Traps (.alu 0) x (.rdc x) s s0 (s0.ipTrap Code.privilege 0) := by
  refine traps_of_body rfl ?_
  rw [bind_getState, if_pos ⟨by rw [user]; rfl, (hiddenCr_iff _).mp h⟩]
  exact Exec.bind_error rfl

theorem needPriv_granted {p : Bool} {f : Unit → Exec Unit} (h : p = true) : (needPriv p >>= f) = f () := by
  rw [h]
  rfl

section Write
variable {x : Ops} {s s0 s1 : State} {v : Word} (ha : readA x s0 = .ok (v, s1))
include ha

theorem wrc_does {g : Regs} (h : crWritten (crNo x) v s1.me.regs = some g) :
    Does .ends x (.wrc x) s s0 (s1.withRegs (fun _ => g)) := by
  refine does_of_body (body := wrcBody x) rfl ((Exec.bind_ok ha).trans ?_)
  obtain ⟨n, hn⟩ : ∃ n, crNo x = n := ⟨_, rfl⟩
  rw [hn] at h
  unfold crWritten at h
  split at h
  case h_2 =>
    split at h <;> cases h
    next mode =>
    simp only [bind_getState, hn]
    rw [if_neg (Nat.not_lt.mpr mode)]
    rfl
  case h_8 => cases h
  all_goals
    cases h
    simp only [bind_getState, hn]
    rfl

theorem wrc_crnd_traps (hn : crNo x = 0x01) (mode : 5 < Word.bits v 0 3) :
    Traps .ends x (.wrc x) s s0 (s1.reservedTrap 32) := by
  refine traps_of_body (body := wrcBody x) rfl ((Exec.bind_ok ha).trans ?_)
  simp only [bind_getState, hn]
  rw [if_pos mode]
  exact Exec.bind_error rfl

theorem wrc_priv_does {g : Regs} (priv : s1.me.regs.priv = true) (h : privWritten (crNo x) s1.curCore v s1.me.regs = some g) :
    Does .ends x (.wrc x) s s0 (s1.withRegs (fun _ => g)) := by
  refine does_of_body (body := wrcBody x) rfl ((Exec.bind_ok ha).trans ?_)
  obtain ⟨n, hn⟩ : ∃ n, crNo x = n := ⟨_, rfl⟩
  rw [hn] at h
  unfold privWritten at h
  split at h
  case h_1 =>
    split at h <;> cases h
    next range =>
    simp only [bind_getState, hn, needPriv_granted priv]
    rw [if_neg (by omega)]
    rfl
  case h_5 =>
    split at h <;> cases h
    next m =>
    simp only [bind_getState, hn, needPriv_granted priv]
    rw [if_pos m]
    rfl
  case h_6 => cases h
  all_goals
    cases h
    simp only [bind_getState, hn, needPriv_granted priv]
    rfl

theorem wrc_cacc_elsewhere (hn : crNo x = 0x17) (priv : s1.me.regs.priv = true) (k : s1.curCore ≠ .m) :
    Does .ends x (.wrc x) s s0 s1 := by
  refine does_of_body (body := wrcBody x) rfl ((Exec.bind_ok ha).trans ?_)
  simp only [bind_getState, hn, needPriv_granted priv]
  rw [if_neg k]
  rfl

theorem wrc_cydl_traps (hn : crNo x = 0x0A) (priv : s1.me.regs.priv = true)
    (range : Word.bits v 0 21 < 1024 ∨ 2 ^ 20 < Word.bits v 0 21) : Traps .ends x (.wrc x) s s0 (s1.reservedTrap 32) := by
  refine traps_of_body (body := wrcBody x) rfl ((Exec.bind_ok ha).trans ?_)
  simp only [bind_getState, hn, needPriv_granted priv]
  rw [if_pos range]
  exact Exec.bind_error rfl

theorem wrc_user_traps (hn : crNo x = 0x0A ∨ crNo x = 0x0E ∨ crNo x = 0x0F ∨ crNo x = 0x15 ∨ crNo x = 0x17)
    (user : s1.me.regs.priv = false) : Traps .ends x (.wrc x) s s0 (s1.ipTrap Code.privilege 0) := by
  refine traps_of_body (body := wrcBody x) rfl ((Exec.bind_ok ha).trans ?_)
  obtain hn | hn | hn | hn | hn := hn
  all_goals
    simp only [bind_getState, hn, user]
    exact Exec.bind_error rfl

/-- A write of a register that is read-only, or that another entry writes, does nothing. -/
theorem wrc_readOnly (hn : crNo x ∈ [0x03, 0x04, 0x05, 0x07, 0x08, 0x09, 0x0C, 0x10, 0x11, 0x12, 0x14, 0x16, 0x18, 0x19, 0x1A, 0x1B]) :
    Does .ends x (.wrc x) s s0 s1 := by
  refine does_of_body (body := wrcBody x) rfl ((Exec.bind_ok ha).trans ?_)
  rw [bind_getState]
  generalize crNo x = n at hn
  simp only [List.mem_cons, List.not_mem_nil, or_false] at hn
  obtain rfl | rfl | rfl | rfl | rfl | rfl | rfl | rfl | rfl | rfl | rfl | rfl | rfl | rfl | rfl | rfl := hn
  all_goals rfl

theorem cspill_user_traps (user : s1.me.regs.priv = false) :
    Traps .ends x (.wrcCspill x) s s0 (s1.ipTrap Code.privilege 0) := by
  refine traps_of_body rfl ((Exec.bind_ok ha).trans ?_)
  rw [bind_getState, if_pos (by rw [user]; rfl)]
  exact Exec.bind_error rfl

theorem cspill_does (priv : s1.me.regs.priv = true) (same : Word.bits v 32 16 = s1.me.regs.pblk.toNat ∨ s1.me.regs.depth = 0)
    (others : ∀ k, k ≠ s1.curCore → ((s1.tile s1.curTile).core k).regs.pblk.toNat &&& Word.bits v 32 16 = 0)
    (tags : ∀ k, k < 16 → (Word.bits v 32 16).testBit k = true → accTag ((s1.tile s1.curTile).block k) = 0 ∨
      accTag ((s1.tile s1.curTile).block k) = s1.me.cctx.toNat) :
    Does .ends x (.wrcCspill x) s s0 (s1.withRegs (fun r =>
      { r with park := v.getLsbD 63, pblk := BitVec.ofNat 16 (Word.bits v 32 16) })) := by
  have parked : CoreK.all.any (fun k => k != s1.curCore &&
      (((s1.tile s1.curTile).core k).regs.pblk.toNat &&& Word.bits v 32 16) != 0) = false := by
    rw [List.any_eq_false]
    intro k _ h
    simp only [Bool.and_eq_true, bne_iff_ne] at h
    exact h.2 (others k h.1)
  have tagged : (maskList 16 (Word.bits v 32 16)).any (fun k => accTag ((s1.tile s1.curTile).block k) != 0 &&
      accTag ((s1.tile s1.curTile).block k) != s1.me.cctx.toNat) = false := by
    rw [List.any_eq_false]
    intro k hk h
    simp only [Bool.and_eq_true, bne_iff_ne] at h
    simp only [maskList, List.mem_filter, List.mem_range] at hk
    exact (tags k hk.1 hk.2).elim h.1 h.2
  have kept : ¬ (Word.bits v 32 16 ≠ s1.me.regs.pblk.toNat ∧ s1.me.regs.depth ≠ 0) := by tauto
  refine does_of_body rfl ((Exec.bind_ok ha).trans ?_)
  rw [bind_getState, if_neg (by rw [priv]; exact Bool.false_ne_true)]
  dsimp only
  rw [parked, tagged, if_neg (by simp [kept])]
  rfl

theorem cspill_parked_traps (priv : s1.me.regs.priv = true) (other : Word.bits v 32 16 ≠ s1.me.regs.pblk.toNat)
    (depth : s1.me.regs.depth ≠ 0) : Traps .ends x (.wrcCspill x) s s0 (s1.ipTrap Code.protection 0x0D) := by
  refine traps_of_body rfl ((Exec.bind_ok ha).trans ?_)
  rw [bind_getState, if_neg (by rw [priv]; exact Bool.false_ne_true)]
  dsimp only
  rw [if_pos (Or.inl ⟨other, depth⟩)]
  exact Exec.bind_error rfl

theorem cras_does (good : ¬ (s1.me.regs.rcnt ≠ 0 ∨ s1.me.regs.sptr ≠ s1.me.regs.sbase ∨ Word.bits v 32 32 % 8 ≠ 0 ∨
    0x7FFFFF8 < Word.bits v 32 32)) : Does .ends x (.wrcCras x) s s0 (s1.withRegs (fun r =>
      { r with sbase := BitVec.ofNat 32 (Word.bits v 32 32), sptr := BitVec.ofNat 32 (Word.bits v 32 32) })) := by
  refine does_of_body rfl ((Exec.bind_ok ha).trans ?_)
  rw [bind_getRegs, if_neg good]
  rfl

theorem cras_traps (bad : s1.me.regs.rcnt ≠ 0 ∨ s1.me.regs.sptr ≠ s1.me.regs.sbase ∨ Word.bits v 32 32 % 8 ≠ 0 ∨
    0x7FFFFF8 < Word.bits v 32 32) : Traps .ends x (.wrcCras x) s s0 (s1.ipTrap Code.protection 0x0E) := by
  refine traps_of_body rfl ((Exec.bind_ok ha).trans ?_)
  rw [bind_getRegs, if_pos bad]
  exact Exec.bind_error rfl

end Write

/-- Settles O45: each register's read and write by hand, in each mode. -/
theorem controlRegistersReadAndWrite : Obligations.ControlRegistersReadAndWrite := by
  unfold Obligations.ControlRegistersReadAndWrite
  exact ⟨fun x s s0 s1 => ⟨rdc_does, rdc_traps⟩,
    fun x s s0 s1 v ha => ⟨fun g => wrc_does ha, wrc_crnd_traps ha, fun g => wrc_priv_does ha, wrc_cacc_elsewhere ha,
      wrc_cydl_traps ha, wrc_user_traps ha, wrc_readOnly ha⟩,
    fun x s s0 s1 v ha => ⟨cspill_user_traps ha, cspill_does ha, cspill_parked_traps ha⟩,
    fun x s s0 s1 v ha => ⟨cras_does ha, cras_traps ha⟩⟩

end Sys2Proof.Claims
end

section
/-!
SUPPORT, of O32. What an instruction needs to issue (R375), and checks that change nothing but the read set of the chunk (R78).
-/
namespace Sys2Proof.Machine

theorem needs_unmet {n : Need} {s : State} (ht : s.me.trial = false) (h : s.hasNeed s.curTile s.curCore n = false) :
    needs n s = .error (.stall State.unwait) := by
  simp only [needs, bind_getState, ht, h, Bool.false_eq_true, if_false, Bool.not_false, if_true]
  rfl

theorem needs_tried {n : Need} {s : State} (ht : s.me.trial = true) :
    needs n s = .ok ((), s.setMe { s.me with needs := s.me.needs ++ [n] }) := by
  rw [needs, bind_getState, if_pos ht]
  rfl

/-- An instruction that goes on past a need has it, and changes nothing. -/
theorem needs_inv {n : Need} {s t : State} (ht : s.me.trial = false) (h : needs n s = .ok ((), t)) :
    t = s ∧ s.hasNeed s.curTile s.curCore n = true := by
  cases need : s.hasNeed s.curTile s.curCore n with
  | false =>
    rw [needs_unmet ht need] at h
    cases h
  | true =>
    rw [needs_met ht need] at h
    cases h
    exact ⟨rfl, rfl⟩

/-- Nothing has changed but the read set of the acting core's chunk. -/
def State.Reads (s t : State) : Prop := t = s ∨ ∃ f : List Nat → List Nat,
  t = s.setMe { s.me with chunk := s.me.chunk.map (fun h => { h with rset := f h.rset }) }

theorem State.Reads.trans {s t u : State} (h : s.Reads t) (h' : t.Reads u) : s.Reads u := by
  obtain rfl | ⟨f, rfl⟩ := h
  · exact h'
  · obtain rfl | ⟨g, rfl⟩ := h'
    · exact .inr ⟨f, rfl⟩
    · refine .inr ⟨g ∘ f, ?_⟩
      simp only [State.me_setMe, State.setMe_setMe, Option.map_map]
      rfl

/-- The effects that change nothing but the read set of the acting core's chunk. -/
def reads : Reach := { rel := State.Reads, refl := fun s => .inl (.refl s), trans := State.Reads.trans }

section Kept
variable {s t : State} (h : s.Reads t)
include h

theorem State.Reads.mem : t.mem = s.mem := by
  obtain rfl | ⟨f, rfl⟩ := h <;> rfl

theorem State.Reads.curTile : t.curTile = s.curTile := by
  obtain rfl | ⟨f, rfl⟩ := h <;> rfl

theorem State.Reads.regs : t.me.regs = s.me.regs := by
  obtain rfl | ⟨f, rfl⟩ := h
  · rfl
  · rw [State.me_setMe]

theorem State.Reads.trial : t.me.trial = s.me.trial := by
  obtain rfl | ⟨f, rfl⟩ := h
  · rfl
  · rw [State.me_setMe]

theorem State.Reads.chunk {c : Chunk} (hc : s.me.chunk = some c) : ∃ ls, t.me.chunk = some { c with rset := ls } := by
  obtain rfl | ⟨f, rfl⟩ := h
  · exact ⟨c.rset, hc⟩
  · refine ⟨f c.rset, ?_⟩
    rw [State.me_setMe, hc]
    rfl

theorem State.Reads.tags : (t.tile t.curTile).tags = (s.tile s.curTile).tags := by
  obtain rfl | ⟨f, rfl⟩ := h
  · rfl
  · simp [State.setMe, State.setCore, Tile.setCore]

end Kept

theorem addReads_reads {ls : List Nat} : (addReads ls).Within reads := by
  rintro s a t ⟨⟩
  exact .inr ⟨ls.foldl setAdd, rfl⟩

theorem bufFault_within {α : Type} {R : Reach} {a : Word} {kind cause : Nat} : (bufFault a kind cause : Exec α).Within R :=
  .of_error fun _ => ⟨_, rfl⟩

theorem copyFault_error (o : CopyOpd) (code : Byte) (cause : Nat) (s : State) : ∃ i, copyFault o code cause s = .error i := by
  unfold copyFault
  split <;> exact ⟨_, rfl⟩

/-- A check of an operand, or of two, over a list: a step taken on a condition, for each. -/
theorem check_reads {p : Prop} [Decidable p] {m : Exec Unit} (hm : m.Within reads) :
    (if p then m >>= fun _ => pure (ForInStep.yield PUnit.unit) else pure (ForInStep.yield PUnit.unit) :
      Exec (ForInStep PUnit)).Within reads :=
  within_ite (hm.bind fun _ => pure_within) pure_within

theorem copyFault_within {R : Reach} {o : CopyOpd} {code : Byte} {cause : Nat} : (copyFault o code cause).Within R :=
  .of_error (copyFault_error o code cause)

theorem copyCheck1_reads {o : CopyOpd} : (copyCheck1 o).Within reads := by
  unfold copyCheck1
  refine getState_within.bind fun s => ?_
  extract_lets c acc n
  split
  · exact pure_within
  · exact within_when faultAcc_within fun _ => within_ite faultAcc_within pure_within
  · exact within_when faultAcc_within fun _ => within_when faultAcc_within fun _ => within_ite faultAcc_within pure_within
  all_goals exact faultAcc_within

theorem copyCheck2_reads {o : CopyOpd} {wb : Bool} : (copyCheck2 o wb).Within reads :=
  getState_within.bind fun _ => within_when bufFault_within fun _ => within_ite (within_when bufFault_within fun _ =>
    within_when bufFault_within fun _ => within_ite bufFault_within pure_within) pure_within

theorem checkSide_reads {slabs : List SlabId} {engine : Bool} {kind : Nat} : (checkSide slabs engine kind).Within reads := by
  refine getState_within.bind fun s => addReads_reads.bind fun _ => ?_
  split
  · exact throwTrap_within
  · exact pure_within

/-- A copy that passes its checks (R272): what it has found, and the record that it leaves to the commit of its chunk. -/
theorem issueCopy_inv {x : Ops} {os : List CopyOpd} {dst : CopyOpd} {wb lim : Bool} {al : List (CopyOpd × Nat × Nat)} {r : TagRec}
    {s t : State} (ht : s.me.trial = false) (h : issueCopy x os dst wb lim al r s = .ok ((), t)) :
    ∃ u c, lim = true ∧ s.Reads u ∧ ((s.tile s.curTile).tag (x.imm.toNat % 64)).st ≠ .faulted ∧
      u.hasNeed u.curTile u.curCore (.tag (x.imm.toNat % 64)) = true ∧ t = u.withAct (.copy (x.imm.toNat % 64) c) ∧
      c.st = (if r.rows * r.rowlen = 0 ∧ r.flag = false then .done else .busy) ∧
      c.ssem = x.h.ssem.toNat ∧ c.sinc = x.h.sinc.toNat ∧ c.kind = r.kind ∧ c.rows = r.rows ∧ c.rowlen = r.rowlen ∧
      c.src = r.src ∧ c.dst = r.dst ∧ c.doneb = r.doneb := by
  unfold issueCopy at h
  rw [bind_getState] at h
  extract_lets strips held old jid total issue checks at h
  obtain ⟨_, s1, h1, h⟩ := Exec.bind_inv h
  have r1 : s.Reads s1 := forIn_within (fun _ _ => check_reads copyCheck1_reads) _ _ _ h1
  obtain ⟨_, s2, h2, h⟩ := Exec.bind_inv h
  have r2 : s1.Reads s2 := forIn_within (fun _ _ => check_reads copyCheck2_reads) _ _ _ h2
  split at h
  · obtain ⟨_, _, fault, -⟩ := Exec.bind_inv h
    obtain ⟨i, hi⟩ := copyFault_error dst Code.protection 0x0C s2
    rw [hi] at fault
    cases fault
  next limits =>
  obtain ⟨_, s3, h3, h⟩ := Exec.bind_inv h
  have r3 : s2.Reads s3 := by
    refine forIn_within (R := reads) (fun o _ => ?_) _ _ _ h3
    split
    · exact check_reads copyFault_within
    · exact pure_within
  obtain ⟨_, s4, h4, h⟩ := Exec.bind_inv h
  have r4 : s3.Reads s4 := forIn_within (fun _ _ => check_reads copyFault_within) _ _ _ h4
  obtain ⟨_, s5, h5, h⟩ := Exec.bind_inv h
  have r5 : s4.Reads s5 := forIn_within (fun _ _ => check_reads faultIp_within) _ _ _ h5
  obtain ⟨_, u, h6, h⟩ := Exec.bind_inv h
  have r6 : s5.Reads u := forIn_within (fun _ _ => checkSide_reads.bind fun _ => pure_within) _ _ _ h6
  have checked : s.Reads u := r1.trans (r2.trans (r3.trans (r4.trans (r5.trans r6))))
  split at h
  · obtain ⟨_, _, fault, -⟩ := Exec.bind_inv h
    cases fault
  next sound =>
  have trial : u.me.trial = false := checked.trial.trans ht
  obtain ⟨_, u1, h7, rest⟩ := Exec.bind_inv h
  obtain ⟨rfl, free⟩ := needs_inv trial h7
  obtain ⟨_, u2, h8, left⟩ := Exec.bind_inv rest
  obtain ⟨rfl, -⟩ := needs_inv trial h8
  cases left
  refine ⟨u2, _, by simpa using limits, checked, sound, free, rfl, ?_, rfl, rfl, rfl, rfl, rfl,
    rfl, rfl, rfl⟩
  simp [total]

end Sys2Proof.Machine

namespace Sys2Proof.Claims
open Sys2Proof Sys2Proof.Machine

theorem needsHoldTheIssue : NeedsHoldTheIssue :=
  fun _ _ => ⟨needs_met, needs_unmet, needs_tried⟩

theorem copiesThatPassTheirChecksAreHandedOver : CopiesThatPassTheirChecksAreHandedOver := by
  intro x os dst wb lim al r s t ht h
  obtain ⟨u, c, limits, checked, sound, free, rfl, record⟩ := issueCopy_inv ht h
  refine ⟨limits, checked.mem, ?_, ?_, fun g hg => ?_⟩
  · rw [State.withAct, State.me_setMe]
    exact checked.regs
  · have idle : ((s.tile s.curTile).tag (x.imm.toNat % 64)).st ≠ .busy ∧
        ((s.tile s.curTile).tag (x.imm.toNat % 64)).st ≠ .suspended := by
      simpa [State.hasNeed, checked.tags, Tile.tag] using free
    cases st : ((s.tile s.curTile).tag (x.imm.toNat % 64)).st <;> simp [st] at sound idle ⊢
  · obtain ⟨ls, hu⟩ := checked.chunk hg
    refine ⟨{ g with rset := ls, acts := g.acts ++ [.copy (x.imm.toNat % 64) c] }, c, ?_, rfl, record⟩
    rw [State.withAct, State.me_setMe, hu]
    rfl

section Entries
variable {x : Ops} {s s0 s1 s2 s3 : State} {d a : Word} (hd : readOpd x x.d s0 = .ok (d, s1)) (ha : readA x s1 = .ok (a, s2))
include hd ha

theorem copyEntry_does {i : Instr} {body : Word → Word → Exec Unit}
    (hx : exec i s = runCore .copies x (readOpd x x.d >>= fun d => readA x >>= fun a => body d a) s)
    (hb : body d a s2 = .ok ((), s3)) : Does .copies x i s s0 s3 :=
  does_of_body hx ((Exec.bind_ok hd).trans ((Exec.bind_ok ha).trans hb))

end Entries

theorem copyEntriesIssueTheirCopy : CopyEntriesIssueTheirCopy := by
  unfold CopyEntriesIssueTheirCopy
  refine ⟨fun x s s0 s1 s2 s3 s4 d a n hd ha hn issue => ?_, fun x s s0 s1 s2 s3 s4 s5 d a sh pi hd ha hs hp issue => ?_,
    fun x s s0 s1 s2 s3 s4 s5 d a n cw hd ha hn hc issue => ?_, fun x s s0 s1 s2 s3 s4 d a n hd ha hn issue => ?_,
    fun x s s0 s1 s2 s3 s4 d v n hd ha hn issue => ?_⟩
  · refine copyEntry_does hd ha rfl ((Exec.bind_ok hn).trans ?_)
    simp only [bits_low]
    exact issue
  · refine copyEntry_does hd ha rfl ((Exec.bind_ok hs).trans ((Exec.bind_ok ?_).trans issue))
    exact hp
  · refine copyEntry_does hd ha rfl ((Exec.bind_ok hn).trans ((Exec.bind_ok hc).trans ?_))
    simp only [bits_low]
    exact issue
  · refine copyEntry_does hd ha rfl ((Exec.bind_ok hn).trans ?_)
    simp only [bits_low]
    exact issue
  · refine copyEntry_does hd ha rfl ((Exec.bind_ok hn).trans ?_)
    simp only [bits_low]
    exact issue

/-- Settles O32: the entries by what they hand to the checks, and the checks, which leave only lines read, one after another. -/
theorem copyEntriesCheckAndHandOver : Obligations.CopyEntriesCheckAndHandOver := by
  unfold Obligations.CopyEntriesCheckAndHandOver
  exact ⟨copyEntriesIssueTheirCopy, needsHoldTheIssue, copiesThatPassTheirChecksAreHandedOver⟩

end Sys2Proof.Claims
end

section
/-!
SUPPORT, of O48. Writes of global memory leave the launches of the part as they are: commits, the walks before them, and the machine
checks of what cannot be written.
-/
namespace Sys2Proof.Machine

@[simp] theorem State.raiseIrq_launches (s : State) (f v : Nat) : (s.raiseIrq f v).launches = s.launches := by
  unfold State.raiseIrq
  dsimp only
  split <;> rfl

@[simp] theorem State.logCheck_launches (s : State) (t : Nat) (code : Byte) (cfad : Word) :
    (s.logCheck t code cfad).launches = s.launches := by
  simp [State.logCheck, State.count]

@[simp] theorem State.track_launches (s : State) (vf : Option Nat) (key : Nat) : (s.track vf key).launches = s.launches := by
  unfold State.track
  split
  · rfl
  · dsimp only
    split
    · split
      · simp
      · split
        · rfl
        · exact (State.conflict_launches ..).trans (State.pokeBytes_launches ..)
    · rfl

@[simp] theorem State.commitBytes_launches (s : State) (t : Nat) (vf : Option Nat) (kn key : Nat) (bs : List Byte) :
    (s.commitBytes t vf kn key bs).launches = s.launches := by
  unfold State.commitBytes
  split <;> simp

theorem State.setAD_launches (s : State) (t : Nat) (vf : Option Nat) (e : Word) (key : Nat) (write : Bool) :
    (s.setAD t vf e key write).1.launches = s.launches := by
  unfold State.setAD
  extract_lets bits e' key' b
  split
  · rfl
  · exact s.commitBytes_launches ..

theorem State.xlateJob_launches {s u : State} {j : Job} {write : Bool} {va : Nat} {p : Place}
    (h : s.xlateJob j write va = .ok (p, u)) : u.launches = s.launches := by
  unfold State.xlateJob at h
  dsimp only at h
  split at h
  · cases h
  · cases h
  · split at h
    · cases h
    · cases h
      exact s.setAD_launches ..

theorem State.placeWrite_launches (s : State) (t : Nat) (vf : Option Nat) (p : Place) (bs : List Byte) :
    (s.placeWrite t vf p bs).launches = s.launches := by
  cases p with
  | mem key kn uc => exact s.commitBytes_launches ..
  | host a => rfl
  | remote pkg pa => rfl

theorem State.noteBad_launches (s : State) (f : Byte × Nat) : (s.noteBad f).launches = s.launches := by
  unfold State.noteBad
  split
  · exact s.logCheck_launches ..
  · rfl

theorem State.gPut_launches (s : State) (j : Job) (va : Nat) (bs : List Byte) : (s.gPut j va bs).launches = s.launches := by
  unfold State.gPut State.gWrite
  cases h : s.xlateJob j true va with
  | error f => exact s.noteBad_launches f
  | ok r =>
    obtain ⟨p, u⟩ := r
    exact (u.placeWrite_launches ..).trans (State.xlateJob_launches h)

theorem launches_foldl {α : Type} {f : State → α → State} (hf : ∀ s a, (f s a).launches = s.launches) (l : List α) (s : State) :
    (l.foldl f s).launches = s.launches :=
  List.foldlRecOn (motive := fun (u : State) => u.launches = s.launches) l f rfl fun u h a _ => (hf u a).trans h

theorem State.gStore_launches (s : State) (j : Job) (va : Nat) (bs : List Byte) : (s.gStore j va bs).launches = s.launches :=
  launches_foldl (fun u _ => u.gPut_launches ..) _ _

/-- What the end of a save writes of one core's pending events: CFAD and CFDW of the first into the frame at an address (R395). -/
def State.pendFrame (s : State) (j : Job) (x : Tile) (va : CoreK → Nat) (k : CoreK) : State :=
  match (x.core k).pendItems with
  | [] => s
  | n :: _ => match (x.core k).pend.find? (fun p => p.item == n) with
    | some p => s.gStore j (va k) (bytesOfWords [p.info.cfad, word p.info.cfdw.toNat])
    | none => s

theorem State.savePend_eq (s : State) (j : Job) (t vtn : Nat) : s.savePend j t vtn =
    (CoreK.all.foldl (fun u k => u.pendFrame j (s.tile t)
      (fun k => recordBase j vtn + 0x20000 + (s.tile t).tailOfs + areaOfs k + 0x18) k) s).gStore j (recordBase j vtn + 0x48)
      (toBytes 8 (CoreK.all.foldl (fun a k => (((s.tile t).core k).pendItems).foldl (fun a n => a + 2 ^ pendBit k n) a) 0)) := rfl

theorem State.pendFrame_launches (s : State) (j : Job) (x : Tile) (va : CoreK → Nat) (k : CoreK) :
    (s.pendFrame j x va k).launches = s.launches := by
  unfold State.pendFrame
  split
  · rfl
  · split
    · rw [State.gStore_launches]
    · rfl

theorem State.savePend_launches (s : State) (j : Job) (t vtn : Nat) : (s.savePend j t vtn).launches = s.launches := by
  rw [State.savePend_eq, State.gStore_launches]
  exact launches_foldl (fun u k => u.pendFrame_launches ..) _ _

theorem State.semOverflow_launches (s : State) (t : Nat) : (s.semOverflow t).launches = s.launches := by
  unfold State.semOverflow
  dsimp only
  split
  · rfl
  · split <;> rfl

/-- A launch that is looked up by its number has it. -/
theorem launch_id {s : State} {id : Nat} {l : Launch} (h : s.launch? id = some l) : l.id = id := by
  simpa using List.find?_some h

/-- A launch that is set is found, in the place of the one that had its number. -/
theorem launch_setLaunch {s : State} {id : Nat} {l l' : Launch} (h : s.launch? id = some l) (same : l'.id = id) :
    (s.setLaunch l').launch? id = some l' := by
  unfold State.launch? at h
  unfold State.launch? State.setLaunch
  dsimp only
  generalize s.launches = ls at h
  induction ls with
  | nil => cases h
  | cons x ls ih =>
    by_cases hx : x.id = id
    · simp [hx, same]
    · rw [List.find?_cons_of_neg (by simpa using hx)] at h
      rw [List.map_cons, List.find?_cons_of_neg (by simp [same, hx]), ih h]

end Sys2Proof.Machine
end

section
/-!
SUPPORT, of O48. Saves, restores, slips and drains, by the stage at which a watch stands (R72, R389, R403).
-/
namespace Sys2Proof.Machine

theorem State.core_pendCore_same (s : State) (t : Nat) (k : CoreK) (item : Nat) (i : TrapInfo) :
    (s.pendCore t k item i).core t k =
      if (s.core t k).run = .off then s.core t k else { s.core t k with pend := (s.core t k).pend ++ [{ item := item, info := i }] } :=
  State.core_setCore_same ..

theorem State.core_pendCore_other (s : State) (t : Nat) {k j : CoreK} (item : Nat) (i : TrapInfo) (h : j ≠ k) :
    (s.pendCore t k item i).core t j = s.core t j :=
  State.core_setCore_other _ _ (.inr h)

/-- Events pended on cores one after another, each core named once. -/
theorem State.core_pendCores (t item : Nat) (i : TrapInfo) (k : CoreK) (ks : List CoreK) (once : ks.Nodup) (s : State) :
    (ks.foldl (fun s k => s.pendCore t k item i) s).core t k =
      if k ∈ ks then (s.pendCore t k item i).core t k else s.core t k := by
  induction ks generalizing s with
  | nil => rfl
  | cons j ks ih =>
    obtain ⟨fresh, once⟩ := List.nodup_cons.mp once
    rw [List.foldl_cons, ih once]
    by_cases h : k = j
    · subst h
      rw [if_neg fresh, if_pos List.mem_cons_self]
    · rw [State.core_pendCore_same, State.core_pendCore_same, State.core_pendCore_other _ _ _ _ h]
      simp [h]

theorem State.core_pendSlip (s : State) (t : Nat) (k : CoreK) :
    (s.pendSlip t).core t k = (s.pendCore t k 9 (groupTrap t Code.gangSlip)).core t k := by
  rw [State.pendSlip, State.core_pendCores _ _ _ _ _ (by decide), if_pos (by cases k <;> decide)]

theorem watchSave_none {s : State} {t : Nat} (h : (s.tile t).watch = none) : s.watchSave t = s := by
  simp only [State.watchSave, h]

theorem saveComplete_none {s : State} {t : Nat} (h : (s.tile t).watch = none) : s.saveComplete t = s := by
  simp only [State.saveComplete, h]

theorem endCancelled_live {s : State} {id : Nat} {l : Launch} (h : s.launch? id = some l) (live : l.cancelled = false) :
    s.endCancelled id = s := by
  simp only [State.endCancelled, h, live, Bool.not_false, if_true]

@[simp] theorem State.tile_migSettle (s : State) (t : Nat) : s.migSettle.tile t = s.tile t := rfl
@[simp] theorem State.launch_migSettle (s : State) (id : Nat) : s.migSettle.launch? id = s.launch? id := rfl
@[simp] theorem State.tile_setLaunch (s : State) (l : Launch) (t : Nat) : (s.setLaunch l).tile t = s.tile t := rfl

section Stage
variable {s : State} {t : Nat} {w : Watch} (hw : (s.tile t).watch = some w)
include hw

theorem watchSave_idle (h : w.st ≠ .saving) : s.watchSave t = s := by
  simp only [State.watchSave, hw, h, ne_eq, not_false_eq_true, true_or, if_true]

theorem saveComplete_idle (h : w.st ≠ .written) : s.saveComplete t = s := by
  simp only [State.saveComplete, hw, h, ne_eq, not_false_eq_true, if_true]

theorem watchSave_saves {j : Job} (st : w.st = .saving) (stays : (s.tile t).draining = false)
    (idle : (s.suspendCopies t).enginesIdle t = true) (hj : (s.suspendCopies t).job? w.jid = some j) :
    s.watchSave t = (((CoreK.all.foldl (fun u k => u.saveCore t k) (s.suspendCopies t)).saveTail t).saveRecord j t w.vtn).updTile t
      (fun x => { x with watch := some { w with st := .written } }) := by
  simp only [State.watchSave, hw, st, stays, ne_eq, not_true_eq_false, Bool.false_eq_true, or_self, if_false, idle, Bool.not_true, hj]

/-- What a complete record leaves: the tile wiped, and a watch more that is saved with the launch. -/
theorem saveComplete_eq {j : Job} {l : Launch} (st : w.st = .written) (hj : s.job? w.jid = some j)
    (hl : s.launch? w.launch = some l) : ∃ (sv : Saved) (y : Tile),
      let u := ((s.semOverflow t).savePend j t w.vtn).setTile t y
      let l := (u.launch? w.launch).getD l
      s.saveComplete t = ((u.setLaunch { l with
        tiles := l.tiles.filter (fun u => u != t), saved := l.saved ++ [sv] }).endCancelled l.id).migSettle ∧
      sv.vtn = w.vtn ∧ y.watch = none := by
  unfold State.saveComplete
  simp only [hw, st, ne_eq, not_true_eq_false, if_false, hj, hl]
  exact ⟨_, _, rfl, rfl, rfl⟩

/-- A complete record leaves the tile without a watch, and a launch that is not cancelled with one more that is saved. -/
theorem saveComplete_saves {j : Job} {l : Launch} (st : w.st = .written) (hj : s.job? w.jid = some j)
    (hl : s.launch? w.launch = some l) (live : l.cancelled = false) :
    ((s.saveComplete t).tile t).watch = none ∧
      ∃ l', (s.saveComplete t).launch? w.launch = some l' ∧ l'.saved.any (fun v => v.vtn == w.vtn) = true := by
  obtain ⟨sv, y, eq, vtn, wiped⟩ := saveComplete_eq hw st hj hl
  generalize hv : (s.semOverflow t).savePend j t w.vtn = v at eq
  have found : (v.setTile t y).launch? w.launch = some l := by
    rw [← hv, State.launch?, State.setTile_launches, State.savePend_launches, State.semOverflow_launches]
    exact hl
  rw [found, Option.getD_some] at eq
  rw [← launch_id hl] at found ⊢
  have found' := launch_setLaunch (l' := { l with
    tiles := l.tiles.filter (fun u => u != t), saved := l.saved ++ [sv] }) found rfl
  rw [endCancelled_live found' live] at eq
  rw [eq, State.tile_migSettle, State.tile_setLaunch, State.tile_setTile_same, State.launch_migSettle]
  exact ⟨wiped, _, found', by simp [vtn]⟩

theorem slipWatch_slice {l : Launch} {j : Job} {v : Saved} (hv : l.slice.find? (fun v => v.vtn == w.vtn) = some v) :
    let off := fun (u : State) => (CoreK.all.filter (fun k => (u.core t k).run == .off)).length
    let u := (s.restoreOn l j v t).putKept t v.kept
    s.slipWatch l j t = (u.countBack l.id (off s - off u)).pendSlip t := by
  simp only [State.slipWatch, hw, hv]

theorem slipWatch_anew {l : Launch} {j : Job} (hv : l.slice.find? (fun v => v.vtn == w.vtn) = none) :
    let off := fun (u : State) => (CoreK.all.filter (fun k => (u.core t k).run == .off)).length
    let u := s.placeAnew l j w.grid t
    s.slipWatch l j t = (u.countBack l.id (off s - off u)).pendSlip t := by
  simp only [State.slipWatch, hw, hv]

end Stage

theorem gangSlip_gone {s : State} {id : Nat} (h : s.launch? id = none) : s.gangSlip id = s := by
  simp only [State.gangSlip, h]

/-- A launch that does not run, that is cancelled, or whose slice has started or has time left does not slip. -/
theorem gangSlip_stays {s : State} {id : Nat} {l : Launch} (hl : s.launch? id = some l)
    (h : l.state ≠ 1 ∨ l.cancelled = true ∨
      l.grp.all (fun g => !g.slipping && (g.started || g.s0.all (fun s0 => decide (s.gtc ≤ s.slipDeadline s0)))) = true) :
    s.gangSlip id = s := by
  unfold State.gangSlip
  simp only [hl]
  split
  next g j hg _ =>
    split
    · next s0 hs0 =>
      rw [if_pos]
      simp only [hg, hs0, Option.all_some, Bool.and_eq_true, Bool.or_eq_true, decide_eq_true_eq, Bool.not_eq_true'] at h
      obtain h | h | ⟨h, h'⟩ := h
      · exact .inl h
      · exact .inr (.inl h)
      · exact .inr (.inr ⟨by rw [h]; rfl, h'⟩)
    · rfl
  · rfl

section Slips
variable {s : State} {id s0 : Nat} {l l' : Launch} {g : Group} {j : Job} (hl : s.launch? id = some l) (hg : l.grp = some g)
  (hj : s.job? l.jid = some j) (hs : g.s0 = some s0) (runs : l.state = 1) (live : l.cancelled = false)
  (slips : g.slipping = true ∨ (g.started = false ∧ s.slipDeadline s0 < s.gtc))
  (hl' : (l.tiles.foldl (fun s t => s.slipStop t) s).launch? id = some l')
include hl hg hj hs runs live slips hl'

/-- A slice that slips is stopped on its tiles, and is put back once its engines have come to their end. -/
theorem gangSlip_slips : s.gangSlip id =
    if l'.tiles.all (l.tiles.foldl (fun s t => s.slipStop t) s).enginesIdle then
      (l.tiles.foldl (fun s t => s.slipStop t) s).slipBack l' j s0
    else (l.tiles.foldl (fun s t => s.slipStop t) s).setLaunch { l' with grp := l'.grp.map (fun g => { g with slipping := true }) } := by
  have due : ¬ (l.state ≠ 1 ∨ l.cancelled = true ∨ ((!g.slipping) = true ∧ (g.started = true ∨ s.gtc ≤ s.slipDeadline s0))) := by
    rintro (h | h | ⟨h, h'⟩)
    · exact h runs
    · rw [live] at h
      cases h
    · obtain slipping | ⟨started, late⟩ := slips
      · rw [slipping] at h
        cases h
      · rw [started] at h'
        exact h'.elim Bool.false_ne_true fun h' => by omega
  unfold State.gangSlip
  simp only [hl, hg, hj, hs]
  rw [if_neg due]
  simp only [hl']

end Slips

theorem drainDone_waits {s : State} {t : Nat} (h : s.drained t = false) : s.drainDone t = s := by
  simp only [State.drainDone, h, Bool.not_false, if_true]

end Sys2Proof.Machine

namespace Sys2Proof.Claims
open Sys2Proof Sys2Proof.Machine

/-- Settles O48: each event by the stage of the watch, the slice or the drain that it meets. -/
theorem savesAndRestoresMoveWatches : Obligations.SavesAndRestoresMoveWatches := by
  unfold Obligations.SavesAndRestoresMoveWatches
  refine ⟨fun s t h => ⟨congrArg Host.Outcome.next (watchSave_none h), congrArg Host.Outcome.next (saveComplete_none h)⟩,
    fun s t w hw => ⟨fun h => congrArg Host.Outcome.next (watchSave_idle hw h), fun h => congrArg Host.Outcome.next (saveComplete_idle hw h)⟩,
    fun s t w j hw st stays idle hj => congrArg Host.Outcome.next (watchSave_saves hw st stays idle hj),
    fun s t w j l hw st hj hl => ⟨s.saveComplete t, rfl, saveComplete_saves hw st hj hl⟩,
    fun s id h => congrArg Host.Outcome.next (if_neg ?_),
    fun s id l hl saved => congrArg Host.Outcome.next (if_pos ?_), fun s id h => congrArg Host.Outcome.next ?_,
    fun s id s0 l l' g j hl hg hj hs runs live slips hl' => ?_,
    fun s t l j w hw => ⟨fun v => slipWatch_slice hw, slipWatch_anew hw⟩, fun s t k => ?_, fun s t => rfl,
    fun s t => drainDone_waits, fun s t id l drained hd hl => ?_⟩
  · rw [h]
    exact Bool.false_ne_true
  · rw [hl]
    simpa using saved
  · obtain gone | ⟨l, hl, stays⟩ := h
    · exact gangSlip_gone gone
    · exact gangSlip_stays hl stays
  · have slip : s.gangSlip id = _ := gangSlip_slips hl hg hj hs runs live slips hl'
    exact ⟨fun idle => congrArg Host.Outcome.next (slip.trans (if_pos idle)),
      fun busy => congrArg Host.Outcome.next (slip.trans (if_neg (by rw [busy]; exact Bool.false_ne_true)))⟩
  · rw [State.core_pendSlip, State.core_pendCore_same]
    split <;> simp
  · simp only [State.drainDone, drained, hd, Bool.not_true, Bool.false_eq_true, if_false]
    have found : ((s.setTile t { s.tile t with
        watch := none, draining := false, drainOf := none, drain := 0, tags := [], pcnt := [] }).count 0x48 (s.tile t).drain).launch? id =
      some l := hl
    rw [found]

end Sys2Proof.Claims
end

section
/-!
SUPPORT, of O31. The effects of the copy engine (R90), and what they come to on a copy of one piece between 64-byte aligned offsets of AB.
-/
namespace Sys2Proof.Machine

variable {α β : Type}

theorem copyBind_ok {m : CopyM α} {f : α → CopyM β} {p q : State × List Byte} {a : α} (h : m p = .ok (a, q)) :
    (m >>= f) p = f a q := by
  change (m p >>= fun r => f r.1 r.2) = _
  rw [h]
  rfl

theorem copyBind_get (f : State × List Byte → CopyM β) (p : State × List Byte) : ((get : CopyM _) >>= f) p = f p p := rfl

/-- A copy of one piece that has not moved: `n` bytes from offset `o1` of AB to offset `o2`, for a job. -/
structure TagRec.AbCopy (r : TagRec) (jid o1 o2 n : Nat) : Prop where
  st : r.st = .busy
  kind : r.kind = 0
  rows : r.rows = 1
  rowlen : r.rowlen = n
  src : r.src = abAddr o1
  dst : r.dst = abAddr o2
  sbuf : r.sbuf = true
  dbuf : r.dbuf = true
  flag : r.flag = false
  xrep : r.xrep = false
  fill : r.fill = false
  cw : r.cw = none
  held : r.held = []
  transfer : r.transfer = 0
  ended : r.ended = false
  doneb : r.doneb = 0
  ahead : r.ahead = []
  jid : r.jid = jid

theorem TagRec.ofs_zero (r : TagRec) (pitch : Nat) : r.ofs 0 pitch = 0 := by
  simp [TagRec.ofs]

theorem Side.at_zero {d : Side} (h : d.buf = true) : d.at 0 = d := by
  obtain ⟨t, tag, r, write, a, buf⟩ := d
  subst h
  simp [Side.at, word]

theorem Side.spot_ab {d : Side} {o : Nat} (hb : d.buf = true) (ha : d.a = abAddr o) (ho : o < 2 ^ 20) :
    d.spot = .tile d.t 2 o := by
  obtain ⟨ofs, no, -⟩ := abAddr_fields ho
  rw [Side.spot, if_pos hb, ha, no, ofs]

/-- Bytes of a tile memory are read as they stand, where no word is marked bad. -/
theorem Side.get_mem {s : State} (hp : s.poison = []) (d : Side) (key kn n : Nat) (uc : Bool) (e : List Byte) :
    d.get (.mem key kn uc) n (s, e) = .ok (s.readBytes kn key n, (s, e)) := by
  simp only [Side.get, badWord_of_unmarked hp, Option.isSome_none, Bool.false_eq_true, if_false]

/-- A stretch of one line is not cut. -/
theorem cutLines_line {n : Nat} (pos : 0 < n) (le : n ≤ 64) : cutLines (n + 1) 0 0 n = [(0, n)] := by
  have whole : Nat.min n (64 - (0 + 0) % 64) = n := Nat.min_eq_left le
  rw [cutLines, if_neg (by omega), whole]
  simp only [Nat.sub_self]
  obtain ⟨k, rfl⟩ : ∃ k, n = k + 1 := ⟨n - 1, by omega⟩
  rw [cutLines, if_pos rfl]

/-- One line of AB is read in one access. -/
theorem Side.readAt_ab {s : State} (hp : s.poison = []) {d : Side} {o n : Nat} (hb : d.buf = true) (ha : d.a = abAddr o)
    (ho : o < 2 ^ 20) (al : o % 64 = 0) (pos : 0 < n) (le : n ≤ 64) (e : List Byte) :
    d.readAt 0 n (s, e) = .ok (s.readBytes 0 (tileKey d.t 2 o) n, (s, e)) := by
  have base : d.a.toNat % 64 = 0 := by rw [ha, toNat_abAddr ho]; omega
  have read : (d.at 0).read n (s, e) = .ok (s.readBytes 0 (tileKey d.t 2 o) n, (s, e)) := by
    rw [Side.at_zero hb, Side.read, Side.spot_ab hb ha ho]
    exact Side.get_mem hp ..
  rw [Side.readAt, base, cutLines_line pos le, List.mapM_cons, List.mapM_nil]
  refine (copyBind_ok (copyBind_ok read)).trans ?_
  exact congrArg (fun bs => Except.ok (bs, (s, e))) (List.append_nil _)

section Piece
variable {r : TagRec} {jid o1 o2 n : Nat} (h : r.AbCopy jid o1 o2 n)
include h

theorem TagRec.AbCopy.total : r.total = n := by
  rw [TagRec.total, h.rows, h.rowlen, Nat.one_mul]

/-- The copy is one piece. -/
theorem TagRec.AbCopy.unit (ho : o2 < 2 ^ 20) (al : o2 % 64 = 0) (le : n ≤ 64) : r.unit 0 = n := by
  have line : r.dst.toNat % 64 = 0 := by
    rw [h.dst, toNat_abAddr ho]
    omega
  have kind : ¬ r.kind = 1 := by rw [h.kind]; decide
  simp only [TagRec.unit, h.xrep, Bool.false_eq_true, if_false, if_neg kind, h.rowlen, Nat.zero_div, Nat.zero_mul, Nat.zero_mod,
    Nat.add_zero, line, Nat.sub_zero]
  have line' : Nat.min 64 n = n := Nat.min_eq_right le
  have page : Nat.min n 4096 = n := Nat.min_eq_left (by omega)
  rw [line', page]

/-- The one piece is the next that lands. -/
theorem TagRec.AbCopy.pick (front : r.front = n) (pos : 0 < n) (ho : o2 < 2 ^ 20) (al : o2 % 64 = 0) (le : n ≤ 64) (c : Nat) :
    r.pick c 0 = if c = 0 then some 0 else none := by
  have first : ∀ p, skipMoved (r.ahead.length + 1) r.ahead p = p := fun p => by rw [h.ahead]; rfl
  cases c with
  | zero => rw [TagRec.pick, first, front, if_neg (by omega), if_pos rfl]
  | succ c =>
    have behind : r.pick c n = none := by
      unfold TagRec.pick
      rw [first, front, if_pos (Nat.le_refl n)]
    rw [TagRec.pick, first, front, if_neg (by omega), if_neg (by omega), Nat.zero_add, h.unit ho al le]
    exact behind

/-- What the piece has moved once it has landed: all. -/
theorem TagRec.AbCopy.move (pos : 0 < n) : r.move 0 n = { r with doneb := n, ahead := [] } := by
  have skip : skipMoved 2 [(0, n)] 0 = n := by
    have here : ([(0, n)] : List (Nat × Nat)).find? (fun (o, m) => decide (o ≤ 0) && decide (0 < o + m)) = some (0, n) := by
      simp [pos]
    have past : ([(0, n)] : List (Nat × Nat)).find? (fun (o, m) => decide (o ≤ n) && decide (n < o + m)) = none := by
      simp
    simp only [skipMoved, here, Nat.zero_add, past]
  rw [TagRec.move, h.ahead, h.doneb]
  simp [skip]

end Piece

section Effects
variable {s : State} {t tag jid o1 o2 n : Nat} {e : List Byte} (h : ((s.tile t).tag tag).AbCopy jid o1 o2 n)
include h

/-- The source of the piece is read as it stands. -/
theorem sourceBytes_ab (hp : s.poison = []) (ho : o1 < 2 ^ 20) (al : o1 % 64 = 0) (pos : 0 < n) (le : n ≤ 64) :
    sourceBytes t tag 0 n (s, e) = .ok (s.readBytes 0 (tileKey t 2 o1) n, (s, e)) := by
  have kind : ¬ ((s.tile t).tag tag).kind = 2 := by rw [h.kind]; decide
  rw [sourceBytes, copyBind_get]
  dsimp only
  rw [if_neg (by rw [h.fill]; exact Bool.false_ne_true), if_neg kind, if_neg (by rw [h.xrep]; simp), TagRec.ofs_zero]
  exact Side.readAt_ab hp (d := ((s.tile t).tag tag).srcSide t tag) h.sbuf h.src ho al pos le e

end Effects

theorem pieceBytes_read {s : State} {t tag p n : Nat} {e : List Byte} (h : smFind ((s.tile t).tag tag).got p = none) :
    pieceBytes t tag p n (s, e) = sourceBytes t tag p n (s, e) := by
  rw [pieceBytes, copyBind_get]
  dsimp only
  rw [h]

theorem pieceBytes_kept {s : State} {t tag p n : Nat} {e bs : List Byte} (h : smFind ((s.tile t).tag tag).got p = some bs) :
    pieceBytes t tag p n (s, e) = .ok (bs, (s, e)) := by
  rw [pieceBytes, copyBind_get]
  dsimp only
  rw [h]
  rfl

/-- The state once a piece has been written at an offset of AB: its bytes as one commit, and the tag naming this package (R95). -/
def State.landAb (s : State) (t tag o : Nat) (bs : List Byte) : State :=
  (s.updTile t (fun x => x.setTag tag { x.tag tag with pkgs := setAdd (x.tag tag).pkgs (2 ^ 15) })).commitBytes t none 0
    (tileKey t 2 o) bs

/-- The state once that piece has been noted as moved, its source bytes dropped. -/
def State.movedAb (s : State) (t tag o n : Nat) (bs : List Byte) : State :=
  ((s.landAb t tag o bs).updTile t (fun x => x.setTag tag { x.tag tag with got := smErase (x.tag tag).got 0, ans := [] })).updTile t
    (fun x => x.setTag tag ((x.tag tag).move 0 n))

/-- A write of a job of the PF at a place of the part is one commit. -/
theorem Side.put_mem {d : Side} {s : State} (vf : (s.job? d.r.jid).bind Job.vfn = none) (tag p key : Nat) (flag : Option (Nat × Nat))
    (uc : Bool) (bs e : List Byte) : d.put tag p flag (.mem key 0 uc) bs (s, e) =
      .ok ((), ((s.updTile d.t (fun x => x.setTag tag { x.tag tag with pkgs := setAdd (x.tag tag).pkgs (2 ^ 15) })).commitBytes d.t
        none 0 key bs, e)) := by
  rw [← vf]
  rfl

section Effects
variable {s : State} {t tag jid o1 o2 n : Nat} {e bs : List Byte} (h : ((s.tile t).tag tag).AbCopy jid o1 o2 n)
  (vf : (s.job? jid).bind Job.vfn = none) (ho : o2 < 2 ^ 20) (bytes : pieceBytes t tag 0 n (s, e) = .ok (bs, (s, e)))
include h vf ho bytes

theorem movePiece_ab : movePiece t tag 0 n (s, e) = .ok ((), (s.landAb t tag o2 bs, e)) := by
  have dst : (((s.tile t).tag tag).dstSide t tag).spot = .tile t 2 o2 := Side.spot_ab h.dbuf h.dst ho
  have noFlag : flagPlace ((s.tile t).tag tag) (((s.tile t).tag tag).dstSide t tag) (s, e) = .ok (none, (s, e)) := by
    have away : ∃ o, ((((s.tile t).tag tag).dstSide t tag).at ((s.tile t).tag tag).total).spot = .tile t (bufNo o) (bufOfs o) :=
      ⟨_, if_pos h.dbuf⟩
    obtain ⟨o, away⟩ := away
    rw [flagPlace, away]
  rw [movePiece, copyBind_ok bytes, copyBind_get]
  dsimp only
  rw [if_neg (by rw [h.xrep]; exact Bool.false_ne_true), copyBind_ok noFlag, TagRec.ofs_zero, Side.at_zero h.dbuf, Side.store, dst]
  exact Side.put_mem (by rw [TagRec.dstSide, h.jid]; exact vf) ..

theorem moveUnit_ab (al : o2 % 64 = 0) (le : n ≤ 64) : moveUnit t tag 0 (s, e) = .ok ((), (s.movedAb t tag o2 n bs, e)) := by
  have dst : (((s.tile t).tag tag).dstSide t tag).spot = .tile t 2 o2 := Side.spot_ab h.dbuf h.dst ho
  have kind : ¬ ((s.tile t).tag tag).kind = 2 := by rw [h.kind]; decide
  rw [moveUnit, copyBind_get]
  dsimp only
  rw [h.unit ho al le, if_neg kind, copyBind_ok (movePiece_ab h vf ho bytes)]
  refine (copyBind_ok (m := keepBytes t tag 0 none) rfl).trans ?_
  refine congrArg (fun q => Except.ok (PUnit.unit, q)) ?_
  dsimp only
  rw [h.xrep, TagRec.ofs_zero, Side.at_zero h.dbuf, if_neg Bool.false_ne_true, dst]
  rfl

end Effects

end Sys2Proof.Machine
end

section
/-!
SUPPORT, of O31. What the steps of a copy leave beside the piece that it moves: the rest of AB, the tile's semaphores, and the
requests that are on their way.
-/
namespace Sys2Proof.Machine

/-- A state with the memory in its canonical form, in which the tail of a tile lies in its LM. -/
structure State.AbReady (s : State) (t : Nat) : Prop where
  form : s.Form
  tail : (s.tile t).tailOfs + 24576 ≤ 0x80000

/-- A step that keeps AB, and of the tile and the fabric what a copy's end looks at. -/
structure State.Beside (t : Nat) (s u : State) : Prop where
  ready : u.AbReady t
  sems : (u.tile t).sems = (s.tile t).sems
  draining : (u.tile t).draining = (s.tile t).draining
  fabric : u.fabric = s.fabric
  ab : ∀ o, o < 0x80000 → memByte u.mem (tileKey t 2 o) = memByte s.mem (tileKey t 2 o)

theorem State.Beside.trans {t : Nat} {s u v : State} (h : s.Beside t u) (h' : u.Beside t v) : s.Beside t v where
  ready := h'.ready
  sems := h'.sems.trans h.sems
  draining := h'.draining.trans h.draining
  fabric := h'.fabric.trans h.fabric
  ab o ho := (h'.ab o ho).trans (h.ab o ho)

/-- Offsets of LM and of AB do not meet. -/
theorem tileKey_lm_lt {t a o : Nat} (h : a ≤ 0x80000) : tileKey t 0 a ≤ tileKey t 2 o := by
  unfold tileKey
  omega

theorem tileKey_add (t b o j : Nat) : tileKey t b o + j = tileKey t b (o + j) := by
  unfold tileKey
  omega

/-- Words that are committed change no byte outside them. -/
theorem State.commitWords_byte {s : State} (h : s.Form) (t key : Nat) (ws : List Word) {a : Nat}
    (ha : a < key ∨ key + 8 * ws.length ≤ a) : memByte (s.commitWords t key ws).mem a = memByte s.mem a := by
  unfold State.commitWords
  refine (List.foldlRecOn (motive := fun (u : State) => u.Form ∧ memByte u.mem a = memByte s.mem a) _ _ ⟨h, rfl⟩ ?_).2
  intro u ⟨hu, same⟩ i hi
  refine ⟨State.commitBytes_form hu, (State.commitBytes_byte hu ..).trans ((if_neg ?_).trans same)⟩
  have len : (((ws.drop (8 * i)).take 8).flatMap (fun w => toBytes 8 w.toNat)).length = 8 * min 8 (ws.length - 8 * i) := by
    rw [List.length_flatMap]
    simp [length_toBytes, Nat.mul_comm]
  rw [len]
  omega

theorem Tile.semOverflowed_keeps (x : Tile) (sem by_ : Nat) :
    (x.semOverflowed sem by_).sems = x.sems ∧ (x.semOverflowed sem by_).tags = x.tags := by
  unfold Tile.semOverflowed
  split
  · exact ⟨rfl, rfl⟩
  · split <;> exact ⟨rfl, rfl⟩

/-- A signal to a semaphore of a tile (R206): its sum, and what it leaves. -/
theorem State.signal_saturates {s : State} {t m v k : Nat} (small : 0 < v ∨ (s.tile t).sem m ≤ 65535) :
    ((s.signal t m v k).tile t).sem m = min ((s.tile t).sem m + v) 65535 ∧
    ((s.signal t m v k).tile t).tags = (s.tile t).tags ∧ (s.signal t m v k).mem = s.mem := by
  unfold State.signal
  split
  · next zero =>
    subst zero
    exact ⟨by omega, rfl, rfl⟩
  · rw [State.tile_updTile_same]
    dsimp only
    split
    · next big =>
      obtain ⟨sems, tags⟩ := ((s.tile t).setSem m 65535).semOverflowed_keeps m k
      rw [Tile.sem, sems, tags]
      refine ⟨?_, rfl, rfl⟩
      simp [Tile.setSem]
      omega
    · next small =>
      refine ⟨?_, rfl, rfl⟩
      simp [Tile.setSem, Tile.sem] at small ⊢
      omega

/-- The end of a copy, but for its signal (R66). -/
theorem State.copyDone_eq {s : State} {t tag : Nat} (stays : (s.tile t).draining = false) : s.copyDone t tag =
    (((((s.setTile t ((s.tile t).setTag tag { (s.tile t).tag tag with
      st := .done, held := [], got := [], asked := [], ans := [] })).letGo t ((s.tile t).tag tag).held).turnTag t tag).updCore t .x
      (fun c => c.mergeRegs (fun q => q.addFlags ((s.tile t).tag tag).flags.toNat))).signal t ((s.tile t).tag tag).ssem
      ((s.tile t).tag tag).sinc CoreK.x.idx) := by
  simp only [State.copyDone, stays, Bool.false_eq_true, if_false]

theorem commitWords_fabric (s : State) (t key : Nat) (ws : List Word) : (s.commitWords t key ws).fabric = s.fabric := by
  unfold State.commitWords
  refine List.foldlRecOn (motive := fun (u : State) => u.fabric = s.fabric) _ _ rfl fun u same i _ => ?_
  unfold State.commitBytes
  split <;> exact same

section Steps
variable {s : State} {t : Nat} (h : s.AbReady t)
include h

/-- A change of the tile that keeps its tail, its semaphores and whether it drains. -/
theorem State.setTile_beside {y : Tile} (csavt : y.csavt = (s.tile t).csavt) (sems : y.sems = (s.tile t).sems)
    (draining : y.draining = (s.tile t).draining) : s.Beside t (s.setTile t y) := by
  have tile := s.tile_setTile_same t y
  refine ⟨⟨h.form, ?_⟩, by rw [tile, sems], by rw [tile, draining], rfl, fun _ _ => rfl⟩
  rw [tile, Tile.tailOfs, csavt]
  exact h.tail

theorem State.core_beside (k : CoreK) (f : Core → Core) : s.Beside t (s.updCore t k f) := State.setTile_beside h rfl rfl rfl

/-- A change of nothing but memory outside AB, and the states of cores. -/
theorem State.beside_of_sameOffCores {u : State} (form : u.Form) (tile : (s.tile t).SameOffCores (u.tile t)) (fabric : u.fabric = s.fabric)
    (ab : ∀ o, o < 0x80000 → memByte u.mem (tileKey t 2 o) = memByte s.mem (tileKey t 2 o)) : s.Beside t u := by
  refine ⟨⟨form, ?_⟩, ?_, ?_, fabric, ab⟩
  all_goals rw [tile]
  exact h.tail

/-- A commit of words below AB. -/
theorem State.commitWords_beside {key : Nat} {ws : List Word} (below : key + 8 * ws.length ≤ tileKey t 2 0) :
    s.Beside t (s.commitWords t key ws) :=
  State.beside_of_sameOffCores h (State.commitWords_form h.form) (State.commitWords_sameOffCores ..) (commitWords_fabric ..)
    fun o _ => State.commitWords_byte h.form _ _ _ (.inr (below.trans (by unfold tileKey; omega)))

theorem State.noteTag_beside {tag : Nat} (ht : tag < 64) : s.Beside t (s.noteTag t tag) := by
  have tail := h.tail
  have below : tileKey t 0 ((s.tile t).tailOfs + 0x4800 + 64 * tag) + 8 * 8 ≤ tileKey t 2 0 := by
    rw [tileKey_add]
    exact tileKey_lm_lt (by omega)
  unfold State.noteTag
  exact State.commitWords_beside h below

theorem State.conflict_beside (ls : List Nat) : s.Beside t (s.conflict ls) :=
  State.beside_of_sameOffCores h h.form (State.conflict_sameOffCores ..) rfl fun _ _ => rfl

theorem State.turnTag_beside {tag : Nat} (ht : tag < 64) : s.Beside t (s.turnTag t tag) := by
  have note := State.noteTag_beside h ht
  unfold State.turnTag
  exact note.trans (State.conflict_beside note.ready _)

theorem State.flip_beside (slabs : List SlabId) (e : Bool) : s.Beside t (s.flip t slabs e) := by
  unfold State.flip
  extract_lets changed
  have flips := changed.foldlRecOn (motive := fun (y : Tile) => y.csavt = (s.tile t).csavt ∧ y.sems = (s.tile t).sems ∧
    y.draining = (s.tile t).draining) (fun x (b, n) => x.setSlabEngine b n e) ⟨rfl, rfl, rfl⟩ fun _ kept _ _ => kept
  obtain ⟨csavt, sems, draining⟩ := flips
  have flipped := State.setTile_beside h csavt sems draining
  exact flipped.trans (State.conflict_beside flipped.ready _)

theorem State.letGo_beside (slabs : List SlabId) : s.Beside t (s.letGo t slabs) :=
  have dropped : s.Beside t (s.updTile t (fun x => x.dropP slabs)) := State.setTile_beside h rfl rfl rfl
  dropped.trans (State.flip_beside dropped.ready _ _)

/-- A copy that ends outside a draining tile is DONE, and its signal is added. -/
theorem State.copyDone_done {tag : Nat} (ht : tag < 64) (stays : (s.tile t).draining = false)
    (small : 0 < ((s.tile t).tag tag).sinc ∨ (s.tile t).sem ((s.tile t).tag tag).ssem ≤ 65535) :
    (((s.copyDone t tag).tile t).tag tag).st = .done ∧
    ((s.copyDone t tag).tile t).sem ((s.tile t).tag tag).ssem =
      min ((s.tile t).sem ((s.tile t).tag tag).ssem + ((s.tile t).tag tag).sinc) 65535 ∧
    ∀ o, o < 0x80000 → memByte (s.copyDone t tag).mem (tileKey t 2 o) = memByte s.mem (tileKey t 2 o) := by
  rw [State.copyDone_eq stays]
  generalize hr : (s.tile t).tag tag = r at small
  have done := State.setTile_beside (y := (s.tile t).setTag tag { r with st := .done, held := [], got := [], asked := [], ans := [] })
    h rfl rfl rfl
  have free := done.trans (State.letGo_beside done.ready r.held)
  have turned := free.trans (State.turnTag_beside free.ready ht)
  have merged := turned.trans (State.core_beside turned.ready .x (fun c => c.mergeRegs (fun q => q.addFlags r.flags.toNat)))
  have tags : (((((s.setTile t ((s.tile t).setTag tag { r with st := .done, held := [], got := [], asked := [], ans := [] })).letGo t
      r.held).turnTag t tag).updCore t .x (fun c => c.mergeRegs (fun q => q.addFlags r.flags.toNat))).tile t).tags =
      smPut (s.tile t).tags tag { r with st := .done, held := [], got := [], asked := [], ans := [] } := by
    rw [State.tags_updCore, State.tags_turnTag, State.tags_letGo, State.tile_setTile_same]
    rfl
  have sem : ∀ m, Tile.sem _ m = (s.tile t).sem m := fun m => congrArg (fun q => (smGet 0 q m).toNat) merged.sems
  generalize State.updCore _ t .x _ = u at merged tags sem
  obtain ⟨sum, tags', mem⟩ := State.signal_saturates (s := u) (t := t) (k := CoreK.x.idx) (by rw [sem]; exact small)
  rw [sem] at sum
  refine ⟨?_, sum, fun o ho => ?_⟩
  · rw [Tile.tag, tags', tags, smGet_smPut_same]
  · rw [mem]
    exact merged.ab o ho

end Steps

end Sys2Proof.Machine
end

section
/-!
SUPPORT, of O31. A piece of a copy within AB that has landed, and the end of the copy behind it (R66, R90).
-/
namespace Sys2Proof.Machine

theorem TagRec.AbCopy.withBytes {r : TagRec} {jid o1 o2 n : Nat} (h : r.AbCopy jid o1 o2 n) (ps : List Nat) (gs : SMap (List Byte))
    (front : Nat) (as : SMap (List Byte)) :
    ({ r with pkgs := ps, got := gs, ans := as, front := front } : TagRec).AbCopy jid o1 o2 n :=
  ⟨h.st, h.kind, h.rows, h.rowlen, h.src, h.dst, h.sbuf, h.dbuf, h.flag, h.xrep, h.fill, h.cw, h.held, h.transfer, h.ended,
    h.doneb, h.ahead, h.jid⟩

theorem Tile.tag_setTag (x : Tile) (n : Nat) (r : TagRec) : (x.setTag n r).tag n = r := smGet_smPut_same ..

theorem commitBytes_fabric (s : State) (t kn key : Nat) (bs : List Byte) : (s.commitBytes t none kn key bs).fabric = s.fabric := by
  unfold State.commitBytes
  split <;> rfl

theorem transferDue_of_fabric {s u : State} (h : u.fabric = s.fabric) (num : Nat) : u.transferDue num = s.transferDue num := by
  unfold State.transferDue
  rw [h]

theorem Tile.SameOffCores.tag {x y : Tile} (h : x.SameOffCores y) (n : Nat) : y.tag n = x.tag n := by
  rw [Tile.tag, h.tags, Tile.tag]

/-- A write at an offset of AB: its bytes, and no others of AB. -/
theorem landAb_bytes {s : State} {t tag o : Nat} {bs : List Byte} (h : s.Form) (a : Nat) :
    memByte (s.landAb t tag o bs).mem (tileKey t 2 a) = if o ≤ a ∧ a < o + bs.length then bs.getD (a - o) 0
      else memByte s.mem (tileKey t 2 a) := by
  have where_ : (tileKey t 2 o ≤ tileKey t 2 a ∧ tileKey t 2 a < tileKey t 2 o + bs.length) ↔ o ≤ a ∧ a < o + bs.length := by
    unfold tileKey
    omega
  have ofs : tileKey t 2 a - tileKey t 2 o = a - o := by
    unfold tileKey
    omega
  refine (State.commitBytes_byte (s := s.updTile t _) h ..).trans ?_
  rw [ofs]
  simp only [where_]
  rfl

section Landed
variable {s : State} {t tag jid o1 o2 n : Nat} (ready : s.AbReady t) (h : ((s.tile t).tag tag).AbCopy jid o1 o2 n)

theorem landAb_tag (s : State) (t tag o : Nat) (bs : List Byte) : ((s.landAb t tag o bs).tile t).tag tag =
    { (s.tile t).tag tag with pkgs := setAdd ((s.tile t).tag tag).pkgs (2 ^ 15) } := by
  rw [State.landAb, (State.commitBytes_sameOffCores ..).tag, State.tile_updTile_same, Tile.tag_setTag]

include h in
/-- The record of the copy once its one piece has moved. -/
theorem movedAb_tag (pos : 0 < n) (bs : List Byte) : ∃ ps gs, ((s.movedAb t tag o2 n bs).tile t).tag tag =
    { (s.tile t).tag tag with pkgs := ps, got := gs, ans := [], doneb := n, ahead := [] } := by
  rw [State.movedAb, State.tile_updTile_same, Tile.tag_setTag, State.tile_updTile_same, Tile.tag_setTag, landAb_tag]
  generalize setAdd _ (2 ^ 15) = ps
  exact ⟨ps, _, (h.withBytes ps _ _ []).move pos⟩

include ready in
theorem movedAb_ready (bs : List Byte) :
    (s.movedAb t tag o2 n bs).AbReady t ∧ ((s.movedAb t tag o2 n bs).tile t).sems = (s.tile t).sems ∧
    ((s.movedAb t tag o2 n bs).tile t).draining = (s.tile t).draining ∧ (s.movedAb t tag o2 n bs).fabric = s.fabric ∧
    (s.movedAb t tag o2 n bs).mem = (s.landAb t tag o2 bs).mem := by
  have named : s.Beside t (s.updTile t (fun x => x.setTag tag { x.tag tag with pkgs := setAdd (x.tag tag).pkgs (2 ^ 15) })) :=
    State.setTile_beside ready rfl rfl rfl
  have tile : Tile.SameOffCores _ ((s.landAb t tag o2 bs).tile t) := State.commitBytes_sameOffCores ..
  have landed : (s.landAb t tag o2 bs).AbReady t := by
    refine ⟨State.commitBytes_form named.ready.form, ?_⟩
    rw [tile]
    exact named.ready.tail
  have kept := State.setTile_beside (y := ((s.landAb t tag o2 bs).tile t).setTag tag { ((s.landAb t tag o2 bs).tile t).tag tag with
    got := smErase (((s.landAb t tag o2 bs).tile t).tag tag).got 0, ans := [] }) landed rfl rfl rfl
  have moved : (s.landAb t tag o2 bs).Beside t (s.movedAb t tag o2 n bs) := kept.trans (State.setTile_beside kept.ready rfl rfl rfl)
  refine ⟨moved.ready, ?_, ?_, ?_, rfl⟩
  · rw [moved.sems, tile]
    exact named.sems
  · rw [moved.draining, tile]
    exact named.draining
  · rw [moved.fabric]
    exact (commitBytes_fabric ..).trans named.fabric

end Landed

/-- The end of a copy with no flag and no count writes nothing. -/
theorem endWrites_none {s : State} {t tag : Nat} {e : List Byte} (flag : ((s.tile t).tag tag).flag = false)
    (cw : ((s.tile t).tag tag).cw = none) :
    endWrites t tag (s, e) = .ok ((), (s.updTile t (fun x => x.setTag tag { x.tag tag with ended := true }), e)) := by
  rw [endWrites, copyBind_get]
  dsimp only
  rw [if_neg (by rw [flag]; simp), cw]
  rfl

/-- A copy whose bytes have all moved, with no flag, no count and nothing on its way, is DONE. -/
theorem copyEnd_ends {s : State} {t tag : Nat} {e : List Byte} (st : ((s.tile t).tag tag).st = .busy)
    (all : ((s.tile t).tag tag).total ≤ ((s.tile t).tag tag).doneb) (due : s.transferDue ((s.tile t).tag tag).transfer = false)
    (ended : ((s.tile t).tag tag).ended = false) (flag : ((s.tile t).tag tag).flag = false) (cw : ((s.tile t).tag tag).cw = none) :
    s.copyEnd t tag e = (s.updTile t (fun x => x.setTag tag { x.tag tag with ended := true })).copyDone t tag := by
  have idle : ¬ (((s.tile t).tag tag).st ≠ .busy ∨ ((s.tile t).tag tag).doneb < ((s.tile t).tag tag).total ∨
      s.transferDue ((s.tile t).tag tag).transfer = true) := by
    rw [st, due]
    simp
    omega
  have due' : (s.updTile t (fun x => x.setTag tag { x.tag tag with ended := true })).transferDue
      (((s.updTile t (fun x => x.setTag tag { x.tag tag with ended := true })).tile t).tag tag).transfer = false := by
    rw [State.tile_updTile_same, Tile.tag_setTag]
    exact due
  rw [State.copyEnd]
  dsimp only
  rw [if_neg idle, ended, if_neg Bool.false_ne_true, endWrites_none flag cw]
  dsimp only
  rw [due', if_neg Bool.false_ne_true]

end Sys2Proof.Machine
end

section
/-!
SUPPORT, of O31. The step that a copy of one piece within AB takes (R90): its piece is begun, its source is read, or it lands and ends.
-/
namespace Sys2Proof.Machine

theorem soloPackage_none {s : State} (h : s.solo = []) : s.soloPackage = false := by
  simp [State.soloPackage, State.holders, h]

/-- A range of a tile memory is read as memory holds it. -/
theorem readBytes_tile (s : State) (t b o n : Nat) :
    s.readBytes 0 (tileKey t b o) n = (List.range n).map (fun j => memByte s.mem (tileKey t b (o + j))) := by
  refine List.map_congr_left fun j _ => ?_
  rw [tileKey_add]
  exact if_neg (by simp)

/-- Steps of the trial of a 4 KiB piece behind its end do nothing. -/
theorem dryRun_past {t tag front : Nat} (unit : Nat → Nat) {p : Nat} (past : front ≤ p) (ls : List Nat) (q : State × List Byte) :
    ls.foldlM (fun p (_ : Nat) => (if front ≤ p then pure p else do
      moveUnit t tag p
      pure (p + unit p) : CopyM Nat)) p q = .ok (p, q) := by
  induction ls with
  | nil => rfl
  | cons l ls ih =>
    rw [List.foldlM_cons, if_pos past]
    exact ih

section Steps
variable {s : State} {t tag jid o1 o2 n : Nat} {e : List Byte} (h : ((s.tile t).tag tag).AbCopy jid o1 o2 n)
  (ho : o2 < 2 ^ 20) (al : o2 % 64 = 0) (pos : 0 < n) (le : n ≤ 64)
include h ho al pos le

/-- The piece is begun, for no fault lies in it (R42). -/
theorem openPiece_ab (front : ((s.tile t).tag tag).front = 0) (got : ((s.tile t).tag tag).got = []) (hp : s.poison = [])
    (vf : (s.job? jid).bind Job.vfn = none) (ho1 : o1 < 2 ^ 20) (al1 : o1 % 64 = 0) :
    s.openPiece t tag e = some (s.updTile t (fun x => x.setTag tag { (s.tile t).tag tag with front := n })) := by
  have size : Nat.min 4096 (((s.tile t).tag tag).total - ((s.tile t).tag tag).front) = n := by
    rw [h.total, front, Nat.sub_zero]
    exact Nat.min_eq_right (by omega)
  have kind : ¬ (((s.tile t).tag tag).kind = 3 ∧ smGet WbSt.empty (s.tile t).wb ((bufOfs ((s.tile t).tag tag).dst +
      ((s.tile t).tag tag).front) / 4096) = .clean (((s.tile t).tag tag).src + word ((s.tile t).tag tag).front)) := by
    rw [h.kind]
    simp
  have unit := h.unit ho al le
  rw [State.openPiece]
  dsimp only
  rw [size, if_neg kind, front, Nat.zero_add]
  generalize hu : s.updTile t (fun x => x.setTag tag { (s.tile t).tag tag with front := n }) = u
  have tag_u : (u.tile t).tag tag = { (s.tile t).tag tag with front := n } := by
    rw [← hu, State.tile_updTile_same, Tile.tag_setTag]
  have hu' : ((u.tile t).tag tag).AbCopy jid o1 o2 n := by
    rw [tag_u]
    exact h.withBytes _ _ n _
  have bytes : pieceBytes t tag 0 n (u, e) = .ok (u.readBytes 0 (tileKey t 2 o1) n, (u, e)) := by
    rw [pieceBytes_read (by rw [tag_u, got]; rfl)]
    exact sourceBytes_ab hu' (by rw [← hu]; exact hp) ho1 al1 pos le
  have moves := moveUnit_ab hu' (by rw [← hu]; exact vf) ho bytes al le
  have dry : ((List.range (n / 2 + 1)).foldlM (fun p (_ : Nat) => (if n ≤ p then pure p else do
      moveUnit t tag p
      pure (p + ((s.tile t).tag tag).unit p) : CopyM Nat)) 0 *> pure () : CopyM Unit) (u, e) =
      .ok ((), (u.movedAb t tag o2 n (u.readBytes 0 (tileKey t 2 o1) n), e)) := by
    rw [List.range_succ_eq_map, List.foldlM_cons, if_neg (by omega)]
    refine copyBind_ok (a := n) (copyBind_ok (a := n) ((copyBind_ok moves).trans ?_) |>.trans (dryRun_past _ (Nat.le_refl n) _ _))
    rw [unit, Nat.zero_add]
    rfl
  rw [dry]

omit ho al le in
/-- A copy whose piece has not been begun begins it, unless its watch is being saved (R400). -/
theorem copyPiece_begins (front : ((s.tile t).tag tag).front = 0) (solo : s.solo = [])
    (stays : (s.tile t).watch.any (fun w => w.st == .saving) = false) {u : State}
    (opens : s.choose.2.openPiece t tag e = some u) : s.copyPiece t tag e = u := by
  have runs : ¬ (((s.tile t).tag tag).st ≠ .busy ∨ s.soloPackage = true) := by
    rw [h.st, soloPackage_none solo]
    simp
  have more : ¬ ((s.tile t).tag tag).total ≤ ((s.tile t).tag tag).doneb := by
    rw [h.total, h.doneb]
    omega
  have none_ : ∀ c, ((s.tile t).tag tag).pick c 0 = none := by
    intro c
    have first : skipMoved (((s.tile t).tag tag).ahead.length + 1) ((s.tile t).tag tag).ahead 0 = 0 := by rw [h.ahead]; rfl
    unfold TagRec.pick
    rw [first, front, if_pos (Nat.le_refl 0)]
  have due : (decide (((s.tile t).tag tag).front < ((s.tile t).tag tag).total) &&
      !(s.choose.2.tile t).watch.any (fun w => w.st == .saving)) = true ∧
      (((s.tile t).tag tag).pick (s.choose.1 / 2) ((s.tile t).tag tag).doneb).isNone = true := by
    rw [h.doneb, none_, front, h.total]
    refine ⟨?_, rfl⟩
    rw [show (s.choose.2.tile t).watch = (s.tile t).watch from rfl, stays]
    simp [pos]
  rw [State.copyPiece]
  dsimp only
  rw [if_neg runs, if_neg more, if_pos due, opens]

/-- A copy whose one piece has been begun reads it, or it lands. -/
theorem copyPiece_goes (front : ((s.tile t).tag tag).front = n) (solo : s.solo = []) :
    s.copyPiece t tag e = State.copyPiece.go t tag e s.choose.2 0 (s.choose.1 % 2 == 1) := by
  have runs : ¬ (((s.tile t).tag tag).st ≠ .busy ∨ s.soloPackage = true) := by
    rw [h.st, soloPackage_none solo]
    simp
  have more : ¬ ((s.tile t).tag tag).total ≤ ((s.tile t).tag tag).doneb := by
    rw [h.total, h.doneb]
    omega
  have begun : ¬ ((decide (((s.tile t).tag tag).front < ((s.tile t).tag tag).total) &&
      !(s.choose.2.tile t).watch.any (fun w => w.st == .saving)) = true ∧
      (((s.tile t).tag tag).pick (s.choose.1 / 2) ((s.tile t).tag tag).doneb).isNone = true) := by
    rw [front, h.total]
    simp
  rw [State.copyPiece]
  dsimp only
  rw [if_neg runs, if_neg more, if_neg begun, h.doneb, h.pick front pos ho al le, h.pick front pos ho al le 0, if_pos rfl]
  by_cases first : s.choose.1 / 2 = 0
  · rw [if_pos first]
  · rw [if_neg first]

end Steps

section Ends
variable {s : State} {t tag jid o1 o2 n : Nat} {e bs : List Byte} (h : ((s.tile t).tag tag).AbCopy jid o1 o2 n)
  (ho : o2 < 2 ^ 20) (al : o2 % 64 = 0) (pos : 0 < n) (le : n ≤ 64)
  (bytes : pieceBytes t tag 0 n (s, e) = .ok (bs, (s, e)))
include h ho al le bytes

/-- A read of the piece keeps its bytes for the piece to land. -/
theorem go_reads (got : ((s.tile t).tag tag).got = []) : State.copyPiece.go t tag e s 0 true =
    s.updTile t (fun x => x.setTag tag { x.tag tag with got := [(0, bs)], ans := [] }) := by
  have fetch : fetchUnit t tag 0 (s, e) =
      .ok ((), (s.updTile t (fun x => x.setTag tag { x.tag tag with got := smPut (x.tag tag).got 0 bs, ans := [] }), e)) := by
    rw [fetchUnit, copyBind_get]
    dsimp only
    rw [h.unit ho al le, copyBind_ok bytes]
    rfl
  rw [State.copyPiece.go, if_pos rfl, fetch]
  dsimp only
  rw [if_pos rfl, State.updTile, State.updTile, got]
  rfl

include pos

/-- The piece lands, and the copy ends with it. -/
theorem go_lands {m v : Nat} (ready : s.AbReady t) (vf : (s.job? jid).bind Job.vfn = none) (ht : tag < 64)
    (stays : (s.tile t).draining = false) (due : s.transferDue 0 = false) (sem : ((s.tile t).tag tag).ssem = m)
    (inc : ((s.tile t).tag tag).sinc = v) (small : 0 < v ∨ (s.tile t).sem m ≤ 65535) :
    let u := State.copyPiece.go t tag e s 0 false
    ((u.tile t).tag tag).st = .done ∧ (u.tile t).sem m = min ((s.tile t).sem m + v) 65535 ∧
    ∀ a, a < 0x80000 → memByte u.mem (tileKey t 2 a) = if o2 ≤ a ∧ a < o2 + bs.length then bs.getD (a - o2) 0
      else memByte s.mem (tileKey t 2 a) := by
  obtain ⟨ps, gs, tag_a⟩ := movedAb_tag h pos bs
  obtain ⟨ready_a, sems_a, stays_a, fabric_a, mem_a⟩ := movedAb_ready (tag := tag) (o2 := o2) (n := n) ready bs
  have moves := moveUnit_ab h vf ho bytes al le
  have go : State.copyPiece.go t tag e s 0 false = ((s.movedAb t tag o2 n bs).noteTag t tag).copyEnd t tag e := by
    rw [State.copyPiece.go, if_neg Bool.false_ne_true, moves]
    dsimp only
    rw [if_neg Bool.false_ne_true]
  have landed := landAb_bytes (t := t) (tag := tag) (o := o2) (bs := bs) ready.form
  rw [← mem_a] at landed
  generalize s.movedAb t tag o2 n bs = a at *
  have noted := State.noteTag_beside ready_a ht
  have tag_w : ((a.noteTag t tag).tile t).tag tag = { (s.tile t).tag tag with pkgs := ps, got := gs, ans := [], doneb := n, ahead := [] } :=
    ((State.commitWords_sameOffCores ..).tag _).trans tag_a
  generalize a.noteTag t tag = w at *
  have due_w : w.transferDue ((w.tile t).tag tag).transfer = false := by
    rw [transferDue_of_fabric (noted.fabric.trans fabric_a), tag_w]
    exact (congrArg s.transferDue h.transfer).trans due
  have ends := copyEnd_ends (e := e) (by rw [tag_w]; exact h.st) (by rw [tag_w]; exact Nat.le_of_eq h.total) due_w
    (by rw [tag_w]; exact h.ended) (by rw [tag_w]; exact h.flag) (by rw [tag_w]; exact h.cw)
  have ended : w.Beside t (w.updTile t (fun x => x.setTag tag { x.tag tag with ended := true })) :=
    State.setTile_beside noted.ready rfl rfl rfl
  have tag_x : ((w.updTile t (fun x => x.setTag tag { x.tag tag with ended := true })).tile t).tag tag =
      { (w.tile t).tag tag with ended := true } := by
    rw [State.tile_updTile_same, Tile.tag_setTag]
  generalize w.updTile t (fun x => x.setTag tag { x.tag tag with ended := true }) = x at *
  have ssem : ((x.tile t).tag tag).ssem = m := by rw [tag_x, tag_w]; exact sem
  have sinc : ((x.tile t).tag tag).sinc = v := by rw [tag_x, tag_w]; exact inc
  have sems : (x.tile t).sem m = (s.tile t).sem m := by
    rw [Tile.sem, ended.sems, noted.sems, sems_a, Tile.sem]
  obtain ⟨st, sum, same⟩ := State.copyDone_done ended.ready ht ((ended.draining.trans noted.draining).trans (stays_a.trans stays))
    (by rw [ssem, sinc, sems]; exact small)
  rw [ssem, sinc, sems] at sum
  rw [go, ends]
  exact ⟨st, sum, fun o ho => ((same o ho).trans ((ended.ab o ho).trans (noted.ab o ho))).trans (landed o)⟩

end Ends

end Sys2Proof.Machine
end

section
/-! The copy engine on a copy of one piece within AB. -/
namespace Sys2Proof.Claims
open Sys2Proof Sys2Proof.Machine

/-- The record of a COPY of `n` bytes within AB, for a job, with its signal: nothing of it has moved. -/
def abCopyRec (jid o1 o2 n m v : Nat) : TagRec :=
  { TagRec.init with
    st := .busy, kind := 0, rows := 1, rowlen := n, src := word (2 * 2 ^ 28 + o1), dst := word (2 * 2 ^ 28 + o2)
    sbuf := true, dbuf := true, ssem := m, sinc := v, jid := jid }

theorem abCopyRec_abCopy (jid o1 o2 n m v : Nat) : (abCopyRec jid o1 o2 n m v).AbCopy jid o1 o2 n :=
  ⟨rfl, rfl, rfl, rfl, rfl, rfl, rfl, rfl, rfl, rfl, rfl, rfl, rfl, rfl, rfl, rfl, rfl, rfl⟩

/-- What the claim asks of the state and of the operands of the copy. -/
structure AbCopySetting (s : State) (t tag jid o1 o2 n m v : Nat) : Prop where
  ready : s.AbReady t
  unmarked : s.poison = []
  alone : s.solo = []
  srcAligned : o1 % 64 = 0
  dstAligned : o2 % 64 = 0
  srcIn : o1 < 2 ^ 20
  dstIn : o2 < 2 ^ 20
  pos : 0 < n
  le : n ≤ 64
  stays : (s.tile t).draining = false
  ofTile : tag < 64
  ofPf : (s.job? jid).bind Job.vfn = none
  arrived : s.transferDue 0 = false
  small : 0 < v ∨ (s.tile t).sem m ≤ 65535

section
variable {s : State} {t tag jid o1 o2 n m v : Nat} (hs : AbCopySetting s t tag jid o1 o2 n m v) (ext : List Byte)
include hs

theorem abCopy_begins (ht : (s.tile t).tag tag = abCopyRec jid o1 o2 n m v)
    (stays : (s.tile t).watch.any (fun w => w.st == .saving) = false) :
    ((s.copyPiece t tag ext).tile t).tag tag = { abCopyRec jid o1 o2 n m v with front := n } ∧
    (s.copyPiece t tag ext).mem = s.mem := by
  have h : ((s.tile t).tag tag).AbCopy jid o1 o2 n := by
    rw [ht]
    exact abCopyRec_abCopy ..
  have front : ((s.tile t).tag tag).front = 0 := by rw [ht]; rfl
  have got : ((s.tile t).tag tag).got = [] := by rw [ht]; rfl
  have opens := openPiece_ab (s := s.choose.2) (e := ext) h hs.dstIn hs.dstAligned hs.pos hs.le front got hs.unmarked hs.ofPf hs.srcIn
    hs.srcAligned
  rw [copyPiece_begins h hs.pos front hs.alone stays opens, State.tile_updTile_same, Tile.tag_setTag, ← ht]
  exact ⟨rfl, rfl⟩

/-- The bytes of the source as the piece finds them. -/
theorem abCopy_source (h : ((s.tile t).tag tag).AbCopy jid o1 o2 n) (got : ((s.tile t).tag tag).got = []) :
    pieceBytes t tag 0 n (s.choose.2, ext) =
      .ok ((List.range n).map (fun j => memByte s.mem (tileKey t 2 (o1 + j))), (s.choose.2, ext)) := by
  have unread : smFind ((s.choose.2.tile t).tag tag).got 0 = none := (congrArg (smFind · 0) got).trans rfl
  have read := sourceBytes_ab (s := s.choose.2) (e := ext) h hs.unmarked hs.srcIn hs.srcAligned hs.pos hs.le
  rw [readBytes_tile] at read
  exact (pieceBytes_read unread).trans read

theorem abCopy_reads (ht : (s.tile t).tag tag = { abCopyRec jid o1 o2 n m v with front := n }) (odd : s.choose.1 % 2 = 1) :
    ((s.copyPiece t tag ext).tile t).tag tag = { abCopyRec jid o1 o2 n m v with
      front := n, got := [(0, (List.range n).map (fun j => memByte s.mem (tileKey t 2 (o1 + j))))] } ∧
    (s.copyPiece t tag ext).mem = s.mem := by
  have h : ((s.tile t).tag tag).AbCopy jid o1 o2 n := by
    rw [ht]
    exact (abCopyRec_abCopy jid o1 o2 n m v).withBytes [] [] n []
  have front : ((s.tile t).tag tag).front = n := by rw [ht]
  have got : ((s.tile t).tag tag).got = [] := by rw [ht]; rfl
  have reads := go_reads (s := s.choose.2) h hs.dstIn hs.dstAligned hs.le (abCopy_source hs ext h got) got
  rw [copyPiece_goes h hs.dstIn hs.dstAligned hs.pos hs.le front hs.alone, odd, beq_self_eq_true, reads, State.tile_updTile_same,
    Tile.tag_setTag]
  refine ⟨?_, rfl⟩
  have same : (s.choose.2.tile t).tag tag = { abCopyRec jid o1 o2 n m v with front := n } := ht
  rw [same]
  rfl

/-- The piece lands with the bytes that it holds. -/
theorem abCopy_lands {gs : SMap (List Byte)} {bs : List Byte} (len : bs.length = n)
    (ht : (s.tile t).tag tag = { abCopyRec jid o1 o2 n m v with front := n, got := gs }) (even : s.choose.1 % 2 = 0)
    (bytes : pieceBytes t tag 0 n (s.choose.2, ext) = .ok (bs, (s.choose.2, ext))) (fits : o2 + 64 ≤ 0x80000) :
    ∃ u, exec (.copyPiece t tag ext) s = .next u ∧ ((u.tile t).tag tag).st = .done ∧
      (u.tile t).sem m = min ((s.tile t).sem m + v) 65535 ∧
      (∀ j, j < n → memByte u.mem (tileKey t 2 (o2 + j)) = bs.getD j 0) ∧
      (∀ o, o < 0x80000 → (o < o2 ∨ o2 + n ≤ o) → memByte u.mem (tileKey t 2 o) = memByte s.mem (tileKey t 2 o)) := by
  have h : ((s.tile t).tag tag).AbCopy jid o1 o2 n := by
    rw [ht]
    exact (abCopyRec_abCopy jid o1 o2 n m v).withBytes [] gs n []
  have front : ((s.tile t).tag tag).front = n := by rw [ht]
  have sem : ((s.tile t).tag tag).ssem = m := by rw [ht]; rfl
  have inc : ((s.tile t).tag tag).sinc = v := by rw [ht]; rfl
  have ready : s.choose.2.AbReady t := ⟨hs.ready.form, hs.ready.tail⟩
  have goes := copyPiece_goes (e := ext) h hs.dstIn hs.dstAligned hs.pos hs.le front hs.alone
  have late : (s.choose.1 % 2 == 1) = false := by rw [even]; rfl
  obtain ⟨st, sum, byte⟩ := go_lands (s := s.choose.2) h hs.dstIn hs.dstAligned hs.pos hs.le bytes ready hs.ofPf hs.ofTile hs.stays
    hs.arrived sem inc hs.small
  rw [late] at goes
  refine ⟨_, congrArg Host.Outcome.next goes, st, sum, fun j hj => ?_, fun o ho out => ?_⟩
  · have below := hs.le
    rw [byte _ (by omega), if_pos (by omega), Nat.add_sub_cancel_left]
  · rw [byte _ ho, if_neg (by omega)]
    rfl

end

/-- Settles O31: a copy of one piece takes three steps, which begin it, read its source and land it (or two, where it lands unread);
the landing writes the bytes and ends the copy with its signal. -/
theorem copyPiecesMoveTheirBytes : Obligations.CopyPiecesMoveTheirBytes := by
  unfold Obligations.CopyPiecesMoveTheirBytes
  refine ⟨fun s t tag ext idle => congrArg Host.Outcome.next (if_pos (Or.inl idle)), ?_⟩
  intro s t tag jid ext o1 o2 n m v form unmarked alone al1 al2 in1 in2 _ pos le stays tail ofTile ofPf arrived small
  have hs : AbCopySetting s t tag jid o1 o2 n m v :=
    ⟨⟨form, tail⟩, unmarked, alone, al1, al2, by omega, by omega, pos, le, stays, ofTile, ofPf, arrived, small⟩
  refine ⟨fun ht still => ⟨_, rfl, abCopy_begins hs ext ht still⟩, fun ht odd => ⟨_, rfl, abCopy_reads hs ext ht odd⟩,
    fun ht even => abCopy_lands hs ext (by simp) ht even (abCopy_source hs ext ?_ ?_) in2,
    fun bs len ht even => abCopy_lands hs ext len ht even (pieceBytes_kept ?_) in2⟩
  · rw [ht]
    exact (abCopyRec_abCopy jid o1 o2 n m v).withBytes [] [] n []
  · rw [ht]
    rfl
  · exact (congrArg (fun r => smFind (TagRec.got r) 0) ht).trans rfl

end Sys2Proof.Claims
end

section
/-!
SUPPORT. O39 asks of no drain that a redundant block, whose state word has R, stands below a8, as R325 has it. The array clears with .Z
the shadow of an element that it drains, eight blocks on (R328). The shadow of block 8 would be block 16, behind the 16 blocks of AS, so
that the drain of a block 8 with R changes a byte outside AS.
-/
namespace Sys2Proof.DrainBeyondAs
open Sys2Proof Sys2Proof.Machine Sys2Proof.Claims

/-- MDRAIN of block 8 to INT8 with .Z: no predicate, no wait and no signal (R328). -/
def drainClearing : Ops :=
  { h := { prd := 0, wsem := 0, wthr := 0, ssem := 0, sinc := 0 }
    fmt := 7, d := .a 8, a := .zero, b := .zero, c := .zero, imm := 0, mod := 2 }

/-- The part after a start, but for a byte behind the last block of tile 0. -/
def start : State := { State.reset with mem := [(asKey 0 16 0 0, 1)] }

/-- The drain of one row and one column to offset 0 of AB, from a block 8 whose state word has R. -/
def drain : MOp := { matOp start .drain drainClearing 0 0x00010001 0 with blocks := [8], sts := [0x800] }

theorem drain_clears_beyond : memByte start.mem (asKey 0 16 0 0) = 1 ∧ memByte (start.drainRun 0 drain).1.mem (asKey 0 16 0 0) = 0 :=
  ⟨rfl, rfl⟩

/-- The byte lies behind the drain's range of AB. -/
theorem ab_before_beyond : tileKey 0 2 (0 + 1 * 1) ≤ asKey 0 16 0 0 := by decide

end Sys2Proof.DrainBeyondAs

namespace Sys2Proof.Claims
open Sys2Proof Sys2Proof.Machine Sys2Proof.DrainBeyondAs

/-- Refutes O39 in its clause on drains, which lacks the hypothesis that a block with R stands below a8: a drain of block 8 with R and
with .Z clears the shadow's element in a block 16, where the clause keeps every byte. -/
theorem not_matrixWorkComputesItsElements : ¬ Obligations.MatrixWorkComputesItsElements := by
  unfold Obligations.MatrixWorkComputesItsElements
  rintro ⟨-, -, -, -, -, drains⟩
  obtain ⟨-, outside, -⟩ := drains start 0 drain rfl rfl (by decide) (by decide) (by decide) (by decide)
  obtain ⟨before, after⟩ := drain_clears_beyond
  have kept : memByte (start.drainRun 0 drain).1.mem (asKey 0 16 0 0) = memByte start.mem (asKey 0 16 0 0) :=
    outside (asKey 0 16 0 0) (.inr ab_before_beyond) (.inr le_rfl)
  rw [before, after] at kept
  exact absurd kept (by decide)

end Sys2Proof.Claims
end

section
/-!
SUPPORT, of O35. The lanes that reductions, scans and the partial sort take in, the sums and extremes made of them, and the scans
(R137, R290, R291).
-/
namespace Sys2Proof.Machine
open Sys2Proof.Claims

/-- Lanes of AF with whether each is active. -/
theorem zip_active_group (s : State) (x : Ops) :
    (s.me.regs.active x (laneCount x)).zip (s.me.regs.readGroup x.a (groupSize x.mod)) =
      (List.range (laneCount x)).map (fun i => (laneOn s x i, laneAt s x x.a i)) := by
  have len : (s.me.regs.readGroup x.a (groupSize x.mod)).length = laneCount x := readGroup_length ..
  rw [active_eq]
  apply List.ext_getElem <;> simp +contextual [laneAt, len]

theorem activeLanes_apply (x : Ops) (ident : BitVec 32) (s : State) : activeLanes x ident s = .ok (takenLanes s x ident, s) := by
  rw [activeLanes, bind_getRegs, pure_apply, zip_active_group, List.map_map]
  rfl

theorem takenLanes_length (s : State) (x : Ops) (ident : BitVec 32) : (takenLanes s x ident).length = laneCount x := by
  simp [takenLanes]

theorem laneCount_pos (x : Ops) : 0 < laneCount x := by
  unfold laneCount groupSize
  split <;> omega

theorem activeVals_apply (x : Ops) (s : State) : activeVals x s = .ok (activeList s x, s) := by
  rw [activeVals, bind_getRegs, pure_apply, zip_active_group, zipIdx_map_range, List.filter_map, List.map_map]
  rfl

theorem drawVector_apply (x : Ops) (s : State) :
    drawVector (groupSize x.mod) s = .ok (fun n => s.me.regs.rnd n, drawn true x s) := rfl

/-- The exact sum of integer lanes is the sum of their values (R137). -/
theorem sumLanes_eq (fmt : BitVec 3) (ls : List (BitVec 32)) : sumLanes fmt ls = (ls.map (laneInt fmt)).sum := by
  rw [sumLanes, ← List.foldl_map, ← List.sum_eq_foldl]

/-- Element `j` of a level of the tree joins elements 2j and 2j + 1 of the one below (R137). -/
theorem getD_treeLevel (f : Nat → BitVec 32 → BitVec 32 → BitVec 32 × Nat) :
    ∀ (k : Nat) (ls : List (BitVec 32)) (j : Nat), 2 * j + 1 < ls.length →
      (treeLevel f k ls).1.getD j 0 = (f (k + j) (ls.getD (2 * j) 0) (ls.getD (2 * j + 1) 0)).1
  | _, [], _, h => by simp at h
  | _, [_], _, h => by simp at h
  | _, _ :: _ :: _, 0, _ => rfl
  | k, a :: b :: ls, j + 1, h => by
    have rest := getD_treeLevel f (k + 1) ls j (by simp at h; omega)
    rw [show k + 1 + j = k + (j + 1) by omega] at rest
    exact rest

/-- The greater of an extreme and a lane, as VMAX has it (R286, R290). -/
theorem pickLane_greater (x : Ops) (p l : BitVec 32) : pickLane x true p l = pickOf x true rne p l 0 := by
  rw [pickLane, pickOf]
  split <;> simp [flagIf]

/-- The lesser of an extreme and a lane, as VMIN has it (R286, R290). -/
theorem pickLane_lesser (x : Ops) (p l : BitVec 32) : pickLane x false p l = pickOf x false rne l p 0 := by
  rw [pickLane, pickOf, Bool.or_comm (laneVal x.fmt l).isNan, Bool.or_comm (laneVal x.fmt l).isSig]
  cases fvBelow (laneVal x.fmt p) (laneVal x.fmt l)
  all_goals split <;> simp [flagIf]

/-- The outputs of a float scan behind its first ones (R291). -/
theorem scanFloat_eq (x : Ops) (rd : Nat → Rnd) (first : BitVec 32) (rest : List (BitVec 32)) :
    ∀ (ls : List (BitVec 32)) (k : Nat), rest.drop k = ls →
      scanFloat x rd (k + 1) (scanOut x rd first rest k).1 ls = (List.range' (k + 1) ls.length).map (scanOut x rd first rest)
  | [], _, _ => rfl
  | l :: ls, k, h => by
    have hl : rest.getD k 0 = l := by
      rw [List.getD_eq_getElem?_getD, ← List.head?_drop, h]
      rfl
    have step : addLanes x (rd (k + 1)) (scanOut x rd first rest k).1 l = scanOut x rd first rest (k + 1) := by
      rw [scanOut, hl]
    have tail : rest.drop (k + 1) = ls := by
      rw [← List.drop_drop, h]
      rfl
    rw [scanFloat, step, scanFloat_eq x rd first rest ls (k + 1) tail, List.length_cons, List.range'_succ, List.map_cons]

/-- A float scan's outputs (R291). -/
theorem scanFloat_outputs (x : Ops) (rd : Nat → Rnd) (first : BitVec 32) (rest : List (BitVec 32)) :
    (first, 0) :: scanFloat x rd 1 first rest = (List.range (rest.length + 1)).map (scanOut x rd first rest) := by
  rw [List.range_eq_range', List.range'_succ, List.map_cons, ← scanFloat_eq x rd first rest rest 0 rfl]
  rfl

/-- An integer scan's exact outputs (R291). -/
theorem scanInt_outputs (fmt : BitVec 3) (t : Int) (ls : List (BitVec 32)) :
    t :: scanInt fmt t ls = (List.range (ls.length + 1)).map (fun n => t + ((ls.take n).map (laneInt fmt)).sum) := by
  induction ls generalizing t with
  | nil => simp [scanInt]
  | cons l ls ih =>
    rw [scanInt, ih, List.length_cons, List.range_succ_eq_map (n := ls.length + 1), List.map_cons, List.map_map]
    simp [Function.comp_def, Int.add_assoc]

theorem laneAt_drawn (s : State) (x : Ops) (o : Opd) (i : Nat) : laneAt (drawn true x s) x o i = laneAt s x o i := by
  have same : (s.me.regs.drawn (laneCount x)).readGroup o (groupSize x.mod) = s.me.regs.readGroup o (groupSize x.mod) := by
    unfold Regs.drawn
    split
    · cases o <;> rfl
    · rfl
  rw [laneAt, drawn, if_pos rfl, State.withRegs, State.me_setMe, same, laneAt]

section Scan
variable {x : Ops} {split : List (BitVec 32) → BitVec 32 × List (BitVec 32)} {first : BitVec 32} {rest : List (BitVec 32)} {s : State}
  (cut : split (takenLanes s x (sumIdent x.fmt)) = (first, rest)) (len : rest.length + 1 = laneCount x)
include cut len

theorem scanOp_float (type : vfloat x.fmt = true) :
    let out := scanOut x (fun n => s.me.regs.rnd n) first rest
    scanOp x split s = .ok ((), ((drawn true x s).withFlags (orFlags s x (fun n => (out n).2))).withRegs (fun g =>
      g.writeGroup x.d (mergedLanes s s x (fun n => laneOf x.fmt (laneBits x.fmt (out n).1))))) := by
  intro out
  rw [scanOp, bind_getRegs, Exec.bind_ok (activeLanes_apply x _ s), cut]
  dsimp only
  rw [if_pos type, Exec.bind_ok (drawVector_apply x s), scanFloat_outputs, len, active_eq]
  simp only [List.map_map]
  rw [laneFlags_eq, Exec.bind_ok (addFlags_apply _ _), writeLanes_apply]
  simp only [laneAt_withFlags, laneAt_drawn]
  rfl

theorem scanOp_int (type : vfloat x.fmt = false) :
    let out := fun n => intLane x (laneInt x.fmt first + ((rest.take n).map (laneInt x.fmt)).sum)
    scanOp x split s = .ok ((), (s.withFlags (orFlags s x (fun n => (out n).2))).withRegs (fun g =>
      g.writeGroup x.d (mergedLanes s s x (fun n => (out n).1)))) := by
  intro out
  rw [scanOp, bind_getRegs, Exec.bind_ok (activeLanes_apply x _ s), cut]
  dsimp only
  rw [if_neg (by simp [type]), scanInt_outputs, len, active_eq]
  simp only [List.map_map]
  rw [laneFlags_eq, Exec.bind_ok (addFlags_apply _ _), writeLanes_apply]
  simp only [laneAt_withFlags]
  rfl

end Scan

end Sys2Proof.Machine
end

section
/-!
SUPPORT, of O35. The order of R292: greater values first, equal ones by their lanes. It is strict, so that values with numbers of their
own stand in rank order in one arrangement alone, the one that the model's insertion makes; its first one is what VRAMAX finds (R290).
-/
namespace Sys2Proof.Machine
open Sys2Proof.Claims

theorem fvLt_asymm {a b : FV} (h : fvLt a b = true) : fvLt b a = false := by
  cases a <;> cases b
  case fin.fin =>
    simp only [fvLt, decide_eq_true_eq, decide_eq_false_iff_not] at h ⊢
    omega
  all_goals simp_all [fvLt]

/-- No two values stand below each other (R286, R292). -/
theorem fvBelow_asymm {a b : FV} (h : fvBelow a b = true) : fvBelow b a = false := by
  cases ha : a.isNan with
  | true => simp [fvBelow, ha]
  | false =>
    cases hb : b.isNan with
    | true => simp [fvBelow, ha, hb] at h
    | false =>
      simp only [fvBelow, fvEq, ha, hb, Bool.false_eq_true, if_false, Bool.or_eq_true, Bool.and_eq_true] at h ⊢
      obtain lt | ⟨⟨equal, na⟩, nb⟩ := h
      · simp [fvLt_asymm lt, lt]
      · simp_all

theorem not_below_of_ranksBefore {v w : Nat × FV} (h : ranksBefore v w) : fvBelow v.2 w.2 = false := by
  obtain below | ⟨not, -⟩ := h
  · exact fvBelow_asymm below
  · exact not

/-- The active lanes stand in the order of their numbers. -/
theorem activeList_rises (s : State) (x : Ops) : (activeList s x).Pairwise (fun v w => v.1 < w.1) :=
  List.pairwise_map.mpr (List.pairwise_lt_range.filter _)

/-- The best value so far is one of those seen. -/
theorem bestIdx_mem {better : FV → FV → Bool} {es : List (Nat × FV)} {b : Nat × FV} (h : bestIdx better es = some b) :
    b ∈ es := by
  refine List.foldlRecOn (motive := fun (o : Option (Nat × FV)) => ∀ b, o = some b → b ∈ es) es _
    (fun _ none => absurd none (Option.some_ne_none _).symm) ?_ b h
  intro o seen e he b hb
  split at hb
  · exact Option.some.inj hb ▸ he
  · split at hb
    · exact Option.some.inj hb ▸ he
    · exact seen b hb

/-- Of values in which one stands above those before it and below none behind it, that one is taken (R290). -/
theorem bestIdx_greatest {v : Nat × FV} {pre post : List (Nat × FV)} (before : ∀ w ∈ pre, fvBelow w.2 v.2 = true)
    (behind : ∀ w ∈ post, fvBelow v.2 w.2 = false) : bestIdx (fun a b => fvBelow b a) (pre ++ v :: post) = some v := by
  rw [bestIdx, List.foldl_append, List.foldl_cons]
  refine List.foldlRecOn (motive := (· = some v)) post _ ?_ ?_
  · cases h : bestIdx (fun a b => fvBelow b a) pre with
    | none => rw [bestIdx] at h; simp only [h]
    | some b =>
      have below := before b (bestIdx_mem h)
      rw [bestIdx] at h
      simp only [h, below, if_true]
  · rintro _ rfl w hw
    simp only [behind w hw, Bool.false_eq_true, if_false]

/-- A value goes between those that rank before it and those that it stands above (R292). -/
theorem rankIn_between {v : Nat × FV} {pre post : List (Nat × FV)} (before : ∀ w ∈ pre, fvBelow w.2 v.2 = false)
    (behind : ∀ w ∈ post, fvBelow w.2 v.2 = true) : rankIn v (pre ++ post) = pre ++ v :: post := by
  induction pre with
  | nil =>
    cases post with
    | nil => rfl
    | cons w post => exact if_pos (behind w (by simp))
  | cons w pre ih =>
    rw [List.cons_append, rankIn, if_neg (by simp [before w]), ih (fun u hu => before u (by simp [hu]))]
    rfl

/-- The model's order of values that rise by their numbers is the one arrangement of them in rank order (R292). -/
theorem ranked_eq {es : List (Nat × FV)} (rise : es.Pairwise (fun v w => v.1 < w.1)) :
    ∀ vs : List (Nat × FV), vs.Perm es → vs.Pairwise ranksBefore → ranked es = vs := by
  induction es using List.reverseRecOn with
  | nil => intro vs perm _; exact perm.eq_nil.symm
  | append_singleton es v ih =>
    intro vs perm sorted
    obtain ⟨rise, -, last⟩ := List.pairwise_append.mp rise
    obtain ⟨pre, post, rfl⟩ := List.append_of_mem (perm.mem_iff.mpr (by simp : v ∈ es ++ [v]))
    have perm' : (pre ++ post).Perm es :=
      (List.perm_middle.symm.trans (perm.trans (List.perm_append_comm))).cons_inv
    have sorted' : (pre ++ post).Pairwise ranksBefore := sorted.sublist (by simp)
    obtain ⟨-, tail, cross⟩ := List.pairwise_append.mp sorted
    rw [ranked, List.foldl_append, ← ranked, ih rise _ perm' sorted']
    refine rankIn_between (fun w hw => not_below_of_ranksBefore (cross w hw v (by simp))) fun w hw => ?_
    obtain below | ⟨-, lower⟩ := (List.pairwise_cons.mp tail).1 w hw
    · exact below
    · have := last w (perm'.mem_iff.mp (by simp [hw])) v (by simp)
      omega

end Sys2Proof.Machine
end

section
/-!
SUPPORT. The reductions, the scans and the partial sort of R290 to R292, one lemma for each way that they go.
-/
namespace Sys2Proof.Claims
open Sys2Proof Sys2Proof.Machine

theorem vrsum_float {x : Ops} (s s0 : State) (type : vfloat x.fmt = true) :
    let r := treeOf (fun i a b => addLanes x (s0.me.regs.rnd i) a b) (Nat.log2 (laneCount x)) (takenLanes s0 x (sumIdent x.fmt))
    Does .vector x (.vrsum x) s s0 (((drawn true x s0).withFlags r.2).withRegs (fun g =>
      g.writeGroup x.d (List.replicate 64 (r.1.headD 0)))) := by
  intro r
  refine does_of_body rfl ?_
  rw [Exec.bind_ok (activeLanes_apply x _ s0), if_pos type, Exec.bind_ok (drawVector_apply x s0)]
  rfl

theorem vrsum_int {x : Ops} (s s0 : State) (type : vfloat x.fmt = false) :
    let y := ((takenLanes s0 x (sumIdent x.fmt)).map (laneInt x.fmt)).sum
    Does .vector x (.vrsum x) s s0 ((s0.withFlags (intLane x y).2).withRegs (fun g =>
      g.writeGroup x.d (List.replicate 64 (intLane x y).1))) := by
  intro y
  refine does_of_body rfl ?_
  rw [Exec.bind_ok (activeLanes_apply x _ s0), if_neg (by simp [type]), sumLanes_eq]
  rfl

theorem extreme_does {i : Instr} {x : Ops} {greater : Bool} {s s0 : State}
    (row : (i = .vrmax x ∧ greater = true) ∨ (i = .vrmin x ∧ greater = false)) :
    let ident := if greater then leastLane x.fmt else greatestLane x.fmt
    let pick := fun p l => if greater then pickOf x true rne p l 0 else pickOf x false rne l p 0
    let r := (takenLanes s0 x ident).foldl (fun p l => ((pick p.1 l).1, p.2 ||| (pick p.1 l).2)) (ident, 0)
    Does .vector x i s s0 ((s0.withFlags r.2).withRegs (fun g => g.writeGroup x.d (List.replicate 64 r.1))) := by
  intro ident pick r
  have picks : ∀ p l, pickLane x greater p l = pick p l := by
    cases greater
    · exact pickLane_lesser x
    · exact pickLane_greater x
  have body : extremeOp x greater s0 =
      .ok ((), (s0.withFlags r.2).withRegs (fun g => g.writeGroup x.d (List.replicate 64 r.1))) := by
    rw [extremeOp, Exec.bind_ok (activeLanes_apply x _ s0)]
    simp only [picks]
    rfl
  obtain ⟨rfl, rfl⟩ | ⟨rfl, rfl⟩ := row
  all_goals exact does_of_body rfl body

/-- VRAMAX writes the number of the lane that is found, or all ones, and raises INV for a signalling NaN (R290). -/
theorem vramax_does {x : Ops} {s s0 : State} {o : Option (Nat × FV)}
    (h : bestIdx (fun a b => fvBelow b a) ((activeList s0 x).filter (fun v => !v.2.isNan)) = o) :
    Does .vector x (.vramax x) s s0 ((s0.withFlags (if (activeList s0 x).any (fun w => w.2.isSig) then fINV else 0)).withRegs
      (fun g => g.writeGroup x.d (List.replicate 64 (o.elim 0xFFFFFFFF (fun v => BitVec.ofNat 32 v.1))))) := by
  refine does_of_body rfl ?_
  rw [Exec.bind_ok (activeVals_apply x s0), Exec.bind_ok (addFlags_apply _ _), h]
  cases o <;> rfl

/-- The lane that ranks before every other number's is the one found. -/
theorem bestIdx_ranked {s0 : State} {x : Ops} {v : Nat × FV} (mem : v ∈ activeList s0 x) (num : v.2.isNan = false)
    (first : ∀ w ∈ activeList s0 x, w.2.isNan = false → w.1 ≠ v.1 → ranksBefore v w) :
    bestIdx (fun a b => fvBelow b a) ((activeList s0 x).filter (fun v => !v.2.isNan)) = some v := by
  have rise := (activeList_rises s0 x).filter (fun v => !v.2.isNan)
  have inList : ∀ w ∈ (activeList s0 x).filter (fun v => !v.2.isNan), w.1 ≠ v.1 → ranksBefore v w := fun w hw => by
    obtain ⟨hw, hn⟩ := List.mem_filter.mp hw
    exact first w hw (by simpa using hn)
  have taken : v ∈ (activeList s0 x).filter (fun v => !v.2.isNan) := List.mem_filter.mpr ⟨mem, by simp [num]⟩
  obtain ⟨pre, post, split⟩ := List.append_of_mem taken
  rw [split] at rise inList ⊢
  obtain ⟨-, tail, cross⟩ := List.pairwise_append.mp rise
  refine bestIdx_greatest (fun w hw => ?_) fun w hw => ?_
  · have lower := cross w hw v (by simp)
    obtain below | ⟨-, higher⟩ := inList w (by simp [hw]) (by omega)
    · exact below
    · omega
  · have higher := (List.pairwise_cons.mp tail).1 w hw
    exact not_below_of_ranksBefore (inList w (by simp [hw]) (by omega))

/-- The two scans, by what they take first and what they add (R291). -/
theorem scan_row {i : Instr} {x : Ops} {s s0 : State} {first : BitVec 32} {rest : List (BitVec 32)}
    (row : (i = .vscan x ∧ first = (takenLanes s0 x (sumIdent x.fmt)).headD 0 ∧ rest = (takenLanes s0 x (sumIdent x.fmt)).tail) ∨
      (i = .vscanx x ∧ first = sumIdent x.fmt ∧ rest = (takenLanes s0 x (sumIdent x.fmt)).dropLast)) :
    rest.length + 1 = laneCount x ∧ ∃ split, exec i s = runCore .vector x (scanOp x split) s ∧
      split (takenLanes s0 x (sumIdent x.fmt)) = (first, rest) := by
  have pos := laneCount_pos x
  have len := takenLanes_length s0 x (sumIdent x.fmt)
  obtain ⟨rfl, rfl, rfl⟩ | ⟨rfl, rfl, rfl⟩ := row
  · exact ⟨by rw [List.length_tail]; omega, _, rfl, rfl⟩
  · exact ⟨by rw [List.length_dropLast]; omega, _, rfl, rfl⟩

/-- What VTOPK and VTOPKI write, of the active lanes in rank order (R292). -/
theorem topkOp_apply {x : Ops} {s0 : State} {vs : List (Nat × FV)} (perm : vs.Perm (activeList s0 x)) (sorted : vs.Pairwise ranksBefore)
    (fill : BitVec 32) (out : List (BitVec 32) → Nat → BitVec 32) :
    let top := vs.take (x.imm.toNat % 512)
    topkOp x fill out s0 = .ok ((), s0.withRegs (fun g => g.writeGroup x.d
      (top.map (fun v => out (s0.me.regs.readGroup x.a (groupSize x.mod)) v.1) ++
        List.replicate (laneCount x - top.length) fill))) := by
  intro top
  rw [topkOp, Exec.bind_ok (activeVals_apply x s0), bind_getRegs, ranked_eq (activeList_rises s0 x) vs perm sorted,
    modRegs_apply, List.length_map]
  rfl

/-- Settles O35: the reductions and the scans by what they take of their lanes, and the rank order as the one arrangement that the
model's insertion makes. -/
theorem reductionsScansAndRanking : Obligations.ReductionsScansAndRanking := by
  unfold Obligations.ReductionsScansAndRanking
  refine ⟨fun x s s0 => ⟨vrsum_float s s0, vrsum_int s s0⟩, fun f ls j h => ?_, fun i x greater s s0 => extreme_does,
    fun x s s0 n v mem num first => vramax_does (o := some (n, v)) (bestIdx_ranked mem num first),
    fun x s s0 nans => vramax_does (o := none) ?_,
    fun i x s s0 first rest => ?_, fun x s s0 vs perm sorted =>
      ⟨does_of_body rfl (topkOp_apply perm sorted _ _), does_of_body rfl (topkOp_apply perm sorted _ _)⟩⟩
  · rw [getD_treeLevel f 0 ls j h, Nat.zero_add]
  · rw [List.filter_eq_nil_iff.mpr fun w hw => by simp [nans w hw]]
    rfl
  · intro ls row
    obtain ⟨len, split, run, cut⟩ := scan_row row
    exact ⟨does_of_body run ∘ scanOp_float cut len, does_of_body run ∘ scanOp_int cut len⟩

end Sys2Proof.Claims
end

section
/-!
SUPPORT, of O42. What an instruction reads, it reads by changes of its core's registers and chunk alone: a reach that holds these changes
holds the reads of operands and of memory.
-/
namespace Sys2Proof.Machine

/-- A reach that holds what an instruction may make of its core's registers and of its chunk. -/
structure Reach.Issuing (R : Reach) : Prop where
  regs : ∀ f : Regs → Regs, (modRegs f).Within R
  chunk : ∀ f : Chunk → Chunk, (modChunk f).Within R

namespace Reach.Issuing

variable {R : Reach} (hR : R.Issuing)
include hR

theorem addReads {ls : List Nat} : (addReads ls).Within R := hR.chunk _

theorem xlateBy {c : Acc} {e : Word} {log va : Nat} : (xlateBy c e log va).Within R := by
  intro s a t h
  unfold Machine.xlateBy at h
  split at h <;> cases h
  exact hR.chunk _ s () _ rfl

theorem xlate {c : Acc} {va : Nat} : (xlate c va).Within R := by
  intro s a t h
  unfold Machine.xlate at h
  split at h
  · split at h
    · exact hR.xlateBy _ _ _ h
    · cases h
    · cases h
  · split at h
    · exact hR.xlateBy _ _ _ h
    · cases h

theorem readPlace {c : Acc} {p : Place} {n : Nat} : (readPlace c p n).Within R := by
  unfold Machine.readPlace
  split
  · exact getState_within.bind fun _ => within_when stallWith_within fun _ => checkPoison_within.bind fun _ =>
      within_when needEmpty_within fun _ => within_when (hR.chunk _) fun _ =>
      within_either (hR.chunk _) hR.addReads fun _ => getState_within.bind fun _ => pure_within
  · exact needEmpty_within.bind fun _ => (hR.chunk _).bind fun _ => (hR.chunk _).bind fun _ => extAsk_within

theorem checkOwner {c : Acc} {t buf ofs : Nat} : (checkOwner c t buf ofs).Within R :=
  getState_within.bind fun _ => hR.addReads.bind fun _ => within_ite faultAcc_within pure_within

theorem useApts {va : Nat} : (useApts va).Within R := by
  unfold Machine.useApts
  refine getState_within.bind fun s => ?_
  split
  · exact pure_within
  · exact hR.addReads.bind fun _ => pure_within

theorem readGlob {c : Acc} {va n : Nat} : (readGlob c va n).Within R := by
  have piece : ∀ b k, (Machine.xlate c b >>= fun p => Machine.readPlace c p k).Within R :=
    fun _ _ => hR.xlate.bind fun _ => hR.readPlace
  unfold Machine.readGlob
  refine hR.useApts.bind fun aps => ?_
  split
  · exact piece _ _
  · extract_lets
    split
    · exact piece _ _
    · exact (mapM_within fun _ => piece _ _).bind fun _ => pure_within
    · refine (mapM_within fun j => ?_).bind fun _ => pure_within
      split
      exact hR.xlate.bind fun _ => hR.readPlace.bind fun _ => pure_within

theorem loadAt {kind align : Nat} {vec : Bool} {a : Word} {n : Nat} : (loadAt kind align vec a n).Within R := by
  refine locate_within.bind fun p => ?_
  unfold readSpot
  split
  · exact rowTarget_within.bind fun _ => hR.checkOwner.bind fun _ => hR.readPlace
  · exact hR.readGlob
  · exact faultAcc_within

theorem readOpd {x : Ops} {o : Opd} : (readOpd x o).Within R := by
  cases o with
  | s n =>
    have peek : (streamPeek n).Within R := getRegs_within.bind fun _ => within_when faultIp_within fun _ =>
      within_when faultIp_within fun _ => within_ite pure_within (hR.loadAt.bind fun _ => pure_within)
    exact peek.bind fun _ => (hR.regs _).bind fun _ => pure_within
  | prv | o | m | g | p => exact getRegs_within.bind fun _ => pure_within
  | _ => exact pure_within

/-- A read of a descriptor or a block (R334 step 2). -/
theorem readLocal {a : Word} {n : Nat} : (readLocal a n).Within R :=
  getState_within.bind fun _ => within_when faultAcc_within fun _ => within_when faultAcc_within fun _ => hR.loadAt

end Reach.Issuing

/-- The acting core runs on its own account, or in a trial, as it did. -/
def trialKept : Reach :=
  { rel := fun s t => t.me.trial = s.me.trial, refl := fun _ => rfl, trans := fun h h' => Eq.trans h' h }

theorem State.trial_setMe {s : State} {c : Core} (h : c.trial = s.me.trial) : (s.setMe c).me.trial = s.me.trial := by
  rw [State.me_setMe, h]

theorem trialKept_issuing : trialKept.Issuing where
  regs f := by
    rintro s a t ⟨⟩
    exact State.trial_setMe rfl
  chunk f := by
    rintro s a t ⟨⟩
    exact State.trial_setMe rfl

theorem ownCore_issuing : ownCore.Issuing := ⟨fun _ => modRegs_ownCore, fun _ => modChunk_ownCore⟩

/-! What a change of the acting core alone leaves: the ports, the keys of their handles and the memory. -/

theorem State.OwnCore.port {s t : State} (h : s.OwnCore t) (p : Bool) : t.port p = s.port p := by
  obtain rfl | ⟨c, rfl⟩ := h <;> rfl

theorem State.OwnCore.badWord {s t : State} (h : s.OwnCore t) (key n : Nat) : t.badWord key n = s.badWord key n := by
  obtain rfl | ⟨c, rfl⟩ := h <;> rfl

theorem State.OwnCore.readBytes {s t : State} (h : s.OwnCore t) (kn key n : Nat) : t.readBytes kn key n = s.readBytes kn key n := by
  obtain rfl | ⟨c, rfl⟩ := h <;> rfl

theorem State.OwnCore.handleKey {s t : State} (h : s.OwnCore t) (n : Nat) (port : Bool) (epoch : BitVec 32) :
    t.handleKey n port epoch = s.handleKey n port epoch := by
  obtain rfl | ⟨c, rfl⟩ := h <;> rfl

end Sys2Proof.Machine
end

section
/-!
SUPPORT, of O42. The checks of an exchange's ranges (R151 checks 5 to 8, R312), and what its entry leaves when they pass (R334).
-/
namespace Sys2Proof.Machine

theorem checkBuf_within {R : Reach} {a : Word} {n kind : Nat} {ok : Nat → Bool} : (checkBuf a n kind ok).Within R :=
  getState_within.bind fun _ => within_when bufFault_within fun _ => within_ite (within_when bufFault_within fun _ =>
    within_when bufFault_within fun _ => within_when bufFault_within fun _ => within_ite bufFault_within pure_within) pure_within

theorem State.Reads.ownCore {s t : State} (h : s.Reads t) : s.OwnCore t := by
  obtain rfl | ⟨f, rfl⟩ := h
  · exact .inl rfl
  · exact s.ownCore_setMe _

/-- A check of each of some ranges, one after another. -/
def eachRange (f : MRange → Exec Unit) (rs : List MRange) : Exec PUnit :=
  forIn rs PUnit.unit fun r _ => f r >>= fun _ => pure (ForInStep.yield PUnit.unit)

theorem eachRange_congr {f g : MRange → Exec Unit} {rs : List MRange} (h : ∀ r ∈ rs, f r = g r) : eachRange f rs = eachRange g rs := by
  induction rs with
  | nil => rfl
  | cons r rs ih =>
    have rest : eachRange f rs = eachRange g rs := ih fun r hr => h r (.tail _ hr)
    unfold eachRange at rest ⊢
    simp only [List.forIn_cons, h r (.head _), bind_assoc, pure_bind, rest]

theorem eachRange_reads {f : MRange → Exec Unit} (hf : ∀ r, (f r).Within reads) (rs : List MRange) : (eachRange f rs).Within reads :=
  forIn_within fun r _ => (hf r).bind fun _ => pure_within

/-- Ranges that pass check 5 of R312 outside a trial: each lies in its buffer and is the engines', and every slab has room in P. -/
theorem checkRanges_inv {rs : List MRange} {s u : State} (ht : s.me.trial = false) (h : checkRanges rs s = .ok ((), u)) :
    ∃ v, eachRange (fun r => checkBuf r.a r.n r.kind (fun b => b == r.buf)) rs s = .ok ((), v) ∧
      eachRange (fun r => checkSide r.slabs true r.kind) rs v = .ok ((), u) ∧ s.Reads u ∧
      u.hasNeed u.curTile u.curCore (.slabs (rs.flatMap MRange.slabs)) = true := by
  obtain ⟨_, v, bufs, h⟩ := Exec.bind_inv h
  obtain ⟨_, w, sides, room⟩ := Exec.bind_inv h
  have kept : s.Reads w := State.Reads.trans (eachRange_reads (fun _ => checkBuf_within) rs _ _ _ bufs)
    (eachRange_reads (fun _ => checkSide_reads) rs _ _ _ sides)
  obtain ⟨rfl, has⟩ := needs_inv (kept.trial.trans ht) room
  exact ⟨v, bufs, sides, kept, has⟩

/-- P has room on slabs that are named more than once when it has on each. -/
theorem State.hasNeed_slabs_dedup (s : State) (t : Nat) (k : CoreK) (ls : List SlabId) :
    s.hasNeed t k (.slabs ls.dedup) = s.hasNeed t k (.slabs ls) := by
  refine Bool.eq_iff_iff.mpr ?_
  simp [State.hasNeed, State.pRoom]

theorem descRanges_buf (d : List Word) (w : Bool) : ∀ r ∈ descRanges d w, r.buf = 2 := by
  unfold descRanges
  split_ifs <;> simp

theorem Exec.Within.ownCore_of_reads {α : Type} {m : Exec α} (h : m.Within reads) : m.Within ownCore :=
  fun s a t e => State.Reads.ownCore (h s a t e)

theorem needs_ownCore {n : Need} : (needs n).Within ownCore := by
  refine getState_within.bind fun s => within_ite ?_ (within_ite stallWith_within pure_within)
  rintro u a t ⟨⟩
  exact u.ownCore_setMe _

theorem checkRanges_ownCore {rs : List MRange} : (checkRanges rs).Within ownCore :=
  (eachRange_reads (fun _ => checkBuf_within) rs).ownCore_of_reads.bind fun _ =>
    (eachRange_reads (fun _ => checkSide_reads) rs).ownCore_of_reads.bind fun _ => needs_ownCore

/-- One range is checked as it stands in an effect (R312, R338). -/
theorem checkRanges_then {r : MRange} {s u : State} {β : Type} (h : checkRanges [r] s = .ok ((), u)) (f : Unit → Exec β) :
    (checkBuf r.a r.n r.kind (fun b => b == r.buf) >>= fun _ => checkSide r.slabs true r.kind >>= fun _ => roomForP r.slabs >>= f) s =
      f () u := by
  rw [← Exec.bind_ok (f := f) h]
  simp only [checkRanges, List.forIn_cons, List.forIn_nil, bind_assoc, pure_bind, List.flatMap_cons, List.flatMap_nil, List.append_nil]

theorem queueRoom_free {port : Bool} {s : State} (ht : s.me.trial = false) (room : (s.port port).queue.length < 32) :
    queueRoom port s = .ok ((), s) := by
  rw [queueRoom, bind_getState, if_neg (by simp [ht]), if_neg (by simp [State.portRoom, room])]
  rfl

section Exchange
variable {opc : Nat} {x : Ops} {s0 s1 s2 : State} {a : Word} {bs : List Byte} (ha : readA x s0 = .ok (a, s1))
  (hd : readLocal a 32 s1 = .ok (bs, s2))
include ha hd

theorem exchangeBody_fault {f : Nat × Nat × Nat} (hf : descFaults opc (wordsOf bs) = [f]) : exchangeBody opc x s0 =
    .error (.trap (mkTrap Code.reservedField (addrAdd a (8 * f.1 : Nat)) 0 (spaceCode a) s2.curTile f.2.2)) := by
  refine (Exec.bind_ok ha).trans ((Exec.bind_ok hd).trans ?_)
  rw [bind_getState]
  simp only [hf]
  refine Exec.bind_error ?_
  simp only [List.headD_cons, List.foldl_cons, List.foldl_nil, ite_self]
  rfl

theorem exchangeBody_closed (hf : descFaults opc (wordsOf bs) = []) (en : (s2.port (dPort (wordsOf bs))).en = false) :
    exchangeBody opc x s0 = .error (.trap (s2.ipTrap Code.busRoster 1)) := by
  refine (Exec.bind_ok ha).trans ((Exec.bind_ok hd).trans ?_)
  rw [bind_getState]
  simp only [hf]
  rw [if_pos (by simp [en])]
  exact Exec.bind_error rfl

/-- An exchange that passes its checks is left to the commit. -/
theorem exchangeBody_passes {u : State} (ht : s2.me.trial = false) (hf : descFaults opc (wordsOf bs) = []) :
    let d := wordsOf bs
    let p := s2.port (dPort d)
    let rs := descRanges d ((dWset d).testBit p.myix)
    p.en = true → popCount 32 (dWset d) ≤ p.limit → dWset d < 2 ^ p.nros → (dTrk d = true → s2.hasTrunk p = true) →
    (p.sec = true → dMode d ≠ 5 ∧ ∃ k, p.key = some k ∧ k.epoch = p.epoch ∧ s2.keyLapsed k = false) →
    checkRanges rs s2 = .ok ((), u) → rangesClash rs = false → p.queue.length < 32 →
    exchangeBody opc x s0 = .ok ((), u.withAct
      (.exchange (dPort d) d (rs.flatMap MRange.slabs).dedup x.h.ssem.toNat x.h.sinc.toNat)) := by
  intro d p rs en limit wset trunk sec checks clash room
  obtain ⟨v, bufs, sides, kept, has⟩ := checkRanges_inv ht checks
  rw [← State.hasNeed_slabs_dedup] at has
  have ab : eachRange (fun r => checkBuf r.a r.n r.kind (fun b => b == 2)) rs s2 = .ok ((), v) := by
    rw [← bufs]
    exact congrFun (eachRange_congr fun r hr => by rw [descRanges_buf d _ r hr]) s2
  have trial : u.me.trial = false := kept.trial.trans ht
  have enrolled : ¬ ((!p.en) = true) := by simp [en]
  have writers : ¬ (p.limit < popCount 32 (dWset d) ∨ dWset d / 2 ^ p.nros ≠ 0) := by
    rw [Nat.div_eq_of_lt wset]
    omega
  have led : ¬ (dTrk d = true ∧ (!s2.hasTrunk p) = true) := fun h => by simp [trunk h.1] at h
  have exposed : ¬ (dMode d = 5 ∧ p.sec = true) := fun h => (sec h.2).1 h.1
  have keyed : ¬ (p.sec = true ∧ p.key.all (fun k => k.epoch != p.epoch) = true) := by
    rintro ⟨h, old⟩
    obtain ⟨-, k, key, epoch, -⟩ := sec h
    simp [key, epoch] at old
  have fresh : ¬ (p.sec = true ∧ p.key.any (fun k => s2.keyLapsed k) = true) := by
    rintro ⟨h, lapsed⟩
    obtain ⟨-, k, key, -, alive⟩ := sec h
    simp [key, alive] at lapsed
  refine (Exec.bind_ok ha).trans ((Exec.bind_ok hd).trans ?_)
  rw [bind_getState]
  simp only [hf]
  rw [if_neg enrolled, if_neg writers, if_neg led, if_neg exposed, if_neg keyed, if_neg fresh]
  refine (Exec.bind_ok ab).trans ((Exec.bind_ok sides).trans ?_)
  rw [if_neg (Bool.eq_false_iff.mp clash)]
  refine (Exec.bind_ok (needs_met trial has)).trans ((Exec.bind_ok (queueRoom_free trial ?_)).trans rfl)
  rw [kept.ownCore.port]
  exact room

end Exchange

end Sys2Proof.Machine
end

section
/-!
SUPPORT, of O42. The entries of R334 to R341, one lemma for each way that an instruction's effect can end.
-/
namespace Sys2Proof.Claims
open Sys2Proof Sys2Proof.Machine

section Exchange
variable {i : Instr} {x : Ops} {opc : Nat} {s s0 s1 s2 u : State} {a : Word} {bs : List Byte}

theorem exec_exchangeRow (row : exchangeRow i = some (x, opc)) (s : State) :
    exec i s = runCore { Entry.medium with engine := true } x (exchangeBody opc x) s := by
  unfold exchangeRow at row
  split at row <;> cases row <;> rfl

/-- What an exchange reads before its checks, it reads on its own account. -/
theorem exchange_trial (hi : Issues { Entry.medium with engine := true } x s s0) (ha : readA x s0 = .ok (a, s1))
    (hd : readLocal a 32 s1 = .ok (bs, s2)) : s2.me.trial = false :=
  calc s2.me.trial = s1.me.trial := trialKept_issuing.readLocal _ _ _ hd
    _ = s0.me.trial := trialKept_issuing.readOpd _ _ _ ha
    _ = false := prepare_trial hi.ready

end Exchange

section Barrier
variable {x : Ops} {s s0 s1 : State}

theorem barr_traps (en : (s0.port (portOf x)).en = false) :
    Traps { Entry.medium with engine := true } x (.barr x) s s0 (s0.ipTrap Code.busRoster 1) := by
  refine traps_of_body rfl ?_
  rw [bind_getState, if_pos (by simp [en])]
  exact Exec.bind_error rfl

theorem barr_does (en : (s0.port (portOf x)).en = true) (room : (s0.port (portOf x)).queue.length < 32) :
    Does { Entry.medium with engine := true } x (.barr x) s s0
      (s0.withAct (.barrier (portOf x) [] [] x.h.ssem.toNat x.h.sinc.toNat)) := by
  intro hi
  refine does_of_body rfl ?_ hi
  rw [bind_getState, if_neg (by simp [en])]
  exact (Exec.bind_ok (queueRoom_free (prepare_trial hi.ready) room)).trans rfl

theorem bwait_does (idle : (s0.port (portOf x)).ofTile s0.curTile = []) : Does .medium x (.bwait x) s s0 s0 := by
  refine does_of_body rfl ?_
  rw [bind_getState, if_neg (by simp [idle])]
  rfl

theorem bwait_waits (busy : (s0.port (portOf x)).ofTile s0.curTile ≠ []) :
    Waits .medium x (.bwait x) s s0 (fun u => u.setMe { u.me with stalled := true }) := by
  refine waits_of_body rfl ?_
  rw [bind_getState, if_pos (by simp [busy])]
  rfl

end Barrier

section Check
variable {x : Ops} {s s0 s1 s2 s3 : State} {k : Word}

/-- The buffer address of the record that BCHK names. -/
abbrev chkAddr (k : Word) : Word := word (k.toNat % 2 ^ 32)

/-- The range of that record. -/
abbrev chkRange (k : Word) : MRange := { a := chkAddr k, n := 16, kind := 3, buf := 2 }

/-- Where that record stands. -/
abbrev chkKey (s : State) (k : Word) : Nat := tileKey s.curTile 2 (bufOfs (chkAddr k))

/-- Some exchange of the acting tile has yet to write that record. -/
abbrev recordDue (s : State) (k : Word) : Bool :=
  [false, true].any (fun p => ((s.port p).ofTile s.curTile).any (fun e => !e.barr && dKaddr e.desc == chkAddr k))

theorem bchk_traps (ha : readA x s0 = .ok (k, s1)) (h : (chkAddr k).toNat % 16 ≠ 0) : Traps .medium x (.bchk x) s s0
    (mkTrap Code.misaligned (chkAddr k) 3 15 s1.curTile (Config.openCause Code.misaligned).toNat) := by
  refine traps_of_body rfl ((Exec.bind_ok ha).trans ?_)
  rw [bind_getState, if_pos h]
  exact Exec.bind_error rfl

variable (ha : readA x s0 = .ok (k, s1)) (h : (chkAddr k).toNat % 16 = 0) (hr : checkRanges [chkRange k] s1 = .ok ((), s2))
include ha h hr

theorem bchk_waits (due : recordDue s2 k = true) : Waits .medium x (.bchk x) s s0 (fun u => u.setMe { u.me with stalled := true }) := by
  have own : s1.OwnCore s2 := checkRanges_ownCore _ _ _ hr
  simp only [recordDue, own.port, own.curTile] at due
  refine waits_of_body rfl ((Exec.bind_ok ha).trans ?_)
  rw [bind_getState, if_neg (not_not.mpr h)]
  refine (checkRanges_then (r := chkRange k) hr _).trans ?_
  rw [if_pos due]
  exact Exec.bind_error rfl

theorem bchk_bad {p : Nat} (done : recordDue s2 k = false) (bad : s2.badWord (chkKey s2 k) 16 = some p) :
    Does .medium x (.bchk x) s s0 (s2.withAct (.check (badTrap s2.curTile p))) := by
  have own : s1.OwnCore s2 := checkRanges_ownCore _ _ _ hr
  simp only [recordDue, own.port, own.curTile] at done
  rw [chkKey, own.curTile, own.badWord] at bad
  refine does_of_body rfl ((Exec.bind_ok ha).trans ?_)
  rw [bind_getState, if_neg (not_not.mpr h)]
  refine (checkRanges_then (r := chkRange k) hr _).trans ?_
  rw [if_neg (Bool.eq_false_iff.mp done)]
  simp only [bad, own.curTile]
  rfl

theorem bchk_does (done : recordDue s2 k = false) (good : s2.badWord (chkKey s2 k) 16 = none)
    (hw : writeOpd x.d (wd (wordsOf (s2.readBytes 0 (chkKey s2 k) 16)) 0)
      (s2.withRegs (fun r => r.put (pairNext x.d) (wd (wordsOf (s2.readBytes 0 (chkKey s2 k) 16)) 1))) = .ok ((), s3)) :
    Does .medium x (.bchk x) s s0 s3 := by
  have own : s1.OwnCore s2 := checkRanges_ownCore _ _ _ hr
  simp only [recordDue, own.port, own.curTile] at done
  simp only [chkKey, own.curTile, own.badWord, own.readBytes] at good hw
  refine does_of_body rfl ((Exec.bind_ok ha).trans ?_)
  rw [bind_getState, if_neg (not_not.mpr h)]
  refine (checkRanges_then (r := chkRange k) hr _).trans ?_
  rw [if_neg (Bool.eq_false_iff.mp done)]
  simp only [good]
  exact hw

end Check

section Key
variable {x : Ops} {s s0 s1 : State} {a : Word} (ha : readA x s0 = .ok (a, s1))
include ha

theorem bkey_closed (en : (s1.port (portOf x)).en = false) : Traps .portKey x (.bkey x) s s0 (s1.ipTrap Code.busRoster 1) := by
  refine traps_of_body rfl ((Exec.bind_ok ha).trans ?_)
  rw [bind_getState, if_pos (by simp [en])]
  exact Exec.bind_error rfl

theorem bkey_unsecured (en : (s1.port (portOf x)).en = true) (sec : (s1.port (portOf x)).sec = false) :
    Traps .portKey x (.bkey x) s s0 (s1.ipTrap Code.busSecure 2) := by
  refine traps_of_body rfl ((Exec.bind_ok ha).trans ?_)
  rw [bind_getState, if_neg (by simp [en]), if_pos (by simp [sec])]
  exact Exec.bind_error rfl

theorem bkey_pending (en : (s1.port (portOf x)).en = true) (sec : (s1.port (portOf x)).sec = true)
    (key : (s1.port (portOf x)).pkey.isSome = true) : Traps .portKey x (.bkey x) s s0 (s1.ipTrap Code.busEpoch 5) := by
  refine traps_of_body rfl ((Exec.bind_ok ha).trans ?_)
  rw [bind_getState, if_neg (by simp [en]), if_neg (by simp [sec]), if_pos key]
  exact Exec.bind_error rfl

theorem bkey_refused (en : (s1.port (portOf x)).en = true) (sec : (s1.port (portOf x)).sec = true)
    (key : (s1.port (portOf x)).pkey = none)
    (held : s1.handleKey (a.toNat % 2 ^ 32) (portOf x) ((s1.port (portOf x)).epoch + 1) = none) :
    Traps .portKey x (.bkey x) s s0 (s1.ipTrap Code.busEpoch 4) := by
  refine traps_of_body rfl ((Exec.bind_ok ha).trans ?_)
  rw [bind_getState, if_neg (by simp [en]), if_neg (by simp [sec]), if_neg (by simp [key])]
  simp only [held]
  rfl

theorem bkey_does {k : PortKey} (en : (s1.port (portOf x)).en = true) (sec : (s1.port (portOf x)).sec = true)
    (key : (s1.port (portOf x)).pkey = none)
    (held : s1.handleKey (a.toNat % 2 ^ 32) (portOf x) ((s1.port (portOf x)).epoch + 1) = some k) :
    Does .portKey x (.bkey x) s s0
      ((s1.setPort (portOf x) { s1.port (portOf x) with pkey := some k }).useHandle (a.toNat % 2 ^ 32)) := by
  refine does_of_body rfl ((Exec.bind_ok ha).trans ?_)
  rw [bind_getState, if_neg (by simp [en]), if_neg (by simp [sec]), if_neg (by simp [key])]
  simp only [held]
  rfl

end Key

section Enrol
variable {x : Ops} {s s0 s1 s2 : State} {a : Word} {bs : List Byte} (ha : readA x s0 = .ok (a, s1))
include ha

theorem benrol_done {k : Option PortKey} (e : (s1.port (portOf x)).enrol = some (s1.curTile, [], k)) :
    Does .portKey x (.benrol x) s s0 (s1.setPort (portOf x) { s1.port (portOf x) with enrol := none }) := by
  refine does_of_body rfl ((Exec.bind_ok ha).trans ?_)
  rw [bind_getState]
  simp only [e, Option.filter, BEq.rfl, if_true]
  rfl

theorem benrol_refused {v : Word} {k : Option PortKey} (e : (s1.port (portOf x)).enrol = some (s1.curTile, [v], k)) :
    Traps .portKey x (.benrol x) s s0 (s1.ipTrap Code.busRoster 6) := by
  refine traps_of_body rfl ((Exec.bind_ok ha).trans ?_)
  rw [bind_getState]
  simp only [e, Option.filter, BEq.rfl, if_true]
  rfl

variable (e : (s1.port (portOf x)).enrol = none) (hl : readLocal a 64 s1 = .ok (bs, s2)) (en : (s1.port (portOf x)).en = false)
include e hl en

theorem benrol_invalid (bad : enrolBad (portOf x) (wordsOf bs) = true) :
    Traps .portKey x (.benrol x) s s0 (s2.ipTrap Code.busRoster 7) := by
  refine traps_of_body rfl ((Exec.bind_ok ha).trans ?_)
  rw [bind_getState]
  simp only [e, Option.filter_none]
  refine (Exec.bind_ok hl).trans ?_
  rw [if_neg (by simp [en]), if_pos bad]
  exact Exec.bind_error rfl

variable (good : enrolBad (portOf x) (wordsOf bs) = false)
include good

theorem benrol_refusedKey (sec : (wd (wordsOf bs) 0).getLsbD 62 = true)
    (key : s2.handleKey (Word.bits (wd (wordsOf bs) 1) 0 32) (portOf x) (BitVec.ofNat 32 (Word.bits (wd (wordsOf bs) 0) 0 32)) = none) :
    Traps .portKey x (.benrol x) s s0 (s2.ipTrap Code.busEpoch 4) := by
  have own : s1.OwnCore s2 := ownCore_issuing.readLocal _ _ _ hl
  rw [own.handleKey] at key
  refine traps_of_body rfl ((Exec.bind_ok ha).trans ?_)
  rw [bind_getState]
  simp only [e, Option.filter_none]
  refine (Exec.bind_ok hl).trans ?_
  rw [if_neg (by simp [en]), if_neg (Bool.eq_false_iff.mp good), if_pos ⟨sec, by rw [key]; rfl⟩]
  exact Exec.bind_error rfl

theorem benrol_secured {k : PortKey} (sec : (wd (wordsOf bs) 0).getLsbD 62 = true)
    (key : s2.handleKey (Word.bits (wd (wordsOf bs) 1) 0 32) (portOf x) (BitVec.ofNat 32 (Word.bits (wd (wordsOf bs) 0) 0 32)) =
      some k) :
    Waits .portKey x (.benrol x) s s0 (fun u =>
      let v := (u.setPort (portOf x) { u.port (portOf x) with
        enrol := some (u.curTile, wordsOf bs, some k), trim := u.trims.getD (portOf x).toNat 0 }).useHandle
          (Word.bits (wd (wordsOf bs) 1) 0 32)
      v.setMe { v.me with stalled := true }) := by
  have own : s1.OwnCore s2 := ownCore_issuing.readLocal _ _ _ hl
  rw [own.handleKey] at key
  refine waits_of_body rfl ((Exec.bind_ok ha).trans ?_)
  rw [bind_getState]
  simp only [e, Option.filter_none]
  refine (Exec.bind_ok hl).trans ?_
  rw [if_neg (by simp [en]), if_neg (Bool.eq_false_iff.mp good), if_neg (by rw [key]; simp)]
  simp only [sec, key, if_true]
  rfl

theorem benrol_open (sec : (wd (wordsOf bs) 0).getLsbD 62 = false) :
    Waits .portKey x (.benrol x) s s0 (fun u =>
      let v := u.setPort (portOf x) { u.port (portOf x) with
        enrol := some (u.curTile, wordsOf bs, none), trim := u.trims.getD (portOf x).toNat 0 }
      v.setMe { v.me with stalled := true }) := by
  refine waits_of_body rfl ((Exec.bind_ok ha).trans ?_)
  rw [bind_getState]
  simp only [e, Option.filter_none]
  refine (Exec.bind_ok hl).trans ?_
  rw [if_neg (by simp [en]), if_neg (Bool.eq_false_iff.mp good), if_neg (by rw [sec]; simp)]
  simp only [sec, Bool.false_eq_true, if_false]
  rfl

end Enrol

section Leave
variable {x : Ops} {s s0 : State}

/-- The number of the first exchange that stands behind a BLEAVE. -/
abbrev leaveBound (s : State) (port : Bool) : Nat := ((s.port port).leaving.map (·.2)).getD s.nextExch

theorem bleave_does (h : (s0.port (portOf x)).queue.any (fun e => decide (e.id < leaveBound s0 (portOf x))) = false) :
    Does .portKey x (.bleave x) s s0 (s0.leaveSegment (portOf x)) := by
  refine does_of_body rfl ?_
  rw [bind_getState, if_neg (Bool.eq_false_iff.mp h)]
  rfl

theorem bleave_waits (h : (s0.port (portOf x)).queue.any (fun e => decide (e.id < leaveBound s0 (portOf x))) = true) :
    Waits .portKey x (.bleave x) s s0 (fun u =>
      let v := u.setPort (portOf x) { u.port (portOf x) with
        leaving := some ((u.port (portOf x)).leaving.getD (u.curTile, u.nextExch)) }
      v.setMe { v.me with stalled := true }) := by
  refine waits_of_body rfl ?_
  rw [bind_getState, if_pos h]
  exact Exec.bind_error rfl

theorem leaveSegment_clears {s : State} {port : Bool} (h : (s.port port).queue = []) :
    ((s.leaveSegment port).port port).en = false ∧ ((s.leaveSegment port).port port).key = none := by
  simp only [State.leaveSegment, h, List.foldl_nil, State.port_setPort_same]
  exact ⟨rfl, rfl⟩

end Leave

/-- Settles O42: each entry by the ways its effect ends, the exchanges by the checks that they pass. -/
theorem mediumInstructions : Obligations.MediumInstructions := by
  unfold Obligations.MediumInstructions
  refine ⟨fun i x opc s s0 s1 s2 u a bs row ha hd => ?_,
    fun x s s0 => ⟨barr_traps, barr_does, bwait_does, bwait_waits, fun s1 hw => does_of_body rfl hw⟩,
    fun x s s0 s1 s2 s3 k ha => ⟨bchk_traps ha, bchk_waits ha, fun p h hr => bchk_bad ha h hr, bchk_does ha⟩,
    fun x s s0 s1 a ha => ⟨bkey_closed ha, bkey_unsecured ha, bkey_pending ha, bkey_refused ha, fun k => bkey_does ha⟩,
    fun x s s0 s1 a ha => ⟨fun k => benrol_done ha, fun w k => benrol_refused ha, fun s2 bs e hl en => benrol_invalid ha e hl en,
      fun s2 bs e hl en good sec => ⟨benrol_refusedKey ha e hl en good sec, fun k => benrol_secured ha e hl en good sec⟩,
      fun s2 bs e hl en good => benrol_open ha e hl en good⟩,
    fun x s s0 => ⟨bleave_does, bleave_waits, leaveSegment_clears⟩⟩
  have run := exec_exchangeRow row s
  refine ⟨fun f hf => traps_of_body run (exchangeBody_fault ha hd hf), fun hf =>
    ⟨fun en => traps_of_body run (exchangeBody_closed ha hd hf en),
      fun en limit wset trunk sec checks clash room hi => does_of_body run ?_ hi,
      fun en limit wset trunk sec mode key checks clash room hi => does_of_body run ?_ hi⟩⟩
  · exact exchangeBody_passes ha hd (exchange_trial hi ha hd) hf en limit wset trunk (fun h => absurd (sec.symm.trans h) nofun)
      checks clash room
  · exact exchangeBody_passes ha hd (exchange_trial hi ha hd) hf en limit wset trunk (fun _ => ⟨mode, key⟩) checks clash room

end Sys2Proof.Claims
end

section
/-!
SUPPORT, of O43. The light of an element (R154, R157, R158): what the bits of one value weigh, and what the counts of all its writers add
up to.
-/
namespace Sys2Proof.Machine
open Sys2Proof.Claims

/-- Bit `j` of a value of `w` bits, as a count. -/
def bitOf (w j : Nat) (v : Int) : Nat := ((v % 2 ^ w).toNat.testBit j).toNat

theorem lightAt_cons (w j : Nat) (v : Int) (vs : List Int) : lightAt w (v :: vs) j = lightAt w vs j + bitOf w j v := by
  rw [lightAt, List.countP_cons]
  cases h : (v % 2 ^ w).toNat.testBit j <;> simp [lightAt, bitOf, h]

/-- The low bits of a number, each with the weight of its place. -/
theorem sum_testBit (x w : Nat) : ((List.range w).map (fun j => (2 ^ j : Int) * ((x.testBit j).toNat : Int))).sum = (x % 2 ^ w : Nat) := by
  induction w with
  | zero => simp [Nat.mod_one]
  | succ w ih =>
    rw [List.sum_range_succ, ih, Nat.mod_pow_succ, Nat.toNat_testBit]
    push_cast
    rfl

/-- An unsigned value of `w` bits is the sum of its bits. -/
theorem sum_bitOf_unsigned {w : Nat} {v : Int} (lo : 0 ≤ v) (hi : v < 2 ^ w) :
    ((List.range w).map (fun j => (2 ^ j : Int) * (bitOf w j v : Int))).sum = v := by
  have own : v % 2 ^ w = v := Int.emod_eq_of_lt lo hi
  unfold bitOf
  rw [sum_testBit, own, Nat.mod_eq_of_lt (by zify; omega)]
  omega

/-- A signed value is the sum of its bits, of which the highest counts negative. -/
theorem sum_bitOf_signed {n : Nat} {v : Int} (lo : -(2 ^ n) ≤ v) (hi : v < 2 ^ n) :
    ((List.range n).map (fun j => (2 ^ j : Int) * (bitOf (n + 1) j v : Int))).sum + -(2 ^ n) * (bitOf (n + 1) n v : Int) = v := by
  have pow : (2 : Int) ^ (n + 1) = 2 ^ n + 2 ^ n := by omega
  unfold bitOf
  rw [sum_testBit]
  obtain neg | pos := lt_or_ge v 0
  · obtain ⟨r, hr⟩ := Int.eq_ofNat_of_zero_le (show 0 ≤ v + 2 ^ n by omega)
    have small : r < 2 ^ n := by zify; omega
    have residue : (v % 2 ^ (n + 1)).toNat = 2 ^ n + r := by
      rw [← Int.add_emod_right, Int.emod_eq_of_lt (by omega) (by omega), show v + 2 ^ (n + 1) = ((2 ^ n + r : Nat) : Int) by
        push_cast; omega, Int.toNat_natCast]
    rw [residue, Nat.testBit_two_pow_add_eq, Nat.testBit_lt_two_pow small, Nat.add_mod_left, Nat.mod_eq_of_lt small]
    simp only [Bool.not_false, Bool.toNat_true, Nat.cast_one]
    omega
  · obtain ⟨r, rfl⟩ := Int.eq_ofNat_of_zero_le pos
    have small : r < 2 ^ n := by zify; omega
    rw [Int.emod_eq_of_lt pos (by omega), Int.toNat_natCast, Nat.testBit_lt_two_pow small, Nat.mod_eq_of_lt small]
    simp

/-- The weights of the planes of a sum that travels as it is add the bits of a value up to it (R154). -/
theorem sum_weight_bitOf {p : Pass} (sum : p.kind = .sum) (plain : p.cl = 0) (wide : 0 < p.w) {v : Int}
    (range : if p.sgn then -(2 ^ (p.w - 1)) ≤ v ∧ v < 2 ^ (p.w - 1) else 0 ≤ v ∧ v < 2 ^ p.w) :
    ((List.range p.w).map (fun j => p.weight j * (bitOf p.w j v : Int))).sum = v := by
  cases sgn : p.sgn with
  | false =>
    rw [sgn, if_neg Bool.false_ne_true] at range
    refine Eq.trans ?_ (sum_bitOf_unsigned range.1 range.2)
    simp [Pass.weight, sum, sgn]
  | true =>
    rw [sgn, if_pos rfl] at range
    obtain ⟨n, hn⟩ : ∃ n, p.w = n + 1 := ⟨p.w - 1, by omega⟩
    rw [hn, Nat.add_sub_cancel] at range
    have top : p.weight n = -(2 ^ n) := by simp [Pass.weight, sum, plain, sgn, hn]
    have below : ∀ j ∈ List.range n, p.weight j = 2 ^ j := fun j hj => by
      have : j ≠ n := by simp at hj; omega
      simp [Pass.weight, sum, hn, this]
    refine Eq.trans ?_ (sum_bitOf_signed range.1 range.2)
    rw [hn, List.sum_range_succ, top, List.map_congr_left fun j hj => by rw [below j hj]]

/-- The counts of the light of all writers add up to their values. -/
theorem sum_weight_lightAt {p : Pass} (sum : p.kind = .sum) (plain : p.cl = 0) (wide : 0 < p.w) {vs : List Int}
    (range : ∀ v ∈ vs, if p.sgn then -(2 ^ (p.w - 1)) ≤ v ∧ v < 2 ^ (p.w - 1) else 0 ≤ v ∧ v < 2 ^ p.w) :
    ((List.range p.w).map (fun j => p.weight j * (lightAt p.w vs j : Int))).sum = vs.sum := by
  induction vs with
  | nil => simp [lightAt]
  | cons v vs ih =>
    have first := sum_weight_bitOf sum plain wide (range v (.head _))
    have rest := ih fun u hu => range u (.tail _ hu)
    rw [List.sum_cons, add_comm, ← rest]
    conv_rhs => rw [← first]
    rw [← List.sum_map_add]
    simp only [lightAt_cons, Nat.cast_add, mul_add]

/-- A fold that adds is a sum. -/
theorem foldl_add_eq_sum (f : Nat → Int) (ns : List Nat) : ns.foldl (fun a j => a + f j) 0 = (ns.map f).sum := by
  rw [List.sum_eq_foldl, List.foldl_map]

/-- R154: the exact value of an element of a sum. -/
theorem valueOf_sum {e : Exch} {p : Pass} {base i : Nat} (all : Bool) {vs : List Int} (sum : p.kind = .sum) (plain : p.cl = 0)
    (wide : 0 < p.w) (lit : ∀ j, j < p.w → e.plane p base i j = lightAt p.w vs j)
    (range : ∀ v ∈ vs, if p.sgn then -(2 ^ (p.w - 1)) ≤ v ∧ v < 2 ^ (p.w - 1) else 0 ≤ v ∧ v < 2 ^ p.w) :
    e.valueOf p base i all = vs.sum := by
  have planes : p.planes = p.w := by simp [Pass.planes, sum, plain]
  have value : e.valueOf p base i all = e.weighted p base i := by simp [Exch.valueOf, sum, plain]
  rw [value, Exch.weighted, foldl_add_eq_sum, planes, ← sum_weight_lightAt sum plain wide range]
  exact congrArg List.sum (List.map_congr_left fun j hj => by rw [lit j (List.mem_range.mp hj)])

/-- A sum of powers of two over the places where a condition holds, as a natural number. -/
theorem foldl_bits (b : Nat → Bool) (w : Nat) :
    (List.range w).foldl (fun (a : Int) j => a + if b j then 2 ^ j else 0) 0 =
      (((List.range w).filter b).foldl (fun a i => a + 2 ^ i) 0 : Nat) := by
  induction w with
  | zero => rfl
  | succ w ih =>
    rw [List.range_succ, List.foldl_append, List.filter_append, List.foldl_append, List.foldl_cons, List.foldl_nil, ih]
    cases h : b w <;> simp [h]

/-- R157, R158: the result bits of an element, of which each tells of one writer (OR) or of all (ALL). -/
theorem valueOf_bits {e : Exch} {p : Pass} {base i : Nat} {all : Bool} {vs : List Int} (bits : p.kind = .bits) (plain : p.cl = 0)
    (up : p.down = false) (writers : p.writers = vs.length) (lit : ∀ j, j < p.w → e.plane p base i j = lightAt p.w vs j)
    {j : Nat} (hj : j < p.w) : (e.valueOf p base i all).toNat.testBit j =
      if all then vs.all (fun v => (v % 2 ^ p.w).toNat.testBit j) else vs.any (fun v => (v % 2 ^ p.w).toNat.testBit j) := by
  have value : e.valueOf p base i all = (List.range p.w).foldl (fun (a : Int) j => a +
      if (if all then decide (e.plane p base i j = p.writers) else decide (0 < e.plane p base i j)) then 2 ^ j else 0) 0 := by
    cases all <;> simp [Exch.valueOf, bits, plain, up]
  rw [value, foldl_bits, Int.toNat_natCast, (testBit_bitSum _ _).2, decide_eq_true hj, Bool.true_and, lit j hj, lightAt, writers]
  refine Bool.eq_iff_iff.mpr ?_
  cases all <;> simp [List.countP_eq_length, List.countP_pos_iff]

/-- A clamp between two bounds in order. -/
theorem clampI_eq {lo hi : Int} (h : lo ≤ hi) (v : Int) : clampI lo hi v = max lo (min hi v) ∧ (clampI lo hi v ≠ v ↔ v < lo ∨ hi < v) := by
  unfold clampI
  split
  · omega
  · split <;> omega

theorem intRange_le (sg : Bool) {w : Nat} : (intRange sg w).1 ≤ (intRange sg w).2 := by
  have one : ∀ n, 1 ≤ 2 ^ n := fun n => Nat.one_le_two_pow
  have half := one (w - 1)
  have whole := one w
  cases sg <;> simp only [intRange, Bool.false_eq_true, if_false, if_true] <;> omega

/-- R154: a result type clamps an exact sum once. -/
theorem sumBytes_clamps (rt : Nat) (v : Int) :
    let w := 8 * rtSize rt
    let lo := (intRange (decide (rt < 3)) w).1
    let hi := (intRange (decide (rt < 3)) w).2
    (sumBytes rt v).1 = toBytes (rtSize rt) (max lo (min hi v) % 2 ^ w).toNat ∧ ((sumBytes rt v).2 = true ↔ (v < lo ∨ hi < v)) := by
  intro w lo hi
  obtain ⟨same, off⟩ := clampI_eq (intRange_le (decide (rt < 3)) (w := w)) v
  rw [← same, ← off]
  simp only [sumBytes, bne_iff_ne]
  exact ⟨rfl, .rfl⟩

end Sys2Proof.Machine
end

section
/-!
SUPPORT, of O43. The frames of a port and the end of its head exchange, by their cases (R142, R146, R159, R162, R340).
-/
namespace Sys2Proof.Machine

@[simp] theorem State.setPort_setPort (s : State) (port : Bool) (p q : Port) : (s.setPort port p).setPort port q = s.setPort port q := by
  simp [State.setPort]

/-- A port's frame has begun: it shows a light until the frame's own is known. -/
def State.begun (s : State) (port : Bool) (l : Lit) : State :=
  s.setPort port { s.port port with frameAt := some s.gtc, lit := l }

section Frame
variable {s : State} {port : Bool} {f : Frame}

/-- No frame begins now, or it has begun before. -/
theorem mediumFrame_stays (h : s.gtc % 65 ≠ 0 ∨ (s.port port).frameAt = some s.gtc) : s.mediumFrame port f = s := by
  unfold State.mediumFrame
  exact if_pos h

variable (tick : s.gtc % 65 = 0) (first : (s.port port).frameAt ≠ some s.gtc)
include tick first

theorem mediumFrame_dark (idle : (s.port port).enrol = none) (out : (s.port port).en = false) :
    s.mediumFrame port f = s.begun port Lit.dark := by
  unfold State.mediumFrame
  rw [if_neg (by simp [tick, first])]
  simp only [State.begun, idle, Option.filter_none]
  exact if_pos (.inl (by rw [out]; rfl))

theorem mediumFrame_enrols {t : Nat} {w : List Word} {key : Option PortKey} (e : (s.port port).enrol = some (t, w, key))
    (block : w.length = 8) : s.mediumFrame port f = (s.begun port { Lit.dark with armed := true }).enrolFrame port t w key f := by
  unfold State.mediumFrame
  rw [if_neg (by simp [tick, first])]
  simp only [State.begun, e, Option.filter, block, BEq.rfl, if_true, State.setPort_setPort]

theorem mediumFrame_enrolled (idle : (s.port port).enrol = none) (en : (s.port port).en = true) (runs : (s.port port).st ≠ 4) :
    s.mediumFrame port f = (s.begun port Lit.dark).enrolledFrame port f := by
  unfold State.mediumFrame
  rw [if_neg (by simp [tick, first])]
  simp only [State.begun, idle, Option.filter_none]
  exact if_neg (by simp [en, runs])

end Frame

/-- The frame of an enrolled port that no rekey changes and no judgement stops (R147, R159, R161, R162). -/
theorem enrolledFrame_sends {s : State} {port : Bool} {f : Frame} :
    let v := s.rearm port
    let p := (v.port port).makeReady
    let u := (v.setPort port { p with lit := p.light (v.trunkLim port) }).judge port f
    p.ready = false → (u.port port).st ≠ 4 → s.enrolledFrame port f =
      (((((u.keeperLight port).aborts port f).rekeyClash port f).sigClash port f).sendPeriod port f).rearm port := by
  intro v p u ready runs
  unfold State.enrolledFrame
  have same : ¬ (p.ready = true ∧ (f.rekey1.toNat &&& f.rekey2.toNat &&& p.roster) = p.roster) := by simp [ready]
  dsimp only
  rw [if_neg same]
  exact if_neg runs

section Own
variable {s : State}

/-- The frame that a port runs by itself, with open light. -/
abbrev State.ownFrame (s : State) (port : Bool) : State := { s.mediumFrame port (openFrame s.free) with free := s.free + 1 }

theorem ownFrames_none (first : s.frameOwed false = false) (second : s.frameOwed true = false) : s.ownFrames = s := by
  simp [State.ownFrames, first, second]

theorem ownFrames_first (first : s.frameOwed false = true) (second : (s.ownFrame false).frameOwed true = false) :
    s.ownFrames = s.ownFrame false := by
  simp only [State.ownFrames, List.foldl_cons, List.foldl_nil, first, second, Bool.false_eq_true, if_true, if_false]

theorem ownFrames_both (first : s.frameOwed false = true) (second : (s.ownFrame false).frameOwed true = true) :
    s.ownFrames = (s.ownFrame false).ownFrame true := by
  simp only [State.ownFrames, List.foldl_cons, List.foldl_nil, first, second, if_true]

end Own

/-- The pilot slots of a member of a roster of at most 32 (R148). -/
theorem mem_pilotSlots {p : Port} (h : p.myix < 32) (t : Nat) : t ∈ p.pilotSlots ↔ t < 4096 ∧ t % 32 = p.myix := by
  rw [Port.pilotSlots, List.mem_map]
  constructor
  · rintro ⟨i, hi, rfl⟩
    have := List.mem_range.mp hi
    omega
  · rintro ⟨ht, hr⟩
    exact ⟨t / 32, List.mem_range.mpr (by omega), by omega⟩

/-- The keeper alone shows a period number and a signature (R147). -/
theorem light_keeper (p : Port) (tl : Nat) : (p.light tl).keeper.isSome = true ↔ p.myix = 0 := by
  by_cases h : p.myix = 0 <;> simp [Port.light, h]

/-- The first sending of a period on an unsecured port (R159, R161, R167). -/
theorem sendPeriod_first {s : State} {port : Bool} {f : Frame} {e : Exch} (cur : (s.port port).cur (s.trunkLim port) = some e)
    (goes : (e.armed && e.sendable (s.port port) && (s.port port).pilotFull f) = true) (new : smFind e.nums e.next = none)
    (unsec : (s.port port).sec = false) (good : s.badBytes (e.reads (s.port port)) = none) :
    let p := s.port port
    let q := (s.sendPeriod port f).port port
    let bits := s.lit e p (s.trunkLim port) e.next p.pnum
    q.pnum = p.pnum + 1 ∧ q.plast = p.pnum ∧ q.sent.headD (0, []) = (p.pnum.toNat, bits) ∧
    q.lit.bits = (if f.p = p.pnum then bits else []) ∧ q.flight.length = p.flight.length + 1 := by
  intro p q bits
  have number : p.nextNum e = p.pnum.toNat := by rw [Port.nextNum, new, Option.getD_none]
  have kept : p.sent.find? (fun x => (smFind e.nums e.next).isSome && x.1 == p.nextNum e) = none := by simp [new]
  obtain ⟨u, r, sends, pnum, plast, sent, lit, flight⟩ : ∃ u r, s.sendPeriod port f = State.setPort u port r ∧ r.pnum = p.pnum + 1 ∧
      r.plast = p.pnum ∧ r.sent.headD (0, []) = (p.pnum.toNat, bits) ∧ r.lit.bits = (if f.p = p.pnum then bits else []) ∧
      r.flight.length = p.flight.length + 1 := by
    unfold State.sendPeriod
    simp only [cur]
    rw [if_neg (by simp [goes]), if_neg (by simp [unsec])]
    simp only [good]
    refine ⟨_, _, rfl, ?_⟩
    dsimp only
    rw [kept, number, new, BitVec.ofNat_toNat, BitVec.setWidth_eq]
    simp [bits, p]
  rw [show q = r by simp only [q, sends, State.port_setPort_same]]
  exact ⟨pnum, plast, sent, lit, flight⟩

section Complete
variable {s : State} {port : Bool} {other : Bool × List Nat}

theorem exchangeDone_empty (h : (s.port port).queue = []) : s.exchangeDone port other = s := by
  simp only [State.exchangeDone, h]

variable {e : Exch} {rest : List Exch} (head : (s.port port).queue = e :: rest) (period : e.noPeriod = false)
  (en : (s.port port).en = true) (own : e.trunkOf = none) (passed : e.total (s.port port) (s.trunkLim port) ≤ e.passed)
include head period en own passed

theorem exchangeDone_barrier (barr : e.barr = true) :
    s.exchangeDone port other = ((s.dropExch port e).exchSignal e 0).rearm port := by
  unfold State.exchangeDone
  simp only [head]
  rw [if_neg (by simp [period, en, passed])]
  simp only [own, barr, if_true]

theorem exchangeDone_results (barr : e.barr = false) :
    let o := e.out (s.port port) (s.trunkLim port) other
    let put := fun (u : State) (a : Word) (bs : List Byte) => u.commitBytes e.t none 0 (tileKey e.t 2 (bufOfs a)) bs
    s.exchangeDone port other =
      (((put (put (put s (dRaddr e.desc) o.res) (dYaddr e.desc) o.ybytes) (dKaddr e.desc) (e.record 0 0 o.sat)).dropExch
          port e).exchSignal e o.flags).rearm port := by
  unfold State.exchangeDone
  simp only [head]
  rw [if_neg (by simp [period, en, passed])]
  simp only [own, barr, Bool.false_eq_true, if_false]

end Complete

end Sys2Proof.Machine
end

section
/-!
SUPPORT, of O43. Its clauses, put together.
-/
namespace Sys2Proof.Claims
open Sys2Proof Sys2Proof.Machine

/-- Settles O43: the light of an element by the bits of its writers' values, then the frames and the end of the head exchange by their
cases. -/
theorem mediumAddsExactly : Obligations.MediumAddsExactly := by
  unfold Obligations.MediumAddsExactly
  refine ⟨fun e p base i all vs => valueOf_sum all, fun e p base i all vs bits plain up writers lit j => valueOf_bits bits plain up writers lit,
    sumBytes_clamps, fun s port f h => congrArg Host.Outcome.next (mediumFrame_stays h), fun s port f tick first => ⟨fun idle out => ?_,
      fun t w key e block => ?_, fun idle en runs => ?_⟩,
    fun s => ownFrames_none, fun s first => ⟨ownFrames_first first, ownFrames_both first⟩,
    fun p tl t h => ⟨mem_pilotSlots h t, light_keeper p tl⟩, fun s port f e => sendPeriod_first,
    fun s port inexact clamped h => congrArg Host.Outcome.next (exchangeDone_empty h),
    fun s port inexact clamped e rest head period en own passed => ⟨fun barr => ?_, fun barr => ?_⟩⟩
  · exact congrArg Host.Outcome.next (mediumFrame_dark tick first idle out)
  · exact congrArg Host.Outcome.next (mediumFrame_enrols tick first e block)
  · intro v p u ready stays
    exact congrArg Host.Outcome.next ((mediumFrame_enrolled tick first idle en runs).trans (enrolledFrame_sends ready stays))
  · exact congrArg Host.Outcome.next (exchangeDone_barrier head period en own passed barr)
  · exact congrArg Host.Outcome.next (exchangeDone_results head period en own passed barr)

end Sys2Proof.Claims
end

section
/-!
SUPPORT, of O49 and O51. The books of the command processors: what reads or writes global memory, records a check or puts a watch on a
tile leaves the jobs, launches, graph runs and queues as they are.
-/
namespace Sys2Proof.Machine

/-- The books of the command processors: jobs, launches, graph runs and queues. -/
def State.books (s : State) : List Job × List Launch × List Run × SMap Queue := (s.jobs, s.launches, s.runs, s.queues)

theorem State.jobs_of_books {s u : State} (h : u.books = s.books) : u.jobs = s.jobs := congrArg Prod.fst h

theorem State.launches_of_books {s u : State} (h : u.books = s.books) : u.launches = s.launches := congrArg (fun b => b.2.1) h

theorem State.launch_of_books {s u : State} (h : u.books = s.books) (id : Nat) : u.launch? id = s.launch? id := by
  rw [State.launch?, State.launches_of_books h, State.launch?]

theorem books_ite {p : Prop} [Decidable p] {s t u : State} (ht : t.books = s.books) (hu : u.books = s.books) :
    (if p then t else u).books = s.books := by
  split
  · exact ht
  · exact hu

theorem books_foldl {α : Type} {f : State → α → State} (hf : ∀ s a, (f s a).books = s.books) (l : List α) (s : State) :
    (l.foldl f s).books = s.books :=
  List.foldlRecOn (motive := fun (u : State) => u.books = s.books) l f rfl fun u h a _ => (hf u a).trans h

theorem books_foldlM {α β ε : Type} {f : β × State → α → Except ε (β × State)} {l : List α} {p q : β × State}
    (hf : ∀ p a q, f p a = .ok q → q.2.books = p.2.books) (h : l.foldlM f p = .ok q) : q.2.books = p.2.books := by
  induction l generalizing p with
  | nil =>
    cases h
    rfl
  | cons a l ih =>
    rw [List.foldlM_cons] at h
    cases hr : f p a with
    | error e =>
      rw [hr] at h
      cases h
    | ok r =>
      rw [hr] at h
      exact (ih h).trans (hf p a r hr)

theorem State.updTile_books (s : State) (t : Nat) (f : Tile → Tile) : (s.updTile t f).books = s.books := rfl

theorem State.conflict_books (s : State) (ls : List Nat) : (s.conflict ls).books = s.books := rfl

theorem State.pokeBytes_books (s : State) (kn key : Nat) (bs : List Byte) : (s.pokeBytes kn key bs).books = s.books := rfl

theorem State.raiseIrq_books (s : State) (f v : Nat) : (s.raiseIrq f v).books = s.books := books_ite rfl rfl

theorem State.logCheck_books (s : State) (t : Nat) (code : Byte) (cfad : Word) : (s.logCheck t code cfad).books = s.books := by
  rw [State.logCheck, State.raiseIrq_books]
  rfl

theorem State.noteBad_books (s : State) (f : Byte × Nat) : (s.noteBad f).books = s.books := by
  unfold State.noteBad
  exact books_ite (State.logCheck_books ..) rfl

theorem State.track_books (s : State) (vf : Option Nat) (key : Nat) : (s.track vf key).books = s.books := by
  unfold State.track
  split
  · rfl
  · dsimp only
    split
    · refine books_ite (State.logCheck_books ..) (books_ite rfl ?_)
      exact (State.conflict_books ..).trans (State.pokeBytes_books ..)
    · rfl

theorem State.commitBytes_books (s : State) (t : Nat) (vf : Option Nat) (kn key : Nat) (bs : List Byte) :
    (s.commitBytes t vf kn key bs).books = s.books :=
  books_ite rfl ((State.track_books ..).trans (State.track_books ..))

theorem State.setAD_books (s : State) (t : Nat) (vf : Option Nat) (e : Word) (key : Nat) (write : Bool) :
    (s.setAD t vf e key write).1.books = s.books := by
  unfold State.setAD
  extract_lets bits e' key' b
  split
  · rfl
  · exact State.commitBytes_books ..

theorem State.xlateJob_books {s u : State} {j : Job} {write : Bool} {va : Nat} {p : Place}
    (h : s.xlateJob j write va = .ok (p, u)) : u.books = s.books := by
  unfold State.xlateJob at h
  dsimp only at h
  split at h
  · cases h
  · cases h
  · split at h
    · cases h
    · cases h
      exact State.setAD_books ..

theorem State.placeBytes_books (s : State) (p : Place) (n : Nat) : (s.placeBytes p n).2.books = s.books := by
  cases p <;> rfl

theorem State.gRead_books {s u : State} {j : Job} {va n : Nat} {bs : List Byte} (h : s.gRead j va n = .ok (bs, u)) :
    u.books = s.books := by
  unfold State.gRead at h
  split at h
  · cases h
  next p v walk =>
    split at h
    · cases h
    · have read : (v.placeBytes p n).2 = u := congrArg Prod.snd (Except.ok.inj h)
      exact read ▸ (State.placeBytes_books ..).trans (State.xlateJob_books walk)

theorem State.gBytes_books {s u : State} {j : Job} {va n : Nat} {bs : List Byte} (h : s.gBytes j va n = .ok (bs, u)) :
    u.books = s.books := by
  unfold State.gBytes at h
  refine books_foldlM (q := (bs, u)) (fun p a q hq => ?_) h
  dsimp only at hq
  split at hq
  · cases hq
  next read =>
    cases hq
    exact State.gRead_books read

theorem State.placeWrite_books (s : State) (t : Nat) (vf : Option Nat) (p : Place) (bs : List Byte) :
    (s.placeWrite t vf p bs).books = s.books := by
  cases p with
  | mem key kn uc => exact State.commitBytes_books ..
  | host a => rfl
  | remote pkg pa => rfl

theorem State.gPut_books (s : State) (j : Job) (va : Nat) (bs : List Byte) : (s.gPut j va bs).books = s.books := by
  unfold State.gPut State.gWrite
  cases h : s.xlateJob j true va with
  | error f => exact State.noteBad_books ..
  | ok r => exact (State.placeWrite_books ..).trans (State.xlateJob_books h)

theorem State.launchCounts_books (s : State) (l : Launch) : (s.launchCounts l).books = s.books := by
  unfold State.launchCounts
  split
  · exact State.gPut_books ..
  · rfl

theorem State.launchState_books (s : State) (l : Launch) : (s.launchState l).books = s.books := by
  unfold State.launchState
  split
  · exact State.gPut_books ..
  · rfl

/-! The row save engine's spills, and the placing of a watch. -/

theorem State.mapPages_books {xl : State → Nat → Except (Byte × Nat) (Place × State)}
    (hxl : ∀ {s va p u}, xl s va = .ok (p, u) → u.books = s.books) {vas : List Nat} {s u : State} {m : SMap (Nat × Nat)}
    (h : State.mapPages xl vas s = .ok (m, u)) : u.books = s.books := by
  induction vas generalizing s m with
  | nil =>
    cases h
    rfl
  | cons va vas ih =>
    unfold State.mapPages at h
    split at h
    · cases h
    next walk =>
      dsimp only at h
      split at h
      · cases h
      next rest =>
        cases h
        exact (ih rest).trans (hxl walk)

theorem State.recordPages_books {s u : State} {j : Job} {base k : Nat} {write : Bool} {m : SMap (Nat × Nat)}
    (h : s.recordPages j base k write = some (m, u)) : u.books = s.books := by
  rw [State.recordPages_def] at h
  beta_reduce at h
  split at h
  next walk =>
    cases h
    exact State.mapPages_books State.xlateJob_books walk
  · cases h

theorem State.spillRun_books (s : State) (t k : Nat) (w : Word) {put : State → Place → List Byte → State}
    (hput : ∀ s p bs, (put s p bs).books = s.books) (dataAt : Nat → Place) (wordAt : Place) :
    (s.spillRun t k w put dataAt wordAt).books = s.books := by
  have written := (hput ((recordPieces.foldl (fun v o => put v (dataAt o) (((s.asBlock t k).drop o).take 64)) s)) wordAt
    (toBytes 8 (accWord (accTag w) (accStatus ((s.tile t).block k)) (accR w) (accSh w) (accMode w)).toNat)).trans
      (books_foldl (fun _ _ => hput ..) recordPieces s)
  exact books_ite written written

theorem State.lazySpill_books {s u : State} {t k : Nat} (h : s.lazySpill t k = some u) : u.books = s.books := by
  -- a name for `pagePlace`, so that the kernel does not evaluate the pages' places
  obtain ⟨place, hplace⟩ : ∃ f, f = pagePlace := ⟨_, rfl⟩
  unfold State.lazySpill at h
  rw [← hplace] at h
  extract_lets k' at h
  obtain ⟨_, -, h⟩ := Option.bind_eq_some_iff.mp h
  obtain ⟨j, -, h⟩ := Option.bind_eq_some_iff.mp h
  obtain ⟨⟨pages, v⟩, walk, h⟩ := Option.bind_eq_some_iff.mp h
  dsimp -zeta only at h
  cases h
  refine ((State.updTile_books ..).trans ?_).trans (State.recordPages_books walk)
  exact State.spillRun_books v t _ _ (fun _ _ _ => State.placeWrite_books ..) _ _

theorem State.engineSpill_books (s : State) (t k : Nat) : (s.engineSpill t k).books = s.books := by
  unfold State.engineSpill
  split
  · exact State.logCheck_books ..
  · cases spill : s.lazySpill t k with
    | some u => exact State.lazySpill_books spill
    | none =>
      cases s.spillFault t k with
      | none => rfl
      | some f => exact State.noteBad_books ..

theorem State.spillOwn_books (s : State) (t jid vtn : Nat) : (s.spillOwn t jid vtn).books = s.books :=
  books_foldl (fun _ _ => books_ite (State.engineSpill_books ..) rfl) _ s

theorem State.wipeTile_books (s : State) (t : Nat) : (s.wipeTile t).books = s.books := rfl

theorem State.placeWatch_books (s : State) (l : Launch) (j : Job) (grid t sel : Nat) (img : List Byte) :
    (s.placeWatch l j grid t sel img).books = s.books := by
  have wiped := (State.wipeTile_books (s.spillOwn t j.jid (dVtBase l.d + grid)) t).trans (State.spillOwn_books ..)
  exact (State.commitBytes_books ..).trans wiped

end Sys2Proof.Machine
end

section
/-!
SUPPORT, of O49. The dispatch of a launch (R174): the causes that a descriptor shows, and the launch that is queued or refused.
-/
namespace Sys2Proof.Machine

theorem mem_causeIf {p : Prop} [Decidable p] {a c : Nat} : a ∈ (if p then [c] else []) ↔ p ∧ a = c := by
  split <;> simp [*]

/-- The causes of a descriptor, each with its condition. -/
theorem mem_launchCauses (s : State) (j : Job) (d : List Word) :
    ((Word.bits (wd d 0) 56 8 ≠ 1 ∨ launchRz d = true ∨ 5 < dRmode d) ↔ 1 ∈ s.launchCauses j d) ∧
    ((dGang d = 0 ∨ 16 < dGang d ∨ dTiles d = 0 ∨ 1024 < dTiles d ∨ dTiles d % dGang d ≠ 0) ↔ 2 ∈ s.launchCauses j d) ∧
    (imageBad d = true ↔ 4 ∈ s.launchCauses j d) ∧ (carveBad d = true ↔ 5 ∈ s.launchCauses j d) ∧
    ((dCydl d < 1024 ∨ 2 ^ 20 < dCydl d) ↔ 6 ∈ s.launchCauses j d) ∧
    ((dFixed d = true ∧ dGang d ≠ 0 ∧ ∃ g, g < dTiles d / dGang d ∧
      ((dBase d + g * dGang d) / 16 ≠ (dBase d + g * dGang d + dGang d - 1) / 16 ∨
        0x3FF < dBase d + g * dGang d + dGang d - 1)) ↔ 3 ∈ s.launchCauses j d) ∧
    ((4096 < dVtBase d + dTiles d ∨ ∃ l ∈ s.launches, l.jid = j.jid ∧ l.state < 2 ∧
      overlaps (dVtBase l.d) (dTiles l.d) (dVtBase d) (dTiles d) = true) ↔ 7 ∈ s.launchCauses j d) ∧
    ((j.cancelled = true ∨ j.state ≠ 1) ↔ 0x0A ∈ s.launchCauses j d) := by
  unfold State.launchCauses
  simp only [List.mem_append, mem_causeIf]
  norm_num [or_assoc, and_assoc]

/-- The least of the causes. -/
theorem foldl_min_eq {c m : Nat} {ms : List Nat} (mem : c ∈ m :: ms) (least : ∀ b ∈ m :: ms, c ≤ b) : ms.foldl Nat.min m = c := by
  have := List.min?_eq_some_iff.mpr ⟨mem, least⟩
  exact Option.some.inj (List.min?_cons'.symm.trans this)

/-- All that R174 finds against a launch: its descriptor, its selector table, and what cannot be reached. -/
def State.allCauses (u : State) (j : Job) (l : Launch) : List Nat :=
  u.launchCauses j l.d ++
    (match u.selTable j l.d with
      | .error _ => []
      | .ok (w0, _) => if dSelTab l.d ≠ 0 ∧ selBad w0 then [8] else []) ++ (u.launchFaults j l).map (fun _ => 9)

theorem mem_allCauses (u : State) (j : Job) (l : Launch) (c : Nat) : c ∈ u.allCauses j l ↔ c ∈ u.launchCauses j l.d ∨
    ((dSelTab l.d ≠ 0 ∧ ∃ p, u.selTable j l.d = .ok p ∧ selBad p.1 = true) ∧ c = 8) ∨ (u.launchFaults j l ≠ [] ∧ c = 9) := by
  have faults : c ∈ (u.launchFaults j l).map (fun _ => 9) ↔ u.launchFaults j l ≠ [] ∧ c = 9 := by
    cases u.launchFaults j l with
    | nil => simp
    | cons f fs => simp [eq_comm]
  unfold State.allCauses
  rw [List.mem_append, List.mem_append, faults, or_assoc]
  cases u.selTable j l.d with
  | error f => simp
  | ok p => simp

theorem State.noteBad_mem (s : State) (f : Byte × Nat) : (s.noteBad f).mem = s.mem := by
  unfold State.noteBad
  split
  · exact s.logCheck_mem ..
  · rfl

/-- A launch that dispatch has put into the books, with its record and the checks of its walks. -/
def State.enter (u : State) (j : Job) (l : Launch) : State :=
  (((u.launchFaults j l).foldl State.noteBad { u with launches := u.launches ++ [l] }).launchCounts l).launchState l

/-- A launch that dispatch has put into the books and refused with a cause. -/
def State.refuse (u : State) (j : Job) (l : Launch) (c : Nat) : State :=
  let y := { l with state := 3, cause := c }
  ((u.enter j l).setLaunch y).launchState y

theorem State.enter_launches (u : State) (j : Job) (l : Launch) : (u.enter j l).launches = u.launches ++ [l] := by
  unfold State.enter
  rw [State.launches_of_books ((State.launchState_books ..).trans (State.launchCounts_books ..)),
    State.launches_of_books (books_foldl State.noteBad_books ..)]

theorem State.launch_enter {u : State} (j : Job) {l : Launch} (fresh : ∀ x ∈ u.launches, x.id ≠ l.id) :
    (u.enter j l).launch? l.id = some l := by
  rw [State.launch?, State.enter_launches, List.find?_append, List.find?_eq_none.mpr (by simpa using fresh)]
  simp

theorem State.launch_refuse {u : State} (j : Job) {l : Launch} (c : Nat) (fresh : ∀ x ∈ u.launches, x.id ≠ l.id) :
    (u.refuse j l c).launch? l.id = some { l with state := 3, cause := c } :=
  (State.launch_of_books (State.launchState_books ..) _).trans (launch_setLaunch (State.launch_enter j fresh) rfl)

end Sys2Proof.Machine

namespace Sys2Proof.Claims
open Sys2Proof Sys2Proof.Machine

theorem dispatch_unread {s : State} {j : Job} {a : Nat} {f : Byte × Nat} {run : Option Nat}
    (h : State.gBytes { s with nextId := s.nextId + 1 } j a 128 = .error f) : s.dispatch j a run = (s.nextId,
      { State.noteBad { s with nextId := s.nextId + 1 } f with
        launches := s.launches ++ [{ queuedLaunch s j [] run with state := 3, cause := 9 }] }) := by
  unfold State.dispatch
  dsimp only
  rw [h]
  rfl

/-- A dispatch whose descriptor cannot be read leaves memory, and one more launch, REFUSED. -/
theorem dispatch_unread_refuses {s : State} {j : Job} {a : Nat} {f : Byte × Nat}
    (h : State.gBytes { s with nextId := s.nextId + 1 } j a 128 = .error f) :
    let u := (s.dispatch j a none).2
    u.mem = s.mem ∧ u.launches.length = s.launches.length + 1 ∧ (u.launches.getLast?.any (fun l => l.state == 3 && l.cause == 9)) = true := by
  rw [dispatch_unread h]
  exact ⟨State.noteBad_mem .., by simp, by simp⟩

/-- R174 as its clause lists the causes, and as dispatch finds them. -/
theorem mem_causes (u : State) (j : Job) (l : Launch) [Decidable (dSelTab l.d ≠ 0 ∧ ∃ p, u.selTable j l.d = .ok p ∧ selBad p.1 = true)]
    (c : Nat) : c ∈ u.launchCauses j l.d ++
      (if dSelTab l.d ≠ 0 ∧ ∃ p, u.selTable j l.d = .ok p ∧ selBad p.1 = true then [8] else []) ++
      (if u.launchFaults j l = [] then [] else [9]) ↔ c ∈ u.allCauses j l := by
  rw [mem_allCauses, List.mem_append, List.mem_append, or_assoc, mem_causeIf]
  by_cases h : u.launchFaults j l = [] <;> simp [h]

section Read
variable {s u : State} {j : Job} {a : Nat} {run : Option Nat} {bs : List Byte}
  (h : State.gBytes { s with nextId := s.nextId + 1 } j a 128 = .ok (bs, u))
include h

theorem dispatch_read : s.dispatch j a run =
    match u.allCauses j (queuedLaunch s j (wordsOf bs) run) with
    | [] => (s.nextId, u.enter j (queuedLaunch s j (wordsOf bs) run))
    | c :: cs => (s.nextId, u.refuse j (queuedLaunch s j (wordsOf bs) run) (cs.foldl Nat.min c)) := by
  unfold State.dispatch
  dsimp only
  rw [h]
  rfl

/-- A launch of a descriptor that is read is queued, or refused with the least of its causes. -/
theorem dispatch_settles (fresh : ∀ x ∈ s.launches, x.id ≠ s.nextId) {l : Launch} (hl : queuedLaunch s j (wordsOf bs) run = l) :
    let p := s.dispatch j a run
    p.1 = s.nextId ∧ (u.allCauses j l = [] → p.2.launch? p.1 = some l) ∧
      ∀ c, c ∈ u.allCauses j l → (∀ b, b ∈ u.allCauses j l → c ≤ b) → p.2.launch? p.1 = some { l with state := 3, cause := c } := by
  have id : l.id = s.nextId := by rw [← hl, queuedLaunch]
  have new : ∀ x ∈ u.launches, x.id ≠ l.id := by
    rw [State.launches_of_books (State.gBytes_books h), id]
    exact fresh
  rw [dispatch_read h, hl, ← id]
  cases u.allCauses j l with
  | nil => exact ⟨rfl, fun _ => State.launch_enter j new, fun c mem => nomatch mem⟩
  | cons m ms =>
    refine ⟨rfl, (nomatch ·), fun c mem least => ?_⟩
    rw [← foldl_min_eq mem least]
    exact State.launch_refuse j _ new

end Read

end Sys2Proof.Claims
end

section
/-!
SUPPORT, of O49. The placer (R175, R373): the tiles that fit, a launch that is placed, and a pass over the list.
-/
namespace Sys2Proof.Machine

/-! What fits. -/

/-- The next gang of a launch, behind those that have their tiles: the lowest place in one row whose tiles are all free. -/
def nextGang (free : Nat → Bool) (gang : Nat) (ts : List Nat) : Option (List Nat) :=
  ((List.range 1024).find? (fun t => t / 16 == (t + gang - 1) / 16 &&
    (List.range gang).all (fun i => free (t + i) && !ts.contains (t + i)))).map (fun t => ts ++ (List.range gang).map (t + ·))

theorem fitTiles_fixed {free : Nat → Bool} {d : List Word} (h : dFixed d = true) :
    fitTiles free d = if ((List.range (dTiles d)).map (dBase d + ·)).all free then some ((List.range (dTiles d)).map (dBase d + ·)) else none := by
  unfold fitTiles
  exact if_pos h

theorem fitTiles_gangs {free : Nat → Bool} {d : List Word} (h : dFixed d = false) : fitTiles free d =
    (List.range (dTiles d / dGang d)).foldl (fun acc _ => acc.bind (nextGang free (dGang d))) (some []) := by
  unfold fitTiles
  exact if_neg (by rw [h]; exact Bool.false_ne_true)

theorem nextGang_some {free : Nat → Bool} {gang : Nat} {ts us : List Nat} (h : nextGang free gang ts = some us) :
    us.length = ts.length + gang ∧ ((∀ t ∈ ts, free t = true) → ∀ t ∈ us, free t = true) := by
  obtain ⟨t, found, rfl⟩ := Option.map_eq_some_iff.mp h
  have fits := List.find?_some found
  simp only [Bool.and_eq_true, List.all_eq_true, List.mem_range] at fits
  refine ⟨by simp, fun old u mem => ?_⟩
  obtain mem | mem := List.mem_append.mp mem
  · exact old u mem
  · obtain ⟨i, hi, rfl⟩ := List.mem_map.mp mem
    exact (fits.2 i (List.mem_range.mp hi)).1

/-- Gangs found one after another: each adds its tiles, and all are free. -/
theorem foldl_nextGang {free : Nat → Bool} {gang : Nat} (n : Nat) {us : List Nat}
    (h : (List.range n).foldl (fun acc _ => acc.bind (nextGang free gang)) (some []) = some us) :
    us.length = n * gang ∧ ∀ t ∈ us, free t = true := by
  induction n generalizing us with
  | zero =>
    cases h
    simp
  | succ n ih =>
    rw [List.range_succ, List.foldl_append] at h
    obtain ⟨ts, before, last⟩ := Option.bind_eq_some_iff.mp h
    obtain ⟨len, all⟩ := ih before
    obtain ⟨len', all'⟩ := nextGang_some last
    exact ⟨by rw [len', len, Nat.succ_mul], all' all⟩

/-- R175: as many tiles as the launch has, all of them free, and at its base when it is fixed. -/
theorem fitTiles_some {free : Nat → Bool} {d : List Word} {ts : List Nat} (whole : dTiles d % dGang d = 0)
    (h : fitTiles free d = some ts) : ts.length = dTiles d ∧ (∀ t, t ∈ ts → free t = true) ∧
      (dFixed d = true → ts = (List.range (dTiles d)).map (dBase d + ·)) := by
  cases fixed : dFixed d with
  | true =>
    rw [fitTiles_fixed fixed] at h
    obtain ⟨all, eq⟩ := Option.ite_none_right_eq_some.mp h
    obtain rfl := Option.some.inj eq
    exact ⟨by simp, List.all_eq_true.mp all, fun _ => rfl⟩
  | false =>
    rw [fitTiles_gangs fixed] at h
    obtain ⟨len, all⟩ := foldl_nextGang _ h
    exact ⟨len.trans (Nat.div_mul_cancel (Nat.dvd_of_mod_eq_zero whole)), all, (nomatch ·)⟩

/-! What is placed. -/

/-- An event that is pended on the cores of a launch leaves its state and its tiles. -/
theorem pendGroup_launch {s : State} {l : Launch} {item : Nat} {code : Byte} (h : s.launch? l.id = some l) :
    ∃ y, (s.pendGroup l item code).launch? l.id = some y ∧ y.state = l.state ∧ y.tiles = l.tiles := by
  unfold State.pendGroup
  extract_lets add u
  have found : u.launch? l.id = some l := (State.launch_of_books (books_foldl (fun _ _ => State.updTile_books ..) _ _) _).trans h
  rw [found]
  exact ⟨_, launch_setLaunch found rfl, rfl, rfl⟩

theorem slipLate_launch {s : State} {id : Nat} {l : Launch} (h : s.launch? id = some l) :
    ∃ y, (s.slipLate id).launch? id = some y ∧ y.state = l.state ∧ y.tiles = l.tiles := by
  obtain rfl := launch_id h
  simp only [State.slipLate, h]
  split
  · split
    · exact pendGroup_launch (l := { l with grp := _ }) (launch_setLaunch h rfl)
    · exact ⟨l, h, rfl, rfl⟩
  · exact ⟨l, h, rfl, rfl⟩

/-- The first word of a launch's selector table, 0 when it cannot be read, and the check of that read. -/
def State.selWord (u : State) (j : Job) (l : Launch) : Word × State :=
  match u.selTable j l.d with
  | .ok (w0, _) => (w0, u)
  | .error f => (0, u.noteBad f)

theorem State.selWord_books (u : State) (j : Job) (l : Launch) : (u.selWord j l).2.books = u.books := by
  unfold State.selWord
  split
  · rfl
  · exact State.noteBad_books ..

/-- A launch as it is placed on tiles, by the word of its selector table and the state that word was read in. -/
def placedLaunch (w : Word × State) (l : Launch) (j : Job) (ts : List Nat) : Launch :=
  let s0 := if w.2.inSegment then j.plan.map (fun p => planBefore p l.queuedAt) else none
  let grp := if dPhg l.d then some (Group.new w.1 w.2.gtc s0) else none
  { l with state := 1, placedAt := w.2.gtc, tiles := ts, grp := grp, grp0 := grp }

/-- The state in which a launch stands on its tiles. -/
def placedState (w : Word × State) (l : Launch) (j : Job) (ts : List Nat) (img : List Byte) : State :=
  let y := placedLaunch w l j ts
  (ts.zipIdx.foldl (fun s (t, i) => s.placeWatch y j i t (Word.bits w.1 32 2) img) ((w.2.setLaunch y).launchState y)).slipLate y.id

theorem placedState_launch {w : Word × State} {l : Launch} (j : Job) (ts : List Nat) (img : List Byte) (h : w.2.launch? l.id = some l) :
    ∃ y, (placedState w l j ts img).launch? l.id = some y ∧ y.state = 1 ∧ y.tiles = ts := by
  have books := (books_foldl (fun s (p : Nat × Nat) => s.placeWatch_books (placedLaunch w l j ts) j p.2 p.1 (Word.bits w.1 32 2) img) ts.zipIdx
    ((w.2.setLaunch (placedLaunch w l j ts)).launchState (placedLaunch w l j ts))).trans (State.launchState_books ..)
  exact slipLate_launch ((State.launch_of_books books _).trans (launch_setLaunch h rfl))

section Place
variable {s : State} {l : Launch} {j : Job} (hj : s.job? l.jid = some j)
include hj

theorem placeLaunch_unfit (h : fitTiles s.tileFree l.d = none) : s.placeLaunch l = none := by
  simp only [State.placeLaunch, hj, h, Option.bind_eq_bind, Option.bind_some, Option.bind_none]

variable {ts : List Nat} (fit : fitTiles s.tileFree l.d = some ts)
include fit

theorem placeLaunch_unread {f : Byte × Nat} (h : s.gBytes j (dCodeVa l.d) (dCodeLen l.d) = .error f) :
    let y := { l with state := 3, cause := 9 }
    s.placeLaunch l = some ((((s.noteBad f).setLaunch y).launchState y).refuseRun y) := by
  simp only [State.placeLaunch, hj, fit, h, Option.bind_eq_bind, Option.bind_some]
  rfl

theorem placeLaunch_read {img : List Byte} {u : State} (h : s.gBytes j (dCodeVa l.d) (dCodeLen l.d) = .ok (img, u)) :
    let v := placedState (u.selWord j l) l j ts img
    s.placeLaunch l = some (if CoreK.all.all (fun k => !dTask l.d k) then ts.foldl (fun s t => s.watchExit t) v else v) := by
  simp only [State.placeLaunch, hj, fit, h, Option.bind_eq_bind, Option.bind_some]
  rfl

/-- A launch with a task that fits, and whose image is read, stands on its tiles. -/
theorem placeLaunch_places {img : List Byte} {u : State} (h : s.gBytes j (dCodeVa l.d) (dCodeLen l.d) = .ok (img, u))
    (hl : s.launch? l.id = some l) (task : (CoreK.all.any (fun k => dTask l.d k)) = true) :
    ∃ v y, s.placeLaunch l = some v ∧ v.launch? l.id = some y ∧ y.state = 1 ∧ y.tiles = ts := by
  obtain ⟨k, mem, has⟩ := List.any_eq_true.mp task
  have runs : ¬ CoreK.all.all (fun k => !dTask l.d k) = true := fun none => by simpa [has] using List.all_eq_true.mp none k mem
  have found : (u.selWord j l).2.launch? l.id = some l :=
    (State.launch_of_books ((State.selWord_books ..).trans (State.gBytes_books h)) _).trans hl
  obtain ⟨y, stands, state, tiles⟩ := placedState_launch j ts img found
  exact ⟨_, y, (placeLaunch_read hj fit h).trans (congrArg some (if_neg runs)), stands, state, tiles⟩

end Place

/-! What a request for tiles leaves. -/

/-- Two states with the same launches, the same memory and watches of the same launches on their tiles. -/
def SameWatches (s u : State) : Prop :=
  u.launches = s.launches ∧ u.mem = s.mem ∧ ∀ t, (u.tile t).watch.map (·.launch) = (s.tile t).watch.map (·.launch)

theorem SameWatches.refl (s : State) : SameWatches s s := ⟨rfl, rfl, fun _ => rfl⟩

theorem SameWatches.trans {s u v : State} (h : SameWatches s u) (h' : SameWatches u v) : SameWatches s v := by
  obtain ⟨launches, mem, watches⟩ := h
  obtain ⟨launches', mem', watches'⟩ := h'
  exact ⟨launches'.trans launches, mem'.trans mem, fun t => (watches' t).trans (watches t)⟩

theorem request_sameWatches (s : State) (t : Nat) : SameWatches s (s.request t) := by
  unfold State.request
  split
  · exact .refl s
  next w hw =>
    split
    · exact .refl s
    · refine ⟨rfl, rfl, fun v => ?_⟩
      by_cases here : v = t
      · subst here
        rw [State.updTile, State.tile_setTile_same, hw]
        rfl
      · rw [State.updTile, State.tile_setTile_other _ _ here]

theorem requestFor_sameWatches (s : State) (id : Nat) : SameWatches s (s.requestFor id) := by
  unfold State.requestFor
  split
  · exact .refl s
  · extract_lets going cand fits n
    split
    · exact .refl s
    · exact List.foldlRecOn (motive := SameWatches s) (cand.take n) _ (.refl s) fun u h t _ => h.trans (request_sameWatches u t)

end Sys2Proof.Machine

namespace Sys2Proof.Claims
open Sys2Proof Sys2Proof.Machine

/-- What a pass of the placer does with one entry, unless it has stopped at an aged launch. -/
def passStep (p : State × Bool) (w : Wait) : State × Bool :=
  if p.2 then (p.1, true)
  else match p.1.placeOne w with
    | some s => (s, false)
    | none => if p.1.isAged w then (p.1.requestFor w.id, true) else (p.1, false)

theorem placePass_eq (s : State) : s.placePass = (s.waits.foldl passStep (s, false)).1 := rfl

/-- A pass that has stopped does nothing more. -/
theorem foldl_passStep_stopped (s : State) (ws : List Wait) : ws.foldl passStep (s, true) = (s, true) := by
  induction ws with
  | nil => rfl
  | cons w ws ih => exact ih

theorem foldl_passStep {s u : State} {ws : List Wait} (h : Passes s ws u) : ws.foldl passStep (s, false) = (u, false) := by
  induction ws generalizing s with
  | nil => rw [show u = s from h, List.foldl_nil]
  | cons w ws ih =>
    rw [List.foldl_cons]
    obtain ⟨v, fits, rest⟩ | ⟨unfit, young, rest⟩ := h
    · rw [show passStep (s, false) w = (v, false) by simp [passStep, fits], ih rest]
    · rw [show passStep (s, false) w = (s, false) by simp [passStep, unfit, young], ih rest]

theorem placePass_passes {s u : State} (h : Passes s s.waits u) : s.placePass = u := by
  rw [placePass_eq, foldl_passStep h]

/-- R373: a pass ends at an aged launch that does not fit, with the requests for its tiles. -/
theorem placePass_stops {s u : State} {pre post : List Wait} {w : Wait} (list : s.waits = pre ++ w :: post) (h : Passes s pre u)
    (unfit : u.placeOne w = none) (aged : u.isAged w = true) : s.placePass = u.requestFor w.id := by
  have step : passStep (u, false) w = (u.requestFor w.id, true) := by simp [passStep, unfit, aged]
  rw [placePass_eq, list, List.foldl_append, foldl_passStep h, List.foldl_cons, step, foldl_passStep_stopped]

end Sys2Proof.Claims
end

section
/-!
SUPPORT, of O49. Graph runs on a node (R179, R180), and the comparators of phase groups (R374).
-/
namespace Sys2Proof.Machine

theorem onNode_gone {s : State} {r : Nat} (h : s.run? r = none) (kind : Nat) (f : State → Run → Job → List Word → State) :
    s.onNode r kind f = s := by
  simp only [State.onNode, h]

theorem onNode_over {s : State} {r : Nat} {x : Run} (hx : s.run? r = some x) (ended : x.state ≠ 1 ∨ x.cancelled = true) (kind : Nat)
    (f : State → Run → Job → List Word → State) : s.onNode r kind f = s := by
  simp only [State.onNode, hx]
  split
  · rfl
  · exact if_pos (ended.elim .inl fun h => .inr (.inl h))

section Node
variable {s u : State} {r kind : Nat} {x : Run} {j : Job} {bs : List Byte} {f : State → Run → Job → List Word → State}
  (hx : s.run? r = some x) (hj : s.job? x.jid = some j) (runs : x.state = 1) (live : x.cancelled = false) (free : s.vfHeld j = false)
  (read : s.gBytes j ((x.addr.toNat + 32 + 32 * x.node) % 2 ^ 56) 32 = .ok (bs, u))
include hx hj runs live free read

theorem onNode_read : s.onNode r kind f = if nodeBad (wordsOf bs) then u.runFault x 1
    else if Word.bits (wd (wordsOf bs) 0) 60 4 ≠ kind then u else f u x j (wordsOf bs) := by
  have on : ¬ (x.state ≠ 1 ∨ x.cancelled = true ∨ s.vfHeld j = true) := by simp [runs, live, free]
  simp only [State.onNode, hx, hj]
  rw [if_neg on]
  simp only [read]

theorem onNode_bad (bad : nodeBad (wordsOf bs) = true) : s.onNode r kind f = u.runFault x 1 := by
  rw [onNode_read hx hj runs live free read, if_pos bad]

variable (good : nodeBad (wordsOf bs) = false)
include good

theorem onNode_runs (same : Word.bits (wd (wordsOf bs) 0) 60 4 = kind) :
    s.onNode r kind f = f u x j (wordsOf bs) := by
  rw [onNode_read hx hj runs live free read, if_neg (by simp [good]), if_neg (by simp [same])]

theorem graphNodeEnd_ends (which : Word.bits (wd (wordsOf bs) 0) 60 4 = 0) (none : x.launches.any u.launchRefused = false)
    (all : x.launches.all u.launchOver = true) :
    let y := { x with state := 2, nodesRun := x.nodesRun + 1 }
    execGraphNodeEnd r s = .next ((((u.setRun y).runRecord y).jobCount j 1 0).jobSettle y.jid) := by
  unfold execGraphNodeEnd
  rw [onNode_runs hx hj runs live free read good which, if_neg (by simp [none]), if_pos all]

theorem graphNodeLaunch_goesOn (which : Word.bits (wd (wordsOf bs) 0) 60 4 = 1) (first : x.waitL = none)
    (nowait : (wd (wordsOf bs) 0).getLsbD 55 = false) {id : Nat} {w : State}
    (launch : u.dispatch j ((wd (wordsOf bs) 1).toNat % 2 ^ 56) (some x.id) = (id, w)) :
    let y := { x with launches := x.launches ++ [id], dispatched := x.dispatched + 1 }
    let v := (w.setRun y).runCounts y
    v.launchRefused id = false → execGraphNodeLaunch r s = .next (v.goOn y (afterNode y.node y.loops)) := by
  intro y v taken
  unfold execGraphNodeLaunch
  rw [onNode_runs hx hj runs live free read good which]
  dsimp only
  split
  next l waits =>
    rw [first] at waits
    cases waits
  next =>
    rw [launch]
    exact congrArg Host.Outcome.next ((if_neg (Bool.eq_false_iff.mp taken)).trans (if_neg (Bool.eq_false_iff.mp nowait)))

theorem graphNodeJoin_goesOn (which : Word.bits (wd (wordsOf bs) 0) 60 4 = 2) (none : x.launches.any u.launchRefused = false)
    (all : x.launches.all u.launchOver = true) : execGraphNodeJoin r s = .next (u.goOn x (afterNode x.node x.loops)) := by
  unfold execGraphNodeJoin
  rw [onNode_runs hx hj runs live free read good which, if_neg (by simp [none]), if_pos all]

theorem graphNodeCond_goesOn {cs : List Byte} {v : State} (which : Word.bits (wd (wordsOf bs) 0) 60 4 = 3)
    (inside : Word.bits (wd (wordsOf bs) 0) 32 12 < x.nnodes)
    (look : u.gRead j ((wd (wordsOf bs) 1).toNat % 2 ^ 56) 4 = .ok (cs, v)) :
    let n := wordsOf bs
    execGraphNodeCond r s = .next (v.goOn x
      (if relHolds (Word.bits (wd n 0) 56 4) 32 (ofBytes cs) (Word.bits (wd n 2) 0 32) then
        (Word.bits (wd n 0) 32 12, x.loops.dropWhile (fun f =>
          !(decide (f.node < Word.bits (wd n 0) 32 12) && decide (Word.bits (wd n 0) 32 12 ≤ f.bend))))
      else afterNode x.node x.loops)) := by
  intro n
  unfold execGraphNodeCond
  rw [onNode_runs hx hj runs live free read good which]
  dsimp only
  rw [if_neg (Nat.not_le.mpr inside)]
  simp only [look]
  split <;> rfl

section Loop
variable {cs : List Byte} {v : State} (which : Word.bits (wd (wordsOf bs) 0) 60 4 = 4)
  (body : x.node < Word.bits (wd (wordsOf bs) 0) 8 12) (inside : Word.bits (wd (wordsOf bs) 0) 8 12 < x.nnodes)
  (outer : x.loops = []) (look : u.gRead j ((wd (wordsOf bs) 1).toNat % 2 ^ 56) 64 = .ok (cs, v))
include which body inside outer look

/-- A LOOP node whose block is read, by the block's bit 63 and its count. -/
theorem graphNodeLoop_read :
    let c := Word.bits (wd (wordsOf cs) (1 + Word.bits (wd (wordsOf bs) 0) 0 2)) 0 32
    execGraphNodeLoop r s = .next (if !(wd (wordsOf cs) 0).getLsbD 63 then v.setRun { x with atLoop := true }
      else if c = 0 then v.goOn x (afterNode (Word.bits (wd (wordsOf bs) 0) 8 12) [])
      else v.goOn x (x.node + 1, [{ node := x.node, bend := Word.bits (wd (wordsOf bs) 0) 8 12, left := c }])) := by
  intro c
  unfold execGraphNodeLoop State.loopNode State.loopNodeBy
  rw [onNode_runs hx hj runs live free read good which]
  dsimp only
  rw [if_neg (by simp [outer]; omega)]
  simp only [look, outer]
  rfl

theorem graphNodeLoop_goesOn (full : (wd (wordsOf cs) 0).getLsbD 63 = true) :
    let c := Word.bits (wd (wordsOf cs) (1 + Word.bits (wd (wordsOf bs) 0) 0 2)) 0 32
    execGraphNodeLoop r s = .next (if c = 0 then v.goOn x (afterNode (Word.bits (wd (wordsOf bs) 0) 8 12) [])
      else v.goOn x (x.node + 1, [{ node := x.node, bend := Word.bits (wd (wordsOf bs) 0) 8 12, left := c }])) := by
  intro c
  rw [graphNodeLoop_read hx hj runs live free read good which body inside outer look, if_neg (by simp [full])]

theorem graphNodeLoop_waits (empty : (wd (wordsOf cs) 0).getLsbD 63 = false) :
    execGraphNodeLoop r s = .next (v.setRun { x with atLoop := true }) := by
  rw [graphNodeLoop_read hx hj runs live free read good which body inside outer look, empty]
  rfl

end Loop

end Node

theorem State.loopNode_onNode (s : State) (r : Nat) : ∃ f, s.loopNode r = s.onNode r 4 f := by
  unfold State.loopNode State.loopNodeBy
  exact ⟨_, rfl⟩

/-! Ticks. -/


theorem tickArm_loaded {s : State} {id : Nat} {l : Launch} {g : Group} (hl : s.launch? id = some l) (hg : l.grp = some g)
    (loaded : g.start.isSome = true) : s.tickArm id = s := by
  simp only [State.tickArm, hl, hg]
  split
  next g' p hg' hp =>
    cases hg'
    exact if_pos (.inl loaded)
  · rfl

theorem tickArm_loads {s : State} {id : Nat} {l : Launch} {g : Group} {p : List Word} (hl : s.launch? id = some l)
    (hg : l.grp = some g) (hp : s.planOf l = some p) (empty : g.start = none) (waits : g.st ≠ .late)
    (ahead : s.gtc ≤ planStart p (g.nextStart p).1 (g.nextStart p).2) :
    s.tickArm id = s.setLaunch { l with grp := some { g with
      start := some (planStart p (g.nextStart p).1 (g.nextStart p).2), come := false } } := by
  simp only [State.tickArm, hl, hg, hp]
  rw [if_neg (by simp [empty, waits]), if_neg (Nat.not_lt.mpr ahead)]

end Sys2Proof.Machine
end

section
/-!
SUPPORT, of O49. Its clauses, put together.
-/
namespace Sys2Proof.Claims
open Sys2Proof Sys2Proof.Machine

/-- A node event is the work of its kind on the run's node (R179). -/
theorem graphNode_onNode {i : Instr} {r : Nat} (h : i = .graphNodeEnd r ∨ i = .graphNodeLaunch r ∨ i = .graphNodeJoin r ∨
    i = .graphNodeCond r ∨ i = .graphNodeLoop r) (s : State) : ∃ kind f, exec i s = .next (s.onNode r kind f) := by
  obtain rfl | rfl | rfl | rfl | rfl := h
  · exact ⟨0, _, rfl⟩
  · exact ⟨1, _, rfl⟩
  · exact ⟨2, _, rfl⟩
  · exact ⟨3, _, rfl⟩
  · obtain ⟨f, eq⟩ := s.loopNode_onNode r
    exact ⟨4, f, congrArg Host.Outcome.next eq⟩

/-- Settles O49: the dispatch by what its descriptor shows, the placer by its list, and each node and each tick by its case. -/
theorem launchesAndGraphsProceed : Obligations.LaunchesAndGraphsProceed := by
  unfold Obligations.LaunchesAndGraphsProceed
  refine ⟨fun s jid a => ⟨fun h => congrArg Host.Outcome.next ?_, fun j hj => congrArg Host.Outcome.next ?_⟩,
    fun s u j a f h hu => hu ▸ dispatch_unread_refuses h, fun s j d => mem_launchCauses s j d,
    fun s u j a run bs h fresh => ?_, fun s => rfl, fun s u => placePass_passes, fun s u pre post w => placePass_stops,
    requestFor_sameWatches,
    fun s l j hj => ⟨placeLaunch_unfit hj, fun ts f fit => placeLaunch_unread hj fit, fun ts img u fit => placeLaunch_places hj fit⟩,
    fun free d ts _ => fitTiles_some,
    fun s l x hx => ⟨fun queued late => congrArg Host.Outcome.next ?_, fun early => congrArg Host.Outcome.next ?_⟩,
    fun s i r hi => ⟨fun h => ?_, fun x hx h => ?_⟩, fun s u r x j bs hx hj runs live free read => ?_,
    fun s r next => ⟨fun h => ?_, fun h => ?_⟩,
    fun i f rest => ⟨fun h => if_pos h, fun h more => (if_neg (not_not_intro h)).trans (if_pos more)⟩,
    fun s id => ⟨rfl, fun l g => tickArm_loaded, fun l g p => tickArm_loads⟩,
    fun s jid id at_ l g hl hg hs => ⟨fun early => congrArg Host.Outcome.next ?_, fun due job new => congrArg Host.Outcome.next ?_,
      fun come => congrArg Host.Outcome.next ?_⟩⟩
  · rw [h]
  · rw [hj]
  · intro d l causes p
    have same := mem_causes u j l
    obtain ⟨id, queues, refuses⟩ := dispatch_settles (a := a) h fresh (l := l) rfl
    refine ⟨id, fun none => queues ?_, fun c mem least => refuses c ((same c).mp mem) fun b hb => least b ((same b).mpr hb)⟩
    exact List.eq_nil_iff_forall_not_mem.mpr fun c mem => List.ne_nil_of_mem ((same c).mpr mem) none
  · rw [hx]
    exact if_pos ⟨queued, late⟩
  · rw [hx]
    exact if_neg fun h => early.elim (fun n => n h.1) fun n => by omega
  · obtain ⟨kind, f, eq⟩ := graphNode_onNode hi s
    rw [eq, onNode_gone h]
  · obtain ⟨kind, f, eq⟩ := graphNode_onNode hi s
    rw [eq, onNode_over hx h]
  · intro n kind
    exact ⟨fun bad => congrArg Host.Outcome.next (onNode_bad hx hj runs live free read bad),
      graphNodeEnd_ends hx hj runs live free read,
      fun good which first nowait => graphNodeLaunch_goesOn hx hj runs live free read good which first nowait rfl,
      graphNodeJoin_goesOn hx hj runs live free read, fun cs v good => graphNodeCond_goesOn hx hj runs live free read good,
      fun cs v good => graphNodeLoop_goesOn hx hj runs live free read good,
      fun cs v good => graphNodeLoop_waits hx hj runs live free read good⟩
  · simp only [State.goOn, h, if_true]
    rfl
  · simp only [State.goOn, Nat.not_le.mpr h, if_false]
    rfl
  · simp only [hl, hg, hs]
    exact if_neg fun h => by omega
  · simp only [hl, hg, hs]
    exact if_pos ⟨job, by rw [new]; rfl, due⟩
  · simp only [hl, hg, hs, come]
    exact if_neg fun h => Bool.false_ne_true h.2.1

end Sys2Proof.Claims
end

section
/-!
SUPPORT, of O51. Jobs as packets open and close them (R171, R172, R187).
-/
namespace Sys2Proof.Machine

/-! What leaves the package. -/

theorem State.slotsSettle_books (s : State) : s.slotsSettle.books = s.books := by
  unfold State.slotsSettle
  refine books_foldl (fun u p => ?_) _ s
  dsimp only
  split <;> rfl

theorem State.freeJob_jobs (s : State) (j : Job) : (s.freeJob j).jobs = s.jobs.filter (fun x => x.jid != j.jid) :=
  congrArg (List.filter _) (State.jobs_of_books (State.slotsSettle_books _))

theorem State.job_freeJob_same (s : State) (j : Job) : (s.freeJob j).job? j.jid = none := by
  rw [State.job?, State.freeJob_jobs]
  exact List.find?_eq_none.mpr fun x mem => by simpa using (List.mem_filter.mp mem).2

theorem State.job_freeJob_other (s : State) {j : Job} {k : Nat} (h : k ≠ j.jid) : (s.freeJob j).job? k = s.job? k := by
  rw [State.job?, State.freeJob_jobs, List.find?_filter, State.job?]
  congr 1
  funext x
  by_cases here : x.jid = k <;> simp [here, h]

/-- With no job that closes, none leaves. -/
theorem closeSettle_none {s : State} (h : ∀ j ∈ s.jobs, j.closing = false) : s.closeSettle = s :=
  List.foldlRecOn (motive := (· = s)) s.jobs _ rfl fun u same j mem => by simp [h j mem, same]

section Close
variable {s : State} {j : Job} {c : Nat} (hj : s.job? j.jid = some j)
include hj

theorem closeJob_over (h : j.state ≠ 1) : s.closeJob j.jid c = s.freeJob j := by
  simp only [State.closeJob, hj]
  exact if_pos h

theorem closeJob_idle (runs : j.state = 1) (idle : s.jobIdle j = true) (live : j.cancelled = false) :
    s.closeJob j.jid c = ((((s.setJob { j with state := 2 }).jobState { j with state := 2 }).spillJob j.jid).freeJob
      { j with state := 2 }) := by
  simp only [State.closeJob, hj]
  rw [if_neg (not_not_intro runs), if_pos ⟨idle, by rw [live]; rfl⟩]

theorem closeJob_busy (runs : j.state = 1) (busy : s.jobIdle j = false) (live : j.cancelled = false) :
    s.closeJob j.jid c = (s.setJob { j with closing := true }).cancelJob j.jid c := by
  simp only [State.closeJob, hj]
  rw [if_neg (not_not_intro runs), if_neg (by simp [busy]), if_neg (by simp [live])]

end Close

/-! What an OPEN_JOB makes resident. -/

theorem State.readPlan_books (s : State) (j : Job) (va : Nat) : (s.readPlan j va).2.books = s.books := by
  unfold State.readPlan
  split
  · rfl
  · split
    · exact State.noteBad_books ..
    next head =>
      split
      · exact (State.noteBad_books ..).trans (State.gBytes_books head)
      next entries => exact (State.gBytes_books entries).trans (State.gBytes_books head)

/-- The job of a descriptor, before its plan is read. -/
def jobFrom (d : List Word) : Job :=
  { jid := jdJid d, ctx := jdCtx d, pri := Word.bits (wd d 0) 38 2, vf := jdVf d, pf := jdPf d, root := (wd d 1).toNat,
    saveb := wd d 2, ksbase := (jdKs d).1, kscnt := (jdKs d).2, domain := (wd d 4).truncate 32, jrec := wd d 5, plan := none,
    planAt := 0, planDue := [], cancelled := false, closing := false, state := 1, cause := 0, apt := [] }

/-- A job with the plan at an address, with no plan when that is 0, and with cause 0x01 when the plan is bad. -/
def State.withPlan (s : State) (j : Job) (va : Nat) : Job × State :=
  if va = 0 then (j, s) else match s.readPlan j (va % 2 ^ 56) with
    | (some p, s) => ({ j with plan := some p, planAt := firstStart p s.gtc }, s)
    | (none, s) => ({ j with cause := 1 }, s)

/-- What a plan changes in a job: with no address nothing, and with a bad plan the cause alone. -/
theorem withPlan_cases (s : State) (j : Job) (va : Nat) : (s.withPlan j va).2.books = s.books ∧
    ∃ p n c, (s.withPlan j va).1 = { j with plan := p, planAt := n, cause := c } ∧
      (va = 0 → p = j.plan ∧ c = j.cause) ∧ (c ≠ j.cause → p = j.plan ∧ c = 1) := by
  unfold State.withPlan
  split
  next zero => exact ⟨rfl, j.plan, j.planAt, j.cause, rfl, fun _ => ⟨rfl, rfl⟩, fun n => absurd rfl n⟩
  next address =>
    have books := s.readPlan_books j (va % 2 ^ 56)
    split
    next p u read =>
      rw [read] at books
      exact ⟨books, some p, _, j.cause, rfl, fun zero => absurd zero address, fun n => absurd rfl n⟩
    next u read =>
      rw [read] at books
      exact ⟨books, j.plan, j.planAt, 1, rfl, fun zero => absurd zero address, fun _ => ⟨rfl, rfl⟩⟩

theorem openJob_jobs (s : State) (d : List Word) :
    (s.openJob d).jobs = s.jobs ++ [(s.withPlan (jobFrom d) (wd d 3).toNat).1] := by
  obtain ⟨books, -⟩ := withPlan_cases s (jobFrom d) (wd d 3).toNat
  have kept : (s.openJob d).jobs =
      (s.withPlan (jobFrom d) (wd d 3).toNat).2.jobs ++ [(s.withPlan (jobFrom d) (wd d 3).toNat).1] :=
    State.jobs_of_books ((State.gPut_books ..).trans (State.gPut_books ..))
  rw [kept, State.jobs_of_books books]

/-! What a completion changes. -/

theorem State.queue_updQueue {s : State} {q : Nat} (h : q < 1040) (f : Queue → Queue) : (s.updQueue q f).queue q = f (s.queue q) := by
  have : isQueue q = true := by simp [isQueue]; omega
  simp [State.updQueue, this]

theorem State.updQueue_hostOut (s : State) (q : Nat) (f : Queue → Queue) : (s.updQueue q f).hostOut = s.hostOut := by
  unfold State.updQueue
  split <;> rfl

theorem State.updQueue_pci (s : State) (q : Nat) (f : Queue → Queue) : (s.updQueue q f).pci = s.pci := by
  unfold State.updQueue
  split <;> rfl

/-- A packet's completion reaches the host: CVAL at CADDR, when it has one. -/
def State.completion (s : State) (e : Started) : State :=
  if wd e.w 6 != 0 then { s with hostOut := s.hostOut ++ [.write (wd e.w 6) (toBytes 8 (wd e.w 7).toNat)] } else s

theorem State.completion_queue (s : State) (e : Started) (q : Nat) : (s.completion e).queue q = s.queue q := by
  unfold State.completion
  split <;> rfl

theorem State.completion_pci (s : State) (e : Started) : (s.completion e).pci = s.pci := by
  unfold State.completion
  split <;> rfl

theorem State.completion_hostOut (s : State) (e : Started) : (s.completion e).hostOut =
    s.hostOut ++ (if wd e.w 6 ≠ 0 then [.write (wd e.w 6) (toBytes 8 (wd e.w 7).toNat)] else []) := by
  unfold State.completion
  by_cases writes : wd e.w 6 = 0
  · rw [if_neg (fun n => bne_iff_ne.mp n writes), if_neg (not_not_intro writes), List.append_nil]
  · rw [if_pos (bne_iff_ne.mpr writes), if_pos writes]

end Sys2Proof.Machine
end

section
/-!
SUPPORT, of O51. What a packet does on its queue (R368, R370), and the clauses put together.
-/
namespace Sys2Proof.Claims
open Sys2Proof Sys2Proof.Machine

section Packet
variable {s : State} {q kind : Nat} {f : State → Started → Nat × Option Nat × State}

theorem onPacket_none (h : workOn s q kind = none) : s.onPacket q kind f = s := by
  unfold workOn at h
  unfold State.onPacket
  rw [h]

theorem onPacket_works {e : Started} (h : workOn s q kind = some e) {st : Nat} {n : Option Nat} {u : State} (work : f s e = (st, n, u)) :
    s.onPacket q kind f = staged u q e st n := by
  unfold workOn at h
  unfold State.onPacket
  rw [h]
  dsimp only
  rw [work]
  rfl

end Packet

theorem waitMem_none {s : State} {q : Nat} (h : workOn s q 5 = none) : s.waitMem q = s := by
  unfold State.waitMem State.waitMemBy
  exact onPacket_none h

/-- A packet event with no packet of its kind to work on: nothing, but that closing jobs may leave after RUN_GRAPH and WRITE_MEM. -/
theorem packet_none {i : Instr} {q k : Nat} {s : State} (row : packetRow i = some (q, k)) (h : workOn s q k = none) :
    (k = 3 ∨ k = 6 ∨ exec i s = .next s) ∧ (k = 3 ∨ k = 6 → exec i s = .next s.closeSettle) := by
  have idle : ∀ f, s.onPacket q k f = s := fun _ => onPacket_none h
  unfold packetRow at row
  split at row <;> cases row
  · exact ⟨.inr (.inr (congrArg Host.Outcome.next (idle _))), by omega⟩
  · exact ⟨.inr (.inr (congrArg Host.Outcome.next (idle _))), by omega⟩
  · exact ⟨.inr (.inr (congrArg Host.Outcome.next (idle _))), by omega⟩
  · exact ⟨.inl rfl, fun _ => congrArg (fun u => Host.Outcome.next (State.closeSettle u)) (idle _)⟩
  · exact ⟨.inr (.inr (congrArg Host.Outcome.next (idle _))), by omega⟩
  · exact ⟨.inr (.inr (congrArg Host.Outcome.next (waitMem_none h))), by omega⟩
  · exact ⟨.inr (.inl rfl), fun _ => congrArg (fun u => Host.Outcome.next (State.closeSettle u)) (idle _)⟩

section Work
variable {s : State} {q : Nat} {e : Started}

theorem closeJob_works (h : workOn s q 2 = some e) :
    let u := if e.st = 0 then s.closeJob (pkJid e.w) 0 else s
    (e.st = 0 → s.jobDue (pkJid e.w) = true → exec (.closeJob q) s = .next (staged s q e 0 none)) ∧
    (e.st ≠ 0 ∨ s.jobDue (pkJid e.w) = false →
      exec (.closeJob q) s = .next (staged u q e (if (jobOf u e).any (·.closing) then 1 else 2) none)) := by
  refine ⟨fun new due => congrArg Host.Outcome.next (onPacket_works h (if_pos ⟨new, due⟩)),
    fun free => congrArg Host.Outcome.next (onPacket_works h (if_neg fun held => ?_))⟩
  exact free.elim (fun n => n held.1) fun n => Bool.false_ne_true (n.symm.trans held.2)

section RunGraph
variable (h : workOn s q 3 = some e)
include h

theorem runGraph_waits {r : Nat} (started : e.run = some r) : exec (.runGraph q) s =
    .next (staged s q e (if (s.run? r).any (fun x => x.state == 1) then 1 else 2) (some r)).closeSettle := by
  refine congrArg (fun u => Host.Outcome.next (State.closeSettle u)) (onPacket_works h ?_)
  simp only [started]

variable (new : e.run = none) {j : Job} (hj : jobOf s e = some j)
include new hj

theorem runGraph_starts {r : Nat} {u : State} (runs : j.state = 1) (live : j.cancelled = false)
    (start : s.startRun j (arg0 e) false = (r, u)) : exec (.runGraph q) s =
      .next (staged u q e (if (u.run? r).any (fun x => x.state == 1) then 1 else 2) (some r)).closeSettle := by
  unfold jobOf at hj
  unfold arg0 at start
  refine congrArg (fun u => Host.Outcome.next (State.closeSettle u)) (onPacket_works h ?_)
  simp only [new, hj]
  rw [if_neg (by simp [runs, live]), start]

theorem runGraph_dead (dead : j.state ≠ 1 ∨ j.cancelled = true) :
    exec (.runGraph q) s = .next (staged (s.deadRun j (arg0 e)) q e 2 none).closeSettle := by
  unfold jobOf at hj
  refine congrArg (fun u => Host.Outcome.next (State.closeSettle u)) (onPacket_works h ?_)
  simp only [new, hj]
  exact if_pos dead

end RunGraph

theorem packetCancel_begins (h : workOn s q 4 = some e) {n : Option Nat} {u : State} (new : e.st = 0) (begins : s.beginCancel e.w = (n, u)) :
    exec (.packetCancel q) s = .next (staged u q e (if u.cancelOver e.w n then 2 else 1) n) := by
  refine congrArg Host.Outcome.next (onPacket_works h ?_)
  simp only [new, if_true, begins]

theorem packetCancel_waits (h : workOn s q 4 = some e) (begun : e.st = 1) :
    exec (.packetCancel q) s = .next (staged s q e (if s.cancelOver e.w e.run then 2 else 1) e.run) := by
  refine congrArg Host.Outcome.next (onPacket_works h ?_)
  simp only [begun, one_ne_zero, if_false]

theorem waitMem_reads (h : workOn s q 5 = some e) {u : State} {j : Job} {bs : List Byte} (hj : jobOf s e = some j)
    (read : s.gRead j (arg0 e) 8 = .ok (bs, u)) : exec (.waitMem q) s =
      .next (staged u q e (if relHolds (pkRel e.w) 64 (ofBytes bs) (wd e.w 4).toNat then 2 else 1) none) := by
  unfold jobOf at hj
  unfold arg0 at read
  show Host.Outcome.next (s.waitMem q) = _
  unfold State.waitMem State.waitMemBy
  refine congrArg Host.Outcome.next (onPacket_works h ?_)
  simp only [hj, read]

theorem waitMem_unread (h : workOn s q 5 = some e) {j : Job} {f : Byte × Nat} (hj : jobOf s e = some j)
    (read : s.gRead j (arg0 e) 8 = .error f) : exec (.waitMem q) s = .next (staged (s.noteBad f) q e 1 none) := by
  unfold jobOf at hj
  unfold arg0 at read
  show Host.Outcome.next (s.waitMem q) = _
  unfold State.waitMem State.waitMemBy
  refine congrArg Host.Outcome.next (onPacket_works h ?_)
  simp only [hj, read]

theorem writeMem_stores (h : workOn s q 6 = some e) {j : Job} (hj : jobOf s e = some j) : exec (.writeMem q) s =
    .next (staged (s.gPut j (arg0 e) (toBytes 8 (wd e.w 3).toNat)) q e 2 none).closeSettle := by
  unfold jobOf at hj
  refine congrArg (fun u => Host.Outcome.next (State.closeSettle u)) (onPacket_works h ?_)
  simp only [hj]
  rfl

end Work

section Complete
variable {s : State} {q : Nat} {ok : Bool}

theorem packetComplete_none (h : (s.queue q).active.find? (fun e => e.st == 2) = none) : s.packetComplete q ok = s := by
  simp only [State.packetComplete, h]

variable {e : Started} (h : (s.queue q).active.find? (fun e => e.st == 2) = some e)
include h

theorem packetComplete_eq : s.packetComplete q ok =
    let u := s.setQueue q { s.queue q with active := (s.queue q).active.filter (fun y => y.idx != e.idx) }
    let v := (u.completion e).updQueue q (fun x => { x with done := (x.done + 1) % 2 ^ 32 })
    if wd e.w 6 != 0 ∧ !ok then u.haltQueue q 7 else if pkIrq e.w then v.raiseIrq (q / 16) (q % 16) else v := by
  simp only [State.packetComplete, h]
  rfl

variable (hq : q < 1040)
include hq

theorem packetComplete_completes (good : wd e.w 6 = 0 ∨ ok = true) :
    ∃ v, s.packetComplete q ok = (if pkIrq e.w then v.raiseIrq (q / 16) (q % 16) else v) ∧
      v.queue q = { s.queue q with
        active := (s.queue q).active.filter (fun y => y.idx != e.idx), done := ((s.queue q).done + 1) % 2 ^ 32 } ∧
      v.pci = s.pci ∧
      v.hostOut = s.hostOut ++ (if wd e.w 6 ≠ 0 then [.write (wd e.w 6) (toBytes 8 (wd e.w 7).toNat)] else []) := by
  have posted : ¬ ((wd e.w 6 != 0) = true ∧ (!ok) = true) := fun ⟨writes, bad⟩ =>
    good.elim (bne_iff_ne.mp writes) fun n => by simp [n] at bad
  refine ⟨_, (packetComplete_eq h).trans (if_neg posted), ?_, ?_, ?_⟩
  · rw [State.queue_updQueue hq, State.completion_queue, State.queue_setQueue_same]
  · rw [State.updQueue_pci, State.completion_pci, State.setQueue_pci]
  · rw [State.updQueue_hostOut, State.completion_hostOut, State.setQueue_hostOut]

theorem packetComplete_halts (writes : wd e.w 6 ≠ 0) (bad : ok = false) :
    (s.packetComplete q ok).queue q = { s.queue q with
      active := (s.queue q).active.filter (fun y => y.idx != e.idx), halt := true, cause := 7 } ∧
    (s.packetComplete q ok).hostOut = s.hostOut := by
  rw [packetComplete_eq h]
  dsimp only
  rw [if_pos ⟨bne_iff_ne.mpr writes, by rw [bad]; rfl⟩]
  refine ⟨(State.queue_updQueue hq _).trans ?_, State.updQueue_hostOut ..⟩
  rw [State.queue_setQueue_same]

end Complete

/-- Settles O51: each packet by the stage of its work. -/
theorem packetsDoTheirWork : Obligations.PacketsDoTheirWork := by
  unfold Obligations.PacketsDoTheirWork
  refine ⟨fun i q k s => packet_none, fun s => closeSettle_none, fun s q e h => congrArg Host.Outcome.next (onPacket_works h rfl),
    fun s q e h => congrArg Host.Outcome.next (onPacket_works h rfl), fun s d => ⟨_, openJob_jobs s d, ?_⟩,
    fun s q e => closeJob_works, fun s j c hj => ⟨closeJob_over hj, closeJob_idle hj, closeJob_busy hj⟩,
    fun s j k => ⟨s.job_freeJob_same j, s.job_freeJob_other⟩,
    fun s q e h => ⟨fun r => runGraph_waits h, fun j r u new hj => runGraph_starts h new hj, fun j new hj => runGraph_dead h new hj⟩,
    fun s q e h => ⟨fun n u => packetCancel_begins h, packetCancel_waits h, fun job => ?_, fun l launch found => ?_, fun r run found => ?_⟩,
    fun s u q e j bs h => waitMem_reads h, fun s q e j f h => waitMem_unread h, fun s q e j h => writeMem_stores h,
    fun s q ok h => congrArg Host.Outcome.next (packetComplete_none h), fun s q ok e hq h => ?_⟩
  · obtain ⟨-, p, n, c, eq, noPlan, bad⟩ := withPlan_cases s (jobFrom d) (wd d 3).toNat
    rw [eq]
    exact ⟨rfl, rfl, rfl, rfl, rfl, rfl, rfl, rfl, rfl, rfl, rfl, rfl, fun h => noPlan (by rw [h]; rfl), bad⟩
  · simp only [State.beginCancel, job]
  · simp only [State.beginCancel, launch, found]
  · simp only [State.beginCancel, run, found]
  · intro x left
    exact ⟨s.packetComplete q ok, rfl, packetComplete_completes h hq, packetComplete_halts h hq⟩

end Sys2Proof.Claims
end

section
/-!
SUPPORT, of O56. The fields of a word (R199), the operands that fields name (R200, R203), the rows of the opcode map (R208) and
the custom instructions of a command processor (R435), each read back from its encoding.
-/
namespace Sys2Proof

/-! ## Words and their fields -/

theorem toNat_append_eq {m n : Nat} (x : BitVec m) (y : BitVec n) : (x ++ y).toNat = x.toNat * 2 ^ n + y.toNat := by
  rw [BitVec.toNat_append, ← Nat.shiftLeft_add_eq_or_of_lt y.isLt, Nat.shiftLeft_eq]

theorem extractLsb'_eq {m n k : Nat} {w : BitVec m} {x : BitVec n} (h : w.toNat / 2 ^ k % 2 ^ n = x.toNat) :
    w.extractLsb' k n = x :=
  BitVec.eq_of_toNat_eq (by rw [BitVec.extractLsb'_toNat, Nat.shiftRight_eq_div_pow, h])

theorem Raw.toNat_toWord (r : Raw) : r.toWord.toNat = (((((((((((r.opc.toNat * 2 ^ 3 + r.fmt.toNat) * 2 ^ 8 + r.df.toNat) * 2 ^ 8
    + r.af.toNat) * 2 ^ 8 + r.bf.toNat) * 2 ^ 8 + r.cf.toNat) * 2 ^ 20 + r.imm.toNat) * 2 ^ 4 + r.h.prd.toNat) * 2 ^ 8 +
    r.h.wsem.toNat) * 2 ^ 4 + r.h.wthr.toNat) * 2 ^ 8 + r.h.ssem.toNat) * 2 ^ 3 + r.h.sinc.toNat) * 2 ^ 5 + r.mod.toNat := by
  simp only [Raw.toWord, toNat_append_eq]

theorem Raw.ofWord_toWord (r : Raw) : Raw.ofWord r.toWord = r := by
  have e := r.toNat_toWord
  obtain ⟨opc, fmt, df, af, bf, cf, imm, ⟨prd, wsem, wthr, ssem, sinc⟩, mod⟩ := r
  simp only [Raw.ofWord, Raw.mk.injEq, Hdr.mk.injEq]
  dsimp only at e
  generalize Raw.toWord _ = w at e ⊢
  refine ⟨?_, ?_, ?_, ?_, ?_, ?_, ?_, ⟨?_, ?_, ?_, ?_, ?_⟩, ?_⟩
  all_goals exact extractLsb'_eq (by omega)

/-! ## Operands -/

/-- The operands that a scalar field names: all but those of a vector field and the bits of an immediate. -/
def Opd.scalarNamed : Opd → Bool
  | .vprv | .v _ | .byte _ => false
  | _ => true

theorem Opd.ofScalar_enc {o : Opd} (he : o.exists_ = true) (hs : o.scalarNamed = true) : Opd.ofScalar o.enc = some o := by
  cases o with
  | prv | zero | imm => rfl
  | vprv | v | byte => cases hs
  | o n | m n | g n | s n | p n | z n | a n =>
    have hn := of_decide_eq_true he
    interval_cases n <;> rfl

theorem Opd.ofVector_enc {o : Opd} {g : Nat} (he : o.exists_ = true) (hv : o.isVector g = true) : Opd.ofVector o.enc = some o := by
  cases o with
  | vprv | zero => rfl
  | v n =>
    have hn := of_decide_eq_true he
    interval_cases n <;> rfl
  | _ => cases hv

theorem Opd.scalarNamed_of_isScalar {o : Opd} (h : o.isScalar = true) : o.scalarNamed = true := by
  cases o with
  | vprv | v | byte | z | a => cases h
  | _ => rfl

/-- Every class of fields reads back an operand that it admits. -/
theorem FieldC.read_enc {c : FieldC} {g : Nat} {sb : Bool} {o : Opd} (he : o.exists_ = true) (hc : c.admits g sb o = true) :
    c.read sb o.enc = o := by
  have scalar (h : o.scalarNamed = true) : (Opd.ofScalar o.enc).getD .prv = o := by rw [Opd.ofScalar_enc he h]; rfl
  have vector {g : Nat} (h : o.isVector g = true) : (Opd.ofVector o.enc).getD .vprv = o := by rw [Opd.ofVector_enc he h]; rfl
  cases c with
  | unused => exact scalar (by rw [beq_iff_eq.mp hc]; rfl)
  | src | cfm => exact scalar (Opd.scalarNamed_of_isScalar hc)
  | srcR | dst => exact scalar (Opd.scalarNamed_of_isScalar (Bool.and_eq_true_iff.mp hc).1)
  | mg | pair | strm | z | acc =>
    refine scalar ?_
    cases o with
    | vprv | v | byte => cases hc
    | _ => rfl
  | vg | v1 => exact vector hc
  | vb =>
    cases sb with
    | true => exact scalar (Opd.scalarNamed_of_isScalar hc)
    | false => exact vector hc
  | any | cfx =>
    cases o with
    | byte => rfl
    | _ => cases hc

/-! ## Rows -/

theorem decode_unassigned {w : BitVec 96} (h : findRow (Raw.ofWord w).opc = none) : decode w = .error .illegalOpc := by
  simp only [decode, h]

theorem decode_unlisted {w : BitVec 96} {r : Row} (h : findRow (Raw.ofWord w).opc = some r)
    (hf : r.fmts.contains (Raw.ofWord w).fmt.toNat = false) : decode w = .error .badFmt := by
  simp only [decode, h, hf, Bool.false_eq_true, if_false]

theorem decode_listed {w : BitVec 96} {r : Row} (h : findRow (Raw.ofWord w).opc = some r)
    (hf : r.fmts.contains (Raw.ofWord w).fmt.toNat = true) : decode w = r.decode (Raw.ofWord w) := by
  simp only [decode, h, hf, if_true]

theorem Row.admits_iff {r : Row} {x : Ops} : r.admits x = true ↔
    r.fmts.contains x.fmt.toNat = true ∧
    (∀ p ∈ [(r.df, x.d), (r.af, x.a), (r.bf, x.b), (r.cf, x.c)],
      p.2.exists_ = true ∧ p.1.admits (groupSize x.mod) (r.scalarB (toRaw r.opc x)) p.2 = true) ∧
    r.bad (toRaw r.opc x) = [] ∧ r.overlaps (toRaw r.opc x) = false := by
  simp only [Row.admits, Bool.and_eq_true, List.all_eq_true, List.isEmpty_iff, Bool.not_eq_true', and_assoc]
  rfl

theorem Row.ops_toRaw {r : Row} {x : Ops} (h : r.admits x = true) : r.ops (toRaw r.opc x) = x := by
  obtain ⟨-, fields, -⟩ := Row.admits_iff.mp h
  have back {c : FieldC} {o : Opd} (m : (c, o) ∈ [(r.df, x.d), (r.af, x.a), (r.bf, x.b), (r.cf, x.c)]) :
      c.read (r.scalarB (toRaw r.opc x)) o.enc = o := FieldC.read_enc (fields _ m).1 (fields _ m).2
  show Ops.mk x.h x.fmt (r.df.read _ x.d.enc) (r.af.read _ x.a.enc) (r.bf.read _ x.b.enc) (r.cf.read _ x.c.enc) x.imm x.mod = x
  rw [back (c := r.df) (by simp), back (c := r.af) (by simp), back (c := r.bf) (by simp), back (c := r.cf) (by simp)]

theorem Row.decode_toRaw {r : Row} {x : Ops} (h : r.admits x = true) : r.decode (toRaw r.opc x) = .ok (r.make x) := by
  obtain ⟨-, -, good, apart⟩ := Row.admits_iff.mp h
  simp only [Row.decode, good, apart, Row.ops_toRaw h, Bool.false_eq_true, if_false]

theorem toRaw_opc_of_findRow {opc : Nat} {r : Row} (x : Ops) (h : findRow (BitVec.ofNat 9 opc) = some r) :
    toRaw r.opc x = toRaw opc x := by
  have e : r.opc = opc % 2 ^ 9 := by simpa using List.find?_some h
  have f : BitVec.ofNat 9 r.opc = BitVec.ofNat 9 opc := BitVec.eq_of_toNat_eq (by simp [e])
  simp only [toRaw, f]

/-- The row of an instruction's opcode makes that instruction: the opcode map looked up at every assigned opcode, the atomics at
each j (R264), the conversions at each source (R301, R303), and WRC at its register (R353). -/
theorem Instr.findRow_make {i : Instr} {opc : Nat} {x : Ops} (h : i.opOps = some (opc, x)) (hw : i.ownWrc = true)
    (hs : i.ownSrc = true) : (findRow (BitVec.ofNat 9 opc)).map (fun r => r.make x) = some i := by
  cases i
  all_goals cases h
  case aadd j | aand j | aor j | axor j | amax j | amin j | axchg j | acas j =>
    obtain ⟨⟨n, hn⟩⟩ := j
    change (findRow (BitVec.ofNat 9 (_ + n))).map _ = _
    interval_cases n <;> rfl
  case cvt src | vcvt src =>
    replace hs := of_decide_eq_true hs
    obtain ⟨⟨n, hn⟩⟩ := src
    change n < _ at hs
    change (findRow (BitVec.ofNat 9 (_ + n))).map _ = _
    interval_cases n <;> rfl
  case wrc | wrcCspill | wrcCras =>
    change some (wrcOf x) = _
    simp_all [ownWrc, wrcOf]
  all_goals rfl

theorem Instr.wf_core {i : Instr} {opc : Nat} {x : Ops} (h : i.wf = true) (ho : i.opOps = some (opc, x)) :
    ∃ r, findRow (BitVec.ofNat 9 opc) = some r ∧ r.admits x = true ∧ r.make x = i := by
  simp only [Instr.wf, Bool.and_eq_true, ho] at h
  obtain ⟨⟨⟨hw, hs⟩, -⟩, ha⟩ := h
  obtain ⟨r, hr, hm⟩ := Option.map_eq_some_iff.mp (Instr.findRow_make ho hw hs)
  rw [hr] at ha
  exact ⟨r, hr, ha, hm⟩

theorem decode_encodeCore {i : Instr} {w : BitVec 96} (h : i.wf = true) (hw : encodeCore i = some w) : decode w = .ok i := by
  obtain ⟨⟨opc, x⟩, ho, rfl⟩ := Option.map_eq_some_iff.mp hw
  obtain ⟨r, hr, ha, rfl⟩ := Instr.wf_core h ho
  have listed : r.fmts.contains x.fmt.toNat = true := (Row.admits_iff.mp ha).1
  have e : Raw.ofWord (toRaw opc x).toWord = toRaw opc x := Raw.ofWord_toWord _
  calc decode (toRaw opc x).toWord
    _ = r.decode (toRaw opc x) := by rw [decode_listed (r := r) (by rw [e]; exact hr) (by rw [e]; exact listed), e]
    _ = r.decode (toRaw r.opc x) := by rw [toRaw_opc_of_findRow x hr]
    _ = .ok (r.make x) := Row.decode_toRaw ha

/-! ## The custom instructions of a command processor -/

theorem encodeCp_fields (f7 : BitVec 7) (f3 : BitVec 3) (x : CpR) :
    (encodeCp f7 f3 x).extractLsb' 25 7 = f7 ∧ (encodeCp f7 f3 x).extractLsb' 20 5 = x.rs2 ∧
    (encodeCp f7 f3 x).extractLsb' 15 5 = x.rs1 ∧ (encodeCp f7 f3 x).extractLsb' 12 3 = f3 ∧
    (encodeCp f7 f3 x).extractLsb' 7 5 = x.rd ∧ (encodeCp f7 f3 x).extractLsb' 0 7 = 0x0B := by
  have e : (encodeCp f7 f3 x).toNat = ((((f7.toNat * 2 ^ 5 + x.rs2.toNat) * 2 ^ 5 + x.rs1.toNat) * 2 ^ 3 + f3.toNat) * 2 ^ 5 +
      x.rd.toNat) * 2 ^ 7 + 0x0B := by
    simp only [encodeCp, toNat_append_eq]
    rfl
  generalize encodeCp f7 f3 x = w at e ⊢
  obtain ⟨rd, rs1, rs2⟩ := x
  dsimp only at e ⊢
  refine ⟨?_, ?_, ?_, ?_, ?_, extractLsb'_eq (show w.toNat / 2 ^ 0 % 2 ^ 7 = 0x0B by omega)⟩
  all_goals exact extractLsb'_eq (by omega)

/-- The custom instruction of a FUNCT7, a FUNCT3 and register fields (R435). -/
noncomputable def customOf (f7 : BitVec 7) (f3 : BitVec 3) (x : CpR) : Option Instr :=
  match f3.toNat with
  | 0 => if f7 = 0 then some (.rfetch x) else none
  | 1 => if f7 = 0 then some (.bfex x) else none
  | 2 => if f7.toNat ≤ 5 then some (.sigwait f7 x) else none
  | 3 => if f7 = 0 ∧ x.rs2 = 0 then some (.disp x) else none
  | _ => none

theorem decodeCp_encodeCp (f7 : BitVec 7) (f3 : BitVec 3) (x : CpR) : decodeCp (encodeCp f7 f3 x) = customOf f7 f3 x := by
  obtain ⟨h7, h2, h1, h3, hd, hop⟩ := encodeCp_fields f7 f3 x
  simp only [decodeCp, h7, h2, h1, h3, hd, hop, ne_eq, not_true_eq_false, if_false, customOf] <;> rfl

theorem decodeCp_encode {i : Instr} {w : BitVec 32} (h : i.wf = true) (ho : i.opOps = none) (hw : encode i = [w]) :
    decodeCp w = some i := by
  have hr : i.eventInRange = true := by
    simp only [Instr.wf, Bool.and_eq_true] at h
    exact h.1.2
  cases i
  case rfetch x | bfex x =>
    cases hw
    rw [decodeCp_encodeCp]
    rfl
  case sigwait rel x =>
    cases hw
    rw [decodeCp_encodeCp]
    exact if_pos (of_decide_eq_true hr)
  case disp x =>
    cases hw
    rw [decodeCp_encodeCp]
    exact if_pos ⟨rfl, beq_iff_eq.mp hr⟩
  all_goals cases ho
  all_goals cases hw

end Sys2Proof

namespace Sys2Proof.Claims
open Sys2Proof Sys2Proof.Machine

/-- Settles O56: the word gives back its fields, the row of its opcode makes the instruction, and each field reads back the operand
that the row admits there. -/
theorem decodeReadsWhatEncodeWrote : Obligations.DecodeReadsWhatEncodeWrote :=
  ⟨fun _ _ => decode_encodeCore, fun _ _ => decodeCp_encode⟩

end Sys2Proof.Claims
end

section
/-!
SUPPORT, of O17 and O18. What a write to a scalar field does to the registers, file by file (R200, R201), and the read, the write and
the advance of a stream (R247).
-/
namespace Sys2Proof.Machine

/-! ## Registers after a write -/

theorem Regs.physOf_inj {r : Regs} {k n : Nat} (hk : k < 24) (hn : n < 24) : r.physOf n = r.physOf k ↔ k = n := by
  unfold Regs.physOf
  omega

theorem Regs.setPred_phys (r : Regs) (k : Nat) (b : Bool) : (r.setPred k b).phys = r.phys := by unfold Regs.setPred; split <;> rfl
theorem Regs.setPred_o (r : Regs) (k : Nat) (b : Bool) : (r.setPred k b).o = r.o := by unfold Regs.setPred; split <;> rfl
theorem Regs.setPred_g (r : Regs) (k : Nat) (b : Bool) : (r.setPred k b).g = r.g := by unfold Regs.setPred; split <;> rfl

theorem getLsbD_twoPow8 (k : Nat) {n : Nat} (hn : n < 8) : (BitVec.ofNat 8 (2 ^ k)).getLsbD n = decide (k = n) := by
  rw [BitVec.getLsbD_ofNat, Nat.testBit_two_pow, decide_eq_true hn, Bool.true_and]

theorem Regs.pred_setPred (r : Regs) {k n : Nat} (hn : n < 8) (b : Bool) :
    (r.setPred k b).pred n = if k = n ∧ n ≠ 0 then b else r.pred n := by
  by_cases h0 : k = 0
  · subst h0
    have untouched : ¬ (0 = n ∧ n ≠ 0) := fun h => h.2 h.1.symm
    rw [if_neg untouched]
    rfl
  · simp only [Regs.setPred, if_neg h0, Regs.pred]
    by_cases h : k = n
    · subst h
      cases b <;> simp only [Bool.false_eq_true, if_true, if_false, BitVec.getLsbD_or, BitVec.getLsbD_and, BitVec.getLsbD_not,
        getLsbD_twoPow8 k hn, beq_eq_false_iff_ne.mpr h0, ne_eq, h0] <;> simp
    · cases b <;> simp only [Bool.false_eq_true, if_true, if_false, BitVec.getLsbD_or, BitVec.getLsbD_and, BitVec.getLsbD_not,
        getLsbD_twoPow8 k hn, h, hn] <;> simp

/-- The registers of a core after a write to a field that is no stream, the latch among them. -/
def Regs.written (r : Regs) (o : Opd) (v : Word) : Regs := { r.put o v with prv := v }

theorem writeOpd_written {o : Opd} (h : ∀ n, o ≠ .s n) (v : Word) (s : State) :
    writeOpd o v s = .ok ((), s.withRegs (fun r => r.written o v)) := by
  cases o with
  | s n => exact absurd rfl (h n)
  | _ => rfl

section Written
variable (r : Regs) (o : Opd) (v : Word)

theorem Regs.written_rest : { r.written o v with phys := r.phys, o := r.o, g := r.g, preds := r.preds, prv := r.prv } = r := by
  cases o with
  | p n => simp only [Regs.written, Regs.put, Regs.setPred]; split <;> rfl
  | _ => rfl

theorem Regs.written_phys : (r.written o v).phys = match o with
    | .m n => smPut r.phys (r.physOf n) v
    | _ => r.phys := by
  cases o with
  | p n => exact r.setPred_phys n (v != 0)
  | _ => rfl

theorem Regs.written_o : (r.written o v).o = match o with
    | .o n => smPut r.o n v
    | _ => r.o := by
  cases o with
  | p n => exact r.setPred_o n (v != 0)
  | _ => rfl

theorem Regs.written_g : (r.written o v).g = match o with
    | .g n => smPut r.g n v
    | _ => r.g := by
  cases o with
  | p n => exact r.setPred_g n (v != 0)
  | _ => rfl

theorem Regs.written_base : (r.written o v).base = r.base := by
  have h := congrArg Regs.base (r.written_rest o v)
  exact h

theorem Regs.written_get_phys {o : Opd} (he : o.exists_ = true) {n : Nat} (h : ∀ k, k < 24 → n ≠ r.physOf k) :
    smGet 0 (r.written o v).phys n = smGet 0 r.phys n := by
  rw [Regs.written_phys]
  cases o with
  | m k => exact smGet_smPut_other 0 _ v (h k (of_decide_eq_true he))
  | _ => rfl

theorem Regs.written_get_m {o : Opd} (he : o.exists_ = true) {n : Nat} (hn : n < 24) :
    (r.written o v).m n = if o = .m n then v else r.m n := by
  unfold Regs.m
  rw [Regs.physOf, Regs.written_base, ← Regs.physOf, Regs.written_phys]
  cases o with
  | m k => simp only [smGet_smPut, Regs.physOf_inj (of_decide_eq_true he) hn, Opd.m.injEq]
  | _ => rw [if_neg nofun]

theorem Regs.written_get_o (n : Nat) : smGet 0 (r.written o v).o n = if o = .o n then v else smGet 0 r.o n := by
  rw [Regs.written_o]
  cases o with
  | o k => simp only [smGet_smPut, Opd.o.injEq, eq_comm]
  | _ => rw [if_neg nofun]

theorem Regs.written_get_g (n : Nat) : smGet 0 (r.written o v).g n = if o = .g n then v else smGet 0 r.g n := by
  rw [Regs.written_g]
  cases o with
  | g k => simp only [smGet_smPut, Opd.g.injEq, eq_comm]
  | _ => rw [if_neg nofun]

theorem Regs.written_pred {n : Nat} (hn : n < 8) :
    (r.written o v).pred n = if o = .p n ∧ n ≠ 0 then v != 0 else r.pred n := by
  cases o with
  | p k => exact (r.pred_setPred hn (v != 0)).trans (by simp only [Opd.p.injEq])
  | _ => rw [if_neg (fun h => nomatch h.1)]; rfl

end Written

/-! ## Streams -/

theorem streamStep_apply (n : Nat) (s : State) : streamStep n s = .ok ((), s.withRegs (fun r =>
    (r.setStream n (r.stream n).advance.1).setCeod n (r.stream n).advance.2)) := rfl

theorem Stream.advance_empty {st : Stream} (h : st.empty = true) : st.advance = (st, 2 ^ (st.ndim.toNat + 1) - 1) := by
  simp only [Stream.advance, h, if_true]

section Streams
variable {n : Nat} {s s1 : State} {v : Word}

theorem withRegs_step_empty (h : (s.me.regs.stream n).empty = true) (f : Regs → Regs) :
    (s.withRegs (fun r => f ((r.setStream n (r.stream n).advance.1).setCeod n (r.stream n).advance.2))) =
      s.withRegs (fun r => f ((r.setStream n (r.stream n)).setCeod n (2 ^ ((r.stream n).ndim.toNat + 1) - 1))) := by
  simp only [State.withRegs, Stream.advance_empty h]

theorem streamPeek_unbound (hb : (s.me.regs.stream n).bound = false) :
    streamPeek n s = .error (.trap (s.ipTrap Code.streamUnbound 1)) := by
  simp only [streamPeek, bind_getRegs, hb, Bool.not_false, if_true]
  rfl

theorem streamPeek_ofWrite (hb : (s.me.regs.stream n).bound = true) (hw : (s.me.regs.stream n).write = true) :
    streamPeek n s = .error (.trap (s.ipTrap Code.streamUnbound 3)) := by
  simp only [streamPeek, bind_getRegs, hb, hw, Bool.not_true, Bool.false_eq_true, if_false, if_true]
  rfl

theorem streamPeek_empty (hb : (s.me.regs.stream n).bound = true) (hw : (s.me.regs.stream n).write = false)
    (he : (s.me.regs.stream n).empty = true) : streamPeek n s = .ok (0, s) := by
  simp only [streamPeek, bind_getRegs, hb, hw, he, Bool.not_true, Bool.false_eq_true, if_false, if_true]
  rfl

theorem streamPeek_loads (hb : (s.me.regs.stream n).bound = true) (hw : (s.me.regs.stream n).write = false)
    (he : (s.me.regs.stream n).empty = false) {bs : List Byte} (hl : loadAt 0 (widthOf (s.me.regs.stream n).ty / 8) false
      (s.me.regs.stream n).ea (widthOf (s.me.regs.stream n).ty / 8) s = .ok (bs, s1)) :
    streamPeek n s = .ok (narrowFmt (s.me.regs.stream n).ty (ofBytes bs), s1) := by
  simp only [streamPeek, bind_getRegs, hb, hw, he, Bool.not_true, Bool.false_eq_true, if_false]
  exact Exec.bind_ok hl

theorem readOpd_stream (x : Ops) (h : streamPeek n s = .ok (v, s1)) : readOpd x (.s n) s = .ok (v, s1.withRegs (fun r =>
    (r.setStream n (r.stream n).advance.1).setCeod n (r.stream n).advance.2)) :=
  Exec.bind_ok h

theorem readOpd_stream_error (x : Ops) {i : Exit} (h : streamPeek n s = .error i) : readOpd x (.s n) s = .error i :=
  Exec.bind_error h

/-- A write that has stored its element, or has none to store, advances its stream and writes the latch. -/
theorem streamStep_latch (n : Nat) (v : Word) (s : State) : (streamStep n >>= fun _ => modRegs (fun r => { r with prv := v })) s =
    .ok ((), s.withRegs (fun r =>
      { (r.setStream n (r.stream n).advance.1).setCeod n (r.stream n).advance.2 with prv := v })) := by
  rw [Exec.bind_ok (streamStep_apply n s), modRegs_apply]
  simp only [State.withRegs, State.me_setMe, State.setMe_setMe]

theorem writeOpd_unbound (hb : (s.me.regs.stream n).bound = false) :
    writeOpd (.s n) v s = .error (.trap (s.ipTrap Code.streamUnbound 1)) := by
  simp only [writeOpd, bind_getRegs, hb, Bool.not_false, if_true]
  rfl

theorem writeOpd_ofRead (hb : (s.me.regs.stream n).bound = true) (hw : (s.me.regs.stream n).write = false) :
    writeOpd (.s n) v s = .error (.trap (s.ipTrap Code.streamUnbound 3)) := by
  simp only [writeOpd, bind_getRegs, hb, hw, Bool.not_true, Bool.not_false, Bool.false_eq_true, if_false, if_true]
  rfl

theorem writeOpd_empty (hb : (s.me.regs.stream n).bound = true) (hw : (s.me.regs.stream n).write = true)
    (he : (s.me.regs.stream n).empty = true) : writeOpd (.s n) v s = .ok ((), s.withRegs (fun r =>
      { (r.setStream n (r.stream n).advance.1).setCeod n (r.stream n).advance.2 with prv := v })) := by
  simp only [writeOpd, bind_getRegs, hb, hw, he, Bool.not_true, Bool.false_eq_true, if_false]
  exact streamStep_latch n v s

theorem writeOpd_stores (hb : (s.me.regs.stream n).bound = true) (hw : (s.me.regs.stream n).write = true)
    (he : (s.me.regs.stream n).empty = false) (hs : storeAt 1 (widthOf (s.me.regs.stream n).ty / 8) false
      (s.me.regs.stream n).ea (toBytes (widthOf (s.me.regs.stream n).ty / 8) v.toNat) s = .ok ((), s1)) :
    writeOpd (.s n) v s = .ok ((), s1.withRegs (fun r =>
      { (r.setStream n (r.stream n).advance.1).setCeod n (r.stream n).advance.2 with prv := v })) := by
  simp only [writeOpd, bind_getRegs, hb, hw, he, Bool.not_true, Bool.not_false, Bool.false_eq_true, if_false, if_true]
  exact (Exec.bind_ok hs).trans (streamStep_latch n v s1)

end Streams

end Sys2Proof.Machine

namespace Sys2Proof.Claims
open Sys2Proof Sys2Proof.Machine

theorem operandsReadTheirRegisters : OperandsReadTheirRegisters := by
  refine fun x s n => ⟨rfl, rfl, rfl, rfl, rfl, rfl, ?_⟩
  show Except.ok (wordB (n == 0 || s.me.regs.preds.getLsbD n), s) = _
  simp only [wordB, Bool.or_eq_true, beq_iff_eq]

theorem writesReachTheirDestination : WritesReachTheirDestination := by
  intro o v s he _ hn
  refine ⟨_, writeOpd_written hn v s, ?_⟩
  simp only [State.withRegs, State.me_setMe]
  exact ⟨rfl, fun n => Regs.written_get_m _ v he, Regs.written_get_o _ o v, Regs.written_get_g _ o v,
    fun n => Regs.written_pred _ o v, fun n => Regs.written_get_phys _ v he, Regs.written_rest _ o v, trivial⟩

/-- Settles O17: reading by what `readOpd` returns for each field, writing file by file. -/
theorem operandsAreReadAndWritten : Obligations.OperandsAreReadAndWritten :=
  ⟨operandsReadTheirRegisters, writesReachTheirDestination⟩

theorem streamReadsLoadTheNextElement : StreamReadsLoadTheNextElement :=
  ⟨fun x _ _ _ _ hb hw he hl => readOpd_stream x (streamPeek_loads hb hw he hl),
    fun x _ _ hb hw he => (readOpd_stream x (streamPeek_empty hb hw he)).trans
      (congrArg (fun t => Except.ok ((0 : Word), t)) (withRegs_step_empty he id)),
    fun x _ _ hb => readOpd_stream_error x (streamPeek_unbound hb),
    fun x _ _ hb hw => readOpd_stream_error x (streamPeek_ofWrite hb hw)⟩

theorem streamWritesStoreTheNextElement : StreamWritesStoreTheNextElement :=
  ⟨fun _ _ _ _ => writeOpd_stores,
    fun _ v _ hb hw he => (writeOpd_empty hb hw he).trans
      (congrArg (fun t => Except.ok ((), t)) (withRegs_step_empty he fun r => { r with prv := v })),
    fun _ _ _ => writeOpd_unbound, fun _ _ _ => writeOpd_ofRead⟩

/-- Settles O18: what a stream gives or takes by how it is bound, then its advance. -/
theorem streamAccessesLoadOrStoreTheNextElement : Obligations.StreamAccessesLoadOrStoreTheNextElement :=
  ⟨streamReadsLoadTheNextElement, streamWritesStoreTheNextElement⟩

end Sys2Proof.Claims
end

section
/-!
SUPPORT, of O7. Instruction pointers as line and slot (R195).
-/
namespace Sys2Proof.Machine

theorem ipOk_iff (ip : Word) : ipOk ip = true ↔ ip.toNat < 2 ^ 19 ∧ ip.toNat / 8 % 8 = 0 ∧ ip.toNat % 8 ≤ 4 := by
  have lt := ip.isLt
  simp only [ipOk, Word.bits, bitsAt, Bool.and_eq_true, beq_iff_eq, decide_eq_true_eq]
  omega

theorem toNat_slot {l k : Nat} (hl : l < 2 ^ 13) (hk : k ≤ 4) : (word (l * 64 + k)).toNat = l * 64 + k := by
  rw [word, BitVec.toNat_ofNat]
  omega

/-- A well-formed pointer names one of the five slots of one of the 2^13 lines. -/
theorem ipOk_iff_slot (ip : Word) : ipOk ip = true ↔ ∃ l k : Nat, l < 2 ^ 13 ∧ k ≤ 4 ∧ ip = word (l * 64 + k) := by
  rw [ipOk_iff]
  constructor
  · intro ⟨lt, mid, slot⟩
    refine ⟨ip.toNat / 64, ip.toNat % 8, by omega, slot, BitVec.eq_of_toNat_eq ?_⟩
    rw [toNat_slot (by omega) slot]
    omega
  · rintro ⟨l, k, hl, hk, rfl⟩
    rw [toNat_slot hl hk]
    omega

theorem ipNext_inLine {l k : Nat} (hl : l < 2 ^ 13) (hk : k < 4) : ipNext (word (l * 64 + k)) = word (l * 64 + k + 1) := by
  have at_ : (word (l * 64 + k)).toNat % 8 ≠ 4 := by rw [toNat_slot hl hk.le]; omega
  rw [ipNext, if_neg at_]
  exact BitVec.ofNat_add ..|>.symm

theorem ipNext_lastSlot {l : Nat} (hl : l < 2 ^ 13) : ipNext (word (l * 64 + 4)) = word ((l + 1) * 64) := by
  have at_ : (word (l * 64 + 4)).toNat % 8 = 4 := by rw [toNat_slot hl le_rfl]; omega
  rw [ipNext, if_pos at_, show (l + 1) * 64 = l * 64 + 4 + 60 by omega]
  exact BitVec.ofNat_add ..|>.symm

theorem ipOk_ipNext {ip : Word} (ok : ipOk ip = true) (last : ip ≠ 0x7FFC4) : ipOk (ipNext ip) = true := by
  obtain ⟨l, k, hl, hk, rfl⟩ := (ipOk_iff_slot ip).mp ok
  obtain hk | rfl := hk.lt_or_eq
  · rw [ipNext_inLine hl hk]
    exact (ipOk_iff_slot _).mpr ⟨l, k + 1, hl, hk, rfl⟩
  · have hl' : l + 1 < 2 ^ 13 := by
      by_contra top
      exact last (by rw [show l = 2 ^ 13 - 1 by omega]; rfl)
    rw [ipNext_lastSlot hl]
    exact (ipOk_iff_slot _).mpr ⟨l + 1, 0, hl', by omega, rfl⟩

end Sys2Proof.Machine

namespace Sys2Proof.Claims
open Sys2Proof Sys2Proof.Machine

/-- Settles O7: a pointer by its line and its slot. -/
theorem sequentialPointersStayWellFormed : Obligations.SequentialPointersStayWellFormed :=
  ⟨ipOk_iff_slot, fun _ _ => ipNext_inLine, fun _ => ipNext_lastSlot, fun _ => ipOk_ipNext⟩

end Sys2Proof.Claims
end

section
/-!
SUPPORT, of O28. The value that a semaphore is given (R269), and what a signal leaves of its tile (R206).
-/
namespace Sys2Proof.Machine

theorem toNat_clampI (y : Int) : (clampI 0 65535 y).toNat = (min y 65535).toNat := by
  rw [(clampI_eq (by decide) y).1]
  omega

theorem Tile.sem_le (x : Tile) (n : Nat) : x.sem n ≤ 65535 := by
  have := (smGet 0 x.sems n).isLt
  unfold Tile.sem
  omega

theorem Tile.sem_setSem (x : Tile) {n v : Nat} (h : v ≤ 65535) (m : Nat) : (x.setSem n v).sem m = if m = n then v else x.sem m := by
  simp only [Tile.setSem, Tile.sem, smGet_smPut]
  split
  · rw [BitVec.toNat_ofNat]
    omega
  · rfl

theorem Tile.sem_semOverflowed (x : Tile) (n k m : Nat) : (x.semOverflowed n k).sem m = x.sem m := by
  rw [Tile.sem, (x.semOverflowed_keeps n k).1, Tile.sem]

theorem Tile.semOvf_semOverflowed_first {x : Tile} (h : x.semOvf = none)
    (hp : x.cores.any (fun (_, c) => c.pend.any (fun p => p.item == 6)) = false) (n k : Nat) :
    (x.semOverflowed n k).semOvf = some { sem := n, by_ := k, again := 0 } := by
  simp only [Tile.semOverflowed, h, hp, Bool.false_eq_true, if_false]

theorem Tile.semOvf_semOverflowed_again {x : Tile} {o : SemOvf} (h : x.semOvf = some o) (n k : Nat) :
    (x.semOverflowed n k).semOvf = some { o with again := o.again + 1 } := by
  simp only [Tile.semOverflowed, h]

section Signal
variable (s : State) (t n k : Nat) {v : Nat}

theorem State.tile_signal (h : 0 < v) : (s.signal t n v k).tile t =
    if 65535 < (s.tile t).sem n + v then ((s.tile t).setSem n 65535).semOverflowed n k
    else (s.tile t).setSem n ((s.tile t).sem n + v) := by
  rw [State.signal, if_neg h.ne', State.tile_updTile_same]

theorem State.tile_signal_sum (h : 0 < v) (small : (s.tile t).sem n + v ≤ 65535) :
    (s.signal t n v k).tile t = (s.tile t).setSem n ((s.tile t).sem n + v) := by
  rw [State.tile_signal s t n k h, if_neg small.not_gt]

theorem State.tile_signal_overflow (h : 0 < v) (big : 65535 < (s.tile t).sem n + v) :
    (s.signal t n v k).tile t = ((s.tile t).setSem n 65535).semOverflowed n k := by
  rw [State.tile_signal s t n k h, if_pos big]

theorem State.sem_signal_other (h : 0 < v) {m : Nat} (hm : m ≠ n) : ((s.signal t n v k).tile t).sem m = (s.tile t).sem m := by
  obtain small | big := le_or_gt ((s.tile t).sem n + v) 65535
  · rw [State.tile_signal_sum s t n k h small, Tile.sem_setSem _ small, if_neg hm]
  · rw [State.tile_signal_overflow s t n k h big, Tile.sem_semOverflowed, Tile.sem_setSem _ le_rfl, if_neg hm]

end Signal

end Sys2Proof.Machine

namespace Sys2Proof.Claims
open Sys2Proof Sys2Proof.Machine

theorem semPut_apply (x : Ops) (y : Int) (ovf : Bool) (s : State) :
    semPut x y ovf s = .ok ((), semBecomes s (x.imm.toNat % 256) (min y 65535).toNat ovf) := by
  simp only [semPut, modState_apply, toNat_clampI, semNo, semBecomes]

theorem semNow_bind {α : Type} (x : Ops) (f : Nat → Exec α) (s : State) :
    (semNow x >>= f) s = f ((s.tile s.curTile).sem (x.imm.toNat % 256)) s := rfl

section Entries
variable {x : Ops} {s s0 s1 s2 : State} {a : Word}

theorem semset_does (ha : readA x s0 = .ok (a, s1)) : Does .alone x (.semset x) s s0
    (semBecomes s1 (x.imm.toNat % 256) (min a.toNat 65535) (decide (65535 < a.toNat))) := by
  refine does_of_body rfl ((Exec.bind_ok ha).trans ((semPut_apply ..).trans ?_))
  rw [show (min (a.toNat : Int) 65535).toNat = min a.toNat 65535 by omega]

theorem semadd_does (ha : readA x s0 = .ok (a, s1)) (hw : writeOpd x.d (word ((s1.tile s1.curTile).sem (x.imm.toNat % 256)))
    (semBecomes s1 (x.imm.toNat % 256) (min (((s1.tile s1.curTile).sem (x.imm.toNat % 256) : Int) + a.toInt) 65535).toNat
      (decide (65535 < ((s1.tile s1.curTile).sem (x.imm.toNat % 256) : Int) + a.toInt))) = .ok ((), s2)) :
    Does .alone x (.semadd x) s s0 s2 :=
  does_of_body rfl ((Exec.bind_ok ha).trans ((semNow_bind ..).trans ((Exec.bind_ok (semPut_apply ..)).trans hw)))

theorem semrd_does (hw : writeOpd x.d (word ((s0.tile s0.curTile).sem (x.imm.toNat % 256))) s0 = .ok ((), s2)) :
    Does .alone x (.semrd x) s s0 s2 :=
  does_of_body rfl hw

theorem semtry_takes (ha : readA x s0 = .ok (a, s1)) (enough : a.toNat ≤ (s1.tile s1.curTile).sem (x.imm.toNat % 256))
    (hw : writeOpd x.d 1 (semBecomes s1 (x.imm.toNat % 256) ((s1.tile s1.curTile).sem (x.imm.toNat % 256) - a.toNat) false) =
      .ok ((), s2)) : Does .alone x (.semtry x) s s0 s2 := by
  refine does_of_body rfl ((Exec.bind_ok ha).trans ((semNow_bind ..).trans ?_))
  have le := (s1.tile s1.curTile).sem_le (x.imm.toNat % 256)
  rw [if_pos enough, Exec.bind_ok (semPut_apply ..), ← hw]
  congr 3
  omega

theorem semtry_fails (ha : readA x s0 = .ok (a, s1)) (few : (s1.tile s1.curTile).sem (x.imm.toNat % 256) < a.toNat)
    (hw : writeOpd x.d 0 s1 = .ok ((), s2)) : Does .alone x (.semtry x) s s0 s2 := by
  refine does_of_body rfl ((Exec.bind_ok ha).trans ((semNow_bind ..).trans ?_))
  rw [if_neg few.not_ge]
  exact hw

theorem semwait_none (ha : readA x s0 = .ok (a, s1)) (h : a = 0) : Does .alone x (.semwait x) s s0 s1 := by
  refine does_of_body rfl ((Exec.bind_ok ha).trans ?_)
  rw [if_neg (not_not.mpr h)]
  rfl

theorem semwait_granted (ha : readA x s0 = .ok (a, s1)) (h : a ≠ 0) (hg : s1.me.granted = true) :
    Does .alone x (.semwait x) s s0 (s1.setMe { s1.me with granted := false, waiting := none }) := by
  refine does_of_body rfl ((Exec.bind_ok ha).trans ?_)
  rw [if_pos h, bind_getState, if_pos hg]
  rfl

theorem semwait_waits (ha : readA x s0 = .ok (a, s1)) (h : a ≠ 0) (hg : s1.me.granted = false) :
    Waits .alone x (.semwait x) s s0 (fun u =>
      u.setMe { u.me with waiting := some (x.imm.toNat % 256, a.toNat), needs := [], forOwn := true }) := by
  refine waits_of_body rfl ((Exec.bind_ok ha).trans ?_)
  rw [if_pos h, bind_getState, if_neg (by rw [hg]; nofun)]
  rfl

theorem semz_does (hw : writeOpd x.d (word ((s0.tile s0.curTile).sem (x.imm.toNat % 256)))
    (semBecomes s0 (x.imm.toNat % 256) 0 false) = .ok ((), s2)) : Does .alone x (.semz x) s s0 s2 :=
  does_of_body rfl ((semNow_bind ..).trans ((Exec.bind_ok (semPut_apply ..)).trans hw))

end Entries

theorem semaphoreInstructions : SemaphoreInstructions := fun _ _ _ _ _ _ ha =>
  ⟨semset_does ha, semadd_does ha, semrd_does, semtry_takes ha, semtry_fails ha, semwait_none ha, semwait_granted ha,
    semwait_waits ha, semz_does⟩

theorem signalsSaturate : SignalsSaturate := by
  intro s t n v k hv
  refine ⟨(State.signal_saturates (.inl hv)).1, fun m => State.sem_signal_other s t n k hv, fun small => ?_,
    fun big first idle => ?_, fun o big again => ?_⟩
  · rw [State.tile_signal_sum s t n k hv small]
    rfl
  · rw [State.tile_signal_overflow s t n k hv big]
    exact Tile.semOvf_semOverflowed_first (x := (s.tile t).setSem n 65535) first idle n k
  · rw [State.tile_signal_overflow s t n k hv big]
    exact Tile.semOvf_semOverflowed_again (x := (s.tile t).setSem n 65535) again n k

/-- Settles O28: each entry by what it gives its semaphore, a signal by its sum. -/
theorem semaphoresCountAndSaturate : Obligations.SemaphoresCountAndSaturate :=
  ⟨semaphoreInstructions, signalsSaturate⟩

end Sys2Proof.Claims
end

section
/-!
SUPPORT, of O5. The instructions of `entryOf` as one effect or as pieces of one, and what is left of either where the predicate is
false (R202).
-/
namespace Sys2Proof.Machine

/-! ## The end of an instruction, whether its effect ran or not -/

theorem finish_sequence {e : Entry} (x : Ops) (ran : Bool) {s : State} (ht : e.transfer = false) (hs : s.me.regs.slot = none) :
    finish e x ran s = .ok ((),
      (s.setMe { s.me with regs := { s.me.regs with mid := none, ip := ipNext s.me.regs.ip } }).grow e x ran) := by
  unfold finish
  simp only [bind_modRegs, bind_getRegs, ht, Bool.false_eq_true, if_false, State.me_setMe, hs, State.setMe_setMe, modState_apply]

theorem finish_transfer {e : Entry} (x : Ops) (ran : Bool) {s : State} (ht : e.transfer = true) (hs : s.me.regs.slot = none) :
    finish e x ran s = .ok ((), (s.setMe { s.me with regs := { s.me.regs with
      mid := none, ip := ipNext s.me.regs.ip
      slot := some { target := ipNext (ipNext s.me.regs.ip), act := .plain, notice := none } } }).grow e x ran) := by
  unfold finish
  simp only [bind_modRegs, bind_getRegs, ht, if_true, State.me_setMe, State.setMe_setMe, modState_apply, hs]

/-! ## An instruction whose predicate is false -/

theorem issueBody_lastSlot {e : Entry} (x : Ops) (body : Exec Unit) {s : State} (ht : e.transfer = true)
    (hip : s.me.regs.ip = 0x7FFC4) :
    issueBody e x body s = .error (.trap (mkTrap Code.badTarget 0x80000 0 15 s.curTile 3)) := by
  unfold issueBody
  simp only [bind_getRegs, ht, hip, and_self, if_true, bind_getState]
  rfl

theorem issueBody_skips {e : Entry} {x : Ops} (body : Exec Unit) {s : State} (hp : s.me.regs.holds x.h = false)
    (room : ¬ (e.transfer = true ∧ s.me.regs.ip = 0x7FFC4)) : issueBody e x body s = finish e x false s := by
  unfold issueBody
  simp only [bind_getRegs, if_neg room, hp, Bool.false_eq_true, if_false]

theorem pieceBody_skips {x : Ops} (e : Entry) (piece : Exec Bool) {s : State} (hp : s.me.regs.holds x.h = false) :
    pieceBody e x piece s = finish e x false s := by
  unfold pieceBody
  simp only [bind_getRegs, hp, Bool.false_eq_true, if_false]

/-! ## An attempt that ends -/

theorem runWhole_attempts {e : Entry} {x : Ops} (w : Exec Unit) {s s0 : State} (hg : s.gate e = none) (hp : s.prepare e x = .inr s0) :
    runWhole e x w s = .next (s0.attempt e w) := by
  simp only [runWhole, hg, hp]

theorem State.attempt_done {e : Entry} {w : Exec Unit} {s t : State} (hw : w s = .ok ((), t)) (hc : Commits e s t)
    (first : e.own = true → s.soloBlocked s.curTile s.curCore = false ∧ s.me.chunk.any (fun h => decide (0 < h.len)) = false) :
    s.attempt e w = s.done e t := by
  cases ho : e.own with
  | false => simp only [State.attempt, hw, ho, Bool.not_false, if_true, conclude_done ho hc]
  | true =>
    obtain ⟨free, alone⟩ := first ho
    simp only [State.attempt, State.attemptOwn, ownStart_first alone, hw, ho, free, Bool.not_true, Bool.false_eq_true, if_false,
      State.done, Bool.true_or, if_true]

end Sys2Proof.Machine

namespace Sys2Proof.Claims
open Sys2Proof Sys2Proof.Machine

/-- Every core instruction is run by its entry: as one effect, or, the block moves and fills, in pieces (R260). -/
theorem exec_of_entryOf {i : Instr} {e : Entry} {x : Ops} (h : entryOf i = some (e, x)) (s : State) :
    (∃ body, exec i s = runCore e x body s) ∨ (e.transfer = false ∧ ∃ piece, exec i s = runPieces e x piece s) := by
  cases i
  all_goals cases h
  case bmov | bfill => exact .inr ⟨rfl, _, rfl⟩
  all_goals exact .inl ⟨_, rfl⟩

theorem transfer_leaves_tile {i : Instr} {e : Entry} {x : Ops} (h : entryOf i = some (e, x)) (ht : e.transfer = true) :
    e.own = false := by
  have never : (e.transfer && e.own) = false := by
    cases i
    all_goals cases h
    all_goals rfl
  simpa only [ht, Bool.true_and] using never

/-- An instruction whose predicate is false is only followed. -/
theorem exec_skips {i : Instr} {e : Entry} {x : Ops} {s s0 t : State} (h : entryOf i = some (e, x)) (hg : s.gate e = none)
    (hp : s.prepare e x = .inr s0) (hf : s0.me.regs.holds x.h = false) (room : ¬ (e.transfer = true ∧ s0.me.regs.ip = 0x7FFC4))
    (first : e.own = true → s0.soloBlocked s0.curTile s0.curCore = false ∧ s0.me.chunk.any (fun h => decide (0 < h.len)) = false)
    (ht : finish e x false s0 = .ok ((), t)) (hc : Commits e s0 t) : exec i s = .next (s0.done e t) := by
  obtain ⟨body, run⟩ | ⟨-, piece, run⟩ := exec_of_entryOf h s
  · rw [run, runCore, runWhole_attempts _ hg hp, State.attempt_done ((issueBody_skips body hf room).trans ht) hc first]
  · rw [run, runPieces, runWhole_attempts _ hg hp, State.attempt_done ((pieceBody_skips e piece hf).trans ht) hc first]

theorem exec_transfer_lastSlot {i : Instr} {e : Entry} {x : Ops} {s s0 : State} (h : entryOf i = some (e, x)) (hg : s.gate e = none)
    (hp : s.prepare e x = .inr s0) (ht : e.transfer = true) (hip : s0.me.regs.ip = 0x7FFC4) :
    exec i s = .next (s0.preciseTrap (mkTrap Code.badTarget 0x80000 0 15 s0.curTile 3)) := by
  obtain ⟨body, run⟩ | ⟨still, -⟩ := exec_of_entryOf h s
  · rw [run, runCore, runWhole_attempts _ hg hp, State.attempt, issueBody_lastSlot x body ht hip]
  · rw [ht] at still
    cases still

theorem holds_of_prd (r : Regs) (h : Hdr) : (h.prd = 0 → r.holds h = true) ∧ (h.prd = 8 → r.holds h = false) := by
  constructor <;> intro hp <;> rw [Regs.holds, hp] <;> rfl

/-- Settles O5: whatever its effect, an instruction whose predicate is false only goes on, as a transfer with its delay slot. -/
theorem falsePredicateHasNoEffect : Obligations.FalsePredicateHasNoEffect := by
  refine ⟨fun i e x s s0 h hg hp hf ht hs first hc => ?_, fun i e x s s0 => exec_transfer_lastSlot,
    fun i e x s s0 h hg hp hf ht hs hip hc => ?_, holds_of_prd⟩
  · exact exec_skips h hg hp hf (by rw [ht]; nofun) first (finish_sequence x false ht hs) hc
  · exact exec_skips h hg hp hf (fun last => hip last.2) (fun own => by rw [transfer_leaves_tile h ht] at own; cases own)
      (finish_transfer x false ht hs) hc

end Sys2Proof.Claims
end

section
/-!
SUPPORT, of O3, O4, O11 and O57. What one turn comes to for each of those who can act (log entry 11), what a fetch gives (R194 to R196,
R209), and that every turn answers a next state (log entry 48).
-/
namespace Sys2Proof.Machine

/-! ## A turn, by who acts -/

section Turns
variable {s s1 : State} {dt : Nat}

theorem step_acts {w : Who} (h : s.nextTurn = (dt, some w, s1)) : step s = (s1.elapse dt).act w := by
  simp only [step, State.turn, h]

theorem step_idles (h : s.nextTurn = (dt, none, s1)) : step s = .next (s1.elapse dt) := by
  simp only [step, State.turn, h]

theorem act_core (hu : s.up = true) (t : Nat) (k : CoreK) : s.act (.core t k) = s.coreTurn t k := if_pos hu

theorem act_cp (hu : s.up = true) (n : Nat) : s.act (.cp n) = s.cpTurn n := if_pos hu

theorem act_event {i : Instr} (h : s.admits i = true) : s.act (.event i) = exec i s := if_pos h

variable {t : Nat} {k : CoreK}

theorem coreTurn_runs {i : Instr} (hb : s.beforeFetch t k = .inr s1)
    (hf : ({ s1 with curTile := t, curCore := k } : State).fetch = .inr i) :
    s.coreTurn t k = exec i { s1 with curTile := t, curCore := k } := by
  simp only [State.coreTurn, hb, hf]

theorem coreTurn_traps {i : TrapInfo} (hb : s.beforeFetch t k = .inr s1)
    (hf : ({ s1 with curTile := t, curCore := k } : State).fetch = .inl i) :
    s.coreTurn t k = .next (({ s1 with curTile := t, curCore := k } : State).preciseTrap i) := by
  simp only [State.coreTurn, hb, hf]

theorem coreTurn_before (hb : s.beforeFetch t k = .inl s1) : s.coreTurn t k = .next s1 := by
  simp only [State.coreTurn, hb]

end Turns

/-! ## A command processor's fetch -/

/-- The two low bits of a word in memory are those of its first halfword, which tell a word from a compressed instruction. -/
theorem readNat_word_low (s : State) (kn key : Nat) : s.readNat kn key 2 % 4 = s.readNat kn key 4 % 4 := by
  show (_ + 256 * _) % 4 = (_ + 256 * _) % 4
  omega

theorem opcode_of_decodeCp {w : BitVec 32} {i : Instr} (h : decodeCp w = some i) : w.extractLsb' 0 7 = 0x0B := by
  by_contra other
  rw [decodeCp, if_pos other] at h
  cases h

theorem custom_of_decodeCp {n : Nat} {i : Instr} (h : decodeCp (BitVec.ofNat 32 n) = some i) : n % 128 = 0x0B := by
  have e := congrArg BitVec.toNat (opcode_of_decodeCp h)
  rw [BitVec.extractLsb'_toNat, BitVec.toNat_ofNat, Nat.shiftRight_zero, show (0x0B : BitVec 7).toNat = 11 from rfl] at e
  omega

theorem cpTurn_custom {s : State} {n : Nat} {i : Instr} (hn : n < 8) (quiet : (s.cp n).interrupt = none)
    (even : (s.cp n).pc.toNat % 2 = 0) (inside : (s.cp n).pc.toNat + 4 ≤ cpScratch)
    (hd : decodeCp (BitVec.ofNat 32 (s.readNat 0 (cpKey n (s.cp n).pc.toNat) 4)) = some i) :
    s.cpTurn n = exec i { s with curCp := n } := by
  have custom := custom_of_decodeCp hd
  have long : ¬ s.readNat 0 (cpKey n (s.cp n).pc.toNat) 2 % 4 ≠ 3 := by
    rw [readNat_word_low]
    omega
  have quiet' : (({ s with curCp := n } : State).cp n).interrupt = none := quiet
  have reach : ¬ ((s.cp n).pc.toNat % 2 = 1 ∨ cpScratch < (s.cp n).pc.toNat + 2) := by omega
  unfold State.cpTurn
  dsimp only
  rw [if_neg hn.not_ge, quiet']
  refine (if_neg reach).trans ((if_neg long).trans ((if_neg inside.not_gt).trans ((if_pos custom).trans ?_)))
  show (match decodeCp (BitVec.ofNat 32 (s.readNat 0 (cpKey n (s.cp n).pc.toNat) 4)) with
    | some i => exec i { s with curCp := n }
    | none => _) = _
  rw [hd]

/-! ## What a core's fetch gives -/

section Fetch
variable {s : State}

theorem fetch_traps {i : TrapInfo} (h : s.fetchTrap = some i) : s.fetch = .inl i := by
  simp only [State.fetch, h]

theorem fetch_decodes {i : Instr} (h : s.fetchTrap = none)
    (hd : decode (slotWord (ofBytes (s.me.line s.me.regs.ip)) s.me.regs.ip) = .ok i) : s.fetch = .inr i := by
  simp only [State.fetch, h, hd]

theorem fetch_undecoded {e : DecodeErr} (h : s.fetchTrap = none)
    (hd : decode (slotWord (ofBytes (s.me.line s.me.regs.ip)) s.me.regs.ip) = .error e) :
    s.fetch = .inl (s.decodeTrap (Raw.ofWord (slotWord (ofBytes (s.me.line s.me.regs.ip)) s.me.regs.ip)) e) := by
  simp only [State.fetch, h, hd]

/-- A line that the tail does not meet has neither its first nor its last byte in the tail (R56). -/
theorem Tile.inTail_of_tailMeets {x : Tile} {ofs : Nat} (h : x.tailMeets ofs 64 = false) :
    x.inTail ofs = false ∧ x.inTail (ofs + 63) = false := by
  simp only [Tile.tailMeets, Tile.inTail, Bool.and_eq_false_iff, decide_eq_false_iff_not] at h ⊢
  omega

theorem fetchTrap_pastLm (h : 2 ^ 19 ≤ s.me.regs.ip.toNat) :
    s.fetchTrap = some (mkTrap Code.badTarget 0x80000 0 15 s.curTile 3) := if_pos h

variable (inLm : s.me.regs.ip.toNat < 2 ^ 19)
include inLm

theorem fetchTrap_tail (user : s.me.regs.priv = false) (tail : (s.tile s.curTile).inTail (lineBase s.me.regs.ip) = true) :
    s.fetchTrap = some (s.ipTrap Code.protection 7) :=
  (if_neg inLm.not_ge).trans (if_pos ⟨by rw [user]; rfl, .inl tail⟩)

variable (open_ : s.me.regs.priv = true ∨ (s.tile s.curTile).tailMeets (lineBase s.me.regs.ip) 64 = false)
include open_

theorem fetchTrap_outsideTail : s.fetchTrap =
    if (s.tile s.curTile).slabEngine 0 (lineBase s.me.regs.ip / 4096) then some (s.ipTrap Code.slabOwner 3)
    else match s.badLine (lineBase s.me.regs.ip) with
      | some p => some (mkTrap 0xF0 (localAddr s.curTile p) 0 2 s.curTile 0)
      | none => (parityFails (ofBytes (s.me.line s.me.regs.ip))).map (fun k => s.ipTrap Code.fetchParity k) := by
  have allowed : ¬ ((!s.me.regs.priv) = true ∧ ((s.tile s.curTile).inTail (lineBase s.me.regs.ip) = true ∨
      (s.tile s.curTile).inTail (lineBase s.me.regs.ip + 63) = true)) := by
    rintro ⟨user, tail⟩
    obtain priv | clear := open_
    · rw [priv] at user
      cases user
    · obtain ⟨first, last⟩ := Tile.inTail_of_tailMeets clear
      rw [first, last] at tail
      exact tail.elim nofun nofun
  exact (if_neg inLm.not_ge).trans (if_neg allowed)

theorem fetchTrap_engines (held : (s.tile s.curTile).slabEngine 0 (lineBase s.me.regs.ip / 4096) = true) :
    s.fetchTrap = some (s.ipTrap Code.slabOwner 3) :=
  (fetchTrap_outsideTail inLm open_).trans (if_pos held)

theorem fetchTrap_parity (ours : (s.tile s.curTile).slabEngine 0 (lineBase s.me.regs.ip / 4096) = false)
    (good : s.badLine (lineBase s.me.regs.ip) = none) {c : Nat} (fails : parityFails (ofBytes (s.me.line s.me.regs.ip)) = some c) :
    s.fetchTrap = some (s.ipTrap Code.fetchParity c) := by
  rw [fetchTrap_outsideTail inLm open_, if_neg (by rw [ours]; nofun), good, fails]
  rfl

end Fetch

/-! ## The faults of decode -/

theorem decodeTrap_delaySlot {s : State} {w : Raw} (e : DecodeErr) (ht : opcTransfer w.opc.toNat = true)
    (hs : s.me.regs.slot.isSome = true) : s.decodeTrap w e = s.ipTrap Code.delayBranch 0 :=
  if_pos ⟨ht, hs⟩

theorem notInSlot {s : State} {w : Raw} (hs : s.me.regs.slot = none) :
    ¬ (opcTransfer w.opc.toNat = true ∧ s.me.regs.slot.isSome = true) := by
  rw [hs]
  nofun

theorem gate_passes {s : State} {e : Entry} (transfer : e.transfer = false) (group : e.group = false)
    (core : coreMatches e.cores s.curCore = true) (priv : e.priv = true → s.me.regs.priv = true) (pf : e.pf = false) :
    s.gate e = none := by
  have allowed : ¬ (e.priv = true ∧ (!s.me.regs.priv) = true) := fun ⟨p, user⟩ => by rw [priv p] at user; cases user
  simp only [State.gate, transfer, group, core, pf, if_neg allowed, Bool.false_eq_true, false_and, Bool.not_true, if_false]

theorem decodeTrap_late {s : State} {w : Raw} {r : Row} (hs : s.me.regs.slot = none) (hr : findRow w.opc = some r)
    (core : coreMatches r.cores s.curCore = true) (priv : r.priv = true → s.me.regs.priv = true) (pf : opcPf w.opc.toNat = false)
    (group : opcGroup w.opc.toNat w.fmt.toNat = false) :
    (∀ b, s.decodeTrap w (.reserved b) = s.reservedTrap b) ∧ s.decodeTrap w .overlap = s.ipTrap Code.operandOverlap 0 := by
  have passes : s.gate { Entry.base with
      cores := r.cores, priv := r.priv, pf := opcPf w.opc.toNat, group := opcGroup w.opc.toNat w.fmt.toNat } = none :=
    gate_passes rfl group core priv pf
  have last (i : TrapInfo) : (match findRow w.opc with
      | none => i
      | some r => (s.gate { Entry.base with
          cores := r.cores, priv := r.priv, pf := opcPf w.opc.toNat, group := opcGroup w.opc.toNat w.fmt.toNat }).getD i) = i := by
    simp only [hr, passes, Option.getD_none]
  exact ⟨fun b => (if_neg (notInSlot hs)).trans (last _), (if_neg (notInSlot hs)).trans (last _)⟩

/-! ## Every turn answers -/

/-- A step that answers a next state. -/
def Answers (o : Out) : Prop := ∃ t, o = .next t

theorem answers_next (s : State) : Answers (.next s) := ⟨s, rfl⟩

/-- The arms of `exec` are written as next states. -/
theorem exec_answers (i : Instr) (s : State) : Answers (exec i s) := by
  cases i
  all_goals exact ⟨_, rfl⟩

theorem coreTurn_answers (s : State) (t : Nat) (k : CoreK) : Answers (s.coreTurn t k) := by
  cases hb : s.beforeFetch t k with
  | inl u => exact ⟨u, coreTurn_before hb⟩
  | inr u =>
    cases hf : ({ u with curTile := t, curCore := k } : State).fetch with
    | inl i => exact ⟨_, coreTurn_traps hb hf⟩
    | inr i =>
      rw [coreTurn_runs hb hf]
      exact exec_answers i _

theorem cpTurn_answers (s : State) (n : Nat) : Answers (s.cpTurn n) := by
  unfold State.cpTurn
  extract_lets u pc h w
  refine pred_ite (P := Answers) (fun _ => answers_next _) fun _ => ?_
  split
  · exact answers_next _
  · refine pred_ite (P := Answers) (fun _ => answers_next _) fun _ => pred_ite (P := Answers) (fun _ => ?_) fun _ =>
      pred_ite (P := Answers) (fun _ => answers_next _) fun _ => pred_ite (P := Answers) (fun _ => ?_) fun _ => answers_next _
    · split <;> exact answers_next _
    · split
      · exact exec_answers _ _
      · exact answers_next _

theorem act_answers (s : State) (w : Who) : Answers (s.act w) := by
  cases w with
  | core t k => exact pred_ite (P := Answers) (fun _ => coreTurn_answers s t k) fun _ => answers_next s
  | cp n => exact pred_ite (P := Answers) (fun _ => cpTurn_answers s n) fun _ => answers_next s
  | event i => exact pred_ite (P := Answers) (fun _ => exec_answers i s) fun _ => answers_next s
  | request code => exact answers_next _
  | lines n up => exact answers_next _

end Sys2Proof.Machine

namespace Sys2Proof.Claims
open Sys2Proof Sys2Proof.Machine

/-- Settles O3: a step by whose turn it is, a core's turn by what it fetches, a command processor's by the word at its pc. -/
theorem stepRunsTheDecodedInstruction : Obligations.StepRunsTheDecodedInstruction := by
  refine ⟨fun s s1 s2 t dt k i turn up before clear hd => ?_, fun s s1 n dt i turn up hn quiet even inside hd => ?_,
    fun s s1 dt i turn ok => ?_⟩
  · rw [step_acts turn, act_core up, coreTurn_runs before (fetch_decodes clear hd)]
    rfl
  · rw [step_acts turn, act_cp up, cpTurn_custom hn quiet even inside hd]
  · rw [step_acts turn, act_event ok]

/-- Settles O4: whoever acts, and where nobody does. -/
theorem everyStepAnswersANextState : Obligations.EveryStepAnswersANextState := by
  intro s
  rcases turn : s.nextTurn with ⟨dt, who, s1⟩
  cases who with
  | none => exact ⟨_, step_idles turn⟩
  | some w =>
    rw [step_acts turn]
    exact act_answers _ w

theorem fetchFaultsAreTakenPrecisely : FetchFaultsAreTakenPrecisely := by
  refine ⟨fun s s1 s2 t dt k i turn up before hf => ?_, fun s past => fetch_traps (fetchTrap_pastLm past),
    fun s inLm user tail => fetch_traps (fetchTrap_tail inLm user tail),
    fun s inLm open_ held => fetch_traps (fetchTrap_engines inLm open_ held),
    fun s c inLm open_ ours good fails => fetch_traps (fetchTrap_parity inLm open_ ours good fails)⟩
  rw [step_acts turn, act_core up, coreTurn_traps before hf]
  rfl

theorem decodeFaultsComeInOrder : DecodeFaultsComeInOrder := by
  refine ⟨fun s w e clear hw hd => ?_, fun s w e => decodeTrap_delaySlot e,
    fun s w hs => ⟨if_neg (notInSlot hs), if_neg (notInSlot hs)⟩, fun s w r b hs hr core priv pf group => ?_,
    fun w => decode_unassigned, fun w r => decode_unlisted⟩
  · subst hw
    exact fetch_undecoded clear hd
  · obtain ⟨reserved, overlap⟩ := decodeTrap_late hs hr core priv pf group
    exact ⟨reserved b, overlap⟩

/-- Settles O11: what fetch finds, check by check, and what decode finds, after the checks on the core. -/
theorem fetchAndDecodeFaultsComeInOrder : Obligations.FetchAndDecodeFaultsComeInOrder :=
  ⟨fetchFaultsAreTakenPrecisely, decodeFaultsComeInOrder⟩

/-- Settles O57: the decoder evaluated on each word, and the opcode map on 0x1FF. -/
theorem wordsDecodeToTheirInstructions : Obligations.WordsDecodeToTheirInstructions := by
  refine ⟨rfl, rfl, rfl, fun w h => decode_unassigned ?_⟩
  rw [show (Raw.ofWord w).opc = 0x1FF from h]
  exact Option.isNone_iff_eq_none.mp rfl

end Sys2Proof.Claims
end
